-- ==== Sys2Proof/Word.lean ====
section
/-! DEFINITION. The word types of the model: a byte and a 32-bit word (FP32 codes, u32 values). -/
namespace Sys2Proof

/-- One byte of a memory, a record or a message. -/
abbrev Byte := BitVec 8

/-- One 32-bit word: an FP32 code, a generator word, a u32 of a list. -/
abbrev Word := BitVec 32

end Sys2Proof
end

