-- ==== Sys2Proof/Syntax.lean ====
section
/-! DEFINITION. The commands the part takes: one constructor of `Instr` for each row of spec/opcode_table.json,
with its operands, and the operand types. A `p` is a physical Bead (R15), `j` a ledger index, `q` a queue. -/
namespace Sys2Proof

/-- One byte written at an offset of a row. -/
abbrev RowWrite := List (Nat × BitVec 8)

/-- A request of one fc on a Locket bank: the requester of Table 1.7, the row, whether the access moves the row after it as well
(R358), and what it writes there, each byte at its offset from the row; none for a read. -/
structure LockReq where
  who : Nat
  row : Nat
  wide : Bool
  write : Option RowWrite
  deriving DecidableEq, Repr

/-- What is wrong with a pin of a burst as a read receives it: the beats in error, bit b for beat b (R417). -/
structure PinError where
  pin : Nat
  beats : Nat
  deriving DecidableEq, Repr

/-- An error of a burst among those that a read of several takes. -/
structure BurstError where
  burst : Nat
  error : PinError
  deriving DecidableEq, Repr

/-- What the pins do wrong in a read of a burst, and in the read of its other copy where it has one (R414, R678). -/
structure ReadErrors where
  own : List PinError
  other : List PinError
  deriving DecidableEq, Repr

/-- A row of a bank of a pseudo-channel (Table 12.1). -/
structure BankRow where
  bank : Nat
  row : Nat
  deriving DecidableEq, Repr

/-- What a patrol or demand read found in the word or burst it read. -/
inductive ScrubResult where
  | clean
  | corrected
  | uncorrectable
  deriving DecidableEq, Repr

/-- The on-chip memories of Table 11.10 that patrol scrubbing reads (R398). -/
inductive OnChip where
  /-- a row of Locket bank 4p + b -/
  | locketRow (bank row : Nat)
  /-- a clean cache line of a Facet's Casket -/
  | casketClean (facet : Nat)
  /-- a dirty line or a scratch row of a Facet's Casket, in a slice -/
  | casketDirty (facet slice : Nat)
  /-- a word of the table store of Bead `p` at a table position -/
  | tableStore (p pos : Nat)
  /-- a sync object entry of Bead `p` -/
  | syncStore (p obj : Nat)
  deriving DecidableEq, Repr

/-- The fence domains that return to service by a reset of their own (Table 15.2). -/
inductive Domain where
  | segment (facet row : Nat)
  | facet (f : Nat)
  | pair (e : Nat)
  deriving DecidableEq, Repr

/-- A hardware fault of Table 15.1: its cause code, the unit of its domain, the subunit (a Locket bank) and the detail. -/
structure FaultEvent where
  cause : Nat
  unit : Nat
  sub : Nat
  detail : Nat
  deriving DecidableEq, Repr

/-- One reading of every sensor, in 1/16 degrees Celsius (R416, R528): eight junctions per Facet, the two Clasps,
Cameo, and the twenty stacks. -/
structure ThermalReading where
  facet : List Int
  clasp : List Int
  cameo : Int
  stack : List Int
  deriving DecidableEq, Repr

/-- Mean powers of an interval, in mW: the package and the eight core rails (Table 19.11). -/
structure PowerReading where
  package : Nat
  die : List Nat
  deriving DecidableEq, Repr

/-- Why a slice holds its pseudo-channel (R426). -/
inductive SliceKind where
  | retrain
  | repair (bank row : Nat)
  deriving DecidableEq, Repr

/-- Who consumes a read of stacked memory (Table 12.5). -/
inductive Reader where
  /-- a host read of the window through a head -/
  | host (head : Nat)
  /-- a read for the job of Bead `p` -/
  | bead (p : Nat)
  /-- patrol scrubbing or a repair: nobody consumes the data -/
  | scrub
  deriving DecidableEq, Repr

/-- The straps as the board ties them (Table 20.4). -/
structure Straps where
  addr : Nat
  head : Nat
  tick : Nat
  boot : Nat
  deriving DecidableEq, Repr

/-- A dictionary request (Table 18.2) with the path it arrives on, its MCTP tag and, for a write, its value bytes.
`resv` holds the bits of the three reserved fields. -/
structure MgmtReq where
  path : Nat
  tag : Nat
  op : Nat
  select : Nat
  reqId : Nat
  index : Nat
  sub : Nat
  inst : Nat
  mask : Nat
  offset : Nat
  length : Nat
  resv : Nat
  value : List Byte
  deriving DecidableEq, Repr

/-- The two ways to ask for a warm reset (R548, entry 0x2001.02). -/
inductive WarmResetSource where
  /-- a write of `width` bytes to the head control page -/
  | bar (head width v : Nat)
  /-- a dictionary write -/
  | dict (r : MgmtReq)
  deriving DecidableEq, Repr

/-- The SPDM requests the responder answers (R600): their code and, where they carry one, the slot or the measurement
index, and the nonce bytes. -/
inductive SpdmRequest where
  | getVersion
  | getCapabilities
  | negotiateAlgorithms
  | getDigests
  | getCertificate (slot : Nat)
  | challenge (slot : Nat) (nonce : List Byte)
  | getMeasurements (index : Nat) (signed : Bool) (nonce : List Byte)
  | keyExchange (slot : Nat) (body : List Byte)
  | finish (body : List Byte)
  | heartbeat
  | endSession
  | other (code : Nat)
  deriving DecidableEq, Repr

/-- A Strand block as it arrives (Table 16.6): header fields, the checks of its FEC codewords and CRC, and the payload. -/
structure StrandBlock where
  type : Nat
  seq : Nat
  ack : Nat
  creditVc : Nat
  credit : Nat
  resv : Nat
  intact : Bool
  payload : List Byte
  deriving DecidableEq, Repr

/-- A Strand message as it arrives (Table 16.8): header fields, ciphertext and tag. -/
structure StrandMessage where
  cls : Nat
  ring : Nat
  src : Nat
  dst : Nat
  dest : Nat
  object : Nat
  length : Nat
  resv : Nat
  cipher : List Byte
  tag : List Byte
  deriving DecidableEq, Repr

/-- What the messages of one rank's collective have brought: which collective of its job on the ring it is, its code and count, and
the rank's input (R570 to R572). -/
structure RankInput where
  index : Nat
  op : Nat
  count : Nat
  data : List (BitVec 8)
  deriving DecidableEq, Repr

/-- A ring, and the port on which a control message of it arrives (R557). -/
structure RingPort where
  ring : Nat
  port : Nat
  deriving DecidableEq, Repr

/-- A time-sync block as it arrives (Table 16.9). `arrival` is its arrival here; times are in 1/256 tk. -/
structure TimeSync where
  tTx : Nat
  echoTx : Nat
  echoRx : Nat
  refPart : Nat
  depth : Nat
  arrival : Nat
  deriving DecidableEq, Repr

/-- The commands of the part, one constructor for each row of spec/opcode_table.json, in its order. -/
inductive Instr where
  /-- TICK_SYNC_PULSE: a TICK_SYNC rising edge arrives `frac`/256 tk after the last tick edge (R49). -/
  | tickSyncPulse (frac : Nat)
  /-- TICK_ALIGNED_CLEAR: the offset has stayed within 2 tk for 131,072 tk (R53). -/
  | tickAlignedClear
  /-- BANK_COLLISION_REPLAY: the requests of one fc on a Locket bank of Bead `p` (R39, R361-R364). -/
  | bankCollisionReplay (p : Nat) (bank : Nat) (reqs : List LockReq)
  /-- LOAD_SETTING: the next ready descriptor of queue `q` is a load (R679). -/
  | loadSetting (q : Nat)
  /-- UNLOAD_SETTING: the next ready descriptor of queue `q` is an unload (R679). -/
  | unloadSetting (q : Nat)
  /-- ACCEPT_JOB: the part takes the next ready run descriptor of queue `q` (R478). -/
  | acceptJob (q : Nat)
  /-- BIND_JOB: the scheduler considers the waiting jobs (R488). -/
  | bindJob
  /-- WAKE_COMPLETE: the wake of Facet `f` ends (R676). -/
  | wakeComplete (f : Nat)
  /-- UNBIND: the job of ledger index `j` leaves its group (R389). -/
  | unbind (j : Nat)
  /-- IDLE_DELAY_EXPIRY: the idle delay of Facet `f` ends (R399). -/
  | idleDelayExpiry (f : Nat)
  /-- JOB_COMPLETE: the completion record of job `j` is due (R484). -/
  | jobComplete (j : Nat)
  /-- CHECKPOINT_COMMIT: the open checkpoint generation of job `j` commits (R491). -/
  | checkpointCommit (j : Nat)
  /-- RUN_LIMIT_EXPIRY: the run limit of job `j` is reached (R489). -/
  | runLimitExpiry (j : Nat)
  /-- SUBMISSION_DOORBELL: a write of `width` bytes to page offset 0x000 of queue `q` (R473). -/
  | submissionDoorbell (head : Nat) (q : Nat) (width : Nat) (v : Nat)
  /-- JOURNAL_DOORBELL: a write to page offset 0x008 (R685). -/
  | journalDoorbell (head : Nat) (q : Nat) (width : Nat) (v : Nat)
  /-- CANCEL_DOORBELL: a write to page offset 0x010 (R490). -/
  | cancelDoorbell (head : Nat) (q : Nat) (width : Nat) (v : Nat)
  /-- END: CTRL end on physical Bead `p` (R98). -/
  | endStream (p : Nat)
  /-- STEP_BEGIN: CTRL step_begin (R98). -/
  | stepBegin (p : Nat)
  /-- STEP_END: CTRL step_end (R108). -/
  | stepEnd (p : Nat)
  /-- LOOP_BEGIN: CTRL loop_begin (R99). -/
  | loopBegin (p : Nat)
  /-- LOOP_END: CTRL loop_end (R98). -/
  | loopEnd (p : Nat)
  /-- DECIDE: CTRL decide (R311). -/
  | decide (p : Nat)
  /-- TABLE_SWAP: CTRL table_swap (R237). -/
  | tableSwap (p : Nat)
  /-- BARRIER: CTRL barrier (R369). -/
  | barrier (p : Nat)
  /-- BARRIER_RELEASE: the barrier `obj` of job `j` releases (R369). -/
  | barrierRelease (j : Nat) (obj : Nat)
  /-- YIELD: CTRL yield (R111). -/
  | yield (p : Nat)
  /-- MMA: MMA (R163). -/
  | mma (p : Nat)
  /-- CHAIN_PRODUCT: CHAIN kind 0 (R200). -/
  | chainProduct (p : Nat)
  /-- CHAIN_ATTENTION: CHAIN kind 1 without a score mask (R213). -/
  | chainAttention (p : Nat)
  /-- SCORE_PASS: CHAIN kind 1 with a score mask (R288). -/
  | scorePass (p : Nat)
  /-- CHAIN_MLP: CHAIN kind 2 (R216). -/
  | chainMlp (p : Nat)
  /-- COPY: LANE 0x00 (R95). -/
  | copy (p : Nat)
  /-- CONVERT: LANE 0x01 (R95). -/
  | convert (p : Nat)
  /-- ADD: LANE 0x02 (R95). -/
  | add (p : Nat)
  /-- SUBTRACT: LANE 0x03 (R95). -/
  | subtract (p : Nat)
  /-- MULTIPLY: LANE 0x04 (R95). -/
  | multiply (p : Nat)
  /-- FUSED_MULTIPLY_ADD: LANE 0x05 (R95). -/
  | fusedMultiplyAdd (p : Nat)
  /-- MAXIMUM: LANE 0x06 (R95). -/
  | maximum (p : Nat)
  /-- MINIMUM: LANE 0x07 (R95). -/
  | minimum (p : Nat)
  /-- ABSOLUTE_VALUE: LANE 0x08 (R95). -/
  | absoluteValue (p : Nat)
  /-- NEGATE: LANE 0x09 (R95). -/
  | negate (p : Nat)
  /-- RELU: LANE 0x0A (R95). -/
  | relu (p : Nat)
  /-- LEAKY_RELU: LANE 0x0B (R95). -/
  | leakyRelu (p : Nat)
  /-- SCALAR_AFFINE: LANE 0x0C (R95). -/
  | scalarAffine (p : Nat)
  /-- LANE_SUM: LANE 0x0D (R95). -/
  | laneSum (p : Nat)
  /-- LANE_MAXIMUM: LANE 0x0E (R95). -/
  | laneMaximum (p : Nat)
  /-- RNG_CONTEXT: LANE 0x30 (R354). -/
  | rngContext (p : Nat)
  /-- RAND_BITS: LANE 0x31 (R350). -/
  | randBits (p : Nat)
  /-- RAND_UNIFORM: LANE 0x32 (R350). -/
  | randUniform (p : Nat)
  /-- RAND_UNIFORM_OPEN: LANE 0x33 (R350). -/
  | randUniformOpen (p : Nat)
  /-- RAND_NORMAL: LANE 0x34 (R350). -/
  | randNormal (p : Nat)
  /-- EXP2: LANE 0x40 (R231). -/
  | exp2 (p : Nat)
  /-- EXP: LANE 0x41 (R231). -/
  | exp (p : Nat)
  /-- LOG2: LANE 0x42 (R231). -/
  | log2 (p : Nat)
  /-- LN: LANE 0x43 (R231). -/
  | ln (p : Nat)
  /-- RECIP: LANE 0x44 (R231). -/
  | recip (p : Nat)
  /-- DIV: LANE 0x45 (R224). -/
  | div (p : Nat)
  /-- RSQRT: LANE 0x46 (R231). -/
  | rsqrt (p : Nat)
  /-- SQRT: LANE 0x47 (R231). -/
  | sqrt (p : Nat)
  /-- EVAL: LANE 0x48 (R229). -/
  | eval (p : Nat)
  /-- GAUSS: LANE 0x49 (R232). -/
  | gauss (p : Nat)
  /-- TABLE_LOAD: LANE 0x4A (R236). -/
  | tableLoad (p : Nat)
  /-- TABLE_LOAD_COMPLETE: the image of a table_load to position `pos` is complete (R236). -/
  | tableLoadComplete (p : Nat) (pos : Nat)
  /-- LAYER_NORMALISATION: LANE 0x50 (R248). -/
  | layerNormalisation (p : Nat)
  /-- RMS_NORMALISATION: LANE 0x51 (R248). -/
  | rmsNormalisation (p : Nat)
  /-- GROUP_NORMALISATION: LANE 0x52 (R248). -/
  | groupNormalisation (p : Nat)
  /-- SOFT_MAXIMUM: LANE 0x53 (R250). -/
  | softMaximum (p : Nat)
  /-- STATISTICS_ONLY: LANE 0x54 (R248). -/
  | statisticsOnly (p : Nat)
  /-- APPLY: LANE 0x55 (R248). -/
  | apply (p : Nat)
  /-- COMPLETE: LANE 0x56 (R248). -/
  | complete (p : Nat)
  /-- LOUPE_COMPARE: LANE 0x60 (R303). -/
  | loupeCompare (p : Nat)
  /-- ROUTE: LANE 0x61 (R316). -/
  | route (p : Nat)
  /-- TILE_REPORT: the `n`-th tile report under way for job `j` reaches the home Casket (R305). -/
  | tileReport (j : Nat) (n : Nat)
  /-- ROUND_WAIT_EXPIRY: the decide of Bead `p` has waited 8,715 tk (R309). -/
  | roundWaitExpiry (p : Nat)
  /-- PAD_FILL: LANE 0x70 (R332). -/
  | padFill (p : Nat)
  /-- CONV_GATHER: LANE 0x71 (R334). -/
  | convGather (p : Nat)
  /-- HALO_CHECK: LANE 0x72 (R340). -/
  | haloCheck (p : Nat)
  /-- RESAMPLE: LANE 0x73 (R335). -/
  | resample (p : Nat)
  /-- REGROUP: LANE 0x74 (R336). -/
  | regroup (p : Nat)
  /-- ALL_REDUCE_SUM: LANE 0x80; `inputs` holds what has come of each rank, the own rank's entry unused (R571). -/
  | allReduceSum (p : Nat) (inputs : List RankInput)
  /-- REDUCE_SCATTER_SUM: LANE 0x81 (R571). -/
  | reduceScatterSum (p : Nat) (inputs : List RankInput)
  /-- ALL_GATHER: LANE 0x82 (R570). -/
  | allGather (p : Nat) (inputs : List RankInput)
  /-- ALL_REDUCE_MINIMUM: LANE 0x83 (R570). -/
  | allReduceMinimum (p : Nat) (inputs : List RankInput)
  /-- DMA_COPY: DMA kind 0 without a halo descriptor (R100). -/
  | dmaCopy (p : Nat)
  /-- GATHER_BY_LIST: DMA kind 1 on a tensor that is no pool (R313). -/
  | gatherByList (p : Nat)
  /-- SCATTER_BY_LIST: DMA kind 2 on a tensor that is no pool (R313). -/
  | scatterByList (p : Nat)
  /-- SESSION_INPUT_DECRYPT: DMA kind 3 (R680). -/
  | sessionInputDecrypt (p : Nat)
  /-- SESSION_OUTPUT_ENCRYPT: DMA kind 4 (R680). -/
  | sessionOutputEncrypt (p : Nat)
  /-- MULTICAST_COPY: DMA kind 5 (R181). -/
  | multicastCopy (p : Nat)
  /-- HALO_SEND: DMA kind 0 with a halo descriptor (R337). -/
  | haloSend (p : Nat)
  /-- ROW_STREAM: DMA kind 6 of an encode stream (R449). -/
  | rowStream (p : Nat)
  /-- TRANSFER_COMPLETE: transfer `t` is complete (R97). -/
  | transferComplete (t : Nat)
  /-- WALK: DMA kind 1 on a pool tensor (R261). -/
  | walk (p : Nat)
  /-- WALK_START: a walker takes walk `w` (R278). -/
  | walkStart (w : Nat)
  /-- WALK_BLOCK_DELIVERY: the next block of walk `w` goes to its ring slots (R262). -/
  | walkBlockDelivery (w : Nat)
  /-- APPEND: DMA kind 2 on a pool tensor, op 0 (R271). -/
  | append (p : Nat)
  /-- DROP_BELOW: DMA kind 2 on a pool tensor, op 1 (R274). -/
  | dropBelow (p : Nat)
  /-- SCORE_ADD: DMA kind 2 on a pool tensor, op 2 (R276). -/
  | scoreAdd (p : Nat)
  /-- TRUNCATE_FROM: DMA kind 2 on a pool tensor, op 3 (R275). -/
  | truncateFrom (p : Nat)
  /-- EDIT_COMMIT: edit `e` commits (R277). -/
  | editCommit (e : Nat)
  /-- FRAME_RECLAIM: a released frame returns to its free list (R282). -/
  | frameReclaim (j : Nat) (pool : Nat) (frame : Nat)
  /-- POOL_WAIT_EXPIRY: the append `e` has waited 8,715 tk for a frame (R284). -/
  | poolWaitExpiry (e : Nat)
  /-- SYNC_POST: SYNC 0 (R368). -/
  | syncPost (p : Nat)
  /-- SYNC_FILL: SYNC 1 (R370). -/
  | syncFill (p : Nat)
  /-- SYNC_DRAIN: SYNC 2 (R373). -/
  | syncDrain (p : Nat)
  /-- SYNC_OPEN: SYNC 3 (R377). -/
  | syncOpen (p : Nat)
  /-- SYNC_CLOSE: SYNC 4 (R380). -/
  | syncClose (p : Nat)
  /-- SYNC_CONTRIBUTE: SYNC 5 (R392). -/
  | syncContribute (p : Nat)
  /-- CONTRIBUTION_ARRIVAL: the `n`-th contribution under way for job `j` reaches its home Casket (R394). -/
  | contributionArrival (j : Nat) (n : Nat)
  /-- FILL_ADMIT: the first fill waiting for slot `obj` of Bead `p` is admitted (R371). -/
  | fillAdmit (p : Nat) (obj : Nat)
  /-- FILL_LAND: the fill of slot `obj` of Bead `p` lands (R370). -/
  | fillLand (p : Nat) (obj : Nat)
  /-- REMOTE_ACCESS_ADMIT: the remote access of transfer `t` is admitted (R379). -/
  | remoteAccessAdmit (t : Nat)
  /-- SLOT_WATCHDOG_EXPIRY: a wait of job `j` has lasted 8,715 tk (R375). -/
  | slotWatchdogExpiry (j : Nat)
  /-- ROW_INTAKE: the `n`-th row waiting at stream `st` is taken (R451). -/
  | rowIntake (st : Nat) (n : Nat)
  /-- CTU_ROW_START: the pixel engines begin the next CTU row of stream `st` (R452). -/
  | ctuRowStart (st : Nat)
  /-- RECORD_ASSEMBLY: the record of the coded frame is assembled (R461). -/
  | recordAssembly (st : Nat)
  /-- DECODE_INPUT: DMA kind 6 of a decode stream (R448). -/
  | decodeInput (p : Nat)
  /-- DECODE_FRAME_OUTPUT: the decoder writes its next frame (R462). -/
  | decodeFrameOutput (st : Nat)
  /-- END_OF_INPUT: DMA kind 6 of zero bytes of a decode stream (R467). -/
  | endOfInput (p : Nat)
  /-- FAULT: the sequencer handles a fault (R505). -/
  | fault (f : FaultEvent)
  /-- BEAD_PROGRESS_EXPIRY: an issued instruction of Bead `p` made no progress for 2^20 fc (R504). -/
  | beadProgressExpiry (p : Nat)
  /-- SELF_TEST_COMPLETE: the self-test of Bead `p` ends (R508). -/
  | selfTestComplete (p : Nat) (ok : Bool)
  /-- DOMAIN_RETURN: the reset of a fenced segment, Facet or engine pair ends (R505). -/
  | domainReturn (d : Domain) (ok : Bool)
  /-- EDGE_RETRY_EXHAUSTED: edge `e` has failed 16 retries on one flit (R510). -/
  | edgeRetryExhausted (e : Nat)
  /-- PAVE_TAKEOVER: the surviving Clasp's Pave takes over (R516). -/
  | paveTakeover
  /-- TAMPER: the tamper sensors of the bit mask fire in one stamp (R592). -/
  | tamper (sensors : Nat)
  /-- THERMAL_READING: every sensor is read (R528). -/
  | thermalReading (r : ThermalReading)
  /-- TELEMETRY_INTERVAL_END: a telemetry interval ends with its mean powers (R47). -/
  | telemetryIntervalEnd (r : PowerReading)
  /-- REFRESH: a per-bank refresh falls due (R415). -/
  | refresh (pc : Nat) (bank : Nat)
  /-- RETRAIN_START: a retrain of stack `st` starts (R428). -/
  | retrainStart (st : Nat) (eyeLow : Bool)
  /-- SLICE_BEGIN: a slice begins on pseudo-channel `pc` (R426). -/
  | sliceBegin (pc : Nat) (k : SliceKind)
  /-- SLICE_END: the slice on `pc` ends; `ok`: the eye works (R427). -/
  | sliceEnd (pc : Nat) (ok : Bool)
  /-- SOFT_REPAIR: a row is soft-repaired in its slice (R422). -/
  | softRepair (pc : Nat) (place : BankRow) (errs : List BurstError)
  /-- UNCORRECTABLE_READ: a read finds an uncorrectable burst (R420). -/
  | uncorrectableRead (pc : Nat) (granule : Nat) (burst : Nat) (errs : ReadErrors) (r : Reader)
  /-- PC_LOSS: a pseudo-channel is declared lost (R429). -/
  | pcLoss (pc : Nat) (reason : Nat)
  /-- MAP_EPOCH_BARRIER: the map-epoch barrier due at this edge (R432). -/
  | mapEpochBarrier
  /-- REMIRROR: the re-mirror of stack `st` completes (R435). -/
  | remirror (st : Nat)
  /-- HBM_PATROL_SCRUB: patrol scrubbing reads a granule (R421). -/
  | hbmPatrolScrub (pc : Nat) (granule : Nat) (errs : List BurstError)
  /-- STACK_FAULT: a stack controller fault (R437). -/
  | stackFault (st : Nat) (detail : Nat)
  /-- STACK_RETURN: a fenced stack returns (R437). -/
  | stackReturn (st : Nat)
  /-- STACK_RETURN_TIMEOUT: a fenced stack has not returned within 31,250 tk (R438). -/
  | stackReturnTimeout (st : Nat)
  /-- WEIGHT_RELOAD: Pave reloads a marked weight tensor (R420). -/
  | weightReload (h : Nat) (tensor : Nat)
  /-- HOST_WINDOW_READ: a CXL.mem read of the window (R411). -/
  | hostWindowRead (head : Nat) (addr : Nat) (len : Nat)
  /-- HOST_WINDOW_WRITE: a CXL.mem write of the window (R412). -/
  | hostWindowWrite (head : Nat) (addr : Nat) (bytes : List (BitVec 8))
  /-- HOST_SNOOP: a CXL.cache snoop of host line `line` (R543). -/
  | hostSnoop (head : Nat) (line : Nat)
  /-- IDE_CHECK_FAIL: an IDE integrity check fails (R539). -/
  | ideCheckFail (head : Nat)
  /-- JOIN_COOKIE_WRITE: a write to join_cookie (R532). -/
  | joinCookieWrite (head : Nat) (width : Nat) (v : Nat)
  /-- WARM_RESET_REQUEST: a write of the warm reset request register or of 0x2001.02 (R548). -/
  | warmResetRequest (src : WarmResetSource)
  /-- WARM_RESET: a warm reset runs (R667). -/
  | warmReset
  /-- HEAD_RESET: PERST_N of a head is asserted (R667). -/
  | headReset (head : Nat)
  /-- FACET_RESET: a reset of Facet `f` (R667). -/
  | facetReset (f : Nat)
  /-- COLD_RESET: PKG_RESET_N is asserted (R670). -/
  | coldReset
  /-- PKG_RESET_DEASSERT: PKG_RESET_N is released with the straps as the board holds them (R665). -/
  | pkgResetDeassert (straps : Straps)
  /-- LINK_UP: a head's link reaches L0 (R666). -/
  | linkUp (head : Nat) (width : Nat) (rate : Nat)
  /-- BOOT_GO: a write of 0x8001.03 (R584). -/
  | bootGo (r : MgmtReq)
  /-- PAVE_READY: Pave reports ready (R586). -/
  | paveReady
  /-- BUNDLE_COMMIT: a write of 0x8002.04 (R596). -/
  | bundleCommit (r : MgmtReq)
  /-- ALIAS_TREE_GENERATE: Bezel generates the next alias tree (R597). -/
  | aliasTreeGenerate
  /-- LC_REQUEST: a write of 0x8003.02 (R589). -/
  | lcRequest (r : MgmtReq)
  /-- SESSION_REQUEST: a write of 0x8010.01 (R648). -/
  | sessionRequest (r : MgmtReq)
  /-- SESSION_ACCEPT: a write of 0x8010.03 (R603). -/
  | sessionAccept (r : MgmtReq)
  /-- SESSION_OFFER_EXPIRY: the outstanding offer is 125,000,000 tk old (R648). -/
  | sessionOfferExpiry
  /-- SESSION_CLOSE: a write of 0x8010.06 (R470). -/
  | sessionClose (r : MgmtReq)
  /-- SPDM_REQUEST: an SPDM request on a DOE or MCTP path (R600). -/
  | spdmRequest (path : Nat) (r : SpdmRequest)
  /-- SPDM_VENDOR_REQUEST: a VENDOR_DEFINED_REQUEST (R601). -/
  | spdmVendorRequest (path : Nat) (registry : Nat)
  /-- SWAP_OUT: a page of a pre-empted job moves to host slot `slot` (R292). -/
  | swapOut (j : Nat) (seq : Nat) (rec : Nat) (slot : Nat)
  /-- SWAP_IN: a swapped page returns (R292). -/
  | swapIn (j : Nat) (seq : Nat) (rec : Nat)
  /-- STRAND_BLOCK_RECEIVE: a Strand block arrives (R551). -/
  | strandBlockReceive (port : Nat) (b : StrandBlock)
  /-- STRAND_RETRY_REQUEST: a retry request arrives (R551). -/
  | strandRetryRequest (port : Nat) (ack : Nat)
  /-- STRAND_MESSAGE_RECEIVE: a Strand message arrives (R556). -/
  | strandMessageReceive (port : Nat) (m : StrandMessage)
  /-- RING_DATA_RECEIVE: the `n`-th accepted ring data block fills its slot (R294). -/
  | ringDataReceive (n : Nat)
  /-- TIME_SYNC_SEND: a port sends its time-sync block (R558). -/
  | timeSyncSend (port : Nat) (frac : Nat)
  /-- TIME_SYNC_RECEIVE: a time-sync block arrives (R560). -/
  | timeSyncReceive (port : Nat) (b : TimeSync)
  /-- PARENT_TIMEOUT: no sync block from the parent in time (R562). -/
  | parentTimeout
  /-- LINK_TRAINING: the two ends of a port train (R564). -/
  | linkTraining (port : Nat) (peer : Nat) (lanes : Nat)
  /-- STRAND_PORT_FAULT: a port is faulted with the failed lanes (R576). -/
  | strandPortFault (port : Nat) (lanes : Nat)
  /-- PORT_RETRAIN_COMPLETE: the retraining of a port ends with the intact lanes (R576). -/
  | portRetrainComplete (port : Nat) (intact : Nat)
  /-- RING_COMMITTED: COMMITTED(k) arrives (R573). -/
  | ringCommitted (at_ : RingPort) (k : Nat)
  /-- RING_ALL: ALL(k) arrives (R573). -/
  | ringAll (at_ : RingPort) (k : Nat)
  /-- RING_FENCE: FENCE(epoch) arrives on a port (R574). -/
  | ringFence (ring : Nat) (epoch : Nat) (port : Nat)
  /-- RING_RESUME: RESUME(m, e) arrives (R575). -/
  | ringResume (at_ : RingPort) (m : Nat) (epoch : Nat)
  /-- RING_RESUME_EXPIRY: no RESUME for 125,000,000 tk (R575). -/
  | ringResumeExpiry (ring : Nat)
  /-- DICT_READ: a dictionary read (R632). -/
  | dictRead (r : MgmtReq)
  /-- DICT_WRITE: a dictionary write to an entry with no row of its own (R627). -/
  | dictWrite (r : MgmtReq)
  /-- DICT_DESCRIBE: a describe (R623). -/
  | dictDescribe (r : MgmtReq)
  /-- DICT_NEXT: a next (R624). -/
  | dictNext (r : MgmtReq)
  /-- SET_ENDPOINT_ID: MCTP Set Endpoint ID (R612). -/
  | setEndpointId (path : Nat) (eid : Nat)
  /-- GET_ENDPOINT_ID: MCTP Get Endpoint ID (R613). -/
  | getEndpointId (path : Nat)
  /-- GET_MCTP_VERSION_SUPPORT: MCTP Get MCTP Version Support (R613). -/
  | getMctpVersionSupport (path : Nat) (msgType : Nat)
  /-- GET_MESSAGE_TYPE_SUPPORT: MCTP Get Message Type Support (R613). -/
  | getMessageTypeSupport (path : Nat)
  /-- GET_VENDOR_DEFINED_MESSAGE_SUPPORT: MCTP Get Vendor Defined Message Support (R613). -/
  | getVendorDefinedMessageSupport (path : Nat)
  /-- UNSUPPORTED_CONTROL_COMMAND: any other MCTP control command (R613). -/
  | unsupportedControlCommand (path : Nat) (code : Nat)
  /-- TABLE_COMMIT: a write of 0x3002.09 (R643). -/
  | tableCommit (r : MgmtReq)
  /-- QUEUE_ENABLE: a write of 0xB000.07 (R650). -/
  | queueEnable (r : MgmtReq)
  /-- FAULT_LOG_ACK: a write of 0x9000.02 (R527). -/
  | faultLogAck (r : MgmtReq)
  /-- STRAND_IDENTITY_WRITE: a write of 0x6000.01 or 0x6000.02 (R645). -/
  | strandIdentityWrite (r : MgmtReq)
  /-- TELEMETRY_INTERVAL_WRITE: a write of 0xA000.01 (R649). -/
  | telemetryIntervalWrite (r : MgmtReq)
  /-- RING_ENTRY_WRITE: a write of 0x6001.01 (R566). -/
  | ringEntryWrite (r : MgmtReq)
  /-- LOCKET_PATROL_SCRUB: patrol scrubbing reads a row (R398). -/
  | locketPatrolScrub (m : OnChip) (r : ScrubResult)
  /-- IDE_KM_EXCHANGE: an IDE_KM exchange establishes the stream (R611). -/
  | ideKmExchange (head : Nat)
  /-- HDM_DECODER_COMMIT: the host commits the HDM decoder (R535). -/
  | hdmDecoderCommit (head : Nat) (base : Nat)
  /-- I3C_DYNAMIC_ADDRESS_ASSIGNMENT: a controller assigns a dynamic address (R666). -/
  | i3cDynamicAddressAssignment (port : Nat) (addr : Nat)
  /-- POWER_DOWN: the board removes the rails (R674). -/
  | powerDown
  deriving DecidableEq, Repr

end Sys2Proof
end

