-- ==== Sys2Proof/Decode.lean ====
section
/-! DEFINITION. The part has no encoding of its commands as one word: no row of spec/opcode_table.json gives bits, so no
word spells a command. (The instructions of a Setting are read in Machine/Layout.lean, by Tables 2.11 to 2.20.) -/
namespace Sys2Proof

/-- The command that a word spells by the table's bits: none, because no row of the table gives bits. -/
def decodeTableWord (_nbits _w : Nat) : Option Instr := none

end Sys2Proof
end

