-- ==== Sys2Proof/Machine/Bits.lean ====
section
/-! DEFINITION. Bit fields, little-endian values (R3), sign extension, saturating counters and the CRC-32 of
the manual's records: the helpers that every layout reads words and bytes with. -/
namespace Sys2Proof.Machine

/-- Bits `hi` to `lo` of `w`, as a number. -/
def fld (w hi lo : Nat) : Nat := (w >>> lo) % 2 ^ (hi + 1 - lo)

/-- Bit `n` of `w`. -/
def bit (w n : Nat) : Bool := w.testBit n

/-- The two's complement value of the low `n` bits of `w`. -/
def signedOf (n w : Nat) : Int :=
  let v := w % 2 ^ n
  if 2 * v < 2 ^ n then (v : Int) else (v : Int) - (2 ^ n : Nat)

/-- The low `n` bits of the two's complement code of `v`. -/
def codeOf (n : Nat) (v : Int) : Nat := (v % (2 ^ n : Nat)).toNat

/-- The number that a list of bytes spells, first byte least significant (R3). -/
def leNat : List Byte → Nat
  | [] => 0
  | b :: bs => b.toNat + 256 * leNat bs

/-- The low `n` bytes of `v`, least significant first (R3). -/
def leBytes : Nat → Nat → List Byte
  | 0, _ => []
  | n + 1, v => BitVec.ofNat 8 v :: leBytes n (v / 256)

/-- Bytes `off` to `off + n - 1` of a list, bytes past its end read as 0. -/
def sliceBytes (bs : List Byte) (off n : Nat) : List Byte :=
  let xs := (bs.drop off).take n
  xs ++ List.replicate (n - xs.length) 0

/-- The little-endian number at byte offset `off`, `n` bytes wide. -/
def getLE (bs : List Byte) (off n : Nat) : Nat := leNat ((bs.drop off).take n)

/-- `bs` with `v` placed at byte offset `off`. -/
def patchBytes (bs : List Byte) (off : Nat) (v : List Byte) : List Byte :=
  bs.take off ++ v ++ bs.drop (off + v.length)

/-- `bs` cut or filled with zeros to exactly `n` bytes. -/
def padTo (bs : List Byte) (n : Nat) : List Byte := bs.take n ++ List.replicate (n - bs.length) 0

/-- `x` rounded up to a whole multiple of `m`. -/
def roundUp (x m : Nat) : Nat := (x + m - 1) / m * m

/-- The quotient rounded up. -/
def ceilDiv (x m : Nat) : Nat := (x + m - 1) / m

/-- `n` divided by nothing but 2s is 1: `n` is a power of two. -/
def isPow2 (n : Nat) : Bool := n != 0 && n &&& (n - 1) == 0

/-- The greatest `k` with `2 ^ k ≤ n`; 0 for 0. -/
def log2 (n : Nat) : Nat := n.log2

/-- Whether any of the bytes is not 0. -/
def anyNonzero (bs : List Byte) : Bool := bs.any (· != 0)

/-- One addition to a counter that stops at its greatest value `top`. -/
def satAdd (top a b : Nat) : Nat := min top (a + b)

def u16max : Nat := 0xFFFF
def u32max : Nat := 0xFFFFFFFF
def u64max : Nat := 0xFFFFFFFFFFFFFFFF

/-- One step of the reflected CRC-32 with polynomial 0x04C11DB7 over one bit. -/
def crcBit (c : Nat) : Nat := if c % 2 = 1 then (c / 2) ^^^ 0xEDB88320 else c / 2

/-- The CRC register after one byte. -/
def crcByte (c : Nat) (b : Byte) : Nat :=
  crcBit (crcBit (crcBit (crcBit (crcBit (crcBit (crcBit (crcBit (c ^^^ b.toNat))))))))

/-- The CRC register after each byte in turn. The match makes each value known before the next byte. -/
def crcOver : List Byte → Nat → Nat
  | [], c => c
  | b :: bs, c => match crcByte c b with
    | 0 => crcOver bs 0
    | k + 1 => crcOver bs (k + 1)

/-- CRC-32 of IEEE 802.3: initial value all ones, reflected, final complement. -/
def crc32 (bs : List Byte) : Nat := crcOver bs u32max ^^^ u32max

/-- The place in a list of the first element that satisfies a test. -/
def indexOf? (f : α → Bool) : List α → Option Nat
  | [] => none
  | x :: xs => if f x then some 0 else (indexOf? f xs).map (· + 1)

/-- `xs` with element `i` replaced by its image. -/
def modAt (xs : List α) (i : Nat) (f : α → α) : List α := xs.modify i f

/-- `xs` with its element `i` left out. -/
def dropAt (xs : List α) (i : Nat) : List α := xs.take i ++ xs.drop (i + 1)

/-- `f 0` to `f (n - 1)` applied one after the other. -/
def iter (n : Nat) (f : Nat → α → α) (a : α) : α := (List.range n).foldl (fun acc i => f i acc) a

/-- Insert `x` into a list kept in the order `le`, after its equals. -/
def insertBy (le : α → α → Bool) (x : α) : List α → List α
  | [] => [x]
  | y :: ys => if le y x then y :: insertBy le x ys else x :: y :: ys

/-- A list in the order `le`, equals in their own order. -/
def sortBy (le : α → α → Bool) : List α → List α
  | [] => []
  | x :: xs => insertFront le x (sortBy le xs)
where
  /-- Insert before its equals. -/
  insertFront (le : α → α → Bool) (x : α) : List α → List α
    | [] => [x]
    | y :: ys => if le x y then x :: y :: ys else y :: insertFront le x ys

/-- The numbers of a list in rising order, none twice. -/
def sortDedup (xs : List Nat) : List Nat :=
  xs.foldl (fun acc x => if acc.contains x then acc else insertBy (· ≤ ·) x acc) []

end Sys2Proof.Machine
end

