-- ==== Sys2Proof/Machine/Num.lean ====
section
/-! DEFINITION. Number formats, exact values, rounding, conversion, the block quantiser and FP32 arithmetic (R113 to R156).
An element is computed as an exact value and narrowed once. -/
namespace Sys2Proof.Machine

/-- An exact value: NaN, an infinity, or (-1)^neg * mag * 2^ex; a zero keeps its sign. -/
inductive Val where
  | nan
  | inf (neg : Bool)
  | fin (neg : Bool) (mag : Nat) (ex : Int)
  deriving DecidableEq, Repr

/-- A floating-point layout of Table 3.2: exponent and mantissa bits, bias, whether it has infinities, its NaN codes
(0 none; 1 E4M3's; 2 IEEE's), the largest finite code and the canonical NaN. -/
structure FpFmt where
  expBits : Nat
  mant : Nat
  bias : Nat
  hasInf : Bool
  nanKind : Nat
  maxCode : Nat
  nanCode : Nat
  deriving DecidableEq, Repr

/-- What a conversion of one element gives: its code and what it adds to the overflow and invalid counters. -/
structure Conv where
  code : Nat
  ovf : Nat
  inv : Nat
  deriving DecidableEq, Repr

/-! ## Format codes (Table 3.1) -/

def fmtFP32 : Nat := 0
def fmtBF16 : Nat := 1
def fmtFP16 : Nat := 2
def fmtINT8 : Nat := 8
def fmtINT4 : Nat := 9
def fmtMXINT8 : Nat := 15

/-- Bits of one element. -/
def fmtBits (f : Nat) : Nat :=
  [32, 16, 16, 8, 8, 6, 6, 4, 8, 4, 8, 8, 6, 6, 4, 8].getD f 8

/-- An MX code: blocks of 32 elements share one scale byte. -/
def isMx (f : Nat) : Bool := 10 ≤ f

/-- The format of the elements of an MX code; any other code is its own. -/
def elemFmt (f : Nat) : Nat := if f = 15 then 8 else if isMx f then f - 7 else f

/-- A floating code 0x0 to 0x7. -/
def isFloat (f : Nat) : Bool := f < 8

/-- An unscaled integer code. -/
def isIntFmt (f : Nat) : Bool := f = 8 || f = 9

/-- The layouts of Table 3.2 by format code. -/
def fpFmt (f : Nat) : FpFmt :=
  match f with
  | 0 => ⟨8, 23, 127, true, 2, 0x7F7FFFFF, 0x7FC00000⟩
  | 1 => ⟨8, 7, 127, true, 2, 0x7F7F, 0x7FC0⟩
  | 2 => ⟨5, 10, 15, true, 2, 0x7BFF, 0x7E00⟩
  | 3 => ⟨4, 3, 7, false, 1, 0x7E, 0x7F⟩
  | 4 => ⟨5, 2, 15, true, 2, 0x7B, 0x7E⟩
  | 5 => ⟨3, 2, 3, false, 0, 0x1F, 0⟩
  | 6 => ⟨2, 3, 1, false, 0, 0x1F, 0⟩
  | _ => ⟨2, 1, 1, false, 0, 0x7, 0⟩

/-! ## Values of codes (R114 to R118, R123) -/

/-- The value of a floating-point code (R114, Table 3.6). -/
def fpVal (f : FpFmt) (code : Nat) : Val :=
  let m := fld code (f.mant - 1) 0
  let e := fld code (f.mant + f.expBits - 1) f.mant
  let neg := bit code (f.mant + f.expBits)
  if f.nanKind = 2 && e = 2 ^ f.expBits - 1 then (if m = 0 then .inf neg else .nan)
  else if f.nanKind = 1 && e = 15 && m = 7 then .nan
  else if e = 0 then .fin neg m (1 - (f.bias : Int) - f.mant)
  else .fin neg (2 ^ f.mant + m) ((e : Int) - f.bias - f.mant)

/-- An integer as an exact value; 0 is +0 (R135). -/
def intVal (v : Int) : Val := .fin (v < 0) v.natAbs 0

/-- The value of an element's code; integers by the signedness of their use (R118). -/
def elemVal (f : Nat) (signed : Bool) (code : Nat) : Val :=
  if f = 8 then intVal (if signed then signedOf 8 code else (code % 256 : Nat))
  else if f = 9 then intVal (if signed then signedOf 4 code else (code % 16 : Nat))
  else fpVal (fpFmt f) code

/-- The value times 2^k. -/
def Val.shift : Val → Int → Val
  | .fin s m e, k => .fin s m (e + k)
  | v, _ => v

/-- The value of an MX element under its E8M0 scale byte (R117, R123). -/
def mxVal (f scale code : Nat) : Val :=
  if scale = 0xFF then .nan
  else
    let v := if f = 15 then (elemVal 8 true code).shift (-6) else elemVal (elemFmt f) true code
    v.shift ((scale : Int) - 127)

/-! ## Exact arithmetic -/

def Val.neg : Val → Val
  | .nan => .nan
  | .inf s => .inf !s
  | .fin s m e => .fin (!s) m e

def Val.abs : Val → Val
  | .nan => .nan
  | .inf _ => .inf false
  | .fin _ m e => .fin false m e

def Val.isNeg : Val → Bool
  | .nan => false
  | .inf s => s
  | .fin s _ _ => s

def Val.isZero : Val → Bool
  | .fin _ 0 _ => true
  | _ => false

def Val.zero : Val := .fin false 0 0
def Val.negZero : Val := .fin true 0 0
def Val.one : Val := .fin false 1 0

/-- The signed integer that a finite value is at exponent `x`, at or below its own. -/
def scaledInt (s : Bool) (m : Nat) (e x : Int) : Int :=
  let n : Int := (m <<< (e - x).toNat : Nat)
  if s then -n else n

/-- The exact sum, with IEEE 754's signs of zero, infinities and NaN. -/
def Val.add : Val → Val → Val
  | .nan, _ => .nan
  | _, .nan => .nan
  | .inf s, .inf t => if s = t then .inf s else .nan
  | .inf s, _ => .inf s
  | _, .inf t => .inf t
  | .fin s m e, .fin t n k =>
    if m = 0 && n = 0 then .fin (s && t) 0 0
    else
      let x := min e k
      let v := scaledInt s m e x + scaledInt t n k x
      if v = 0 then .zero else .fin (v < 0) v.natAbs x

def Val.sub (a b : Val) : Val := a.add b.neg

/-- The exact product (R126). -/
def Val.mul : Val → Val → Val
  | .nan, _ => .nan
  | _, .nan => .nan
  | .inf s, .inf t => .inf (s != t)
  | .inf s, .fin t n _ => if n = 0 then .nan else .inf (s != t)
  | .fin s m _, .inf t => if m = 0 then .nan else .inf (s != t)
  | .fin s m e, .fin t n k => .fin (s != t) (m * n) (e + k)

/-- `a < b` of two values that are not NaN; -0 and +0 are equal. -/
def Val.lt : Val → Val → Bool
  | .nan, _ => false
  | _, .nan => false
  | .inf s, .inf t => s && !t
  | .inf s, .fin _ _ _ => s
  | .fin _ _ _, .inf t => !t
  | .fin s m e, .fin t n k =>
    let x := min e k
    scaledInt s m e x < scaledInt t n k x

/-- IEEE 754-2019 maximum: NaN propagates and -0 is below +0 (R131). -/
def Val.max (a b : Val) : Val :=
  match a, b with
  | .nan, _ => .nan
  | _, .nan => .nan
  | _, _ => if a.lt b then b else if b.lt a then a else if a.isNeg then b else a

/-- IEEE 754-2019 minimum. -/
def Val.min (a b : Val) : Val :=
  match a, b with
  | .nan, _ => .nan
  | _, .nan => .nan
  | _, _ => if a.lt b then a else if b.lt a then b else if a.isNeg then a else b

/-! ## Rounding (R137 to R139) -/

/-- The rounding modes of a conversion word: 0 nearest even, 1 odd, 2 stochastic with the four bits `r`. -/
def roundUnits (mode r m k : Nat) : Nat :=
  let n := m >>> k
  let rem := m % 2 ^ k
  if rem = 0 then n
  else match mode with
    | 0 => if 2 ^ k < 2 * rem || (2 * rem = 2 ^ k && n % 2 = 1) then n + 1 else n
    | 1 => if n % 2 = 1 then n else n + 1
    | _ => if 16 ≤ 16 * rem / 2 ^ k + r then n + 1 else n

/-- A magnitude `m * 2^e` rounded to a whole number of units of 2^q. -/
def unitsOf (mode r m : Nat) (e q : Int) : Nat :=
  if q ≤ e then m <<< (e - q).toNat else roundUnits mode r m (q - e).toNat

/-- The exponent of the unit in which `m * 2^e` is rounded: `prec` significant bits, but no finer than 2^qmin. -/
def unitExp (prec : Nat) (qmin : Int) (m : Nat) (e : Int) : Int :=
  max (e + (log2 m : Int) - prec) qmin

/-- Units `n` of 2^q as a code of layout `f`; the result is in range and q is `unitExp`'s. -/
def fpCode (f : FpFmt) (neg : Bool) (n : Nat) (q : Int) : Nat :=
  let (n, q) := if n = 2 ^ (f.mant + 1) then (2 ^ f.mant, q + 1) else (n, q)
  let sign := if neg then 2 ^ (f.mant + f.expBits) else 0
  if n < 2 ^ f.mant then sign + n
  else sign + (q + f.mant + f.bias).toNat * 2 ^ f.mant + (n - 2 ^ f.mant)

/-- The code of an infinity. -/
def fpInfCode (f : FpFmt) (neg : Bool) : Nat :=
  (if neg then 2 ^ (f.mant + f.expBits) else 0) + (2 ^ f.expBits - 1) * 2 ^ f.mant

/-- The code of the largest finite magnitude. -/
def fpMaxCode (f : FpFmt) (neg : Bool) : Nat := (if neg then 2 ^ (f.mant + f.expBits) else 0) + f.maxCode

/-- Whether `n * 2^q` is above the largest finite value of a layout (R141). -/
def beyondMax (f : FpFmt) (n : Nat) (q : Int) : Bool := (fpVal f f.maxCode).lt (.fin false n q)

/-- A value narrowed to a floating-point layout: one rounding, then the range rules (R141 to R146, Table 3.10). -/
def narrowFp (f : FpFmt) (mode r : Nat) (infOnOvf : Bool) (v : Val) : Conv :=
  match v with
  | .nan => if f.nanKind = 0 then ⟨0, 0, 1⟩ else ⟨f.nanCode, 0, 0⟩
  | .inf s => if f.hasInf then ⟨fpInfCode f s, 0, 0⟩ else ⟨fpMaxCode f s, 1, 0⟩
  | .fin s m e =>
    if m = 0 then ⟨fpCode f s 0 (1 - (f.bias : Int) - f.mant), 0, 0⟩
    else
      let q := unitExp f.mant (1 - (f.bias : Int) - f.mant) m e
      let n := unitsOf mode r m e q
      if beyondMax f n q then ⟨if infOnOvf && f.hasInf then fpInfCode f s else fpMaxCode f s, 1, 0⟩
      else ⟨fpCode f s n q, 0, 0⟩

/-- A value narrowed to an integer in `lo` to `hi`: one rounding, then saturation (R137, R141, R142, Table 3.10). -/
def narrowInt (lo hi : Int) (width mode r : Nat) (v : Val) : Conv :=
  match v with
  | .nan => ⟨0, 0, 1⟩
  | .inf s => ⟨codeOf width (if s then lo else hi), 1, 0⟩
  | .fin s m e =>
    let n : Int := unitsOf mode r m e 0
    let i := if s then -n else n
    if i < lo then ⟨codeOf width lo, 1, 0⟩
    else if hi < i then ⟨codeOf width hi, 1, 0⟩
    else ⟨codeOf width i, 0, 0⟩

/-- A value narrowed to an unscaled format code. -/
def narrow (f mode r : Nat) (infOnOvf outSigned : Bool) (v : Val) : Conv :=
  if f = 8 then (if outSigned then narrowInt (-128) 127 8 mode r v else narrowInt 0 255 8 mode r v)
  else if f = 9 then (if outSigned then narrowInt (-8) 7 4 mode r v else narrowInt 0 15 4 mode r v)
  else narrowFp (fpFmt f) mode r infOnOvf v

/-! ## FP32 arithmetic (R131) -/

/-- The value of an FP32 code. -/
def f32 (w : Nat) : Val := fpVal (fpFmt 0) w

/-- One FP32 rounding to nearest even; finite overflow gives an infinity. -/
def rnd (v : Val) : Nat := (narrowFp (fpFmt 0) 0 0 true v).code

/-- One FP32 rounding, as a value. -/
def rndV (v : Val) : Val := f32 (rnd v)

/-- FP32 rounding to odd; finite overflow gives the largest finite magnitude, uncounted (R134). -/
def rndOdd (v : Val) : Val := f32 (narrowFp (fpFmt 0) 1 0 false v).code

/-- Codes of special FP32 values. -/
def f32Inf : Nat := 0x7F800000
def f32NegInf : Nat := 0xFF800000
def f32NaN : Nat := 0x7FC00000
def f32One : Nat := 0x3F800000

/-- FP32 operations on values: each one rounding. -/
def addF (a b : Val) : Val := rndV (a.add b)
def subF (a b : Val) : Val := rndV (a.sub b)
def mulF (a b : Val) : Val := rndV (a.mul b)
def fmaF (a b c : Val) : Val := rndV ((a.mul b).add c)

/-- A natural number in FP32, rounded to nearest even. -/
def natF (n : Nat) : Val := rndV (.fin false n 0)

/-- The pairwise sum of FP32 values: the list is cut at the largest power of two below its length (R243). `fuel` bounds the
depth. -/
def pairwise : Nat → List Val → Val
  | _, [] => .zero
  | _, [x] => x
  | 0, x :: _ => x
  | fuel + 1, xs =>
    let k := 2 ^ log2 (xs.length - 1)
    addF (pairwise fuel (xs.take k)) (pairwise fuel (xs.drop k))

/-! ## Conversion (R132 to R136, R144 to R146) -/

/-- Fields of a conversion word (Table 3.8). -/
def cwTarget (w : Nat) : Nat := fld w 31 28
def cwRounding (w : Nat) : Nat := fld w 27 26
def cwInf (w : Nat) : Bool := bit w 25
def cwSigned (w : Nat) : Bool := bit w 24
def cwScaleEn (w : Nat) : Bool := bit w 23
def cwScaleKind (w : Nat) : Nat := fld w 22 21
def cwBiasEn (w : Nat) : Bool := bit w 20
def cwBiasKind (w : Nat) : Nat := fld w 19 18
def cwClipEn (w : Nat) : Bool := bit w 17

/-- Scalars of a conversion constant entry (Table 3.9). -/
def ccScale (c : Nat) : Val := f32 (fld c 127 96)
def ccBias (c : Nat) : Val := f32 (fld c 95 64)
def ccLo (c : Nat) : Val := f32 (fld c 63 32)
def ccHi (c : Nat) : Val := f32 (fld c 31 0)

/-- What a conversion of one element takes: its word, its clip bounds, and the scale and bias of its row and column. -/
structure ConvSpec where
  word : Nat
  const : Nat
  scale : Val
  bias : Val
  deriving DecidableEq, Repr

/-- The exact value x of R134 before any rounding. -/
def convExact (c : ConvSpec) (a : Val) : Val :=
  let x := if cwScaleEn c.word then a.mul c.scale else a
  if cwBiasEn c.word then x.add c.bias else x

/-- The clip of R134; NaN stays NaN. -/
def convClip (c : ConvSpec) (t : Val) : Val :=
  if cwClipEn c.word then (t.max (ccLo c.const)).min (ccHi c.const) else t

/-- The value t of R134 for a target other than FP32: rounded to odd in FP32, then clipped. -/
def convStage (c : ConvSpec) (a : Val) : Val := convClip c (rndOdd (convExact c a))

/-- convert of R134 for every target but the MX codes; `r` is the element's nibble. What overflows FP32 in the first stage is not
counted again by the second, where R136 speaks of one rounding (assumption 90, DEDUCED). -/
def convert (c : ConvSpec) (r : Nat) (a : Val) : Conv :=
  let w := c.word
  if cwTarget w = 0 then
    let t := narrowFp (fpFmt 0) (cwRounding w) r (cwInf w) (convExact c a)
    { t with code := if cwClipEn w then rnd (convClip c (f32 t.code)) else t.code }
  else narrow (cwTarget w) (cwRounding w) r (cwInf w) (cwSigned w) (convStage c a)

/-- A value narrowed to a destination format with nearest-even rounding and no scale, bias or clip (R96, R350). -/
def narrowTo (f : Nat) (v : Val) : Conv := convert ⟨f <<< 28, 0, .one, .zero⟩ 0 v

/-! ## The block quantiser (R147 to R149) -/

/-- emax of Table 3.11, by MX code. -/
def mxEmax (f : Nat) : Int :=
  match f with
  | 10 => 8
  | 11 => 15
  | 12 => 4
  | 13 => 2
  | 14 => 2
  | _ => 0

/-- floor(log2 |v|) of a finite nonzero value. -/
def floorLog2 : Val → Int
  | .fin _ m e => e + (log2 m : Int)
  | _ => 0

def Val.isNaN : Val → Bool
  | .nan => true
  | _ => false

def Val.isInf : Val → Bool
  | .inf _ => true
  | _ => false

/-- One block: its scale byte and its elements (R147). `rs` are the nibbles of its lanes. -/
def quantise (f mode : Nat) (rs : List Nat) (vs : List Val) : Nat × List Conv :=
  if vs.any fun v => v.isNaN || v.isInf then
    (0xFF, vs.map fun v => ⟨0, if v.isInf then 1 else 0, if v.isNaN then 1 else 0⟩)
  else
    let amax := vs.foldl (fun a v => if a.lt v.abs then v.abs else a) Val.zero
    let e : Int := max (if amax.isZero then -127 else floorLog2 amax - mxEmax f) (-127)
    let one (v : Val) (r : Nat) : Conv :=
      if f = 15 then narrowInt (-127) 127 8 mode r ((v.shift (-e)).shift 6)
      else narrowFp (fpFmt (elemFmt f)) mode r false (v.shift (-e))
    ((e + 127).toNat, vs.zipIdx.map fun (v, i) => one v (rs.getD i 0))

/-! ## The generator (R344) -/

/-- Left rotation of a 32-bit word. -/
def rotl (x n : Nat) : Nat := ((x <<< n) ||| (x >>> (32 - n))) % 2 ^ 32

/-- One round of the generator. -/
def rngRound (key i : Nat) (s : Nat × Nat × Nat × Nat) : Nat × Nat × Nat × Nat :=
  let (a, b, c, d) := s
  let a := (a + b + key + i * 0x9E3779B9) % 2 ^ 32
  let d := rotl (d ^^^ a) 16
  let c := (c * 0x2C1B3C6D + d) % 2 ^ 32
  let b := rotl (b ^^^ c) 12
  let a := (a + b) % 2 ^ 32
  let d := rotl (d ^^^ a) 8
  let c := (c + d) % 2 ^ 32
  let b := rotl (b ^^^ c) 7
  (a, b, c, d)

/-- The four words of the block of a key and a counter (R344). -/
def rngBlock (k0 k1 c0 c1 c2 c3 : Nat) : List Nat :=
  let (a, b, c, d) := (List.range 10).foldl (fun s i => rngRound (if i % 2 = 0 then k0 else k1) i s) (c0, c1, c2, c3)
  [a, b, c, d]

/-- Fields of a draw context (Table 10.2). -/
def dcTensor (d : Nat) : Nat := fld d 127 112
def dcBase (d : Nat) : Nat := fld d 111 96
def dcStep (d : Nat) : Bool := bit d 95
def dcTable (d : Nat) : Nat := fld d 90 88
def dcE0 (d : Nat) : Nat := fld d 87 40
def dcPitch (d : Nat) : Nat := fld d 39 8

/-- Element index and draw index of local position (m, n) at step index `k` (R348). -/
def drawElem (d m n : Nat) : Nat := (dcE0 d + m * dcPitch d + n) % 2 ^ 48
def drawIndex (d k : Nat) : Nat := (dcBase d + if dcStep d then k else 0) % 2 ^ 16

/-- The block that holds element `e`, for a purpose of `per` elements a block (Table 10.1, R346). -/
def drawBlock (seed ext purpose per d k e : Nat) : List Nat :=
  let blk := e / per
  rngBlock (fld seed 31 0) (fld seed 63 32) (fld blk 31 0) (drawIndex d k * 2 ^ 16 + fld blk 47 32)
    (purpose * 2 ^ 16 + dcTensor d) ext

/-- The random word of a local position, purpose 0 (R346). -/
def drawWord (seed ext d k m n : Nat) : Nat :=
  let e := drawElem d m n
  (drawBlock seed ext 0 4 d k e).getD (e % 4) 0

/-- The rounding nibble of a local position, purpose 1 (R346, R353). -/
def drawNibble (seed ext d k m n : Nat) : Nat :=
  let e := drawElem d m n
  let i := e % 32
  fld ((drawBlock seed ext 1 32 d k e).getD (i / 8) 0) (4 * (i % 8) + 3) (4 * (i % 8))

end Sys2Proof.Machine
end

