-- ==== Sys2Proof/Machine/Layout.lean ====
section
/-! DEFINITION. The layout of a Setting's capsule: header, sections, variants, tensors, extents, streams, descriptors,
sync declarations and decision points (R59 to R109). A capsule is its bytes; every field is read from them. -/
namespace Sys2Proof.Machine

/-- A capsule's bytes. -/
abbrev Capsule := List Byte

/-! ## Header and directories (Tables 2.1, 2.3, 2.9) -/

/-- The 64-byte header as one number. -/
def capHeader (c : Capsule) : Nat := getLE c 0 64
def hdrMagic (h : Nat) : Nat := fld h 511 480
def hdrMajor (h : Nat) : Nat := fld h 479 472
def hdrMinor (h : Nat) : Nat := fld h 471 464
def hdrHeaderBytes (h : Nat) : Nat := fld h 463 448
def hdrFeatures (h : Nat) : Nat := fld h 447 384
def hdrBytes (h : Nat) : Nat := fld h 383 352
def hdrSections (h : Nat) : Nat := fld h 351 336
def hdrVariants (h : Nat) : Nat := fld h 335 320
def hdrSettingId (h : Nat) : Nat := fld h 319 256
def hdrMaxSteps (h : Nat) : Nat := fld h 255 240
def hdrDecisions (h : Nat) : Nat := fld h 239 224
def hdrSectionDir (h : Nat) : Nat := fld h 223 192
def hdrVariantDir (h : Nat) : Nat := fld h 191 160
def hdrStepRegions (h : Nat) : Bool := bit h 128

/-- A section directory entry (Table 2.3). -/
structure SectionDir where
  typ : Nat
  inst : Nat
  off : Nat
  len : Nat
  crc : Nat
  resv : Nat
  deriving DecidableEq, Repr

def sectionDirOf (w : Nat) : SectionDir :=
  { typ := fld w 127 120, inst := fld w 111 96, off := fld w 95 64, len := fld w 63 32, crc := fld w 31 0,
    resv := fld w 119 112 }

/-- Section types of Table 2.4. -/
def secTensors : Nat := 0x01
def secExtents : Nat := 0x02
def secDecisions : Nat := 0x03
def secStream : Nat := 0x04
def secDma : Nat := 0x05
def secSync : Nat := 0x06
def secTable : Nat := 0x07
def secLoupe : Nat := 0x08
def secResume : Nat := 0x09
def secConst : Nat := 0x0A
def secMap : Nat := 0x0B

/-- Every section directory entry, in directory order. -/
def sectionDirs (c : Capsule) : List SectionDir :=
  let h := capHeader c
  (List.range (hdrSections h)).map fun i => sectionDirOf (getLE c (hdrSectionDir h + 16 * i) 16)

/-- The first section of a type and instance. -/
def findSection (c : Capsule) (typ inst : Nat) : Option SectionDir :=
  (sectionDirs c).find? fun s => s.typ == typ && s.inst == inst

/-- The bytes of a section; none where there is no such section. -/
def sectionBytes (c : Capsule) (typ inst : Nat) : List Byte :=
  match findSection c typ inst with
  | some s => (c.drop s.off).take s.len
  | none => []

/-- Entry `i` of a section of `size`-byte entries, as one number; none past its end. -/
def sectionEntry (c : Capsule) (typ inst size i : Nat) : Option Nat :=
  match findSection c typ inst with
  | some s => if size * (i + 1) ≤ s.len then some (getLE c (s.off + size * i) size) else none
  | none => none

/-- How many `size`-byte entries a section holds. -/
def sectionCount (c : Capsule) (typ inst size : Nat) : Nat :=
  match findSection c typ inst with
  | some s => s.len / size
  | none => 0

/-- Every `size`-byte entry of a section. -/
def sectionEntries (c : Capsule) (typ inst size : Nat) : List Nat :=
  let bs := sectionBytes c typ inst
  (List.range (bs.length / size)).map fun i => getLE bs (size * i) size

/-- Variant directory entry `v` (Table 2.9). -/
def variantWord (c : Capsule) (v : Nat) : Nat := getLE c (hdrVariantDir (capHeader c) + 32 * v) 32
def varSize (w : Nat) : Nat := fld w 255 253
def varTuple (w : Nat) : List Nat := [fld w 247 244, fld w 243 240, fld w 239 236, fld w 235 232]
def varMap (w : Nat) : Nat := fld w 223 208
def varSync (w : Nat) : Nat := fld w 207 192
def varDma (w : Nat) : Nat := fld w 191 176
def varConst (w : Nat) : Nat := fld w 175 160
def varResume (w : Nat) : Nat := fld w 159 144
def varStepTicks (w : Nat) : Nat := fld w 127 96
def varCasketBytes (w : Nat) : Nat := fld w 95 64

/-- Beads of a size code (Table 2.9). -/
def sizeBeads (code : Nat) : Nat := [14, 28, 56, 112, 224, 448, 560].getD code 0

/-- The variant of a size code and bucket tuple (R80: at most one). -/
def findVariant (c : Capsule) (size : Nat) (tuple : List Nat) : Option Nat :=
  (List.range (hdrVariants (capHeader c))).find? fun v =>
    let w := variantWord c v
    varSize w == size && varTuple w == tuple

/-! ## Tensors, extents and buckets (Tables 2.5 to 2.7) -/

/-- Fields of a tensor declaration (Table 2.5). -/
def tdId (d : Nat) : Nat := fld d 255 240
def tdKind (d : Nat) : Nat := fld d 239 236
def tdFormat (d : Nat) : Nat := fld d 235 232
def tdRank (d : Nat) : Nat := fld d 231 229
def tdCanonical (d : Nat) : Bool := bit d 228
def tdExtents (d : Nat) : List Nat := [fld d 223 192, fld d 191 160, fld d 159 128, fld d 127 96]

def tensorDecls (c : Capsule) : List Nat := sectionEntries c secTensors 0 32

/-- The declaration of a tensor identifier. -/
def findTensor (c : Capsule) (id : Nat) : Option Nat := (tensorDecls c).find? fun d => tdId d == id

/-- Extent and bucket declaration `e` (Table 2.7). -/
def extentDecl (c : Capsule) (e : Nat) : Nat := (sectionEntry c secExtents 0 80 e).getD 0
def exKind (d : Nat) : Nat := fld d 639 636
def exCount (d : Nat) : Nat := fld d 635 632
def exBucket (d i : Nat) : Nat := fld d (32 * i + 31) (32 * i)

/-- Value of bucket `i` of acceptance extent `e`. -/
def bucketValue (c : Capsule) (e i : Nat) : Nat := exBucket (extentDecl c e) i

/-- Bucket index of an acceptance extent: the smallest bucket not below it (R72). An unused extent is at index 0. -/
def bucketIndex (c : Capsule) (e x : Nat) : Option Nat :=
  let d := extentDecl c e
  if exKind d = 0 then some 0
  else (List.range (exCount d)).find? fun i => x ≤ exBucket d i

/-- The extent that an extent descriptor gives at a bucket tuple; `weight`: at the largest bucket (Table 2.6, R69). -/
def evalExtent (c : Capsule) (tuple : List Nat) (weight : Bool) (d : Nat) : Nat :=
  if bit d 31 then
    let e := fld d 30 29
    let i := if weight then exCount (extentDecl c e) - 1 else tuple.getD e 0
    bucketValue c e i * fld d 15 0
  else fld d 30 0

/-- The four extents of a tensor at a bucket tuple. -/
def tensorExtents (c : Capsule) (tuple : List Nat) (d : Nat) : List Nat :=
  (tdExtents d).map (evalExtent c tuple (tdKind d == 0))

/-- Its row extent (R70). -/
def rowExtent (c : Capsule) (tuple : List Nat) (d : Nat) : Nat := (tensorExtents c tuple d).getD (tdRank d - 1) 0

/-- Its elements. -/
def tensorElems (c : Capsule) (tuple : List Nat) (d : Nat) : Nat := (tensorExtents c tuple d).foldl (· * ·) 1

/-- Bytes of its element plane, and of the whole allocation with its MX scales (R121). -/
def tensorPlane (c : Capsule) (tuple : List Nat) (d : Nat) : Nat :=
  ceilDiv (tensorElems c tuple d * fmtBits (tdFormat d)) 8
def tensorBytes (c : Capsule) (tuple : List Nat) (d : Nat) : Nat :=
  let n := tensorPlane c tuple d
  if isMx (tdFormat d) then roundUp n 64 + tensorElems c tuple d / 32 else n

/-! ## Streams and instructions (Tables 2.11 to 2.19) -/

/-- Stream number of group-relative Bead `g` of a variant (R81, R83). -/
def streamOf (c : Capsule) (v g : Nat) : Nat := getLE (sectionBytes c secMap (varMap (variantWord c v))) (2 * g) 2

/-- Instruction `pos` of a stream; none past its end. -/
def instrAt (c : Capsule) (stream pos : Nat) : Option Nat := sectionEntry c secStream stream 16 pos
def streamLen (c : Capsule) (stream : Nat) : Nat := sectionCount c secStream stream 16

def iClass (i : Nat) : Nat := fld i 127 124
def iWait (i : Nat) : Nat := fld i 121 112
def iPost (i : Nat) : Nat := fld i 111 102
/-- Bits [95:88]: the operation of CTRL and LANE. -/
def iOp (i : Nat) : Nat := fld i 95 88

/-- No sync object (Table 2.11). -/
def noObj : Nat := 0x3FF

/-- Entry `i` of a variant's constant set (section type 0x0A). -/
def constEntry (c : Capsule) (v i : Nat) : Nat := (sectionEntry c secConst (varConst (variantWord c v)) 16 i).getD 0

/-- `n` consecutive constant entries from `i` as one number, the first in its low bits. -/
def constWords (c : Capsule) (v i n : Nat) : Nat :=
  leNat (sliceBytes (sectionBytes c secConst (varConst (variantWord c v))) (16 * i) (16 * n))

/-- The raw bytes of a variant's constant set from entry `i` on. -/
def constBytes (c : Capsule) (v i n : Nat) : List Byte :=
  sliceBytes (sectionBytes c secConst (varConst (variantWord c v))) (16 * i) n

/-- DMA descriptor `i` of a variant (Table 2.14). -/
def dmaDesc (c : Capsule) (v i : Nat) : Nat := (sectionEntry c secDma (varDma (variantWord c v)) 32 i).getD 0
def ddKind (d : Nat) : Nat := fld d 255 252
def ddSrcSpace (d : Nat) : Nat := fld d 251 248
def ddDstSpace (d : Nat) : Nat := fld d 247 244
def ddSrcTensor (d : Nat) : Nat := fld d 239 224
def ddDstTensor (d : Nat) : Nat := fld d 223 208
def ddSrcOff (d : Nat) : Nat := fld d 207 168
def ddDstOff (d : Nat) : Nat := fld d 167 128
def ddRowBytes (d : Nat) : Nat := fld d 127 108
def ddRows (d : Nat) : Nat := fld d 107 92
def ddSrcStride (d : Nat) : Nat := fld d 91 64
def ddDstStride (d : Nat) : Nat := fld d 63 36
def ddDone (d : Nat) : Nat := fld d 35 26
def ddList (d : Nat) : Nat := fld d 25 16

/-- Descriptor index of a DMA instruction (Table 2.19). -/
def iDesc (i : Nat) : Nat := fld i 95 80

/-- Fields of a LANE body (Table 2.16). -/
def laneFmtD (i : Nat) : Nat := fld i 87 84
def laneFmt0 (i : Nat) : Nat := fld i 83 80
def laneFmt1 (i : Nat) : Nat := fld i 79 76
def laneBankD (i : Nat) : Nat := fld i 75 74
def laneAddrD (i : Nat) : Nat := fld i 73 61
def laneBank0 (i : Nat) : Nat := fld i 60 59
def laneAddr0 (i : Nat) : Nat := fld i 58 46
def laneBank1 (i : Nat) : Nat := fld i 45 44
def laneAddr1 (i : Nat) : Nat := fld i 43 31
def laneBank2 (i : Nat) : Nat := fld i 30 29
def laneAddr2 (i : Nat) : Nat := fld i 28 16
def laneCount (i : Nat) : Nat := fld i 15 8
def laneConst (i : Nat) : Nat := fld i 7 0

/-! ## Sync objects (Table 2.15) -/

def syncDecls (c : Capsule) (v : Nat) : List Nat := sectionEntries c secSync (varSync (variantWord c v)) 16
def sdObject (d : Nat) : Nat := fld d 127 118
def sdKind (d : Nat) : Nat := fld d 117 116
def sdOwner (d : Nat) : Nat := fld d 115 104
def sdBank (d : Nat) : Nat := fld d 103 102
def sdOffset (d : Nat) : Nat := 64 * fld d 101 89
def sdLength (d : Nat) : Nat := 64 * (fld d 88 76 + 1)
def sdInit (d : Nat) : Nat := fld d 75 60
def sdPeer (d : Nat) : Nat := fld d 59 48

/-! ## Resume point map (R109) -/

/-- The tensors that a variant's resume point map lists. -/
def resumeTensors (c : Capsule) (v : Nat) : List Nat :=
  ((sectionEntries c secResume (varResume (variantWord c v)) 8).map fun e => fld e 63 48).filter (· != 0xFFFF)

/-! ## Decision points (R104, Table 2.20) -/

def dpIndex (d : Nat) : Nat := fld d 255 246
def dpInputKind (d : Nat) : Nat := fld d 245 242
def dpInputSem (d : Nat) : Nat := fld d 241 232
def dpBuckets (d : Nat) : Nat := fld d 231 227
def dpBound (d : Nat) : Nat := fld d 223 192
def dpVariants (d : Nat) : Nat := fld d 191 176

/-- Bytes of one variant's run of a region table with `n` buckets (R104). -/
def regionRun (n : Nat) : Nat := roundUp (4 * n) 16

/-- Bytes of a decision point entry. -/
def decisionBytes (hdr : Nat) : Nat := 96 + dpVariants hdr * regionRun (dpBuckets hdr)

/-- Byte offset in its section of decision point `i`, by walking the entries before it. -/
def decisionOffset (bs : List Byte) : Nat → Nat
  | 0 => 0
  | i + 1 =>
    let off := decisionOffset bs i
    off + decisionBytes (getLE bs off 32)

/-- Header, bucket values and region starts in variant `v` of decision point `i`. -/
def decisionPoint (c : Capsule) (v i : Nat) : Nat × List Nat × List Nat :=
  let bs := sectionBytes c secDecisions 0
  let off := decisionOffset bs i
  let h := getLE bs off 32
  let n := dpBuckets h
  (h, (List.range n).map (fun k => getLE bs (off + 32 + 4 * k) 4),
    (List.range n).map (fun k => getLE bs (off + 96 + v * regionRun n + 4 * k) 4 % 2 ^ 20))

/-! ## Control instructions (Table 2.13) -/

def ctrlOperand (i : Nat) : Nat := fld i 87 78
def loopSource (i : Nat) : Nat := fld i 87 86
def loopIndex (i : Nat) : Nat := fld i 85 70
def swapTable (i : Nat) : Nat := fld i 87 80

/-- Whether an instruction is the CTRL operation `op`. -/
def isCtrl (i op : Nat) : Bool := iClass i = 0 && iOp i = op

/-- The matching loop_end of a loop_begin: instruction number counted from the one after it; `fuel` bounds the scan. -/
def matchEnd (c : Capsule) (stream : Nat) : (fuel depth pos : Nat) → Option Nat
  | 0, _, _ => none
  | fuel + 1, depth, pos =>
    match instrAt c stream pos with
    | none => none
    | some i =>
      if isCtrl i 4 then (if depth = 0 then some pos else matchEnd c stream fuel (depth - 1) (pos + 1))
      else if isCtrl i 3 then matchEnd c stream fuel (depth + 1) (pos + 1)
      else matchEnd c stream fuel depth (pos + 1)

/-! ## Key-value directory (R254 to R256, Tables 7.2 to 7.4) -/

/-- Constant entry 0 of a variant of a capsule that sets feature bit 6. -/
def kvDirectory (c : Capsule) (v : Nat) : Nat := if bit (hdrFeatures (capHeader c)) 6 then constEntry c v 0 else 0

/-- Pool and sequence declarations of a variant. -/
def poolDecls (c : Capsule) (v : Nat) : List Nat :=
  let d := kvDirectory c v
  (List.range (fld d 111 107)).map fun i => constEntry c v (fld d 127 112 + i)
def seqDecls (c : Capsule) (v : Nat) : List Nat :=
  let d := kvDirectory c v
  (List.range (fld d 90 80)).map fun i => constEntry c v (fld d 106 91 + i)

def pdTensor (w : Nat) : Nat := fld w 127 112
def pdIndex (w : Nat) : Nat := fld w 111 108

/-- Whether a tensor is a pool tensor of a variant: a pool declaration names it (R255). -/
def isPool (c : Capsule) (v tid : Nat) : Bool := (poolDecls c v).any fun w => pdTensor w = tid

/-! ## MMA bodies (Table 2.12) -/

def mmaSteps (i : Nat) : Nat := fld i 95 88
def mmaFmtA (i : Nat) : Nat := fld i 87 84
def mmaFmtB (i : Nat) : Nat := fld i 83 80
def mmaSignedA (i : Nat) : Bool := bit i 79
def mmaSignedB (i : Nat) : Bool := bit i 78
def mmaSparse (i : Nat) : Bool := bit i 77
def mmaTransA (i : Nat) : Bool := bit i 76
def mmaTransB (i : Nat) : Bool := bit i 75
def mmaAccumulate (i : Nat) : Bool := bit i 74
def mmaShape (i : Nat) : Nat := fld i 73 70
def mmaAAddr (i : Nat) : Nat := fld i 69 57
def mmaBAddr (i : Nat) : Nat := fld i 56 44
def mmaCAddr (i : Nat) : Nat := fld i 43 31
def mmaEdge (i : Nat) : Nat := fld i 30 23
def mmaEpilogue (i : Nat) : Nat := fld i 22 15

/-! ## Epilogues and chains (Tables 5.1, 5.2, 5.5) -/

/-- Fields of an epilogue descriptor (Table 5.2). -/
def epActivation (e : Nat) : Nat := fld e 511 508
def epTable (e : Nat) : Nat := fld e 507 500
def epAffine (e : Nat) : Nat := fld e 499 498
def epGate (e : Nat) : Bool := bit e 497
def epGateBias (e : Nat) : Bool := bit e 496
def epGateAddr (e : Nat) : Nat := fld e 495 483
def epResidual (e : Nat) : Nat := fld e 482 481
def epResidFmt (e : Nat) : Nat := fld e 480 477
def epResidAddr (e : Nat) : Nat := fld e 476 464
def epStat (e : Nat) : Nat := fld e 463 461
def epSep (e : Nat) : Bool := bit e 460
def epSepFmt (e : Nat) : Nat := fld e 459 456
def epVecAddr (e : Nat) : Nat := fld e 455 443
def epStatAddr (e : Nat) : Nat := fld e 442 430
def epOutBank (e : Nat) : Nat := fld e 429 428
def epOutAddr (e : Nat) : Nat := fld e 427 415
def epOutPitch (e : Nat) : Nat := fld e 414 399
def epHoldLen (e : Nat) : Nat := fld e 398 384
def epConvert (e : Nat) : Nat := fld e 383 352
def epConvConst (e : Nat) : Nat := fld e 351 224
def epAffScale (e : Nat) : Val := f32 (fld e 223 192)
def epAffBias (e : Nat) : Val := f32 (fld e 191 160)
def epActParam (e : Nat) : Val := f32 (fld e 159 128)
def epEps (e : Nat) : Val := f32 (fld e 127 96)
def epHoldRows (e : Nat) : Nat := fld e 95 88
def epHoldAddr (e : Nat) : Nat := fld e 87 75
/-- Row-resident statistics (Table 5.4). -/
def epResident (e : Nat) : Bool := epStat e = 4 || epStat e = 5

/-- Fields of a CHAIN body (Table 5.1). -/
def chDesc (i : Nat) : Nat := fld i 95 88
def chAAddr (i : Nat) : Nat := fld i 87 75
def chBAddr (i : Nat) : Nat := fld i 74 62
def chCAddr (i : Nat) : Nat := fld i 61 49
def chEdge (i : Nat) : Nat := fld i 48 41
def chEpilogue (i : Nat) : Nat := fld i 40 33
def chXAddr (i : Nat) : Nat := fld i 32 20
def chHoldCol (i : Nat) : Nat := fld i 19 12
def chKOrigin (i : Nat) : Nat := fld i 11 2
def chComplete (i : Nat) : Bool := bit i 1
def chLast (i : Nat) : Bool := bit i 0

/-- Fields of a chain descriptor (Table 5.5). -/
def cdKind (d : Nat) : Nat := fld d 255 252
def cdFmtA (d : Nat) : Nat := fld d 251 248
def cdFmtB (d : Nat) : Nat := fld d 247 244
def cdShape (d : Nat) : Nat := fld d 237 234
def cdSteps (d : Nat) : Nat := fld d 233 224
def cdPrologue (d : Nat) : Nat := fld d 223 222
def cdApplyKind (d : Nat) : Nat := fld d 221 220
def cdApplyAffine (d : Nat) : Bool := bit d 219
def cdSrcFmt (d : Nat) : Nat := fld d 218 215
def cdParts (d : Nat) : Nat := fld d 214 207
def cdSrcRows (d : Nat) : Nat := fld d 73 66 * 65536 + fld d 206 191
def cdParam (d : Nat) : Val := f32 (fld d 190 159)
def cdBlocks (d : Nat) : Nat := fld d 158 143
def cdRing1 (d : Nat) : Nat := fld d 142 133
def cdRing2 (d : Nat) : Nat := fld d 132 123
def cdRingLen (d : Nat) : Nat := fld d 122 120
def cdEpi2 (d : Nat) : Nat := fld d 119 112
def cdFmtP (d : Nat) : Nat := fld d 111 108
def cdPAddr (d : Nat) : Nat := fld d 107 95
def cdVec (d : Nat) : Nat := fld d 94 82
def cdMask (d : Nat) : Nat := fld d 81 74

/-! ## Table positions (R224 to R226, Table 6.1) -/

/-- Fixed positions of the reduction kinds (R226). -/
def posExp : Nat := 0
def posRecip : Nat := 1
def posRsqrt : Nat := 2
def posLog : Nat := 3

/-- Position and image index that a constant entry names (R224). -/
def namedPos (k : Nat) : Nat := fld k 7 0
def namedImage (k : Nat) : Nat := fld k 31 16

/-- Table positions of a normalisation operation (Table 6.1). -/
def normTables (op : Nat) : List Nat :=
  match op with
  | 0x50 => [posExp, posRecip, posRsqrt]
  | 0x51 => [posRecip, posRsqrt]
  | 0x52 => [posExp, posRecip, posRsqrt]
  | 0x53 => [posExp, posRecip]
  | 0x54 => [posRecip]
  | 0x56 => [posRecip, posRsqrt]
  | _ => []

/-- Table position of a lookup operation (Table 6.1). -/
def lanePos (op : Nat) : Nat := [posExp, posExp, posLog, posLog, posRecip, posRecip, posRsqrt, posRsqrt].getD (op - 0x40) 0

/-- Fields of a walk descriptor (Table 7.9). -/
def wkSeq (w : Nat) : Nat := fld w 255 246
def wkHead (w : Nat) : Nat := fld w 245 240
def wkKeysOnly (w : Nat) : Bool := bit w 239
def wkFmt (w : Nat) : Nat := fld w 238 235
def wkFirst (w : Nat) : Nat := fld w 234 223
def wkCount (w : Nat) : Nat := fld w 222 211
def wkKeyRing (w : Nat) : Nat := fld w 210 201
def wkValRing (w : Nat) : Nat := fld w 200 191
def wkLen (w : Nat) : Nat := fld w 190 188
def wkDest (w : Nat) : Nat := fld w 187 180
def wkMask (w : Nat) : Nat := fld w 179 172
def wkStart (w : Nat) : Nat := fld w 171 162
def wkHops (w : Nat) : Nat := fld w 161 149
def wkRing (w : Nat) : Nat := fld w 148 137

/-- Fields of an edit descriptor (Table 7.12). -/
def edOp (w : Nat) : Nat := fld w 255 252
def edSeq (w : Nat) : Nat := fld w 251 242
def edFmt (w : Nat) : Nat := fld w 241 238
def edVOff (w : Nat) : Nat := fld w 237 217
def edPos (w : Nat) : Nat := fld w 216 185

end Sys2Proof.Machine
end

