-- ==== Sys2Proof/Config.lean ====
section
/-! DEFINITION. What the manual leaves to each unit, to a standard outside it, or open: constants with no body.
Nothing can be proved of a value of theirs, so a claim holds whatever they are (assumptions 1 and 8, DESIGN CHOICE). -/
namespace Sys2Proof.Config

/-- A byte the manual leaves undefined; the argument is the model's own counter, a fresh value at each use. -/
opaque freeByte : Nat → BitVec 8

/-- A byte of a job's output, by session, job number and offset, that lies in a chunk which a kind 4 transfer covers and in none of
its rows: the same in every execution (R500, R607). -/
opaque gapByte (session number off : Nat) : BitVec 8

/-- A number the manual leaves undefined, below no stated bound. -/
opaque freeNat : Nat → Nat

/-- The cause field of a domain's record whose fault record is gone, by the index of the record. -/
opaque freeCause : Nat → Nat

/-- AES-256-GCM encryption of a plaintext under a key and a 12-byte initialisation vector with associated data:
the ciphertext, as long as the plaintext, and the 16-byte tag (NIST SP 800-38D). -/
opaque gcmEncrypt (key iv aad plain : List Byte) : List Byte × List Byte

/-- AES-256-GCM decryption: the plaintext when the tag is right, none when it is wrong. -/
opaque gcmDecrypt (key iv aad cipher tag : List Byte) : Option (List Byte)

/-- SHA-384 of a message: 48 bytes. -/
opaque sha384 (msg : List Byte) : List Byte

/-- HMAC-SHA-384 of a message under a key. -/
opaque hmac384 (key msg : List Byte) : List Byte

/-- HKDF-Expand with SHA-384: `n` bytes from a secret and an info string (RFC 5869). -/
opaque hkdfExpand (secret info : List Byte) (n : Nat) : List Byte

/-- HKDF-Extract with SHA-384. -/
opaque hkdfExtract (salt ikm : List Byte) : List Byte

/-- Whether an ECDSA P-384 signature over a message verifies under a public key (FIPS 186-5). -/
opaque ecdsaVerify (key msg sig : List Byte) : Bool

/-- Whether an LMS signature over a message verifies under a public key (NIST SP 800-208). -/
opaque lmsVerify (key msg sig : List Byte) : Bool

/-- The signature a private key makes of a message, with the one-time index an LMS key uses. -/
opaque sign (key msg : List Byte) (index : Nat) : List Byte

/-- The public key of a private one. -/
opaque publicKey (key : List Byte) : List Byte

/-- The shared secret of a private P-384 key and a peer's public key. -/
opaque ecdh (priv peer : List Byte) : List Byte

/-- Whether the bytes are a valid P-384 public point. -/
opaque validPoint (pub : List Byte) : Bool

/-- The digest of the ROM, the public keys burned in it and the unit's device secret: facts of the part. -/
opaque romBytes (what : Nat) : List Byte

/-- Whether twelve upper path nodes carry the subtree root of identity block `b` to its tree's public key (R596). -/
opaque pathCarries (b : Nat) (path : List Byte) : Bool

/-- Whether a DER certificate names the part's own DeviceID key (R596). -/
opaque certNames (cert key : List Byte) : Bool

/-- The seed, drawn by the TRNG, of alias tree `a` of identity block `b` (Table 17.6). -/
opaque aliasSeed (b a : Nat) : List Byte

/-- The public key of an LMS seed. -/
opaque lmsPublic (seed : List Byte) : List Byte

/-- The cache slice, an index among those that are cache, and the set of 16 ways in which a Casket holds a line (R384). -/
opaque casketPlace (slices line : Nat) : Nat × Nat

/-- Which of the lines of a full set goes when another comes in, by index (R384). -/
opaque casketVictim (lines : List Nat) : Nat

/-- The check symbols of the 32 data symbols of a burst: four (R417). -/
opaque checkSymbols (data : List Nat) : List Nat

/-- What the code makes of a word with errors in more than three pins: whether it passes as corrected, and to what data
(R417 says nothing of it). -/
opaque manyPins (sent got : List Nat) : Option (List Nat)

/-- Bytes of BAR0 that the host's own standards define and no command writes: the MSI-X table, and the doorbell pages as a read finds
them, by head and offset (Table 16.2). -/
opaque barByte (head off : Nat) : BitVec 8

/-- The path file of the identity LMS key with those seeds (Table 17.5). -/
opaque pathFile (seeds : List (List (BitVec 8))) : List (BitVec 8)

/-- The payload of a link control block that tells the peer a part's number (R564). -/
opaque linkControl (part : Nat) : List (BitVec 8)

/-- What a collective of `n` elements sends to the next part, message by message, from the inputs of the ranks (R571, R572). -/
opaque collectiveMessages (op n P rank : Nat) (inputs : List (List (BitVec 8))) : List (List (BitVec 8))

/-! ## Cameo: what the codecs' own standards fix -/

/-- A row of Table 13.3 that names coding tools. -/
inductive Tool where
  | baseUnits
  | asymmetric
  | skipAndHiding
  | loopFilters
  | tiles
  | wavefront
  | weighted
  | longTerm
  | biPrediction
  | extensions
  | cdefAndWiener
  | selfGuided
  | segmentation
  | screenAndWarp
  | compound
  | filmGrain
  | otherPoints
  | h264Tools
  | h264Interlace
  deriving DecidableEq, Repr

/-- A profile of Table 13.2, or one outside it. -/
inductive Profile where
  | hevcMain
  | hevcMain10
  | hevcStill
  | av1Main
  | h264High
  | h264Main
  | h264Constrained
  | other
  deriving DecidableEq, Repr

/-- What a sequence-level header of a stream says: `level` is ten times the level of HEVC and H.264, and seq_level_idx of
AV1; `chroma` is chroma_format_idc, 1 for 4:2:0; `block` is the size of a CTB or superblock. -/
structure SeqHdr where
  profile : Profile
  level : Nat
  depth : Nat
  chroma : Nat
  width : Nat
  height : Nat
  block : Nat
  deriving DecidableEq, Repr

/-- An error of Table 13.10. -/
inductive DecError where
  | value
  | overrun
  | trailing
  | reference
  | parameterSet
  | hash
  deriving DecidableEq, Repr

/-- What a parsed part of a stream is: a parameter set or sequence header, the header of a picture or frame, the data of a
slice or tile group, or anything else. -/
inductive UnitKind where
  | sequence
  | header
  | data
  | other
  deriving DecidableEq, Repr

/-- A part of a coded stream as the parser takes it: the sequence-level header it carries, the tools it uses, whether it is
the first part of a picture (of a temporal unit, for AV1) and of a random access picture with its parameter sets (of a key
frame with its sequence header), whether it is an independent slice segment, whether it belongs to operating point 0, the picture
it belongs to in decoding order and whether that is output, the coding units that it decodes whole, the error it holds, and what
else it says. -/
structure DecUnit where
  kind : UnitKind
  seq : Option SeqHdr
  tools : List Tool
  first : Bool
  access : Bool
  independent : Bool
  basePoint : Bool
  pic : Nat
  shows : Bool
  whole : List Nat
  error : Option DecError
  body : List Nat
  deriving DecidableEq, Repr

/-- The next part of the bytes awaiting parsing, after the parts parsed before, and how many bytes it takes; none where more
bytes are needed. `ended` says that no more come. -/
opaque parseUnit (codec : Nat) (before : List DecUnit) (bytes : List (BitVec 8)) (ended : Bool) : Option (DecUnit × Nat)

/-- A decoded picture: its shape, its samples, Cb and Cr interleaved, the coding unit that each sample lies in, its number of
coding units, and the film grain parameters that its output takes. -/
structure DecFrame where
  width : Nat
  height : Nat
  tenBit : Bool
  luma : List Nat
  chroma : List Nat
  lumaUnit : List Nat
  chromaUnit : List Nat
  units : Nat
  grain : Option (List Nat)
  deriving DecidableEq, Repr, Inhabited

/-- The pictures of the parts of a coded stream that can be output, in display order; `ended` says that no more parts come. -/
opaque displayOrder (codec : Nat) (units : List DecUnit) (ended : Bool) : List Nat

/-- What decoding a picture reads of the decoded picture buffer, as (offset, length); the picture, from the parts of the stream and
the bytes read; and what keeping it writes there, as (offset, bytes) (ITU-T H.265, H.264, AV1). -/
opaque dpbReads (codec pic : Nat) (units : List DecUnit) : List (Nat × Nat)
opaque decodeFrame (codec pic : Nat) (units : List DecUnit) (read : List (List (BitVec 8))) : DecFrame
opaque dpbWrites (codec pic : Nat) (units : List DecUnit) (f : DecFrame) : List (Nat × List (BitVec 8))

/-- Film grain over the samples of a picture: luma, and interleaved Cb and Cr (AV1). -/
opaque filmGrain (params : List Nat) (f : DecFrame) : List Nat × List Nat

/-- Width, height and depth of a frame made up after the end of a stream that held no sequence-level header, and its coding units. -/
opaque missingShape (codec : Nat) (units : List DecUnit) : Nat × Nat × Bool
opaque missingUnits (codec : Nat) (units : List DecUnit) : Nat

/-- A CTU row of a tile column once its pixel engine has coded it: the decisions and coefficients that the entropy engine
codes, and the samples reconstructed from them, before the loop filters. -/
structure CodedRow where
  decisions : List Nat
  recon : List Nat
  deriving DecidableEq, Repr, Inhabited

/-- What a pixel engine codes a CTU row of its tile column from: its samples, for each reference searched the bands of the
reference window and the decisions of that picture, the quantiser index of the frame and of each 64 x 64 block, the AV1 segment of
each block, whether the block is coded intra, the tools it may use, and the search range in luma samples across
and down and its precision in parts of a sample. -/
structure TileRow where
  key : Bool
  row : Nat
  left : Nat
  width : Nat
  luma : List Nat
  cb : List Nat
  cr : List Nat
  bands : List (List (List (BitVec 8)))
  motion : List (List (List Nat))
  base : Nat
  quant : List Nat
  segment : List Nat
  intra : List Bool
  tools : List Tool
  range : Nat × Nat
  precision : Nat
  deriving DecidableEq, Repr

/-- The coding of a CTU row after the rows above it in the tile, by the stream descriptor (R459). -/
opaque codeRow (desc : Nat) (before : List CodedRow) (r : TileRow) : CodedRow

/-- The bytes that the entropy engine appends to a tile for a CTU row's decisions after the rows above it. -/
opaque entropyRow (desc : Nat) (before : List (List Nat)) (row : List Nat) : List (BitVec 8)

/-- The loop filters over the reconstructed rows of the tiles of a frame: a surface's bytes. -/
opaque loopFilter (desc : Nat) (tiles : List (List CodedRow)) : List (BitVec 8)

/-- Statistics of the samples of a CTU row of a tile. -/
opaque sampleStats (luma cb cr : List Nat) : List Nat

/-- The QP that rate control aims at, from the stream descriptor, the coded sizes of the earlier frames and the sample
statistics up to the frame's first CTU row (R458). -/
opaque rateControl (desc : Nat) (key : Bool) (sizes : List Nat) (stats : List (List Nat)) : Nat

/-- Fullness of the coded picture buffer before the first frame, in bits. -/
opaque initialFullness (desc : Nat) : Nat

/-- What the sequence-level headers of a coded stream say of it: its profile, size and depth; the tile columns, whether they are of
uniform spacing, their number and its logarithm; the colour description; where chroma lies (chroma_sample_loc_type in the HEVC VUI,
chroma_sample_position of AV1); the frame rate; diff_cu_qp_delta_depth; for the modes that promise it the rate and the size of the
coded picture buffer, in bits; the tools that may be used; and the number of operating points. -/
structure StreamHead where
  profile : Profile
  width : Nat
  height : Nat
  tenBit : Bool
  block : Nat
  uniform : Bool
  columns : Nat
  columnsLog2 : Nat
  primaries : Nat
  transfer : Nat
  matrixCoeffs : Nat
  fullRange : Bool
  chromaLoc : Nat
  rate : Nat × Nat
  qpDeltaDepth : Nat
  buffer : Option (Nat × Nat)
  tools : List Tool
  points : Nat
  deriving DecidableEq, Repr

/-- What a coded frame is (R453). -/
inductive FrameType where
  | idr
  | pSlices
  | keyFrame
  | interSingle
  deriving DecidableEq, Repr

/-- What the headers of a coded frame say of it: its number, its type, the quantiser index of its QP, the frames it searches, the
frames held in long-term slots, the slot that it enters, and for an AV1 frame with regions the quantiser index of each segment. -/
structure FrameHead where
  frame : Nat
  type : FrameType
  base : Nat
  refs : List Nat
  lt : List (Option Nat)
  mark : Option Nat
  segments : List Nat
  deriving DecidableEq, Repr

/-- The VPS (0), SPS (1) or PPS (2) of an HEVC stream: the bytes of its NAL unit. -/
opaque parameterSet (which : Nat) (s : StreamHead) : List (BitVec 8)

/-- Supplemental NAL units that go before a frame's slice. -/
opaque messages (s : StreamHead) (h : FrameHead) : List (List (BitVec 8))

/-- The NAL unit of a frame's slice, from what its headers say, the entry points of the tiles after the first, each as the size of
the tile before it, and the joined tiles. -/
opaque sliceUnit (s : StreamHead) (h : FrameHead) (entryPoints : List Nat) (tiles : List (BitVec 8)) : List (BitVec 8)

/-- The payload of an AV1 sequence header OBU. -/
opaque sequenceHeader (s : StreamHead) : List (BitVec 8)

/-- The header of an AV1 frame OBU, and the bytes of a tile's size field less one. -/
opaque frameHeader (s : StreamHead) (h : FrameHead) : List (BitVec 8)
opaque tileSizeBytes (s : StreamHead) (h : FrameHead) : Nat

/-- Bytes of the largest decoded picture buffer of a codec at its highest supported level (R462). -/
opaque dpbBytes (codec : Nat) : Nat

end Sys2Proof.Config
end

