-- ==== Sys2Proof/Machine/State.lean ====
section
/-! DEFINITION. The state of the part as plain data: every register, memory, queue, counter and condition the manual
gives it, the queue of waiting commands, and the state right after a cold reset. Tables of many like units are lists of
(number, entry) pairs in rising order, with one default for the units not listed. -/
namespace Sys2Proof.Machine

/-- A byte memory in canonical form: addresses strictly rising, no entry equal to 0, which an unlisted address reads as. -/
abbrev Mem := List Host.Cell

/-- A table of like units: (number, entry), numbers strictly rising. -/
abbrev Tbl (α : Type) := List (Nat × α)

/-- No command stops the part with a Lean fault: what the manual calls a fault is a next state (R505).
The one constructor is raised by no meaning; it keeps the outcome type inhabited. Safe: it is never answered. -/
inductive Fault where
  /-- Raised by no meaning. Safe. -/
  | none
  deriving DecidableEq, Repr

/-- Why a command has no meaning. -/
inductive Refusal where
  /-- Raised by an arm of `exec` whose meaning is not written. Safe. -/
  | notModelled (mnemonic : String)
  /-- Raised by any command whose operand names a unit or a field value that the part does not have (R15, R18, R19,
  Tables 1.2 and 14.1): the spec has no such command, so it gives it no effect. Safe: the model stops and claims nothing. -/
  | noSuchOperand
  deriving DecidableEq, Repr

/-! ## Tick (Package organisation, clock domains and the common tick) -/

/-- The common tick and its alignment (R26, R48 to R53). Offsets are in 1/256 tk. -/
structure TickSt where
  /-- the u64 tick counter (R26) -/
  count : Nat
  /-- how many ticks ago the event being handled was stamped: 3 for one that the sequencer has held (R33), else 0 -/
  lag : Nat
  /-- the Clasp that drives the tick: 0 A, 1 B (R25, R27) -/
  primary : Nat
  /-- last measured offset (entry 0x2000.05) -/
  measured : Int
  /-- offset still to be slewed away (R52) -/
  residual : Int
  /-- ticks since the last 1/256 tk was slewed (R52) -/
  slewSub : Nat
  /-- the tick-unaligned condition (R53) -/
  unaligned : Bool
  /-- stamp since which the offset has stayed within 2 tk (R53) -/
  inRange : Option Nat
  /-- under strap TICK_SYNC: the offset from the Strand time reference, 1/256 tk, and the stamp since which it has stayed within 2 tk
  (R53) -/
  refOff : Int
  refRange : Option Nat
  /-- under strap TICK_SYNC: whole pulse intervals by which Strand time says the upper bits run ahead, once learned (R51, R561) -/
  upper : Option Int
  /-- the counter has been stepped since the cold reset (R51) -/
  stepped : Bool
  /-- a job has been accepted since the cold reset (R51) -/
  firstAccept : Bool
  deriving DecidableEq, Repr

/-! ## Package -/

/-- How far the package has come up (R582, R586, R529, R670). -/
inductive Power where
  /-- the rails are removed -/
  | off
  /-- PKG_RESET_N is low -/
  | inReset
  /-- only the security cores run, from ROM (R582) -/
  | rom
  /-- the image has passed; Pave is not ready (R586) -/
  | booting
  /-- Pave has reported ready -/
  | running
  /-- a thermal trip has stopped every clock (R529) -/
  | stopped
  deriving DecidableEq, Repr

/-- Package-wide conditions and contacts (R532, R538, R548, R590, R592, R659, R665 to R674). -/
structure PkgSt where
  power : Power
  /-- device_state of Table 16.3: 0 booting, 1 ready, 2 warm reset, 3 device fault -/
  devState : Nat
  /-- the boot phase of R538 -/
  bootPhase : Bool
  /-- the always-on trip latch drives THERMTRIP_N low (R674) -/
  tripLatch : Bool
  /-- a tamper response has run (R592) -/
  tampered : Bool
  /-- a life-cycle transition has committed (R590) -/
  lcLocked : Bool
  /-- the device-fault state (R517) -/
  deviceFault : Bool
  /-- a warm reset has been requested and not yet run (R548) -/
  warmAsked : Bool
  /-- a Clasp has been fenced since the last warm reset (R527) -/
  claspFault : Bool
  /-- straps sampled at PKG_RESET_N (R665) -/
  straps : Straps
  /-- PERST_N of head A, B is low -/
  perstLow : List Bool
  /-- VDD_AON and VIO are in tolerance (R673) -/
  aonUp : Bool
  /-- dynamic address of each I3C port; none: an I2C-style target at its static address (R666) -/
  i3cDynamic : List (Option Nat)
  /-- voltage last requested for each die, mV (R659, entry 0x2002.01) -/
  avs : List Nat
  /-- join_cookie (R532) -/
  joinCookie : Nat
  /-- the life cycle is PRODUCTION, as the heads take it from the OTP (R537) -/
  production : Bool
  deriving DecidableEq, Repr

/-- Facts of the unit that fuses, ROM or shipment fix (Tables 19.2 to 19.9). -/
structure UnitFacts where
  vendorId : Nat
  revision : Nat
  hallmark : Nat
  encRevision : Nat
  /-- the disabled column d of each Facet row, index 8f + row (R16, R17) -/
  fusedCol : List Nat
  /-- physical Beads that fail their self-test -/
  badBeads : List Nat
  /-- Locket banks 4p + bank whose collision detector failed (R365) -/
  badBanks : List Nat
  /-- fused operating voltage of each die, mV (R659) -/
  fusedMv : List Nat
  /-- spare rows of every DRAM bank (R425) -/
  spareRows : Nat
  /-- pseudo-channels that fail their first training (R429) -/
  deadPcs : List Nat
  /-- stacks that do not train, and Clasps that fail their self-test, at a warm reset out of the device-fault state (R518) -/
  deadStacks : List Nat
  badClasps : List Nat
  /-- stamps of events on which the shadow sequencer and the primary disagree (R517) -/
  shadowSplits : List Nat
  deriving DecidableEq, Repr

/-- One-time programmable bits (R585, R588, R592, R595). -/
structure Otp where
  svn : Nat
  revoked : Nat
  lcCount : Nat
  tamperCount : Nat
  blocks : Nat
  udsPresent : Bool
  udsLocked : Bool
  /-- the UDS as a transition has burned it; none: as the unit was fused (Table 17.5) -/
  uds : Option (List Byte)
  deriving DecidableEq, Repr

/-- In service, fenced, or out of service (R505, R509). -/
inductive Svc where
  | inService
  | fenced
  | out
  deriving DecidableEq, Repr

/-- A Clasp (R515, R516, R579). -/
structure ClaspSt where
  svc : Svc
  /-- the fault log record of the fence in progress (R506) -/
  fenceRec : Option Nat
  /-- stamp of the fault that fenced it, until the other Clasp has taken over (R516) -/
  takeoverDue : Option Nat
  /-- accesses refused by the access filter (R579) -/
  filterDenied : Nat
  /-- Bezel has programmed the access filter of the management pair (R578, R586) -/
  filterOn : Bool
  deriving DecidableEq, Repr

/-- One row of a Facet's mesh (Table 15.2). -/
structure SegSt where
  svc : Svc
  fences : Nat
  fenceRec : Option Nat
  deriving DecidableEq, Repr

/-- What a slice of a Casket is: cache, scratch of the job in a slot (R386), or the unwritten-granule bits of a detour (R434). -/
inductive SliceRole where
  | cache
  | scratch (slot : Nat)
  | detour
  deriving DecidableEq, Repr

/-- A line of stacked memory held dirty in a Casket: the job slot that last wrote it and the job that held the slot then (R512), the
cache slice and the set of 16 ways that it lies in (R384), and what the stack itself holds there: its bytes, and which of
its four bursts are poisoned. -/
structure DirtyLine where
  line : Nat
  slot : Nat
  job : Option Nat
  slice : Nat
  set : Nat
  under : List Byte
  bad : List Nat
  deriving DecidableEq, Repr

/-- A Facet: thermal state, retention, mesh, Casket (R16, R21, R365, R399 to R401, R434, R512, R528). -/
structure FacetSt where
  svc : Svc
  /-- a reset has placed it in reset and has not ended (R36, R667) -/
  inReset : Bool
  fenceRec : Option Nat
  /-- 0: 940 MHz; 1: 470 MHz -/
  fclk : Nat
  /-- the tick in which its Beads issue nothing (R21) -/
  holdTick : Option Nat
  limiting : Bool
  /-- readings in a row that met the leaving condition (R528) -/
  cool : Nat
  junction : List Int
  /-- 0 awake, 1 Locket retention, 2 Locket and Casket retention, 3 waking (entry 0x3001.04) -/
  retention : Nat
  /-- stamp since which no job is bound to its Beads (R399) -/
  idleSince : Nat
  wakeStamp : Option Nat
  /-- stamp of the wake of its Casket, from retention until its first cached access (R401, R676) -/
  casketWake : Option Nat
  idleDelay : Nat
  /-- 0 main path, 1 write-first (R365) -/
  locketMode : Nat
  disabledCol : List Nat
  segs : List SegSt
  /-- the 96 slices of its Casket (R384) -/
  slices : List SliceRole
  dirty : List DirtyLine
  casketCorrected : Nat
  deriving DecidableEq, Repr

/-! ## Beads -/

/-- State of a slot (R370). -/
inductive SlotState where
  | empty
  | filling
  | full
  deriving DecidableEq, Repr

/-- The kind and value of a sync object (R368 to R380). -/
inductive SyncVal where
  | sem (count : Nat)
  /-- `fwd`: a block it holds is still to be forwarded on a Strand ring (R296) -/
  | slot (st : SlotState) (fwd : Bool)
  | window (opened : Bool)
  | barrier
  deriving DecidableEq, Repr

/-- A declared sync object of a Bead (Table 2.15). Offsets and lengths are in bytes. -/
structure SyncObj where
  val : SyncVal
  bank : Nat
  off : Nat
  len : Nat
  peer : Nat
  deriving DecidableEq, Repr

/-- Kinds of wait that the slot watchdog times (R375). -/
inductive WaitKind where
  | waitField
  | localRead
  | fill
  | remote
  | decide
  | intake
  | collective
  deriving DecidableEq, Repr

/-- A wait: the object waited on (owner Bead, object number) and the stamp at which it began (R375). -/
structure Wait where
  kind : WaitKind
  owner : Nat
  obj : Nat
  since : Nat
  deriving DecidableEq, Repr

/-- A range of a bank of a Locket. -/
structure LockRange where
  bank : Nat
  off : Nat
  len : Nat
  deriving DecidableEq, Repr

/-- What an instruction reads and writes of its own Locket. -/
structure Foot where
  reads : List LockRange
  writes : List LockRange
  deriving DecidableEq, Repr

/-- The units of a Bead that hold one instruction at a time (R683). -/
inductive ExecUnit where
  | matrix
  | vector
  | special
  | random
  deriving DecidableEq, Repr

/-- A loop of a stream: first instruction of its body, trip count, iterations done (R98, R99). -/
structure Loop where
  start : Nat
  trip : Nat
  iter : Nat
  deriving DecidableEq, Repr

/-- An instruction that has issued and is in progress while the stream goes on (R372, R683): where it stands, the step, loops and
rounding context it issued under, the units and Locket ranges it holds, the table positions it looks up and the one whose
banks it exchanges or whose shadow it loads, and the waits it is stalled on. -/
structure Parked where
  pos : Nat
  step : Option Nat
  loops : List Loop
  ctx : Option Nat
  /-- blocks or chunks that a ring-fed chain has completed (R213, R216, R288); none for any other -/
  chain : Option Nat
  waits : List Wait
  foot : Foot
  units : List ExecUnit
  looks : List Nat
  swaps : Option Nat
  loads : Option Nat
  /-- the number at which it came to be in progress (R304) -/
  arr : Nat
  deriving DecidableEq, Repr

/-- Where a Bead stands in its stream (R88, R98, R338, R354). -/
structure RunSt where
  stream : Nat
  pos : Nat
  /-- the stream's step index; none before the first step_begin (R338) -/
  step : Option Nat
  /-- step_begins and step_ends passed -/
  begun : Nat
  passed : Nat
  loops : List Loop
  ended : Bool
  /-- the barrier it has reached and waits at (R369) -/
  barrier : Option Nat
  /-- it waits at a yield while a context is saved (R98, R111) -/
  yielded : Bool
  /-- the rounding context, a raw draw context entry (R354) -/
  ctx : Option Nat
  /-- it has stopped issuing (R507) -/
  stopped : Bool
  /-- instructions in progress, in stream order -/
  parked : List Parked
  /-- the accumulator that the matrix unit forwards to its next MMA in place of writing it to bank 2: the bytes that bank 2 would
  hold, at the addresses they would have (R185) -/
  fwd : Option Mem
  deriving DecidableEq, Repr

/-- The last replayed access of a Locket bank (R362, R363). -/
structure Replay where
  bank : Nat
  row : Nat
  port : Nat
  data : List Byte
  deriving DecidableEq, Repr

/-- A physical Bead. -/
structure BeadSt where
  svc : Svc
  /-- fences since the last warm reset (R508) -/
  fences : Nat
  fenceRec : Option Nat
  /-- it passed self-test at the last cold reset (R523) -/
  selfTestOk : Bool
  /-- the Locket mode in force, write-first when true (R365) -/
  writeFirst : Bool
  /-- ledger index of the job bound to it, and its group-relative index (R83) -/
  job : Option Nat
  g : Nat
  run : RunSt
  objs : Tbl SyncObj
  waits : List Wait
  /-- stamp since which the instruction at which it stands could have made progress (cause 0x05 of Table 15.1) -/
  stoodSince : Nat
  /-- for each table position: the physical bank that is active, and whether the shadow bank is full (R239) -/
  tabSel : List Bool
  shadowFull : List Bool
  busyWarnings : List Nat
  locketCorrected : Nat
  replay : Option Replay
  /-- requests that have lost their bank's ports and retry: (bank, request), in order (R39) -/
  retry : List (Nat × LockReq)
  deriving DecidableEq, Repr

/-! ## Stacked memory -/

/-- A place in stacked memory: package-wide pseudo-channel, local granule, byte of the granule. -/
structure Place where
  pc : Nat
  granule : Nat
  byte : Nat
  deriving DecidableEq, Repr

/-- Use of an allocation: it is tagged with a session or not (R580). -/
structure Alloc where
  id : Nat
  q0 : Nat
  rows : Nat
  mirrored : Bool
  bytes : Nat
  tag : Option Nat
  deriving DecidableEq, Repr

/-- A request that waits in the queue of a pseudo-channel: bytes to be written from a byte of a granule, and the host write and the copy
that it is part of, if a host waits for it (R412, R427). -/
structure MemReq where
  granule : Nat
  byte : Nat
  bytes : List Byte
  tell : Option (Nat × Nat)
  deriving DecidableEq, Repr

/-- A host write of the window that has not completed: how many parts of each copy still wait, which copies have lost a part with its
pseudo-channel, and whether a part stands before a full queue, so that it completes with both copies only (R412, R427). -/
structure HostWrite where
  id : Nat
  head : Nat
  left : List Nat
  gone : List Bool
  full : Bool
  deriving DecidableEq, Repr

/-- A pseudo-channel (R415, R418, R427, R429). -/
structure PcSt where
  /-- 0 running, 1 held by a slice, 2 fenced, 3 lost (entry 0x4002.01) -/
  st : Nat
  /-- retrain attempts in a row that failed (R429) -/
  badTrains : Nat
  /-- refreshes owed per bank (R415) -/
  owed : Tbl Nat
  /-- last refresh of each bank (R415) -/
  refreshed : Tbl Nat
  /-- rows with uncorrectable errors and their stamps (R429) -/
  errRows : List (Nat × Nat)
  corrected : Nat
  uncorrectable : Nat
  /-- granules read by patrol scrubbing and the stamp of the last read (R421) -/
  scrubbed : Nat
  /-- requests that wait for it in arrival order: the first 1,024 in its Casket's queue, the rest stalled before it (R427) -/
  queue : List MemReq
  fenceRec : Option Nat
  deriving DecidableEq, Repr

/-- A slice in progress (R426). -/
structure Slice where
  pc : Nat
  start : Nat
  kind : SliceKind
  deriving DecidableEq, Repr

/-- A row of a stack that needs repair or has been repaired: pseudo-channel of the stack, bank, row (R422 to R424). -/
structure RowRef where
  pc : Nat
  bank : Nat
  row : Nat
  deriving DecidableEq, Repr

/-- A stack (R415, R416, R422 to R438). -/
structure StackSt where
  temp : Int
  /-- rows 0 to 3 of Table 12.4 -/
  band : Nat
  /-- temperature at which its last retrain began (R428) -/
  baseTemp : Int
  /-- 0 running, 1 retraining, 2 fenced, 3 data lost (entry 0x4001.03) -/
  st : Nat
  fenceStamp : Nat
  fenceRec : Option Nat
  /-- the lost pseudo-channel of the stack (R430, R431) -/
  detour : Option Nat
  /-- detour granules written since the epoch, by local granule of the lost pseudo-channel (R434) -/
  written : List Nat
  /-- every copy of R435 is complete -/
  remirrored : Bool
  repairList : List RowRef
  needRepair : List RowRef
  /-- corrected errors per row since cold reset (R423) -/
  rowErrs : List (RowRef × Nat)
  /-- spare rows used per (pc, bank) (R425) -/
  sparesUsed : List ((Nat × Nat) × Nat)
  /-- spare rows of these that a hard repair holds for good (R424) -/
  hardUsed : List ((Nat × Nat) × Nat)
  /-- its data was lost: the bursts written whole since; every other burst of it is poisoned (R419, R431, R438) -/
  lost : Option (List Nat)
  /-- next (pc, slice) of a retrain in progress (R428) -/
  retrain : Option (Nat × Nat)
  slice : Option Slice
  lastSliceEnd : Option Nat
  deriving DecidableEq, Repr

/-- A write of the window that waits for the BIRsp of a head which holds its lines: the head whose write it is, none for the part's own,
and its bytes (R536). -/
structure BiWrite where
  head : Option Nat
  x : Nat
  bytes : List Byte
  deriving DecidableEq, Repr

/-- Memory-wide registers (R423, R432). -/
structure MemCtl where
  mapEpoch : Nat
  repairThreshold : Nat
  /-- lost pseudo-channel and stamp of the map-epoch barrier that is due (R432) -/
  epochDue : List (Nat × Nat)
  /-- (handle, tensor) of weight tensors marked for reload (Table 12.5, R433) -/
  weightMarks : List (Nat × Nat)
  allocs : List Alloc
  nextAlloc : Nat
  /-- host writes of the window that have not completed (R412) -/
  hostWrites : List HostWrite
  nextWrite : Nat
  /-- writes of the window that wait for a back-invalidate to be answered, oldest first (R536) -/
  biWrites : List BiWrite
  deriving DecidableEq, Repr

/-! ## Settings, sessions, queues and jobs -/

/-- A loaded Setting: the capsule's bytes, where its weight image lies in host memory, and the allocation of each weight
tensor (R477, R679). -/
structure SettingSt where
  capsule : List Byte
  weightAddr : Nat
  weights : List (Nat × Nat)
  deriving DecidableEq, Repr

inductive SessState where
  | free
  | opened
  | closing
  deriving DecidableEq, Repr

/-- A session slot (R469 to R471, R603 to R605, R610). Keys are octet strings that only Bezel reads. -/
structure SessionSt where
  st : SessState
  seed : Nat
  ceiling : Nat
  jobLimit : Nat
  runLimit : Nat
  swapAddr : Nat
  swapBytes : Nat
  jobCtr : Nat
  moveCtr : Nat
  keyIn : List Byte
  keyOut : List Byte
  keySwap : List Byte
  ringSecret : List Byte
  deriving DecidableEq, Repr

/-- A submission queue with its ring, journal and doorbell state (R472 to R475, R480 to R483, R685). -/
structure QueueSt where
  ringAddr : Nat
  ringEntries : Nat
  journalAddr : Nat
  journalEntries : Nat
  head : Nat
  inOrder : Nat
  enable : Nat
  /-- the head on which the queue is active (R540, R546) -/
  active : Nat
  tail : Nat
  consumed : Nat
  nextSeq : Nat
  jNext : Nat
  phase : Bool
  jHead : Nat
  /-- records written and not released -/
  jHeld : Nat
  deriving DecidableEq, Repr

inductive LedgerState where
  /-- its acceptance record is due; acceptance is one command, which leaves no entry here -/
  | accepting
  | accepted
  /-- it has come to its end and left its group; its completion record is due -/
  | completing
  /-- its completion record is written; the journal head has not passed it -/
  | done
  deriving DecidableEq, Repr

inductive JobPhase where
  /-- accepted, not bound -/
  | waiting
  | bound
  /-- its Beads have stopped; it has not yet left its group (R507, R494) -/
  | stopping
  /-- it has left its group for good, or ended while it waited; its status is decided -/
  | ended
  deriving DecidableEq, Repr

/-- A committed or open step checkpoint generation (R108, R491). -/
structure Ckpt where
  settingId : Nat
  version : Nat
  step : Nat
  seq : Nat
  crc : Nat
  /-- completion flags EMPTY_REDUCTION (bit 0) and EXPERT_DROPPED (bit 1) -/
  flags : Nat
  overflow : Nat
  invalid : Nat
  tensors : List (Nat × List Byte)
  deriving DecidableEq, Repr

/-- One Bead of a mid-step context (R111). -/
structure BeadSave where
  g : Nat
  locket : Mem
  run : RunSt
  objs : Tbl SyncObj
  deriving DecidableEq, Repr

/-- The object of a round: a Loupe block or a route descriptor, by its constant entry (R305). -/
inductive RoundObj where
  | loupe (block : Nat)
  | route (entry : Nat)
  deriving DecidableEq, Repr

/-- A choice list of one row of a route: the row and its experts in rank order (R316). -/
structure RowChoice where
  row : Nat
  experts : List Nat
  deriving DecidableEq, Repr

/-- A round at the home Casket (R305): its step index, the tiles that have reported, and the choices of a route. -/
structure Round where
  obj : RoundObj
  step : Nat
  tiles : List Nat
  choices : List RowChoice
  deriving DecidableEq, Repr

/-- A frame released by the commit of a generation and not yet reclaimed (R282). -/
structure HeldFrame where
  frame : Nat
  seq : Nat
  gen : Nat
  /-- step_ends the job had completed at the release -/
  stepEnds : Nat
  deriving DecidableEq, Repr

/-- A key-value pool of a bound job (R255, R282, R283). -/
structure PoolSt where
  pool : Nat
  free : List Nat
  held : List HeldFrame
  deriving DecidableEq, Repr

/-- What a status of a running job names (R266, R305, R309, R312, R340, R368, R373, R375, R379, R394, R449 to R463). Beads are
group-relative. -/
inductive Named where
  | bead (g : Nat)
  /-- a Bead and one of its sync objects -/
  | object (g obj : Nat)
  /-- the wait of R375: the Bead that waits, the object's owner, the object, its state and the kind of wait -/
  | wait (g : Nat) (kind : WaitKind) (owner obj : Nat) (st : Option SyncVal)
  /-- the slot object of a halo_check, the expected and found step, the expected and found layer -/
  | halo (g obj expStep gotStep expLayer gotLayer : Nat)
  /-- a Bead and a record of a sequence -/
  | record (g rec_ : Nat)
  | tile (obj : RoundObj) (tile : Nat)
  | decision (point : Nat)
  | decisionWord (point word : Nat)
  /-- a reduction descriptor's constant entry and a contributor index -/
  | contributor (entry idx : Nat)
  /-- a Bead and a Cameo stream, by its descriptor's constant entry -/
  | stream (g entry : Nat)
  /-- a Bead, a frame and a luma row -/
  | row (g frame y : Nat)
  /-- a Cameo stream and a frame of it -/
  | frame (entry frame : Nat)
  deriving DecidableEq, Repr

/-- What the record of a fenced job says of the fault: its domain, cause, die and unit, and a detail where a rule gives one: the
status code of a job status, the ring of a FENCE (R525, R574). -/
structure Origin where
  domain : Nat
  cause : Nat
  die : Nat
  unit : Nat
  detail : Nat
  deriving DecidableEq, Repr

/-- What a fault found inside the part does when the sequencer handles it (R504). Jobs are named by ledger index and job number. -/
inductive Found where
  /-- a status of the class 0x02xx, raised at a step index -/
  | status (job num : Nat) (o : Origin) (st step : Nat) (n : Named)
  /-- poisoned data has reached a job: the tensor, none for other data of the job, and the place (cause 0x0B) -/
  | poison (job num : Nat) (tid : Option Nat) (at_ : Place)
  /-- a hardware fault of Table 15.1 -/
  | hw (f : FaultEvent)
  deriving DecidableEq, Repr

/-- A fault that has been found and stamped and that the package sequencer has not handled (R29, R33, R504). -/
structure Raised where
  stamp : Nat
  source : List Nat
  what : Found
  deriving DecidableEq, Repr

/-- How far a destination of a transfer has come. -/
inductive DestState where
  | waiting
  | filling
  | landed
  deriving DecidableEq, Repr

/-- A slot or window that a transfer writes: its owner and object, how far it has come, and since when it waits. -/
structure Dest where
  p : Nat
  obj : Nat
  st : DestState
  since : Option Nat
  /-- the number at which it reached its owner: waiting fills are admitted in the order of these numbers (R371) -/
  arr : Nat
  deriving DecidableEq, Repr

/-- A DMA transfer in flight (R97, R182, R337). `rows` holds the data read, each row with its offset in the bank, object,
tensor, scratch or output it goes to. -/
structure Transfer where
  id : Nat
  job : Nat
  p : Nat
  g : Nat
  desc : Nat
  /-- iteration of the innermost enclosing loop (R313) -/
  iter : Nat
  post : Nat
  rows : List (Nat × List Byte)
  /-- the remote window it reads, owner and object, while that is not open (R379), and since when it waits -/
  remoteWait : Option (Nat × Nat)
  remoteSince : Option Nat
  /-- the open window it reads, while the access is under way (R380) -/
  window : Option (Nat × Nat)
  dests : List Dest
  /-- what it reads and writes of its own Bead's Locket (R90) -/
  foot : Foot
  deriving DecidableEq, Repr

/-- A mid-step context (R111). `held` are the transfers saved as not yet issued (R682), with group-relative Beads in place
of physical ones. -/
structure MidCtx where
  size : Nat
  settingId : Nat
  version : Nat
  beads : List BeadSave
  held : List Transfer
  /-- checkpoint generations that Beads ahead have opened (R108) -/
  gens : List Ckpt
  deriving DecidableEq, Repr

/-- An accepted job: its ledger entry and everything that belongs to it (R476 to R502). -/
structure Job where
  queue : Nat
  seq : Nat
  tag : Nat
  descIndex : Nat
  session : Nat
  setting : Nat
  cls : Nat
  steps : Nat
  maxSize : Nat
  exts : List Nat
  seedExt : Nat
  inAddr : Nat
  inBytes : Nat
  outAddr : Nat
  outBytes : Nat
  /-- latency bound in tk; none: no bound (R486) -/
  bound : Option Nat
  /-- run limit in tk (R489) -/
  runLimit : Nat
  /-- bucket tuple (R72) -/
  tuple : List Nat
  stamp : Nat
  number : Nat
  ledger : LedgerState
  phase : JobPhase
  /-- the status it ends with, once decided; none: OK so far -/
  ending : Option Nat
  /-- journal index of its acceptance record and of its completion record (R499) -/
  accIdx : Nat
  doneIdx : Nat
  /-- completion flags, bit i for flag code i + 1 -/
  flags : Nat
  resumes : Nat
  fromStep : Nat
  overflow : Nat
  invalid : Nat
  runTicks : Nat
  size : Nat
  /-- lowest logical Bead of its group, job slot and variant while bound -/
  base : Nat
  slot : Nat
  variant : Nat
  /-- allocation of each placed tensor -/
  tensors : List (Nat × Nat)
  /-- allocations of the checkpoint and of Cameo references -/
  ckptAlloc : Option Nat
  camAllocs : List Nat
  gens : List (Option Ckpt)
  /-- generations whose step_end not every Bead has passed, oldest first (R491) -/
  openGens : List Ckpt
  mid : Option MidCtx
  cancel : Bool
  preempt : Bool
  /-- it has been fenced or pre-empted since it last ran: the next binding restores (R498) -/
  resumeDue : Bool
  /-- its next binding starts at the first step (R290, R498, R678) -/
  fromFirst : Bool
  /-- rings whose RESUME it awaits, and the step index that it resumes from then (R575) -/
  ringWait : List Nat
  ringFrom : Option Nat
  /-- statuses of class 0x02xx met, with their step index (R498) -/
  met : List (Nat × Nat)
  /-- the fault log record of its fence in progress: until it is bound again (R506) -/
  fenceRec : Option Nat
  /-- the last status of class 0x02xx raised and what it names -/
  named : Option (Nat × Named)
  /-- inputs decrypted (R492) -/
  inputsIn : Bool
  decisions : Tbl Nat
  latestBucket : Tbl Nat
  rounds : List Round
  barriers : Tbl (List Nat)
  pools : List PoolSt
  /-- records in host memory: sequence, record, move counter and host slot of the swap (R292, R610) -/
  swapped : List (Nat × Nat × Nat × Nat)
  stepEnds : Nat
  /-- end of the furthest output plaintext byte written, header written (R607, R609) -/
  outEnd : Nat
  headerDone : Bool
  /-- heads that have carried its output writes (R541) -/
  outHeads : List Nat
  deriving DecidableEq, Repr

/-- A table_load whose image has not been moved whole (R236). -/
structure TableLoad where
  job : Nat
  p : Nat
  pos : Nat
  image : List Byte
  post : Nat
  deriving DecidableEq, Repr

/-- How far a walk has come at one of its destinations: blocks written, since when the next one waits, and the number at which
that reached the owner (R265, R371). -/
structure WalkDest where
  p : Nat
  done : Nat
  since : Option Nat
  arr : Nat
  deriving DecidableEq, Repr

/-- A block that a walk has read and that not every destination has taken (R181, R265), with the numbers of the ring messages
that carry it on (R294). -/
structure HeldBlock where
  n : Nat
  keys : List Byte
  vals : List Byte
  keyMsg : Option Nat
  valMsg : Option Nat
  deriving DecidableEq, Repr

/-- A page walk, queued, running or relaying (R261 to R266, R278, R294 to R296). -/
structure Walk where
  id : Nat
  job : Nat
  p : Nat
  g : Nat
  desc : Nat
  wdesc : Nat
  post : Nat
  facet : Nat
  walker : Option Nat
  /-- its walker has taken the snapshot and checked the records -/
  started : Bool
  gen : Nat
  /-- blocks read and not yet taken by every destination -/
  blocks : List HeldBlock
  /-- the snapshot: (page table entry, base) of each walked record -/
  snap : List (Nat × Nat)
  dests : List WalkDest
  /-- every local block has been written: it waits for the blocks that its ring relays alone -/
  ended : Bool
  /-- relayed key and value blocks filled, and the hop of each relayed key block (R294) -/
  relayK : Nat
  relayV : Nat
  hops : List Nat
  deriving DecidableEq, Repr

/-- A record of a sequence (Table 7.7). -/
structure KvRec where
  pte : Nat
  base : Nat
  score : Nat
  deriving DecidableEq, Repr

/-- An edit of a sequence, in arrival order (R270 to R280). -/
structure Edit where
  id : Nat
  job : Nat
  p : Nat
  g : Nat
  desc : Nat
  edesc : Nat
  post : Nat
  keys : List (List Byte)
  vals : List (List Byte)
  /-- since when it waits for a free frame (R284) -/
  since : Option Nat
  facet : Nat
  walker : Option Nat
  /-- what it reads of its own Bead's Locket (R90) -/
  foot : Foot
  deriving DecidableEq, Repr

/-- A tile report on its way to the home Casket (R305). -/
structure Report where
  job : Nat
  obj : RoundObj
  step : Nat
  tile : Nat
  choices : List RowChoice
  deriving DecidableEq, Repr

/-- A contribution on its way to its home Casket (R392). -/
structure Contrib where
  job : Nat
  /-- the contributing Bead's step index, none before its first step_begin -/
  step : Option Nat
  entry : Nat
  idx : Nat
  words : List Word
  deriving DecidableEq, Repr

/-- The session mailbox (R603, R648). -/
structure Mailbox where
  request : List Byte
  offer : List Byte
  offerSecret : List Byte
  /-- stamp of the outstanding offer -/
  offered : Option Nat
  confirm : List Byte
  status : Nat
  deriving DecidableEq, Repr

/-- Package-wide scheduling registers (Tables 14.5, 19.12). -/
structure SchedSt where
  bounds : List Nat
  preemptThreshold : Nat
  resumeLimit : Nat
  nextId : Nat
  deriving DecidableEq, Repr

/-! ## Cameo -/

/-- The chroma of a luma row that an intake has taken: its components, as FP32 codes, until the row it is averaged with is in;
then the samples, which stand with the even row (R450). -/
inductive TakenChroma where
  | parts (cb cr : List Nat)
  | samples (cb cr : List Nat)
  | withEven
  deriving DecidableEq, Repr

/-- A luma row that an intake has taken, as converted samples (Table 13.1). -/
structure TakenRow where
  y : Nat
  luma : List Nat
  chroma : TakenChroma
  deriving DecidableEq, Repr

/-- An open CTU-row slot and the luma rows it holds (R451). -/
structure RowSlot where
  frame : Nat
  row : Nat
  have_ : List TakenRow
  deriving DecidableEq, Repr

/-- A band of a reference picture in a pair's window: the surface it lies in, the CTU row, and its bytes, plane row by plane
row (R454). -/
structure Band where
  surface : Nat
  row : Nat
  bytes : List (List Byte)
  deriving DecidableEq, Repr

/-- The area of an engine pair (Table 13.1). -/
structure PairArea where
  /-- bitstream buffer: coded bytes awaiting record assembly, or input bytes awaiting parsing -/
  bits : List Byte
  /-- syntax buffer: what the pixel engine has chosen for each CTU row of the frame being coded, and reconstructed -/
  coded : List Config.CodedRow
  /-- intake: the open CTU-row slots, with the pixels of the pair's tile column -/
  slots : List RowSlot
  /-- reference window -/
  window : List Band
  deriving DecidableEq, Repr

/-- An area written with zeros: it holds nothing (R446). -/
def PairArea.empty : PairArea := { bits := [], coded := [], slots := [], window := [] }

/-- A Cameo engine pair (R440, R446, Table 15.2). -/
structure PairSt where
  svc : Svc
  fences : Nat
  fenceRec : Option Nat
  stream : Option Nat
  area : PairArea
  deriving DecidableEq, Repr

/-- A row waiting at an intake (R451). -/
structure WaitRow where
  /-- the transfer that brings it -/
  xfer : Nat
  p : Nat
  frame : Nat
  y : Nat
  bytes : List Byte
  since : Nat
  deriving DecidableEq, Repr

/-- A reconstruction in a surface of a stream: the frame, and what was decided in coding it, tile by tile. -/
structure RefPic where
  frame : Nat
  decided : List (List (List Nat))
  deriving DecidableEq, Repr

/-- A decoded picture with what its report says of it: the coding units that were decoded whole, whether input
was discarded before it, whether its picture hash disagreed, and whether it was made up after the end of the input (R464 to R467,
Table 13.12). -/
structure Shown where
  pic : Nat
  frame : Config.DecFrame
  whole : List Nat
  resynced : Bool
  hashBad : Bool
  missing : Bool
  deriving DecidableEq, Repr

/-- A Cameo stream of a bound job (R444 to R467). -/
structure StreamSt where
  id : Nat
  job : Nat
  /-- constant entry of its descriptor -/
  entry : Nat
  owner : Nat
  pairs : List Nat
  waiting : List WaitRow
  /-- next CTU row to be coded -/
  frame : Nat
  row : Nat
  /-- control word and region bytes read at the start of the frame, its QP and the frames it searches -/
  ctl : Nat
  roi : List Nat
  qp : Nat
  refs : List Nat
  /-- the frame has been coded and its record is due -/
  recordDue : Bool
  /-- what each CTU row of the frame being coded has been coded from, pair by pair -/
  taken : List (List Config.TileRow)
  /-- sample statistics of the CTU rows coded, and the coded sizes of the frames, in bytes -/
  stats : List (List Nat)
  sizes : List Nat
  /-- fullness of the coded picture buffer before the frame, in bits times the frame rate numerator -/
  fullness : Nat
  /-- what each of the four surfaces of the reference allocation holds -/
  surfaces : List (Option RefPic)
  /-- frame held in each long-term slot -/
  lt : List (Option Nat)
  fallback : Bool
  recOff : Nat
  ended : Bool
  /-- decode: bytes handed over that the bitstream buffer has no room for yet, parsed parts of the stream, end of input seen -/
  input : List Byte
  units : List Config.DecUnit
  inputEnd : Bool
  /-- decode: pictures decoded, those of them not output yet, pictures and frames output, last frame without concealment -/
  decoded : List Nat
  held : List Shown
  shown : List Nat
  output : Nat
  lastGood : Option Config.DecFrame
  deriving DecidableEq, Repr

/-! ## Heads -/

/-- A CXL head (R530 to R548, Table 19.8). -/
structure HeadSt where
  /-- 0 down, 1 training, 2 L0, 3 electrically idle -/
  link : Nat
  width : Nat
  rate : Nat
  hdmBase : Nat
  hdmCommitted : Bool
  /-- 0 none, 1 established, 2 check failed -/
  ide : Nat
  ideFail : Nat
  replays : Nat
  urCount : Nat
  msixPending : List Nat
  /-- stamp at which its PERST_N was released (R666) -/
  perstUp : Nat
  aerFatal : Nat
  aerNonFatal : Nat
  /-- host lines its device cache holds modified: (line, bytes) (R530, R547) -/
  cache : List (Nat × List Byte)
  deriving DecidableEq, Repr

/-! ## Strand -/

/-- A message that has to leave: its virtual channel, its ring and whether it goes to the next part of it, the number of a message
under the ring key and its sealed bytes, the payload of a ring control message, which is sealed under the link key of the port that
takes it, and the slots whose block it forwards (R296, R552, R555, R568). -/
structure TxMsg where
  vc : Nat
  ring : Nat
  next : Bool
  num : Nat
  bytes : List Byte
  control : Option (List Byte)
  slots : List (Nat × Nat)
  deriving DecidableEq, Repr

/-- A data block that has not been acknowledged: its sequence number, its payload, how often it has been resent, and the messages that
end in it (R551, R568, R576). -/
structure TxBlock where
  seq : Nat
  payload : List Byte
  tries : Nat
  ends : List TxMsg
  deriving DecidableEq, Repr

/-- A Strand port (R549 to R564, R576, Table 19.7). -/
structure PortSt where
  /-- 0 down, 1 training, 2 up with 8 lanes, 3 lanes 0-3, 4 lanes 4-7, 5 fenced, 6 out of service -/
  st : Nat
  peer : Nat
  faults : Nat
  fenceRec : Option Nat
  retries : Nat
  badType : Nat
  tagFail : Nat
  /-- next sequence number sent; unacknowledged blocks; next expected; blocks are discarded until a resend -/
  txSeq : Nat
  unacked : List TxBlock
  txQueue : List TxMsg
  rxNext : Nat
  discarding : Bool
  credits : List Nat
  linkKey : List Byte
  linkSalt : List Byte
  /-- messages counted per virtual channel, sent and received (R555) -/
  ivTx : List Nat
  ivRx : List Nat
  /-- last sync block of the peer: its t_tx and arrival; what it said of the reference (R558, R559) -/
  echoTx : Nat
  echoRx : Nat
  peerRef : Nat
  peerDepth : Nat
  lastSync : Nat
  deriving DecidableEq, Repr

/-- A ring table entry (Table 16.11). -/
structure RingEntry where
  enable : Nat
  size : Nat
  rank : Nat
  session : Nat
  nextPart : Nat
  prevPart : Nat
  nextPorts : Nat
  prevPorts : Nat
  epoch : Nat
  deriving DecidableEq, Repr

/-- What a part knows of its ring's job: step indices committed here, passed on and agreed (R573 to R575). -/
structure RingRun where
  /-- greatest step index this part has committed -/
  committed : Nat
  /-- step index of a COMMITTED that waits for this part's own commit -/
  owed : Option Nat
  /-- greatest k for which COMMITTED(k) came back to rank 0 -/
  back : Nat
  /-- greatest k of an ALL received or sent -/
  all : Nat
  fenceStamp : Option Nat
  /-- collectives of the job that have completed, and control messages sent -/
  collectives : Nat
  controls : Nat
  /-- messages for which no port of their neighbour set works (R574, R577) -/
  held : List TxMsg
  ivTx : Nat
  ivRx : Nat
  deriving DecidableEq, Repr

/-- Strand registers of the part (Table 19.7). -/
structure StrandSt where
  partNumber : Nat
  timeRef : Nat
  parent : Nat
  depth : Nat
  deriving DecidableEq, Repr

/-- A ring data block accepted and not yet filled into its slot (R294, R295). -/
structure RingBlock where
  ring : Nat
  job : Nat
  dest : Nat
  object : Nat
  data : List Byte
  /-- destinations filled -/
  got : List Nat
  /-- the ring message that carries it on, once sent -/
  msg : Option Nat
  /-- since when it waits for its slots, and the number at which it began to (R371, R375) -/
  since : Option Nat
  arr : Nat
  deriving DecidableEq, Repr

/-! ## Security and management -/

/-- A request for a signature that waits until Bezel can sign (R596): a session offer, or an SPDM request of a path. -/
inductive Signer where
  | offer
  | spdm (path : Nat) (r : SpdmRequest)
  deriving DecidableEq, Repr

/-- Keys of layers 0 and 1 of Table 17.6: DeviceID, the seeds of the two identity LMS trees, and the CDI of Bezel. -/
structure LayerKeys where
  device : List Byte
  trees : List (List Byte)
  cdi : List Byte
  deriving DecidableEq, Repr

/-- Bezel's and the ROM's registers (R582 to R599, R646, R647). -/
structure SecSt where
  /-- the layer keys, from the ROM's derivation until they are erased (R586, R592, R593) -/
  layers : Option LayerKeys
  imageAddr : Nat
  imageLen : Nat
  bootStatus : Nat
  keySlot : Nat
  imageSvn : Nat
  commitSvn : Bool
  revokeMask : Nat
  patchDigest : List Byte
  paveDigest : List Byte
  cameoDigest : List Byte
  /-- a Pave image has come up since the cold boot: the commit of R585 is done once -/
  svnDone : Bool
  bundle : List Byte
  /-- 0 ready, 1 awaiting a bundle, 2 END_OF_IDENTITY -/
  identityState : Nat
  block : Nat
  alias_ : Nat
  lmsNext : Nat
  treesReady : Nat
  /-- requests for a signature that wait, in the order of their stamps (R596, R598) -/
  waiting : List Signer
  nonce : List Byte
  token : List Byte
  keysErased : Bool
  linkKeysErased : Bool
  deriving DecidableEq, Repr

/-- A management write that was handled, and its response (R620). -/
structure Replayed where
  req : MgmtReq
  response : List Byte
  deriving DecidableEq, Repr

/-- A management path: endpoint ID and replay memory (R612, R620). -/
structure PathSt where
  eid : Nat
  replay : List Replayed
  deriving DecidableEq, Repr

/-- Telemetry (Table 19.11, R47, R649). -/
structure TelemSt where
  interval : Nat
  nextInterval : Nat
  start : Nat
  /-- highest junction reading of each die in the interval in progress, -32768 before the first, and in the last complete
  one that holds a reading -/
  runMax : List Int
  lastMax : List Int
  /-- the same of readings stamped with the end of the interval in progress, which belong to the next one (R44) -/
  nextMax : List Int
  lastPower : Nat
  lastDie : List Nat
  accepted : List Nat
  boundMissed : List Nat
  resumes : Nat
  deriving DecidableEq, Repr

/-- Management registers: paths, staged table image, configuration count (R634, R643). -/
structure MgmtSt where
  paths : List PathSt
  stage : List Byte
  configCount : Nat
  deriving DecidableEq, Repr

/-- A fault log record (Table 15.6). -/
structure FaultRec where
  stamp : Nat
  kind : Nat
  domain : Nat
  cause : Nat
  die : Nat
  unit : Nat
  subunit : Nat
  detail : Nat
  queue : Nat
  seq : Nat
  status : Nat
  count : Nat
  deriving DecidableEq, Repr

/-- The fault log (R526): records written, acknowledged, and record n of the log at n mod 4,096. -/
structure FaultLog where
  written : Nat
  acked : Nat
  recs : Tbl FaultRec
  deriving DecidableEq, Repr

/-! ## Outputs -/

/-- What the part has sent out of itself. -/
inductive Output where
  | mgmt (path tag : Nat) (bytes : List Byte)
  | control (path code : Nat) (bytes : List Byte)
  | spdm (path code : Nat) (bytes : List Byte)
  | msix (head vector : Nat)
  | aer (head : Nat) (fatal : Bool)
  | unsupported (head : Nat)
  /-- the identity public keys and the path file of a part that is provisioned (Table 17.5) -/
  | identity (keys : List (List Byte)) (pathFile : List Byte)
  | completerAbort (head : Nat)
  | backInvalidate (head line : Nat)
  | windowData (head : Nat) (bytes : List Byte) (poison : Bool)
  | windowDone (head : Nat)
  /-- a zero-length read of host memory, which pushes the writes before it (R541) -/
  | flushRead (head : Nat)
  | snoop (head line : Nat) (modified : Option (List Byte))
  | strand (port : Nat) (bytes : List Byte)
  | voltage (die mv : Nat)
  deriving DecidableEq, Repr

/-! ## The state -/

/-- Everything of the part that running, moving data and managing jobs can change. -/
structure Chip where
  /-- the model's own counter, at which free values are taken -/
  freeCtr : Nat
  sent : List Output
  tick : TickSt
  pkg : PkgSt
  clasps : List ClaspSt
  /-- edges out of service, by index in Table 1.1's list (R510) -/
  edgesOut : List Nat
  facets : Tbl FacetSt
  beads : Tbl BeadSt
  locket : Mem
  tables : Mem
  scratch : Mem
  hbm : Mem
  /-- poisoned bursts (R419) -/
  poison : List Nat
  host : Mem
  pcs : Tbl PcSt
  stackTab : Tbl StackSt
  mem : MemCtl
  settings : Tbl SettingSt
  sessions : Tbl SessionSt
  mailbox : Mailbox
  queues : Tbl QueueSt
  jobs : Tbl Job
  transfers : List Transfer
  tableLoads : List TableLoad
  walks : List Walk
  edits : List Edit
  reports : List Report
  contribs : List Contrib
  ringIn : List RingBlock
  sched : SchedSt
  pairs : Tbl PairSt
  streams : List StreamSt
  heads : List HeadSt
  /-- heads through which the host holds a copy of a window line: (line, head) (R536) -/
  held : List (Nat × Nat)
  ports : Tbl PortSt
  rings : Tbl RingEntry
  ringRuns : Tbl RingRun
  strand : StrandSt
  mgmt : MgmtSt
  telem : TelemSt
  flog : FaultLog
  /-- faults found and not handled, in the order in which the sequencer will handle them (R33 to R35, R504) -/
  raised : List Raised
  deriving DecidableEq, Repr

/-- An event with its stamp, and its rank and source index in Table 1.5. -/
structure Stamped where
  stamp : Nat
  rank : Nat
  source : List Nat
  event : Instr
  deriving DecidableEq, Repr

/-- The whole part: what waits, the chip, and what only resets, Bezel and the management of the part can change: the
facts of the unit, the one-time programmable bits and the security registers. -/
structure State where
  /-- commands that wait, first in first out -/
  pending : List Instr
  /-- stamped events that the package sequencer holds, in the order in which it will handle them (R33 to R35) -/
  inbox : List Stamped
  chip : Chip
  unit : UnitFacts
  otp : Otp
  sec : SecSt
  deriving DecidableEq, Repr

/-! ## Defaults and the state after a cold reset -/

/-- A stream position before anything has run (R338: no step index). -/
def RunSt.fresh : RunSt :=
  { stream := 0, pos := 0, step := none, begun := 0, passed := 0, loops := [], ended := false, barrier := none,
    yielded := false, ctx := none, stopped := false, parked := [], fwd := none }

/-- A Bead in service, bound to nothing, its tables empty (R239) and its counters 0 (R640). -/
def BeadSt.fresh : BeadSt :=
  { svc := .inService, fences := 0, fenceRec := none, selfTestOk := true, writeFirst := false, job := none, g := 0,
    run := RunSt.fresh, objs := [], waits := [], stoodSince := 0, tabSel := List.replicate 8 false,
    shadowFull := List.replicate 8 false, busyWarnings := List.replicate 4 0, locketCorrected := 0, replay := none, retry := [] }

def SegSt.fresh : SegSt := { svc := .inService, fences := 0, fenceRec := none }

/-- A Facet awake at 940 MHz (R20), with the defaults of Table 19.4 and every row's spare at column 14 (R17). -/
def FacetSt.fresh : FacetSt :=
  { svc := .inService, inReset := false, fenceRec := none, fclk := 0, holdTick := none, limiting := false, cool := 0,
    junction := List.replicate 8 0, retention := 0, idleSince := 0, wakeStamp := none, casketWake := none, idleDelay := 125000,
    locketMode := 0, disabledCol := List.replicate 8 14, segs := List.replicate 8 SegSt.fresh, slices := List.replicate 96 .cache,
    dirty := [],
    casketCorrected := 0 }

def ClaspSt.fresh : ClaspSt := { svc := .inService, fenceRec := none, takeoverDue := none, filterDenied := 0, filterOn := false }

def PcSt.fresh : PcSt :=
  { st := 0, badTrains := 0, owed := [], refreshed := [], errRows := [], corrected := 0,
    uncorrectable := 0, scrubbed := 0, queue := [], fenceRec := none }

def StackSt.fresh : StackSt :=
  { temp := 0, band := 0, baseTemp := 0, st := 0, fenceStamp := 0, fenceRec := none, detour := none, written := [],
    remirrored := true, repairList := [], needRepair := [], rowErrs := [], sparesUsed := [], hardUsed := [], lost := none, retrain := none,
    slice := none, lastSliceEnd := none }

def SessionSt.free : SessionSt :=
  { st := .free, seed := 0, ceiling := 0, jobLimit := 0, runLimit := 0, swapAddr := 0, swapBytes := 0, jobCtr := 0,
    moveCtr := 0, keyIn := [], keyOut := [], keySwap := [], ringSecret := [] }

/-- A queue with the defaults of Table 14.1. -/
def QueueSt.fresh : QueueSt :=
  { ringAddr := 0, ringEntries := 0, journalAddr := 0, journalEntries := 0, head := 0, inOrder := 0, enable := 0,
    active := 0, tail := 0, consumed := 0, nextSeq := 0, jNext := 0, phase := true, jHead := 0, jHeld := 0 }

def PairSt.fresh : PairSt :=
  { svc := .inService, fences := 0, fenceRec := none, stream := none, area := PairArea.empty }

def HeadSt.fresh : HeadSt :=
  { link := 0, width := 0, rate := 0, hdmBase := 0, hdmCommitted := false, ide := 0, ideFail := 0, replays := 0,
    urCount := 0, msixPending := [], perstUp := 0, aerFatal := 0, aerNonFatal := 0, cache := [] }

/-- A port down, with the whole receive buffer of each virtual channel as credit (Table 16.7). -/
def PortSt.fresh : PortSt :=
  { st := 0, peer := 0xFFFF, faults := 0, fenceRec := none, retries := 0, badType := 0, tagFail := 0, txSeq := 0,
    unacked := [], txQueue := [], rxNext := 0, discarding := false, credits := [128, 4096], linkKey := [], linkSalt := [],
    ivTx := [0, 0], ivRx := [0, 0], echoTx := 0, echoRx := 0, peerRef := 0, peerDepth := 63, lastSync := 0 }

def RingEntry.fresh : RingEntry :=
  { enable := 0, size := 0, rank := 0, session := 0, nextPart := 0, prevPart := 0, nextPorts := 0, prevPorts := 0,
    epoch := 0 }

def RingRun.fresh : RingRun :=
  { committed := 0, owed := none, back := 0, all := 0, fenceStamp := none, collectives := 0, controls := 0, held := [], ivTx := 0, ivRx := 0 }

def PathSt.fresh : PathSt := { eid := 0, replay := [] }

def Mailbox.fresh : Mailbox :=
  { request := [], offer := [], offerSecret := [], offered := none, confirm := [], status := 0 }

/-- The chip right after a cold reset has ended with every strap at 0: the tick is 0 (R28), every kept entry is at its
default (R636), every live entry at 0 (R640), memories are clear (Table 20.5). -/
def Chip.reset : Chip :=
  { freeCtr := 0, sent := [],
    tick := { count := 0, lag := 0, primary := 0, measured := 0, residual := 0, slewSub := 0, unaligned := false, inRange := some 0,
              refOff := 0, refRange := some 0, upper := none, stepped := false, firstAccept := false },
    pkg := { power := .rom, devState := 0, bootPhase := true, tripLatch := false, tampered := false, lcLocked := false,
             deviceFault := false, warmAsked := false, claspFault := false,
             straps := { addr := 0, head := 0, tick := 0, boot := 0 }, perstLow := [false, false], aonUp := true,
             i3cDynamic := [none, none], avs := List.replicate 8 0, joinCookie := 0, production := true },
    clasps := [ClaspSt.fresh, ClaspSt.fresh], edgesOut := [], facets := [], beads := [], locket := [], tables := [],
    scratch := [], hbm := [], poison := [], host := [], pcs := [], stackTab := [],
    mem := { mapEpoch := 0, repairThreshold := 4, epochDue := [], weightMarks := [], allocs := [], nextAlloc := 0,
             hostWrites := [], nextWrite := 0, biWrites := [] },
    settings := [], sessions := [], mailbox := Mailbox.fresh, queues := [], jobs := [], transfers := [],
    tableLoads := [], walks := [], edits := [], reports := [], contribs := [], ringIn := [],
    sched := { bounds := [31250000, 250000000, 3750000000, 0xFFFFFFFF], preemptThreshold := 125000, resumeLimit := 8,
               nextId := 0 },
    pairs := [], streams := [], heads := [HeadSt.fresh, HeadSt.fresh], held := [], ports := [], rings := [],
    ringRuns := [], strand := { partNumber := 0, timeRef := 0, parent := 0xFF, depth := 63 },
    mgmt := { paths := List.replicate 4 PathSt.fresh, stage := [], configCount := 0 },
    telem := { interval := 125000, nextInterval := 125000, start := 0, runMax := List.replicate 8 (-32768),
               lastMax := List.replicate 8 0, nextMax := List.replicate 8 (-32768), lastPower := 0, lastDie := List.replicate 8 0,
               accepted := List.replicate 128 0, boundMissed := List.replicate 4 0, resumes := 0 },
    flog := { written := 0, acked := 0, recs := [] }, raised := [] }

/-- The security registers after a cold reset: none loaded, the identity state at 0 (R640). -/
def SecSt.fresh : SecSt :=
  { layers := none, imageAddr := 0, imageLen := 0, bootStatus := 0, keySlot := 0, imageSvn := 0, commitSvn := false, revokeMask := 0,
    patchDigest := [], paveDigest := [], cameoDigest := [], svnDone := false, bundle := [],
    identityState := 0, block := 0, alias_ := 0, lmsNext := 0, treesReady := 0, waiting := [], nonce := List.replicate 32 0, token := [],
    keysErased := false, linkKeysErased := false }

/-- The part right after a cold reset: the ROM runs, nothing else (R582), and no command waits.
The per-unit facts and the OTP bits are the model's choice (assumption 3, DESIGN CHOICE). -/
def State.reset : State :=
  { pending := [], inbox := [], chip := Chip.reset,
    unit := { vendorId := 0, revision := 0, hallmark := 0, encRevision := 0, fusedCol := List.replicate 40 14,
              badBeads := [], badBanks := [], fusedMv := List.replicate 8 750, spareRows := 1, deadPcs := [],
              deadStacks := [], badClasps := [], shadowSplits := [] },
    otp := { svn := 0, revoked := 0, lcCount := 2, tamperCount := 0, blocks := 0, udsPresent := true, uds := none,
             udsLocked := false },
    sec := SecSt.fresh }

end Sys2Proof.Machine
end

