-- ==== Sys2Proof/Machine/Topology.lean ====
section
/-! DEFINITION. Package organisation: the numbering of units (R13 to R19), the edges and routes between dies (R9 to R12,
Table 15.3), the order of same-tick events (Table 1.5) and the arbiters inside one clock domain (R38 to R43). -/
namespace Sys2Proof.Machine

/-! ## Numbering (R13 to R19) -/

/-- Facet, row and column of logical Bead `b` (R14). -/
def beadFacet (b : Nat) : Nat := b / 112
def beadRow (b : Nat) : Nat := b % 112 / 14
def beadCol (b : Nat) : Nat := b % 14

/-- Facet, row and physical column of physical Bead `p` (R15). -/
def physFacet (p : Nat) : Nat := p / 120
def physRow (p : Nat) : Nat := p % 120 / 15
def physCol (p : Nat) : Nat := p % 15

/-- The physical column of a logical one in a row whose column `d` is disabled (R16). -/
def physColOf (d col : Nat) : Nat := if col < d then col else col + 1

/-- Physical Bead of logical Bead `b`, given the disabled column of its row (R14 to R16). -/
def physOf (d b : Nat) : Nat := 120 * beadFacet b + 15 * beadRow b + physColOf d (beadCol b)

/-- Logical Bead of physical Bead `p`; none for the disabled Bead of its row (R16). -/
def logicalOf (d p : Nat) : Option Nat :=
  let col := physCol p
  if col = d then none
  else some (112 * physFacet p + 14 * physRow p + (if col < d then col else col - 1))

/-- Die indices of Table 1.2. -/
def dieClasp (n : Nat) : Nat := n
def dieFacet (f : Nat) : Nat := 2 + f
def dieCameo : Nat := 7
/-- Die index that fault records give the device (Table 15.6). -/
def dieDevice : Nat := 0xFF

/-- Stack of a pseudo-channel, and Facet of a stack (R18). -/
def pcStack (pc : Nat) : Nat := pc / 32
def stackFacet (s : Nat) : Nat := s / 4

/-- Clasp of a Strand port (R19). -/
def portClasp (n : Nat) : Nat := n / 6

/-! ## Edges and routes (R9 to R12, Table 15.3) -/

/-- The eighteen edges of Table 1.1 as pairs of die indices, lower index first. -/
def edgeList : List (Nat × Nat) :=
  [(0, 1), (0, 2), (0, 3), (0, 4), (0, 5), (0, 6), (0, 7), (1, 2), (1, 3), (1, 4), (1, 5), (1, 6), (1, 7),
   (2, 3), (3, 4), (4, 5), (4, 7), (5, 6)]

/-- Whether an edge between two dies exists and is in service; `out` lists the edges out of service. -/
def edgeUp (out : List Nat) (a b : Nat) : Bool :=
  match indexOf? (fun e => e == (min a b, max a b)) edgeList with
  | none => false
  | some i => !out.contains i

/-- The Clasp that carries traffic which R11 and R12 give to Clasp `x`, when a Clasp is fenced: the other one. -/
def claspOr (fenced : Nat → Bool) (x : Nat) : Nat := if fenced x then 1 - x else x

/-- From die `a` over Clasp `x` to die `b`: through the other Clasp and the edge between the Clasps where an edge of the
Clasp is out of service (Table 15.3). -/
def viaClasp (out : List Nat) (a x b : Nat) : List Nat :=
  let left := if edgeUp out a x then [a, x] else [a, 1 - x, x]
  let right := if edgeUp out x b then [b] else [1 - x, b]
  left ++ right

/-- The dies that traffic from die `a` to die `b` passes, in order. -/
def route (out : List Nat) (fenced : Nat → Bool) (a b : Nat) : List Nat :=
  if a = b then [a]
  else if a < 2 && b < 2 then
    if edgeUp out a b then [a, b] else [a, dieFacet 2, b]
  else if a < 2 || b < 2 then
    if edgeUp out a b then [a, b]
    else
      [a, 1 - (if a < 2 then a else b), b]
  else if a = dieCameo || b = dieCameo then
    let f := (if a = dieCameo then b else a) - 2
    if f = 2 then
      if edgeUp out a b then [a, b] else viaClasp out a (claspOr fenced 0) b
    else
      let x := claspOr fenced (f % 2)
      if !fenced (1 - x) && !(edgeUp out x dieCameo && edgeUp out x (dieFacet f)) then [a, 1 - x, b] else [a, x, b]
  else if edgeUp out a b then [a, b]
  else viaClasp out a (claspOr fenced ((a - 2) % 2)) b

/-! ## Same-tick precedence (R34, R35, Table 1.5) -/

/-- An event's rank in Table 1.5 and its source index, compared field by field. -/
structure EventKey where
  stamp : Nat
  rank : Nat
  source : List Nat
  deriving DecidableEq, Repr

/-- Source indices compared left to right (R35). -/
def sourceLe : List Nat → List Nat → Bool
  | [], _ => true
  | _ :: _, [] => false
  | x :: xs, y :: ys => x < y || (x == y && sourceLe xs ys)

/-- The order in which the package sequencer handles events: stamp, then class, then source index (R33 to R35). -/
def EventKey.le (a b : EventKey) : Bool :=
  a.stamp < b.stamp || (a.stamp == b.stamp && (a.rank < b.rank || (a.rank == b.rank && sourceLe a.source b.source)))

/-! ## Arbiters inside one clock domain -/

/-- The owner of a port of a Locket bank, as a requester number of Table 1.7 (R38). Ports 1 of banks 0 to 2 have none. -/
def portOwner (bank port : Nat) : Option Nat :=
  match bank, port with
  | 0, 0 => some 0
  | 1, 0 => some 1
  | 2, 0 => some 2
  | 3, 0 => some 3
  | 3, 1 => some 4
  | _, _ => none

/-- The requesters that get ports 0 and 1 of a bank in one fc: each port goes to its owner when the owner requests, then
to the lowest requester number left, port 0 first (R39). -/
def locketGrant (bank : Nat) (requests : List Nat) : Option Nat × Option Nat :=
  let own (port : Nat) : Option Nat :=
    match portOwner bank port with
    | none => none
    | some o => if requests.contains o then some o else none
  let rest := (sortDedup requests).filter fun r => own 0 != some r && own 1 != some r
  match own 0, own 1 with
  | some a, some b => (some a, some b)
  | some a, none => (some a, rest.head?)
  | none, some b => (rest.head?, some b)
  | none, none => (rest.head?, rest[1]?)

/-- The age of a router input that waits one more mc for an output that can accept a flit (R41). -/
def routerAge (age : Nat) (granted : Bool) : Nat := if granted then 0 else age + 1

/-- The input a mesh router grants an output to: inputs 0 West, 1 East, 2 North, 3 South, 4 Local with their ages. A
promoted input (age 4 or more) wins, the greatest age first; otherwise the fixed order (R40, R41). -/
def routerGrant (waiting : List (Nat × Nat)) : Option Nat :=
  let promoted := waiting.filter (4 ≤ ·.2)
  let before (x y : Nat × Nat) : Bool :=
    if promoted.isEmpty then x.1 ≤ y.1 else y.2 < x.2 || (x.2 == y.2 && x.1 ≤ y.1)
  (sortBy before (if promoted.isEmpty then waiting else promoted)).head?.map (·.1)

/-- Class of traffic at an end of an edge: 0 stamped events, 1 responses, 2 requests; within a class the lower die index
goes first (R43). -/
def edgeSendOrder (traffic : List (Nat × Nat)) : List (Nat × Nat) :=
  sortBy (fun a b => a.1 < b.1 || (a.1 == b.1 && a.2 ≤ b.2)) traffic

end Sys2Proof.Machine
end

