-- ==== Sys2Proof/WellFormed.lean ====
section
/-! DEFINITION. The operands each command may have: the units of Table 1.2, Table 14.1 and the ranges of its fields.
A command outside them names no unit of the part. A ledger index, a transfer, a walk or an edit that does not exist is
well formed: nothing of that number is due. -/
namespace Sys2Proof

/-- A physical Bead (R15). -/
def isBead (p : Nat) : Bool := p < 600
/-- A submission queue (Table 14.1). -/
def isQueue (q : Nat) : Bool := q < 128
/-- A Facet. -/
def isFacet (f : Nat) : Bool := f < 5
/-- A CXL head: 0 A, 1 B. -/
def isHead (h : Nat) : Bool := h < 2
/-- A pseudo-channel (R18). -/
def isPc (pc : Nat) : Bool := pc < 640
/-- A stack (R18). -/
def isStack (st : Nat) : Bool := st < 20
/-- A Strand port (R19). -/
def isPort (n : Nat) : Bool := n < 12
/-- A management path: 0, 1 the I3C ports, 2, 3 the VDM paths of heads A and B (Table 1.5). -/
def isPath (n : Nat) : Bool := n < 4
/-- A path of the SPDM responder: a management path, or 4, 5 the DOE mailboxes of heads A and B (R600). -/
def isSpdmPath (n : Nat) : Bool := n < 6
/-- A ring of Table 16.11. -/
def isRing (n : Nat) : Bool := n < 4096
/-- A value of `width` bytes. -/
def fits (width v : Nat) : Bool := v < 256 ^ width

/-- A write to a head's page: of any width, since another width than 4 is discarded whatever it carries (R532, R542), with a
value that a u32 holds where it is one. -/
def isPageWrite (width v : Nat) : Bool := width != 4 || fits 4 v

/-- A request whose fields hold in their fields of Table 18.2, on a path and tag of R614. -/
def MgmtReq.wf (r : MgmtReq) : Bool :=
  isPath r.path && r.tag < 8 && r.op < 16 && r.select < 4 && fits 1 r.reqId && fits 2 r.index && fits 1 r.sub
    && r.inst < 4096 && fits 8 r.mask && fits 4 r.offset && fits 2 r.length

/-- A write of a given entry. -/
def MgmtReq.writes (r : MgmtReq) (index sub : Nat) : Bool := r.op == 1 && r.index == index && r.sub == sub

/-- Entries whose write is a command of its own. -/
def ownWrites : List (Nat × Nat) :=
  [(0x2001, 2), (0x3002, 9), (0x6000, 1), (0x6000, 2), (0x6001, 1), (0x8001, 3), (0x8002, 4), (0x8003, 2), (0x8010, 1),
   (0x8010, 3), (0x8010, 6), (0x9000, 2), (0xA000, 1), (0xB000, 7)]

/-- How many rows the access moves: up to two consecutive rows, 128 bytes (R358). -/
def LockReq.rows (r : LockReq) : Nat := if r.wide then 2 else 1

/-- Writes stay inside the `n` rows of 64 bytes that the access moves (R358). -/
def RowWrite.wf (n : Nat) (w : RowWrite) : Bool := w.all (·.1 < 64 * n)

/-- A requester of Table 1.7 and one or two rows of a bank (R358). -/
def LockReq.wf (r : LockReq) : Bool := r.who < 7 && r.row + r.rows ≤ 8192 && r.write.elim true (RowWrite.wf r.rows)

/-- A ring of the ring table and a Strand port. -/
def RingPort.wf (a : RingPort) : Bool := a.ring < 4096 && a.port < 12

/-- A pseudo-channel has 36 pins and a burst 8 beats (Table 12.1). -/
def PinError.wf (e : PinError) : Bool := e.pin < 36 && e.beats < 256
def BurstError.wf (n : Nat) (e : BurstError) : Bool := e.burst < n && e.error.wf
def ReadErrors.wf (e : ReadErrors) : Bool := e.own.all PinError.wf && e.other.all PinError.wf

/-- A bank of a pseudo-channel has 64 banks of 32,768 rows (Table 12.1). -/
def SliceKind.wf : SliceKind → Bool
  | .retrain => true
  | .repair bank row => bank < 64 && row < 32768

def Reader.wf : Reader → Bool
  | .host h => isHead h
  | .bead p => isBead p
  | .scrub => true

/-- The units of Table 11.10. -/
def OnChip.wf : OnChip → Bool
  | .locketRow bank row => bank < 2400 && row < 8192
  | .casketClean f => isFacet f
  | .casketDirty f sl => isFacet f && sl < 96
  | .tableStore p pos => isBead p && pos < 8
  | .syncStore p obj => isBead p && obj < 1023

/-- The fields of Table 15.6: cause and subunit 8 bits, unit 16, detail 32. -/
def FaultEvent.wf (f : FaultEvent) : Bool := fits 1 f.cause && fits 2 f.unit && fits 1 f.sub && fits 4 f.detail

def Domain.wf : Domain → Bool
  | .segment f row => isFacet f && row < 8
  | .facet f => isFacet f
  | .pair e => e < 8

/-- One value for each sensor: eight junctions of each Facet, two Clasps, Cameo, twenty stacks. -/
def ThermalReading.wf (r : ThermalReading) : Bool :=
  r.facet.length == 40 && r.clasp.length == 2 && r.stack.length == 20

def PowerReading.wf (r : PowerReading) : Bool := fits 4 r.package && r.die.length == 8 && r.die.all (fits 4 ·)

/-- STRAP_ADDR[2:0], STRAP_HEAD, STRAP_TICK and STRAP_BOOT (Table 20.4). -/
def Straps.wf (s : Straps) : Bool := s.addr < 8 && s.head < 2 && s.tick < 2 && s.boot < 2

def WarmResetSource.wf : WarmResetSource → Bool
  | .bar head width v => isHead head && isPageWrite width v
  | .dict r => r.wf && r.writes 0x2001 2

/-- A block header's fields hold in their fields (Table 16.6). -/
def StrandBlock.wf (b : StrandBlock) : Bool :=
  b.type < 16 && b.seq < 4096 && b.ack < 4096 && b.creditVc < 4 && b.credit < 16384 && b.resv < 16

/-- A message header's fields hold in their fields (Table 16.8). -/
def StrandMessage.wf (m : StrandMessage) : Bool :=
  m.cls < 16 && m.ring < 4096 && m.src < 8192 && m.dst < 8192 && m.dest < 256 && m.object < 1024 && m.length < 131072
    && m.resv < 2 ^ 51 && m.cipher.length == m.length && m.tag.length == 16

def TimeSync.wf (b : TimeSync) : Bool :=
  fits 9 b.tTx && fits 9 b.echoTx && fits 9 b.echoRx && fits 9 b.arrival && b.refPart < 8192 && b.depth < 64

/-- The operands name units, fields and codes that the part has. -/
def Instr.wf : Instr → Bool
  | .tickSyncPulse frac => frac < 256
  | .tickAlignedClear => true
  | .bankCollisionReplay p bank reqs => isBead p && bank < 4 && reqs.all LockReq.wf
  | .loadSetting q => isQueue q
  | .unloadSetting q => isQueue q
  | .acceptJob q => isQueue q
  | .bindJob => true
  | .wakeComplete f => isFacet f
  | .unbind _ => true
  | .idleDelayExpiry f => isFacet f
  | .jobComplete _ => true
  | .checkpointCommit _ => true
  | .runLimitExpiry _ => true
  | .submissionDoorbell head _ width v => isHead head && isPageWrite width v
  | .journalDoorbell head _ width v => isHead head && isPageWrite width v
  | .cancelDoorbell head _ width v => isHead head && isPageWrite width v
  | .endStream p => isBead p
  | .stepBegin p => isBead p
  | .stepEnd p => isBead p
  | .loopBegin p => isBead p
  | .loopEnd p => isBead p
  | .decide p => isBead p
  | .tableSwap p => isBead p
  | .barrier p => isBead p
  | .barrierRelease _ obj => obj < 1024
  | .yield p => isBead p
  | .mma p => isBead p
  | .chainProduct p => isBead p
  | .chainAttention p => isBead p
  | .scorePass p => isBead p
  | .chainMlp p => isBead p
  | .copy p => isBead p
  | .convert p => isBead p
  | .add p => isBead p
  | .subtract p => isBead p
  | .multiply p => isBead p
  | .fusedMultiplyAdd p => isBead p
  | .maximum p => isBead p
  | .minimum p => isBead p
  | .absoluteValue p => isBead p
  | .negate p => isBead p
  | .relu p => isBead p
  | .leakyRelu p => isBead p
  | .scalarAffine p => isBead p
  | .laneSum p => isBead p
  | .laneMaximum p => isBead p
  | .rngContext p => isBead p
  | .randBits p => isBead p
  | .randUniform p => isBead p
  | .randUniformOpen p => isBead p
  | .randNormal p => isBead p
  | .exp2 p => isBead p
  | .exp p => isBead p
  | .log2 p => isBead p
  | .ln p => isBead p
  | .recip p => isBead p
  | .div p => isBead p
  | .rsqrt p => isBead p
  | .sqrt p => isBead p
  | .eval p => isBead p
  | .gauss p => isBead p
  | .tableLoad p => isBead p
  | .tableLoadComplete p pos => isBead p && pos < 8
  | .layerNormalisation p => isBead p
  | .rmsNormalisation p => isBead p
  | .groupNormalisation p => isBead p
  | .softMaximum p => isBead p
  | .statisticsOnly p => isBead p
  | .apply p => isBead p
  | .complete p => isBead p
  | .loupeCompare p => isBead p
  | .route p => isBead p
  | .tileReport _ _ => true
  | .roundWaitExpiry p => isBead p
  | .padFill p => isBead p
  | .convGather p => isBead p
  | .haloCheck p => isBead p
  | .resample p => isBead p
  | .regroup p => isBead p
  | .allReduceSum p _ => isBead p
  | .reduceScatterSum p _ => isBead p
  | .allGather p _ => isBead p
  | .allReduceMinimum p _ => isBead p
  | .dmaCopy p => isBead p
  | .gatherByList p => isBead p
  | .scatterByList p => isBead p
  | .sessionInputDecrypt p => isBead p
  | .sessionOutputEncrypt p => isBead p
  | .multicastCopy p => isBead p
  | .haloSend p => isBead p
  | .rowStream p => isBead p
  | .transferComplete _ => true
  | .walk p => isBead p
  | .walkStart _ => true
  | .walkBlockDelivery _ => true
  | .append p => isBead p
  | .dropBelow p => isBead p
  | .scoreAdd p => isBead p
  | .truncateFrom p => isBead p
  | .editCommit _ => true
  | .frameReclaim _ _ _ => true
  | .poolWaitExpiry _ => true
  | .syncPost p => isBead p
  | .syncFill p => isBead p
  | .syncDrain p => isBead p
  | .syncOpen p => isBead p
  | .syncClose p => isBead p
  | .syncContribute p => isBead p
  | .contributionArrival _ _ => true
  | .fillAdmit p obj => isBead p && obj < 1024
  | .fillLand p obj => isBead p && obj < 1024
  | .remoteAccessAdmit _ => true
  | .slotWatchdogExpiry _ => true
  | .rowIntake _ _ => true
  | .ctuRowStart _ => true
  | .recordAssembly _ => true
  | .decodeInput p => isBead p
  | .decodeFrameOutput _ => true
  | .endOfInput p => isBead p
  | .fault f => f.wf
  | .beadProgressExpiry p => isBead p
  | .selfTestComplete p _ => isBead p
  | .domainReturn d _ => d.wf
  | .edgeRetryExhausted e => e < 18
  | .paveTakeover => true
  | .tamper sensors => sensors < 65536
  | .thermalReading r => r.wf
  | .telemetryIntervalEnd r => r.wf
  | .refresh pc bank => isPc pc && bank < 64
  | .retrainStart st _ => isStack st
  | .sliceBegin pc k => isPc pc && k.wf
  | .sliceEnd pc _ => isPc pc
  | .softRepair pc place errs => isPc pc && place.bank < 64 && place.row < 32768 && errs.all (BurstError.wf 32)
  | .uncorrectableRead pc granule burst errs r =>
    isPc pc && granule < 8388608 && burst < 8 && errs.wf && r.wf
  | .pcLoss pc _ => isPc pc
  | .mapEpochBarrier => true
  | .remirror st => isStack st
  | .hbmPatrolScrub pc granule errs => isPc pc && granule < 8388608 && errs.all (BurstError.wf 8)
  | .stackFault st detail => isStack st && fits 4 detail
  | .stackReturn st => isStack st
  | .stackReturnTimeout st => isStack st
  | .weightReload _ _ => true
  | .hostWindowRead head addr _ => isHead head && addr < 18446744073709551616
  | .hostWindowWrite head addr _ => isHead head && addr < 18446744073709551616
  | .hostSnoop head line => isHead head && line < 288230376151711744
  | .ideCheckFail head => isHead head
  | .joinCookieWrite head width v => isHead head && isPageWrite width v
  | .warmResetRequest src => src.wf
  | .warmReset => true
  | .headReset head => isHead head
  | .facetReset f => isFacet f
  | .coldReset => true
  | .pkgResetDeassert straps => straps.wf
  | .linkUp head width rate => isHead head && [16, 8, 4].contains width && 1 ≤ rate && rate ≤ 4
  | .bootGo r => r.wf && r.writes 0x8001 3
  | .paveReady => true
  | .bundleCommit r => r.wf && r.writes 0x8002 4
  | .aliasTreeGenerate => true
  | .lcRequest r => r.wf && r.writes 0x8003 2
  | .sessionRequest r => r.wf && r.writes 0x8010 1
  | .sessionAccept r => r.wf && r.writes 0x8010 3
  | .sessionOfferExpiry => true
  | .sessionClose r => r.wf && r.writes 0x8010 6
  | .spdmRequest path _ => isSpdmPath path
  | .spdmVendorRequest path _ => isSpdmPath path
  | .swapOut _ _ _ _ => true
  | .swapIn _ _ _ => true
  | .strandBlockReceive port b => isPort port && b.wf
  | .strandRetryRequest port ack => isPort port && ack < 4096
  | .strandMessageReceive port m => isPort port && m.wf
  | .ringDataReceive _ => true
  | .timeSyncSend port frac => isPort port && frac < 256
  | .timeSyncReceive port b => isPort port && b.wf
  | .parentTimeout => true
  | .linkTraining port peer lanes => isPort port && peer < 8192 && lanes < 256
  | .strandPortFault port lanes => isPort port && lanes < 256
  | .portRetrainComplete port intact => isPort port && intact < 256
  | .ringCommitted a k => a.wf && fits 4 k
  | .ringAll a k => a.wf && fits 4 k
  | .ringFence ring epoch port => isRing ring && fits 4 epoch && isPort port
  | .ringResume a m epoch => a.wf && fits 4 m && fits 4 epoch
  | .ringResumeExpiry ring => isRing ring
  | .dictRead r => r.wf && (r.op == 0 || 4 ≤ r.op)
  | .dictWrite r => r.wf && r.op == 1 && !ownWrites.contains (r.index, r.sub)
  | .dictDescribe r => r.wf && r.op == 2
  | .dictNext r => r.wf && r.op == 3
  | .setEndpointId path eid => isPath path && eid < 256
  | .getEndpointId path => isPath path
  | .getMctpVersionSupport path msgType => isPath path && msgType < 256
  | .getMessageTypeSupport path => isPath path
  | .getVendorDefinedMessageSupport path => isPath path
  | .unsupportedControlCommand path code => isPath path && code < 256 && !(List.contains [1, 2, 4, 5, 6] code)
  | .tableCommit r => r.wf && r.writes 0x3002 9
  | .queueEnable r => r.wf && r.writes 0xB000 7
  | .faultLogAck r => r.wf && r.writes 0x9000 2
  | .strandIdentityWrite r => r.wf && (r.writes 0x6000 1 || r.writes 0x6000 2)
  | .telemetryIntervalWrite r => r.wf && r.writes 0xA000 1
  | .ringEntryWrite r => r.wf && r.writes 0x6001 1
  | .locketPatrolScrub m _ => m.wf
  | .ideKmExchange head => isHead head
  | .hdmDecoderCommit head base => isHead head && base < 18446744073709551616
  | .i3cDynamicAddressAssignment port addr => port < 2 && addr < 128
  | .powerDown => true

end Sys2Proof
end

