-- ==== Sys2Proof/Machine/Ops.lean ====
section
/-! DEFINITION. The named operations over the state: tables of units, byte memories in canonical form, the one home of each
register, free values, and the form every meaning has. -/
namespace Sys2Proof.Machine

/-! ## Tables of like units -/

/-- The entry of unit `k`, if it is listed. -/
def Tbl.find? : Tbl α → Nat → Option α
  | [], _ => none
  | (i, a) :: t, k => if i = k then some a else Tbl.find? t k

/-- The entry of unit `k`, the default `d` when it is not listed. -/
def Tbl.get (t : Tbl α) (d : α) (k : Nat) : α := (t.find? k).getD d

/-- The table with unit `k` at `a`, numbers kept rising. -/
def Tbl.put : Tbl α → Nat → α → Tbl α
  | [], k, a => [(k, a)]
  | (i, x) :: t, k, a =>
    if k < i then (k, a) :: (i, x) :: t
    else if i = k then (k, a) :: t
    else (i, x) :: Tbl.put t k a

/-- The table without unit `k`. -/
def Tbl.erase (t : Tbl α) (k : Nat) : Tbl α := t.filter (·.1 != k)

/-- A change to the entry of every listed unit. -/
def Tbl.mapVals (t : Tbl α) (f : α → α) : Tbl α := t.map fun (i, a) => (i, f a)

/-! ## Byte memories -/

/-- The canonical form: addresses strictly rising, no entry equal to 0. -/
def Mem.wf : Mem → Bool
  | [] => true
  | [(_, b)] => b != 0
  | (a, b) :: (a', b') :: m => b != 0 && a < a' && Mem.wf ((a', b') :: m)

/-- One byte. An address that is not listed reads as 0 (assumption 5, DESIGN CHOICE). -/
def Mem.read : Mem → Nat → Byte
  | [], _ => 0
  | (a, b) :: m, k => if a = k then b else Mem.read m k

/-- One byte written. Writing 0 removes the entry. -/
def Mem.write : Mem → Nat → Byte → Mem
  | [], k, v => if v = 0 then [] else [(k, v)]
  | (a, b) :: m, k, v =>
    if k < a then (if v = 0 then (a, b) :: m else (k, v) :: (a, b) :: m)
    else if a = k then (if v = 0 then m else (k, v) :: m)
    else (a, b) :: Mem.write m k v

/-- `n` bytes from address `k` up. -/
def Mem.readN (m : Mem) (k : Nat) : Nat → List Byte
  | 0 => []
  | n + 1 => Mem.read m k :: Mem.readN m (k + 1) n

/-- Bytes written from address `k` up. -/
def Mem.writeN (m : Mem) (k : Nat) : List Byte → Mem
  | [] => m
  | b :: bs => Mem.writeN (Mem.write m k b) (k + 1) bs

/-- The little-endian number of `n` bytes at `k` (R3). -/
def Mem.readLE (m : Mem) (k n : Nat) : Nat := leNat (m.readN k n)

/-- Every byte from `lo` up to, not including, `hi` cleared to 0. -/
def Mem.clear (m : Mem) (lo hi : Nat) : Mem := m.filter fun (a, _) => a < lo || hi ≤ a

/-- The listed bytes from `lo` up to, not including, `hi`, moved to start at address 0. -/
def Mem.cut (m : Mem) (lo hi : Nat) : Mem :=
  (m.filter fun (a, _) => lo ≤ a && a < hi).map fun (a, b) => (a - lo, b)

/-- The cells of `img`, an image that starts at address 0, written from `lo` up. -/
def Mem.paste (m : Mem) (lo : Nat) (img : Mem) : Mem :=
  img.foldl (fun acc (a, b) => Mem.write acc (lo + a) b) m

/-! ## The form of a meaning -/

/-- The outcome of a command. -/
abbrev Out := Host.Outcome State Fault Refusal

/-- A command whose operands name units of the part has the effect `f`; any other is refused (assumption 13, DESIGN CHOICE). -/
def meaning (i : Instr) (s : State) (f : State → State) : Out :=
  if i.wf then .next (f s) else .refused .noSuchOperand

/-- A command that acts on the chip alone. -/
def onChip (i : Instr) (s : State) (f : Chip → Chip) : Out :=
  meaning i s fun s => { s with chip := f s.chip }

/-! ## Units and their entries -/

/-- The tick counter, the stamp of what is handled now (R26, R29). -/
def Chip.now (c : Chip) : Nat := c.tick.count - c.tick.lag

def Chip.bead (c : Chip) (p : Nat) : BeadSt := c.beads.get BeadSt.fresh p
def Chip.setBead (c : Chip) (p : Nat) (b : BeadSt) : Chip := { c with beads := c.beads.put p b }
def Chip.updBead (c : Chip) (p : Nat) (f : BeadSt → BeadSt) : Chip := c.setBead p (f (c.bead p))
def Chip.updRun (c : Chip) (p : Nat) (f : RunSt → RunSt) : Chip := c.updBead p fun b => { b with run := f b.run }

def Chip.facet (c : Chip) (f : Nat) : FacetSt := c.facets.get FacetSt.fresh f
def Chip.setFacet (c : Chip) (f : Nat) (x : FacetSt) : Chip := { c with facets := c.facets.put f x }
def Chip.updFacet (c : Chip) (f : Nat) (g : FacetSt → FacetSt) : Chip := c.setFacet f (g (c.facet f))

def Chip.clasp (c : Chip) (n : Nat) : ClaspSt := c.clasps.getD n ClaspSt.fresh
def Chip.updClasp (c : Chip) (n : Nat) (g : ClaspSt → ClaspSt) : Chip := { c with clasps := modAt c.clasps n g }

def Chip.pcSt (c : Chip) (pc : Nat) : PcSt := c.pcs.get PcSt.fresh pc
def Chip.setPc (c : Chip) (pc : Nat) (x : PcSt) : Chip := { c with pcs := c.pcs.put pc x }
def Chip.updPc (c : Chip) (pc : Nat) (g : PcSt → PcSt) : Chip := c.setPc pc (g (c.pcSt pc))

def Chip.stack (c : Chip) (n : Nat) : StackSt := c.stackTab.get StackSt.fresh n
def Chip.setStack (c : Chip) (n : Nat) (x : StackSt) : Chip := { c with stackTab := c.stackTab.put n x }
def Chip.updStack (c : Chip) (n : Nat) (g : StackSt → StackSt) : Chip := c.setStack n (g (c.stack n))

def Chip.session (c : Chip) (n : Nat) : SessionSt := c.sessions.get SessionSt.free n
def Chip.setSession (c : Chip) (n : Nat) (x : SessionSt) : Chip := { c with sessions := c.sessions.put n x }
def Chip.updSession (c : Chip) (n : Nat) (g : SessionSt → SessionSt) : Chip := c.setSession n (g (c.session n))

/-- The job that holds a group: bound, or stopped and still in it. -/
def Job.holds (x : Job) : Bool := x.phase = .bound || x.phase = .stopping

def Chip.queue (c : Chip) (q : Nat) : QueueSt := c.queues.get QueueSt.fresh q
def Chip.setQueue (c : Chip) (q : Nat) (x : QueueSt) : Chip := { c with queues := c.queues.put q x }
def Chip.updQueue (c : Chip) (q : Nat) (g : QueueSt → QueueSt) : Chip := c.setQueue q (g (c.queue q))

def Chip.job? (c : Chip) (j : Nat) : Option Job := c.jobs.find? j
def Chip.setJob (c : Chip) (j : Nat) (x : Job) : Chip := { c with jobs := c.jobs.put j x }
/-- The job of ledger index `j` changed; nothing when there is no such job. -/
def Chip.updJob (c : Chip) (j : Nat) (g : Job → Job) : Chip :=
  match c.job? j with
  | none => c
  | some x => c.setJob j (g x)

def Chip.pair (c : Chip) (e : Nat) : PairSt := c.pairs.get PairSt.fresh e
def Chip.setPair (c : Chip) (e : Nat) (x : PairSt) : Chip := { c with pairs := c.pairs.put e x }
def Chip.updPair (c : Chip) (e : Nat) (g : PairSt → PairSt) : Chip := c.setPair e (g (c.pair e))

def Chip.head (c : Chip) (h : Nat) : HeadSt := c.heads.getD h HeadSt.fresh
def Chip.updHead (c : Chip) (h : Nat) (g : HeadSt → HeadSt) : Chip := { c with heads := modAt c.heads h g }

def Chip.port (c : Chip) (n : Nat) : PortSt := c.ports.get PortSt.fresh n
def Chip.setPort (c : Chip) (n : Nat) (x : PortSt) : Chip := { c with ports := c.ports.put n x }
def Chip.updPort (c : Chip) (n : Nat) (g : PortSt → PortSt) : Chip := c.setPort n (g (c.port n))

def Chip.ring (c : Chip) (r : Nat) : RingEntry := c.rings.get RingEntry.fresh r
def Chip.setRing (c : Chip) (r : Nat) (x : RingEntry) : Chip := { c with rings := c.rings.put r x }
def Chip.ringRun (c : Chip) (r : Nat) : RingRun := c.ringRuns.get RingRun.fresh r
def Chip.setRingRun (c : Chip) (r : Nat) (x : RingRun) : Chip := { c with ringRuns := c.ringRuns.put r x }
def Chip.updRingRun (c : Chip) (r : Nat) (g : RingRun → RingRun) : Chip := c.setRingRun r (g (c.ringRun r))

def Chip.path (c : Chip) (n : Nat) : PathSt := c.mgmt.paths.getD n PathSt.fresh
def Chip.updPath (c : Chip) (n : Nat) (g : PathSt → PathSt) : Chip :=
  { c with mgmt := { c.mgmt with paths := modAt c.mgmt.paths n g } }

/-- Clocks run and PKG_RESET_N is high. -/
def Chip.alive (c : Chip) : Bool := match c.pkg.power with
  | .rom | .booting | .running => true
  | _ => false

/-- Something leaves the part. -/
def Chip.send (c : Chip) (o : Output) : Chip := { c with sent := c.sent ++ [o] }

/-! ## Free values (assumption 1, DESIGN CHOICE) -/

/-- The model's counter moves past `n` free values. -/
def Chip.spend (c : Chip) (n : Nat) : Chip := { c with freeCtr := c.freeCtr + n }

/-- `n` free bytes from counter value `k`. -/
def freeBytesAt (k : Nat) : Nat → List Byte
  | 0 => []
  | n + 1 => Config.freeByte k :: freeBytesAt (k + 1) n

/-- `n` free bytes: nothing is known of them. -/
def Chip.freeBytes (c : Chip) (n : Nat) : List Byte × Chip := (freeBytesAt c.freeCtr n, c.spend n)

/-- A free number. -/
def Chip.freeNat (c : Chip) : Nat × Chip := (Config.freeNat c.freeCtr, c.spend 1)

/-! ## Interrupts and the fault log -/

/-- A head's MSI-X vector is signalled: at once while its link is in L0, otherwise it stays pending (R534). -/
def Chip.msix (c : Chip) (head vector : Nat) : Chip :=
  if (c.head head).link = 2 then c.send (.msix head vector)
  else c.updHead head fun h =>
    if h.msixPending.contains vector then h else { h with msixPending := h.msixPending ++ [vector] }

/-- Vector 128 on every head whose link is up (R534). -/
def Chip.msixAll (c : Chip) : Chip :=
  iter 2 (fun h c => if (c.head h).link = 2 then c.send (.msix h 128) else c) c

/-- A record with its defaults (Table 15.6); the stamp is set when it is written. -/
def faultRec (kind domain cause die unit : Nat) : FaultRec :=
  { stamp := 0, kind := kind, domain := domain, cause := cause, die := die, unit := unit, subunit := 0, detail := 0,
    queue := 0, seq := 0, status := 0, count := 1 }

/-- A record is written at the current stamp; the oldest of 4,096 is overwritten, and vector 128 is signalled
(R525, R526, R534). -/
def Chip.log (c : Chip) (r : FaultRec) : Chip :=
  let n := c.flog.written
  { c with flog := { c.flog with written := (n + 1) % 2 ^ 32,
                                 recs := c.flog.recs.put (n % 4096) { r with stamp := c.now } } }.msixAll

/-- One more fault of a fence in progress is folded into its record, unless that record has been overwritten (R506). -/
def Chip.foldFault (c : Chip) (rec : Option Nat) : Chip :=
  match rec with
  | none => c
  | some n =>
    if (c.flog.written + 2 ^ 32 - n) % 2 ^ 32 ≤ 4096 then
      match c.flog.recs.find? (n % 4096) with
      | some r => { c with flog := { c.flog with
                      recs := c.flog.recs.put (n % 4096) { r with count := satAdd u16max r.count 1 } } }
      | none => c
    else c

/-- Domains of Table 15.6. -/
def domBead : Nat := 0
def domBank : Nat := 1
def domSegment : Nat := 2
def domFacet : Nat := 3
def domPc : Nat := 4
def domStack : Nat := 5
def domPair : Nat := 6
def domPort : Nat := 7
def domClasp : Nat := 8
def domEdge : Nat := 9
def domDevice : Nat := 10
def domJob : Nat := 11
def domNone : Nat := 15

/-- What a head reports of the other one: 0 up, 1 link down, 2 Clasp fenced (Table 16.3). -/
def Chip.partner (c : Chip) (head : Nat) : Nat :=
  let o := 1 - head
  if (c.clasp o).svc != .inService then 2 else if (c.head o).link = 2 then 0 else 1

/-- `f` has been done; vector 128 is signalled when device_state or a partner field has changed (R534). -/
def Chip.noteHeads (old new : Chip) : Chip :=
  if old.pkg.devState = new.pkg.devState && old.partner 0 = new.partner 0 && old.partner 1 = new.partner 1 then new
  else new.msixAll

/-- The head a queue uses: the configured one, except as R546 states (R540). -/
def Chip.activeHead (c : Chip) (q : Nat) : Nat := (c.queue q).active

end Sys2Proof.Machine
end

