-- ==== Sys2Proof/Machine/Memory.lean ====
section
/-! DEFINITION. Stacked memory as an address space: granules and the interleave (R404 to R410), detours (R430, R434), poison
(R419, R420), allocations, the host window and host addresses (R408, R411, R412, R535), and dirty Casket lines (R512). -/
namespace Sys2Proof.Machine

/-! ## Places (R404 to R410, R430) -/

/-- Rotation of a q-row (R406). -/
def qHash (q : Nat) : Nat := (263 * q + 17 * (q / 640) + 3 * (q / 409600)) % 640

/-- Pseudo-channel of position (q, r) (R406). -/
def qPc (q r : Nat) : Nat := (r + qHash q) % 640

/-- Partner of a pseudo-channel (R410). -/
def partnerPc (pc : Nat) : Nat := (pc + 320) % 640

/-- First local granule of the reserve (R405), and q-rows of the host window (Table 12.3). -/
def reserveGranule : Nat := 8126464
def windowRows : Nat := 209716
def totalRows : Nat := 8126464

/-- The detour of local granule `n` of lost pseudo-channel `pc` (R430). -/
def detourOf (pc n : Nat) : Nat × Nat :=
  let local_ := pc % 32
  let d := n % 31
  (32 * (pc / 32) + (if d < local_ then d else d + 1), reserveGranule + n / 31)

/-- Where position (q, r), byte `b` lies now (R406, R430). -/
def Chip.placeOf (c : Chip) (q r b : Nat) : Place :=
  let pc := qPc q r
  if (c.stack (pcStack pc)).detour = some pc then
    let (p, g) := detourOf pc q
    ⟨p, g, b⟩
  else ⟨pc, q, b⟩

/-- Position of byte `x` of a plain range, and of copy `k` of a mirrored one (R409). -/
def plainPos (q0 x : Nat) : Nat × Nat × Nat := (q0 + x / 163840, x % 163840 / 256, x % 256)
def mirrorPos (q0 k x : Nat) : Nat × Nat × Nat := (q0 + x / 81920, x % 81920 / 256 + 320 * k, x % 256)
/-- Position of copy `k` of window byte `x` (R408). -/
def windowPos (k x : Nat) : Nat × Nat × Nat := (x / 256 / 320, x / 256 % 320 + 320 * k, x % 256)

/-- Where byte `x` of an allocation lies; `k` names the copy of a mirrored one. -/
def Chip.allocPlace (c : Chip) (a : Alloc) (k x : Nat) : Place :=
  let (q, r, b) := if a.mirrored then mirrorPos a.q0 k x else plainPos a.q0 x
  c.placeOf q r b

def Chip.windowPlace (c : Chip) (k x : Nat) : Place :=
  let (q, r, b) := windowPos k x
  c.placeOf q r b

/-! ## Bytes, bursts and poison (R419, R434) -/

/-- Key of a byte of stacked memory, and number of its burst and of its Casket line. -/
def Place.key (p : Place) : Nat := p.pc * 2 ^ 31 + p.granule * 256 + p.byte
def Place.burst (p : Place) : Nat := p.pc * 2 ^ 26 + p.granule * 8 + p.byte / 32
def Place.line (p : Place) : Nat := p.pc * 2 ^ 24 + p.granule * 2 + p.byte / 128

/-- The lost pseudo-channel's granule that a detour granule stands for, in its stack; none outside a detour. -/
def Chip.detourSource (c : Chip) (p : Place) : Option Nat :=
  match (c.stack (pcStack p.pc)).detour with
  | none => none
  | some lost =>
    if p.granule < reserveGranule || p.pc = lost then none
    else
      let i := p.pc % 32
      some ((p.granule - reserveGranule) * 31 + (if i < lost % 32 then i else i - 1))

/-- A detour granule that nothing has written since the epoch (R434). -/
def Chip.detourUnwritten (c : Chip) (p : Place) : Bool :=
  match c.detourSource p with
  | none => false
  | some n => !(c.stack (pcStack p.pc)).written.contains n

/-- Stack of a burst. -/
def burstStack (b : Nat) : Nat := pcStack (b / 2 ^ 26)

/-- A burst poisoned by itself, or lost with its stack's data and not written whole since (R419, R431, R438). -/
def Chip.burstPoisoned (c : Chip) (b : Nat) : Bool :=
  c.poison.contains b || (c.stack (burstStack b)).lost.elim false fun ws => !ws.contains b

/-- Whether a read of the burst at a place is poisoned. -/
def Chip.poisonedAt (c : Chip) (p : Place) : Bool := c.burstPoisoned p.burst || c.detourUnwritten p

/-- Whether any burst of the 128-byte line at a place is poisoned: a job's read of it reaches it poisoned (Table 12.5). -/
def Chip.linePoisoned (c : Chip) (p : Place) : Bool :=
  c.detourUnwritten p || (List.range 4).any fun i => c.burstPoisoned (4 * p.line + i)

/-- A burst written poisoned (R419). -/
def Chip.poisonBurst (c : Chip) (b : Nat) : Chip :=
  if c.poison.contains b then c else { c with poison := c.poison ++ [b] }

/-- The poison of a burst cleared: all of its 32 bytes have been written (R419). -/
def Chip.cureBurst (c : Chip) (b : Nat) : Chip :=
  let c := { c with poison := c.poison.filter (· != b) }
  match (c.stack (burstStack b)).lost with
  | none => c
  | some ws => if ws.contains b then c else c.updStack (burstStack b) fun s => { s with lost := some (ws ++ [b]) }

/-- The first write to a detour granule poisons every burst of it and sets its bit; the bursts the write covers wholly are
cured as it goes on (R434). -/
def Chip.openDetour (c : Chip) (p : Place) : Chip :=
  match c.detourSource p with
  | none => c
  | some n =>
    if (c.stack (pcStack p.pc)).written.contains n then c
    else
      let c := iter 8 (fun i c => c.poisonBurst (p.pc * 2 ^ 26 + p.granule * 8 + i)) c
      c.updStack (pcStack p.pc) fun s => { s with written := s.written ++ [n] }

/-- One byte stored at a place. -/
def Chip.storeByte (c : Chip) (p : Place) (b : Byte) : Chip := { c with hbm := c.hbm.write p.key b }

/-- Bytes stored now at places that `at_` gives for offsets from `x` up: each granule's first write opens its detour, and a
burst all of whose 32 bytes are stored is cured. -/
def Chip.storeRun (c : Chip) (at_ : Nat → Place) (x : Nat) (bs : List Byte) : Chip :=
  let n := bs.length
  let c := iter n (fun i c => c.openDetour (at_ (x + i))) c
  let c := (bs.zipIdx).foldl (fun c (b, i) => c.storeByte (at_ (x + i)) b) c
  iter n (fun i c => if (x + i) % 32 = 0 && i + 32 ≤ n then c.cureBurst (at_ (x + i)).burst else c) c

/-! ## Requests that wait (R412, R427, R437) -/

/-- Entries of a pseudo-channel's request queue (R427). -/
def queueLen : Nat := 1024

/-- A pseudo-channel whose requests wait: a slice holds it, or its stack is fenced (R427, R437). -/
def Chip.requestsWait (c : Chip) (pc : Nat) : Bool := (c.pcSt pc).st = 1 || (c.stack (pcStack pc)).st = 2

/-- A request to such a pseudo-channel joins its queue; past 1,024 it stalls before it, in the same order (R427). -/
def Chip.holdReq (c : Chip) (pc : Nat) (r : MemReq) : Chip := c.updPc pc fun y => { y with queue := y.queue ++ [r] }

/-- The parts of `n` bytes from byte `x` up that lie in one line each, as offset and length. -/
def lineRuns : (fuel x n : Nat) → List (Nat × Nat)
  | 0, _, _ => []
  | fuel + 1, x, n =>
    if n = 0 then []
    else
      let k := min n (128 - x % 128)
      (0, k) :: (lineRuns fuel (x + k) (n - k)).map fun (o, m) => (o + k, m)

/-- Bytes written to places that `at_` gives for offsets from `x` up, line by line: a part whose pseudo-channel's requests wait joins
its queue, marked `tell`, and every other part is stored (R427). -/
def Chip.writeAt (c : Chip) (at_ : Nat → Place) (x : Nat) (bs : List Byte) (tell : Option (Nat × Nat)) : Chip :=
  (lineRuns bs.length x bs.length).foldl (fun c (off, n) =>
    let p := at_ (x + off)
    let part := (bs.drop off).take n
    if c.requestsWait p.pc then c.holdReq p.pc { granule := p.granule, byte := p.byte, bytes := part, tell := tell }
    else c.storeRun at_ (x + off) part) c

/-- Bytes written for the part itself or for a job. -/
def Chip.storeAt (c : Chip) (at_ : Nat → Place) (x : Nat) (bs : List Byte) : Chip := c.writeAt at_ x bs none

/-- Stacked memory once what waits for a pseudo-channel has been served in order: what a read that waits behind it finds (R427). -/
def Chip.settled (c : Chip) (pc : Nat) : Chip :=
  match (c.pcSt pc).queue with
  | [] => c
  | q => q.foldl (fun c r => c.storeRun (fun i => ⟨pc, r.granule, i⟩) r.byte r.bytes) (c.updPc pc fun y => { y with queue := [] })

/-- A host write has completed: a copy is written whole and the other is too, or waits in its queue; or neither can be any more
(R412). -/
def HostWrite.done (w : HostWrite) : Bool :=
  let whole (k : Nat) : Bool := w.left.getD k 0 = 0 && !w.gone.getD k false
  let queued (k : Nat) : Bool := w.left.getD k 0 = 0 || !w.full
  (whole 0 && queued 1) || (whole 1 && queued 0) || w.gone.all (· = true)

/-- A part of a host write has been written, or is gone with its pseudo-channel; a write that completes by it is told to its head. -/
def Chip.partDone (c : Chip) (gone : Bool) (r : MemReq) : Chip :=
  match r.tell with
  | none => c
  | some (id, k) => match c.mem.hostWrites.find? (·.id = id) with
    | none => c
    | some w =>
      let w := { w with left := modAt w.left k (· - 1), gone := if gone then w.gone.set k true else w.gone }
      let rest := c.mem.hostWrites.filter (·.id != id)
      if w.done then ({ c with mem := { c.mem with hostWrites := rest } }).send (.windowDone w.head)
      else { c with mem := { c.mem with hostWrites := rest ++ [w] } }

/-- What waits in a queue is served in order, and the host is told where it waits for it (R412, R427). -/
def Chip.drainQueue (c : Chip) (pc : Nat) : Chip :=
  let q := (c.pcSt pc).queue
  q.foldl (Chip.partDone · false) (c.settled pc)

/-- What waits in a queue is cancelled (R432). -/
def Chip.cancelQueue (c : Chip) (pc : Nat) : Chip :=
  (c.pcSt pc).queue.foldl (Chip.partDone · true) (c.updPc pc fun y => { y with queue := [] })

/-! ## Allocations -/

def Chip.alloc? (c : Chip) (id : Nat) : Option Alloc := c.mem.allocs.find? (·.id == id)

/-- Q-rows that an allocation of `n` bytes takes (R409). -/
def rowsFor (mirrored : Bool) (n : Nat) : Nat := ceilDiv n (if mirrored then 81920 else 163840)

/-- The lowest q-row from `q` on at which `rows` consecutive ones are free; `as` is in rising q0 (assumption 20, DESIGN CHOICE). -/
def firstFit (rows : Nat) : Nat → List Alloc → Nat
  | q, [] => q
  | q, a :: as => if q + rows ≤ a.q0 then q else firstFit rows (max q (a.q0 + a.rows)) as

/-- A new allocation of `n` bytes; none where no range of q-rows is free. An allocation of 0 bytes takes no q-row. -/
def Chip.allocate (c : Chip) (mirrored : Bool) (n : Nat) (tag : Option Nat) : Option (Nat × Chip) :=
  let rows := rowsFor mirrored n
  let q := firstFit rows windowRows c.mem.allocs
  if q + rows ≤ totalRows then
    let a : Alloc := { id := c.mem.nextAlloc, q0 := q, rows := rows, mirrored := mirrored, bytes := n, tag := tag }
    some (a.id, { c with mem := { c.mem with allocs := insertBy (fun a b => a.q0 ≤ b.q0) a c.mem.allocs,
                                             nextAlloc := c.mem.nextAlloc + 1 } })
  else none

/-- The Facet whose Casket holds the lines of a pseudo-channel. -/
def pcFacet (pc : Nat) : Nat := stackFacet (pcStack pc)

/-- The slices of a Casket that are cache, by number. -/
def FacetSt.cacheSlices (x : FacetSt) : List Nat := (List.range 96).filter fun k => x.slices[k]? = some .cache

/-- A line dirty in a Casket: it takes its place there, and where its set of 16 ways is full of dirty lines another one is written
back (R384, R512). What the stack holds under a line that was dirty already stays. -/
def FacetSt.withDirty (x : FacetSt) (l : DirtyLine) : FacetSt :=
  let ks := x.cacheSlices
  if ks.isEmpty then x
  else
    let (k, set) := Config.casketPlace ks.length l.line
    let l : DirtyLine := { l with slice := ks.getD (k % ks.length) 0, set := set }
    let l := match x.dirty.find? (·.line = l.line) with
      | some o => { l with under := o.under, bad := o.bad }
      | none => l
    let others := x.dirty.filter (·.line != l.line)
    let ways := others.filter fun o => o.slice = l.slice && o.set = l.set
    let victim := (ways[Config.casketVictim (ways.map (·.line)) % 16]?).map (·.line)
    let kept := if ways.length < 16 then others else others.filter fun o => some o.line != victim
    { x with dirty := kept ++ [l] }

/-- Ticks of a wake (R401). -/
def wakeTicks : Nat := 1500

/-- A Casket in retention, or waking from it (R400, R401, R676). -/
def FacetSt.casketStill (x : FacetSt) (now : Nat) : Bool := x.retention = 2 || x.casketWake.any fun w => now < w + wakeTicks

/-- A Casket takes no lines: it is in retention, or waking from it, or its Facet is fenced (R400, R401, R513). -/
def FacetSt.bypassed (x : FacetSt) (now : Nat) : Bool := x.svc != .inService || x.casketStill now

/-- The job that holds a slot. -/
def Chip.slotJob (c : Chip) (slot : Nat) : Option Nat := ((c.jobs.filter fun e => e.2.holds && e.2.slot = slot).head?).map (·.1)

/-- A line as it becomes dirty by a write of the job of a slot, with what the stack holds there now. -/
def Chip.dirtyLine (c : Chip) (slot : Nat) (p : Place) : DirtyLine :=
  { line := p.line, slot := slot, job := c.slotJob slot, slice := 0, set := 0, under := c.hbm.readN (128 * p.line) 128,
    bad := (List.range 4).filter fun i => c.burstPoisoned (4 * p.line + i) || c.detourUnwritten p }

/-- Lines of a plain range become dirty in the Caskets that hold them, with the job slot that writes them; a Casket that is
bypassed takes none, and neither does a write that waits in its queue (R400, R427, R512, R513). -/
def Chip.markDirty (c : Chip) (slot : Nat) (places : List Place) : Chip :=
  places.foldl (fun c p =>
    let f := pcFacet p.pc
    let x := c.facet f
    if x.bypassed c.now || c.requestsWait p.pc || x.dirty.any (fun l => l.line = p.line && l.slot = slot) then c
    else c.setFacet f (x.withDirty (c.dirtyLine slot p))) c

/-- A dirty line dropped without write-back: its bytes and poison are those of the stack again (R512). -/
def Chip.dropLine (c : Chip) (l : DirtyLine) : Chip :=
  l.bad.foldl (fun c i => c.poisonBurst (4 * l.line + i)) { c with hbm := c.hbm.writeN (128 * l.line) l.under }

/-- The dirty lines of a Facet's Casket are dropped without write-back (R512). -/
def Chip.dropLines (c : Chip) (f : Nat) : Chip := ((c.facet f).dirty.foldl Chip.dropLine c).updFacet f fun y => { y with dirty := [] }

/-- Bytes written to an allocation from offset `x` up by the job of a slot: both copies of a mirrored one, the dirty lines
of a plain one (R409, R511). -/
def Chip.allocWrite (c : Chip) (slot : Nat) (a : Alloc) (x : Nat) (bs : List Byte) : Chip :=
  if a.mirrored then
    let c := c.storeAt (c.allocPlace a 0) x bs
    c.storeAt (c.allocPlace a 1) x bs
  else
    let c := c.markDirty slot ((List.range bs.length).map fun i => c.allocPlace a 0 (x + i))
    c.storeAt (c.allocPlace a 0) x bs

/-- Every granule of an allocation written with zeros (R581). -/
def Chip.zeroAlloc (c : Chip) (a : Alloc) : Chip :=
  let zeros := List.replicate (roundUp a.bytes 256) 0
  let c := c.storeAt (c.allocPlace a 0) 0 zeros
  if a.mirrored then c.storeAt (c.allocPlace a 1) 0 zeros else c

/-- Whether byte `x` of copy `k` is readable: not poisoned, and its re-mirror complete where its pseudo-channel was lost
(R411, R435). -/
def Chip.copyReadable (c : Chip) (p : Place) (pc : Nat) : Bool :=
  let s := c.stack (pcStack pc)
  !(c.settled p.pc).poisonedAt p && !(s.detour = some pc && !s.remirrored)

/-- Byte `x` of a mirrored allocation: from copy 0, or copy 1 where that one is not readable; none when neither is. -/
def Chip.mirrorByte (c : Chip) (a : Alloc) (x : Nat) : Option Byte :=
  let ok (k : Nat) : Bool :=
    let (q, r, _) := mirrorPos a.q0 k x
    c.copyReadable (c.allocPlace a k x) (qPc q r)
  if ok 0 then some ((c.settled (c.allocPlace a 0 x).pc).hbm.read (c.allocPlace a 0 x).key)
  else if ok 1 then some ((c.settled (c.allocPlace a 1 x).pc).hbm.read (c.allocPlace a 1 x).key)
  else none

/-- Byte `x` of an allocation as a job reads it; none: it reaches the job poisoned (Table 12.5, R678). -/
def Chip.allocByte (c : Chip) (a : Alloc) (x : Nat) : Option Byte :=
  if a.mirrored then c.mirrorByte a x
  else
    let p := c.allocPlace a 0 x
    let c := c.settled p.pc
    if c.linePoisoned p then none else some (c.hbm.read p.key)

/-- `n` bytes of an allocation from offset `x`, or the place of the first that is poisoned. -/
def Chip.allocRead (c : Chip) (a : Alloc) (x n : Nat) : Except Place (List Byte) :=
  let bs := (List.range n).map fun i => c.allocByte a (x + i)
  match indexOf? (·.isNone) bs with
  | some i => .error (c.allocPlace a 0 (x + i))
  | none => .ok (bs.filterMap id)

/-- The same bytes with a poisoned one read as 0: for the part's own use where poison has been ruled out. -/
def Chip.allocBytes (c : Chip) (a : Alloc) (x n : Nat) : List Byte :=
  (List.range n).map fun i => (c.allocByte a (x + i)).getD 0

/-! ## What lies where (R404 to R410, R430) -/

/-- Position (q, r) that a local granule of a pseudo-channel holds now; none for an unused granule of a reserve, or of a lost
pseudo-channel. -/
def Chip.positionOf (c : Chip) (pc granule : Nat) : Option (Nat × Nat) :=
  let pos (p n : Nat) : Nat × Nat := (n, (p + 640 - qHash n) % 640)
  match (c.stack (pcStack pc)).detour with
  | none => if granule < reserveGranule then some (pos pc granule) else none
  | some lost =>
    if pc = lost then none
    else if granule < reserveGranule then some (pos pc granule)
    else (c.detourSource ⟨pc, granule, 0⟩).map (pos lost)

/-- Use of a position. -/
inductive Use where
  | window
  | mirrored (a : Alloc)
  | plain (a : Alloc)
  | none
  deriving DecidableEq, Repr

/-- What a position holds (R407 to R409). -/
def Chip.useOf (c : Chip) (q r : Nat) : Use :=
  if q < windowRows then (if q = 209715 && 64 ≤ r % 320 then .none else .window)
  else match c.mem.allocs.find? fun a => a.q0 ≤ q && q < a.q0 + a.rows with
    | some a =>
      if a.mirrored then
        (if 256 * (320 * (q - a.q0) + r % 320) < a.bytes then .mirrored a else .none)
      else (if 256 * (640 * (q - a.q0) + r) < a.bytes then .plain a else .none)
    | none => .none

/-- The plain allocation whose data a local granule holds. -/
def Chip.plainAt? (c : Chip) (pc granule : Nat) : Option Alloc :=
  match c.positionOf pc granule with
  | some (q, r) => match c.useOf q r with
    | .plain a => some a
    | _ => none
  | none => none

/-- The dirty lines of an allocation leave the Caskets, written back. -/
def Chip.flushAlloc (c : Chip) (id : Nat) : Chip :=
  iter 5 (fun f c =>
    let of (l : DirtyLine) : Bool := ((c.plainAt? (l.line / 2 ^ 24) (l.line % 2 ^ 24 / 2)).map (·.id)) = some id
    if (c.facet f).dirty.any of then c.updFacet f fun y => { y with dirty := y.dirty.filter fun l => !of l } else c) c

/-- An allocation freed: its q-rows are free for another, and no line of it stays dirty (assumption 56, DEDUCED). A tagged one is
written with zeros (R581). -/
def Chip.freeAlloc (c : Chip) (id : Nat) : Chip :=
  match c.alloc? id with
  | none => c
  | some a =>
    let c := c.flushAlloc id
    let c := if a.tag.isSome then c.zeroAlloc a else c
    { c with mem := { c.mem with allocs := c.mem.allocs.filter (·.id != id) } }

/-- A map-epoch barrier has begun and not ended: no die issues a request but those of the host window (R432). -/
def Chip.barrierOn (c : Chip) : Bool := c.mem.epochDue.any (·.2 ≤ c.now)

/-- Whether a place answers now: its pseudo-channel is neither held nor fenced, its stack is not fenced (R427, R437), and no
map-epoch barrier has begun (R432). -/
def Chip.placeReady (c : Chip) (p : Place) : Bool :=
  (c.pcSt p.pc).st = 0 && (c.stack (pcStack p.pc)).st < 2 && !c.barrierOn

/-- Whether every byte of a range of an allocation answers now. -/
def Chip.allocReady (c : Chip) (a : Alloc) (x n : Nat) : Bool :=
  (List.range n).all fun i =>
    c.placeReady (c.allocPlace a 0 (x + i)) && (!a.mirrored || c.placeReady (c.allocPlace a 1 (x + i)))

/-- Whether a write to a place goes on now: it is made, or joins the queue of a pseudo-channel whose requests wait, which has room for
it (R427); during a map-epoch barrier none does (R432). -/
def Chip.placeTakes (c : Chip) (p : Place) : Bool :=
  c.placeReady p || !c.barrierOn && c.requestsWait p.pc && (c.pcSt p.pc).queue.length < queueLen

/-- Whether every byte written to a range of an allocation goes on now. -/
def Chip.allocTakes (c : Chip) (a : Alloc) (x n : Nat) : Bool :=
  (List.range n).all fun i =>
    c.placeTakes (c.allocPlace a 0 (x + i)) && (!a.mirrored || c.placeTakes (c.allocPlace a 1 (x + i)))

/-! ## The host window and host addresses (R408, R411, R412, R535) -/

/-- Bytes of the window. -/
def windowBytes : Nat := 2 ^ 34

/-- Whether the copy `k` of window byte `x` serves reads now (R411). -/
def Chip.windowCopyUp (c : Chip) (k x : Nat) : Bool :=
  let (q, r, _) := windowPos k x
  let pc := qPc q r
  let st := c.stack (pcStack pc)
  let p := c.windowPlace k x
  (c.pcSt pc).st != 1 && (c.pcSt pc).st != 2 && !(st.detour = some pc && !st.remirrored) && st.st < 2
    && (c.pcSt p.pc).st != 1 && !(c.pcSt p.pc).queue.any fun r => r.granule = p.granule

/-- The copy a read of a window byte uses first (R411). -/
def Chip.windowCopy (c : Chip) (x : Nat) : Nat := if c.windowCopyUp 0 x then 0 else 1

/-- A byte at a place once what waits for it is served; none: poisoned. -/
def Chip.byteAt (c : Chip) (p : Place) : Option Byte :=
  let c := c.settled p.pc
  if c.poisonedAt p then none else some (c.hbm.read p.key)

/-- A window byte: from the copy of R411, or the other one when that one is uncorrectable (R414), behind the writes that wait for it;
none when both are. -/
def Chip.windowByte (c : Chip) (x : Nat) : Option Byte :=
  let k := c.windowCopy x
  match c.byteAt (c.windowPlace k x) with
  | some b => some b
  | none => c.byteAt (c.windowPlace (1 - k) x)

/-- The parts of `n` bytes of copy `k` from window byte `x` up whose requests wait behind `most` others or more. -/
def Chip.windowWaits (c : Chip) (k x n most : Nat) : List (Nat × Nat) := (lineRuns n x n).filter fun (off, _) =>
  let p := c.windowPlace k (x + off)
  c.requestsWait p.pc && most ≤ (c.pcSt p.pc).queue.length

/-- Window bytes written to copy `k`, or queued where its pseudo-channel's requests wait; `tell` names the host write. -/
def Chip.windowCopyWrite (c : Chip) (k x : Nat) (bs : List Byte) (tell : Option Nat) : Chip :=
  c.writeAt (c.windowPlace k) x bs (tell.map (·, k))

/-- Window bytes written to both copies (R412). -/
def Chip.windowWrite (c : Chip) (x : Nat) (bs : List Byte) : Chip :=
  (c.windowCopyWrite 0 x bs none).windowCopyWrite 1 x bs none

/-- The window byte that a host address reaches through a committed decoder of either head (R535). -/
def Chip.windowOf (c : Chip) (a : Nat) : Option Nat :=
  match c.heads.find? fun h => h.hdmCommitted && h.hdmBase ≤ a && a < h.hdmBase + windowBytes with
  | some h => some (a - h.hdmBase)
  | none => none

/-- A head turns away requests outside an IDE stream: in PRODUCTION, and after a failed check (R537, R539). -/
def Chip.ioClosed (c : Chip) (production : Bool) (h : Nat) : Bool :=
  (production && (c.head h).ide != 1) || (c.head h).ide = 2

/-- A head carries the part's own traffic: its link is in L0, its Clasp in service, and it takes completions (R537, R539). -/
def Chip.headOpen (c : Chip) (h : Nat) : Bool :=
  (c.head h).link = 2 && !c.ioClosed c.pkg.production h && (c.clasp h).svc = .inService

/-- A CXL.io request is answered with Unsupported Request and counted (R537). -/
def Chip.unsupported (c : Chip) (h : Nat) : Chip :=
  (c.updHead h fun x => { x with urCount := satAdd u32max x.urCount 1 }).send (.unsupported h)

/-- Session transfers use both heads, or the surviving one (R540). -/
def Chip.hostUp (c : Chip) : Bool := c.headOpen 0 || c.headOpen 1

/-- The head that carries session data of the 4 KiB host page of an address: by the page's parity, or the surviving one (R540). -/
def Chip.headOfPage (c : Chip) (a : Nat) : Nat :=
  let h := a / 4096 % 2
  if c.headOpen h then h else 1 - h

/-- The heads that carry session data of `n` bytes of host memory. -/
def Chip.headsOf (c : Chip) (a n : Nat) : List Nat :=
  sortDedup ((List.range ((a + n - 1) / 4096 + 1 - a / 4096)).map fun i => c.headOfPage (a + 4096 * i))

/-- A byte of host memory as the part reads it; an address of the window reaches stacked memory (R535). -/
def Chip.hostByte (c : Chip) (a : Nat) : Byte :=
  match c.windowOf a with
  | some x => (c.windowByte x).getD 0
  | none => c.host.read a

def Chip.hostRead (c : Chip) (a n : Nat) : List Byte := (List.range n).map fun i => c.hostByte (a + i)

/-- The heads' records of lines that a range of the window has. -/
def holdsIn (x n : Nat) (h : Nat × Nat) : Bool := x / 64 ≤ h.1 && h.1 * 64 < x + n

/-- A head that holds a line cannot answer for it: an IDE check has failed there (R539). -/
def Chip.deaf (c : Chip) (h : Nat) : Bool := (c.head h).ide = 2

/-- A write of a window line sends BISnp to every other head that holds it; a head that answers holds it no more (R536). `except_` names
a head whose own write it is. -/
def Chip.backInvalidate (c : Chip) (except_ : Option Nat) (x n : Nat) : Chip :=
  let hit (h : Nat × Nat) : Bool := holdsIn x n h && some h.2 != except_
  let c := (c.held.filter hit).foldl (fun c h => c.send (.backInvalidate h.2 h.1)) c
  { c with held := c.held.filter fun h => !hit h || c.deaf h.2 }

/-- A BIRsp for a range of the window is still to come. -/
def Chip.biWaits (c : Chip) (except_ : Option Nat) (x n : Nat) : Bool := c.held.any fun h => holdsIn x n h && some h.2 != except_ && c.deaf h.2

/-- A write of the window goes on with `f` once every other head that holds its lines has answered; until then it waits (R536). -/
def Chip.afterBi (c : Chip) (w : BiWrite) (f : Chip → Chip) : Chip :=
  let c' := c.backInvalidate w.head w.x w.bytes.length
  if c.biWaits w.head w.x w.bytes.length then { c' with mem := { c'.mem with biWrites := c'.mem.biWrites ++ [w] } } else f c'

/-- A host write of both copies. It completes at once where both are written, or one is and the other is in its queue; otherwise the
head is told once that holds (R412, R427). -/
def Chip.hostWindowStore (c : Chip) (h x : Nat) (bs : List Byte) : Chip :=
  let waits (k most : Nat) : Nat := (c.windowWaits k x bs.length most).length
  let id := c.mem.nextWrite
  let w : HostWrite := { id := id, head := h, left := [waits 0 0, waits 1 0], gone := [false, false],
                         full := 0 < waits 0 queueLen + waits 1 queueLen }
  if w.done then (c.windowWrite x bs).send (.windowDone h)
  else
    let c := { c with mem := { c.mem with hostWrites := c.mem.hostWrites ++ [w], nextWrite := id + 1 } }
    (c.windowCopyWrite 0 x bs (some id)).windowCopyWrite 1 x bs (some id)

/-- A write of the window lands. -/
def Chip.biLand (c : Chip) (w : BiWrite) : Chip :=
  match w.head with
  | some h => c.hostWindowStore h w.x w.bytes
  | none => c.windowWrite w.x w.bytes

/-- A head answers again, or has left every record: the writes that waited for it land, oldest first; what it had been asked for it
holds no more (R536). -/
def Chip.releaseBi (c : Chip) : Chip :=
  c.mem.biWrites.foldl (fun c w =>
    if c.biWaits w.head w.x w.bytes.length then { c with mem := { c.mem with biWrites := c.mem.biWrites ++ [w] } }
    else
      let c := { c with held := c.held.filter fun h => !(holdsIn w.x w.bytes.length h && some h.2 != w.head) }
      c.biLand w) { c with mem := { c.mem with biWrites := [] } }

/-- Bytes written to host memory from address `a` up, all inside the window or all outside it. -/
def Chip.hostWriteRun (c : Chip) (a : Nat) (bs : List Byte) : Chip :=
  match c.windowOf a with
  | some x => c.afterBi { head := none, x := x, bytes := bs } (·.windowWrite x bs)
  | none => { c with host := c.host.writeN a bs }

/-- Bytes written to host memory from address `a` up: into the window where they reach it, otherwise outside the part
(R535). A write that straddles the window's edge goes byte by byte. -/
def Chip.hostWrite (c : Chip) (a : Nat) (bs : List Byte) : Chip :=
  if (c.windowOf a).isSome = (c.windowOf (a + (bs.length - 1))).isSome then c.hostWriteRun a bs
  else bs.zipIdx.foldl (fun c (b, i) => c.hostWriteRun (a + i) [b]) c

end Sys2Proof.Machine
end

