-- ==== Sys2Proof/Machine/Link.lean ====
section
/-! DEFINITION. Sending on Strand: data blocks and their retry buffer (R550, R551), credits (R552), messages and their keys
(R553, R555, R604), the ports of a neighbour set (R564, R568), and the ring control messages (R573 to R575). -/
namespace Sys2Proof.Machine

/-! ## Blocks (Table 16.6) -/

/-- Payload bytes of a block, and blocks a sender may hold unacknowledged (R550, R551). -/
def blockPayload : Nat := 2560
def retryDepth : Nat := 256

/-- A block's bytes: its 10-byte header, whose CRC covers the rest of the header and the payload, and the payload. -/
def blockBytes (type seq ack creditVc credit : Nat) (payload : List Byte) : List Byte :=
  let upper := leBytes 6 (type <<< 44 + seq <<< 32 + ack <<< 20 + creditVc <<< 18 + credit <<< 4)
  leBytes 4 (crc32 (upper ++ payload)) ++ upper ++ payload

/-- The sequence number of the last data block received in order. -/
def PortSt.ackSeq (x : PortSt) : Nat := (x.rxNext + 4095) % 4096

/-- A port is up with all its lanes or a half of them. -/
def PortSt.working (x : PortSt) : Bool := 2 ≤ x.st && x.st ≤ 4

/-- A data block leaves and is held until it is acknowledged (R551). `ends` are the messages that end in it. -/
def Chip.sendBlock (c : Chip) (port : Nat) (payload : List Byte) (ends : List TxMsg) : Chip :=
  let x := c.port port
  let bs := blockBytes 0 x.txSeq x.ackSeq 0 0 payload
  (c.setPort port { x with txSeq := (x.txSeq + 1) % 4096,
                           unacked := x.unacked ++ [{ seq := x.txSeq, payload := payload, tries := 0, ends := ends }] }).send
    (.strand port bs)

/-- A block of another type leaves: an idle block, a time-sync block, a retry request or a link control block (Table 16.6). -/
def Chip.sendOther (c : Chip) (port type creditVc credit : Nat) (payload : List Byte) : Chip :=
  c.send (.strand port (blockBytes type 0 (c.port port).ackSeq creditVc credit (padTo (payload.take blockPayload) blockPayload)))

/-- The payloads of the blocks that a stream of bytes takes; zeros follow it in its last (assumption 30, DESIGN CHOICE). -/
def streamBlocks (bs : List Byte) : List (List Byte) :=
  (List.range (ceilDiv bs.length blockPayload)).map fun i => padTo ((bs.drop (blockPayload * i)).take blockPayload) blockPayload

/-! ## Messages (Table 16.8) -/

/-- Classes of messages. -/
def clsRingData : Nat := 0
def clsCollective : Nat := 1
def clsControl : Nat := 2

/-- The virtual channel of a class (Table 16.7). -/
def classVc (cls : Nat) : Nat := if cls = clsControl then 0 else 1

/-- A message header's 16 bytes. -/
def messageHeader (cls ring src dst dest object length : Nat) : List Byte :=
  leBytes 16 (cls <<< 124 + ring <<< 112 + src <<< 99 + dst <<< 86 + dest <<< 78 + object <<< 68 + length <<< 51)

/-- The IV of a message: the key's salt, then the count of messages (R555). -/
def messageIv (salt : List Byte) (n : Nat) : List Byte := salt ++ leBytes 8 n

/-- A message: header, ciphertext and tag, padded to 16 bytes (R553, R555). -/
def sealMessage (key salt : List Byte) (n : Nat) (header plain : List Byte) : List Byte :=
  let (cipher, tag) := Config.gcmEncrypt key (messageIv salt n) header plain
  let bs := header ++ cipher ++ tag
  padTo bs (roundUp bs.length 16)

/-- Bytes of a message, and the credits that it needs, in units of 256 bytes (R552, R553). -/
def TxMsg.size (m : TxMsg) : Nat := m.control.elim m.bytes.length fun p => roundUp (32 + p.length) 16
def TxMsg.credits (m : TxMsg) : Nat := ceilDiv m.size 256

/-- The object field of a header that names no slot. -/
def headerNoObject : Nat := 0x3FF

/-- The bytes of a message as a port sends it: a ring control message is sealed under the port's link key, whose messages of virtual
channel 0 are counted (R555). -/
def Chip.sealOut (c : Chip) (port : Nat) (m : TxMsg) : List Byte × Chip :=
  match m.control with
  | none => (m.bytes, c)
  | some plain =>
    let x := c.port port
    let n := x.ivTx.getD 0 0
    let peer := if m.next then (c.ring m.ring).nextPart else (c.ring m.ring).prevPart
    (sealMessage x.linkKey x.linkSalt n (messageHeader clsControl m.ring c.strand.partNumber peer 0 headerNoObject plain.length) plain,
     c.setPort port { x with ivTx := modAt x.ivTx 0 (· + 1) })

/-- A slot's block has been forwarded (R296). -/
def Chip.forwarded (c : Chip) (o : Nat × Nat) : Chip :=
  c.updBead o.1 fun b => { b with objs := b.objs.map fun (n, s) => (n, if n = o.2 then
    { s with val := match s.val with
        | .slot st _ => .slot st false
        | v => v } else s) }

/-- The waiting messages that can start now, in order, and those that cannot: one starts while its channel holds credits for all of it
and the blocks of all that start fit the retry buffer, and none overtakes another of its channel (R551, R552, R554). `room` is what
the retry buffer still takes, `bytes` what starts already, `stuck` the channels with a message that cannot. -/
def startable (credits : List Nat) (room bytes : Nat) (stuck : List Nat) : List TxMsg → List TxMsg × List TxMsg
  | [] => ([], [])
  | m :: ms =>
    if !stuck.contains m.vc && m.credits ≤ credits.getD m.vc 0 && ceilDiv (bytes + m.size) blockPayload ≤ room then
      let (go, stay) := startable (modAt credits m.vc (· - m.credits)) room (bytes + m.size) stuck ms
      (m :: go, stay)
    else
      let (go, stay) := startable credits room bytes (m.vc :: stuck) ms
      (go, m :: stay)

/-- Every waiting message of a working port that can leave does: one follows the other in the stream that the port's data blocks carry
(R552, R553). -/
def Chip.pump (c : Chip) (port : Nat) : Chip :=
  let x := c.port port
  if !x.working then c
  else
    let (go, stay) := startable x.credits (retryDepth - x.unacked.length) 0 [] x.txQueue
    let c := c.setPort port { x with txQueue := stay,
                                     credits := go.foldl (fun k m => modAt k m.vc (· - m.credits)) x.credits }
    let (bytes, ends, c) := go.foldl (fun ((bytes, ends, c) : List Byte × List (Nat × TxMsg) × Chip) m =>
      let (bs, c) := c.sealOut port m
      (bytes ++ bs, ends ++ [((bytes.length + bs.length - 1) / blockPayload, { m with slots := [] })], c)) ([], [], c)
    let c := (streamBlocks bytes).zipIdx.foldl (fun c (b, i) =>
      c.sendBlock port b ((ends.filter (·.1 = i)).map (·.2))) c
    (go.flatMap (·.slots)).foldl Chip.forwarded c

/-- A message is handed to a port. -/
def Chip.enqueue (c : Chip) (port : Nat) (m : TxMsg) : Chip :=
  (c.updPort port fun x => { x with txQueue := x.txQueue ++ [m] }).pump port

/-! ## Neighbour sets and rings (R564, R566 to R568) -/

/-- The working ports of a mask that reach a part (Table 16.11: ports whose peer differs are not used). -/
def Chip.portsTo (c : Chip) (mask part : Nat) : List Nat :=
  (List.range 12).filter fun n => bit mask n && (c.port n).working && (c.port n).peer = part

/-- The port that the `n`-th message of a set takes: they spread over the set in turn (R568, assumption 31, DESIGN CHOICE). -/
def pickPort (ports : List Nat) (n : Nat) : Option Nat := ports[n % ports.length]?

/-- Ports toward the next and the previous part of a ring. -/
def Chip.nextPorts (c : Chip) (r : Nat) : List Nat := c.portsTo (c.ring r).nextPorts (c.ring r).nextPart
def Chip.prevPorts (c : Chip) (r : Nat) : List Nat := c.portsTo (c.ring r).prevPorts (c.ring r).prevPart

/-- Whether a ring carries messages of a session's jobs (R567); a ring of one part needs no port. -/
def Chip.ringUsable (c : Chip) (r session : Nat) : Bool :=
  (c.ring r).enable = 1 && (c.ring r).session = session && ((c.ring r).size ≤ 1 || !(c.nextPorts r).isEmpty)

/-- The ASCII bytes of a label. -/
def label (s : String) : List Byte := s.toList.map fun ch => BitVec.ofNat 8 ch.toNat

/-- The ring key and its salt: derived from the session's ring secret with info "vylar ring" and the ring (R604). -/
def Chip.ringKey (c : Chip) (r : Nat) : List Byte × List Byte :=
  let secret := (c.session (c.ring r).session).ringSecret
  let bs := Config.hkdfExpand secret (label "vylar ring" ++ leBytes 2 r) 36
  (bs.take 32, bs.drop 32)

/-- A message takes a working port of its neighbour set; where there is none it is held until one works (R568, R574, R577). -/
def Chip.route (c : Chip) (m : TxMsg) : Chip :=
  match pickPort (if m.next then c.nextPorts m.ring else c.prevPorts m.ring) m.num with
  | some port => c.enqueue port m
  | none => c.updRingRun m.ring fun x => { x with held := x.held ++ [m] }

/-- Messages that were held for want of a port go out where one works now. -/
def Chip.releaseHeld (c : Chip) : Chip :=
  (c.ringRuns.filter fun e => !e.2.held.isEmpty).foldl (fun c (r, x) =>
    x.held.foldl Chip.route (c.updRingRun r fun x => { x with held := [] })) c

/-- A ring data or collective message to the next part, number `ivTx` of the ring. A key block of 65,600 bytes goes as one message of that
length, above the range of Table 16.8 (assumption 124, DESIGN CHOICE). -/
def Chip.sendRing (c : Chip) (r cls dest object : Nat) (plain : List Byte) : Chip :=
  let x := c.ringRun r
  let (key, salt) := c.ringKey r
  let h := messageHeader cls r c.strand.partNumber (c.ring r).nextPart dest object plain.length
  (c.setRingRun r { x with ivTx := x.ivTx + 1 }).route
    { vc := classVc cls, ring := r, next := true, num := x.ivTx, bytes := sealMessage key salt x.ivTx h plain, control := none, slots := [] }

/-- A change to every message that has not left. -/
def Chip.mapMessages (c : Chip) (f : TxMsg → TxMsg) : Chip :=
  { c with ports := c.ports.mapVals fun x => { x with txQueue := x.txQueue.map f },
           ringRuns := c.ringRuns.mapVals fun x => { x with held := x.held.map f } }

/-- A message is number `n` under the key of ring `r`. -/
def TxMsg.isData (m : TxMsg) (r n : Nat) : Bool := m.control.isNone && m.ring = r && m.num = n

/-- Message `n` of a ring still waits. -/
def Chip.messageWaits (c : Chip) (r n : Nat) : Bool :=
  (c.ringRun r).held.any (·.isData r n) || (List.range 12).any fun p => (c.port p).txQueue.any (·.isData r n)

/-- A slot that has taken a block holds it until the message that carries the block on has left (R296). -/
def Chip.holdForward (c : Chip) (r n : Nat) (o : Nat × Nat) : Chip :=
  c.mapMessages fun m => if m.isData r n then { m with slots := m.slots ++ [o] } else m

/-- Operations of ring control. -/
def opCommitted : Nat := 0
def opAll : Nat := 1
def opFence : Nat := 2
def opResume : Nat := 3

/-- A ring control message (Table 16.14) toward the next or the previous part, over the working ports of the set in turn. -/
def Chip.sendControl (c : Chip) (r : Nat) (next : Bool) (op step epoch : Nat) : Chip :=
  let x := c.ringRun r
  (c.setRingRun r { x with controls := x.controls + 1 }).route
    { vc := 0, ring := r, next := next, num := x.controls, bytes := [],
      control := some (leBytes 16 (op <<< 120 + step <<< 88 + epoch <<< 56)), slots := [] }
def Chip.sendNext (c : Chip) (r op step epoch : Nat) : Chip := c.sendControl r true op step epoch
def Chip.sendPrev (c : Chip) (r op step epoch : Nat) : Chip := c.sendControl r false op step epoch

/-! ## Ring jobs (R573 to R575) -/

/-- A ring carries the messages of a session's jobs: it is enabled, and the session is its own (R567). -/
def Chip.ringCarries (c : Chip) (r session : Nat) : Bool := (c.ring r).enable = 1 && (c.ring r).session = session

/-- Rank 0 has COMMITTED(k) back: ALL(k) goes round; a ring of one part has every commit back at once. -/
def Chip.ringBack (c : Chip) (r k : Nat) : Chip :=
  let c := c.updRingRun r fun x => { x with back := max x.back k, all := max x.all k }
  if (c.ring r).size ≤ 1 then c else c.sendNext r opAll k 0

/-- This part has committed step index `k` of the ring's job (R573): rank 0 sends COMMITTED(k), another rank passes on the
one that waits for it. -/
def Chip.ringCommit (c : Chip) (r session k : Nat) : Chip :=
  let c := c.updRingRun r fun x => { x with committed := max x.committed k }
  if (c.ring r).size ≤ 1 then c.ringBack r k
  else if !c.ringCarries r session then c
  else if (c.ring r).rank = 0 then c.sendNext r opCommitted k 0
  else match (c.ringRun r).owed with
    | some o =>
      if o ≤ k then (c.updRingRun r fun x => { x with owed := none }).sendNext r opCommitted o 0 else c
    | none => c

/-- The part's fence epoch of a ring that carries the session's jobs rises, and FENCE goes both ways (R574). -/
def Chip.ringFenceOut (c : Chip) (r session : Nat) : Chip :=
  if !c.ringCarries r session then c
  else
    let e := (c.ring r).epoch + 1
    let c := c.setRing r { c.ring r with epoch := e }
    let c := c.updRingRun r fun x => { x with fenceStamp := some c.now, owed := none }
    if (c.ring r).size ≤ 1 then c else (c.sendNext r opFence 0 e).sendPrev r opFence 0 e

/-- Once its own job is fenced, rank 0 sends RESUME(m, e) (R575). -/
def Chip.ringResumeOut (c : Chip) (r : Nat) : Chip :=
  if (c.ring r).rank = 0 && 1 < (c.ring r).size then c.sendNext r opResume (c.ringRun r).back (c.ring r).epoch else c

end Sys2Proof.Machine
end

