-- ==== Sys2Proof/Machine/JobOps.lean ====
section
/-! DEFINITION. Jobs as the part holds them: groups of Beads, the order of R487, journal records, ends, fences and what a
fence drops (R82, R83, R480 to R502, R504 to R507). -/
namespace Sys2Proof.Machine

/-! ## Settings and groups -/

/-- The capsule of a loaded Setting; no bytes for a free handle. -/
def Chip.capsule (c : Chip) (h : Nat) : Capsule :=
  match c.settings.find? h with
  | some s => s.capsule
  | none => []

/-- The physical Bead of logical Bead `b` (R16). -/
def Chip.phys (c : Chip) (b : Nat) : Nat := physOf ((c.facet (beadFacet b)).disabledCol.getD (beadRow b) 14) b

/-- The logical Bead of physical Bead `p`; none for the disabled Bead of its row. -/
def Chip.logical? (c : Chip) (p : Nat) : Option Nat :=
  logicalOf ((c.facet (physFacet p)).disabledCol.getD (physRow p) 14) p

/-- Lowest logical Beads of the groups of a size code, in ascending order (Table 2.10). -/
def groupBases (size : Nat) : List Nat :=
  match size with
  | 0 => (List.range 40).map (14 * ·)
  | 1 => (List.range 20).map (28 * ·)
  | 2 => (List.range 10).map (56 * ·)
  | 3 => (List.range 5).map (112 * ·)
  | 4 => (List.range 4).map (112 * ·)
  | 5 => [0, 112]
  | 6 => [0]
  | _ => []

/-- Logical Beads of the group of a size code from `base`; group-relative index g is the rank (R83). -/
def groupOf (size base : Nat) : List Nat := (List.range (sizeBeads size)).map (base + ·)

/-- Facets a group spans; the rank of a Facet is its place (R386). -/
def groupFacets (size base : Nat) : List Nat :=
  (List.range (max 1 (ceilDiv (base % 112 + sizeBeads size) 112))).map (base / 112 + ·)

/-- Number of Beads of a bound job. -/
def Job.beads (x : Job) : Nat := sizeBeads x.size

/-- Physical Bead of group-relative Bead `g`. -/
def Chip.beadOf (c : Chip) (x : Job) (g : Nat) : Nat := c.phys (x.base + g)

/-- Physical Beads of a bound job, in group-relative order. -/
def Chip.groupBeads (c : Chip) (x : Job) : List Nat := (groupOf x.size x.base).map c.phys

/-- A change to every Bead of a bound job. -/
def Chip.updGroup (c : Chip) (x : Job) (f : BeadSt → BeadSt) : Chip :=
  (c.groupBeads x).foldl (fun c p => c.updBead p f) c

/-! ## The order of waiting jobs (R487) -/

/-- Keys of R487 of a ledger entry. -/
def Chip.jobKey (c : Chip) (x : Job) : List Nat := [x.cls, x.stamp, (c.queue x.queue).head, x.queue, x.seq]

/-- Ledger indices of the jobs that a test picks, in the order of R487. -/
def Chip.jobsBy (c : Chip) (f : Job → Bool) : List Nat :=
  (sortBy (fun a b => sourceLe (c.jobKey a.2) (c.jobKey b.2)) (c.jobs.filter fun e => f e.2)).map (·.1)

/-- Accepted and incomplete: accepted, and its completion record not decided (R480). -/
def Job.incomplete (x : Job) : Bool := x.ledger = .accepting || x.ledger = .accepted

/-- Accepted, incomplete jobs of a queue, and of a session. -/
def Chip.openJobs (c : Chip) (q : Nat) : Nat := (c.jobs.filter fun e => e.2.queue = q && e.2.ledger != .done).length
def Chip.sessionJobs (c : Chip) (n : Nat) : Nat := (c.jobs.filter fun e => e.2.session = n && e.2.ledger != .done).length

/-! ## Status codes (Table 14.8) -/

def stOK : Nat := 0x0000
def stDescriptorMalformed : Nat := 0x0101
def stSessionInvalid : Nat := 0x0102
def stSettingUnknown : Nat := 0x0103
def stClassDenied : Nat := 0x0104
def stSessionBusy : Nat := 0x0105
def stShapeExceeds : Nat := 0x0106
def stNoVariant : Nat := 0x0107
def stBufferSize : Nat := 0x0108
def stMemoryExceeds : Nat := 0x0109
def stSlotTimeout : Nat := 0x0201
def stSlotState : Nat := 0x0202
def stSemOverflow : Nat := 0x0203
def stWindowRange : Nat := 0x0204
def stScratchRange : Nat := 0x0205
def stReduceDuplicate : Nat := 0x0206
def stHaloSeq : Nat := 0x0207
def stGatherRange : Nat := 0x0208
def stTableImage : Nat := 0x0209
def stRngNoContext : Nat := 0x020A
def stFormatMismatch : Nat := 0x020B
def stKvPageAbsent : Nat := 0x020C
def stKvFrameRange : Nat := 0x020D
def stKvNoVictim : Nat := 0x020E
def stKvPoolEmpty : Nat := 0x020F
def stRoundDuplicate : Nat := 0x0210
def stRoundIncomplete : Nat := 0x0211
def stCameoRowRange : Nat := 0x0212
def stCameoRowDuplicate : Nat := 0x0213
def stCameoControl : Nat := 0x0214
def stCameoOutputFull : Nat := 0x0215
def stCameoUnsupported : Nat := 0x0216
def stDecisionRange : Nat := 0x0217
def stJobLimit : Nat := 0x0301
def stCancelled : Nat := 0x0302
def stResumeLimit : Nat := 0x0303
def stInputAuth : Nat := 0x0304
def stDataLost : Nat := 0x0306
def stContractVersion : Nat := 0x0401
def stContractFeature : Nat := 0x0402
def stCapsuleMalformed : Nat := 0x0403
def stSettingInUse : Nat := 0x0404
def stContextMismatch : Nat := 0x0405
def stHandleInUse : Nat := 0x0406
def stTargetReset : Nat := 0x0501
def stTargetFenced : Nat := 0x0502
def stBusyBound : Nat := 0x0503
def stAccessDenied : Nat := 0x0504
def stNoSuchEntry : Nat := 0x0505
def stValueRange : Nat := 0x0506
def stReadOnly : Nat := 0x0507
def stQueueActive : Nat := 0x0508
def stSignatureInvalid : Nat := 0x0601
def stRollback : Nat := 0x0602
def stLifecycleDenied : Nat := 0x0603
def stTampered : Nat := 0x0604
def stEndOfIdentity : Nat := 0x0605
def stSessionKeyInvalid : Nat := 0x0606

/-- Completion flags, as bits of a record's flags (Table 14.8). -/
def flEmptyReduction : Nat := 1
def flExpertDropped : Nat := 2
def flFencedResumed : Nat := 4
def flBoundMissed : Nat := 8

/-- A status of the class 0x02xx. -/
def isRunStatus (st : Nat) : Bool := st / 256 = 2

/-! ## Journal records (R480, R483, R499) -/

/-- Fields of a journal record (Table 14.4). -/
structure Record where
  typ : Nat
  status : Nat
  seq : Nat
  tag : Nat
  stamp : Nat
  descIndex : Nat
  buckets : List Nat
  flags : Nat
  resumes : Nat
  overflow : Nat
  invalid : Nat
  margin : Nat
  fromStep : Nat
  size : Nat
  deriving DecidableEq, Repr

/-- A record that holds its defaults in every field past desc_index. -/
def Record.short (typ status seq tag stamp descIndex : Nat) : Record :=
  { typ := typ, status := status, seq := seq, tag := tag, stamp := stamp, descIndex := descIndex,
    buckets := [0, 0, 0, 0], flags := 0, resumes := 0, overflow := 0, invalid := 0, margin := 0, fromStep := 0xFFFF,
    size := 0 }

/-- The 512 bits of a record (Table 14.4). -/
def Record.word (r : Record) (phase : Bool) : Nat :=
  r.typ <<< 508 + (if phase then 1 else 0) <<< 507 + r.status <<< 480 + r.seq <<< 448 + r.tag <<< 384
    + r.stamp <<< 320 + r.descIndex <<< 304
    + (r.buckets.getD 0 0 * 4096 + r.buckets.getD 1 0 * 256 + r.buckets.getD 2 0 * 16 + r.buckets.getD 3 0) <<< 288
    + r.flags <<< 272 + r.resumes <<< 256 + r.overflow <<< 224 + r.invalid <<< 192 + r.margin <<< 160
    + r.fromStep <<< 144 + r.size <<< 141

/-- Free records of a queue's journal. -/
def QueueSt.jFree (x : QueueSt) : Nat := x.journalEntries - x.jHeld

/-- A record is written at the journal's next index as one 64-byte write, the phase turns over at the end of a pass, and
the queue's vector is signalled (R483, R534). -/
def Chip.writeRecord (c : Chip) (q : Nat) (r : Record) : Chip :=
  let x := c.queue q
  let c := c.hostWrite (x.journalAddr + 64 * x.jNext) (leBytes 64 (r.word x.phase))
  let last := x.jNext + 1 = x.journalEntries
  let c := c.setQueue q { x with jNext := if last then 0 else x.jNext + 1,
                                 phase := if last then !x.phase else x.phase, jHeld := x.jHeld + 1 }
  c.msix x.active q

/-! ## Ends and fences (R489, R490, R498, R505 to R507) -/

/-- A job that a fence reaches: accepted and not at its end; one that is stopping is fenced again (R505, R521). -/
def Job.fenceable (x : Job) : Bool := x.ledger = .accepted && x.phase != .ended

/-! ## Walkers (R252, R253) -/

/-- Walks and edits that hold a context of a Facet's walker (R253). -/
def Chip.walkerLoad (c : Chip) (f k : Nat) : Nat :=
  (c.walks.filter fun w => w.facet = f && w.walker = some k && !w.ended).length
    + (c.edits.filter fun e => e.facet = f && e.walker = some k).length

/-- The lowest-numbered walker of a Facet with a free context. -/
def Chip.freeWalker (c : Chip) (f : Nat) : Option Nat := (List.range 16).find? fun k => c.walkerLoad f k < 8

/-- The walk or edit of a Facet that has waited longest for a walker, by its number. -/
def Chip.walkerNext (c : Chip) (f : Nat) : Option Nat :=
  (((c.walks.filter fun w => w.facet = f && w.walker.isNone && !w.ended).map (·.id))
    ++ ((c.edits.filter fun e => e.facet = f && e.walker.isNone).map (·.id))).min?

/-- The longest waiting walk or edit of a Facet takes the lowest-numbered walker with a free context. -/
def Chip.assignWalker (c : Chip) (f : Nat) : Chip :=
  match c.walkerNext f, c.freeWalker f with
  | some n, some k =>
    { c with walks := c.walks.map fun w => if w.id = n then { w with walker := some k } else w,
             edits := c.edits.map fun e => if e.id = n then { e with walker := some k } else e }
  | _, _ => c

/-- Every walk and edit of a Facet for which a context is free has one: contexts are taken in issue order (R253). -/
def Chip.assignWalkers (c : Chip) (f : Nat) : Chip :=
  iter (c.walks.length + c.edits.length) (fun _ c => c.assignWalker f) c

/-- What belongs to a bound job and moves by itself is dropped: transfers, table loads, walks, edits, reports, contributions and ring
blocks, and what its slots await of messages that still have to leave (R507 step 2). Waiting walks and edits of other jobs take
the contexts that are free now (R253). -/
def Chip.dropInFlight (c : Chip) (j : Nat) : Chip :=
  let own (o : Nat × Nat) : Bool := (c.bead o.1).job = some j
  let free (m : TxMsg) : TxMsg := { m with slots := m.slots.filter fun o => !own o }
  let c := c.mapMessages free
  iter 5 (fun f c => c.assignWalkers f)
  { c with transfers := c.transfers.filter (·.job != j), tableLoads := c.tableLoads.filter (·.job != j),
           walks := c.walks.filter (·.job != j), edits := c.edits.filter (·.job != j),
           reports := c.reports.filter (·.job != j), contribs := c.contribs.filter (·.job != j),
           ringIn := c.ringIn.filter (·.job != j) }

/-- A bound job's Beads stop issuing and everything of its own in flight is dropped (R507 steps 1 and 2). -/
def Chip.stopJob (c : Chip) (j : Nat) (x : Job) : Chip :=
  let c := c.dropInFlight j
  let c := c.updGroup x fun b => { b with waits := [], run := { b.run with stopped := true, parked := [] } }
  c.setJob j { x with openGens := [], phase := .stopping }

/-- A job that holds no group is at its end with a status: its completion record is due. -/
def Job.close (x : Job) (st : Nat) : Job := { x with ending := some st, phase := .ended, ledger := .completing }

/-- A job ends with a status: a bound one stops and still has to leave its group, a waiting one is at its end. -/
def Chip.endJob (c : Chip) (j st : Nat) : Chip :=
  match c.job? j with
  | none => c
  | some x =>
    if x.ledger != .accepted || x.ending.isSome then c
    else match x.phase with
      | .bound => (c.stopJob j x).updJob j fun x => { x with ending := some st }
      | .stopping => c.setJob j { x with ending := some st }
      | .waiting => c.setJob j (x.close st)
      | .ended => c

/-- The record of a fenced job (Table 15.6, kind 1); its status is OK when the job will resume. -/
def fencedRec (o : Origin) (x : Job) (st : Nat) : FaultRec :=
  { faultRec 1 o.domain o.cause o.die o.unit with detail := o.detail, queue := x.queue, seq := x.seq, status := st }

/-- The status a fence ends a job with, if it does: a pending cancel, a status met before at the same step index, or no
resume left (R490, R498). `raised` is the status that fences it and the step index it arose at; none for hardware. -/
def fenceEnd (limit : Nat) (x : Job) (raised : Option (Nat × Nat)) : Option Nat :=
  let again := raised.bind fun k => if x.met.contains k then some k.1 else none
  if x.cancel then some stCancelled
  else again.orElse fun _ => if limit ≤ x.resumes then some stResumeLimit else none

/-- The rings that a variant uses: those of its collectives and of its walks that relay (R294, R570). -/
def capsuleRings (cap : Capsule) (v : Nat) : List Nat :=
  let g := sizeBeads (varSize (variantWord cap v))
  let streams := sortDedup ((List.range g).map (streamOf cap v))
  let coll := streams.flatMap fun s => (sectionEntries cap secStream s 16).filterMap fun i =>
    if iClass i = 2 && iOp i / 16 = 8 then some (fld (constWords cap v (laneConst i) 2) 255 244) else none
  let walks := (sectionEntries cap secDma (varDma (variantWord cap v)) 32).filterMap fun d =>
    let w := constWords cap v (ddList d) 2
    if ddKind d = 1 && isPool cap v (ddSrcTensor d) && fld w 161 149 != 0
    then some (fld w 148 137) else none
  sortDedup (coll ++ walks)

/-- The rings of a job's variant. -/
def Chip.jobRings (c : Chip) (x : Job) : List Nat := capsuleRings (c.capsule x.setting) x.variant

/-- A job resumes from no later step index than the one that a ring of its has agreed on (R575). -/
def Job.from (x : Job) (m : Nat) : Job := { x with ringFrom := some (x.ringFrom.elim m (min m)) }

/-- What a fence of job `j` means for one of its rings that carries its messages: rank 0 resumes from the greatest step index that
every part has committed and says so; another rank waits for RESUME (R567, R575). -/
def Chip.ringHold (c : Chip) (j r : Nat) : Chip :=
  match c.job? j with
  | none => c
  | some x =>
    if !c.ringCarries r x.session then c
    else if (c.ring r).rank = 0 then (c.updJob j (·.from (c.ringRun r).back)).ringResumeOut r
    else c.updJob j fun x => { x with ringWait := x.ringWait ++ [r] }

/-- The other parts of a ring are told that a job of this part is fenced, and the job is held for that ring (R574, R575). -/
def Chip.ringTell (c : Chip) (j r : Nat) : Chip :=
  match c.job? j with
  | none => c
  | some x => (c.ringFenceOut r x.session).ringHold j r

/-- A job is fenced (R505, R507, R498): it stops, its uncommitted checkpoint generation and its mid-step context are dropped,
and it ends or waits to resume. A completing or ended job is never fenced; one that is stopping is fenced again, and ends as it was
to end already (R521). `force` is a status that ends it whatever else holds (R678). -/
def Chip.fenceCore (c : Chip) (j : Nat) (o : Origin) (raised : Option (Nat × Nat)) (force : Option Nat) : Chip :=
  match c.job? j with
  | none => c
  | some x =>
    if !x.fenceable then c
    else
      let e := (x.ending.orElse fun _ => force).orElse fun _ => fenceEnd c.sched.resumeLimit x raised
      let met := match raised with
        | some k => if x.met.contains k then x.met else x.met ++ [k]
        | none => x.met
      let c := if x.phase = .bound then c.stopJob j x else c.setJob j { x with openGens := [] }
      let c := c.updJob j fun x =>
        let x := { x with ending := e, met := met, mid := none, resumeDue := true, preempt := false, ringWait := [], ringFrom := none,
                          fenceRec := some c.flog.written }
        match x.phase, e with
        | .waiting, some st => x.close st
        | _, _ => x
      c.log (fencedRec o x (e.getD stOK))

/-- A job is fenced by this part, and so are the jobs of its rings on the other parts (R574). -/
def Chip.fenceJobWith (c : Chip) (j : Nat) (o : Origin) (raised : Option (Nat × Nat)) (force : Option Nat) : Chip :=
  match c.job? j with
  | none => c
  | some x =>
    if !x.fenceable then c
    else
      (c.jobRings x).foldl (fun c r => c.ringTell j r) (c.fenceCore j o raised force)

/-- A job is fenced and resumes unless R490 or R498 ends it. -/
def Chip.fenceJob (c : Chip) (j : Nat) (o : Origin) (raised : Option (Nat × Nat)) : Chip := c.fenceJobWith j o raised none

/-- What a status names is kept with the job that it fences. -/
def Chip.nameStatus (c : Chip) (j st : Nat) (n : Named) : Chip :=
  c.updJob j fun x => if x.fenceable then { x with named := some (st, n) } else x

def Raised.key (r : Raised) : EventKey := { stamp := r.stamp, rank := 1, source := r.source }

/-- A fault is found: it is stamped and waits for the sequencer, in its order (R29, R33 to R35, R504). What waits already is not found
again. -/
def Chip.found (c : Chip) (source : List Nat) (f : Found) : Chip :=
  if c.raised.any (·.what = f) then c
  else { c with raised := insertBy (fun a b => a.key.le b.key) { stamp := c.tick.count, source := source, what := f } c.raised }

/-- Source index of a fault: die, then unit (R504, Table 1.5). -/
def faultSource (f : FaultEvent) : List Nat :=
  match f.cause with
  | 0x06 => [dieFacet (f.unit / 8), f.unit % 8]
  | 0x07 | 0x08 | 0x09 | 0x0A => [dieFacet f.unit, 0]
  | 0x0C => [dieFacet (stackFacet (pcStack f.unit)), f.unit]
  | 0x0D => [dieFacet (stackFacet f.unit), f.unit]
  | 0x0E | 0x0F => [dieCameo, f.unit]
  | 0x10 => [dieClasp (portClasp f.unit), f.unit]
  | 0x11 | 0x12 | 0x13 | 0x14 => [dieClasp f.unit, 0]
  | 0x15 => [(edgeList.getD f.unit (0, 1)).1, (edgeList.getD f.unit (0, 1)).2]
  | _ => [dieFacet (physFacet f.unit), f.unit]

/-- A hardware fault is found inside the part. -/
def Chip.hwFound (c : Chip) (f : FaultEvent) : Chip := c.found (faultSource f) (.hw f)

/-- A job's status is found; it names a die and a unit. -/
def Chip.foundStatus (c : Chip) (j die unit st : Nat) (step : Option Nat) (n : Named) : Chip :=
  match c.job? j with
  | none => c
  | some x => c.found [die, unit] (.status j x.number { domain := domJob, cause := 0, die := die, unit := unit, detail := st } st
      (step.getD u32max) n)

/-- A running job raises a status of the class 0x02xx that names physical Bead `p`, and what `n` says besides; `step` is the
step index of its stream (R498, R504). A Bead that no stream step has begun on has step index 0xFFFF_FFFF. -/
def Chip.raiseNamed (c : Chip) (j p st : Nat) (step : Option Nat) (n : Named) : Chip :=
  c.foundStatus j (dieFacet (physFacet p)) p st step n

/-- A status that names the Bead alone. -/
def Chip.raiseAt (c : Chip) (j p st : Nat) (step : Option Nat) : Chip := c.raiseNamed j p st step (.bead (c.bead p).g)

/-- A status that names no Bead takes the die that raised it and unit 0 (R504). -/
def Chip.raiseDie (c : Chip) (j die st : Nat) (step : Option Nat) (n : Named) : Chip :=
  c.foundStatus j die 0 st step n

/-- A Bead whose instruction has raised a status, or met poison, issues no more until its job is fenced: the instruction is abandoned
(R507; assumption 113, DESIGN CHOICE). -/
def Chip.halt (c : Chip) (p : Nat) : Chip := c.updRun p fun r => { r with stopped := true }

/-- The sequencer handles a status: the job is fenced, unless it is fenced already or has gone; then the status is counted in the record
of that fence (R505, R506). -/
def Chip.statusFault (c : Chip) (j num : Nat) (o : Origin) (st step : Nat) (n : Named) : Chip :=
  match c.job? j with
  | none => c
  | some x =>
    if x.number != num then c
    else if x.fenceRec.isSome then c.foldFault x.fenceRec
    else (c.nameStatus j st n).fenceJob j o (some (st, step))

/-- The setting_id and the contract version of a job's loaded capsule. -/
def Chip.contextId (c : Chip) (x : Job) : Nat × Nat :=
  let h := capHeader (c.capsule x.setting)
  (hdrSettingId h, hdrMajor h * 256 + hdrMinor h)

/-- The tensor declaration of a job's Setting. -/
def Chip.tensorDecl (c : Chip) (x : Job) (tid : Nat) : Nat := (findTensor (c.capsule x.setting) tid).getD 0

/-- The allocation of a tensor of a bound job: one of its own, or a weight tensor of its Setting (R580). -/
def Chip.tensorAlloc? (c : Chip) (x : Job) (tid : Nat) : Option Alloc :=
  match x.tensors.lookup tid with
  | some id => c.alloc? id
  | none => match c.settings.find? x.setting with
    | some s => (s.weights.lookup tid).bind c.alloc?
    | none => none

/-- The fault of poisoned data consumed, naming pseudo-channel and local granule, and what its fenced job's record takes from
it (Tables 12.5 and 15.1, R525). -/
def poisonRec (at_ : Place) : FaultRec :=
  { faultRec 0 domJob 0x0B (dieFacet (pcFacet at_.pc)) at_.pc with detail := at_.granule }
def poisonOrigin (at_ : Place) : Origin :=
  { domain := domJob, cause := 0x0B, die := dieFacet (pcFacet at_.pc), unit := at_.pc, detail := 0 }

/-- Poisoned data of a tensor has reached a job, or other data of it where none is named (cause 0x0B, Table 12.5). -/
def Chip.poisonFound (c : Chip) (j : Nat) (tid : Option Nat) (at_ : Place) : Chip :=
  match c.job? j with
  | none => c
  | some x => c.found [dieFacet (pcFacet at_.pc), at_.pc] (.poison j x.number tid at_)
def Chip.poisonFence (c : Chip) (j tid : Nat) (at_ : Place) : Chip := c.poisonFound j (some tid) at_

/-- Poisoned data of a reference picture has reached the job of a Cameo stream (Table 12.5). -/
def Chip.poisonRefFence (c : Chip) (j : Nat) (at_ : Place) : Chip := c.poisonFound j none at_

/-- The sequencer handles poison that has reached a job: the fault is logged and the job is fenced. A weight tensor is marked for
reload, a pool makes the job restart at its first step (R290), and session inputs lost in both copies end it with DATA_LOST (R678).
Of a job that is fenced already the fault is counted (R506). -/
def Chip.poisonFault (c : Chip) (j num : Nat) (tid : Option Nat) (at_ : Place) : Chip :=
  match c.job? j with
  | none => c
  | some x =>
    if x.number != num || x.ledger != .accepted then c
    else
      let kind := tid.map fun t => tdKind (c.tensorDecl x t)
      let m := (x.setting, tid.getD 0)
      let c := if kind = some 0 && !c.mem.weightMarks.contains m
        then { c with mem := { c.mem with weightMarks := c.mem.weightMarks ++ [m] } } else c
      let c := if tid.any (isPool (c.capsule x.setting) x.variant) then c.updJob j fun x => { x with fromFirst := true } else c
      if x.fenceRec.isSome then c.foldFault x.fenceRec
      else (c.log (poisonRec at_)).fenceJobWith j (poisonOrigin at_) none (if kind = some 1 then some stDataLost else none)

/-- How many step_ends the Bead of a job's group that is furthest has passed, and how many of them Bead `p` has still to
pass: what `p` does now belongs to the checkpoint generations of those step_ends (R108, R154). -/
def Chip.front (c : Chip) (x : Job) : Nat := ((c.groupBeads x).map fun q => (c.bead q).run.passed).foldl max 0
def Chip.behind (c : Chip) (x : Job) (p : Nat) : Nat := c.front x - (c.bead p).run.passed

/-- A change to a job by its Bead `p` that reaches the open generations of the step_ends which `p` has still to pass: the
youngest ones (R108). -/
def Chip.updShare (c : Chip) (j p : Nat) (f : Job → Job) (g : Ckpt → Ckpt) : Chip :=
  c.updJob j fun x =>
    let old := x.openGens.length - if x.openGens.isEmpty then 0 else c.behind x p
    f { x with openGens := x.openGens.take old ++ (x.openGens.drop old).map g }

/-- A completion flag of a job is set (R79, R108). -/
def Chip.setFlag (c : Chip) (j p fl : Nat) : Chip :=
  c.updShare j p (fun x => { x with flags := x.flags ||| fl }) fun k => { k with flags := k.flags ||| fl }

/-- A job's overflow and invalid counters rise, each up to 0xFFFF_FFFF (R152, R154). -/
def Chip.count (c : Chip) (j p ovf inv : Nat) : Chip :=
  c.updShare j p (fun x => { x with overflow := satAdd u32max x.overflow ovf, invalid := satAdd u32max x.invalid inv })
    fun k => { k with overflow := satAdd u32max k.overflow ovf, invalid := satAdd u32max k.invalid inv }

end Sys2Proof.Machine
end

