-- ==== Sys2Proof/Machine/Flags.lean ====
section
/-! DEFINITION. Completion flags and counters of a job, the pins of the part, and the conditions that assert them (R79, R152,
R486, R527, R532, R673, Table 16.3). -/
namespace Sys2Proof.Machine

/-- A job has missed its bound when its completion stamp is not below a + B (R46, R486). -/
def boundMissed (accepted now : Nat) (bound : Option Nat) : Bool :=
  match bound with
  | none => false
  | some b => accepted + b ≤ now

/-- The margin of a missed bound: c - (a + B) + 1, saturating (R486, Table 14.4). -/
def boundMargin (accepted now : Nat) (bound : Option Nat) : Nat :=
  match bound with
  | none => 0
  | some b => if accepted + b ≤ now then min u32max (now - (accepted + b) + 1) else 0

/-- Some unit of the part is out of service (R527). -/
def Chip.anyOut (c : Chip) : Bool :=
  c.beads.any (fun e => e.2.svc = .out)
    || c.facets.any (fun e => e.2.svc = .out || e.2.segs.any (·.svc = .out))
    || c.pairs.any (fun e => e.2.svc = .out) || !c.edgesOut.isEmpty || c.ports.any (fun e => e.2.st = 6)
    || c.pcs.any (fun e => 2 ≤ e.2.st) || c.stackTab.any (fun e => e.2.st = 3)

/-- ALERT_N is asserted (R527). -/
def Chip.alert (c : Chip) : Bool :=
  c.flog.acked < c.flog.written || c.facets.any (fun e => e.2.limiting) || c.tick.unaligned || c.anyOut
    || c.clasps.any (·.svc != .inService)

/-- FAULT_N is asserted (R527, R592). -/
def Chip.faultPin (c : Chip) : Bool :=
  c.pkg.deviceFault || c.pkg.power = .stopped || c.pkg.tripLatch || c.pkg.claspFault || c.pkg.tampered

/-- READY is asserted: device_state is 1, and neither a life-cycle transition nor a tamper response has run (R527, R590, R592,
R673). -/
def Chip.ready (c : Chip) : Bool := c.pkg.power = .running && c.pkg.devState = 1 && !c.pkg.tampered && !c.pkg.lcLocked

/-- The status outputs are driven: VIO and VDD_AON are in tolerance and PKG_RESET_N is high (R673). -/
def Chip.driven (c : Chip) : Bool := c.pkg.aonUp && c.pkg.power != .off && c.pkg.power != .inReset

/-- A driven output's level, none while it is high-impedance (R673). -/
def Chip.pin (c : Chip) (high : Bool) : Option Bool := if c.driven then some high else none

/-- The status outputs of R673, in its order: ALERT_N, FAULT_N, THERMTRIP_N, READY; HEAD_x_UP; LRET_N[f] and CRET_N[f]. -/
def Chip.alertN (c : Chip) : Option Bool := c.pin (!c.alert)
def Chip.faultN (c : Chip) : Option Bool := c.pin (!c.faultPin)
def Chip.thermTripN (c : Chip) : Option Bool := c.pin (!c.pkg.tripLatch)
def Chip.readyPin (c : Chip) : Option Bool := c.pin c.ready
def Chip.headUpPin (c : Chip) (h : Nat) : Option Bool :=
  if c.pkg.perstLow.getD h false then none else c.pin ((c.head h).link = 2)
def Chip.lretN (c : Chip) (f : Nat) : Option Bool :=
  let x := c.facet f
  c.pin (x.retention = 0 || (x.retention = 3 && (x.wakeStamp.getD 0) + 2 ≤ c.now))
def Chip.cretN (c : Chip) (f : Nat) : Option Bool :=
  let x := c.facet f
  c.pin (x.retention != 2 && x.casketWake.all (· + 2 ≤ c.now))

end Sys2Proof.Machine
end

