-- ==== Sys2Proof/Machine/Operands.lean ====
section
/-! DEFINITION. Operands in a Bead's Locket: bytes, packed elements (R119, R122), the sources and destinations of a LANE
instruction (Table 2.16), the ranges an instruction reads and writes, and draws (R345, R348). -/
namespace Sys2Proof.Machine

/-! ## A Bead's Locket (R358) -/

/-- Key of byte `off` of bank `bank` of physical Bead `p`. -/
def lockKey (p bank off : Nat) : Nat := p * 2 ^ 21 + bank * 2 ^ 19 + off % 2 ^ 19

def Chip.lockRead (c : Chip) (p bank off n : Nat) : List Byte := c.locket.readN (lockKey p bank off) n
def Chip.lockLE (c : Chip) (p bank off n : Nat) : Nat := c.locket.readLE (lockKey p bank off) n
def Chip.lockWrite (c : Chip) (p bank off : Nat) (bs : List Byte) : Chip :=
  { c with locket := c.locket.writeN (lockKey p bank off) bs }

/-! ## Packed elements (R119) -/

/-- The code of element `i` of `bits`-bit elements packed from byte `base` up. -/
def packedGet (m : Mem) (base bits i : Nat) : Nat :=
  let o := bits * i
  (m.readLE (base + o / 8) (ceilDiv (o % 8 + bits) 8) >>> (o % 8)) % 2 ^ bits

/-- Element `i` replaced; every bit that the write does not name keeps its value (R360). -/
def packedPut (m : Mem) (base bits i code : Nat) : Mem :=
  let o := bits * i
  let n := ceilDiv (o % 8 + bits) 8
  let k := base + o / 8
  let w := m.readLE k n
  let old := (w >>> (o % 8)) % 2 ^ bits
  m.writeN k (leBytes n (w - old <<< (o % 8) + (code % 2 ^ bits) <<< (o % 8)))

/-- Codes of `n` elements of format `f` from byte `off` of a bank. -/
def Chip.elems (c : Chip) (p bank off f n : Nat) : List Nat :=
  (List.range n).map (packedGet c.locket (lockKey p bank off) (fmtBits f))

/-- One element of a bank written. -/
def Chip.putElem (c : Chip) (p bank off f i code : Nat) : Chip :=
  { c with locket := packedPut c.locket (lockKey p bank off) (fmtBits f) i code }

/-- Codes written as consecutive elements from byte `off` of a bank. -/
def Chip.putElems (c : Chip) (p bank off f : Nat) (codes : List Nat) : Chip :=
  codes.zipIdx.foldl (fun c (code, i) => c.putElem p bank off f i code) c

/-- Bytes of `n` elements. -/
def elemBytes (f n : Nat) : Nat := ceilDiv (n * fmtBits f) 8

/-- Byte offset of an MX tile's scales: the next 64-byte boundary after its elements (R122). -/
def mxScaleOff (off f n : Nat) : Nat := roundUp (off + elemBytes f n) 64

/-- Bytes that an operand of `n` elements occupies from its offset, scales included. -/
def operandBytes (f n : Nat) : Nat := if isMx f then roundUp (elemBytes f n) 64 + ceilDiv n 32 else elemBytes f n

/-- Values of `n` elements of any format; MX blocks are 32 consecutive elements (R121, R123). -/
def Chip.values (c : Chip) (p bank off f : Nat) (signed : Bool) (n : Nat) : List Val :=
  let codes := c.elems p bank off f n
  if isMx f then
    codes.zipIdx.map fun (code, i) => mxVal f (c.lockLE p bank (mxScaleOff off f n + i / 32) 1) code
  else codes.map (elemVal f signed)

/-! ## What an instruction sees -/

/-- A Bead's instruction in its place: Bead, group-relative index, ledger index, job, capsule, variant, word. -/
structure Ctx where
  p : Nat
  g : Nat
  j : Nat
  job : Job
  cap : Capsule
  v : Nat
  i : Nat
  /-- the stream position it issued under: step, loops and rounding context -/
  run : RunSt := RunSt.fresh
  /-- blocks done, of a ring-fed chain in progress -/
  chain : Option Nat := none
  /-- instructions in progress that stand before it in the stream -/
  ahead : List Parked := []
  /-- the number at which it came to be in progress; none before it is -/
  arr : Option Nat := none
  deriving DecidableEq, Repr

/-- Constant entry `n` of the running variant. -/
def Ctx.const (x : Ctx) (n : Nat) : Nat := constEntry x.cap x.v n
/-- `k` constant entries from `n`. -/
def Ctx.consts (x : Ctx) (n k : Nat) : Nat := constWords x.cap x.v n k
/-- The FP32 code of a draw's key: the session's seed and the job's seed extension. -/
def Chip.seedOf (c : Chip) (x : Ctx) : Nat := (c.session x.job.session).seed

/-! ## LANE operands (Table 2.16) -/

/-- Values of source 0, source 1 and source 2 (in fmt_d). -/
def Chip.src0 (c : Chip) (x : Ctx) : List Val :=
  c.values x.p (laneBank0 x.i) (64 * laneAddr0 x.i) (laneFmt0 x.i) true (laneCount x.i)
def Chip.src1 (c : Chip) (x : Ctx) : List Val :=
  c.values x.p (laneBank1 x.i) (64 * laneAddr1 x.i) (laneFmt1 x.i) true (laneCount x.i)
def Chip.src2 (c : Chip) (x : Ctx) : List Val :=
  c.values x.p (laneBank2 x.i) (64 * laneAddr2 x.i) (laneFmtD x.i) true (laneCount x.i)

/-- Results narrowed to the destination format and written from lane 0 up; saturations and NaN conversions count for the
job (R96, R152). -/
def Chip.writeLanes (c : Chip) (x : Ctx) (vs : List Val) : Chip :=
  let rs := vs.map (narrowTo (laneFmtD x.i))
  let c := c.putElems x.p (laneBankD x.i) (64 * laneAddrD x.i) (laneFmtD x.i) (rs.map (·.code))
  c.count x.j x.p (rs.foldl (fun n r => n + r.ovf) 0) (rs.foldl (fun n r => n + r.inv) 0)

/-! ## Ranges of a Locket (R90, R372) -/

/-- Two ranges of one Locket share a byte. -/
def LockRange.meets (a b : LockRange) : Bool :=
  a.bank = b.bank && 0 < a.len && 0 < b.len && a.off < b.off + b.len && b.off < a.off + a.len

/-- Two ranges share a 64-byte row (R372: an access to any row of a slot). -/
def LockRange.sharesRow (a b : LockRange) : Bool :=
  a.bank = b.bank && 0 < a.len && 0 < b.len && a.off / 64 * 64 < roundUp (b.off + b.len) 64
    && b.off / 64 * 64 < roundUp (a.off + a.len) 64

def Foot.none : Foot := { reads := [], writes := [] }

/-- Ranges of the operands of a LANE instruction with `n` sources. -/
def laneFoot (sources : Nat) (i : Nat) : Foot :=
  let n := laneCount i
  let s0 : LockRange := ⟨laneBank0 i, 64 * laneAddr0 i, operandBytes (laneFmt0 i) n⟩
  let s1 : LockRange := ⟨laneBank1 i, 64 * laneAddr1 i, operandBytes (laneFmt1 i) n⟩
  let s2 : LockRange := ⟨laneBank2 i, 64 * laneAddr2 i, operandBytes (laneFmtD i) n⟩
  { reads := [s0, s1, s2].take sources,
    writes := [⟨laneBankD i, 64 * laneAddrD i, operandBytes (laneFmtD i) n⟩] }

/-! ## Draws (R345, R348) -/

/-- The step index that draws add: 0 before the first step_begin (R348). -/
def Ctx.drawStep (x : Ctx) : Nat := x.run.step.getD 0

/-- The random word of local position (m, n) under draw context `d`. -/
def Chip.word (c : Chip) (x : Ctx) (d m n : Nat) : Nat :=
  drawWord (c.seedOf x) x.job.seedExt d x.drawStep m n

/-- The rounding nibble of local position (m, n) under the Bead's rounding context; 0 without one, which no conversion
that needs nibbles meets (R355). -/
def Chip.nibble (c : Chip) (x : Ctx) (m n : Nat) : Nat :=
  match x.run.ctx with
  | some d => drawNibble (c.seedOf x) x.job.seedExt d x.drawStep m n
  | none => 0

/-- Whether a conversion of rounding 2 meets a cleared rounding context (R355). -/
def Ctx.noContext (x : Ctx) (word : Nat) : Bool := cwRounding word = 2 && x.run.ctx.isNone

end Sys2Proof.Machine
end

