-- ==== Sys2Proof/Machine/Issue.lean ====
section
/-! DEFINITION. How a Bead issues an instruction: what lets it issue (R89, R90, R366 to R373, R683), what it waits on (R375),
what keeps it in progress after it has issued (R238, R372), and how it completes (R89). One command is one instruction of one
Bead; its results are written within the command unless it stalls, or starts something that ends by a command of its own. -/
namespace Sys2Proof.Machine

/-! ## Sync objects (R366 to R373) -/

def Chip.obj? (c : Chip) (p n : Nat) : Option SyncObj := (c.bead p).objs.find? n
def Chip.setObj (c : Chip) (p n : Nat) (o : SyncObj) : Chip := c.updBead p fun b => { b with objs := b.objs.put n o }
def Chip.setVal (c : Chip) (p n : Nat) (v : SyncVal) : Chip :=
  match c.obj? p n with
  | some o => c.setObj p n { o with val := v }
  | none => c

/-- The value of an object, and whether it is an open window. -/
def Chip.objVal? (c : Chip) (p n : Nat) : Option SyncVal := (c.obj? p n).map fun o => o.val
def Chip.windowOpen (c : Chip) (p n : Nat) : Bool := c.objVal? p n = some (.window true)

/-- Range of a slot or window in its owner's Locket. -/
def SyncObj.range (o : SyncObj) : LockRange := ⟨o.bank, o.off, o.len⟩

/-- A post of `k` to a semaphore: above 65,535 it fences the job and leaves the count (R368). -/
def Chip.postSem (c : Chip) (j p n k : Nat) : Chip :=
  match c.obj? p n with
  | some o => match o.val with
    | .sem v =>
      if u16max < v + k then c.raiseNamed j p stSemOverflow (c.bead p).run.step (.object (c.bead p).g n)
      else c.setVal p n (.sem (v + k))
    | _ => c
  | none => c

/-- A drain of a slot: one that is not FULL fences the job and leaves the slot (R370, R373). A block that a Strand ring is
still to forward stays to be forwarded (R296). -/
def Chip.drainSlot (c : Chip) (j p n : Nat) : Chip :=
  match c.obj? p n with
  | some o => match o.val with
    | .slot .full f => c.setVal p n (.slot .empty f)
    | .slot _ _ => c.raiseNamed j p stSlotState (c.bead p).run.step (.object (c.bead p).g n)
    | _ => c
  | none => c

/-- What a post field does to its object: adds 1 to a semaphore, drains a slot (R89, R368, R370). -/
def Chip.postObj (c : Chip) (j p n : Nat) : Chip :=
  if n = noObj then c
  else match c.obj? p n with
    | some o => match o.val with
      | .sem _ => c.postSem j p n 1
      | .slot _ _ => c.drainSlot j p n
      | _ => c
    | none => c

/-- A post that reaches every Bead of a bound job (R395). -/
def Chip.postAll (c : Chip) (j n : Nat) : Chip :=
  if n = noObj then c
  else match c.job? j with
    | none => c
    | some x => (c.groupBeads x).foldl (fun c p => c.postSem j p n 1) c

/-- Whether the object of a wait field is available (R368, R372, R681). -/
def Chip.available (c : Chip) (p n : Nat) : Bool :=
  if n = noObj then true
  else match c.obj? p n with
    | some o => match o.val with
      | .sem v => 1 ≤ v
      | .slot st _ => st = .full
      | .window w => w
      | .barrier => true
    | none => true

/-- A wait field takes one count of a semaphore and nothing of a slot or window (R368, R681). -/
def Chip.take (c : Chip) (p n : Nat) : Chip :=
  if n = noObj then c
  else match c.obj? p n with
    | some o => match o.val with
      | .sem v => c.setVal p n (.sem (v - 1))
      | _ => c
    | none => c

/-! ## Waits (R375) -/

/-- The same wait, begun earlier or now. -/
def Chip.waitFrom (c : Chip) (old : List Wait) (k : WaitKind × Nat × Nat) : Wait :=
  (old.find? fun w => w.kind = k.1 && w.owner = k.2.1 && w.obj = k.2.2).getD
    { kind := k.1, owner := k.2.1, obj := k.2.2, since := c.now }

/-- A wait of the instruction that is next to issue is known from now on, unless it is known already. -/
def Chip.noteWait (c : Chip) (p : Nat) (k : WaitKind) (owner n : Nat) : Chip :=
  c.updBead p fun b => { b with waits := [c.waitFrom b.waits (k, owner, n)] }

/-- The slots of Bead `p` that one of the ranges touches, with their states. -/
def Chip.slotsUnder (c : Chip) (p : Nat) (rs : List LockRange) : List (Nat × SlotState) :=
  (c.bead p).objs.filterMap fun (n, o) => match o.val with
    | .slot st _ => if rs.any (·.sharesRow o.range) then some (n, st) else none
    | _ => none

/-- The slots on which local reads of the instruction stall: those that are not FULL (R372). -/
def Chip.readStalls (c : Chip) (p : Nat) (f : Foot) : List Nat :=
  ((c.slotsUnder p f.reads).filter fun s => s.2 != .full).map (·.1)

/-- Whether a local write of the instruction stalls: a slot is FILLING (R372). -/
def Chip.writeStall (c : Chip) (p : Nat) (f : Foot) : Bool := (c.slotsUnder p f.writes).any fun s => s.2 = .filling

/-! ## Transfers in flight and R90 -/

/-- Fields of a gather list descriptor (Table 8.4). -/
def glSpace (w : Nat) : Nat := fld w 127 124
def glTensor (w : Nat) : Nat := fld w 123 108
def glBase (w : Nat) : Nat := fld w 107 84
def glPerBead (w : Nat) : Nat := fld w 83 64
def glPerIter (w : Nat) : Nat := fld w 63 44

/-- First list entry of a transfer by Bead `g` in iteration `iter` (R313). -/
def glFirst (w g iter : Nat) : Nat := glBase w + glPerBead w * g + glPerIter w * iter

/-- Iteration of the innermost enclosing loop; 0 outside loops (R313). -/
def Ctx.iteration (x : Ctx) : Nat := match x.run.loops with
  | l :: _ => l.iter
  | [] => 0

/-- Fields of a halo descriptor (Table 9.5) and of a multicast group entry (Table 4.7). -/
def hdLayer (w : Nat) : Nat := fld w 127 112
def hdDest (w : Nat) : Nat := fld w 111 100
def hdObject (w : Nat) : Nat := fld w 99 90
def mgFacets (w : Nat) : Nat := fld w 127 123
def mgRows (w : Nat) : Nat := fld w 122 115
def mgCols (w : Nat) : Nat := fld w 114 101
def mgObject (w : Nat) : Nat := fld w 100 91

/-- The destinations of a multicast group entry, in ascending order (R179). -/
def mgDests (w : Nat) : List Nat :=
  (List.range 560).filter fun g => bit (mgFacets w) (g / 112) && bit (mgRows w) (g % 112 / 14) && bit (mgCols w) (g % 14)

/-- A descriptor of kind 0 that names a halo descriptor (R337). -/
def isHalo (d : Nat) : Bool := ddKind d = 0 && ddSrcSpace d = 1 && ddDstSpace d = 2 && ddList d != 0

/-- The range that stands for rows of a bank which a list that has not been read will name: the whole bank, and longer than any row. -/
def anyRow (bank : Nat) : LockRange := ⟨bank, 0, 2 ^ 19 + 1⟩

/-- Ranges of rows of a descriptor in a bank; a side that a list indexes may touch the whole bank. -/
def rowRanges (listed : Bool) (bank off rows rowBytes stride : Nat) : List LockRange :=
  if listed then [anyRow bank] else (List.range rows).map fun k => ⟨bank, off + k * stride, rowBytes⟩

/-- Ranges of rows of a descriptor in the issuing Bead's own Locket. -/
def descRange (listed : Bool) (off rows rowBytes stride : Nat) : List LockRange :=
  rowRanges listed (fld off 20 19) (off % 2 ^ 19) rows rowBytes stride

/-- Ranges of rows of a descriptor in an object of the issuing Bead itself: a remote end that names it, or the Bead's own copy of
a multicast or halo send. -/
def Chip.ownRange (c : Chip) (x : Ctx) (listed : Bool) (obj off rows rowBytes stride : Nat) : List LockRange :=
  match c.obj? x.p obj with
  | some o => if listed then [o.range] else rowRanges false o.bank (o.off + off) rows rowBytes stride
  | none => []

/-- What a transfer reads and writes of its own Bead's Locket, by its descriptor (Table 2.14). One that moves nothing reads and writes
nothing, but a halo's header (R78, R337). -/
def Chip.descFoot (c : Chip) (x : Ctx) (iter d : Nat) : Foot :=
  let k := ddKind d
  let w := x.const (ddList d)
  let (rows, n) := (ddRows d, ddRowBytes d)
  let src := match ddSrcSpace d with
    | 1 => descRange (k = 1) (ddSrcOff d) rows n (ddSrcStride d)
    | 2 => if fld (ddSrcOff d) 39 30 = x.g
        then c.ownRange x (k = 1) (fld (ddSrcOff d) 29 20) (fld (ddSrcOff d) 18 0) rows n (ddSrcStride d) else []
    | _ => []
  let dst :=
    if k = 5 then (if (mgDests w).contains x.g then c.ownRange x false (mgObject w) (ddDstOff d) rows n (ddDstStride d) else [])
    else if isHalo d then
      if hdDest w = x.g then c.ownRange x false (hdObject w) (ddDstOff d) rows n (ddDstStride d) else []
    else match ddDstSpace d with
      | 1 => descRange (k = 2) (ddDstOff d) rows n (ddDstStride d)
      | 2 => if fld (ddDstOff d) 39 30 = x.g
          then c.ownRange x (k = 2) (fld (ddDstOff d) 29 20) (fld (ddDstOff d) 18 0) rows n (ddDstStride d) else []
      | _ => []
  let halo := if isHalo d && hdDest w = x.g
    then (c.obj? x.p (hdObject w)).elim [] fun o => [⟨o.bank, o.off + o.len - 64, 64⟩] else []
  if rows = 0 || n = 0 then { reads := [], writes := halo }
  else { reads := src ++ (if (k = 1 || k = 2) && glSpace w = 1 then [⟨3, 4 * glFirst w x.g iter, 4 * rows⟩] else []),
         writes := dst ++ halo }

/-- The tokens' keys, or their values, that an append reads from its own Locket (R270). -/
def appendRanges (d off : Nat) : List LockRange := descRange false off (ddRows d) (ddRowBytes d) (ddSrcStride d)

/-- Ranges of the own Locket that an edit reads. -/
def editFoot (x : Ctx) : Foot :=
  let d := dmaDesc x.cap x.v (iDesc x.i)
  let w := x.consts (ddList d) 2
  match edOp w with
  | 0 => { reads := appendRanges d (ddSrcOff d) ++ appendRanges d (edVOff w), writes := [] }
  | 2 => { reads := [⟨fld (ddSrcOff d) 20 19, ddSrcOff d % 2 ^ 19, 16 * ddRows d⟩], writes := [] }
  | _ => .none

def Foot.conflicts (a b : Foot) : Bool :=
  a.reads.any (fun r => b.writes.any (·.meets r))
    || a.writes.any (fun w => b.writes.any (·.meets w) || b.reads.any (·.meets w))

/-- An earlier instruction of the same stream that has not posted conflicts with the instruction: a transfer or an edit in flight, or one
in progress (R90). What a walk fills is slots, and those are handed over by R370 to R373, not by R90: a ring of slots is drained
while its walk goes on (R264, assumption 116, DEDUCED). -/
def Chip.hazard (c : Chip) (x : Ctx) (f : Foot) : Bool :=
  c.transfers.any (fun t => t.p = x.p && f.conflicts t.foot) || c.edits.any (fun e => e.p = x.p && f.conflicts e.foot)
    || x.ahead.any fun k => f.conflicts k.foot

/-! ## Units and tables (R237, R238, R683) -/

/-- The units that an instruction takes. -/
def unitsFor (i : Nat) : List ExecUnit :=
  let op := iOp i
  match iClass i with
  | 1 => [.matrix]
  | 2 =>
    if op ≤ 0x2F || op = 0x61 || (0x70 ≤ op && op ≤ 0x7F) then [.vector]
    else if op ≤ 0x34 then [.random]
    else if op ≤ 0x49 then [.special]
    else if 0x50 ≤ op && op ≤ 0x56 then [.vector, .special] else []
  | 5 => [.matrix]
  | _ => []

/-- A unit that the instruction takes still holds an earlier one. -/
def Ctx.unitBusy (x : Ctx) : Bool := x.ahead.any fun k => k.units.any (unitsFor x.i).contains

/-- Table positions that an epilogue looks up (R190, R204, R207, R210). -/
def epiLooks (x : Ctx) (e : Nat) : List Nat :=
  if e = 0 then []
  else
    let w := x.consts e 4
    (if 3 ≤ epActivation w then [epTable w] else []) ++ match epStat w with
      | 2 => [posRecip]
      | 3 => [posExp]
      | 4 => [posRecip, posRsqrt]
      | 5 => [posRecip, posRsqrt]
      | _ => []

/-- Table positions that an instruction looks up. -/
def Ctx.looks (x : Ctx) : List Nat :=
  let i := x.i
  let op := iOp i
  match iClass i with
  | 1 => epiLooks x (mmaEpilogue i)
  | 2 =>
    if op = 0x34 then [dcTable (x.const (laneConst i))]
    else if 0x40 ≤ op && op ≤ 0x47 then [lanePos op]
    else if op = 0x48 || op = 0x49 then [namedPos (x.const (laneConst i))]
    else if 0x50 ≤ op && op ≤ 0x56 then normTables op else []
  | 5 =>
    let d := x.consts (chDesc i) 2
    epiLooks x (chEpilogue i) ++ match cdKind d with
      | 0 => if cdPrologue d = 2 then [posExp, posRecip, posRsqrt] else []
      | 1 => [posExp, posRecip]
      | _ => epiLooks x (cdEpi2 d)
  | _ => []

/-- The position whose banks a table_swap exchanges, and the one that a table_load fills. -/
def Ctx.swaps (x : Ctx) : Option Nat := if isCtrl x.i 6 then some (swapTable x.i) else none
def Ctx.loads (x : Ctx) : Option Nat :=
  if iClass x.i = 2 && iOp x.i = 0x4A then some (namedPos (x.const (laneConst x.i))) else none

/-- A lookup waits for an earlier table_swap of its position (R237, R238). -/
def Ctx.tableHeld (x : Ctx) : Bool :=
  x.ahead.any fun k => k.swaps.elim false x.looks.contains

/-! ## Issuing -/

/-- The Facets of a job's group are awake and in service, so that its Beads can issue (R85, R401). -/
def Chip.groupAwake (c : Chip) (x : Job) : Bool :=
  (groupFacets x.size x.base).all fun f => (c.facet f).retention = 0

/-- Bead `p` runs now: its job is bound and its Facets awake, it has not stopped, and its Facet's clock is not changing (R21,
R88, R401). The context is that of no instruction yet. -/
def Chip.running (c : Chip) (p : Nat) : Option Ctx :=
  let b := c.bead p
  match b.job with
  | none => none
  | some j => match c.job? j with
    | none => none
    | some x =>
      if c.pkg.power = .running && !c.pkg.deviceFault && x.phase = .bound && b.svc = .inService && !b.run.stopped
          && c.groupAwake x && (c.facet (physFacet p)).holdTick != some c.now
      then some { p := p, g := b.g, j := j, job := x, cap := c.capsule x.setting, v := x.variant, i := 0, run := b.run }
      else none

/-- The next instruction of Bead `p`, when it can issue: its stream has not ended and waits at no barrier or yield. -/
def Chip.canIssue (c : Chip) (p : Nat) : Option Ctx :=
  match c.running p with
  | none => none
  | some x =>
    if x.run.ended || x.run.barrier.isSome || x.run.yielded then none
    else (instrAt x.cap x.run.stream x.run.pos).map fun i => { x with i := i, ahead := x.run.parked }

/-- Instruction `n` in progress at Bead `p`, under what it issued under. -/
def Chip.parkedCtx (c : Chip) (p n : Nat) : Option (Ctx × Parked) :=
  match c.running p, (c.bead p).run.parked[n]? with
  | some x, some k => (instrAt x.cap x.run.stream k.pos).map fun i =>
      ({ x with i := i, run := { x.run with pos := k.pos, step := k.step, loops := k.loops, ctx := k.ctx }, chain := k.chain,
                ahead := x.run.parked.take n, arr := some k.arr }, k)
  | _, _ => none

/-- What an instruction does once it issues. -/
inductive Act where
  /-- its results are written: it completes and posts (R89) -/
  | done (c : Chip)
  /-- it has started what ends by another command, which posts for it -/
  | started (c : Chip)
  /-- it completes and control goes to another instruction of the stream -/
  | jump (pos : Nat) (c : Chip)
  /-- it cannot issue yet: nothing is taken and the Bead stays at it -/
  | hold (c : Chip)
  /-- it has its effect and the Bead stays at it -/
  | more (c : Chip)
  /-- it has issued and is in progress: the blocks it has done, if it is a chain, and what it is stalled on -/
  | park (chain : Option Nat) (waits : List (WaitKind × Nat × Nat)) (c : Chip)
  /-- it fences the job with a status that names the Bead, in the state given: nothing further of it is written -/
  | raise (st : Nat) (c : Chip)
  /-- the same, with a status that names more than the Bead -/
  | raiseN (st : Nat) (n : Named) (c : Chip)
  /-- the same, with a status that names no Bead -/
  | raiseD (st : Nat) (n : Named) (c : Chip)
  /-- it has read poisoned data, of a tensor or of other data of its job: nothing further of it is written -/
  | lost (tid : Option Nat) (at_ : Place) (c : Chip)

/-- The Bead stands at another instruction; the waits of the one before are over. -/
def Chip.goTo (c : Chip) (p pos : Nat) : Chip :=
  c.updBead p fun b => { b with waits := [], stoodSince := c.now, run := { b.run with pos := pos } }

/-- An instruction in progress is as it is now: `w` are its waits, begun now where they are not known yet. A chain that has
come further waits anew. -/
def Chip.parkAs (c : Chip) (k : Parked) (chain : Option Nat) (ws : List (WaitKind × Nat × Nat)) : Parked :=
  { k with chain := chain, waits := ws.map (c.waitFrom (if chain = k.chain then k.waits else [])) }

/-- An instruction that has issued is in progress and the stream goes on. -/
def Chip.park (c : Chip) (x : Ctx) (f : Foot) (chain : Option Nat) (ws : List (WaitKind × Nat × Nat)) : Chip :=
  let k : Parked := { pos := x.run.pos, step := x.run.step, loops := x.run.loops, ctx := x.run.ctx, chain := chain, waits := [],
                      foot := f, units := unitsFor x.i, looks := x.looks, swaps := x.swaps, loads := x.loads,
                      arr := c.sched.nextId }
  ({ c with sched := { c.sched with nextId := c.sched.nextId + 1 } }.goTo x.p (x.run.pos + 1)).updRun x.p fun r => { r with parked := r.parked ++ [c.parkAs k chain ws] }

/-- A status that an instruction raises, or poison that it has met: the Bead goes no further. -/
def Act.raised (x : Ctx) : Act → Chip
  | .raise st c => (c.raiseAt x.j x.p st x.run.step).halt x.p
  | .raiseN st n c => (c.raiseNamed x.j x.p st x.run.step n).halt x.p
  | .raiseD st n c => (c.raiseDie x.j (dieFacet (physFacet x.p)) st x.run.step n).halt x.p
  | .lost tid at_ c => (c.poisonFound x.j tid at_).halt x.p
  | .done c => c
  | .started c => c
  | .jump _ c => c
  | .hold c => c
  | .more c => c
  | .park _ _ c => c

/-- What becomes of the next instruction after its attempt to run: the Bead moves on and the post field is made, or it is in
progress. -/
def Chip.finish (x : Ctx) (f : Foot) (a : Act) : Chip :=
  match a with
  | .done c => (c.goTo x.p (x.run.pos + 1)).postObj x.j x.p (iPost x.i)
  | .started c => c.goTo x.p (x.run.pos + 1)
  | .jump pos c => (c.goTo x.p pos).postObj x.j x.p (iPost x.i)
  | .park chain ws c => c.park x f chain ws
  | a => a.raised x

/-- The local accesses of an instruction: a transfer's writes are fills, which wait by themselves, and rows that its list has still to name
are not read yet. -/
def localFoot (x : Ctx) (f : Foot) : Foot :=
  if iClass x.i = 3 then { reads := f.reads.filter fun r => r != anyRow r.bank, writes := [] } else f

/-- An instruction that has issued runs once no local access of it stalls (R372) and no table_swap holds it (R238). A chain
in progress meets its slots block by block. -/
def Chip.attempt (c : Chip) (x : Ctx) (f : Foot) (act : Ctx → Chip → Act) : Act :=
  if x.chain.isSome then act x c
  else match c.readStalls x.p (localFoot x f) with
    | [] => if c.writeStall x.p (localFoot x f) || x.tableHeld then .park x.chain [] c else act x c
    | ns => .park x.chain (ns.map fun n => (.localRead, x.p, n)) c

/-- Instruction `n` in progress goes on, when `sel` picks it: the chip then, and whether it has come to an end. -/
def Chip.goOn (c : Chip) (sel : Ctx → Bool) (foot : Chip → Ctx → Foot) (act : Ctx → Chip → Act) (p n : Nat) : Chip × Bool :=
  match c.parkedCtx p n with
  | none => (c, false)
  | some (x, k) =>
    if !sel x then (c, false)
    else
      let gone (c : Chip) : Chip := c.updRun p fun r => { r with parked := dropAt r.parked n }
      match c.attempt x (foot c x) act with
      | .done c => ((gone c).postObj x.j x.p (iPost x.i), true)
      | .started c => (gone c, true)
      | .park chain ws c =>
        (c.updRun p fun r => { r with parked := modAt r.parked n fun _ => c.parkAs k chain ws }, false)
      | a => (a.raised x, true)

/-- The instructions in progress that `sel` picks go on, earliest first, until one of them comes to its end. -/
def Chip.goOnAny (c : Chip) (sel : Ctx → Bool) (foot : Chip → Ctx → Foot) (act : Ctx → Chip → Act) (p : Nat) : Chip × Bool :=
  (List.range (c.bead p).run.parked.length).foldl
    (fun (r : Chip × Bool) n => if r.2 then r else r.1.goOn sel foot act p n) (c, false)

/-- Issue of the next instruction, when `sel` picks it and its Locket ranges are `foot`: it issues when the object of its wait
field is available (R89), its units are free (R683) and no earlier instruction of its stream conflicts (R90). Once issued it
runs, or it is in progress until it can. A wait the watchdog times is noted. -/
def Chip.issueNext (c : Chip) (sel : Ctx → Bool) (foot : Chip → Ctx → Foot) (p : Nat) (act : Ctx → Chip → Act) : Chip :=
  match c.canIssue p with
  | none => c
  | some x =>
    if !sel x then c
    else if !c.available p (iWait x.i) then
      match (c.obj? p (iWait x.i)).map fun o => o.val with
      | some (SyncVal.sem _) => c
      | _ => c.noteWait p .waitField p (iWait x.i)
    else
      let f := foot c x
      if x.unitBusy || c.hazard x f then c
      else
        match (c.take p (iWait x.i)).attempt x f act with
        | .hold c' => c'.updBead p fun b => { b with objs := (c.bead p).objs }
        | a => Chip.finish x f a

/-- The command of an instruction at Bead `p`: one in progress that `sel` picks goes on; where none comes to its end, the next
instruction issues. Where the Bead stands at no such instruction, or it cannot issue, nothing changes (assumption 7, DESIGN
CHOICE). -/
def issueAt (sel : Ctx → Bool) (foot : Chip → Ctx → Foot) (p : Nat) (act : Ctx → Chip → Act) (c : Chip) : Chip :=
  match c.goOnAny sel foot act p with
  | (c, true) => c
  | (c, false) => c.issueNext sel foot p act

/-- Issue of an instruction whose ranges its context alone gives. -/
def issueOn (sel : Ctx → Bool) (foot : Ctx → Foot) (p : Nat) (act : Ctx → Chip → Act) (c : Chip) : Chip :=
  issueAt sel (fun _ => foot) p act c

/-- Issue of an instruction that its word alone picks. -/
def issue (sel : Nat → Bool) (foot : Ctx → Foot) (p : Nat) (act : Ctx → Chip → Act) (c : Chip) : Chip :=
  issueOn (fun x => sel x.i) foot p act c

/-- Issue of a LANE operation code. -/
def issueLane (op : Nat) (foot : Ctx → Foot) (p : Nat) (act : Ctx → Chip → Act) (c : Chip) : Chip :=
  issue (fun i => iClass i = 2 && iOp i = op) foot p act c

end Sys2Proof.Machine
end

