-- ==== Sys2Proof/Machine/Lane.lean ====
section
/-! DEFINITION. The vector operations 0x00 to 0x0E of the LANE class (R95, R96, Table 2.18). -/
namespace Sys2Proof.Machine

/-- A vector operation whose lanes are FP32 results narrowed to the destination format. -/
def vectorOp (op n p : Nat) (f : Ctx → Chip → List Val) (c : Chip) : Chip :=
  issueLane op (fun x => laneFoot n x.i) p (fun x c => .done (c.writeLanes x (f x c))) c

/-- Lane by lane over source 0, over sources 0 and 1, and over all three. -/
def map1 (f : Val → Val) (x : Ctx) (c : Chip) : List Val := (c.src0 x).map f
def map2 (f : Val → Val → Val) (x : Ctx) (c : Chip) : List Val := List.zipWith f (c.src0 x) (c.src1 x)
def map3 (f : Val → Val → Val → Val) (x : Ctx) (c : Chip) : List Val :=
  List.zipWith (fun g s => g s) (List.zipWith f (c.src0 x) (c.src1 x)) (c.src2 x)

/-- A bit copy of every lane, and of the scales of an MX tile (R95, R122). -/
def laneCopy (p : Nat) (c : Chip) : Chip :=
  issueLane 0x00 (fun x => laneFoot 1 x.i) p (fun x c =>
    let f := laneFmt0 x.i
    let n := laneCount x.i
    let codes := c.elems x.p (laneBank0 x.i) (64 * laneAddr0 x.i) f n
    let scales := c.lockRead x.p (laneBank0 x.i) (mxScaleOff (64 * laneAddr0 x.i) f n) (ceilDiv n 32)
    let c := c.putElems x.p (laneBankD x.i) (64 * laneAddrD x.i) f codes
    .done (if isMx f then c.lockWrite x.p (laneBankD x.i) (mxScaleOff (64 * laneAddrD x.i) f n) scales else c)) c

def execCopy (p : Nat) (s : State) : Out := onChip (.copy p) s (laneCopy p)

/-- One element of an FP32 vector in bank 3. -/
def Chip.vec3 (c : Chip) (p off n : Nat) : Val := f32 (c.lockLE p 3 (off + 4 * n) 4)

/-- Scale and bias of lane `n` of a LANE convert: scalars of entry c + 1, or the vectors s1 and s2 in bank 3, indexed by
column n or by row 0 (R95, R133). -/
def laneConvSpec (x : Ctx) (c : Chip) (n : Nat) : ConvSpec :=
  let w := fld (x.const (laneConst x.i)) 31 0
  let k := x.const (laneConst x.i + 1)
  let pick (kind : Nat) (scalar : Val) (off : Nat) : Val :=
    match kind with
    | 0 => scalar
    | 1 => c.vec3 x.p off n
    | _ => c.vec3 x.p off 0
  { word := w, const := k, scale := pick (cwScaleKind w) (ccScale k) (64 * laneAddr1 x.i),
    bias := pick (cwBiasKind w) (ccBias k) (64 * laneAddr2 x.i) }

/-- One block of up to 32 values quantised from element `b` on, elements packed from byte `base` of a bank, and its scale
byte at `sOff` (R147, R150). `vals` are the values of the lanes that exist; lanes beyond them count as +0. -/
def Chip.putBlockAt (c : Chip) (j p bank base f mode b sOff : Nat) (nib : Nat → Nat) (vals : List Val) : Chip :=
  let k := vals.length
  let vs := vals ++ List.replicate (32 - k) Val.zero
  let (scale, rs) := quantise f mode ((List.range 32).map fun i => nib (b + i)) vs
  let rs := rs.take k
  let c := rs.zipIdx.foldl (fun c (r, i) => c.putElem p bank base f (b + i) r.code) c
  let c := c.lockWrite p bank sOff (leBytes 1 scale)
  c.count j p (rs.foldl (fun a r => a + r.ovf) 0) (rs.foldl (fun a r => a + r.inv) 0)

/-- A row of values quantised in blocks of 32 from element 0, block `q`'s scale at `sOff + q`. -/
def Chip.putBlocks (c : Chip) (j p bank base f mode sOff : Nat) (nib : Nat → Nat) (vals : List Val) : Chip :=
  (List.range (ceilDiv vals.length 32)).foldl (fun c q =>
    c.putBlockAt j p bank base f mode (32 * q) (sOff + q) nib ((vals.drop (32 * q)).take 32)) c

/-- Ranges of a convert: its source, the scale and bias vectors its word asks for, and its destination in the target
format. -/
def convertFoot (x : Ctx) : Foot :=
  let w := fld (x.const (laneConst x.i)) 31 0
  let n := laneCount x.i
  let vec (en : Bool) (kind off : Nat) : List LockRange :=
    if en && kind != 0 then [⟨3, off, if kind = 1 then 4 * n else 4⟩] else []
  { reads := ⟨laneBank0 x.i, 64 * laneAddr0 x.i, operandBytes (laneFmt0 x.i) n⟩
      :: (vec (cwScaleEn w) (cwScaleKind w) (64 * laneAddr1 x.i) ++ vec (cwBiasEn w) (cwBiasKind w) (64 * laneAddr2 x.i)),
    writes := [⟨laneBankD x.i, 64 * laneAddrD x.i, operandBytes (cwTarget w) n⟩] }

/-- convert of every lane by a conversion word (R95 0x01, R134); one that rounds stochastically needs a rounding context
(R355). -/
def laneConvert (p : Nat) (c : Chip) : Chip :=
  issueLane 0x01 convertFoot p (fun x c =>
    let w := fld (x.const (laneConst x.i)) 31 0
    let signed := bit (x.const (laneConst x.i)) 32
    let n := laneCount x.i
    if x.noContext w then .raise stRngNoContext c
    else
      let vs := c.values x.p (laneBank0 x.i) (64 * laneAddr0 x.i) (laneFmt0 x.i) signed n
      let f := cwTarget w
      if isMx f then
        let ts := vs.zipIdx.map fun (v, i) => convStage (laneConvSpec x c i) v
        let off := 64 * laneAddrD x.i
        .done (c.putBlocks x.j x.p (laneBankD x.i) off f (cwRounding w) (mxScaleOff off f n) (c.nibble x 0) ts)
      else
        let rs := vs.zipIdx.map fun (v, i) => convert (laneConvSpec x c i) (if cwRounding w = 2 then c.nibble x 0 i else 0) v
        let c := c.putElems x.p (laneBankD x.i) (64 * laneAddrD x.i) f (rs.map (·.code))
        .done (c.count x.j x.p (rs.foldl (fun a r => a + r.ovf) 0) (rs.foldl (fun a r => a + r.inv) 0))) c

def execConvert (p : Nat) (s : State) : Out := onChip (.convert p) s (laneConvert p)

def execAdd (p : Nat) (s : State) : Out := onChip (.add p) s (vectorOp 0x02 2 p (map2 addF))
def execSubtract (p : Nat) (s : State) : Out := onChip (.subtract p) s (vectorOp 0x03 2 p (map2 subF))
def execMultiply (p : Nat) (s : State) : Out := onChip (.multiply p) s (vectorOp 0x04 2 p (map2 mulF))
def execFusedMultiplyAdd (p : Nat) (s : State) : Out :=
  onChip (.fusedMultiplyAdd p) s (vectorOp 0x05 3 p (map3 fmaF))
def execMaximum (p : Nat) (s : State) : Out := onChip (.maximum p) s (vectorOp 0x06 2 p (map2 Val.max))
def execMinimum (p : Nat) (s : State) : Out := onChip (.minimum p) s (vectorOp 0x07 2 p (map2 Val.min))
def execAbsoluteValue (p : Nat) (s : State) : Out := onChip (.absoluteValue p) s (vectorOp 0x08 1 p (map1 Val.abs))
def execNegate (p : Nat) (s : State) : Out := onChip (.negate p) s (vectorOp 0x09 1 p (map1 Val.neg))

/-- maximum(s, +0) (R95 0x0A). -/
def reluV (v : Val) : Val := v.max .zero
def execRelu (p : Nat) (s : State) : Out := onChip (.relu p) s (vectorOp 0x0A 1 p (map1 reluV))

/-- s when s is at or above +0, otherwise round(s * a) (R95 0x0B); NaN is at or above nothing. -/
def leakyV (a v : Val) : Val := if !v.isNaN && !v.lt .zero then v else mulF v a
def execLeakyRelu (p : Nat) (s : State) : Out :=
  onChip (.leakyRelu p) s (vectorOp 0x0B 1 p fun x => map1 (leakyV (f32 (fld (x.const (laneConst x.i)) 31 0))) x)

def execScalarAffine (p : Nat) (s : State) : Out :=
  onChip (.scalarAffine p) s (vectorOp 0x0C 1 p fun x =>
    let k := x.const (laneConst x.i)
    map1 (fun v => fmaF v (f32 (fld k 127 96)) (f32 (fld k 95 64))) x)

/-- The maximum of a list of values; -∞ of none (Table 2.8). -/
def maxOf : List Val → Val
  | [] => .inf true
  | v :: vs => vs.foldl Val.max v

/-- A reduction over the lanes of source 0 writes lane 0 alone (R95 0x0D, 0x0E). -/
def laneReduce (op p : Nat) (f : List Val → Val) (c : Chip) : Chip :=
  issueLane op (fun x => { laneFoot 1 x.i with
      writes := [⟨laneBankD x.i, 64 * laneAddrD x.i, elemBytes (laneFmtD x.i) 1⟩] }) p
    (fun x c => .done (c.writeLanes x [f (c.src0 x)])) c

def execLaneSum (p : Nat) (s : State) : Out :=
  onChip (.laneSum p) s (laneReduce 0x0D p fun vs => pairwise vs.length vs)
def execLaneMaximum (p : Nat) (s : State) : Out := onChip (.laneMaximum p) s (laneReduce 0x0E p maxOf)

end Sys2Proof.Machine
end

