-- ==== Sys2Proof/Machine/Sfu.lean ====
section
/-! DEFINITION. The special-function unit: table banks, polynomial evaluation, reduced evaluation, breakpoints (R223 to R235)
and the operations 0x40 to 0x4A with the table swap (R236 to R241). -/
namespace Sys2Proof.Machine

/-! ## Table banks (R226 to R228, R239) -/

/-- Key of byte 0 of bank `bank` (0 or 1) of a table position. -/
def tableKey (p pos bank : Nat) : Nat := ((p * 8 + pos) * 2 + bank) * 16384

/-- The physical bank that is active at a position; the other one is its shadow. -/
def BeadSt.activeBank (b : BeadSt) (pos : Nat) : Nat := if b.tabSel.getD pos false then 1 else 0
def BeadSt.shadowBank (b : BeadSt) (pos : Nat) : Nat := 1 - b.activeBank pos

/-- Where the active bank of a position starts. -/
def Chip.activeKey (c : Chip) (p pos : Nat) : Nat := tableKey p pos ((c.bead p).activeBank pos)
def Chip.shadowKey (c : Chip) (p pos : Nat) : Nat := tableKey p pos ((c.bead p).shadowBank pos)

/-- An image's bytes replace those of a bank. -/
def Chip.writeTable (c : Chip) (key : Nat) (img : List Byte) : Chip := { c with tables := c.tables.writeN key img }

/-- Fields of a table image header (Table 6.2). -/
def thReduction (h : Nat) : Nat := fld h 511 508
def thOrder (h : Nat) : Nat := fld h 507 506
def thSym (h : Nat) : Nat := fld h 505 504
def thK (h : Nat) : Nat := fld h 503 500
def thECount (h : Nat) : Nat := fld h 499 494
def thEMin (h : Nat) : Int := signedOf 8 (fld h 493 486)
def thBpCount (h : Nat) : Nat := fld h 485 483
def thBytes (h : Nat) : Nat := fld h 482 469
def thLoC0 (h : Nat) : Val := f32 (fld h 463 432)
def thLoC1 (h : Nat) : Val := f32 (fld h 431 400)
def thHiAPos (h : Nat) : Val := f32 (fld h 399 368)
def thHiBPos (h : Nat) : Val := f32 (fld h 367 336)
def thHiANeg (h : Nat) : Val := f32 (fld h 335 304)
def thHiBNeg (h : Nat) : Val := f32 (fld h 303 272)
def thBpOffset (h n : Nat) : Nat := 16 * fld h (223 + 12 * n) (212 + 12 * n)

/-- A table as evaluation sees it: the bytes of memory and where its image starts. -/
structure Table where
  mem : Mem
  key : Nat

def Table.header (t : Table) : Nat := t.mem.readLE t.key 64
def Table.f32At (t : Table) (off : Nat) : Val := f32 (t.mem.readLE (t.key + off) 4)

/-- The active image of a position of Bead `p`. -/
def Chip.table (c : Chip) (p pos : Nat) : Table := { mem := c.tables, key := c.activeKey p pos }

/-- Segments of an image (R228). -/
def segCount (h : Nat) : Nat :=
  if thReduction h = 0 || thReduction h = 5 then thECount h * 2 ^ thK h * (if thSym h = 0 then 2 else 1) else 2 ^ thK h

/-! ## Evaluation (R229 to R232) -/

/-- poly(i, d): one or two fused multiply-adds, each rounded once (R230). -/
def Table.poly (t : Table) (i : Nat) (d : Val) : Val :=
  if thOrder t.header = 1 then
    fmaF (t.f32At (64 + 8 * i + 4)) d (t.f32At (64 + 8 * i))
  else
    let o := 64 + 16 * i
    fmaF (fmaF (t.f32At (o + 8)) d (t.f32At (o + 4))) d (t.f32At o)

/-- Exponent e of a finite nonzero value 2^e * (1 + f). -/
def binade (m : Nat) (e : Int) : Int := e + (log2 m : Int)

/-- The top `k` bits of the fraction f of a magnitude `m`, normalised (R229). -/
def fracBits (m k : Nat) : Nat := (m - 2 ^ log2 m) * 2 ^ k / 2 ^ log2 m

/-- m * 2^e minus 2^binade * (1 + j / 2^k), exactly. -/
def segRest (m : Nat) (e : Int) (k j : Nat) : Val :=
  .fin false (m * 2 ^ k - 2 ^ log2 m * (2 ^ k + j)) (e - k)

/-- A generic table at x (R229). -/
def Table.generic (t : Table) (x : Val) : Val :=
  let h := t.header
  let a := x.abs
  let k := thK h
  let neg := x.isNeg && thSym h = 0
  let (ca, cb) := if neg then (thHiANeg h, thHiBNeg h) else (thHiAPos h, thHiBPos h)
  let flip (y : Val) : Val := if thSym h = 1 && x.isNeg then y.neg else y
  match a with
  | .nan => .nan
  | .inf _ => flip (if ca.isZero then cb else ca.mul a)
  | .fin _ m e =>
    if a.lt (.fin false 1 (thEMin h)) then fmaF (thLoC1 h) x (thLoC0 h)
    else if !a.lt (.fin false 1 (thEMin h + thECount h)) then flip (fmaF ca a cb)
    else
      let j := fracBits m k
      let i := (binade m e - thEMin h).toNat * 2 ^ k + j + (if neg then thECount h * 2 ^ k else 0)
      flip (t.poly i (segRest m e k j))

/-- log2 e and ln 2, each rounded to a 48-bit significand (Table 6.3). -/
def constL : Val := .fin false 203041276517400 (-47)
def constLn2 : Val := .fin false 195103586505167 (-48)

/-- floor of a finite value. -/
def floorVal : Val → Int
  | .fin s m e =>
    if 0 ≤ e then (if s then -((m <<< e.toNat : Nat) : Int) else ((m <<< e.toNat : Nat) : Int))
    else
      let k := (-e).toNat
      if s then -(((m + 2 ^ k - 1) >>> k : Nat) : Int) else ((m >>> k : Nat) : Int)
  | _ => 0

/-- round(P * 2^n); beyond 2^1000 the result is the same as there. -/
def scaleBy (v : Val) (n : Int) : Val := rndV (v.shift (max (-1000) (min 1000 n)))

/-- P for a reduced argument u below U = 2^ub (R231). -/
def Table.reduced (t : Table) (u : Val) (ub : Nat) : Val :=
  let k := thK t.header
  match u with
  | .fin _ m e =>
    let s := e + k - ub
    let i := if 0 ≤ s then m <<< s.toNat else m >>> (-s).toNat
    t.poly i (u.sub (.fin false i ((ub : Int) - k)))
  | _ => .nan

/-- 2^x from the fraction of x, exact (R231 exp2). -/
def Table.exp2 (t : Table) (x : Val) : Val :=
  match x with
  | .nan => .nan
  | .inf s => if s then .zero else .inf false
  | .fin _ _ _ =>
    let n := floorVal x
    scaleBy (t.reduced (x.sub (intVal n)) 0) n

/-- e^x: the product with L is exact, the fraction is rounded (R231 exp). -/
def Table.exp (t : Table) (x : Val) : Val :=
  match x with
  | .nan => .nan
  | .inf s => if s then .zero else .inf false
  | .fin _ _ _ =>
    let y := x.mul constL
    let n := floorVal y
    let u := rndV (y.sub (intVal n))
    let (n, u) := if u.lt .one then (n, u) else (n + 1, Val.zero)
    scaleBy (t.reduced u 0) n

/-- The fraction m - 1 of a magnitude 2^e * m with m in [1, 2). -/
def mantissaRest (m : Nat) : Val := .fin false (m - 2 ^ log2 m) (-(log2 m : Int))

/-- e + P, exact, of log2 and ln; the special inputs of Table 6.3. -/
def Table.logSum (t : Table) (x : Val) : Val :=
  match x with
  | .nan => .nan
  | .inf s => if s then .nan else .inf false
  | .fin s m e =>
    if m = 0 then .inf true
    else if s then .nan
    else (intVal (binade m e)).add (t.reduced (mantissaRest m) 0)

def Table.log2 (t : Table) (x : Val) : Val := rndV (t.logSum x)
def Table.ln (t : Table) (x : Val) : Val := rndV ((t.logSum x).mul constLn2)

def Table.recip (t : Table) (x : Val) : Val :=
  match x with
  | .nan => .nan
  | .inf s => .fin s 0 0
  | .fin s m e =>
    if m = 0 then .inf s
    else
      let y := scaleBy (t.reduced (mantissaRest m) 0) (-(binade m e))
      if s then y.neg else y

def Table.rsqrt (t : Table) (x : Val) : Val :=
  match x with
  | .nan => .nan
  | .inf s => if s then .nan else .zero
  | .fin s m e =>
    if m = 0 then .inf s
    else if s then .nan
    else
      let b := binade m e
      let odd := b % 2 = 1
      let e' := if odd then b - 1 else b
      let m' : Val := .fin false m (-(Nat.log2 m : Int) + (if odd then 1 else 0))
      scaleBy (t.reduced (m'.sub .one) 2) (-(e' / 2))

def Table.sqrt (t : Table) (x : Val) : Val :=
  match x with
  | .nan => .nan
  | .inf s => if s then .nan else .inf false
  | .fin s m _ => if m = 0 then x else if s then .nan else mulF x (t.rsqrt x)

/-- gauss of a 32-bit word through a tail table (R232). -/
def Table.gauss (t : Table) (w : Nat) : Val :=
  let y := t.generic (.fin false (2 * (w % 2 ^ 23) + 1) (-24))
  if bit w 23 then y.neg else y

/-! ## Breakpoints (R233, R234) -/

/-- Offset of the breakpoint section of an image for a target format. -/
def Table.bpSection (t : Table) (f : Nat) : Option Nat :=
  let h := t.header
  ((List.range (thBpCount h)).map (thBpOffset h)).find? fun o => fld (t.mem.readLE (t.key + o) 8) 63 60 == f

/-- The code that breakpoints give for x: q of the number of breakpoints not above x; NaN as in Table 3.10 (R234). -/
def Table.bpCode (t : Table) (o f : Nat) (x : Val) : Conv :=
  if x.isNaN then narrow f 0 0 false false .nan
  else
    let n := fld (t.mem.readLE (t.key + o) 8) 59 51
    let j := ((List.range n).filter fun i => !x.lt (t.f32At (o + 8 + 4 * i))).length
    ⟨t.mem.readLE (t.key + o + 8 + 4 * n + j) 1 % 2 ^ fmtBits f, 0, 0⟩

/-- A generic table's result written in a format: by breakpoints where the image has them, else rounded (R225, R234). -/
def Table.evalTo (t : Table) (f : Nat) (x : Val) : Conv :=
  match if f = 0 then none else t.bpSection f with
  | some o => t.bpCode o f x
  | none => narrowTo f (t.generic x)

/-! ## What a table image must satisfy (R226 to R228, R232, R233) -/

/-- Bytes of a breakpoint section of `n` breakpoints, its padding with it. -/
def bpBytes (n : Nat) : Nat := roundUp (8 + 4 * n + n + 1) 16

/-- The breakpoints rise strictly and none is NaN or -0. -/
def risingBps : List Nat → Bool
  | [] => true
  | [b] => !(f32 b).isNaN && b != 0x80000000
  | b :: b' :: bs => !(f32 b).isNaN && b != 0x80000000 && (f32 b).lt (f32 b') && risingBps (b' :: bs)

/-- One breakpoint section at offset `o` is well formed; `fin` is the end of the segments (R233). -/
def bpOk (img : List Byte) (fin o : Nat) : Bool :=
  let h := getLE img o 8
  let f := fld h 63 60
  let n := fld h 59 51
  let span := 8 + 4 * n + n + 1
  fin ≤ o && o + 8 ≤ img.length && fld h 50 0 = 0 && 3 ≤ f && f ≤ 7 && o + bpBytes n ≤ img.length
    && !anyNonzero (sliceBytes img (o + span) (bpBytes n - span))
    && risingBps ((List.range n).map fun i => getLE img (o + 8 + 4 * i) 4)
    && (List.range (n + 1)).all fun i => getLE img (o + 8 + 4 * n + i) 1 < 2 ^ fmtBits f

/-- No two of a list of ranges overlap. -/
def disjointRanges : List (Nat × Nat) → Bool
  | [] => true
  | (a, b) :: rs => rs.all (fun (a', b') => b ≤ a' || b' ≤ a) && disjointRanges rs

/-- A table image, cut to its own length, is well formed (R227, R228, R232, R233). -/
def imageOk (img : List Byte) : Bool :=
  let h := getLE img 0 64
  let red := thReduction h
  let generic := red = 0 || red = 5
  let fin := 64 + segCount h * (if thOrder h = 1 then 8 else 16)
  let bps := (List.range (thBpCount h)).map (thBpOffset h)
  64 ≤ img.length && img.length = thBytes h && thBytes h ≤ 12288 && thBytes h % 16 = 0
    && red ≤ 5 && (thOrder h = 1 || thOrder h = 2) && thK h ≤ 8 && fld h 468 464 = 0 && fld h 211 0 = 0
    && (if generic then thSym h ≤ 2 && 1 ≤ thECount h else thSym h = 0 && thECount h = 0)
    && (red != 5 || thSym h = 1) && thBpCount h ≤ 5 && (thBpCount h = 0 || red = 0)
    && segCount h ≤ 256 && thEMin h + thECount h ≤ 128 && fin ≤ img.length
    && (thOrder h = 1 || (List.range (segCount h)).all fun i => getLE img (64 + 16 * i + 12) 4 = 0)
    && ((List.range 5).drop (thBpCount h)).all (fun i => thBpOffset h i = 0)
    && bps.all (bpOk img fin)
    && disjointRanges (bps.map fun o => (o, o + bpBytes (fld (getLE img o 8) 59 51)))
    && (sortDedup (bps.map fun o => fld (getLE img o 8) 63 60)).length = bps.length

/-- The reduction kinds a table position may hold (R226). -/
def kindOk (pos red : Nat) : Bool :=
  match pos with
  | 0 => red = 1
  | 1 => red = 3
  | 2 => red = 4
  | 3 => red = 2
  | _ => red = 0 || red = 5

/-! ## The operations 0x40 to 0x49 -/

/-- An operation that looks every lane of source 0 up in a fixed position. -/
def lookupOp (op pos p : Nat) (f : Table → Val → Val) (c : Chip) : Chip :=
  vectorOp op 1 p (fun x c => (c.src0 x).map (f (c.table p pos))) c

def execExp2 (p : Nat) (s : State) : Out := onChip (.exp2 p) s (lookupOp 0x40 posExp p Table.exp2)
def execExp (p : Nat) (s : State) : Out := onChip (.exp p) s (lookupOp 0x41 posExp p Table.exp)
def execLog2 (p : Nat) (s : State) : Out := onChip (.log2 p) s (lookupOp 0x42 posLog p Table.log2)
def execLn (p : Nat) (s : State) : Out := onChip (.ln p) s (lookupOp 0x43 posLog p Table.ln)
def execRecip (p : Nat) (s : State) : Out := onChip (.recip p) s (lookupOp 0x44 posRecip p Table.recip)
def execRsqrt (p : Nat) (s : State) : Out := onChip (.rsqrt p) s (lookupOp 0x46 posRsqrt p Table.rsqrt)
def execSqrt (p : Nat) (s : State) : Out := onChip (.sqrt p) s (lookupOp 0x47 posRsqrt p Table.sqrt)

/-- round(a * recip(b)): two roundings (Table 6.1). -/
def execDiv (p : Nat) (s : State) : Out :=
  onChip (.div p) s (vectorOp 0x45 2 p fun x c => map2 (fun a b => mulF a ((c.table p posRecip).recip b)) x c)

/-- Codes written as they are, with what they add to the counters. -/
def Chip.writeConvs (c : Chip) (x : Ctx) (rs : List Conv) : Chip :=
  let c := c.putElems x.p (laneBankD x.i) (64 * laneAddrD x.i) (laneFmtD x.i) (rs.map (·.code))
  c.count x.j x.p (rs.foldl (fun n r => n + r.ovf) 0) (rs.foldl (fun n r => n + r.inv) 0)

/-- eval: the named position's function, by breakpoints where the image has them (R229, R234). -/
def execEval (p : Nat) (s : State) : Out :=
  onChip (.eval p) s fun c =>
    issueLane 0x48 (fun x => laneFoot 1 x.i) p (fun x c =>
      let t := c.table p (namedPos (x.const (laneConst x.i)))
      .done (c.writeConvs x ((c.src0 x).map (t.evalTo (laneFmtD x.i))))) c

/-- gauss of the 32-bit words of source 0 (R232). -/
def execGauss (p : Nat) (s : State) : Out :=
  onChip (.gauss p) s (vectorOp 0x49 1 p fun x c =>
    let t := c.table p (namedPos (x.const (laneConst x.i)))
    (c.elems p (laneBank0 x.i) (64 * laneAddr0 x.i) 0 (laneCount x.i)).map t.gauss)

/-! ## Table loads and swaps (R236 to R239) -/

/-- Where the images of a table section start: each on a 16-byte boundary after the one before. -/
def imageOffsets (bs : List Byte) : (fuel off : Nat) → List Nat
  | 0, _ => []
  | fuel + 1, off =>
    if bs.length < off + 64 then []
    else
      let n := thBytes (getLE bs off 64)
      if n < 64 then [off] else off :: imageOffsets bs fuel (roundUp (off + n) 16)

/-- Image `n` of the table section of a position; none where the section does not hold it. -/
def tableImage (cap : Capsule) (pos n : Nat) : Option (List Byte) :=
  let bs := sectionBytes cap secTable pos
  match (imageOffsets bs bs.length 0)[n]? with
  | some o => some ((bs.drop o).take (thBytes (getLE bs o 64)))
  | none => none

/-- table_load: the image starts to move into the shadow bank; a missing image fences with TABLE_IMAGE (R236). One waits
for an earlier load or swap of the same position (R238). -/
def tableLoad (p : Nat) (c : Chip) : Chip :=
  issueLane 0x4A (fun _ => Foot.none) p (fun x c =>
    let k := x.const (laneConst x.i)
    let pos := namedPos k
    if (c.tableLoads.any fun t => t.p = p && t.pos = pos) || x.ahead.any (fun k => k.swaps = some pos || k.loads = some pos)
    then .park none [] c
    else match tableImage x.cap pos (namedImage k) with
      | none => .raise stTableImage c
      | some img => .started { c with tableLoads := c.tableLoads ++
          [{ job := x.j, p := p, pos := pos, image := img, post := iPost x.i }] }) c

def execTableLoad (p : Nat) (s : State) : Out := onChip (.tableLoad p) s (tableLoad p)

/-- The image is complete: the shadow bank holds it and is full, and the table_load posts (R236, R239). -/
def tableLoadComplete (p pos : Nat) (c : Chip) : Chip :=
  match c.tableLoads.find? fun t => t.p = p && t.pos = pos with
  | none => c
  | some t =>
    let c := { c with tableLoads := c.tableLoads.filter fun t => !(t.p = p && t.pos = pos) }
    let c := c.writeTable (c.shadowKey p pos) t.image
    let c := c.updBead p fun b => { b with shadowFull := modAt b.shadowFull pos fun _ => true }
    c.postObj t.job p t.post

def execTableLoadComplete (p pos : Nat) (s : State) : Out :=
  onChip (.tableLoadComplete p pos) s (tableLoadComplete p pos)

/-- table_swap: it waits for every earlier load, swap and lookup of the position, then exchanges the banks when the shadow is
full (R237 to R239). -/
def tableSwap (p : Nat) (c : Chip) : Chip :=
  issue (isCtrl · 6) (fun _ => Foot.none) p (fun x c =>
    let pos := swapTable x.i
    if (c.tableLoads.any fun t => t.p = p && t.pos = pos)
        || x.ahead.any (fun k => k.swaps = some pos || k.loads = some pos || k.looks.contains pos) then .park none [] c
    else if (c.bead p).shadowFull.getD pos false then
      .done (c.updBead p fun b => { b with tabSel := modAt b.tabSel pos (!·) })
    else .done c) c

def execTableSwap (p : Nat) (s : State) : Out := onChip (.tableSwap p) s (tableSwap p)

end Sys2Proof.Machine
end

