-- ==== Sys2Proof/Machine/Random.lean ====
section
/-! DEFINITION. The random operations 0x30 to 0x34 of the LANE class (R344 to R355, Table 10.3). -/
namespace Sys2Proof.Machine

/-- rng_context: the draw context becomes the Bead's rounding context (R354). -/
def rngContext (p : Nat) (c : Chip) : Chip :=
  issueLane 0x30 (fun _ => Foot.none) p (fun x c =>
    .done (c.updRun p fun r => { r with ctx := some (x.const (laneConst x.i)) })) c

def execRngContext (p : Nat) (s : State) : Out := onChip (.rngContext p) s (rngContext p)

/-- The words of every lane under the draw context that the instruction names; lane n is at local position (0, n). -/
def laneWords (x : Ctx) (c : Chip) : List Nat :=
  (List.range (laneCount x.i)).map (c.word x (x.const (laneConst x.i)) 0)

/-- A draw whose FP32 result is narrowed to the destination format (R350). -/
def drawOp (op p : Nat) (f : Ctx → Chip → Nat → Val) (c : Chip) : Chip :=
  vectorOp op 0 p (fun x c => (laneWords x c).map (f x c)) c

/-- rand_bits: the words themselves (R350 0x31). -/
def randBits (p : Nat) (c : Chip) : Chip :=
  issueLane 0x31 (fun x => laneFoot 0 x.i) p (fun x c =>
    .done (c.putElems x.p (laneBankD x.i) (64 * laneAddrD x.i) (laneFmtD x.i) (laneWords x c))) c

def execRandBits (p : Nat) (s : State) : Out := onChip (.randBits p) s (randBits p)

/-- floor(w / 2^8) * 2^-24, in [0, 1). -/
def uniformV (w : Nat) : Val := .fin false (w / 2 ^ 8) (-24)
/-- (2 * floor(w / 2^9) + 1) * 2^-24, in (0, 1). -/
def uniformOpenV (w : Nat) : Val := .fin false (2 * (w / 2 ^ 9) + 1) (-24)

def execRandUniform (p : Nat) (s : State) : Out :=
  onChip (.randUniform p) s (drawOp 0x32 p fun _ _ => uniformV)
def execRandUniformOpen (p : Nat) (s : State) : Out :=
  onChip (.randUniformOpen p) s (drawOp 0x33 p fun _ _ => uniformOpenV)

/-- gauss of the word, from the context's table position (R350 0x34). -/
def execRandNormal (p : Nat) (s : State) : Out :=
  onChip (.randNormal p) s (drawOp 0x34 p fun x c => (c.table p (dcTable (x.const (laneConst x.i)))).gauss)

end Sys2Proof.Machine
end

