-- ==== Sys2Proof/Machine/Stats.lean ====
section
/-! DEFINITION. Row statistics: exact sums, the two-pass statistic, the single-pass Welford update and its merge, and the
partial records that carry them (R206, R207, R243 to R247, Table 5.6). -/
namespace Sys2Proof.Machine

/-- exp, recip and rsqrt of the special-function unit of Bead `p` (R226: positions 0, 1 and 2). -/
def Chip.expF (c : Chip) (p : Nat) (v : Val) : Val := (c.table p posExp).exp v
def Chip.recipF (c : Chip) (p : Nat) (v : Val) : Val := (c.table p posRecip).recip v
def Chip.rsqrtF (c : Chip) (p : Nat) (v : Val) : Val := (c.table p posRsqrt).rsqrt v

/-- recip(n) of a count. -/
def Chip.recipN (c : Chip) (p n : Nat) : Val := c.recipF p (natF n)

/-- The exact sum of a list; +0 of none. -/
def exactSum : List Val → Val
  | [] => .zero
  | v :: vs => vs.foldl Val.add v

/-- A pairwise sum of a list (R243). -/
def pairSum (vs : List Val) : Val := pairwise vs.length vs

/-- A statistic: its mean and its reciprocal deviation. -/
structure MeanDev where
  mu : Val
  r : Val
  deriving DecidableEq, Repr

/-- The two-pass statistic of a sequence with its deviations (R244). -/
def Chip.twoPass (c : Chip) (p : Nat) (eps : Val) (xs : List Val) : MeanDev :=
  let rn := c.recipN p xs.length
  let x0 := xs.headD .zero
  let mu := addF x0 (mulF (pairSum (xs.map (subF · x0))) rn)
  let v := Val.max .zero (mulF (pairSum (xs.map fun x => let e := subF x mu; mulF e e)) rn)
  { mu := mu, r := c.rsqrtF p (addF v eps) }

/-- r of RMS normalisation over a sequence (R248 0x51). -/
def Chip.rmsDev (c : Chip) (p : Nat) (eps : Val) (xs : List Val) : Val :=
  c.rsqrtF p (addF (mulF (pairSum (xs.map fun x => mulF x x)) (c.recipN p xs.length)) eps)

/-- State of a Welford update or a record of one (R245, Table 5.6). -/
structure Welford where
  n : Nat
  mu : Val
  m2 : Val
  deriving DecidableEq, Repr

def Welford.start : Welford := { n := 0, mu := .zero, m2 := .zero }

/-- One value of the single-pass update (R245). -/
def Chip.welfordStep (c : Chip) (p : Nat) (w : Welford) (x : Val) : Welford :=
  let n := w.n + 1
  if n = 1 then { n := 1, mu := x, m2 := .zero }
  else
    let d := subF x w.mu
    let mu := addF w.mu (mulF d (c.recipN p n))
    { n := n, mu := mu, m2 := addF w.m2 (mulF d (subF x mu)) }

def Chip.welford (c : Chip) (p : Nat) (xs : List Val) : Welford := xs.foldl (c.welfordStep p) .start

/-- The merge of a state with a record (R246). -/
def Chip.welfordMerge (c : Chip) (p : Nat) (a b : Welford) : Welford :=
  if b.n = 0 then a
  else if a.n = 0 then b
  else
    let n := a.n + b.n
    let rn := c.recipN p n
    let d := subF b.mu a.mu
    { n := n, mu := addF a.mu (mulF d (mulF (natF b.n) rn)),
      m2 := addF (addF a.m2 b.m2) (mulF (mulF d d) (mulF (natF (a.n * b.n)) rn)) }

/-- The variance of a state, clamped at +0 (R247). -/
def Chip.variance (c : Chip) (p : Nat) (w : Welford) : Val := Val.max .zero (mulF w.m2 (c.recipN p w.n))

/-! ## Records (Table 5.6) -/

/-- A partial record: s0, s1 and its count. -/
structure Partial where
  s0 : Val
  s1 : Val
  count : Nat
  deriving DecidableEq, Repr

def Partial.bytes (r : Partial) : List Byte := leBytes 16 (rnd r.s0 <<< 96 + rnd r.s1 <<< 64 + r.count <<< 48)
def Partial.ofWord (w : Nat) : Partial := { s0 := f32 (fld w 127 96), s1 := f32 (fld w 95 64), count := fld w 63 48 }
def Partial.welford (r : Partial) : Welford := { n := r.count, mu := r.s0, m2 := r.s1 }

/-- Record at byte `off` of bank `bank`. -/
def Chip.partialAt (c : Chip) (p bank off : Nat) : Partial := .ofWord (c.lockLE p bank off 16)

/-- The record of no value (R207). -/
def Partial.empty : Partial := { s0 := .inf true, s1 := .zero, count := 0 }

/-- The record of a Welford state (R207, R248 0x54). -/
def Partial.ofWelford (w : Welford) : Partial := if w.n = 0 then .empty else { s0 := w.mu, s1 := w.m2, count := w.n }

/-- The record of a tile's values by statistic kind: 1 RMS, 2 mean and variance, 3 soft maximum (R207). -/
def Chip.tileRecord (c : Chip) (p kind : Nat) (xs : List Val) : Partial :=
  if xs.isEmpty then .empty
  else match kind with
    | 1 => { s0 := rndV (exactSum (xs.map fun x => x.mul x)), s1 := .zero, count := xs.length }
    | 2 => .ofWelford (c.welford p xs)
    | _ =>
      let m := maxOf xs
      if m = .inf true then { Partial.empty with count := xs.length }
      else { s0 := m, s1 := rndV (exactSum (xs.map fun x => c.expF p (subF x m))), count := xs.length }

/-! ## Merging a row's records (R204) -/

/-- What completes a row: the statistic, and whether the reduction was empty. The maximum over no record is −∞ (Table 2.8). -/
def Chip.completeRow (c : Chip) (p kind : Nat) (eps : Val) (rs : List Partial) : MeanDev × Bool :=
  let rs := rs.filter (·.count != 0)
  let n := rs.foldl (fun a r => a + r.count) 0
  if n = 0 then ({ mu := .zero, r := .zero }, true)
  else match kind with
    | 1 =>
      let s := rs.foldl (fun a r => addF a r.s0) Val.zero
      ({ mu := .zero, r := c.rsqrtF p (addF (mulF s (c.recipN p n)) eps) }, false)
    | 2 =>
      let w := rs.foldl (fun a r => c.welfordMerge p a r.welford) .start
      ({ mu := w.mu, r := c.rsqrtF p (addF (c.variance p w) eps) }, false)
    | _ =>
      let mu := maxOf ((rs.filter (·.s0 != .inf true)).map (·.s0))
      let s := rs.foldl (fun a r => addF a (mulF r.s1 (c.expF p (subF r.s0 mu)))) Val.zero
      ({ mu := mu, r := c.recipF p s }, false)

/-- y of an apply by its kind (R204). -/
def Chip.applyY (c : Chip) (p kind : Nat) (st : MeanDev) (x : Val) : Val :=
  match kind with
  | 1 => mulF x st.r
  | 2 => mulF (subF x st.mu) st.r
  | _ => mulF (c.expF p (subF x st.mu)) st.r

end Sys2Proof.Machine
end

