-- ==== Sys2Proof/Machine/Matrix.lean ====
section
/-! DEFINITION. The matrix path: tiles, operand layouts, K steps, sparsity, edges, the gather and apply prologues, the epilogue,
MMA and the product chain (R157 to R211). -/
namespace Sys2Proof.Machine

/-! ## Edges (R171, R172) -/

/-- Valid count of a dimension of full size `d` by its dimension word (R172). -/
def dimValid (x : Ctx) (d w : Nat) : Nat :=
  if bit w 63 then
    let e := fld w 62 61
    let ext := if exKind (extentDecl x.cap e) = 0 then 0 else x.job.exts.getD e 0
    min (ext * fld w 47 32 - fld w 31 0) d
  else fld w 31 0

/-- The edge descriptor that a field names (Table 4.5). -/
def edgeWord (x : Ctx) (edge : Nat) : Nat := x.consts edge 2
def edgeM (x : Ctx) (edge d : Nat) : Nat := if edge = 0 then d else dimValid x d (fld (edgeWord x edge) 255 192)
def edgeN (x : Ctx) (edge d : Nat) : Nat := if edge = 0 then d else dimValid x d (fld (edgeWord x edge) 191 128)
def edgeK (x : Ctx) (edge d : Nat) : Nat := if edge = 0 then d else dimValid x d (fld (edgeWord x edge) 127 64)
/-- The pad value of an edge descriptor. -/
def edgePad (x : Ctx) (edge : Nat) : Val := if edge = 0 then .zero else f32 (fld (edgeWord x edge) 63 32)

/-! ## Products (R159 to R170) -/

/-- Rows and columns of a shape (Table 4.2). -/
def shapeM (s : Nat) : Nat := [128, 128, 256, 256, 128, 512, 256, 512, 128, 1024].getD s 128
def shapeN (s : Nat) : Nat := [128, 256, 128, 256, 512, 128, 512, 256, 1024, 128].getD s 128

/-- A product as an MMA or a kind 0 chain states it. -/
structure Product where
  fmtA : Nat
  fmtB : Nat
  signedA : Bool
  signedB : Bool
  sparse : Bool
  transA : Bool
  transB : Bool
  accumulate : Bool
  shape : Nat
  steps : Nat
  aAddr : Nat
  bAddr : Nat
  cAddr : Nat
  edge : Nat
  epilogue : Nat
  /-- rows that operand A's source holds: M, or the declared count of a gather -/
  rows : Nat
  deriving DecidableEq, Repr

/-- The product of an MMA body (Table 2.12). -/
def mmaProduct (i : Nat) : Product :=
  { fmtA := mmaFmtA i, fmtB := mmaFmtB i, signedA := mmaSignedA i, signedB := mmaSignedB i, sparse := mmaSparse i,
    transA := mmaTransA i, transB := mmaTransB i, accumulate := mmaAccumulate i, shape := mmaShape i,
    steps := mmaSteps i, aAddr := mmaAAddr i, bAddr := mmaBAddr i, cAddr := mmaCAddr i, edge := mmaEdge i,
    epilogue := mmaEpilogue i, rows := shapeM (mmaShape i) }

def Product.m (q : Product) : Nat := shapeM q.shape
def Product.n (q : Product) : Nat := shapeN q.shape
/-- Stored K positions of A, and K positions of B (R161). -/
def Product.kA (q : Product) : Nat := 32 * q.steps
def Product.kB (q : Product) : Nat := if q.sparse then 64 * q.steps else 32 * q.steps
/-- An integer pairing accumulates INT32 (R128). -/
def Product.isInt (q : Product) : Bool := isIntFmt q.fmtA

/-- Element `idx` of an operand of `total` elements, with its block's scale for an MX format (R122, R123). -/
def Chip.matElem (c : Chip) (p bank off f : Nat) (signed : Bool) (total idx : Nat) : Val :=
  let code := packedGet c.locket (lockKey p bank off) (fmtBits f) idx
  if isMx f then mxVal f (c.lockLE p bank (mxScaleOff off f total + idx / 32) 1) code else elemVal f signed code

/-- A(r, k): source row `r`, stored K position `k` (Table 4.3). -/
def Chip.elemA (c : Chip) (p : Nat) (q : Product) (r k : Nat) : Val :=
  c.matElem p 0 (64 * q.aAddr) q.fmtA q.signedA (q.rows * q.kA) (if q.transA then r * q.kA + k else k * q.rows + r)

/-- B(k, n) (Table 4.3). -/
def Chip.elemB (c : Chip) (p : Nat) (q : Product) (k n : Nat) : Val :=
  c.matElem p 1 (64 * q.bAddr) q.fmtB q.signedB (q.n * q.kB) (if q.transB then n * q.kB + k else k * q.n + n)

/-- Byte offset in bank 0 of the metadata of a sparse A, and the code of group `g` of row `r` (R168). -/
def Product.metaOff (q : Product) : Nat := roundUp (64 * q.aAddr + elemBytes q.fmtA (q.rows * q.kA)) 64
def Chip.metaCode (c : Chip) (p : Nat) (q : Product) (r g : Nat) : Nat :=
  packedGet c.locket (lockKey p 0 q.metaOff) 4 (r * (16 * q.steps) + g)

/-- The B position that stored value `k` of row `r` multiplies: its own, or the one its metadata names (R169, R170). -/
def Chip.posB (c : Chip) (p : Nat) (q : Product) (r kv k : Nat) : Nat :=
  if q.sparse then
    let g := k / 2
    let code := if 4 * g < kv then c.metaCode p q r g else 0
    4 * g + (if k % 2 = 0 then code % 4 else code / 4)
  else k

/-- Whether stored position `k` of A is read: it lies below the K edge (R174). -/
def Product.readsA (q : Product) (kv k : Nat) : Bool := if q.sparse then 4 * (k / 2) < kv else k < kv

/-- One row of A as it enters the arithmetic: each value with the B position it meets. -/
def Chip.rowA (c : Chip) (p : Nat) (q : Product) (kv r : Nat) (a : Nat → Val) : List (Val × Nat) :=
  (List.range q.kA).map fun k => (if q.readsA kv k then a k else .zero, c.posB p q r kv k)

/-- One column of B as it enters the arithmetic (R174). -/
def Chip.colB (c : Chip) (p : Nat) (q : Product) (kv n : Nat) : List Val :=
  (List.range q.kB).map fun k => if k < kv then c.elemB p q k n else .zero

/-- The exact products of a lane in K order (R163, R170). -/
def laneProducts (as : List (Val × Nat)) (bs : List Val) : List Val :=
  as.map fun (a, k) => a.mul (bs.getD k .zero)

/-- One K step of a floating pairing: 32 products and the accumulator summed exactly and rounded once (R163, R164). -/
def kStepF (acc : Val) (ps : List Val) : Val := rndV (ps.foldl Val.add acc)

/-- `n` K steps of a floating pairing. -/
def stepsF : Nat → Val → List Val → Val
  | 0, acc, _ => acc
  | n + 1, acc, ps => stepsF n (kStepF acc (ps.take 32)) (ps.drop 32)

/-- The integer that a value of an integer pairing is. -/
def Val.toInt : Val → Int
  | .fin s m e => scaledInt s m e 0
  | _ => 0

/-- One K step of an integer pairing: saturation to INT32, counted (R128, R165). -/
def kStepI (acc : Int × Nat) (ps : List Val) : Int × Nat :=
  let v := ps.foldl (fun a p => a + p.toInt) acc.1
  let w := max (-(2 ^ 31)) (min (2 ^ 31 - 1) v)
  (w, if v = w then acc.2 else acc.2 + 1)

def stepsI : Nat → Int × Nat → List Val → Int × Nat
  | 0, acc, _ => acc
  | n + 1, acc, ps => stepsI n (kStepI acc (ps.take 32)) (ps.drop 32)

/-- A finished accumulator lane: its 32-bit code and what it adds to the overflow counter. -/
structure Lane where
  m : Nat
  n : Nat
  code : Nat
  ovf : Nat
  deriving DecidableEq, Repr

/-- Byte offset in bank 2 of accumulator lane (m, n). -/
def accOff (cAddr cols m n : Nat) : Nat := 64 * cAddr + 4 * (m * cols + n)

/-- Where the accumulator of a product stands: in bank 2, or in the matrix unit, which forwards it (R185). -/
def Chip.accSource (c : Chip) (x : Ctx) (q : Product) : Mem :=
  if q.accumulate && q.shape = 0 then x.run.fwd.getD c.locket else c.locket

/-- A lane's accumulation, from C(m, n), which stands in `acc`, or from -0 (R163). -/
def accumulate (acc : Mem) (p : Nat) (q : Product) (m n : Nat) (ps : List Val) : Lane :=
  let old := acc.readLE (lockKey p 2 (accOff q.cAddr q.n m n)) 4
  if q.isInt then
    let (v, o) := stepsI q.steps (if q.accumulate then signedOf 32 old else 0, 0) ps
    ⟨m, n, codeOf 32 v, o⟩
  else ⟨m, n, rnd (stepsF q.steps (if q.accumulate then f32 old else .negZero) ps), 0⟩

/-- Every lane below the edges and not suppressed; `row m` is the source row of lane row `m`, none for an absent one, and
`a r k` operand A. -/
def Chip.product (c : Chip) (x : Ctx) (q : Product) (row : Nat → Option Nat) (a : Nat → Nat → Val) : List Lane :=
  let mv := edgeM x q.edge q.m
  let nv := edgeN x q.edge q.n
  let kv := edgeK x q.edge q.kB
  let cols := (List.range nv).map fun n => c.colB x.p q kv n
  let acc := c.accSource x q
  (List.range mv).flatMap fun m =>
    match row m with
    | none => []
    | some r =>
      let as := c.rowA x.p q kv r (a r)
      cols.zipIdx.map fun (bs, n) => accumulate acc x.p q m n (laneProducts as bs)

/-- The accumulator range of a memory written: the lanes, and +0 in every other one (R176). A product with no valid row or column
writes +0 in its whole range, as R176 says of every lane beyond the edge; Table 2.8 has it write nothing (assumption 92, DESIGN
CHOICE). -/
def accMem (mem : Mem) (p cAddr rows cols : Nat) (ls : List Lane) : Mem :=
  let k := lockKey p 2 (64 * cAddr)
  ls.foldl (fun mem l => mem.writeN (lockKey p 2 (accOff cAddr cols l.m l.n)) (leBytes 4 l.code))
    (mem.clear k (k + 4 * rows * cols))

/-- The accumulator is written to bank 2, or kept by the matrix unit for the next MMA (R185). -/
def Chip.writeAcc (c : Chip) (p : Nat) (forward : Bool) (cAddr rows cols : Nat) (ls : List Lane) : Chip :=
  if forward then c.updRun p fun r => { r with fwd := some (accMem [] p cAddr rows cols ls) }
  else { c with locket := accMem c.locket p cAddr rows cols ls }.updRun p fun r => { r with fwd := none }

/-! ## The epilogue (R186 to R197) -/

/-- An epilogue descriptor: four constant entries (Table 5.2). -/
def epiWord (x : Ctx) (e : Nat) : Nat := x.consts e 4

/-- Entries of each vector of the vector block, 0 for one that is not held, for an instruction of `m` × `n` whose output is
`mo` × `no` (R195). -/
def epiVecLens (e m n mo no : Nat) : List Nat :=
  let w := epConvert e
  let per (kind : Nat) : Nat := if kind = 1 then no else mo
  let aff := if epAffine e = 2 then n else if epAffine e = 3 then m else 0
  let norm := if epResident e then epHoldLen e else 0
  [aff, aff, if epGateBias e then n else 0, if epResidual e = 2 then n else 0, norm, norm,
   if cwScaleEn w && cwScaleKind w != 0 then per (cwScaleKind w) else 0,
   if cwBiasEn w && cwBiasKind w != 0 then per (cwBiasKind w) else 0]

/-- Byte offset in bank 3 of vector `k` of the block. -/
def epiVecOff (e : Nat) (lens : List Nat) (k : Nat) : Nat :=
  64 * epVecAddr e + (lens.take k).foldl (fun a n => a + roundUp (4 * n) 64) 0

/-- What an epilogue sees: Bead, descriptor, vector lengths and the output's rows and columns. -/
structure Epi where
  p : Nat
  e : Nat
  lens : List Nat
  rows : Nat
  cols : Nat
  deriving DecidableEq, Repr

/-- Entry `i` of vector `k`. -/
def Chip.epiVec (c : Chip) (o : Epi) (k i : Nat) : Val := c.vec3 o.p (epiVecOff o.e o.lens k) i

/-- round(v, w) of R192: to FP32, or one counted narrowing to sep_fmt. -/
def epiRound (e : Nat) (v : Val) : Val × Nat :=
  if epSep e then
    let r := narrow (epSepFmt e) 0 0 false false v
    (elemVal (epSepFmt e) true r.code, r.ovf)
  else (rndV v, 0)

/-- round(act(x), w) of R191 by Table 5.3. -/
def Chip.epiAct (c : Chip) (o : Epi) (x : Val) : Val × Nat :=
  match epActivation o.e with
  | 0 => (x, 0)
  | 1 => epiRound o.e (reluV x)
  | 2 => epiRound o.e (leakyV (epActParam o.e) x)
  | _ =>
    let t := c.table o.p (epTable o.e)
    if epSep o.e then
      let r := t.evalTo (epSepFmt o.e) x
      (elemVal (epSepFmt o.e) true r.code, r.ovf)
    else (t.generic x, 0)

/-- The steps of R191 before the statistic for one lane: the value and the saturations of sep_fmt. `acc` and `gacc` are the
accumulators, `resid` the residual element. An absent affine step leaves every accumulator value unchanged, an INT32 one too
(R129, R192; assumption 85, DEDUCED). Under sep_eq the residual step narrows its exact value once (R192; assumption 120, DEDUCED). -/
def Chip.epiLane (c : Chip) (o : Epi) (m n : Nat) (acc gacc resid : Val) : Val × Nat :=
  let e := o.e
  let (s, b) : Val × Val := match epAffine e with
    | 0 => (.one, .negZero)
    | 1 => (epAffScale e, epAffBias e)
    | 2 => (c.epiVec o 0 n, c.epiVec o 1 n)
    | _ => (c.epiVec o 0 m, c.epiVec o 1 m)
  let (x, o1) := if epAffine e = 0 && !epSep e then (acc, 0) else epiRound e ((acc.mul s).add b)
  let (x, o2) := c.epiAct o x
  let (x, o3) :=
    if epGate e then
      let (g, og) := epiRound e (gacc.add (if epGateBias e then c.epiVec o 2 n else .negZero))
      let (y, oy) := epiRound e (x.mul g)
      (y, og + oy)
    else (x, 0)
  let (x, o4) :=
    if epResidual e = 0 then (x, 0)
    else epiRound e (((if epResidual e = 2 then c.epiVec o 3 n else .one).mul x).add resid)
  (x, o1 + o2 + o3 + o4)

/-- Conversion of output element (m, n) (R133, R191). -/
def Chip.epiConv (c : Chip) (o : Epi) (m n : Nat) : ConvSpec :=
  let w := epConvert o.e
  let pick (kind vec : Nat) (scalar : Val) : Val :=
    match kind with
    | 0 => scalar
    | 1 => c.epiVec o vec n
    | _ => c.epiVec o vec m
  { word := w, const := epConvConst o.e, scale := pick (cwScaleKind w) 6 (ccScale (epConvConst o.e)),
    bias := pick (cwBiasKind w) 7 (ccBias (epConvConst o.e)) }

/-- Byte offset of output row `m`, and of its first scale (R196). -/
def epiRowOff (o : Epi) (m : Nat) : Nat := 64 * epOutAddr o.e + 16 * m * epOutPitch o.e
def epiScaleOff (o : Epi) (m : Nat) : Nat := roundUp (epiRowOff o o.rows) 64 + m * (o.cols / 32)

/-- Output row `m` converted and written, values in ascending columns from 0 (R150, R191, R196). -/
def Chip.epiWriteRow (c : Chip) (x : Ctx) (o : Epi) (m : Nat) (vs : List Val) : Chip :=
  let w := epConvert o.e
  let f := cwTarget w
  let nib := c.nibble x m
  if isMx f then
    c.putBlocks x.j o.p (epOutBank o.e) (epiRowOff o m) f (cwRounding w) (epiScaleOff o m) nib
      (vs.zipIdx.map fun (v, n) => convStage (c.epiConv o m n) v)
  else
    let rs := vs.zipIdx.map fun (v, n) => convert (c.epiConv o m n) (if cwRounding w = 2 then nib n else 0) v
    let c := c.putElems o.p (epOutBank o.e) (epiRowOff o m) f (rs.map (·.code))
    c.count x.j o.p (rs.foldl (fun a r => a + r.ovf) 0) (rs.foldl (fun a r => a + r.inv) 0)

/-- Values of the first `n` output elements of row `m` as written (R207: widened exactly). -/
def Chip.epiReadRow (c : Chip) (o : Epi) (m n : Nat) : List Val :=
  let f := cwTarget (epConvert o.e)
  (c.elems o.p (epOutBank o.e) (epiRowOff o m) f n).zipIdx.map fun (code, i) =>
    if isMx f then mxVal f (c.lockLE o.p (epOutBank o.e) (epiScaleOff o m + i / 32) 1) code
    else elemVal f (cwSigned (epConvert o.e)) code

/-- The deferred records of row `m`: one for each subtile column of the instruction (R206). With n_valid 0 each valid row has its records,
of count 0 (assumption 119, DESIGN CHOICE: R206 and R207 against Table 2.8). -/
def Chip.epiRecords (c : Chip) (o : Epi) (m nv : Nat) : Chip :=
  if epStat o.e = 0 || epResident o.e then c
  else
    let vs := c.epiReadRow o m nv
    let s := o.cols / 128
    (List.range s).foldl (fun c' j =>
      let r := c.tileRecord o.p (epStat o.e) ((vs.drop (128 * j)).take 128)
      c'.lockWrite o.p 3 (64 * epStatAddr o.e + 16 * (m * s + j)) r.bytes) c

/-- Row `m` of the hold, stored from column `col` (R210). -/
def Chip.holdRow (c : Chip) (o : Epi) (m col : Nat) (vs : List Val) : Chip :=
  c.lockWrite o.p 2 (64 * epHoldAddr o.e + 4 * (m * epHoldLen o.e + col)) (vs.flatMap fun v => leBytes 4 (rnd v))

/-- A held row completed and written (R210). -/
def Chip.completeHeld (c : Chip) (x : Ctx) (o : Epi) (m : Nat) : Chip :=
  let n := epHoldLen o.e
  let xs := (List.range n).map fun i => f32 (c.lockLE o.p 2 (64 * epHoldAddr o.e + 4 * (m * n + i)) 4)
  let st : MeanDev := if epStat o.e = 4 then { mu := .zero, r := c.rmsDev o.p (epEps o.e) xs }
    else c.twoPass o.p (epEps o.e) xs
  let kind := if epStat o.e = 4 then 1 else 2
  c.epiWriteRow x o m (xs.zipIdx.map fun (v, i) => fmaF (c.applyY o.p kind st v) (c.epiVec o 4 i) (c.epiVec o 5 i))

/-- A whole epilogue over finished lanes of an `m` × `n` instruction with accumulator at `cAddr`: the values of R191 in each
row, then its output and records, or its place in the hold. `lanes` are the accumulator values by row. -/
def Chip.epilogue (c : Chip) (x : Ctx) (e : Nat) (m n : Nat) (holdCol : Nat) (last : Bool)
    (lanes : List (Nat × List Val)) : Chip :=
  let w := epiWord x e
  let res := epResident w
  let (mo, no) := if res then (epHoldRows w, epHoldLen w) else (m, n)
  let o : Epi := { p := x.p, e := w, lens := epiVecLens w m n mo no, rows := mo, cols := no }
  let c := lanes.foldl (fun c' (r, accs) =>
    let rs := accs.zipIdx.map fun (acc, k) =>
      c.epiLane o r k acc (if epGate w then f32 (c.lockLE x.p 2 (accOff (epGateAddr w) n r k) 4) else .zero)
        (if epResidual w = 0 then .zero
         else c.matElem x.p 3 (64 * epResidAddr w) (epResidFmt w) true (m * n) (r * n + k))
    let vs := rs.map (·.1)
    let c' := c'.count x.j x.p (rs.foldl (fun a r => a + r.2) 0) 0
    if res then c'.holdRow o r (128 * holdCol) vs
    else (c'.epiWriteRow x o r vs).epiRecords o r vs.length) c
  if res && last then (lanes.filter (·.1 < mo)).foldl (fun c' r => c'.completeHeld x o r.1) c else c

/-- Whether the epilogue needs a rounding context that the Bead does not have (R355). -/
def Ctx.epiNoContext (x : Ctx) (e : Nat) (last : Bool) : Bool :=
  e != 0 && (let w := epiWord x e
    (!epResident w || last) && x.noContext (epConvert w))

/-- The lanes of a product by row, as the values that its accumulators hold; `rows` are the rows below the edge that are
not suppressed. -/
def laneRows (q : Product) (rows : List Nat) (ls : List Lane) : List (Nat × List Val) :=
  rows.map fun m =>
    (m, (ls.filter (·.m = m)).map fun l => if q.isInt then intVal (signedOf 32 l.code) else f32 l.code)

/-- A product in its place: the accumulator range is written or forwarded, saturations count, the epilogue runs (R160, R176,
R185, R189). -/
def Chip.runProduct (c : Chip) (x : Ctx) (q : Product) (forward : Bool) (row : Nat → Option Nat) (a : Nat → Nat → Val)
    (holdCol : Nat) (last : Bool) : Chip :=
  let ls := c.product x q row a
  let rows := (List.range (edgeM x q.edge q.m)).filter fun m => (row m).isSome
  let c := c.writeAcc x.p forward q.cAddr q.m q.n ls
  let c := c.count x.j x.p (ls.foldl (fun s l => s + l.ovf) 0) 0
  if q.epilogue = 0 then c else c.epilogue x q.epilogue q.m q.n holdCol last (laneRows q rows ls)

/-! ## Ranges of a product (R90, R372) -/

/-- Ranges of operand A with its metadata, and of operand B. -/
def Product.rangeA (q : Product) : LockRange :=
  let n := operandBytes q.fmtA (q.rows * q.kA)
  ⟨0, 64 * q.aAddr, if q.sparse then roundUp n 64 + q.rows * (8 * q.steps) else n⟩
def Product.rangeB (q : Product) : LockRange := ⟨1, 64 * q.bAddr, operandBytes q.fmtB (q.n * q.kB)⟩

/-- Bytes from the first to the last of `m` rows of `n` elements that lie `pitch` bytes apart, with the scales that follow
the rows of an MX format (R196). -/
def rowSpan (f m n pitch : Nat) : Nat :=
  let rows := if m = 0 then 0 else (m - 1) * pitch + elemBytes f n
  if isMx f then max rows (roundUp (m * pitch) 64 + m * ceilDiv n 32) else rows

/-- Ranges an epilogue of an `m` × `n` instruction reads and writes. -/
def epiFoot (x : Ctx) (e m n : Nat) : Foot :=
  if e = 0 then .none
  else
    let w := epiWord x e
    let res := epResident w
    let (mo, no) := if res then (epHoldRows w, epHoldLen w) else (m, n)
    let f := cwTarget (epConvert w)
    let lens := epiVecLens w m n mo no
    let vecs := epiVecOff w lens 8 - 64 * epVecAddr w
    { reads := [⟨3, 64 * epVecAddr w, vecs⟩]
        ++ (if epGate w then [⟨2, 64 * epGateAddr w, 4 * m * n⟩] else [])
        ++ (if epResidual w = 0 then [] else [⟨3, 64 * epResidAddr w, elemBytes (epResidFmt w) (m * n)⟩]),
      writes := ⟨epOutBank w, 64 * epOutAddr w, rowSpan f mo no (16 * epOutPitch w)⟩
        :: ((if epStat w = 0 || res then [] else [⟨3, 64 * epStatAddr w, 16 * m * (n / 128)⟩])
          ++ (if res then [⟨2, 64 * epHoldAddr w, 4 * epHoldRows w * epHoldLen w⟩] else [])) }

/-- Ranges of a product with its epilogue. -/
def productFoot (x : Ctx) (q : Product) : Foot :=
  let acc : LockRange := ⟨2, 64 * q.cAddr, 4 * q.m * q.n⟩
  let e := epiFoot x q.epilogue q.m q.n
  { reads := [q.rangeA, q.rangeB] ++ (if q.accumulate then [acc] else []) ++ e.reads, writes := acc :: e.writes }

/-! ## What a product accesses below its edges (R174, R176) -/

/-- Bytes of `n` elements of `bits` bits from element `i` of an operand at byte `off` of a bank. -/
def bitRange (bank off bits i n : Nat) : LockRange :=
  let a := bits * i / 8
  ⟨bank, off + a, if n = 0 then 0 else ceilDiv (bits * (i + n)) 8 - a⟩

/-- The rows of a run (first, count). -/
def runRows (s : Nat × Nat) : List Nat := (List.range s.2).map (s.1 + ·)

/-- What a product reads of operand A in format `f`: its source rows come in runs, each K position below the edge; a sparse group
is read whole, with its metadata (R174). -/
def Product.liveA (q : Product) (f : Nat) (runs : List (Nat × Nat)) (kv : Nat) : List LockRange :=
  let ks := min q.kA (if q.sparse then 2 * ceilDiv kv 4 else kv)
  let off := 64 * q.aAddr
  let b := fmtBits f
  let rows := runs.flatMap runRows
  (if q.transA then rows.map fun r => bitRange 0 off b (r * q.kA) ks
    else (List.range ks).flatMap fun k => runs.map fun s => bitRange 0 off b (k * q.rows + s.1) s.2)
    ++ (if isMx f then rows.map fun r => ⟨0, mxScaleOff off f (q.rows * q.kA) + r * q.kA / 32, ceilDiv ks 32⟩ else [])
    ++ (if q.sparse then rows.map fun r => bitRange 0 q.metaOff 4 (r * (16 * q.steps)) (ceilDiv kv 4) else [])

/-- What a product reads of operand B: columns and K positions below the edges (R174). -/
def Product.liveB (q : Product) (nv kv : Nat) : List LockRange :=
  let off := 64 * q.bAddr
  let b := fmtBits q.fmtB
  (if q.transB then (List.range nv).map fun n => bitRange 1 off b (n * q.kB) kv
    else (List.range kv).map fun k => bitRange 1 off b (k * q.n) nv)
    ++ (if isMx q.fmtB then (List.range nv).map fun n => ⟨1, mxScaleOff off q.fmtB (q.n * q.kB) + n * q.kB / 32, ceilDiv kv 32⟩
        else [])

/-- Accumulator lanes of the rows named, up to column `nv`. -/
def accRows (cAddr cols nv : Nat) (rows : List Nat) : List LockRange :=
  rows.map fun m => ⟨2, accOff cAddr cols m 0, 4 * nv⟩

/-- What an epilogue of an `m` × `n` instruction accesses for the rows named, up to column `nv`: vectors, gate and residual, its
output, records and hold (R176, R191, R195, R206, R210). -/
def epiLive (x : Ctx) (e m n : Nat) (rows : List Nat) (nv holdCol : Nat) (last : Bool) : Foot :=
  if e = 0 then .none
  else
    let w := epiWord x e
    let res := epResident w
    let (mo, no) := if res then (epHoldRows w, epHoldLen w) else (m, n)
    let o : Epi := { p := x.p, e := w, lens := epiVecLens w m n mo no, rows := mo, cols := no }
    let word := epConvert w
    let f := cwTarget word
    let out := if res then (if last then rows.filter (· < mo) else []) else rows
    let cols := if res then no else nv
    let byCol (k n : Nat) : List LockRange := [⟨3, epiVecOff w o.lens k, 4 * n⟩]
    let byRow (k : Nat) (rs : List Nat) : List LockRange := rs.map fun r => ⟨3, epiVecOff w o.lens k + 4 * r, 4⟩
    let conv (en : Bool) (kind k : Nat) : List LockRange :=
      if !en || kind = 0 || out.isEmpty then [] else if kind = 1 then byCol k cols else byRow k out
    { reads :=
        (match epAffine w with
          | 2 => byCol 0 nv ++ byCol 1 nv
          | 3 => byRow 0 rows ++ byRow 1 rows
          | _ => [])
        ++ (if epGate w then accRows (epGateAddr w) n nv rows else [])
        ++ (if epGateBias w then byCol 2 nv else [])
        ++ (if epResidual w = 0 then []
            else rows.map fun r => bitRange 3 (64 * epResidAddr w) (fmtBits (epResidFmt w)) (r * n) nv)
        ++ (if epResidual w = 2 then byCol 3 nv else [])
        ++ (if res && !out.isEmpty then byCol 4 no ++ byCol 5 no ++ accRows (epHoldAddr w) no no out else [])
        ++ conv (cwScaleEn word) (cwScaleKind word) 6 ++ conv (cwBiasEn word) (cwBiasKind word) 7,
      writes :=
        (out.map fun r => ⟨epOutBank w, epiRowOff o r, elemBytes f cols⟩)
        ++ (if isMx f then out.map fun r => ⟨epOutBank w, epiScaleOff o r, ceilDiv cols 32⟩ else [])
        ++ (if epStat w = 0 || res then [] else rows.map fun r => ⟨3, 64 * epStatAddr w + 16 * r * (n / 128), 16 * (n / 128)⟩)
        ++ (if res then rows.map fun r => ⟨2, accOff (epHoldAddr w) no r (128 * holdCol), 4 * nv⟩ else []) }

/-- What a product accesses: the source rows of operand A in runs, in format `f`, and the lane rows that are not suppressed. One
without a valid column reads no operand (R78). -/
def productLive (x : Ctx) (q : Product) (f : Nat) (runs : List (Nat × Nat)) (rows : List Nat) (holdCol : Nat) (last : Bool) :
    Foot :=
  let nv := edgeN x q.edge q.n
  let kv := edgeK x q.edge q.kB
  let e := epiLive x q.epilogue q.m q.n rows nv holdCol last
  let old := q.accumulate && !(q.shape = 0 && x.run.fwd.isSome)
  { reads := (if nv = 0 || rows.isEmpty then [] else q.liveA f runs kv ++ q.liveB nv kv)
      ++ (if old then accRows q.cAddr q.n nv rows else []) ++ e.reads,
    writes := ⟨2, 64 * q.cAddr, 4 * q.m * q.n⟩ :: e.writes }

/-- What a product of consecutive rows accesses. -/
def plainLive (x : Ctx) (q : Product) (holdCol : Nat) (last : Bool) : Foot :=
  let mv := edgeM x q.edge q.m
  productLive x q q.fmtA [(0, mv)] (List.range mv) holdCol last

/-! ## Chains: the descriptor and the product chain (R186 to R205) -/

/-- A chain descriptor: two constant entries (Table 5.5). -/
def chainWord (x : Ctx) : Nat := x.consts (chDesc x.i) 2
/-- Whether an instruction is a chain of a kind. -/
def isChain (kind : Nat) (x : Ctx) : Bool := iClass x.i = 5 && cdKind (chainWord x) = kind

/-- The product that a chain states (R200). -/
def chainProductOf (x : Ctx) : Product :=
  let d := chainWord x
  let i := x.i
  { fmtA := cdFmtA d, fmtB := cdFmtB d, signedA := bit d 243, signedB := bit d 242, sparse := bit d 241,
    transA := bit d 240, transB := bit d 239, accumulate := bit d 238, shape := cdShape d, steps := cdSteps d,
    aAddr := chAAddr i, bAddr := chBAddr i, cAddr := chCAddr i, edge := chEdge i, epilogue := chEpilogue i,
    rows := if cdPrologue d = 1 then cdSrcRows d else shapeM (cdShape d) }

/-- Entry `m` of the gather list in bank 3 (R177, R201). -/
def Chip.gatherEntry (c : Chip) (x : Ctx) (m : Nat) : Nat := c.lockLE x.p 3 (64 * chXAddr x.i + 4 * m) 4

/-- The source row of lane row `m`; none for an absent one (R177). -/
def Chip.gatherRow (c : Chip) (x : Ctx) (m : Nat) : Option Nat :=
  let e := c.gatherEntry x m
  if e = u32max then none else some e

/-- Whether an entry of a valid lane row names no row of the source (R177). -/
def Chip.gatherBad (c : Chip) (x : Ctx) (q : Product) : Bool :=
  (List.range (edgeM x q.edge q.m)).any fun m =>
    match c.gatherRow x m with
    | some r => q.rows ≤ r
    | none => false

/-- Byte offset of row `m`'s completed statistics, and of its record `t` (R203). -/
def statOff (x : Ctx) (m : Nat) : Nat := 64 * chXAddr x.i + 8 * m
def recordOff (x : Ctx) (parts m t : Nat) : Nat := 64 * chXAddr x.i + 1024 + 16 * (m * parts + t)

/-- The statistic of every valid row is completed and stored (R203, R204). R204 gives no mean for the RMS kind: those bytes
are free (assumption 21, DEDUCED). -/
def Chip.completeStats (c : Chip) (x : Ctx) (d mv : Nat) : Chip :=
  (List.range mv).foldl (fun c m =>
    let rs := (List.range (cdParts d)).map fun t => c.partialAt x.p 3 (recordOff x (cdParts d) m t)
    let (st, empty) := c.completeRow x.p (cdApplyKind d) (cdParam d) rs
    let (mu, c) := if cdApplyKind d = 1 && !empty then c.freeBytes 4 else (leBytes 4 (rnd st.mu), c)
    let c := c.lockWrite x.p 3 (statOff x m) (mu ++ leBytes 4 (rnd st.r))
    if empty then c.setFlag x.j x.p flEmptyReduction else c) c

/-- K positions of the whole source row of an apply: one record for each 128 columns (R203, R208, assumption 22, DEDUCED). -/
def applyLen (d : Nat) : Nat := 128 * cdParts d

/-- Operand A element (m, k) of an apply, narrowed to fmt_a, with what it counts (R204). -/
def Chip.applyA (c : Chip) (x : Ctx) (d : Nat) (q : Product) (m k : Nat) : Conv :=
  let st : MeanDev := { mu := f32 (c.lockLE x.p 3 (statOff x m) 4), r := f32 (c.lockLE x.p 3 (statOff x m + 4) 4) }
  let v := c.matElem x.p 0 (64 * q.aAddr) (cdSrcFmt d) true (q.m * q.kA) (m * q.kA + k)
  let y := c.applyY x.p (cdApplyKind d) st v
  let kk := 32 * chKOrigin x.i + k
  let y :=
    if cdApplyAffine d then
      let w := 64 * cdVec d
      fmaF y (c.vec3 x.p w kk) (c.vec3 x.p (w + 4 * applyLen d) kk)
    else y
  narrow q.fmtA 0 0 false true y

/-- Ranges of the prologue of a product chain, beyond operand A. -/
def prologueFoot (x : Ctx) (q : Product) : Foot :=
  let d := chainWord x
  match cdPrologue d with
  | 1 => { reads := [⟨3, 64 * chXAddr x.i, 4 * edgeM x q.edge q.m⟩], writes := [] }
  | 2 =>
    let stats : LockRange := ⟨3, 64 * chXAddr x.i, 8 * q.m⟩
    if chComplete x.i then
      { reads := [stats, ⟨3, 64 * chXAddr x.i + 1024, 16 * q.m * cdParts d⟩], writes := [stats] }
    else { reads := [stats], writes := [] }
  | _ => .none

/-- Ranges of a product chain: under an apply the source of operand A is in src_fmt (R202). -/
def chainProductFoot (x : Ctx) : Foot :=
  let d := chainWord x
  let q := chainProductOf x
  let f := productFoot x q
  let pr := prologueFoot x q
  let a : LockRange := if cdPrologue d = 2 then ⟨0, 64 * q.aAddr, elemBytes (cdSrcFmt d) (q.m * q.kA)⟩ else q.rangeA
  { reads := (a :: f.reads.drop 1) ++ pr.reads, writes := f.writes ++ pr.writes }

/-- What a product chain accesses: its operands and epilogue below the edges, with what its prologue reads and writes. -/
def chainLive (c : Chip) (x : Ctx) : Foot :=
  let d := chainWord x
  let q := chainProductOf x
  let mv := edgeM x q.edge q.m
  let hold := chHoldCol x.i
  let last := chLast x.i
  match cdPrologue d with
  | 1 =>
    let live := (List.range mv).filter fun m => (c.gatherRow x m).isSome
    let rows := live.filterMap fun m => (c.gatherRow x m).filter (· < q.rows)
    let f := productLive x q q.fmtA (rows.map fun r => (r, 1)) live hold last
    { f with reads := f.reads ++ [⟨3, 64 * chXAddr x.i, 4 * mv⟩] }
  | 2 =>
    let f := productLive x q (cdSrcFmt d) [(0, mv)] (List.range mv) hold last
    let stats : LockRange := ⟨3, 64 * chXAddr x.i, 8 * mv⟩
    let w := 64 * cdVec d
    let k0 := 32 * chKOrigin x.i
    let kn := 4 * min q.kA (edgeK x q.edge q.kB)
    let affine : List LockRange :=
      if cdApplyAffine d then [⟨3, w + 4 * k0, kn⟩, ⟨3, w + 4 * applyLen d + 4 * k0, kn⟩] else []
    if chComplete x.i then
      { reads := f.reads ++ affine ++ [⟨3, 64 * chXAddr x.i + 1024, 16 * mv * cdParts d⟩], writes := f.writes ++ [stats] }
    else { f with reads := f.reads ++ affine ++ [stats] }
  | _ => plainLive x q hold last

end Sys2Proof.Machine
end

