-- ==== Sys2Proof/Machine/Attention.lean ====
section
/-! DEFINITION. Chains fed by rings of slots: attention, its masks, the score pass and the MLP chain (R212 to R217, R263,
R269, R285 to R288). A chain takes the blocks that its rings hold, keeps how many it has done, and is in
progress until its last block (R683). -/
namespace Sys2Proof.Machine

/-! ## Masks (R285 to R287, Table 7.14) -/

def mkKind (w : Nat) : Nat := fld w 255 252
def mkScore (w : Nat) : Bool := bit w 251
def mkBitmapEn (w : Nat) : Bool := bit w 250
def mkHeaders (w : Nat) : Bool := bit w 249
def mkBitmap (w : Nat) : Nat := fld w 239 224
def mkWindow (w : Nat) : Nat := fld w 223 192
def mkFrame (w : Nat) : Nat := fld w 191 160
def mkQpos (w : Nat) : Nat := fld w 159 147
def mkScoreAddr (w : Nat) : Nat := fld w 146 134

/-- A mask descriptor; all zeros, which masks nothing, where there is none. -/
def maskWord (x : Ctx) (n : Nat) : Nat := if n = 0 then 0 else x.consts n 2

/-- Bit `j` of the block bitmap (R287). -/
def blockBit (x : Ctx) (mask j : Nat) : Bool :=
  !mkBitmapEn mask || bit (x.const (mkBitmap mask + j / 128)) (j % 128)

/-- The `n`-th index from `j` up that a test picks; `fuel` bounds the search. -/
def nthIndex (f : Nat → Bool) : (fuel j n : Nat) → Nat
  | 0, j, _ => j
  | fuel + 1, j, n => if f j then (if n = 0 then j else nthIndex f fuel (j + 1) (n - 1)) else nthIndex f fuel (j + 1) n

/-- The index of the `n`-th delivered block (R287). -/
def blockIndex (x : Ctx) (mask n : Nat) : Nat := if mkBitmapEn mask then nthIndex (blockBit x mask) 65536 0 n else n

/-- Fields of a key block header (Table 7.10). -/
def kbBase (h : Nat) : Nat := fld h 511 480
def kbRecord (h : Nat) : Nat := fld h 479 468
def kbHop (h : Nat) : Nat := fld h 454 442
def kbFmt (h : Nat) : Nat := fld h 441 438
def kbValid (h c : Nat) : Bool := bit h c

/-- Position of key `c` of block `j` (R286). -/
def keyPos (mask hdr j c : Nat) : Nat :=
  if mkHeaders mask then (kbBase hdr + c) % 2 ^ 32 else (128 * j + c) % 2 ^ 32

/-- Whether key `c` of block `j` is masked for a query at position `q` (R286). -/
def masked (mask hdr j c q : Nat) : Bool :=
  let p := keyPos mask hdr j c
  (mkHeaders mask && !kbValid hdr c)
    || (match mkKind mask with
        | 1 => q < p
        | 2 => q < p || mkWindow mask ≤ q - p
        | 3 => q / mkFrame mask < p / mkFrame mask
        | _ => false)

/-! ## Blocks (R212, R263) -/

/-- The head dimension of an attention chain. -/
def headDim (d : Nat) : Nat := 32 * cdSteps d

/-- Columns of O: at least one full subtile (R212). -/
def oCols (d : Nat) : Nat := max 128 (headDim d)

/-- Byte offset in bank 2 of the score subtile. -/
def scoreOff (x : Ctx) (d : Nat) : Nat := 64 * chCAddr x.i + 512 * oCols d

/-- Byte offset in bank 3 of m of row `i`; l lies 4 bytes above it (R212). -/
def mlOff (x : Ctx) (i : Nat) : Nat := 64 * chXAddr x.i + 8 * i

/-- Ring slot `n` of a ring. -/
def ringSlot (first len n : Nat) : Nat := first + n % (max 1 len)

/-- The slot's range, when the object is a FULL slot. -/
def Chip.fullSlot (c : Chip) (p obj : Nat) : Option SyncObj :=
  match c.obj? p obj with
  | some o => match o.val with
    | .slot .full _ => some o
    | _ => none
  | none => none

/-- Byte offset of the header of a key block within its slot (R263). -/
def headerOff (f hd : Nat) : Nat := roundUp (elemBytes f (128 * hd)) 64

/-- The header of the key block in a slot, when the mask says there is one. -/
def Chip.keyHeader (c : Chip) (x : Ctx) (mask d : Nat) (o : SyncObj) : Nat :=
  if mkHeaders mask then c.lockLE x.p o.bank (o.off + headerOff (cdFmtA d) (headDim d)) 64 else 0

/-- Whether the chain cannot read the block: its format is not the chain's (R269). -/
def headerBad (mask d hdr : Nat) : Bool := mkHeaders mask && kbFmt hdr != cdFmtA d

/-- The scores S of one query row against the 128 keys of a slot (R213): Q is 128 rows by the head dimension, K fastest. -/
def Chip.scoreRow (c : Chip) (x : Ctx) (d kv : Nat) (o : SyncObj) (i : Nat) : List Val :=
  let hd := headDim d
  let f := cdFmtA d
  let q := (List.range hd).map fun k =>
    if k < kv then c.matElem x.p 0 (64 * chAAddr x.i) f (bit d 243) (128 * hd) (i * hd + k) else .zero
  (List.range 128).map fun key =>
    let ks := (List.range hd).map fun k =>
      if k < kv then c.matElem x.p o.bank o.off f (bit d 242) (128 * hd) (key * hd + k) else .zero
    stepsF (cdSteps d) .negZero (List.zipWith Val.mul q ks)

/-- What a block is for one query row: whether each of its keys counts (R212, R286). -/
def Chip.keysSeen (c : Chip) (x : Ctx) (mask hdr j i : Nat) : List Bool :=
  let d := chainWord x
  let q := if mkKind mask = 0 then 0 else c.lockLE x.p 3 (64 * mkQpos mask + 4 * i) 4
  let valid (key : Nat) : Bool := chEdge x.i = 0 || 128 * j + key < edgeN x (chEdge x.i) (128 * cdBlocks d)
  (List.range 128).map fun key => valid key && !masked mask hdr j key q

/-- s(c) of R213. -/
def rowScores (param : Val) (ss : List Val) (seen : List Bool) : List Val :=
  List.zipWith (fun s ok => if ok then mulF s param else Val.inf true) ss seen

/-- The score subtile holds a row's scores. -/
def Chip.putScores (c : Chip) (x : Ctx) (off i : Nat) (ss : List Val) : Chip :=
  c.lockWrite x.p 2 (off + 512 * i) (ss.flatMap fun s => leBytes 4 (rnd s))

/-- A range of a bank cleared to zeros. -/
def Chip.lockClear (c : Chip) (p bank off len : Nat) : Chip :=
  { c with locket := c.locket.clear (lockKey p bank off) (lockKey p bank off + len) }

/-- Value element (key, e) of a value slot: head dimension fastest. -/
def Chip.valueElem (c : Chip) (x : Ctx) (d : Nat) (o : SyncObj) (key e : Nat) : Val :=
  c.matElem x.p o.bank o.off (cdFmtB d) (bit d 242) (128 * headDim d) (key * headDim d + e)

/-- The four K steps of P × V on one output lane; the first rescales the accumulator by cr (R214). -/
def pvSteps (acc cr : Val) (ps : List Val) : Val :=
  stepsF 3 (kStepF (mulF acc cr) (ps.take 32)) (ps.drop 32)

/-- One key and value block for query row `i` (R213): scores, running maximum and sum, P, and the output lanes. -/
def Chip.attendRow (c0 c : Chip) (x : Ctx) (d mask j hdr kv : Nat) (ko vo : SyncObj) (i : Nat) : Chip :=
  let ss := c0.scoreRow x d kv ko i
  let s := rowScores (cdParam d) ss (c0.keysSeen x mask hdr j i)
  let m := f32 (c0.lockLE x.p 3 (mlOff x i) 4)
  let l := f32 (c0.lockLE x.p 3 (mlOff x i + 4) 4)
  let mn := s.foldl Val.max m
  let none_ := mn = Val.inf true
  let cr := if none_ then Val.one else c0.expF x.p (subF m mn)
  let ps := s.map fun v => if none_ then ⟨0, 0, 0⟩ else narrow (cdFmtP d) 0 0 false true (c0.expF x.p (subF v mn))
  let pv := ps.map fun r => elemVal (cdFmtP d) true r.code
  let l' := rndV ((mulF l cr).add (exactSum pv))
  let c := c.putScores x (scoreOff x d) i ss
  let c := ps.zipIdx.foldl (fun c (r, k) => c.putElem x.p 0 (64 * cdPAddr d) (cdFmtP d) (128 * i + k) r.code) c
  let c := c.count x.j x.p (ps.foldl (fun a r => a + r.ovf) 0) (ps.foldl (fun a r => a + r.inv) 0)
  let c := (List.range (headDim d)).foldl (fun c e =>
    let off := accOff (chCAddr x.i) (oCols d) i e
    let vs := (List.range 128).map fun key => c0.valueElem x d vo key e
    c.lockWrite x.p 2 off (leBytes 4 (rnd (pvSteps (f32 (c0.lockLE x.p 2 off 4)) cr (List.zipWith Val.mul pv vs))))) c
  c.lockWrite x.p 3 (mlOff x i) (leBytes 4 (rnd mn) ++ leBytes 4 (rnd l'))

/-- m := -∞, l := +0 and O := +0 for every valid row; bank 2 is cleared for the rest (R176, R213). -/
def Chip.attendStart (c : Chip) (x : Ctx) (d mv : Nat) : Chip :=
  let c := c.lockClear x.p 2 (64 * chCAddr x.i) (512 * oCols d + 65536)
  (List.range mv).foldl (fun c i => c.lockWrite x.p 3 (mlOff x i) (leBytes 4 f32NegInf ++ leBytes 4 0)) c

/-- The division that ends a row: out(i, ·) takes the place of O(i, ·) (R213). -/
def Chip.attendEnd (c : Chip) (x : Ctx) (d mv : Nat) : Chip :=
  (List.range mv).foldl (fun c i =>
    let l := f32 (c.lockLE x.p 3 (mlOff x i + 4) 4)
    (List.range (headDim d)).foldl (fun c e =>
      let off := accOff (chCAddr x.i) (oCols d) i e
      let o := f32 (c.lockLE x.p 2 off 4)
      c.lockWrite x.p 2 off (leBytes 4 (if l.isZero then 0 else rnd (mulF o (c.recipF x.p l))))) c) c

/-- What one block of a ring-fed chain comes to. -/
inductive BlockAct where
  /-- the block is done -/
  | ok (c : Chip)
  /-- the chain waits for the slot of object `obj` -/
  | wait (obj : Nat)
  /-- the job is fenced with a status -/
  | bad (st : Nat)

/-- A chain that has done `n` of `total` blocks takes blocks while its rings hold them, at most `fuel`. It stalls on the slot that
is not FULL (R372, R375). -/
def runBlocks (x : Ctx) (total : Nat) (block : Nat → Chip → BlockAct) : (fuel n : Nat) → Chip → Act
  | 0, n, c => .park (some n) [] c
  | fuel + 1, n, c =>
    if total ≤ n then .done c
    else match block n c with
      | .ok c => runBlocks x total block fuel (n + 1) c
      | .wait obj => .park (some n) [(.localRead, x.p, obj)] c
      | .bad st => .raise st c

/-- One block of an attention chain. -/
def attendBlock (x : Ctx) (d mask mv kv n : Nat) (c : Chip) : BlockAct :=
  let ks := ringSlot (cdRing1 d) (cdRingLen d) n
  let vs := ringSlot (cdRing2 d) (cdRingLen d) n
  match c.fullSlot x.p ks, c.fullSlot x.p vs with
  | none, _ => .wait ks
  | _, none => .wait vs
  | some ko, some vo =>
    let hdr := c.keyHeader x mask d ko
    if headerBad mask d hdr then .bad stFormatMismatch
    else
      let c' := (List.range mv).foldl (fun a i => c.attendRow a x d mask (blockIndex x mask n) hdr kv ko vo i) c
      .ok ((c'.drainSlot x.j x.p ks).drainSlot x.j x.p vs)

/-- Output lanes of an attention chain as its epilogue takes them. -/
def Chip.attendLanes (c : Chip) (x : Ctx) (d mv : Nat) : List (Nat × List Val) :=
  (List.range mv).map fun i =>
    (i, (List.range (headDim d)).map fun e => f32 (c.lockLE x.p 2 (accOff (chCAddr x.i) (oCols d) i e) 4))

/-- What an attention chain accesses outside its rings, rows and positions below the edges (R174, R176, R212). -/
def attentionLive (x : Ctx) : Foot :=
  let d := chainWord x
  let mask := maskWord x (cdMask d)
  let f := cdFmtA d
  let hd := headDim d
  let mv := edgeM x (chEdge x.i) 128
  let kv := edgeK x (chEdge x.i) hd
  let rows := List.range mv
  let e := epiLive x (chEpilogue x.i) 128 (oCols d) rows hd 0 false
  let ml : LockRange := ⟨3, 64 * chXAddr x.i, 8 * mv⟩
  { reads := (rows.map fun r => bitRange 0 (64 * chAAddr x.i) (fmtBits f) (r * hd) kv)
      ++ (if isMx f then rows.map fun r => ⟨0, mxScaleOff (64 * chAAddr x.i) f (128 * hd) + r * hd / 32, ceilDiv kv 32⟩ else [])
      ++ ml :: (if mkKind mask = 0 then [] else [⟨3, 64 * mkQpos mask, 4 * mv⟩]) ++ e.reads,
    writes := ⟨2, 64 * chCAddr x.i, 512 * oCols d + 65536⟩
      :: (if mkScore mask then [⟨3, 64 * mkScoreAddr mask, 16 * cdBlocks d⟩]
          else (rows.map fun r => bitRange 0 (64 * cdPAddr d) (fmtBits (cdFmtP d)) (128 * r) 128) ++ [ml]) ++ e.writes }

/-- Ranges of an attention chain outside its rings, of full size. -/
def attentionFoot (x : Ctx) : Foot :=
  let d := chainWord x
  let mask := maskWord x (cdMask d)
  let e := epiFoot x (chEpilogue x.i) 128 (oCols d)
  let ml : LockRange := ⟨3, 64 * chXAddr x.i, 1024⟩
  { reads := [⟨0, 64 * chAAddr x.i, operandBytes (cdFmtA d) (128 * headDim d)⟩, ml]
      ++ (if mkKind mask = 0 then [] else [⟨3, 64 * mkQpos mask, 512⟩]) ++ e.reads,
    writes := [⟨2, 64 * chCAddr x.i, 512 * oCols d + 65536⟩]
      ++ (if mkScore mask then [⟨3, 64 * mkScoreAddr mask, 16 * cdBlocks d⟩]
          else [⟨0, 64 * cdPAddr d, elemBytes (cdFmtP d) 16384⟩, ml]) ++ e.writes }

/-- Whether a chain of kind 1 is a score pass (R288). -/
def isScorePass (x : Ctx) : Bool := isChain 1 x && mkScore (maskWord x (cdMask (chainWord x)))

/-- An attention chain (R213): its blocks in ascending order as its rings deliver them, then the division and its
epilogue. -/
def chainAttention (p : Nat) (c : Chip) : Chip :=
  issueOn (fun x => isChain 1 x && !isScorePass x) attentionLive p (fun x c =>
    let d := chainWord x
    let mask := maskWord x (cdMask d)
    let mv := edgeM x (chEdge x.i) 128
    let kv := edgeK x (chEdge x.i) (headDim d)
    if x.epiNoContext (chEpilogue x.i) true then .raise stRngNoContext c
    else
      let c := if x.chain.isNone then c.attendStart x d mv else c
      match runBlocks x (cdBlocks d) (attendBlock x d mask mv kv) (cdBlocks d + 1) (x.chain.getD 0) c with
      | .done c =>
        let c := c.attendEnd x d mv
        .done (if chEpilogue x.i = 0 then c
          else c.epilogue x (chEpilogue x.i) 128 (oCols d) 0 false (c.attendLanes x d mv))
      | a => a) c

def execChainAttention (p : Nat) (s : State) : Out := onChip (.chainAttention p) s (chainAttention p)

/-! ## The score pass (R288) -/

/-- What one key adds for one row: floor(y × 2^32); nothing of a NaN, none of an infinity, whose amount R288 leaves open. -/
def scoreAmount (y : Val) : Option Int :=
  match y with
  | .nan => some 0
  | .inf _ => none
  | v => some (floorVal (v.shift 32))

/-- The amount of a block: the exact sum over rows and keys, or none where it is no unsigned 64-bit number. -/
def Chip.scoreBlock (c : Chip) (x : Ctx) (d mask j hdr mv kv : Nat) (o : SyncObj) : Option Nat :=
  let rows := (List.range mv).flatMap fun i =>
    let m := f32 (c.lockLE x.p 3 (mlOff x i) 4)
    let l := f32 (c.lockLE x.p 3 (mlOff x i + 4) 4)
    if l.isZero then []
    else
      let r := c.recipF x.p l
      List.zipWith (fun s ok => if ok then scoreAmount (mulF (c.expF x.p (subF (mulF s (cdParam d)) m)) r) else some 0)
        (c.scoreRow x d kv o i) (c.keysSeen x mask hdr j i)
  let w := rows.foldl (fun a y => match a, y with
    | some a, some y => some (a + y)
    | _, _ => none) (some (0 : Int))
  match w with
  | some w => if 0 ≤ w && w < 2 ^ 64 then some w.toNat else none
  | none => none

/-- One block of a score pass: its entry of record and amount (R288). An amount that R288 does not give is free
(assumption 23, DEDUCED). -/
def scoreStep (x : Ctx) (d mask mv kv n : Nat) (c : Chip) : BlockAct :=
  let ks := ringSlot (cdRing1 d) (cdRingLen d) n
  match c.fullSlot x.p ks with
  | none => .wait ks
  | some o =>
    let hdr := c.keyHeader x mask d o
    if headerBad mask d hdr then .bad stFormatMismatch
    else
      let (w, c') := match c.scoreBlock x d mask (blockIndex x mask n) hdr mv kv o with
        | some w => (w, c)
        | none => let (v, c') := c.freeNat; (v % 2 ^ 64, c')
      let c' := (List.range mv).foldl (fun a i => a.putScores x (scoreOff x d) i (c.scoreRow x d kv o i)) c'
      let c' := c'.lockWrite x.p 3 (64 * mkScoreAddr mask + 16 * n) (leBytes 16 (kbRecord hdr <<< 116 + w))
      .ok (c'.drainSlot x.j x.p ks)

def scorePass (p : Nat) (c : Chip) : Chip :=
  issueOn isScorePass attentionLive p (fun x c =>
    let d := chainWord x
    let mask := maskWord x (cdMask d)
    let mv := edgeM x (chEdge x.i) 128
    let kv := edgeK x (chEdge x.i) (headDim d)
    let c := if x.chain.isNone then c.lockClear p 2 (scoreOff x d) 65536 else c
    runBlocks x (cdBlocks d) (scoreStep x d mask mv kv) (cdBlocks d + 1) (x.chain.getD 0) c) c

def execScorePass (p : Nat) (s : State) : Out := onChip (.scorePass p) s (scorePass p)

/-! ## The MLP chain (R216, R217) -/

/-- One row of X (operand A of the chain). -/
def Chip.rowX (c : Chip) (x : Ctx) (d i : Nat) : List Val :=
  let k := 32 * cdSteps d
  (List.range k).map fun e =>
    c.matElem x.p 0 (64 * chAAddr x.i) (cdFmtA d) (bit d 243) (128 * k) (if bit d 240 then i * k + e else e * 128 + i)

/-- Element (k, n) of a weight slot of `rows` × `cols`. -/
def Chip.weightElem (c : Chip) (x : Ctx) (d : Nat) (o : SyncObj) (rows cols k n : Nat) : Val :=
  c.matElem x.p o.bank o.off (cdFmtB d) (bit d 242) (rows * cols) (if bit d 239 then n * rows + k else k * cols + n)

/-- X times a weight chunk for one row: 128 hidden columns from -0, over the whole of K. A k_edge literal of 0 in the chain's edge descriptor,
which R217 lets stand, is taken as no K edge (assumption 118, DESIGN CHOICE). -/
def Chip.hiddenRow (c : Chip) (x : Ctx) (d : Nat) (o : SyncObj) (xs : List Val) : List Val :=
  (List.range 128).map fun n =>
    stepsF (cdSteps d) .negZero
      (List.zipWith Val.mul xs ((List.range (32 * cdSteps d)).map fun k => c.weightElem x d o (32 * cdSteps d) 128 k n))

/-- Byte offsets in bank 2 of U and G, after Y (R217). -/
def uOff (x : Ctx) (d : Nat) : Nat := 64 * chCAddr x.i + 512 * shapeN (cdShape d)
def gOff (x : Ctx) (d : Nat) : Nat := uOff x d + 65536

/-- The conversion of the hidden epilogue: epi2's own, to fmt_p (R216, assumption 24, DEDUCED). -/
def hiddenEpi (x : Ctx) (d : Nat) : Epi :=
  let w := epiWord x (cdEpi2 d)
  let n := 128 * cdBlocks d
  { p := x.p, e := w, lens := epiVecLens w 128 n 128 n, rows := 128, cols := n }

/-- One hidden value of column `col`, converted to fmt_p. Its local position under stochastic rounding is its column within the
128-column chunk (assumption 95, DESIGN CHOICE). -/
def Chip.hiddenConv (c : Chip) (x : Ctx) (d i col : Nat) (v : Val) : Conv :=
  let o := hiddenEpi x d
  let k := c.epiConv o i col
  convert { k with word := cdFmtP d <<< 28 + k.word % 2 ^ 28 }
    (if cwRounding k.word = 2 then c.nibble x i (col % 128) else 0) v

/-- Row `i` of a 128-column accumulator at byte `off` of bank 2. -/
def Chip.scoresAt (c : Chip) (x : Ctx) (off i : Nat) : List Val :=
  (List.range 128).map fun n => f32 (c.lockLE x.p 2 (off + 512 * i + 4 * n) 4)

/-- X times the weight chunk in a slot for every valid row, into U or G (R216). -/
def Chip.hiddenPart (c : Chip) (x : Ctx) (d mv off : Nat) (o : SyncObj) : Chip :=
  (List.range mv).foldl (fun a i => a.putScores x off i (c.hiddenRow x d o (c.rowX x d i))) c

/-- One hidden chunk for row `i`, U and G being there: H and its share of Y (R216). A chain whose n_valid is 0 narrows and counts H
all the same: H is the output of X × W1, which has columns (assumption 93, DEDUCED). -/
def Chip.mlpRow (c0 c : Chip) (x : Ctx) (d h nv : Nat) (gate : Bool) (w2 : SyncObj) (i : Nat) : Chip :=
  let us := c0.scoresAt x (uOff x d) i
  let gs := if gate then c0.scoresAt x (gOff x d) i else []
  let o := hiddenEpi x d
  let rs := us.zipIdx.map fun (u, n) => c0.epiLane o i (128 * h + n) u (gs.getD n .zero) .zero
  let hs := rs.zipIdx.map fun (r, n) => c0.hiddenConv x d i (128 * h + n) r.1
  let hv := hs.map fun r => elemVal (cdFmtP d) true r.code
  let c := hs.zipIdx.foldl (fun c (r, n) => c.putElem x.p 0 (64 * cdPAddr d) (cdFmtP d) (128 * i + n) r.code) c
  let c := c.count x.j x.p ((rs.foldl (fun a r => a + r.2) 0) + hs.foldl (fun a r => a + r.ovf) 0)
    (hs.foldl (fun a r => a + r.inv) 0)
  let cols := shapeN (cdShape d)
  (List.range nv).foldl (fun c n =>
    let off := accOff (chCAddr x.i) cols i n
    let acc := if h = 0 then Val.negZero else f32 (c0.lockLE x.p 2 off 4)
    let ws := (List.range 128).map fun k => c0.weightElem x d w2 128 cols k n
    c.lockWrite x.p 2 off (leBytes 4 (rnd (stepsF 4 acc (List.zipWith Val.mul hv ws))))) c

/-- The parts of a hidden chunk, one for each slot it takes: U from W1, G from the gate weight where epi2 has a gate, then Y from W2
(R216). -/
def mlpParts (x : Ctx) (d : Nat) : Nat := if epGate (epiWord x (cdEpi2 d)) then 3 else 2

/-- Part `n` of an MLP chain, counted over its chunks: it takes one ring slot, which is drained after it. -/
def mlpBlock (x : Ctx) (d mv nv n : Nat) (c : Chip) : BlockAct :=
  let parts := mlpParts x d
  let h := n / parts
  let last := n % parts + 1 = parts
  let s := if last then ringSlot (cdRing2 d) (cdRingLen d) h else ringSlot (cdRing1 d) (cdRingLen d) ((parts - 1) * h + n % parts)
  match c.fullSlot x.p s with
  | none => .wait s
  | some o =>
    let c' := if last then (List.range mv).foldl (fun a i => c.mlpRow a x d h nv (parts = 3) o i) c
      else c.hiddenPart x d mv (if n % parts = 0 then uOff x d else gOff x d) o
    .ok (c'.drainSlot x.j x.p s)

/-- What an MLP chain accesses outside its rings, rows and columns below the edges (R174, R176). -/
def mlpLive (x : Ctx) : Foot :=
  let d := chainWord x
  let k := 32 * cdSteps d
  let f := cdFmtA d
  let off := 64 * chAAddr x.i
  let mv := edgeM x (chEdge x.i) 128
  let cols := shapeN (cdShape d)
  let rows := List.range mv
  let e := epiLive x (chEpilogue x.i) 128 cols rows (edgeN x (chEdge x.i) cols) 0 false
  let e2 := epiLive x (cdEpi2 d) 128 (128 * cdBlocks d) rows (128 * cdBlocks d) 0 false
  { reads := (if bit d 240 then rows.map fun r => bitRange 0 off (fmtBits f) (r * k) k
        else (List.range k).map fun j => bitRange 0 off (fmtBits f) (j * 128) mv)
      ++ (if isMx f then rows.map fun r => ⟨0, mxScaleOff off f (128 * k) + r * k / 32, ceilDiv k 32⟩ else [])
      ++ e.reads ++ e2.reads.filter (·.bank = 3),
    writes := ⟨2, 64 * chCAddr x.i, 512 * cols + if epGate (epiWord x (cdEpi2 d)) then 131072 else 65536⟩
      :: (rows.map fun r => bitRange 0 (64 * cdPAddr d) (fmtBits (cdFmtP d)) (128 * r) 128) ++ e.writes }

/-- Ranges of an MLP chain outside its rings, of full size. -/
def mlpFoot (x : Ctx) : Foot :=
  let d := chainWord x
  let e := epiFoot x (chEpilogue x.i) 128 (shapeN (cdShape d))
  let e2 := epiFoot x (cdEpi2 d) 128 (128 * cdBlocks d)
  { reads := ⟨0, 64 * chAAddr x.i, operandBytes (cdFmtA d) (4096 * cdSteps d)⟩ :: (e.reads ++ e2.reads.take 1),
    writes := [⟨2, 64 * chCAddr x.i, 512 * shapeN (cdShape d) + if epGate (epiWord x (cdEpi2 d)) then 131072 else 65536⟩,
               ⟨0, 64 * cdPAddr d, elemBytes (cdFmtP d) 16384⟩] ++ e.writes }

/-- Y's lanes as its epilogue takes them. -/
def Chip.mlpLanes (c : Chip) (x : Ctx) (d mv nv : Nat) : List (Nat × List Val) :=
  (List.range mv).map fun i =>
    (i, (List.range nv).map fun n => f32 (c.lockLE x.p 2 (accOff (chCAddr x.i) (shapeN (cdShape d)) i n) 4))

/-- An MLP chain (R216). -/
def chainMlp (p : Nat) (c : Chip) : Chip :=
  issueOn (isChain 2) mlpLive p (fun x c =>
    let d := chainWord x
    let mv := edgeM x (chEdge x.i) 128
    let nv := edgeN x (chEdge x.i) (shapeN (cdShape d))
    if x.epiNoContext (chEpilogue x.i) true || x.epiNoContext (cdEpi2 d) true then .raise stRngNoContext c
    else
      let total := mlpParts x d * cdBlocks d
      let c := if x.chain.isNone
        then c.lockClear p 2 (64 * chCAddr x.i) (512 * shapeN (cdShape d) + if mlpParts x d = 3 then 131072 else 65536) else c
      match runBlocks x total (mlpBlock x d mv nv) (total + 1) (x.chain.getD 0) c with
      | .done c => .done (if chEpilogue x.i = 0 then c
          else c.epilogue x (chEpilogue x.i) 128 (shapeN (cdShape d)) 0 false (c.mlpLanes x d mv nv))
      | a => a) c

def execChainMlp (p : Nat) (s : State) : Out := onChip (.chainMlp p) s (chainMlp p)

end Sys2Proof.Machine
end

