-- ==== Sys2Proof/Machine/Dma.lean ====
section
/-! DEFINITION. DMA transfers (R97, R100, R101, R178 to R183, R313, R314, R337, R339, R371, R378 to R382, R388, R606, R607,
R680). A transfer reads its source when its instruction issues, or when the closed window it reads opens; slots are
filled by FILL_ADMIT and FILL_LAND, and everything else is written when the transfer completes. -/
namespace Sys2Proof.Machine

/-! ## Ends of a transfer (Tables 2.14, 11.4 and 11.6) -/

/-- One end: its space, tensor, bank or Bead or Facet rank, object, and the byte offset of its first row. -/
structure DmaEnd where
  space : Nat
  tensor : Nat
  unit : Nat
  obj : Nat
  base : Nat
  deriving DecidableEq, Repr

def dmaEnd (space tensor off : Nat) : DmaEnd :=
  match space with
  | 0 => ⟨0, tensor, 0, 0, off⟩
  | 1 => ⟨1, tensor, fld off 20 19, 0, fld off 18 0⟩
  | 2 => ⟨2, tensor, fld off 39 30, fld off 29 20, fld off 18 0⟩
  | s => ⟨s, tensor, fld off 39 37, 0, fld off 26 0⟩

def srcEnd (d : Nat) : DmaEnd := dmaEnd (ddSrcSpace d) (ddSrcTensor d) (ddSrcOff d)
def dstEnd (d : Nat) : DmaEnd := dmaEnd (ddDstSpace d) (ddDstTensor d) (ddDstOff d)

/-- Key of byte `off` of the scratch of a job slot in Facet rank `rank` (R388). -/
def scratchKey (slot rank off : Nat) : Nat := (slot * 8 + rank) * 2 ^ 27 + off

/-- A sync object of a group-relative Bead of the job. -/
def Chip.remoteObj (c : Chip) (x : Job) (g n : Nat) : SyncObj :=
  (c.obj? (c.beadOf x g) n).getD { val := .barrier, bank := 0, off := 0, len := 0, peer := 0 }

/-- `n` bytes at offset `off` of an end, or the place where poisoned data stands. An end names no byte that does not
exist: the capsule shows it, or R314 has checked it. -/
def Chip.endRead (c : Chip) (x : Ctx) (e : DmaEnd) (off n : Nat) : Except Place (List Byte) :=
  match e.space with
  | 0 => match c.tensorAlloc? x.job e.tensor with
    | some a => c.allocRead a off n
    | none => .ok (List.replicate n 0)
  | 1 => .ok (c.lockRead x.p e.unit off n)
  | 2 =>
    let o := c.remoteObj x.job e.unit e.obj
    .ok (c.lockRead (c.beadOf x.job e.unit) o.bank (o.off + off) n)
  | _ => .ok (c.scratch.readN (scratchKey x.job.slot e.unit off) n)

/-- Bytes written into a tensor by the job of Bead `p`: into its allocation, and into the open checkpoint generations whose
step_ends `p` has still to pass (R108). A job never writes a weight tensor (R580). -/
def Chip.tensorWrite (c : Chip) (x : Ctx) (tid off : Nat) (bs : List Byte) : Chip :=
  match c.tensorAlloc? x.job tid with
  | some a =>
    if tdKind (c.tensorDecl x.job tid) = 0 then c
    else
      (c.allocWrite x.job.slot a off bs).updShare x.j x.p id fun k =>
        { k with tensors := k.tensors.map fun (t, old) => (t, if t = tid then patchBytes old off bs else old) }
  | none => c

/-- Bytes written at offset `off` of an end. -/
def Chip.endWrite (c : Chip) (x : Ctx) (e : DmaEnd) (off : Nat) (bs : List Byte) : Chip :=
  match e.space with
  | 0 => c.tensorWrite x e.tensor off bs
  | 1 => c.lockWrite x.p e.unit off bs
  | 2 =>
    let o := c.remoteObj x.job e.unit e.obj
    c.lockWrite (c.beadOf x.job e.unit) o.bank (o.off + off) bs
  | _ => { c with scratch := c.scratch.writeN (scratchKey x.job.slot e.unit off) bs }

/-- Whether an end's bytes answer now (R427, R432, R437). -/
def Chip.endReady (c : Chip) (x : Ctx) (e : DmaEnd) (off n : Nat) : Bool :=
  e.space != 0 || match c.tensorAlloc? x.job e.tensor with
    | some a => c.allocReady a off n
    | none => true

/-- Whether bytes written to an end go on now (R427, R432, R437). -/
def Chip.endTakes (c : Chip) (x : Ctx) (e : DmaEnd) (off n : Nat) : Bool :=
  e.space != 0 || match c.tensorAlloc? x.job e.tensor with
    | some a => c.allocTakes a off n
    | none => true

/-- Whether a row of a list lies inside the space it indexes, and the status it raises when not (R314, R379, R388). -/
def Chip.rowStatus (c : Chip) (x : Ctx) (e : DmaEnd) (off n : Nat) : Option Nat :=
  match e.space with
  | 0 => match c.tensorAlloc? x.job e.tensor with
    | some a => if off + n ≤ a.bytes then none else some stGatherRange
    | none => some stGatherRange
  | 1 => if off + n ≤ 2 ^ 19 then none else some stGatherRange
  | 2 => if off + n ≤ (c.remoteObj x.job e.unit e.obj).len then none else some stWindowRange
  | _ => if off + n ≤ varCasketBytes (variantWord x.cap x.v) && e.unit < (groupFacets x.job.size x.job.base).length
      then none else some stScratchRange

/-! ## Lists (R313) -/

/-- Where the list's entries lie. -/
def listEnd (gl : Nat) : DmaEnd := if glSpace gl = 0 then ⟨0, glTensor gl, 0, 0, 0⟩ else ⟨1, 0, 3, 0, 0⟩

/-- A row of a transfer: its offset in the source (none: zero bytes) and in the destination (none: nothing is written). -/
structure DmaRow where
  src : Option Nat
  dst : Option Nat
  deriving DecidableEq, Repr

/-- What reading a transfer's plan comes to. -/
inductive Plan where
  /-- its rows, and the status that the first bad entry raises -/
  | rows (rs : List DmaRow) (bad : Option Nat)
  /-- the list's memory does not answer yet -/
  | busy
  /-- the list stands in poisoned data -/
  | lost (tensor : Nat) (at_ : Place)

/-- Rows of a transfer without a list. -/
def plainRows (d : Nat) : List DmaRow :=
  let s := (srcEnd d).base
  let t := (dstEnd d).base
  (List.range (ddRows d)).map fun i => ⟨some (s + i * ddSrcStride d), some (t + i * ddDstStride d)⟩

/-- Rows of a gather or a scatter by its entries (R313). -/
def listRows (d : Nat) (es : List Nat) : List DmaRow :=
  let s := (srcEnd d).base
  let t := (dstEnd d).base
  es.zipIdx.map fun (e, i) =>
    if ddKind d = 1 then ⟨if e = u32max then none else some (s + e * ddSrcStride d), some (t + i * ddDstStride d)⟩
    else ⟨some (s + i * ddSrcStride d), if e = u32max then none else some (t + e * ddDstStride d)⟩

/-- The first status that a row of a list raises (R314). -/
def Chip.firstBad (c : Chip) (x : Ctx) (d : Nat) : List DmaRow → Option Nat
  | [] => none
  | r :: rs =>
    let n := ddRowBytes d
    let st := match r.src, r.dst with
      | some s, some t => if ddKind d = 1 then c.rowStatus x (srcEnd d) s n else c.rowStatus x (dstEnd d) t n
      | _, _ => none
    match st with
    | some st => some st
    | none => c.firstBad x d rs

/-- A transfer by a list, of some bytes. -/
def isListed (d : Nat) : Bool := ddRows d != 0 && ddRowBytes d != 0 && (ddKind d = 1 || ddKind d = 2)

/-- Whether the memory of a transfer's list answers now. -/
def Chip.listReady (c : Chip) (x : Ctx) (d iter : Nat) : Bool :=
  let gl := x.const (ddList d)
  !isListed d || c.endReady x (listEnd gl) (4 * glFirst gl x.g iter) (4 * ddRows d)

/-- The rows of a descriptor, its list read behind what waits for it. A transfer of no bytes moves nothing (R78). -/
def Chip.dmaRows (c : Chip) (x : Ctx) (d iter : Nat) : Plan :=
  if ddRows d = 0 || ddRowBytes d = 0 then .rows [] none
  else if ddKind d = 1 || ddKind d = 2 then
    let gl := x.const (ddList d)
    let le := listEnd gl
    match c.endRead x le (4 * glFirst gl x.g iter) (4 * ddRows d) with
    | .error p => .lost le.tensor p
    | .ok bs =>
      let rs := listRows d ((List.range (ddRows d)).map fun i => getLE bs (4 * i) 4)
      .rows rs (c.firstBad x d rs)
  else .rows (plainRows d) none

/-- The rows of a descriptor, once the memory of its list answers. -/
def Chip.dmaPlan (c : Chip) (x : Ctx) (d iter : Nat) : Plan := if c.listReady x d iter then c.dmaRows x d iter else .busy

/-- Whether every source row answers now. -/
def Chip.rowsReady (c : Chip) (x : Ctx) (d : Nat) (rs : List DmaRow) : Bool :=
  rs.all fun r => match r.src with
    | some s => c.endReady x (srcEnd d) s (ddRowBytes d)
    | none => true

/-- The rows read, each with its destination offset; or the place where poisoned data stands. -/
def Chip.readRows (c : Chip) (x : Ctx) (d : Nat) : List DmaRow → Except Place (List (Nat × List Byte))
  | [] => .ok []
  | r :: rs =>
    let one : Except Place (List Byte) := match r.src with
      | some s => c.endRead x (srcEnd d) s (ddRowBytes d)
      | none => .ok (List.replicate (ddRowBytes d) 0)
    match one, c.readRows x d rs with
    | .error p, _ => .error p
    | _, .error p => .error p
    | .ok bs, .ok rest => match r.dst with
      | some t => .ok ((t, bs) :: rest)
      | none => .ok rest

/-! ## Slots and windows a transfer writes (R179, R337, R370, R379) -/

/-- The slots and windows a transfer writes, as (owner, object). One that moves nothing writes none (R78). -/
def Chip.dmaObjects (c : Chip) (x : Ctx) (d : Nat) (rows : List (Nat × List Byte)) : List (Nat × Nat) :=
  if (ddRows d = 0 || ddRowBytes d = 0) && !isHalo d then []
  else if ddKind d = 5 then
    let w := x.const (ddList d)
    (mgDests w).map fun g => (c.beadOf x.job g, mgObject w)
  else if isHalo d then
    let w := x.const (ddList d)
    [(c.beadOf x.job (hdDest w), hdObject w)]
  else if ddKind d = 4 || ddKind d = 6 then []
  else match ddDstSpace d with
    | 2 => [(c.beadOf x.job (dstEnd d).unit, (dstEnd d).obj)]
    | 1 =>
      let rs : List LockRange := rows.map fun (off, bs) => ⟨(dstEnd d).unit, off, bs.length⟩
      (c.slotsUnder x.p rs).map fun s => (x.p, s.1)
    | _ => []

/-- A destination as the transfer's data reaches its owner, as number `n`: a fill waits for its slot (R371), a remote write for
its window (R379). -/
def Chip.newDest (c : Chip) (n : Nat) (o : Nat × Nat) : Dest :=
  match c.objVal? o.1 o.2 with
  | some (.window true) => { p := o.1, obj := o.2, st := .filling, since := none, arr := n }
  | _ => { p := o.1, obj := o.2, st := .waiting, since := some c.now, arr := n }

/-- The range of a row of an end in the own Locket of the issuing Bead. -/
def Chip.rowRange (c : Chip) (x : Ctx) (e : DmaEnd) (n off : Nat) : List LockRange :=
  match e.space with
  | 1 => [⟨e.unit, off, n⟩]
  | 2 => if e.unit = x.g then (c.obj? x.p e.obj).elim [] fun o => [⟨o.bank, o.off + off, n⟩] else []
  | _ => []

/-- Own Locket ranges of a transfer: local reads stall on slots (R372); a write into an own slot is a fill and waits as one. A list that
stands in memory, or in slots that are FULL, says which rows of the indexed side are touched; one that cannot be read yet leaves
the whole of that side open to it (R90). -/
def Chip.transferFoot (c : Chip) (x : Ctx) (iter d : Nat) : Foot :=
  let f := c.descFoot x iter d
  let gl := x.const (ddList d)
  let entries : List LockRange := if glSpace gl = 1 then [⟨3, 4 * glFirst gl x.g iter, 4 * ddRows d⟩] else []
  if !isListed d || !c.listReady x d iter || (c.slotsUnder x.p entries).any (·.2 != .full) then f
  else match c.dmaRows x d iter with
    | .rows rs none =>
      if ddKind d = 1 then { f with reads := entries ++ (rs.filterMap (·.src)).flatMap (c.rowRange x (srcEnd d) (ddRowBytes d)) }
      else { f with writes := (rs.filterMap (·.dst)).flatMap (c.rowRange x (dstEnd d) (ddRowBytes d)) }
    | _ => f

/-- Own Locket ranges of a DMA instruction. -/
def dmaFoot (c : Chip) (x : Ctx) : Foot := c.transferFoot x x.iteration (dmaDesc x.cap x.v (iDesc x.i))

/-- The halo header of a send (Table 9.6). -/
def haloHeader (x : Ctx) (w : Nat) : List Byte :=
  leBytes 64 ((x.run.step.getD u32max) <<< 480 + hdLayer w <<< 464 + x.g <<< 452)

/-- The rows a halo send writes: its data and the header in the object's last 64 bytes (R337). -/
def Chip.withHalo (c : Chip) (x : Ctx) (d : Nat) (rows : List (Nat × List Byte)) : List (Nat × List Byte) :=
  if isHalo d then
    let w := x.const (ddList d)
    rows ++ [((c.remoteObj x.job (hdDest w) (hdObject w)).len - 64, haloHeader x w)]
  else rows

/-! ## Issue -/

/-- A remote window that a transfer reads and that is closed. One that moves nothing reads none (R78). -/
def Chip.closedSource (c : Chip) (x : Ctx) (d : Nat) : Option (Nat × Nat) :=
  let e := srcEnd d
  if e.space = 2 && ddRows d != 0 && ddRowBytes d != 0 then
    let o := (c.beadOf x.job e.unit, e.obj)
    match c.objVal? o.1 o.2 with
    | some (.window true) => none
    | _ => some o
  else none

/-- The remote window that a transfer reads. -/
def Chip.sourceWindow (c : Chip) (x : Ctx) (d : Nat) : Option (Nat × Nat) :=
  if ddSrcSpace d = 2 && ddRows d != 0 && ddRowBytes d != 0 then some (c.beadOf x.job (srcEnd d).unit, (srcEnd d).obj) else none

/-- A transfer record with its data and its slots and windows. -/
def Chip.newTransfer (c : Chip) (x : Ctx) (d iter : Nat) (rows : List (Nat × List Byte)) : Transfer :=
  let rows := c.withHalo x d rows
  { id := c.sched.nextId, job := x.j, p := x.p, g := x.g, desc := iDesc x.i, iter := iter, post := iPost x.i,
    rows := rows, remoteWait := none, remoteSince := none, window := c.sourceWindow x d,
    dests := (c.dmaObjects x d rows).map (c.newDest c.sched.nextId), foot := c.transferFoot x iter d }

/-- A transfer is in flight. -/
def Chip.addTransfer (c : Chip) (t : Transfer) : Chip :=
  { c with transfers := c.transfers ++ [t], sched := { c.sched with nextId := c.sched.nextId + 1 } }

/-- The status of a row that a list places outside the space it indexes; WINDOW_RANGE names the object too (R314, R379). -/
def rowRaise (x : Ctx) (d st : Nat) (c : Chip) : Act :=
  if st = stWindowRange then .raiseN st (.object x.g (if ddKind d = 1 then srcEnd d else dstEnd d).obj) c else .raise st c

/-- Start of the transfer of a DMA instruction. Where a list places one row outside its space, no row of the transfer moves (R314 speaks of
that row alone; assumption 125, DESIGN CHOICE). -/
def dmaStart (x : Ctx) (c : Chip) : Act :=
  let d := dmaDesc x.cap x.v (iDesc x.i)
  let iter := x.iteration
  match c.dmaPlan x d iter with
  | .busy => .park none [] c
  | .lost tid at_ => .lost (some tid) at_ c
  | .rows _ (some st) => rowRaise x d st c
  | .rows rs none =>
    match c.closedSource x d with
    | some o =>
      .started (c.addTransfer { c.newTransfer x d iter [] with remoteWait := some o, remoteSince := some c.now,
                                                               window := none })
    | none =>
      if !c.rowsReady x d rs then .park none [] c
      else match c.readRows x d rs with
        | .error at_ => .lost (some (srcEnd d).tensor) at_ c
        | .ok rows => .started (c.addTransfer (c.newTransfer x d iter rows))

/-- A DMA instruction whose descriptor a test picks. -/
def isDma (f : Nat → Bool) (x : Ctx) : Bool := iClass x.i = 3 && f (dmaDesc x.cap x.v (iDesc x.i))

/-- A list transfer, not on a pool. -/
def isListDma (kind : Nat) (x : Ctx) : Bool :=
  isDma (fun d => ddKind d = kind && !(if kind = 1 then ddSrcSpace d = 0 && isPool x.cap x.v (ddSrcTensor d)
    else ddDstSpace d = 0 && isPool x.cap x.v (ddDstTensor d))) x


/-- Issue of a DMA instruction. -/
def issueDma (sel : Ctx → Bool) (p : Nat) (act : Ctx → Chip → Act) (c : Chip) : Chip := issueAt sel dmaFoot p act c

def execDmaCopy (p : Nat) (s : State) : Out :=
  onChip (.dmaCopy p) s (issueDma (isDma fun d => ddKind d = 0 && !isHalo d) p dmaStart)
def execGatherByList (p : Nat) (s : State) : Out := onChip (.gatherByList p) s (issueDma (isListDma 1) p dmaStart)
def execScatterByList (p : Nat) (s : State) : Out := onChip (.scatterByList p) s (issueDma (isListDma 2) p dmaStart)
def execSessionInputDecrypt (p : Nat) (s : State) : Out :=
  onChip (.sessionInputDecrypt p) s (issueDma (isDma (ddKind · = 3)) p dmaStart)
def execSessionOutputEncrypt (p : Nat) (s : State) : Out :=
  onChip (.sessionOutputEncrypt p) s (issueDma (isDma (ddKind · = 4)) p dmaStart)
def execMulticastCopy (p : Nat) (s : State) : Out :=
  onChip (.multicastCopy p) s (issueDma (isDma (ddKind · = 5)) p dmaStart)
def execHaloSend (p : Nat) (s : State) : Out := onChip (.haloSend p) s (issueDma (isDma isHalo) p dmaStart)

/-! ## What moves by itself -/

/-- A transfer in its place: what its Bead, job and capsule are; none when its job is not bound. -/
def Chip.xferCtx (c : Chip) (t : Transfer) : Option Ctx :=
  match c.job? t.job with
  | some x =>
    if x.phase = .bound then
      some { p := t.p, g := t.g, j := t.job, job := x, cap := c.capsule x.setting, v := x.variant, i := 0,
             run := (c.bead t.p).run }
    else none
  | none => none

/-- The transfer of a number. -/
def Chip.transfer? (c : Chip) (t : Nat) : Option Transfer := c.transfers.find? (·.id = t)

def Chip.updTransfer (c : Chip) (t : Nat) (f : Transfer → Transfer) : Chip :=
  { c with transfers := c.transfers.map fun y => if y.id = t then f y else y }

/-- Bytes of a transfer's rows written into an object of Bead `p`: a remote one by offset within it, an own slot the part
of each row that lies in it. -/
def Chip.writeObject (c : Chip) (x : Ctx) (d p : Nat) (o : SyncObj) (rows : List (Nat × List Byte)) : Chip :=
  if ddDstSpace d = 1 && !isHalo d && ddKind d != 5 then
    rows.foldl (fun c (off, bs) =>
      bs.zipIdx.foldl (fun c (b, i) =>
        if o.off ≤ off + i && off + i < o.off + o.len then c.lockWrite x.p o.bank (off + i) [b] else c) c) c
  else rows.foldl (fun c (off, bs) => c.lockWrite p o.bank (o.off + off) bs) c

/-- A transfer's destination moved on. -/
def Transfer.setDest (t : Transfer) (p obj : Nat) (st : DestState) : Transfer :=
  { t with dests := t.dests.map fun e => if e.p = p && e.obj = obj then { e with st := st, since := none } else e }

/-- A window that a transfer writes takes its rows once it is open, whatever its other destinations wait for (R182, R379). One
whose access was admitted while it was open takes them though it has closed since (R380). -/
def Chip.landWindow (c : Chip) (x : Ctx) (y : Transfer) (e : Dest) : Chip :=
  match c.obj? e.p e.obj with
  | some o => match o.val with
    | .window w =>
      if (w && e.st = .waiting) || e.st = .filling then
        (c.writeObject x (dmaDesc x.cap x.v y.desc) e.p o y.rows).updTransfer y.id (·.setDest e.p e.obj .landed)
      else c
    | _ => c
  | none => c

/-- Every window that a transfer writes and that admits it takes its rows. -/
def Chip.landWindows (c : Chip) (x : Ctx) (y : Transfer) : Chip := y.dests.foldl (fun c e => c.landWindow x y e) c

/-- A closed remote window that a transfer reads has opened: the access is under way and its data reaches its destinations now
(R371, R379). -/
def Chip.openSource (c : Chip) (x : Ctx) (y : Transfer) (o : Nat × Nat) : Chip :=
  let d := dmaDesc x.cap x.v y.desc
  match c.dmaPlan x d y.iter with
  | .rows rs none => match c.readRows x d rs with
    | .ok rows =>
      let rows := c.withHalo x d rows
      { c.updTransfer y.id fun y => { y with
          rows := rows, remoteWait := none, remoteSince := none, window := some o,
          dests := (c.dmaObjects x d rows).map (c.newDest c.sched.nextId) } with
        sched := { c.sched with nextId := c.sched.nextId + 1 } }
    | .error at_ => c.poisonFence x.j (srcEnd d).tensor at_
  | .rows _ (some st) => (rowRaise x d st c).raised x
  | .lost tid at_ => c.poisonFence x.j tid at_
  | .busy => c

/-- A remote access is admitted once its window is open: a read takes its data, a write is made (R379). -/
def remoteAccessAdmit (t : Nat) (c : Chip) : Chip :=
  match c.transfer? t with
  | none => c
  | some y => match c.xferCtx y with
    | none => c
    | some x => match y.remoteWait with
      | none => c.landWindows x y
      | some o => if c.windowOpen o.1 o.2 then c.openSource x y o else c

def execRemoteAccessAdmit (t : Nat) (s : State) : Out := onChip (.remoteAccessAdmit t) s (remoteAccessAdmit t)

/-- A transfer has data for its destinations and waits at slot `obj` of Bead `p` in a state. -/
def Transfer.at_ (t : Transfer) (p obj : Nat) (st : DestState) : Bool :=
  t.remoteWait.isNone && t.dests.any fun e => e.p = p && e.obj = obj && e.st = st

/-- The number at which a transfer's fill of a slot reached it. -/
def Transfer.arrival (t : Transfer) (p obj : Nat) : Nat :=
  ((t.dests.find? fun e => e.p = p && e.obj = obj).map (·.arr)).getD 0

/-- The transfer whose fill reached a slot first, of those that wait for it (R371). -/
def Chip.firstFill (c : Chip) (p obj : Nat) : Option Transfer :=
  (sortBy (fun a b => a.arrival p obj ≤ b.arrival p obj) (c.transfers.filter (·.at_ p obj .waiting))).head?

/-- The fill of a slot lands: its bytes are written and the slot is FULL (R370). -/
def fillLand (p obj : Nat) (c : Chip) : Chip :=
  match c.obj? p obj, c.transfers.find? (·.at_ p obj .filling) with
  | some o, some t => match o.val, c.xferCtx t with
    | .slot .filling f, some x =>
      let c := c.writeObject x (dmaDesc x.cap x.v t.desc) p o t.rows
      (c.setVal p obj (.slot .full f)).updTransfer t.id (·.setDest p obj .landed)
    | _, _ => c
  | _, _ => c

def execFillLand (p obj : Nat) (s : State) : Out := onChip (.fillLand p obj) s (fillLand p obj)

/-! ## Session output (R606, R607) -/

/-- End of the output plaintext at the variant: the furthest byte that a kind 4 descriptor of it names (R607). -/
def outputBytes (cap : Capsule) (v : Nat) : Nat :=
  (sectionEntries cap secDma (varDma (variantWord cap v)) 32).foldl (fun a d =>
    if ddKind d = 4 && ddRows d != 0 && ddRowBytes d != 0
    then max a (ddDstOff d + (ddRows d - 1) * ddDstStride d + ddRowBytes d) else a) 0

/-- Bytes 16 to 63 of a buffer header (Table 17.10). -/
def bufferAad (magic session number len : Nat) : List Byte :=
  (leBytes 64 (magic <<< 480 + session <<< 468 + number <<< 384 + len <<< 320 + ceilDiv len 65536 <<< 288)).drop 16

def magicIn : Nat := 0x56494E31
def magicOut : Nat := 0x564F5531

/-- The IV of chunk `i` of a buffer (R606). -/
def chunkIv (number i : Nat) : List Byte := leBytes 8 number ++ leBytes 4 i

/-- Plaintext bytes `lo` to `hi - 1` of a transfer's output; a byte between its rows is none of R607's and is free, the same in every
execution of the job (R500). -/
def outputPlain (session number : Nat) (rows : List (Nat × List Byte)) (lo hi : Nat) : List Byte :=
  rows.foldl (fun acc (off, bs) =>
    bs.zipIdx.foldl (fun acc (b, i) =>
      if lo ≤ off + i && off + i < hi then acc.set (off + i - lo) b else acc) acc)
    ((List.range (hi - lo)).map fun i => Config.gapByte session number (lo + i))

/-- The heads that carry the output that a kind 4 transfer covers: its whole chunks (R540, R606). -/
def Chip.outputHeadsOf (c : Chip) (x : Job) (rows : List (Nat × List Byte)) : List Nat :=
  let lo := rows.foldl (fun a r => min a r.1) (rows.headD (0, [])).1
  let hi := rows.foldl (fun a r => max a (r.1 + r.2.length)) 0
  let first := lo / 65536
  c.headsOf (x.outAddr + 64 + 65552 * first) (hi - 65536 * first + 16 * (ceilDiv hi 65536 - first))

/-- The chunks that a kind 4 transfer covers, encrypted under the session's out key into the host output buffer (R606,
R607, assumption 25, DEDUCED). -/
def Chip.encryptOutput (c : Chip) (x : Ctx) (rows : List (Nat × List Byte)) : Chip :=
  let lo := rows.foldl (fun a r => min a r.1) (rows.headD (0, [])).1
  let hi := rows.foldl (fun a r => max a (r.1 + r.2.length)) 0
  let aad := bufferAad magicOut x.job.session x.job.number (outputBytes x.cap x.v)
  let key := (c.session x.job.session).keyOut
  let first := lo / 65536
  let c := (List.range (ceilDiv hi 65536 - first)).foldl (fun c k =>
    let i := first + k
    let plain := outputPlain x.job.session x.job.number rows (65536 * i) (min (65536 * (i + 1)) hi)
    let (cipher, tag) := Config.gcmEncrypt key (chunkIv x.job.number i) aad plain
    c.hostWrite (x.job.outAddr + 64 + 65552 * i) (cipher ++ tag)) c
  let hs := c.outputHeadsOf x.job rows
  c.updJob x.j fun y => { y with outEnd := max y.outEnd hi, outHeads := sortDedup (y.outHeads ++ hs) }

/-! ## Completion (R97, R182, R382) -/

/-- Whether everything that a transfer waits for has come: its data, its slots landed, its windows admitted, its rows taken
by Cameo, its memory. -/
def Chip.transferDue (c : Chip) (x : Ctx) (t : Transfer) : Bool :=
  let d := dmaDesc x.cap x.v t.desc
  t.remoteWait.isNone
    && !(c.streams.any fun s => s.waiting.any (·.xfer = t.id))
    && t.dests.all (fun e => e.st = .landed || match c.objVal? e.p e.obj with
        | some (.window w) => w || e.st = .filling
        | _ => false)
    && (if ddKind d = 4 then t.rows.isEmpty || c.hostUp else t.rows.all fun (off, bs) => c.endTakes x (dstEnd d) off bs.length)

/-- What is written as the transfer completes: all but the slots and windows that have taken its rows before. -/
def Chip.writeRows (c : Chip) (x : Ctx) (t : Transfer) : Chip :=
  let d := dmaDesc x.cap x.v t.desc
  if ddKind d = 4 then (if t.rows.isEmpty then c else c.encryptOutput x t.rows)
  else if ddKind d = 6 then c
  else if ddKind d = 5 || isHalo d || ddDstSpace d = 2 then c.landWindows x t
  else if ddDstSpace d = 1 && !t.dests.isEmpty then
    let os := t.dests.filterMap fun e => c.obj? e.p e.obj
    t.rows.foldl (fun c (off, bs) =>
      bs.zipIdx.foldl (fun c (b, i) =>
        if os.any fun o => o.bank = (dstEnd d).unit && o.off ≤ off + i && off + i < o.off + o.len then c
        else c.lockWrite x.p (dstEnd d).unit (off + i) [b]) c) c
  else t.rows.foldl (fun c (off, bs) => c.endWrite x (dstEnd d) off bs) c

/-- A transfer completes: its rows are written, its done object and its instruction's post are made (R97). -/
def transferComplete (t : Nat) (c : Chip) : Chip :=
  match c.transfer? t with
  | none => c
  | some y => match c.xferCtx y with
    | none => c
    | some x =>
      if c.transferDue x y then
        let c := c.writeRows x y
        let c := { c with transfers := c.transfers.filter (·.id != t) }
        (c.postObj x.j x.p (ddDone (dmaDesc x.cap x.v y.desc))).postObj x.j x.p y.post
      else c

def execTransferComplete (t : Nat) (s : State) : Out := onChip (.transferComplete t) s (transferComplete t)

end Sys2Proof.Machine
end

