-- ==== Sys2Proof/Machine/Sync.lean ====
section
/-! DEFINITION. The SYNC class, Casket reductions (R366 to R368, R370, R373, R377, R380, R391 to R396). -/
namespace Sys2Proof.Machine

/-! ## The SYNC body (Table 11.2) -/

def syOp (i : Nat) : Nat := fld i 95 92
def syTarget (i : Nat) : Nat := fld i 91 80
def syObject (i : Nat) : Nat := fld i 79 70
def syCount (i : Nat) : Nat := fld i 69 54
def syRed (i : Nat) : Nat := fld i 53 38
def sySrc (i : Nat) : Nat := fld i 37 25
def syIndex (i : Nat) : Nat := fld i 24 5

/-- Issue of a SYNC operation. -/
def issueSync (op : Nat) (foot : Ctx → Foot) (p : Nat) (act : Ctx → Chip → Act) (c : Chip) : Chip :=
  issue (fun i => iClass i = 4 && syOp i = op) foot p act c

/-- post: count added to the target's semaphore (R368). -/
def syncPost (p : Nat) (c : Chip) : Chip :=
  issueSync 0 (fun _ => .none) p (fun x c =>
    let q := if syTarget x.i = 0xFFF then x.p else c.beadOf x.job (syTarget x.i)
    .done (c.postSem x.j q (syObject x.i) (syCount x.i))) c

def execSyncPost (p : Nat) (s : State) : Out := onChip (.syncPost p) s (syncPost p)

/-- fill: an EMPTY slot becomes FULL; any other fences with SLOT_STATE (R370, R373). -/
def syncFill (p : Nat) (c : Chip) : Chip :=
  issueSync 1 (fun _ => .none) p (fun x c =>
    match c.objVal? x.p (syObject x.i) with
    | some (.slot .empty false) => .done (c.setVal x.p (syObject x.i) (.slot .full false))
    | _ => .raiseN stSlotState (.object x.g (syObject x.i)) c) c

def execSyncFill (p : Nat) (s : State) : Out := onChip (.syncFill p) s (syncFill p)

/-- drain: a FULL slot becomes EMPTY; any other fences with SLOT_STATE (R373). -/
def syncDrain (p : Nat) (c : Chip) : Chip :=
  issueSync 2 (fun _ => .none) p (fun x c =>
    match c.objVal? x.p (syObject x.i) with
    | some (.slot .full _) => .done (c.drainSlot x.j x.p (syObject x.i))
    | _ => .raiseN stSlotState (.object x.g (syObject x.i)) c) c

def execSyncDrain (p : Nat) (s : State) : Out := onChip (.syncDrain p) s (syncDrain p)

/-- open: the own window is OPEN (R377). -/
def syncOpen (p : Nat) (c : Chip) : Chip :=
  issueSync 3 (fun _ => .none) p (fun x c => .done (c.setVal x.p (syObject x.i) (.window true))) c

def execSyncOpen (p : Nat) (s : State) : Out := onChip (.syncOpen p) s (syncOpen p)

/-- Whether a remote access that was admitted to a window has not completed (R380). -/
def Chip.windowBusy (c : Chip) (p n : Nat) : Bool :=
  c.transfers.any fun t => t.window = some (p, n) || t.dests.any fun e => e.p = p && e.obj = n && e.st = .filling

/-- close: as it issues the window closes to accesses that arrive later, and the instruction completes once every access admitted
before has (R380). -/
def syncClose (p : Nat) (c : Chip) : Chip :=
  issueSync 4 (fun _ => .none) p (fun x c =>
    let c := if x.chain.isNone then c.setVal x.p (syObject x.i) (.window false) else c
    if c.windowBusy x.p (syObject x.i) then .park (some 0) [] c else .done c) c

def execSyncClose (p : Nat) (s : State) : Out := onChip (.syncClose p) s (syncClose p)

/-! ## Reductions (Tables 11.7 and 11.8) -/

def rdKind (d : Nat) : Nat := fld d 255 252
def rdHome (d : Nat) : Nat := fld d 251 249
def rdArea (d : Nat) : Nat := 64 * fld d 248 228
def rdN (d : Nat) : Nat := fld d 227 212
def rdWords (d : Nat) : Nat := fld d 211 200
def rdDecision (d : Nat) : Nat := fld d 199 190
def rdDone (d : Nat) : Nat := fld d 189 180
def rdPerBead (d : Nat) : Nat := fld d 179 160
def rdPerIter (d : Nat) : Nat := fld d 159 140

def contributeFoot (x : Ctx) : Foot :=
  if syOp x.i = 5 then { reads := [⟨3, 64 * sySrc x.i, 4 * rdWords (x.consts (syRed x.i) 2)⟩], writes := [] } else .none

/-- contribute: the words at src_addr are on their way to the home Casket (R392). -/
def syncContribute (p : Nat) (c : Chip) : Chip :=
  issueSync 5 contributeFoot p
    (fun x c =>
      let d := x.consts (syRed x.i) 2
      let ws := (List.range (rdWords d)).map fun w => BitVec.ofNat 32 (c.lockLE x.p 3 (64 * sySrc x.i + 4 * w) 4)
      .done { c with contribs := c.contribs ++
        [{ job := x.j, step := x.run.step, entry := syRed x.i,
           idx := syIndex x.i + rdPerBead d * x.g + rdPerIter d * x.iteration, words := ws }] }) c

def execSyncContribute (p : Nat) (s : State) : Out := onChip (.syncContribute p) s (syncContribute p)

/-- Offsets of the second region and of the arrival bits in the area (R393, Table 11.8). -/
def rdSecond (d : Nat) : Nat := rdArea d + roundUp (if rdKind d = 6 then 4 * rdWords d * rdN d else 4 * rdWords d) 64
def rdBits (d : Nat) : Nat :=
  if rdKind d = 6 then rdSecond d
  else rdSecond d + roundUp (if rdKind d = 0 then 4 * rdWords d * rdN d else 4 * rdWords d) 64

/-- Key of byte `off` of the home scratch of a reduction. -/
def rdKey (x : Job) (d off : Nat) : Nat := scratchKey x.slot (rdHome d) off

/-- The reset accumulator word of a kind (R393, R395). -/
def rdIdle (kind : Nat) : Nat := if kind = 3 || kind = 5 then u32max else 0

/-- One word combined into an accumulator word (R394). -/
def rdCombine (kind a b : Nat) : Nat :=
  match kind with
  | 1 => min u32max (a + b)
  | 2 => max a b
  | 3 => min a b
  | 4 => a ||| b
  | _ => a &&& b

/-- Word `w` at an offset of the scratch. -/
def Chip.scrWord (c : Chip) (x : Job) (d off w : Nat) : Nat := c.scratch.readLE (rdKey x d (off + 4 * w)) 4
def Chip.putScrWord (c : Chip) (x : Job) (d off w v : Nat) : Chip :=
  { c with scratch := c.scratch.writeN (rdKey x d (off + 4 * w)) (leBytes 4 v) }

/-- The arrival bit of an index. -/
def Chip.arrived (c : Chip) (x : Job) (d i : Nat) : Bool := bit (c.scratch.readLE (rdKey x d (rdBits d + i / 8)) 1) (i % 8)
def Chip.setArrived (c : Chip) (x : Job) (d i : Nat) : Chip :=
  let k := rdKey x d (rdBits d + i / 8)
  { c with scratch := c.scratch.writeN k (leBytes 1 (c.scratch.readLE k 1 ||| 2 ^ (i % 8))) }

/-- A contribution combined or stored, and its arrival bit set (R394). -/
def Chip.storeContrib (c : Chip) (x : Job) (d : Nat) (k : Contrib) : Chip :=
  let c := k.words.zipIdx.foldl (fun c (v, w) =>
    if rdKind d = 0 then c.putScrWord x d (rdSecond d + 4 * rdWords d * k.idx) w v.toNat
    else if rdKind d = 6 then c.putScrWord x d (rdArea d + 4 * rdWords d * k.idx) w v.toNat
    else c.putScrWord x d (rdSecond d) w (rdCombine (rdKind d) (c.scrWord x d (rdSecond d) w) v.toNat)) c
  c.setArrived x d k.idx

/-- Result word `w` of a complete round (R395). -/
def Chip.resultWord (c : Chip) (x : Job) (d w : Nat) : Nat :=
  if rdKind d = 0 then
    rnd (pairSum ((List.range (rdN d)).map fun i => f32 (c.scrWord x d (rdSecond d + 4 * rdWords d * i) w)))
  else c.scrWord x d (rdSecond d) w

/-- The round's result is published, the accumulator and the arrival bits are reset, the decision word is written and done
is posted on every Bead (R395). -/
def Chip.completeReduction (c : Chip) (j : Nat) (x : Job) (d : Nat) : Chip :=
  let ws := List.range (rdWords d)
  let c := if rdKind d = 6 then c else ws.foldl (fun c' w => c'.putScrWord x d (rdArea d) w (c.resultWord x d w)) c
  let c := if rdKind d = 0 || rdKind d = 6 then c
    else ws.foldl (fun c w => c.putScrWord x d (rdSecond d) w (rdIdle (rdKind d))) c
  let k := rdKey x d (rdBits d)
  let c := { c with scratch := c.scratch.clear k (k + ceilDiv (rdN d) 8) }
  let c := if rdDecision d = noObj then c
    else c.updJob j fun y => { y with decisions := y.decisions.put (rdDecision d) (c.scrWord x d (rdArea d) 0) }
  c.postAll j (rdDone d)

/-- The accumulators and bits of a variant's reduction areas as binding writes them (R393): scratch is zero elsewhere. -/
def Chip.initReduction (c : Chip) (x : Job) (d : Nat) : Chip :=
  if rdIdle (rdKind d) = 0 || rdKind d = 0 || rdKind d = 6 then c
  else (List.range (rdWords d)).foldl (fun c w => c.putScrWord x d (rdSecond d) w u32max) c

/-- The `n`-th element that belongs to job `j`, with the rest of the list. -/
def takeNth (own : α → Bool) : Nat → List α → Option (α × List α)
  | _, [] => none
  | n, a :: as =>
    if own a then
      match n with
      | 0 => some (a, as)
      | n + 1 => (takeNth own n as).map fun (b, bs) => (b, a :: bs)
    else (takeNth own n as).map fun (b, bs) => (b, a :: bs)

/-- A contribution reaches its home Casket: a second one of an index in a round fences the job with REDUCE_DUPLICATE and is
not stored; the last one completes the round (R394, R395). -/
def contributionArrival (j n : Nat) (c : Chip) : Chip :=
  match takeNth (fun k : Contrib => k.job = j) n c.contribs, c.job? j with
  | some (k, rest), some x =>
    let c := { c with contribs := rest }
    let d := constWords (c.capsule x.setting) x.variant k.entry 2
    if c.arrived x d k.idx then
      c.raiseDie j (dieFacet ((groupFacets x.size x.base).getD (rdHome d) 0)) stReduceDuplicate k.step
        (.contributor k.entry k.idx)
    else
      let c := c.storeContrib x d k
      if (List.range (rdN d)).all (c.arrived x d) then c.completeReduction j x d else c
  | _, _ => c

def execContributionArrival (j n : Nat) (s : State) : Out :=
  onChip (.contributionArrival j n) s (contributionArrival j n)

/-- Length of the slot watchdog in ticks (R375). -/
def watchTicks : Nat := 8715

end Sys2Proof.Machine
end

