-- ==== Sys2Proof/Machine/Loupe.lean ====
section
/-! DEFINITION. Conditional computation: the compare of a Loupe block, expert routing, tile reports and the rounds that they
complete (R299 to R319). -/
namespace Sys2Proof.Machine

/-! ## Layouts (Tables 8.2, 8.3, 8.5) -/

def lbBlock (w : Nat) : Nat := fld w 255 246
def lbDecision (w : Nat) : Nat := fld w 245 236
def lbIn (w : Nat) : Nat := fld w 235 220
def lbRef (w : Nat) : Nat := fld w 219 204
def lbState (w : Nat) : Nat := fld w 203 188
def lbList (w : Nat) : Nat := fld w 171 156
def lbWarm (w : Nat) : Nat := fld w 155 148
def lbReuse (w : Nat) : Nat := fld w 147 140
def lbTokens (w : Nat) : Nat := fld w 127 64
def lbThreshold (w : Nat) : Val := f32 (fld w 63 32)

/-- The entry of a Loupe block (R300). -/
def loupeBlock (c : Capsule) (block : Nat) : Nat :=
  ((sectionEntries c secLoupe 0 32).find? fun w => lbBlock w = block).getD 0

def ceBlock (w : Nat) : Nat := fld w 127 118
def ceBase (w : Nat) : Nat := fld w 117 102
def cePerBead (w : Nat) : Nat := fld w 101 86
def ceCount (w : Nat) : Nat := fld w 85 70

def rtExperts (w : Nat) : Nat := fld w 255 248 + 1
def rtTopK (w : Nat) : Nat := fld w 247 244
def rtDecision (w : Nat) : Nat := fld w 243 234
def rtTensor (w : Nat) : Nat := fld w 233 218
def rtBlock (w : Nat) : Nat := fld w 217 208
def rtBase (w : Nat) : Nat := fld w 207 192
def rtPerBead (w : Nat) : Nat := fld w 191 176
def rtCount (w : Nat) : Nat := fld w 175 160
def rtCapacity (w : Nat) : Nat := fld w 159 128
def rtTokens (w : Nat) : Nat := fld w 127 64

/-- The step index that rounds use (R338): all ones before the first step_begin. -/
def Ctx.stepIndex (x : Ctx) : Nat := x.run.step.getD u32max

/-! ## The compare of a token (R303) -/

/-- The distance of a row from its reference: the greatest |x - r|, each rounded once; NaN propagates. -/
def rowDistance (xs rs : List Val) : Val :=
  (List.zipWith (fun a b => (rndV (a.sub b)).abs) xs rs).foldl Val.max .zero

/-- Whether a token is computed: a warm step, a distance not below the threshold, or a reuse limit reached (R303). -/
def tokenActive (w k age : Nat) (d : Val) : Bool :=
  k < lbWarm w || d.isNaN || !d.lt (lbThreshold w) || (lbReuse w != 0 && lbReuse w ≤ age)

/-- Flags and age of a present token after the compare. -/
def tokenState (active : Bool) (age : Nat) : List Byte := if active then [3, 0] else [1, BitVec.ofNat 8 (min (age + 1) 255)]

/-- What a compare works on: tokens that exist, tokens present, bytes of a row, bytes of an element and its format. -/
structure LoupeShape where
  tokens : Nat
  present : Nat
  rowBytes : Nat
  fmt : Nat
  deriving DecidableEq, Repr

def loupeShape (x : Ctx) (w : Nat) : LoupeShape :=
  let d := (findTensor x.cap (lbIn w)).getD 0
  let es := tensorExtents x.cap x.job.tuple d
  { tokens := es.getD 0 0, present := dimValid x (es.getD 0 0) (lbTokens w),
    rowBytes := es.getD 1 0 * (fmtBits (tdFormat d) / 8), fmt := tdFormat d }

/-- Values of a row's bytes. -/
def rowValues (fmt : Nat) (bs : List Byte) : List Val :=
  let n := fmtBits fmt / 8
  (List.range (bs.length / n)).map fun i => elemVal fmt true (getLE bs (n * i) n)

/-- `n` bytes of a tensor of the job; a tensor that is not placed reads as zeros. -/
def Chip.tensorRead (c : Chip) (x : Ctx) (tid off n : Nat) : Except Place (List Byte) :=
  match c.tensorAlloc? x.job tid with
  | some a => c.allocRead a off n
  | none => .ok (List.replicate n 0)

def Chip.tensorReady (c : Chip) (x : Ctx) (tid off n : Nat) : Bool :=
  match c.tensorAlloc? x.job tid with
  | some a => c.allocReady a off n
  | none => true

/-- One token compared: whether it is active, and the new state; or where poisoned data stands. -/
def Chip.compareToken (c : Chip) (x : Ctx) (w k : Nat) (sh : LoupeShape) (t : Nat) : Except (Nat × Place) (Bool × Chip) :=
  if sh.present ≤ t then .ok (false, c.tensorWrite x (lbState w) (2 * t) [0, 0])
  else
    match c.tensorRead x (lbIn w) (t * sh.rowBytes) sh.rowBytes, c.tensorRead x (lbRef w) (t * sh.rowBytes) sh.rowBytes,
        c.tensorRead x (lbState w) (2 * t) 2 with
    | .error p, _, _ => .error (lbIn w, p)
    | _, .error p, _ => .error (lbRef w, p)
    | _, _, .error p => .error (lbState w, p)
    | .ok row, .ok ref, .ok st =>
      let age := (st.getD 1 0).toNat
      let act := tokenActive w k age (rowDistance (rowValues sh.fmt row) (rowValues sh.fmt ref))
      let c := c.tensorWrite x (lbState w) (2 * t) (tokenState act age)
      .ok (act, c.tensorWrite x (lbRef w) (t * sh.rowBytes) row)

/-- The tokens of one tile that exist. -/
def tileTokens (sh : LoupeShape) (tile : Nat) : List Nat :=
  ((List.range 128).map (128 * tile + ·)).filter (· < sh.tokens)

/-- One tile: its tokens compared, and its report with its active tokens under way to the home Casket. -/
def Chip.compareTile (c : Chip) (x : Ctx) (w k : Nat) (sh : LoupeShape) (tile : Nat) : Except (Nat × Place) Chip :=
  let r := (tileTokens sh tile).foldl (fun acc t => match acc with
    | .error e => .error e
    | .ok (act, c) => match c.compareToken x w k sh t with
      | .error e => .error e
      | .ok (a, c) => .ok (if a then act ++ [t] else act, c)) (Except.ok (([] : List Nat), c))
  match r with
  | .error e => .error e
  | .ok (act, c) =>
    .ok { c with reports := c.reports ++
      [{ job := x.j, obj := .loupe (lbBlock w), step := k, tile := tile,
         choices := act.map fun t => { row := t, experts := [] } }] }

/-- Tiles compared one after another; or where poisoned data stands. -/
def Chip.compareTiles (c : Chip) (x : Ctx) (w k : Nat) (sh : LoupeShape) : List Nat → Except (Nat × Place) Chip
  | [] => .ok c
  | t :: ts => match c.compareTile x w k sh t with
    | .error e => .error e
    | .ok c => c.compareTiles x w k sh ts

/-- The tiles of an instruction (R302). -/
def instrTiles (base per count g : Nat) : List Nat := (List.range count).map (base + per * g + ·)

/-- Whether every tensor that a compare of these tiles touches answers now. -/
def Chip.loupeReady (c : Chip) (x : Ctx) (w : Nat) (sh : LoupeShape) (tiles : List Nat) : Bool :=
  tiles.all fun t =>
    let n := (tileTokens sh t).length
    c.tensorReady x (lbIn w) (128 * t * sh.rowBytes) (n * sh.rowBytes)
      && c.tensorReady x (lbRef w) (128 * t * sh.rowBytes) (n * sh.rowBytes)
      && c.tensorReady x (lbState w) (256 * t) (2 * n)

/-- A compare that the Loupe of the Facet received before is not done (R304). -/
def Chip.loupeBusy (c : Chip) (x : Ctx) : Bool :=
  let f := physFacet x.p
  (List.range 120).any fun i =>
    let q := 120 * f + i
    match (c.bead q).job with
    | none => false
    | some j => match c.job? j with
      | none => false
      | some y => !(c.bead q).run.stopped && (c.bead q).run.parked.any fun k =>
        x.arr.elim true (k.arr < ·) && ((instrAt (c.capsule y.setting) (c.bead q).run.stream k.pos).elim false fun i =>
          iClass i = 2 && iOp i = 0x60)

/-- loupe_compare: every tile it names is compared and reported (R302 to R304). -/
def loupeCompare (p : Nat) (c : Chip) : Chip :=
  issueLane 0x60 (fun _ => .none) p (fun x c =>
    let e := x.const (laneConst x.i)
    let w := loupeBlock x.cap (ceBlock e)
    let sh := loupeShape x w
    let k := x.stepIndex
    let tiles := instrTiles (ceBase e) (cePerBead e) (ceCount e) x.g
    if c.loupeBusy x || !c.loupeReady x w sh tiles then .park none [] c
    else
      match c.compareTiles x w k sh tiles with
      | .error (tid, at_) => .lost (some tid) at_ c
      | .ok c => .done c) c

def execLoupeCompare (p : Nat) (s : State) : Out := onChip (.loupeCompare p) s (loupeCompare p)

/-! ## route (R315, R316) -/

/-- Logit `a` ranks before logit `b`, or beside it: descending, NaN below -∞ (R316). -/
def logitLe (a b : Val) : Bool := if a.isNaN then b.isNaN else b.isNaN || !a.lt b

/-- The experts of a row in rank order: equal logits keep the lower index first. -/
def rankExperts (logits : List Val) : List Nat :=
  (sortBy (fun a b => logitLe a.1 b.1) logits.zipIdx).map (·.2)

/-- Rows that a route's tokens word allocates, and that are present by it (R172, R316). -/
def routeAllocated (x : Ctx) (w : Nat) : Nat :=
  let t := rtTokens w
  if bit t 63 then bucketValue x.cap (fld t 62 61) (x.job.tuple.getD (fld t 62 61) 0) * fld t 47 32 else fld t 31 0

/-- N of a round: the allocated rows, or the bucket that the linked block's latest decide chose (R316). -/
def routeRows (x : Ctx) (w : Nat) : Nat :=
  if rtBlock w = noObj then routeAllocated x w
  else x.job.latestBucket.get 0 (lbDecision (loupeBlock x.cap (rtBlock w)))

/-- Bytes of the active list that a linked route reads for a tile, and the tensor. -/
def Chip.routeList (c : Chip) (x : Ctx) (w tile : Nat) : Except Place (List Byte) :=
  c.tensorRead x (lbList (loupeBlock x.cap (rtBlock w))) (512 * tile) 512

/-- Which of the 128 rows of a tile are present (R316). -/
def Chip.routePresent (c : Chip) (x : Ctx) (w tile : Nat) : Except Place (List Bool) :=
  if rtBlock w = noObj then
    let v := dimValid x (routeAllocated x w) (rtTokens w)
    .ok ((List.range 128).map fun r => 128 * tile + r < v)
  else match c.routeList x w tile with
    | .error p => .error p
    | .ok bs => .ok ((List.range 128).map fun r => getLE bs (4 * r) 4 != u32max)

/-- One row routed: its chosen experts, their logits written in rank order. -/
def Chip.routeRow (c : Chip) (x : Ctx) (w i r : Nat) : List Nat × Chip :=
  let e := rtExperts w
  let k := rtTopK w
  let src := 64 * laneAddr0 x.i + 512 * e * i + 4 * e * r
  let codes := (List.range e).map fun n => c.lockLE x.p (laneBank0 x.i) (src + 4 * n) 4
  let best := (rankExperts (codes.map f32)).take k
  let dst := 64 * laneAddrD x.i + 512 * k * i + 4 * k * r
  (best, best.zipIdx.foldl (fun c (b, j) =>
    let code := codes.getD b 0
    c.lockWrite x.p (laneBankD x.i) (dst + 4 * j) (leBytes 4 (if (f32 code).isNaN then f32NaN else code))) c)

/-- One tile routed, and its report with its choices under way. -/
def Chip.routeTile (c : Chip) (x : Ctx) (w k i tile : Nat) (present : List Bool) : Chip :=
  let (ch, c) := present.zipIdx.foldl (fun (acc : List RowChoice × Chip) e =>
    if e.1 then
      let (best, c) := acc.2.routeRow x w i e.2
      (acc.1 ++ [{ row := 128 * tile + e.2, experts := best }], c)
    else acc) ([], c)
  { c with reports := c.reports ++
      [{ job := x.j, obj := .route (laneConst x.i), step := k, tile := tile, choices := ch }] }

/-- Tiles, each with its place in the instruction, routed one after another; or where poisoned data stands. -/
def Chip.routeTiles (c : Chip) (x : Ctx) (w k : Nat) : List (Nat × Nat) → Except Place Chip
  | [] => .ok c
  | (tile, i) :: ts => match c.routePresent x w tile with
    | .error p => .error p
    | .ok present => (c.routeTile x w k i tile present).routeTiles x w k ts

def routeFoot (x : Ctx) : Foot :=
  let w := x.consts (laneConst x.i) 2
  { reads := [⟨laneBank0 x.i, 64 * laneAddr0 x.i, 512 * rtExperts w * rtCount w⟩],
    writes := [⟨laneBankD x.i, 64 * laneAddrD x.i, 512 * rtTopK w * rtCount w⟩] }

/-- route: the k best experts of every present row, their logits, and a report for each tile (R315, R316). -/
def route_ (p : Nat) (c : Chip) : Chip :=
  issueLane 0x61 routeFoot p
    (fun x c =>
      let w := x.consts (laneConst x.i) 2
      let k := x.stepIndex
      let tiles := instrTiles (rtBase w) (rtPerBead w) (rtCount w) x.g
      let lt := lbList (loupeBlock x.cap (rtBlock w))
      if rtBlock w != noObj && !tiles.all (fun t => c.tensorReady x lt (512 * t) 512) then .park none [] c
      else
        match c.routeTiles x w k tiles.zipIdx with
        | .error at_ => .lost (some lt) at_ c
        | .ok c => .done c) c

def execRoute (p : Nat) (s : State) : Out := onChip (.route p) s (route_ p)

/-! ## Rounds (R305, R306, R317, R318) -/

/-- A job in its place, without a Bead: for what its home Casket does. -/
def Chip.jobCtx (c : Chip) (j : Nat) (x : Job) : Ctx :=
  { p := c.beadOf x 0, g := 0, j := j, job := x, cap := c.capsule x.setting, v := x.variant, i := 0 }

/-- Tiles of a round (R302, R316). -/
def roundTiles (x : Ctx) : RoundObj → Nat
  | .loupe b => ceilDiv (loupeShape x (loupeBlock x.cap b)).tokens 128
  | .route e => ceilDiv (routeRows x (x.consts e 2)) 128

/-- The tensor that a complete round writes, and its bytes. -/
def roundTensor (x : Ctx) : RoundObj → Nat
  | .loupe b => lbList (loupeBlock x.cap b)
  | .route e => rtTensor (x.consts e 2)

/-- Bytes written at the home Casket into a tensor of the job. -/
def Chip.homeWrite (c : Chip) (x : Ctx) (tid : Nat) (bs : List Byte) : Chip :=
  match c.tensorAlloc? x.job tid with
  | some a => c.allocWrite x.job.slot a 0 bs
  | none => c

/-- A decision word written (R310). -/
def Chip.setDecision (c : Chip) (j n w : Nat) : Chip :=
  c.updJob j fun y => { y with decisions := y.decisions.put n w }

/-- The largest bucket of a decision point. -/
def largestBucket (x : Ctx) (n : Nat) : Nat := (decisionPoint x.cap x.v n).2.1.foldl max 0

/-- The input semaphore of a decision point is posted on every Bead of the group. -/
def Chip.postDecision (c : Chip) (x : Ctx) (n : Nat) : Chip := c.postAll x.j (dpInputSem (decisionPoint x.cap x.v n).1)

/-- A Loupe round completes: the active count is the decision word, the active tokens in ascending order are the list,
filled with all ones up to the largest bucket, and the input semaphore is posted (R306). -/
def Chip.completeLoupe (c : Chip) (x : Ctx) (block : Nat) (r : Round) : Chip :=
  let w := loupeBlock x.cap block
  let act := sortDedup (r.choices.map (·.row))
  let n := largestBucket x (lbDecision w)
  let es := act ++ List.replicate (n - act.length) u32max
  let c := c.setDecision x.j (lbDecision w) act.length
  let c := c.homeWrite x (lbList w) (es.flatMap (leBytes 4))
  c.postDecision x (lbDecision w)

/-- The choices of every expert in the order of R317: choice rank first, row second. Each is (expert, rank, row). -/
def orderedChoices (k : Nat) (cs : List RowChoice) : List (Nat × Nat × Nat) :=
  let rows := sortBy (fun (a b : RowChoice) => a.row ≤ b.row) cs
  (List.range k).flatMap fun j => rows.filterMap fun r => (r.experts[j]?).map fun e => (e, j, r.row)

/-- A route round completes: expert lists, reverse map, kept loads and posts (R317, R318). -/
def Chip.completeRoute (c : Chip) (x : Ctx) (entry : Nat) (r : Round) : Chip :=
  let w := x.consts entry 2
  let cap := rtCapacity w
  let k := rtTopK w
  let all := orderedChoices k r.choices
  let of (e : Nat) : List (Nat × Nat × Nat) := all.filter (·.1 = e)
  let lists := (List.range (rtExperts w)).flatMap fun e =>
    let kept := ((of e).take cap).map (·.2.2)
    kept ++ List.replicate (cap - kept.length) u32max
  let back := (List.range (routeRows x w)).flatMap fun n => (List.range k).map fun j =>
    match all.find? fun t => t.2.1 = j && t.2.2 = n with
    | none => u32max
    | some t => match indexOf? (· = t) (of t.1) with
      | some s => if s < cap then t.1 * cap + s else u32max
      | none => u32max
  let c := c.homeWrite x (rtTensor w) ((lists ++ back).flatMap (leBytes 4))
  let c := (List.range (rtExperts w)).foldl (fun c e => c.setDecision x.j (rtDecision w + e) (min (of e).length cap)) c
  let c := if (List.range (rtExperts w)).any fun e => cap < (of e).length then c.setFlag x.j x.p flExpertDropped else c
  (List.range (rtExperts w)).foldl (fun c e => c.postDecision x (rtDecision w + e)) c

/-- A round that holds this report, or a new one (R305). -/
def roundOf (rs : List Round) (k : Report) : Round :=
  (rs.find? fun r => r.obj = k.obj).getD { obj := k.obj, step := k.step, tiles := [], choices := [] }

/-- A tile report reaches the home Casket: a tile that has reported, or a foreign step index, fences the job with
ROUND_DUPLICATE, which names the object and the tile; the last tile completes the round once its tensor's memory answers (R305, R306, R318). -/
def tileReport (j n : Nat) (c : Chip) : Chip :=
  match takeNth (fun k : Report => k.job = j) n c.reports, c.job? j with
  | some (k, rest), some y =>
    let x := c.jobCtx j y
    let r := roundOf y.rounds k
    if r.tiles.contains k.tile || r.step != k.step then
      { c with reports := rest }.raiseDie j (dieFacet ((groupFacets y.size y.base).getD 0 0)) stRoundDuplicate (some k.step)
        (.tile k.obj k.tile)
    else
      let r := { r with tiles := r.tiles ++ [k.tile], choices := r.choices ++ k.choices }
      let others := y.rounds.filter fun o => o.obj != k.obj
      if (List.range (roundTiles x k.obj)).all r.tiles.contains then
        if !c.tensorReady x (roundTensor x k.obj) 0 ((c.tensorAlloc? y (roundTensor x k.obj)).elim 0 (·.bytes)) then c
        else
          let c := { c with reports := rest }.setJob j { y with rounds := others }
          match k.obj with
          | .loupe b => c.completeLoupe x b r
          | .route e => c.completeRoute x e r
      else { c with reports := rest }.setJob j { y with rounds := others ++ [r] }
  | _, _ => c

def execTileReport (j n : Nat) (s : State) : Out := onChip (.tileReport j n) s (tileReport j n)

end Sys2Proof.Machine
end

