-- ==== Sys2Proof/Machine/Cameo.lean ====
section
/-! DEFINITION. Cameo: streams, rows from the VAE decoder, coding, records, and decoding (R439 to R468). What the codecs' own
standards fix is in constants with no body (assumption 34, DESIGN CHOICE); all that the rules state is here. -/
namespace Sys2Proof.Machine

/-! ## The stream descriptor (Table 13.4) and the row stream entry (Table 13.5) -/

def cmDecode (d : Nat) : Bool := fld d 511 510 = 1
def cmCodec (d : Nat) : Nat := fld d 509 508
def cmTenBit (d : Nat) : Bool := bit d 507
def cmGang (d : Nat) : Nat := 2 ^ fld d 506 504
def cmWidth (d : Nat) : Nat := fld d 503 490
def cmHeight (d : Nat) : Nat := fld d 489 477
def cmFrames (d : Nat) : Nat := fld d 473 410
def cmOut (d : Nat) : Nat := fld d 409 394
def cmIn (d : Nat) : Nat := fld d 393 378
def cmRoi (d : Nat) : Nat := fld d 377 362
def cmCtl (d : Nat) : Nat := fld d 361 346
def cmMode (d : Nat) : Nat := fld d 345 343
def cmQp (d : Nat) : Nat := fld d 342 337
def cmQpMin (d : Nat) : Nat := fld d 336 331
def cmQpMax (d : Nat) : Nat := fld d 330 325
def cmBitrate (d : Nat) : Nat := fld d 324 305
def cmMaxBitrate (d : Nat) : Nat := fld d 304 285
def cmHrdBuffer (d : Nat) : Nat := fld d 284 265
def cmFpsNum (d : Nat) : Nat := fld d 141 126
def cmFpsDen (d : Nat) : Nat := fld d 125 110
def cmKeyPeriod (d : Nat) : Nat := fld d 264 249
def cmDone (d : Nat) : Nat := fld d 248 239
def cmOwner (d : Nat) : Nat := fld d 238 227
def cmFramePost (d : Nat) : Nat := fld d 226 217
def cmFrameFree (d : Nat) : Nat := fld d 216 207
def cmSurfaces (d : Nat) : Nat := fld d 206 203
def cmMatrix (d : Nat) : Nat := fld d 202 187
def cmInFmt (d : Nat) : Nat := fld d 186 183
def cmPrimaries (d : Nat) : Nat := fld d 182 175
def cmTransfer (d : Nat) : Nat := fld d 174 167
def cmMatrixCoeffs (d : Nat) : Nat := fld d 166 159
def cmFullRange (d : Nat) : Bool := bit d 158
def cmClasses (d : Nat) : Nat := fld d 157 142

def rsStream (w : Nat) : Nat := fld w 127 112
def rsFrameBase (w : Nat) : Nat := fld w 111 96
def rsFramePerIter (w : Nat) : Nat := fld w 95 80
def rsRowBase (w : Nat) : Nat := fld w 79 67
def rsRowPerBead (w : Nat) : Nat := fld w 66 54
def rsRowPerIter (w : Nat) : Nat := fld w 53 41

/-- No tensor. -/
def noTensor : Nat := 0xFFFF

/-- The descriptor at a constant entry. -/
def streamDesc (x : Ctx) (entry : Nat) : Nat := x.consts entry 4

/-- Frames of a stream (R172, Table 13.4). -/
def streamFrames (x : Ctx) (d : Nat) : Nat := dimValid x 65535 (cmFrames d)

/-- CTU rows of a picture, and luma rows of CTU row `r`. -/
def ctuRows (d : Nat) : Nat := ceilDiv (cmHeight d) 64
def ctuLuma (d r : Nat) : List Nat := (List.range 64).filterMap fun i => if 64 * r + i < cmHeight d then some (64 * r + i) else none

/-- The tile columns of uniform spacing of a picture `w` samples wide in a gang of `g`: first sample and width of that which rank
0, 1, … codes (R441). -/
def tileColumns (codec w g : Nat) : List (Nat × Nat) :=
  let cols := ceilDiv w 64
  let edge (i : Nat) : Nat := min w (64 * if codec = 1 then ceilDiv cols g * i else i * cols / g)
  (List.range g).map fun i => (edge i, edge (i + 1) - edge i)
def cmTiles (d : Nat) : List (Nat × Nat) := tileColumns (cmCodec d) (cmWidth d) (cmGang d)

/-- Bytes of the regions of an engine pair's area: bitstream buffer, syntax buffer, intake and reference window (Table 13.1). The
bitstream buffer of a decode holds no more than its region; of the other regions the sizes bound how far the engines run ahead of one
another, which changes no output bit (assumption 103, DEDUCED). -/
def areaRegions : List Nat := [2 ^ 20, 2 ^ 20, 2 ^ 21, 2 ^ 22]
def bitstreamBytes : Nat := areaRegions.getD 0 0

/-- The constant entries of the streams of a variant: the distinct descriptors that kind 6 DMA descriptors name (R444). -/
def variantStreams (cap : Capsule) (v : Nat) : List Nat :=
  ((sectionEntries cap secDma (varDma (variantWord cap v)) 32).foldl (fun acc d =>
    if ddKind d = 6 then
      let e := rsStream (constEntry cap v (ddList d))
      if acc.contains e then acc else acc ++ [e]
    else acc) [])

/-! ## Streams of a bound job -/

def Chip.streamOf? (c : Chip) (j entry : Nat) : Option StreamSt := c.streams.find? fun s => s.job = j && s.entry = entry
def Chip.stream? (c : Chip) (st : Nat) : Option StreamSt := c.streams.find? (·.id = st)
def Chip.updStream (c : Chip) (st : Nat) (f : StreamSt → StreamSt) : Chip :=
  { c with streams := c.streams.map fun s => if s.id = st then f s else s }

/-- A stream's place: its job, capsule and owner; none when the job is not bound. -/
def Chip.streamCtx (c : Chip) (s : StreamSt) : Option Ctx :=
  match c.job? s.job with
  | some y => if y.phase = .bound
      then some { p := s.owner, g := (c.bead s.owner).g, j := s.job, job := y, cap := c.capsule y.setting, v := y.variant,
                  i := 0 } else none
  | none => none

/-- A status that names a stream and a frame, raised by Cameo at the step index of the stream's owner. -/
def Chip.raiseCameo (c : Chip) (s : StreamSt) (st frame : Nat) : Chip :=
  c.raiseDie s.job dieCameo st (c.bead s.owner).run.step (.frame s.entry frame)

/-- The area of the pair of gang rank `i` of a stream. -/
def Chip.areaOf (c : Chip) (s : StreamSt) (i : Nat) : PairArea := (c.pair (s.pairs.getD i 0)).area
def Chip.updArea (c : Chip) (s : StreamSt) (i : Nat) (f : PairArea → PairArea) : Chip :=
  c.updPair (s.pairs.getD i 0) fun z => { z with area := f z.area }

/-- The areas of every pair of a stream's gang. -/
def Chip.updAreas (c : Chip) (s : StreamSt) (f : Nat → PairArea → PairArea) : Chip :=
  iter s.pairs.length (fun i c => c.updArea s i (f i)) c

/-- The open slots of a stream: those of rank 0, since the pairs of a gang open and read theirs together (R451). -/
def Chip.slotsOf (c : Chip) (s : StreamSt) : List RowSlot := (c.areaOf s 0).slots

/-- Slot `i` of the raster order of (f, r); none past the last frame (R451). -/
def rasterSlot (rows frames i : Nat) : Option RowSlot :=
  if i < rows * frames then some { frame := i / rows, row := i % rows, have_ := [] } else none

/-- Bits that the coded picture buffer of a stream holds, and that it gains in a frame interval, both times the frame rate
numerator: hrd_buffer at bitrate, or at max_bitrate in mode 2 (Table 13.8). A kbit is 1,000 bits. -/
def cpbSize (d : Nat) : Nat := cmHrdBuffer d * 1000 * cmFpsNum d
def cpbGain (d : Nat) : Nat := (if cmMode d = 2 then cmMaxBitrate d else cmBitrate d) * 1000 * cmFpsDen d

/-- A stream as binding makes it (R446). -/
def newStream (x : Ctx) (id entry owner : Nat) (pairs : List Nat) : StreamSt :=
  let d := streamDesc x entry
  { id := id, job := x.j, entry := entry, owner := owner, pairs := pairs, waiting := [], frame := 0, row := 0, ctl := 0, roi := [],
    qp := 0, refs := [], recordDue := false, taken := [], stats := [], sizes := [],
    fullness := min (cpbSize d) (Config.initialFullness d * cmFpsNum d), surfaces := List.replicate 4 none,
    lt := [none, none], fallback := false, recOff := 0, ended := false, input := [], units := [], inputEnd := false,
    decoded := [], held := [], shown := [], output := 0, lastGood := none }

/-- The area of a pair as a stream's start finds it: (0, 0) and (0, 1) are open (R451). -/
def newArea (x : Ctx) (entry : Nat) : PairArea :=
  let d := streamDesc x entry
  { PairArea.empty with
    slots := if cmDecode d then [] else [0, 1].filterMap (rasterSlot (ctuRows d) (streamFrames x d)) }

/-! ## Samples (R450) -/

/-- Element `e` of a pixel of a row. -/
def rowPixel (fmt : Nat) (bs : List Byte) (px e : Nat) : Val :=
  let n := fmtBits fmt / 8
  elemVal fmt false (getLE bs (n * (3 * px + e)) n)

/-- component(k, x, y) of the pixel of a row: `m` is the conversion entry of k. -/
def component (m fmt : Nat) (bs : List Byte) (px : Nat) : Val :=
  let t := fmaF (f32 (fld m 127 96)) (rowPixel fmt bs px 0) (f32 (fld m 31 0))
  let t := fmaF (f32 (fld m 95 64)) (rowPixel fmt bs px 1) t
  fmaF (f32 (fld m 63 32)) (rowPixel fmt bs px 2) t

/-- quantise of a component. -/
def quantiseSample (tenBit : Bool) (v : Val) : Nat :=
  if v.isNaN then 0 else (narrowInt 0 (if tenBit then 1023 else 255) 16 0 0 v).code

/-- The mean of four components, each step rounded. -/
def chromaMean (a b e f : Val) : Val := mulF (addF (addF a b) (addF e f)) (f32 0x3E800000)

/-- The chroma samples of two rows from their components, `a` those of the even row. -/
def chromaSamples (tenBit : Bool) (a b : List Nat) : List Nat :=
  (List.range (a.length / 2)).map fun px =>
    let v (k : List Nat) (i : Nat) : Val := f32 (k.getD (2 * px + i) 0)
    quantiseSample tenBit (chromaMean (v a 0) (v a 1) (v b 0) (v b 1))

/-- Luma row `y` joins the rows of a slot as converted samples: its luma at once, its chroma once the row it is averaged with is in
(R450, R451, Table 13.1). -/
def RowSlot.take (x : Ctx) (d : Nat) (k : RowSlot) (y : Nat) (bs : List Byte) : RowSlot :=
  let w := bs.length / (3 * (fmtBits (cmInFmt d) / 8))
  let part (n : Nat) : List Val := (List.range w).map (component (x.const (cmMatrix d + n)) (cmInFmt d) bs)
  let other : Option TakenChroma := (k.have_.find? fun r => r.y = y ^^^ 1).map (·.chroma)
  let cb := (part 1).map rnd
  let cr := (part 2).map rnd
  let mine (h : TakenChroma) : RowSlot :=
    { k with have_ := k.have_ ++ [{ y := y, luma := (part 0).map (quantiseSample (cmTenBit d)), chroma := h }] }
  let both := chromaSamples (cmTenBit d)
  match other with
  | some (.parts ob or) =>
    if y % 2 = 0 then
      let k := mine (.samples (both cb ob) (both cr or))
      { k with have_ := k.have_.map fun r => if r.y = y + 1 then { r with chroma := .withEven } else r }
    else
      let k := mine .withEven
      { k with have_ := k.have_.map fun r => if r.y + 1 = y then { r with chroma := .samples (both ob cb) (both or cr) } else r }
  | _ => mine (.parts cb cr)

/-- The samples of CTU row `r` from the rows of a slot, in raster order: luma, Cb, Cr. -/
def rowSamples (d r : Nat) (rows : List TakenRow) : List Nat × List Nat × List Nat :=
  let got := (ctuLuma d r).filterMap fun y => rows.find? (·.y = y)
  let chroma (f : List Nat → List Nat → List Nat) : List Nat := got.flatMap fun t => match t.chroma with
    | .samples cb cr => f cb cr
    | _ => []
  (got.flatMap (·.luma), chroma fun cb _ => cb, chroma fun _ cr => cr)

/-! ## Rows (R448, R449, R451) -/

/-- A kind 6 DMA whose stream a test picks. -/
def isStreamDma (f : Nat → Nat → Bool) (x : Ctx) : Bool :=
  isDma (fun d => ddKind d = 6 && f d (streamDesc x (rsStream (x.const (ddList d))))) x

/-- Frame of an encode transfer, and luma row of its row `i` (R449). -/
def rowFrame (w iter : Nat) : Nat := rsFrameBase w + rsFramePerIter w * iter
def rowLuma (w g iter i : Nat) : Nat := rsRowBase w + rsRowPerBead w * g + rsRowPerIter w * iter + i

/-- An encode transfer: its rows wait at the intake; one beyond the picture or the frames fences the job (R449). -/
def rowStart (x : Ctx) (c : Chip) : Act :=
  let d := dmaDesc x.cap x.v (iDesc x.i)
  let w := x.const (ddList d)
  let sd := streamDesc x (rsStream w)
  let iter := x.iteration
  let f := rowFrame w iter
  let ys := (List.range (ddRows d)).map (rowLuma w x.g iter)
  match c.streamOf? x.j (rsStream w) with
  | none => .hold c
  | some s =>
    if ys.any (fun y => cmHeight sd ≤ y || streamFrames x sd ≤ f) then .raise stCameoRowRange c
    else
      let id := c.sched.nextId
      let e := srcEnd d
      let rows := ys.zipIdx.map fun (y, i) =>
        ({ xfer := id, p := x.p, frame := f, y := y,
           bytes := c.lockRead x.p e.unit (e.base + i * ddSrcStride d) (ddRowBytes d), since := c.now } : WaitRow)
      let c := c.updStream s.id fun s => { s with waiting := s.waiting ++ rows }
      .started (c.addTransfer (c.newTransfer x d iter []))

def execRowStream (p : Nat) (s : State) : Out :=
  onChip (.rowStream p) s (issueDma (isStreamDma fun _ d => !cmDecode d) p rowStart)

/-- The pixels of a tile column in a row's bytes, `b` bytes a pixel. -/
def tilePixels (b : Nat) (tile : Nat × Nat) (bs : List Byte) : List Byte := (bs.drop (b * tile.1)).take (b * tile.2)

/-- Bytes of a pixel of a row stream (R448). -/
def pixelBytes (d : Nat) : Nat := 3 * (fmtBits (cmInFmt d) / 8)

/-- The `n`-th waiting row is taken into its open slot, each pair converting its tile column; a second copy of a row fences the job
(R451). -/
def rowIntake (st n : Nat) (c : Chip) : Chip :=
  match c.stream? st with
  | none => c
  | some s => match c.streamCtx s, s.waiting[n]? with
    | some x, some w =>
      let d := streamDesc x s.entry
      match (c.slotsOf s).find? fun k => k.frame = w.frame && k.row = w.y / 64 with
      | none => c
      | some k =>
        let c := c.updStream st fun s => { s with waiting := dropAt s.waiting n }
        if k.have_.any (·.y = w.y) then
          c.raiseNamed s.job w.p stCameoRowDuplicate (c.bead w.p).run.step (.row (c.bead w.p).g w.frame w.y)
        else c.updAreas s fun i a =>
          { a with slots := a.slots.map fun o =>
              if o.frame = k.frame && o.row = k.row then
                o.take x d w.y (tilePixels (pixelBytes d) ((cmTiles d).getD i (0, 0)) w.bytes)
              else o }
    | _, _ => c

def execRowIntake (st n : Nat) (s : State) : Out := onChip (.rowIntake st n) s (rowIntake st n)

/-! ## Coding tools (Table 13.3) -/

/-- The tools that the encoder may use. -/
def Tool.used : Config.Tool → Bool
  | .baseUnits | .skipAndHiding | .loopFilters | .tiles | .longTerm | .cdefAndWiener | .segmentation => true
  | .asymmetric | .wavefront | .weighted | .biPrediction | .extensions | .selfGuided | .screenAndWarp | .compound
  | .filmGrain | .otherPoints | .h264Tools | .h264Interlace => false

/-- The tools whose streams the decoder decodes; of a stream with operating points other than 0 it decodes point 0 (R443, Table 13.3). -/
def Tool.accepted : Config.Tool → Bool
  | .extensions | .h264Interlace => false
  | .baseUnits | .asymmetric | .skipAndHiding | .loopFilters | .tiles | .wavefront | .weighted | .longTerm | .biPrediction
  | .cdefAndWiener | .selfGuided | .segmentation | .screenAndWarp | .compound | .filmGrain | .otherPoints | .h264Tools => true

/-- The tools of each encoder, by codec. -/
def encoderTools (codec : Nat) : List Config.Tool :=
  ((if codec = 1 then [.cdefAndWiener, .selfGuided, .segmentation, .screenAndWarp, .compound, .filmGrain,
      .otherPoints]
    else [.baseUnits, .asymmetric, .skipAndHiding, .loopFilters, .tiles, .wavefront, .weighted, .longTerm, .biPrediction,
      .extensions]) : List Config.Tool).filter Tool.used

/-! ## The start of a frame (R453 to R458) -/

/-- Bits of a frame control word (Table 13.6). -/
def fcForceKey (w : Nat) : Bool := bit w 31
def fcMark (w : Nat) : Bool := bit w 30
def fcSlot (w : Nat) : Nat := fld w 29 28
def fcRefLt (w : Nat) : Bool := bit w 27
def fcLtRef (w : Nat) : Nat := fld w 26 26
def fcDrop (w k : Nat) : Bool := bit w (25 - k)

/-- Region bytes of a frame: one for each 64 x 64 block. -/
def roiBlocks (d : Nat) : Nat := ceilDiv (cmWidth d) 64 * ceilDiv (cmHeight d) 64

/-- Whether a frame is a key frame (R453, R455). -/
def isKeyFrame (d f ctl : Nat) : Bool := f = 0 || (cmKeyPeriod d != 0 && f % cmKeyPeriod d = 0) || fcForceKey ctl

/-- Long-term slots after force_key and the drops, and whether the frame falls back to the previous frame (R455). -/
def applyControl (d f ctl : Nat) (lt : List (Option Nat)) : List (Option Nat) × Bool :=
  let lt := if fcForceKey ctl then [none, none] else lt
  let lt := lt.zipIdx.map fun (o, k) => if fcDrop ctl k then none else o
  (lt, !isKeyFrame d f ctl && fcRefLt ctl && (lt.getD (fcLtRef ctl) none).isNone)

/-- The frames that frame `f` searches (R454, R455): none for a key frame; with ref_lt the long-term picture alone, or the previous
frame where its slot is empty; else the previous frame and the picture of the lower-numbered full slot. -/
def frameRefs (d f ctl : Nat) (lt : List (Option Nat)) : List Nat :=
  if isKeyFrame d f ctl then []
  else if fcRefLt ctl then [(lt.getD (fcLtRef ctl) none).getD (f - 1)]
  else (f - 1) :: (lt.filterMap id).take 1

/-- The control word and region bytes of a frame, or why they cannot be had. -/
inductive FrameStart where
  | busy
  | lost (tensor : Nat) (at_ : Place)
  | bad
  | ok (ctl : Nat) (roi : List Nat)

/-- What a frame reads at its start (R455, R456). -/
def Chip.frameStart (c : Chip) (x : Ctx) (d f : Nat) : FrameStart :=
  let m := roiBlocks d
  if (cmCtl d != noTensor && !c.tensorReady x (cmCtl d) (4 * f) 4)
      || (cmRoi d != noTensor && !c.tensorReady x (cmRoi d) (f * m) m) then .busy
  else
    match (if cmCtl d = noTensor then .ok [] else c.tensorRead x (cmCtl d) (4 * f) 4),
          (if cmRoi d = noTensor then .ok [] else c.tensorRead x (cmRoi d) (f * m) m) with
    | .error p, _ => .lost (cmCtl d) p
    | _, .error p => .lost (cmRoi d) p
    | .ok cw, .ok roi =>
      let w := leNat cw
      if fld w 23 0 != 0 || 2 ≤ fcSlot w || roi.any (fun b => 8 ≤ b.toNat) then .bad
      else .ok w (roi.map (·.toNat))

/-! ## Quality and rate (R456 to R458) -/

/-- A class entry of Table 13.7: whether its value is an absolute QP, whether its blocks are coded intra, and the value. -/
def classFixed (w : Nat) : Bool := bit w 15
def classIntra (w : Nat) : Bool := bit w 14
def classValue (w : Nat) : Int := signedOf 8 (fld w 7 0)

/-- The class entry of a block: entry 0 of a frame that has no regions. -/
def blockClass (x : Ctx) (d : Nat) (roi : List Nat) (block : Nat) : Nat :=
  if cmRoi d = noTensor then 0
  else
    let k := roi.getD block 0
    fld (x.const (cmClasses d)) (16 * k + 15) (16 * k)

/-- A block's QP (R457). -/
def blockQp (d f w : Nat) : Nat :=
  if classFixed w then (classValue w).toNat
  else (min (max ((f : Int) + classValue w) (cmQpMin d)) (cmQpMax d)).toNat

/-- The quantiser index that a QP maps to: itself for HEVC, base_q_idx 5 x QP for AV1 (R457). -/
def quantIndex (codec qp : Nat) : Nat := if codec = 1 then 5 * qp else qp

/-- The frame QP: constant QP by Table 13.8, and what rate control aims at in the other modes, within its bounds. -/
def frameQp (d : Nat) (key : Bool) (chosen : Nat) : Nat :=
  if cmMode d = 0 then (if key then max (cmQp d - 3) (cmQpMin d) else cmQp d)
  else max (cmQpMin d) (min (cmQpMax d) chosen)

/-- A stream whose rate a coded picture buffer bounds. -/
def cpbMode (d : Nat) : Bool := cmMode d = 1 || cmMode d = 2

/-- Fullness after a frame of `n` bytes is taken out, and before the next one; and whether the frame takes more than the buffer
holds (R458, Table 13.9; assumption 102, DEDUCED). -/
def cpbAfter (d fullness n : Nat) : Nat := fullness - 8 * n * cmFpsNum d
def cpbBefore (d after : Nat) : Nat := min (cpbSize d) (after + cpbGain d)
def cpbExceeded (d fullness n : Nat) : Bool := fullness < 8 * n * cmFpsNum d

/-! ## Reference pictures (R454) -/

/-- Samples that motion search goes across and down, and the parts of a sample of its precision. -/
def searchRange : Nat × Nat := (256, 64)
def searchPrecision (codec : Nat) : Nat := if codec = 1 then 8 else 4

/-- Bytes of a sample, of a plane row and of a surface. A surface holds its luma rows and then its rows of interleaved Cb and Cr
(assumption 104, DESIGN CHOICE). -/
def sampleBytes (d : Nat) : Nat := if cmTenBit d then 2 else 1
def planePitch (d : Nat) : Nat := cmWidth d * sampleBytes d
def surfaceBytes (d : Nat) : Nat := planePitch d * cmHeight d * 3 / 2

/-- The surface that holds a frame, and the lowest one that frame `f` may be written to: neither the previous frame nor a
long-term picture lies in it. -/
def StreamSt.surfaceOf (s : StreamSt) (f : Nat) : Option Nat := indexOf? (fun r => r.any (·.frame = f)) s.surfaces
def StreamSt.freeSurface (s : StreamSt) : Nat :=
  (indexOf? (fun (r : Option RefPic) => r.all fun r => r.frame + 1 != s.frame && !s.lt.contains (some r.frame)) s.surfaces).getD 0

/-- The allocation of a stream's reference pictures: those of a variant's streams lie in the order of their descriptors. -/
def Chip.refAlloc? (c : Chip) (x : Ctx) (entry : Nat) : Option Alloc :=
  ((indexOf? (· = entry) (variantStreams x.cap x.v)).bind (x.job.camAllocs[·]?)).bind c.alloc?

/-- The ranges of a surface that a band takes: columns of the tile and of the search range around it, clipped to the picture, of the
luma and chroma rows of CTU row `r`. -/
def bandRanges (d : Nat) (tile : Nat × Nat) (surface r : Nat) : List (Nat × Nat) :=
  let lo := tile.1 - searchRange.1
  let hi := min (cmWidth d) (tile.1 + tile.2 + searchRange.1)
  let ys := ctuLuma d r
  let at_ (row : Nat) : Nat × Nat := (surface * surfaceBytes d + row * planePitch d + lo * sampleBytes d, (hi - lo) * sampleBytes d)
  ys.map at_ ++ (ys.filter (· % 2 = 0)).map fun y => at_ (cmHeight d + y / 2)

/-- The bands that CTU row `r` searches: three CTU rows of each surface (R454). -/
def bandsWanted (d r : Nat) (surfaces : List Nat) : List (Nat × Nat) :=
  surfaces.flatMap fun k => ((List.range 3).filter fun i => 1 ≤ r + i && r + i - 1 < ctuRows d).map fun i => (k, r + i - 1)

/-- Reads made one after another, up to the first that meets poison. -/
def readAll {α β : Type} (f : α → Except Place β) : List α → Except Place (List β)
  | [] => .ok []
  | a :: as => match f a, readAll f as with
    | .error p, _ => .error p
    | _, .error p => .error p
    | .ok b, .ok bs => .ok (b :: bs)

/-- The reference window of a pair as CTU row `r` needs it: the bands it holds already, and the rest read; or the place of poisoned
data. -/
def Chip.fillWindow (c : Chip) (a : Alloc) (d : Nat) (tile : Nat × Nat) (want : List (Nat × Nat)) (win : List Band) :
    Except Place (List Band) :=
  readAll (fun (k, r) =>
    match win.find? fun b => b.surface = k && b.row = r with
    | some b => .ok b
    | none => (readAll (fun (off, n) => c.allocRead a off n) (bandRanges d tile k r)).map fun rows =>
        ({ surface := k, row := r, bytes := rows } : Band)) want

/-- The window of every pair of a gang, rank by rank; where some band does not answer yet there is none. -/
inductive Windows where
  | busy
  | lost (at_ : Place)
  | ok (ws : List (List Band))

def Chip.windowsFor (c : Chip) (x : Ctx) (d : Nat) (s : StreamSt) (refs : List Nat) (fresh : Bool) : Windows :=
  let surfaces := refs.filterMap s.surfaceOf
  let want := bandsWanted d s.row surfaces
  match c.refAlloc? x s.entry with
  | none => .ok (s.pairs.map fun _ => [])
  | some a =>
    let held (i : Nat) : List Band := if fresh then [] else (c.areaOf s i).window
    let tiles := (cmTiles d).zipIdx
    if tiles.any fun (t, i) => want.any fun (k, r) => !((held i).any fun b => b.surface = k && b.row = r)
        && (bandRanges d t k r).any fun (off, n) => !c.allocReady a off n then .busy
    else match readAll (fun (t, i) => c.fillWindow a d t want (held i)) tiles with
      | .error p => .lost p
      | .ok ws => .ok ws

/-! ## Coding a CTU row (R441, R451 to R458) -/

/-- The slot that opens when slot `k` has been read: two after it in raster order (R451). -/
def PairArea.reopen (a : PairArea) (rows frames : Nat) (k : RowSlot) : PairArea :=
  { a with slots := (a.slots.filter fun o => !(o.frame = k.frame && o.row = k.row))
                      ++ (rasterSlot rows frames (k.frame * rows + k.row + 2)).toList }

/-- The class entries of the 64 x 64 blocks of a tile's part of CTU row `r`, and their segments. -/
def rowClasses (x : Ctx) (d : Nat) (roi : List Nat) (tile : Nat × Nat) (r : Nat) : List Nat :=
  (List.range (ceilDiv tile.2 64)).map fun b => blockClass x d roi (ceilDiv (cmWidth d) 64 * r + tile.1 / 64 + b)
def rowSegments (d : Nat) (roi : List Nat) (tile : Nat × Nat) (r : Nat) : List Nat :=
  if cmCodec d = 1 && cmRoi d != noTensor
  then (List.range (ceilDiv tile.2 64)).map fun b => roi.getD (ceilDiv (cmWidth d) 64 * r + tile.1 / 64 + b) 0 else []

/-- A tile's part of a CTU row, to be coded at frame QP `f` (R457). -/
def atFrameQp (x : Ctx) (d f : Nat) (roi : List Nat) (tile : Nat × Nat) (t : Config.TileRow) : Config.TileRow :=
  { t with base := quantIndex (cmCodec d) f,
           quant := (rowClasses x d roi tile t.row).map fun w => quantIndex (cmCodec d) (blockQp d f w) }

/-- What rank `i` codes its part of the CTU row from. -/
def tileRow (x : Ctx) (d : Nat) (s : StreamSt) (tile : Nat × Nat) (samples : List Nat × List Nat × List Nat) (win : List Band) :
    Config.TileRow :=
  let surfaces := s.refs.filterMap s.surfaceOf
  atFrameQp x d s.qp s.roi tile
  { key := isKeyFrame d s.frame s.ctl, row := s.row, left := tile.1, width := tile.2, luma := samples.1, cb := samples.2.1,
    cr := samples.2.2, bands := surfaces.map fun k => (win.filter (·.surface = k)).flatMap (·.bytes),
    motion := surfaces.map fun k => ((s.surfaces.getD k none).map (·.decided)).getD [] |>.flatten,
    base := 0, quant := [], segment := rowSegments d s.roi tile s.row, intra := (rowClasses x d s.roi tile s.row).map classIntra,
    tools := encoderTools (cmCodec d), range := searchRange, precision := searchPrecision (cmCodec d) }

/-- A pixel engine codes its part of a CTU row into the syntax buffer, and the entropy engine codes that into the bitstream buffer,
in the same order (R440, assumption 103, DEDUCED). -/
def PairArea.codeRow (a : PairArea) (d : Nat) (t : Config.TileRow) : PairArea :=
  let row := Config.codeRow d a.coded t
  { a with coded := a.coded ++ [row],
           bits := a.bits ++ Config.entropyRow d (a.coded.map (·.decisions)) row.decisions }

/-- The CTU row that a stream `s` has come to is coded by every pair of the gang. `ws` are the reference windows, `k` the slot. -/
def Chip.codeCtuRow (c : Chip) (x : Ctx) (d : Nat) (s : StreamSt) (k : RowSlot) (ws : List (List Band)) : Chip :=
  let rows := ctuRows d
  let samples := (cmTiles d).zipIdx.map fun (_, i) =>
    rowSamples d s.row (((c.areaOf s i).slots.find? fun o => o.frame = k.frame && o.row = k.row).elim [] (·.have_))
  let stat := samples.flatMap fun z => Config.sampleStats z.1 z.2.1 z.2.2
  let stats := s.stats ++ [stat]
  let s := if s.row = 0
    then { s with qp := frameQp d (isKeyFrame d s.frame s.ctl) (Config.rateControl d (isKeyFrame d s.frame s.ctl) s.sizes stats) }
    else s
  let parts := (cmTiles d).zipIdx.map fun (t, i) => tileRow x d s t (samples.getD i ([], [], [])) (ws.getD i [])
  let c := c.updAreas s fun i a =>
    (parts[i]?.elim a ({ a with window := ws.getD i [] }.codeRow d)).reopen rows (streamFrames x d) k
  c.updStream s.id fun _ =>
    { s with stats := stats, taken := s.taken ++ [parts], row := s.row + 1, recordDue := s.row + 1 = rows }

/-- The pixel engines begin the next CTU row once its slot holds every row and the reference windows hold the bands that it
searches; a frame reads its control word and its regions first (R452, R454 to R456). -/
def ctuRowStart (st : Nat) (c : Chip) : Chip :=
  match c.stream? st with
  | none => c
  | some s => match c.streamCtx s with
    | none => c
    | some x =>
      let d := streamDesc x s.entry
      match (c.slotsOf s).find? fun k => k.frame = s.frame && k.row = s.row with
      | none => c
      | some k =>
        if s.recordDue || !(ctuLuma d s.row).all (fun y => k.have_.any (·.y = y)) then c
        else
          let go (s : StreamSt) : Chip := match c.windowsFor x d s s.refs (s.row = 0) with
            | .busy => c
            | .lost at_ => c.poisonRefFence x.j at_
            | .ok ws => c.codeCtuRow x d s k ws
          if s.row != 0 then go s
          else match c.frameStart x d s.frame with
            | .busy => c
            | .lost tid at_ => c.poisonFence x.j tid at_
            | .bad => c.raiseCameo s stCameoControl s.frame
            | .ok ctl roi =>
              let (lt, fb) := applyControl d s.frame ctl s.lt
              go { s with ctl := ctl, roi := roi, lt := lt, fallback := fb, refs := frameRefs d s.frame ctl lt }

def execCtuRowStart (st : Nat) (s : State) : Out := onChip (.ctuRowStart st) s (ctuRowStart st)

/-! ## Records (R453, R458, R460, R461) -/

/-- A record's bytes (Table 13.9). -/
def recordBytes (frame type qp : Nat) (mark : Bool) (slot cpb : Nat) (fallback hrd : Bool) (payload : List Byte) : List Byte :=
  let b (f : Bool) : Nat := if f then 1 else 0
  let h := frame <<< 480 + payload.length <<< 448 + type <<< 444 + qp <<< 438 + b mark <<< 437 + slot <<< 435
    + cpb <<< 403 + b fallback <<< 402 + b hrd <<< 401
  leBytes 64 h ++ padTo payload (roundUp payload.length 64)

def endRecord : List Byte := recordBytes u32max 2 0 false 0 0 false false []

/-- A NAL unit in an Annex B byte stream: its start code before it. -/
def annexB (nal : List Byte) : List Byte := [0, 0, 0, 1] ++ nal

/-- The leb128 form of a size, and a low-overhead OBU of a type, with its size. -/
def leb128 : (fuel n : Nat) → List Byte
  | 0, _ => []
  | fuel + 1, n => if n < 128 then [BitVec.ofNat 8 n] else BitVec.ofNat 8 (128 + n % 128) :: leb128 fuel (n / 128)
def obu (type : Nat) (payload : List Byte) : List Byte :=
  BitVec.ofNat 8 (8 * type + 2) :: (leb128 8 payload.length ++ payload)

/-- The tiles of an AV1 frame in tile order, each but the last after its size less one in `n` bytes. -/
def joinTiles (n : Nat) : List (List Byte) → List Byte
  | [] => []
  | [t] => t
  | t :: ts => leBytes n (t.length - 1) ++ t ++ joinTiles n ts

/-- The rate and the size of the coded picture buffer that a stream promises to conform to, in bits (Table 13.8). -/
def promised (d : Nat) : Option (Nat × Nat) :=
  if cpbMode d then some (1000 * (if cmMode d = 2 then cmMaxBitrate d else cmBitrate d), 1000 * cmHrdBuffer d) else none

/-- What the sequence-level headers of a stream say: tile columns of uniform spacing (R441), the colour codes of its descriptor (R444),
chroma_sample_loc_type 1 for HEVC and chroma_sample_position 0 for AV1 (R450), diff_cu_qp_delta_depth 0 (R457), the parameters
promised (R458), and the tools of Table 13.3. -/
def streamHead (d : Nat) : Config.StreamHead :=
  { profile := if cmCodec d = 1 then .av1Main else if cmTenBit d then .hevcMain10 else .hevcMain,
    width := cmWidth d, height := cmHeight d, tenBit := cmTenBit d, block := 64,
    uniform := true, columns := cmGang d, columnsLog2 := fld d 506 504,
    primaries := cmPrimaries d, transfer := cmTransfer d, matrixCoeffs := cmMatrixCoeffs d, fullRange := cmFullRange d,
    chromaLoc := if cmCodec d = 1 then 0 else 1, rate := (cmFpsNum d, cmFpsDen d), qpDeltaDepth := 0, buffer := promised d,
    tools := encoderTools (cmCodec d), points := 1 }

/-- What a frame is (R453). -/
def frameType (codec : Nat) (key : Bool) : Config.FrameType :=
  if codec = 1 then (if key then .keyFrame else .interSingle) else (if key then .idr else .pSlices)
def keyType : Config.FrameType → Bool
  | .idr | .keyFrame => true
  | .pSlices | .interSingle => false

/-- The entry points of joined tiles: each tile after the first begins where the one before it ends (R461). -/
def entryPoints (tiles : List (List Byte)) : List Nat := tiles.dropLast.map (·.length)

/-- The payload of a frame from its tiles in tile order (R453, R460, R461): for HEVC an Annex B byte stream, with VPS, SPS and PPS in
a key frame, and the tiles joined in a slice that holds the entry points; for AV1 a temporal unit of low-overhead OBUs: a
temporal delimiter, in a key frame a sequence header, and the frame. -/
def framePayload (d : Nat) (h : Config.FrameHead) (tiles : List (List Byte)) : List Byte :=
  let z := streamHead d
  if cmCodec d = 1 then
    obu 2 [] ++ (if keyType h.type then obu 1 (Config.sequenceHeader z) else [])
      ++ obu 6 (Config.frameHeader z h ++ joinTiles (1 + Config.tileSizeBytes z h % 4) tiles)
  else
    (if keyType h.type then (List.range 3).flatMap fun k => annexB (Config.parameterSet k z) else [])
      ++ (Config.messages z h).flatMap annexB ++ annexB (Config.sliceUnit z h (entryPoints tiles) tiles.flatten)

/-- The quantiser index of each AV1 segment of a frame with regions: segment c takes class c, base_q_idx and alt_q together being
5 x QP (R457). -/
def segmentQuants (x : Ctx) (d qp : Nat) : List Nat :=
  if cmCodec d = 1 && cmRoi d != noTensor
  then (List.range 8).map fun k => quantIndex 1 (blockQp d qp (fld (x.const (cmClasses d)) (16 * k + 15) (16 * k))) else []

/-- What the headers of the frame just coded say. -/
def frameHead (x : Ctx) (d : Nat) (s : StreamSt) : Config.FrameHead :=
  { frame := s.frame, type := frameType (cmCodec d) (isKeyFrame d s.frame s.ctl), base := quantIndex (cmCodec d) s.qp,
    refs := s.refs, lt := s.lt, mark := if fcMark s.ctl then some (fcSlot s.ctl) else none, segments := segmentQuants x d s.qp }

/-- The payload of the frame just coded: gang rank 0 joins what the bitstream buffers of the gang hold (R461). -/
def Chip.codedPayload (c : Chip) (x : Ctx) (d : Nat) (s : StreamSt) : List Byte :=
  framePayload d (frameHead x d s) ((List.range s.pairs.length).map fun i => (c.areaOf s i).bits)

/-- The frame just coded as rate control promises it: in modes 1 and 2 a frame that would exceed the buffer model at a QP below qp_max
is one that rate control codes at qp_max (R458; assumption 126, DESIGN CHOICE). -/
def Chip.settleQp (c : Chip) (x : Ctx) (d : Nat) (s : StreamSt) : Chip × StreamSt :=
  if cpbMode d && s.qp < cmQpMax d && cpbExceeded d s.fullness (c.codedPayload x d s).length then
    let parts := s.taken.map fun row => row.zipIdx.map fun (t, i) =>
      atFrameQp x d (cmQpMax d) s.roi ((cmTiles d).getD i (0, 0)) t
    (c.updAreas s fun i a => (parts.filterMap (·[i]?)).foldl (fun a t => a.codeRow d t) { a with bits := [], coded := [] },
     { s with qp := cmQpMax d, taken := parts })
  else (c, s)

/-- The record of the frame just coded (R460). -/
def frameRecord (d : Nat) (s : StreamSt) (payload : List Byte) : List Byte :=
  let key := isKeyFrame d s.frame s.ctl
  let n := payload.length
  recordBytes s.frame (if key then 0 else 1) s.qp (fcMark s.ctl) (if fcMark s.ctl then fcSlot s.ctl else 0)
    (if cpbMode d then cpbAfter d s.fullness n / cmFpsNum d % 2 ^ 32 else 0) s.fallback
    (cpbMode d && s.qp = cmQpMax d && cpbExceeded d s.fullness n) payload

/-- A record written at the end of the stream's output; none when it does not fit (R461). -/
def Chip.putRecord (c : Chip) (x : Ctx) (d : Nat) (s : StreamSt) (bs : List Byte) : Option Chip :=
  match c.tensorAlloc? x.job (cmOut d) with
  | none => none
  | some a =>
    if s.recOff + bs.length ≤ a.bytes then
      some ((c.tensorWrite x (cmOut d) s.recOff bs).updStream s.id fun s => { s with recOff := s.recOff + bs.length })
    else none

/-- After the last frame the end record is written and done is posted (R460). -/
def Chip.endStream (c : Chip) (x : Ctx) (d st : Nat) : Chip :=
  match c.stream? st with
  | none => c
  | some s =>
    if s.frame != streamFrames x d then c
    else match c.putRecord x d s endRecord with
      | none => c.raiseCameo s stCameoOutputFull u32max
      | some c => (c.updStream st fun s => { s with ended := true }).postObj x.j s.owner (cmDone d)

/-- The reconstruction of the frame just coded is written to its surface, and the areas are ready for the next frame (R454). -/
def Chip.keepPicture (c : Chip) (x : Ctx) (d : Nat) (s : StreamSt) : Chip :=
  let tiles := (List.range s.pairs.length).map fun i => (c.areaOf s i).coded
  let k := s.freeSurface
  let c := match c.refAlloc? x s.entry with
    | some a => c.allocWrite x.job.slot a (k * surfaceBytes d) ((padTo (Config.loopFilter d tiles) (surfaceBytes d)).take (surfaceBytes d))
    | none => c
  let c := c.updAreas s fun _ a => { a with bits := [], coded := [], window := [] }
  c.updStream s.id fun s =>
    { s with surfaces := s.surfaces.set k (some { frame := s.frame, decided := tiles.map (·.map (·.decisions)) }) }

/-- Whether the surface that the frame's reconstruction goes to takes it now. -/
def Chip.refsReady (c : Chip) (x : Ctx) (d : Nat) (s : StreamSt) : Bool :=
  (c.refAlloc? x s.entry).elim true fun a => c.allocTakes a (s.freeSurface * surfaceBytes d) (surfaceBytes d)

/-- The record of the coded frame is assembled and frame_post posted; one that does not fit fences the job (R461). The frame's
reconstruction is kept, and mark_lt puts it in its slot (R455). A stream of no frames has its end record alone. -/
def recordAssembly (st : Nat) (c : Chip) : Chip :=
  match c.stream? st with
  | none => c
  | some s => match c.streamCtx s with
    | none => c
    | some x =>
      let d := streamDesc x s.entry
      let bytes := (c.tensorAlloc? x.job (cmOut d)).elim 0 (·.bytes)
      if s.ended || cmDecode d || !c.tensorReady x (cmOut d) 0 bytes || !c.refsReady x d s then c
      else if !s.recordDue then (if streamFrames x d = 0 then c.endStream x d st else c)
      else
        let (c, s) := c.settleQp x d s
        let payload := c.codedPayload x d s
        match c.putRecord x d s (frameRecord d s payload) with
        | none => c.raiseCameo s stCameoOutputFull s.frame
        | some c =>
          let c := (c.keepPicture x d s).updStream st fun s =>
            { s with frame := s.frame + 1, row := 0, recordDue := false, taken := [], sizes := s.sizes ++ [payload.length],
                     fullness := cpbBefore d (cpbAfter d s.fullness payload.length),
                     lt := if fcMark s.ctl then s.lt.set (fcSlot s.ctl) (some s.frame) else s.lt }
          (c.postObj x.j s.owner (cmFramePost d)).endStream x d st

def execRecordAssembly (st : Nat) (s : State) : Out := onChip (.recordAssembly st) s (recordAssembly st)

/-! ## Decoding (R442, R443, R448, R462 to R467) -/

/-- An earlier transfer of the same stream is in progress: what it hands over comes first (R448). -/
def Ctx.inputAhead (x : Ctx) (entry : Nat) : Bool :=
  x.ahead.any fun k => (instrAt x.cap x.run.stream k.pos).any fun i =>
    let d := dmaDesc x.cap x.v (iDesc i)
    iClass i = 3 && ddKind d = 6 && rsStream (x.const (ddList d)) = entry

/-- The bytes of a stream awaiting parsing: those in the bitstream buffer, and those that wait for room in it. -/
def Chip.inputOf (c : Chip) (s : StreamSt) : List Byte := (c.areaOf s 0).bits ++ s.input

/-- The bytes awaiting parsing are `bs`: as many as the bitstream buffer takes stand in it (R440, Table 13.1). -/
def Chip.setInput (c : Chip) (s : StreamSt) (bs : List Byte) : Chip :=
  (c.updArea s 0 fun a => { a with bits := bs.take bitstreamBytes }).updStream s.id fun s => { s with input := bs.drop bitstreamBytes }

/-- A decode transfer of at least one byte: its bytes join the input in stream order (R448). -/
def decodeStart (x : Ctx) (c : Chip) : Act :=
  let d := dmaDesc x.cap x.v (iDesc x.i)
  let w := x.const (ddList d)
  match c.streamOf? x.j (rsStream w) with
  | none => .hold c
  | some s =>
    let rs := plainRows d
    if x.inputAhead (rsStream w) || !c.rowsReady x d rs then .park none [] c
    else match c.readRows x d rs with
      | .error at_ => .lost (some (ddSrcTensor d)) at_ c
      | .ok rows =>
        let c := c.setInput s (c.inputOf s ++ rows.flatMap (·.2))
        .started (c.addTransfer (c.newTransfer x d 0 []))

def execDecodeInput (p : Nat) (s : State) : Out :=
  onChip (.decodeInput p) s
    (issueDma (isStreamDma fun w d => cmDecode d && ddRows w * ddRowBytes w != 0) p decodeStart)

/-- A decode transfer of no bytes ends the input (R448, R467). -/
def endStart (x : Ctx) (c : Chip) : Act :=
  let d := dmaDesc x.cap x.v (iDesc x.i)
  match c.streamOf? x.j (rsStream (x.const (ddList d))) with
  | none => .hold c
  | some s =>
    if x.inputAhead s.entry then .park none [] c
    else
    let c := c.updStream s.id fun s => { s with inputEnd := true }
    .started (c.addTransfer (c.newTransfer x d 0 []))

def execEndOfInput (p : Nat) (s : State) : Out :=
  onChip (.endOfInput p) s (issueDma (isStreamDma fun w d => cmDecode d && ddRows w * ddRowBytes w = 0) p endStart)

/-- What the decoder supports of a standard (Table 13.2): profiles, depths, highest level, largest picture in width, height and
luma samples, and CTB or superblock sizes (Table 13.3). -/
structure Supported where
  profiles : List Config.Profile
  depths : List Nat
  level : Nat
  width : Nat
  height : Nat
  samples : Nat
  blocks : List Nat

/-- The decode rows of Table 13.2, by codec. -/
def decodeRow (codec : Nat) : Supported :=
  match codec with
  | 0 => { profiles := [.hevcMain, .hevcMain10, .hevcStill], depths := [8, 10], level := 51, width := 8192, height := 4352,
           samples := 8912896, blocks := [16, 32, 64] }
  | 1 => { profiles := [.av1Main], depths := [8, 10], level := 13, width := 8192, height := 4352, samples := 8912896,
           blocks := [64, 128] }
  | _ => { profiles := [.h264High, .h264Main, .h264Constrained], depths := [8], level := 52, width := 4096, height := 2304,
           samples := 4096 * 2304, blocks := [16] }

/-- A sequence-level header inside Table 13.2: every supported stream is 4:2:0 (R442). -/
def seqHdrOk (codec : Nat) (h : Config.SeqHdr) : Bool :=
  let r := decodeRow codec
  r.profiles.contains h.profile && r.depths.contains h.depth && h.level ≤ r.level && h.chroma = 1 && h.width ≤ r.width
    && h.height ≤ r.height && h.width * h.height ≤ r.samples && r.blocks.contains h.block

/-- A part of a stream that the decoder supports (R463). -/
def decUnitOk (codec : Nat) (u : Config.DecUnit) : Bool := u.seq.all (seqHdrOk codec) && u.tools.all Tool.accepted

/-- The levels of a stream at which an error can lie (Table 13.11). -/
inductive ErrorLevel where
  | data
  | header
  | sequence
  deriving DecidableEq, Repr

/-- The level of an error: where it lies; a missing or changed parameter set is at the level of parameter sets. A picture hash that
disagrees discards nothing (R464, Table 13.10). -/
def errorLevel (u : Config.DecUnit) : Option ErrorLevel :=
  match u.error with
  | none => none
  | some .hash => none
  | some .parameterSet => some .sequence
  | some _ => some (match u.kind with
    | .sequence => .sequence
    | .header => .header
    | .data => .data
    | .other => .data)

/-- Whether a part is the resynchronisation point for an error of a level (Table 13.11): the next independent slice segment, tile
group or slice; the next picture or temporal unit; the next random access picture with its parameter sets. -/
def resyncAt : ErrorLevel → Config.DecUnit → Bool
  | .data, u => u.first || (u.kind = .data && u.independent)
  | .header, u => u.first
  | .sequence, u => u.access

/-- What is left of a part of a picture that is discarded: its picture, of which it decodes nothing (R464, R465). -/
def discardedUnit (u : Config.DecUnit) : List (Config.DecUnit × Bool) :=
  match u.kind with
  | .header | .data => [({ u with seq := none, tools := [], whole := [], error := none, body := [] }, false)]
  | .sequence | .other => []

/-- The parts that are not discarded, each with whether input was discarded since the part kept before it, and what is left of those of
a picture that are (R464). A slice or tile group with an error is kept for the coding units that it decodes whole (assumption 105,
DEDUCED). -/
def keepUnits : Option ErrorLevel → (dropped : Bool) → List Config.DecUnit → List (Config.DecUnit × Bool)
  | _, _, [] => []
  | lost, dropped, u :: us =>
    if lost.any fun l => !resyncAt l u then discardedUnit u ++ keepUnits lost true us
    else match errorLevel u with
      | none => (u, dropped) :: keepUnits none false us
      | some .data => (u, dropped) :: keepUnits (some .data) true us
      | some l => discardedUnit u ++ keepUnits (some l) true us

/-- Parsing, part by part, of the bytes awaiting it: the parts, and the bytes left (R440, R462). -/
def parseUnits (codec : Nat) (ended : Bool) : (fuel : Nat) → List Config.DecUnit → List Byte → List Config.DecUnit × List Byte
  | 0, seen, bs => (seen, bs)
  | fuel + 1, seen, bs =>
    match Config.parseUnit codec seen bs ended with
    | none => (seen, bs)
    | some (u, n) => if n = 0 then (seen, bs) else parseUnits codec ended fuel (seen ++ [u]) (bs.drop n)

/-- The samples of a plane `w` samples wide, `of` naming the coding unit of each: those of units not decoded whole are taken from the
same place of the last frame decoded without concealment, or are at mid-scale where it has none (R465). -/
def concealed (mid : Nat) (whole of : List Nat) (w : Nat) (good : Option (Nat × List Nat)) (xs : List Nat) : List Nat :=
  xs.zipIdx.map fun (v, i) =>
    if whole.contains (of.getD i 0) then v
    else match good with
      | some (gw, ys) => if i % w < gw then ys.getD (gw * (i / w) + i % w) mid else mid
      | none => mid

/-- A decoded picture with what is not decoded whole concealed from `good`; of another depth it has no co-located samples. -/
def conceal (good : Option Config.DecFrame) (z : Shown) : Shown :=
  let f := z.frame
  let mid := if f.tenBit then 512 else 128
  let from_ (p : Config.DecFrame → List Nat) : Option (Nat × List Nat) :=
    (good.filter (·.tenBit = f.tenBit)).map fun g => (g.width, p g)
  { z with frame := { f with luma := concealed mid z.whole f.lumaUnit f.width (from_ (·.luma)) f.luma,
                             chroma := concealed mid z.whole f.chromaUnit f.width (from_ (·.chroma)) f.chroma } }

/-- The coding units of a picture that were not decoded whole. -/
def Shown.lostUnits (z : Shown) : List Nat := (List.range z.frame.units).filter fun u => !z.whole.contains u

/-- The samples of a picture as they are output: film grain is applied to what was decoded (Table 13.3). -/
def Shown.samples (z : Shown) : List Nat × List Nat :=
  match z.frame.grain with
  | none => (z.frame.luma, z.frame.chroma)
  | some g =>
    let (l, k) := Config.filmGrain g z.frame
    let mix (of xs ys : List Nat) : List Nat := xs.zipIdx.map fun (v, i) => if z.whole.contains (of.getD i 0) then ys.getD i v else v
    (mix z.frame.lumaUnit z.frame.luma l, mix z.frame.chromaUnit z.frame.chroma k)

/-- Picture `p` of the parts that were kept. -/
def shownFrame (kept : List (Config.DecUnit × Bool)) (p : Nat) (f : Config.DecFrame) : Shown :=
  let own := kept.filter (·.1.pic = p)
  { pic := p, frame := f, whole := own.flatMap (·.1.whole), resynced := own.any (·.2),
    hashBad := own.any (·.1.error = some .hash), missing := false }

/-- The pictures of parts of a stream in decoding order. -/
def picsOf (us : List Config.DecUnit) : List Nat := ((us.filter fun u => u.kind = .header || u.kind = .data).map (·.pic)).eraseDups

/-- The pictures that are output, in display order; once the input has ended it holds every one (R462, R467). -/
def outputOrder (codec : Nat) (us : List Config.DecUnit) (ended : Bool) : List Nat :=
  let pics := picsOf (us.filter (·.shows))
  let o := (Config.displayOrder codec us ended).eraseDups.filter pics.contains
  if ended then o ++ pics.filter fun p => !o.contains p else o

/-- Bytes of a plane row: one byte a sample, or two with the sample in bits 15 to 6 (R466). -/
def planeRow (tenBit : Bool) (xs : List Nat) : List Byte :=
  xs.flatMap fun v => if tenBit then leBytes 2 (v * 64) else leBytes 1 v

/-- The decode report (Table 13.12). -/
def decodeReport (n : Nat) (z : Shown) : List Byte :=
  let b (f : Bool) : Nat := if f then 1 else 0
  let f := z.frame
  leBytes 64 ((n % 2 ^ 32) <<< 480 + (f.width % 2 ^ 14) <<< 466 + (f.height % 2 ^ 13) <<< 453 + b f.tenBit <<< 452
    + b (!z.lostUnits.isEmpty || z.missing) <<< 451 + b z.resynced <<< 450 + b z.hashBad <<< 449 + b z.missing <<< 448
    + (z.lostUnits.length % 2 ^ 32) <<< 416)

/-- What a surface holds, as (offset, bytes) (R466). -/
def surfaceRows (n : Nat) (z : Shown) : List (Nat × List Byte) :=
  let f := z.frame
  let (luma, chroma) := z.samples
  let pitch := roundUp (f.width * (if f.tenBit then 2 else 1)) 256
  let plane := 256 + pitch * f.height
  (0, decodeReport n z)
    :: ((List.range f.height).map fun y => (256 + pitch * y, planeRow f.tenBit ((luma.drop (f.width * y)).take f.width)))
    ++ ((List.range (ceilDiv f.height 2)).map fun y =>
        (plane + pitch * y, planeRow f.tenBit ((chroma.drop (f.width * y)).take f.width)))

/-- Shape and coding units of a frame made up after the end of the input: those of the last sequence-level header; free where the
stream held none (assumption 34). -/
def missingShape (codec : Nat) (us : List Config.DecUnit) : (Nat × Nat × Bool) × Nat :=
  match (us.filterMap (·.seq)).getLast? with
  | some h => ((h.width, h.height, h.depth = 10), ceilDiv h.width h.block * ceilDiv h.height h.block)
  | none => (Config.missingShape codec us, Config.missingUnits codec us)

/-- A frame made up after the end of the input: every unit is concealed (R465, R467). -/
def missingFrame (d : Nat) (s : StreamSt) : Shown :=
  let ((w, h, t), n) := missingShape (cmCodec d) s.units
  let nl := w * h
  let nc := w * ceilDiv h 2
  conceal s.lastGood
    { pic := 0, frame := { width := w, height := h, tenBit := t, luma := List.replicate nl 0, chroma := List.replicate nc 0,
                           lumaUnit := List.replicate nl 0, chromaUnit := List.replicate nc 0, units := n, grain := none },
      whole := [], resynced := false, hashBad := false, missing := true }

/-- A frame written into its surface, and posted (R462, R466). Bytes past the surface's share of the tensor are not written
(assumption 35, DEDUCED). -/
def Chip.putSurface (c : Chip) (x : Ctx) (d : Nat) (s : StreamSt) (z : Shown) : Chip :=
  let size := (c.tensorAlloc? x.job (cmOut d)).elim 0 (·.bytes) / max 1 (cmSurfaces d)
  let base := size * (s.output % max 1 (cmSurfaces d))
  let c := (surfaceRows s.output z).foldl (fun c (off, bs) =>
    if off + bs.length ≤ size then c.tensorWrite x (cmOut d) (base + off) bs else c) c
  let c := c.updStream s.id fun s =>
    { s with output := s.output + 1, shown := if z.missing then s.shown else s.shown ++ [z.pic],
             held := s.held.filter (·.pic != z.pic),
             lastGood := if z.lostUnits.isEmpty then some { z.frame with luma := z.samples.1, chroma := z.samples.2 }
                         else s.lastGood }
  c.postObj x.j s.owner (cmFramePost d)

/-- What decoding a picture reads of the decoded picture buffer, or the place of poisoned data (R462). -/
def Chip.dpbRead (c : Chip) (a : Alloc) (reads : List (Nat × Nat)) : Except Place (List (List Byte)) :=
  readAll (fun (off, n) => c.allocRead a off (min n (a.bytes - off))) reads

/-- A picture is decoded: what it lacks is concealed, from frames decoded since the last resynchronisation point, and as it then is it
enters the decoded picture buffer (R462, R465). -/
def Chip.keepDecoded (c : Chip) (x : Ctx) (d : Nat) (s : StreamSt) (a : Option Alloc) (kept : List (Config.DecUnit × Bool)) (p : Nat)
    (read : List (List Byte)) : Chip :=
  let us := kept.map (·.1)
  let z := shownFrame kept p (Config.decodeFrame (cmCodec d) p us read)
  let good := if z.resynced then none else s.lastGood
  let z := conceal good z
  let c := match a with
    | some a => (Config.dpbWrites (cmCodec d) p us z.frame).foldl (fun (c : Chip) ((off, bs) : Nat × List Byte) =>
        if off + bs.length ≤ a.bytes then c.allocWrite x.job.slot a off bs else c) c
    | none => c
  c.updStream s.id fun s => { s with decoded := s.decoded ++ [p], held := s.held ++ [z], lastGood := good }

/-- What comes of decoding pictures one after another: all are decoded, one cannot go on yet, or one meets poisoned data. -/
inductive Decoding where
  | ok (c : Chip)
  | busy (c : Chip)
  | lost (c : Chip) (at_ : Place)

def Chip.decodePics (x : Ctx) (d st : Nat) (kept : List (Config.DecUnit × Bool)) : List Nat → Chip → Decoding
  | [], c => .ok c
  | p :: ps, c => match c.stream? st with
    | none => .busy c
    | some s => match c.refAlloc? x s.entry with
      | none => Chip.decodePics x d st kept ps (c.keepDecoded x d s none kept p [])
      | some a =>
        if !c.allocReady a 0 a.bytes then .busy c
        else match c.dpbRead a (Config.dpbReads (cmCodec d) p (kept.map (·.1))) with
          | .error at_ => .lost c at_
          | .ok bs => Chip.decodePics x d st kept ps (c.keepDecoded x d s (some a) kept p bs)

/-- The bytes awaiting parsing are parsed (R440). -/
def Chip.parseInput (c : Chip) (d : Nat) (s : StreamSt) : Chip :=
  let bs := c.inputOf s
  let (units, rest) := parseUnits (cmCodec d) s.inputEnd bs.length s.units bs
  (c.setInput s rest).updStream s.id fun s => { s with units := units }

/-- The parts of a stream that count: those of operating point 0 that are not discarded, up to the first that the decoder does not
support, and whether there is such a one (R443, R463, R464). -/
def supportedUnits (codec : Nat) (us : List Config.DecUnit) : List (Config.DecUnit × Bool) × Bool :=
  let kept := keepUnits none false (us.filter (·.basePoint))
  let good := kept.takeWhile fun u => decUnitOk codec u.1
  (good, good.length != kept.length)

/-- The next picture in display order of a stream; pictures are decoded in decoding order up to it. -/
def StreamSt.nextPic (s : StreamSt) (d : Nat) : Option Nat :=
  let (good, cut) := supportedUnits (cmCodec d) s.units
  (outputOrder (cmCodec d) (good.map (·.1)) (s.inputEnd && !cut)).find? fun p => !s.shown.contains p
def StreamSt.toDecode (s : StreamSt) (d p : Nat) : List Nat :=
  let pics := picsOf ((supportedUnits (cmCodec d) s.units).1.map (·.1))
  ((pics.takeWhile (· != p)) ++ [p]).filter fun q => !s.decoded.contains q

/-- Whether the surface of the next frame may be written: frame_free allows it, and the frame tensor answers (R462). -/
def Chip.surfaceFree (c : Chip) (x : Ctx) (d : Nat) (s : StreamSt) : Bool :=
  c.available s.owner (cmFrameFree d) && c.tensorReady x (cmOut d) 0 ((c.tensorAlloc? x.job (cmOut d)).elim 0 (·.bytes))

/-- The decoder goes on once its input has been parsed: the next picture is decoded and output; at the end of the input the frames
that are missing are made up and done is posted; a part that it does not support fences the job once the frames of the parts before it
are out (R462 to R467; assumption 106, DESIGN CHOICE). -/
def Chip.decodeNext (c : Chip) (x : Ctx) (d : Nat) (s : StreamSt) : Chip :=
  let (good, cut) := supportedUnits (cmCodec d) s.units
  match s.nextPic d with
  | some p =>
    if !c.surfaceFree x d s then c
    else match Chip.decodePics x d s.id good (s.toDecode d p) c with
      | .busy c => c
      | .lost c at_ => c.poisonRefFence x.j at_
      | .ok c => match ((c.stream? s.id).getD s).held.find? (·.pic = p) with
        | some z => (c.take s.owner (cmFrameFree d)).putSurface x d s z
        | none => c
  | none =>
    if cut then c.raiseCameo s stCameoUnsupported s.output
    else if !s.inputEnd then c
    else if s.output < streamFrames x d then
      if c.surfaceFree x d s then (c.take s.owner (cmFrameFree d)).putSurface x d s (missingFrame d s) else c
    else (c.updStream s.id fun s => { s with ended := true }).postObj x.j s.owner (cmDone d)

/-- The decoder parses its input and writes its next frame once frame_free allows it. -/
def decodeFrameOutput (st : Nat) (c : Chip) : Chip :=
  match c.stream? st with
  | none => c
  | some s => match c.streamCtx s with
    | none => c
    | some x =>
      let d := streamDesc x s.entry
      if s.ended || !cmDecode d then c
      else
        let c := c.parseInput d s
        c.decodeNext x d ((c.stream? st).getD s)

def execDecodeFrameOutput (st : Nat) (s : State) : Out := onChip (.decodeFrameOutput st) s (decodeFrameOutput st)

end Sys2Proof.Machine
end

