-- ==== Sys2Proof/Machine/Collective.lean ====
section
/-! DEFINITION. Collectives on a ring (R570 to R572). The command carries the input of every other rank, as the ring's
messages have brought it; what those messages hold on the way is not the manual's (assumption 33, DESIGN CHOICE). -/
namespace Sys2Proof.Machine

/-! ## The collective descriptor (Table 16.13) -/

def coRing (w : Nat) : Nat := fld w 255 244
def coSrcSpace (w : Nat) : Nat := fld w 239 236
def coDstSpace (w : Nat) : Nat := fld w 235 232
def coSrcTensor (w : Nat) : Nat := fld w 231 216
def coDstTensor (w : Nat) : Nat := fld w 215 200
def coSrcOff (w : Nat) : Nat := fld w 199 160
def coDstOff (w : Nat) : Nat := fld w 159 120
def coCount (w : Nat) : Nat := fld w 119 88
def coDone (w : Nat) : Nat := fld w 87 78

def coSrc (w : Nat) : DmaEnd := dmaEnd (coSrcSpace w) (coSrcTensor w) (coSrcOff w)
def coDst (w : Nat) : DmaEnd := dmaEnd (coDstSpace w) (coDstTensor w) (coDstOff w)

/-- The code of an FP32 or u32 element `i` of a rank's input. -/
def inputWord (bs : List Byte) (i : Nat) : Nat := getLE bs (4 * i) 4

/-- First element of chunk `ch` (R571). -/
def chunkStart (n P ch : Nat) : Nat := ch * n / P

/-- The sum of element `i` of chunk `ch`: from rank ch + 1 on, each addition rounded once (R571). -/
def chunkSum (P ch i : Nat) (inputs : List (List Byte)) : Nat :=
  let x (r : Nat) : Val := f32 (inputWord (inputs.getD (r % P) []) i)
  rnd ((List.range (P - 1)).foldl (fun s k => addF s (x (ch + k + 2))) (x (ch + 1)))

/-- The bit copy that one part's own ring makes of its input, or the sum (R571). -/
def sumElem (P ch i : Nat) (inputs : List (List Byte)) : Nat :=
  if P ≤ 1 then inputWord (inputs.getD 0 []) i else chunkSum P ch i inputs

/-- The elements of chunk `ch` of the sum. -/
def chunkWords (n P ch : Nat) (inputs : List (List Byte)) : List Nat :=
  let a := chunkStart n P ch
  (List.range (chunkStart n P (ch + 1) - a)).map fun i => sumElem P ch (a + i) inputs

/-- The output bytes of a collective operation for `n` elements on `P` parts, at rank `rank` (Table 16.12). -/
def collectiveOut (op n P rank : Nat) (inputs : List (List Byte)) : List Byte :=
  match op with
  | 0x80 => ((List.range P).flatMap fun ch => chunkWords n P ch inputs).flatMap (leBytes 4)
  | 0x81 => (chunkWords n P rank inputs).flatMap (leBytes 4)
  | 0x82 => (inputs.map fun bs => sliceBytes bs 0 n).flatten
  | _ => (List.range n).flatMap fun i =>
      leBytes 4 ((inputs.drop 1).foldl (fun a bs => min a (inputWord bs i)) (inputWord (inputs.getD 0 []) i))

/-- Bytes of one rank's input. -/
def inputBytes (op n : Nat) : Nat := if op = 0x82 then n else 4 * n

/-- What has come of a rank is of this collective: the `k`-th of its job on the ring, of the same code and count. Messages of any other
are discarded (R572). -/
def RankInput.matches (k op n : Nat) (i : RankInput) : Bool := i.index = k && i.op = op && i.count = n && i.data.length = inputBytes op n

/-- The inputs of every rank are there: one for each; the own one is read here (R572). -/
def inputsWhole (P rank k op n : Nat) (inputs : List RankInput) : Bool :=
  inputs.length = P && inputs.zipIdx.all fun (i, r) => r = rank || RankInput.matches k op n i

/-- What a collective accesses of its Bead's own Locket: ends in space 1. -/
def collectiveFoot (x : Ctx) : Foot :=
  let w := x.consts (laneConst x.i) 2
  let n := inputBytes (iOp x.i) (coCount w)
  let own (e : DmaEnd) (len : Nat) : List LockRange := if e.space = 1 then [⟨e.unit, e.base, len⟩] else []
  { reads := own (coSrc w) n, writes := own (coDst w) n }

/-- What a collective writes of its own Locket, on its ring: an all_gather one input for each part, a reduce_scatter its chunk. -/
def Chip.collectiveFoot (c : Chip) (x : Ctx) : Foot :=
  let w := x.consts (laneConst x.i) 2
  let P := max 1 (c.ring (coRing w)).size
  let n := match iOp x.i with
    | 0x81 =>
      let r := (c.ring (coRing w)).rank
      4 * (chunkStart (coCount w) P (r + 1) - chunkStart (coCount w) P r)
    | 0x82 => coCount w * P
    | _ => 4 * coCount w
  let e := coDst w
  { Machine.collectiveFoot x with writes := if e.space = 1 then [⟨e.unit, e.base, n⟩] else [] }

/-- A collective: while its ring is unusable or inputs are missing it is in progress and waits, timed by the slot watchdog; then its
output is written, done is posted and it completes (R567, R570 to R572, R683). What it sends to the next part leaves then (assumption
33, DESIGN CHOICE). -/
def collective (op p : Nat) (inputs : List RankInput) (c : Chip) : Chip :=
  issueAt (fun x => iClass x.i = 2 && iOp x.i = op) Chip.collectiveFoot p (fun x c =>
    let w := x.consts (laneConst x.i) 2
    let r := coRing w
    let P := max 1 (c.ring r).size
    let n := coCount w
    let bytes := inputBytes op n
    let out := collectiveOut op n P (c.ring r).rank
    if !c.ringUsable r x.job.session || !inputsWhole P (c.ring r).rank (c.ringRun r).collectives op n inputs then
      .park none [(.collective, x.p, noObj)] c
    else if !c.endReady x (coSrc w) (coSrc w).base bytes then .park none [] c
    else match c.endRead x (coSrc w) (coSrc w).base bytes with
      | .error at_ => .lost (some (coSrcTensor w)) at_ c
      | .ok own =>
        let all := (inputs.map (·.data)).set (c.ring r).rank own
        let bs := out all
        if !c.endReady x (coDst w) (coDst w).base bs.length then .park none [] c
        else
          let c := c.endWrite x (coDst w) (coDst w).base bs
          let c := c.updRingRun r fun k => { k with collectives := k.collectives + 1 }
          let c := if P ≤ 1 then c
            else (Config.collectiveMessages op n P (c.ring r).rank all).foldl (fun c m =>
              c.sendRing r clsCollective 0 headerNoObject (m.take 65536)) c
          .done (c.postObj x.j x.p (coDone w))) c

def execAllReduceSum (p : Nat) (inputs : List RankInput) (s : State) : Out :=
  onChip (.allReduceSum p inputs) s (collective 0x80 p inputs)
def execReduceScatterSum (p : Nat) (inputs : List RankInput) (s : State) : Out :=
  onChip (.reduceScatterSum p inputs) s (collective 0x81 p inputs)
def execAllGather (p : Nat) (inputs : List RankInput) (s : State) : Out :=
  onChip (.allGather p inputs) s (collective 0x82 p inputs)
def execAllReduceMinimum (p : Nat) (inputs : List RankInput) (s : State) : Out :=
  onChip (.allReduceMinimum p inputs) s (collective 0x83 p inputs)

end Sys2Proof.Machine
end

