-- ==== Sys2Proof/Machine/Ctrl.lean ====
section
/-! DEFINITION. The CTRL class: streams, steps, loops, decisions, barriers and yields (R98, R99, R106, R108, R111, R309,
R311, R312, R338, R354, R355, R369), and the commit of a step checkpoint (R491). -/
namespace Sys2Proof.Machine

/-- Issue of a CTRL operation. -/
def issueCtrl (op p : Nat) (act : Ctx → Chip → Act) (c : Chip) : Chip := issue (isCtrl · op) (fun _ => .none) p act c

/-- end: the stream is finished (R98). -/
def endStream (p : Nat) (c : Chip) : Chip :=
  issueCtrl 0 p (fun x c =>
    .jump x.run.pos (c.updRun x.p fun r => { r with ended := true })) c

def execEndStream (p : Nat) (s : State) : Out := onChip (.endStream p) s (endStream p)

/-- step_begin: step k begins, the first with k = 0, and the rounding context is cleared (R98, R338, R355). -/
def stepBegin (p : Nat) (c : Chip) : Chip :=
  issueCtrl 1 p (fun x c =>
    .done (c.updRun x.p fun r => { r with step := some r.begun, begun := r.begun + 1, ctx := none })) c

def execStepBegin (p : Nat) (s : State) : Out := onChip (.stepBegin p) s (stepBegin p)

/-- Whether something that the Bead's stream issued has not ended: its instruction has not posted. -/
def Chip.unposted (c : Chip) (p : Nat) : Bool :=
  !(c.bead p).run.parked.isEmpty ||
  c.transfers.any (·.p = p) || c.tableLoads.any (·.p = p) || c.walks.any (fun w => w.p = p && !w.ended) || c.edits.any (·.p = p)

/-- The canonical tensors that the variant's resume point map lists, with the bytes they hold (R108, R109). A
byte that is poisoned there is taken as 0, and nothing is raised: R108 says nothing of poison met by a checkpoint (assumption
97, DESIGN CHOICE). -/
def Chip.checkpointTensors (c : Chip) (x : Job) : List (Nat × List Byte) :=
  (resumeTensors (c.capsule x.setting) x.variant).filterMap fun tid =>
    (c.tensorAlloc? x tid).map fun a => (tid, c.allocBytes a 0 a.bytes)

/-- A new checkpoint generation is open, of step index `k` (R108). -/
def Chip.openCkpt (c : Chip) (x : Job) (k : Nat) : Ckpt :=
  { settingId := (c.contextId x).1, version := (c.contextId x).2, step := k, seq := x.seq, crc := 0, flags := x.flags % 4,
    overflow := x.overflow, invalid := x.invalid,
    tensors := c.checkpointTensors x }

/-- Every Bead of the group has passed the step_end of the oldest open generation. -/
def Chip.allPassed (c : Chip) (x : Job) : Bool :=
  let top := c.front x
  (c.groupBeads x).all fun p => top - (c.bead p).run.passed < x.openGens.length

/-- A bound job with a cancel pending ends at its step_end: once every Bead of the group has passed it (R490). -/
def Chip.cancelAtStep (c : Chip) (j : Nat) : Chip :=
  match c.job? j with
  | some x => if x.cancel && x.phase = .bound && !x.openGens.isEmpty && c.allPassed x then c.endJob j stCancelled else c
  | none => c

/-- step_end: once every earlier instruction of the stream has posted, the Bead's share of the step checkpoint is written
(R98, R108). The first Bead of the group to come to its step_end opens the generation (assumption 26, DEDUCED). -/
def stepEnd (p : Nat) (c : Chip) : Chip :=
  issueCtrl 2 p (fun x c =>
    if c.unposted x.p || c.barrierOn then .hold c
    else
      let c := if 0 < c.behind x.job x.p then c
        else c.updJob x.j fun y => { y with openGens := y.openGens ++ [c.openCkpt x.job x.run.begun] }
      let c := c.updRun x.p fun r => { r with passed := r.passed + 1 }
      .done (c.cancelAtStep x.j)) c

def execStepEnd (p : Nat) (s : State) : Out := onChip (.stepEnd p) s (stepEnd p)

/-- The trip count of a loop (R99). -/
def loopTrips (x : Ctx) : Nat :=
  match loopSource x.i with
  | 0 => x.job.steps
  | 1 => fld (x.const (loopIndex x.i)) 31 0
  | _ =>
    let e := loopIndex x.i
    if exKind (extentDecl x.cap e) = 0 then 0 else x.job.exts.getD e 0

/-- loop_begin: the body runs for the trip count; a count of 0 skips it (R98, R99). -/
def loopBegin (p : Nat) (c : Chip) : Chip :=
  issueCtrl 3 p (fun x c =>
    let r := x.run
    let n := loopTrips x
    if n = 0 then
      match matchEnd x.cap r.stream (streamLen x.cap r.stream) 0 (r.pos + 1) with
      | some e => .jump (e + 1) c
      | none => .hold c
    else .done (c.updRun x.p fun r => { r with loops := { start := r.pos + 1, trip := n, iter := 0 } :: r.loops })) c

def execLoopBegin (p : Nat) (s : State) : Out := onChip (.loopBegin p) s (loopBegin p)

/-- loop_end: the next iteration of the innermost loop, or its end (R98). -/
def loopEnd (p : Nat) (c : Chip) : Chip :=
  issueCtrl 4 p (fun x c =>
    match x.run.loops with
    | [] => .done c
    | l :: ls =>
      if l.iter + 1 < l.trip then
        .jump l.start (c.updRun x.p fun r => { r with loops := { l with iter := l.iter + 1 } :: ls })
      else .done (c.updRun x.p fun r => { r with loops := ls })) c

def execLoopEnd (p : Nat) (s : State) : Out := onChip (.loopEnd p) s (loopEnd p)

/-- decide: the region of the smallest bucket that holds the decision word; a word above every bucket fences with
DECISION_RANGE, which names the decision point and carries the word (R106, R311, R312). -/
def decide_ (p : Nat) (c : Chip) : Chip :=
  issueCtrl 5 p (fun x c =>
    let n := ctrlOperand x.i
    let (h, buckets, starts) := decisionPoint x.cap x.v n
    let sem := dpInputSem h
    let go (i : Nat) (c : Chip) : Act :=
      .jump (starts.getD i 0) (c.updJob x.j fun y => { y with latestBucket := y.latestBucket.put n (buckets.getD i 0) })
    if sem = noObj && dpBuckets h = 1 then go 0 c
    else if !c.available x.p sem then .hold (c.noteWait x.p .decide x.p sem)
    else
      let w := x.job.decisions.get 0 n
      match indexOf? (w ≤ ·) buckets with
      | some i => go i (c.take x.p sem)
      | none => .raiseD stDecisionRange (.decisionWord n w) (c.take x.p sem)) c

def execDecide (p : Nat) (s : State) : Out := onChip (.decide p) s (decide_ p)

/-- A decide that has waited 8,715 tk for its input fences the job with ROUND_INCOMPLETE, which names the decision point (R309). -/
def roundWaitExpiry (p : Nat) (c : Chip) : Chip :=
  match c.canIssue p with
  | none => c
  | some x =>
    if (c.bead p).waits.any fun w => w.kind = .decide && w.since + watchTicks ≤ c.now && !c.available p w.obj then
      c.raiseDie x.j (dieFacet (physFacet p)) stRoundIncomplete x.run.step (.decision (ctrlOperand x.i))
    else c

def execRoundWaitExpiry (p : Nat) (s : State) : Out := onChip (.roundWaitExpiry p) s (roundWaitExpiry p)

/-- barrier: the Bead has arrived and waits (R369). -/
def barrier (p : Nat) (c : Chip) : Chip :=
  issueCtrl 7 p (fun x c =>
    let n := ctrlOperand x.i
    let c := c.updJob x.j fun y => { y with barriers := y.barriers.put n (y.barriers.get [] n ++ [x.g]) }
    .more (c.updRun x.p fun r => { r with barrier := some n })) c

def execBarrier (p : Nat) (s : State) : Out := onChip (.barrier p) s (barrier p)

/-- Bead `p` leaves the barrier it waits at, and its post field is made. -/
def Chip.leaveBarrier (c : Chip) (j p : Nat) : Chip :=
  let r := (c.bead p).run
  let post := match c.job? j with
    | some x => iPost ((instrAt (c.capsule x.setting) r.stream r.pos).getD 0)
    | none => noObj
  let c := c.updRun p fun r => { r with barrier := none }
  (c.goTo p (r.pos + 1)).postObj j p post

/-- Every Bead of the group has arrived at the barrier: it releases, and each goes on (R369). -/
def barrierRelease (j obj : Nat) (c : Chip) : Chip :=
  match c.job? j with
  | none => c
  | some x =>
    let at_ := x.barriers.get [] obj
    if x.phase = .bound && (List.range x.beads).all at_.contains then
      let c := c.setJob j { x with barriers := x.barriers.erase obj }
      (c.groupBeads x).foldl (fun c p => if (c.bead p).run.barrier = some obj then c.leaveBarrier j p else c) c
    else c

def execBarrierRelease (j obj : Nat) (s : State) : Out := onChip (.barrierRelease j obj) s (barrierRelease j obj)

/-- A pre-empted job saves a mid-step context at its next yield: feature bit 12 is set and a step of its variant lasts
longer than the threshold (R494). -/
def Chip.yieldsMidStep (c : Chip) (x : Job) : Bool :=
  let cap := c.capsule x.setting
  x.preempt && bit (hdrFeatures (capHeader cap)) 12 && c.sched.preemptThreshold < varStepTicks (variantWord cap x.variant)

/-- yield: the Bead waits only while a context is to be saved (R98, R111, R494). -/
def yield_ (p : Nat) (c : Chip) : Chip :=
  issueCtrl 8 p (fun x c =>
    if c.yieldsMidStep x.job then .more (c.updRun x.p fun r => { r with yielded := true }) else .done c) c

def execYield (p : Nat) (s : State) : Out := onChip (.yield p) s (yield_ p)

/-! ## The step checkpoint (R108, R491) -/

/-- Bytes of a generation's body as the model lays it out: its tensors one after another, then its step index, its counters and its flags
(R108, R154, assumption 27, DESIGN CHOICE). -/
def ckptBody (k : Ckpt) : List Byte :=
  k.tensors.flatMap (·.2) ++ leBytes 4 k.step ++ leBytes 4 k.overflow ++ leBytes 4 k.invalid ++ leBytes 4 k.flags

/-- The generation that a step index names (R491): step_end of step k writes generation (k + 1) mod 2. -/
def ckptSlot (step : Nat) : Nat := step % 2

/-- A generation written to the checkpoint allocation with its header (R491, assumption 27, DESIGN CHOICE). -/
def Chip.storeCkpt (c : Chip) (x : Job) (k : Ckpt) : Chip :=
  match x.ckptAlloc.bind c.alloc? with
  | none => c
  | some a =>
    let half := (a.bytes - 4096) / 2
    let c := c.allocWrite x.slot a (4096 + half * ckptSlot k.step) (ckptBody k)
    c.allocWrite x.slot a (64 * ckptSlot k.step) (leBytes 4 k.step ++ leBytes 4 k.seq ++ leBytes 4 k.crc)

/-- The checkpoint allocation of a job takes writes now (R427, R432). -/
def Chip.ckptReady (c : Chip) (x : Job) : Bool := (x.ckptAlloc.bind c.alloc?).elim true fun a => c.allocTakes a 0 a.bytes

/-- What a job does at a step_end besides its checkpoint: a cancel ends it (R490), a pre-emption makes it yield (R494). -/
def Chip.atStepEnd (c : Chip) (j : Nat) (x : Job) : Chip :=
  if x.cancel then c.endJob j stCancelled
  else if x.preempt && !c.yieldsMidStep x then (c.stopJob j x).updJob j fun y => { y with resumeDue := true }
  else c

/-- The oldest open generation commits once every Bead has passed step_end (R491); on a ring, the commit of step index k + 1 waits
for ALL(k), and COMMITTED goes on (R573). -/
def checkpointCommit (j : Nat) (c : Chip) : Chip :=
  match c.job? j with
  | none => c
  | some x => match x.openGens with
    | [] => c
    | k :: later =>
      if x.phase = .bound && c.allPassed x && c.ckptReady x && (c.jobRings x).all (fun r => k.step - 1 ≤ (c.ringRun r).all) then
        let k := { k with crc := crc32 (ckptBody k) }
        let x := { x with openGens := later, gens := x.gens.set (ckptSlot k.step) (some k), stepEnds := x.stepEnds + 1 }
        let c := (c.setJob j x).storeCkpt x k
        let c := (c.jobRings x).foldl (fun c r => c.ringCommit r x.session k.step) c
        c.atStepEnd j x
      else c

def execCheckpointCommit (j : Nat) (s : State) : Out := onChip (.checkpointCommit j) s (checkpointCommit j)

end Sys2Proof.Machine
end

