-- ==== Sys2Proof/Machine/Kv.lean ====
section
/-! DEFINITION. The paged key-value cache: pools, sequences and pages, walks and their relay round a ring, edits and their
commits, frames, and pages in host memory (R251 to R298, R610). -/
namespace Sys2Proof.Machine

/-! ## Layouts (Tables 7.2 to 7.10, 7.12) -/

def sqNumber (w : Nat) : Nat := fld w 127 118
def sqState (w : Nat) : Nat := fld w 117 102
def sqPool (w : Nat) : Nat := fld w 101 98
def sqHeads (w : Nat) : Nat := fld w 94 88
def sqDim (w : Nat) : Nat := [64, 128, 256].getD (fld w 87 86) 64
def sqBudget (w : Nat) : Nat := fld w 85 74
def sqSink (w : Nat) : Nat := fld w 73 66
def sqRecent (w : Nat) : Nat := fld w 65 58
def sqDecay (w : Nat) : Nat := fld w 57 52

def poolDecl (c : Capsule) (v n : Nat) : Nat := ((poolDecls c v).find? (pdIndex · = n)).getD 0
def seqDecl (c : Capsule) (v n : Nat) : Nat := ((seqDecls c v).find? (sqNumber · = n)).getD 0

/-- Frames of a pool and bytes of a frame (R255). -/
def poolExtents (c : Capsule) (tuple : List Nat) (pd : Nat) : Nat × Nat :=
  let es := tensorExtents c tuple ((findTensor c (pdTensor pd)).getD 0)
  (es.getD 0 0, es.getD 1 0)

/-- Fields of a page table entry (Table 7.8). -/
def pteValid (w : Nat) : Bool := bit w 63
def pteFmt (w : Nat) : Nat := fld w 62 59
def pteHost (w : Nat) : Bool := bit w 58
def pteFill (w : Nat) : Nat := fld w 57 49
def pteFrame (w : Nat) : Nat := fld w 23 0
def ptePack (fmt fill frame : Nat) : Nat := 2 ^ 63 + fmt <<< 59 + fill <<< 49 + frame
/-- A page table entry whose host flag and frame change, no other field (R292). -/
def pteMove (w : Nat) (host : Bool) (frame : Nat) : Nat :=
  w - (if pteHost w then 2 ^ 58 else 0) + (if host then 2 ^ 58 else 0) - pteFrame w + frame
/-- An entry with another fill. -/
def pteRefill (w fill : Nat) : Nat := w - pteFill w <<< 49 + fill <<< 49

/-! ## Sequence state (Tables 7.6, 7.7) -/

/-- A sequence: generation, next position, tail record and its current records. -/
structure SeqSt where
  gen : Nat
  nextPos : Nat
  tail : Nat
  recs : List KvRec
  deriving DecidableEq, Repr

def noTail : Nat := 0xFFF

/-- A record from its 32 bytes, and its bytes. -/
def recOf (w : Nat) : KvRec := { pte := fld w 255 192, base := fld w 191 160, score := fld w 127 64 }
def KvRec.bytes (r : KvRec) : List Byte := leBytes 32 (r.pte <<< 192 + r.base <<< 160 + r.score <<< 64)
def KvRec.valid (r : KvRec) : Bool := pteValid r.pte
def KvRec.empty : KvRec := { pte := 0, base := 0, score := 0 }

/-- Byte of a sequence's record array `g` mod 2. -/
def arrayOff (sd g : Nat) : Nat := 64 + 32 * sqBudget sd * (g % 2)

/-- The sequence that a state tensor's bytes hold (R258). -/
def seqOf (sd : Nat) (bs : List Byte) : SeqSt :=
  let h := getLE bs 0 64
  let g := fld h 511 480
  { gen := g, nextPos := fld h 479 448, tail := fld h 435 424,
    recs := (List.range (sqBudget sd)).map fun r => recOf (getLE bs (arrayOff sd g + 32 * r) 32) }

/-- A sequence header's bytes. -/
def SeqSt.header (s : SeqSt) : List Byte :=
  leBytes 64 (s.gen <<< 480 + s.nextPos <<< 448 + (s.recs.filter KvRec.valid).length <<< 436 + s.tail <<< 424)

/-- Bytes of a state tensor. -/
def stateBytes (sd : Nat) : Nat := 64 + 64 * sqBudget sd

def Chip.readSeq (c : Chip) (x : Ctx) (sd : Nat) : Except Place SeqSt :=
  match c.tensorRead x (sqState sd) 0 (stateBytes sd) with
  | .error p => .error p
  | .ok bs => .ok (seqOf sd bs)

/-- The current array is written, then the header (R277). -/
def Chip.writeSeq (c : Chip) (x : Ctx) (sd : Nat) (s : SeqSt) : Chip :=
  let c := c.tensorWrite x (sqState sd) (arrayOff sd s.gen) (s.recs.flatMap KvRec.bytes)
  c.tensorWrite x (sqState sd) 0 s.header

/-- The valid record of highest base, or none (R275). -/
def tailOf (rs : List KvRec) : Nat :=
  match (rs.zipIdx.filter (·.1.valid)).foldl (fun (b : Option (KvRec × Nat)) r => match b with
    | some k => if k.1.base < r.1.base then some r else b
    | none => some r) none with
  | some k => k.2
  | none => noTail

/-- An empty sequence, and pools whose every frame is free, as binding makes them (R260). -/
def Chip.initKv (c : Chip) (x : Ctx) : Chip :=
  let c := (seqDecls x.cap x.v).foldl (fun c sd =>
    let c := c.tensorWrite x (sqState sd) 0 (List.replicate (stateBytes sd) 0)
    c.tensorWrite x (sqState sd) 0
      { gen := 0, nextPos := 0, tail := noTail, recs := [] : SeqSt }.header) c
  c.updJob x.j fun y => { y with pools := (poolDecls x.cap x.v).map fun pd =>
    { pool := pdIndex pd, free := List.range (poolExtents x.cap x.job.tuple pd).1, held := [] } }

/-- Frames of a pool that valid records in stacked memory name. -/
def Chip.framesNamed (c : Chip) (x : Ctx) (pool : Nat) : List Nat :=
  ((seqDecls x.cap x.v).filter (sqPool · = pool)).flatMap fun sd => match c.readSeq x sd with
    | .ok s => (s.recs.filter fun r => r.valid && !pteHost r.pte).map fun r => pteFrame r.pte
    | .error _ => []

/-- Pools of a restored job: every frame is free that no valid record names (R289). -/
def Chip.restoreKv (c : Chip) (x : Ctx) : Chip :=
  c.updJob x.j fun y => { y with pools := (poolDecls x.cap x.v).map fun pd =>
    let named := c.framesNamed x (pdIndex pd)
    { pool := pdIndex pd, free := (List.range (poolExtents x.cap x.job.tuple pd).1).filter (!named.contains ·),
      held := [] } }

/-! ## Pages (Table 7.5) -/

/-- Byte of a frame at which the keys or values of head `h`, token `t` begin, in format `f`. -/
def pageOff (sd f : Nat) (value : Bool) (h t : Nat) : Nat :=
  ((if value then 256 * sqHeads sd * sqDim sd else 0) + (h * 256 + t) * sqDim sd) * fmtBits f / 8

/-- Bytes of a page of format `f` (R257). -/
def pageBytes (sd f : Nat) : Nat := 512 * sqHeads sd * sqDim sd * fmtBits f / 8

/-- Codes of `bits`-bit elements packed into bytes (R119), and back. -/
def packCodes (bits : Nat) (codes : List Nat) : List Byte :=
  leBytes (ceilDiv (bits * codes.length) 8) (codes.foldr (fun k acc => k % 2 ^ bits + acc <<< bits) 0)
def unpackCodes (bits n : Nat) (bs : List Byte) : List Nat :=
  let w := leNat bs
  (List.range n).map fun i => (w >>> (bits * i)) % 2 ^ bits

/-- Page formats that widen into a query format (Table 7.11). -/
def widens (page q : Nat) : Bool :=
  page = q || match page with
    | 3 => q = 1 || q = 2
    | 4 => q = 1 || q = 2
    | 5 => q = 1 || q = 2 || q = 3 || q = 4
    | 6 => q = 1 || q = 2 || q = 3
    | 7 => 1 ≤ q && q ≤ 6
    | _ => false

/-- A code widened: a copy, or an exact conversion (R267). -/
def widenCode (page q code : Nat) : Nat := if page = q then code else (narrowTo q (elemVal page true code)).code

/-! ## Walks (R261 to R266) -/

/-- A walk's place in its job; none when its job is not bound. -/
def Chip.kvCtx (c : Chip) (j p g : Nat) : Option Ctx :=
  match c.job? j with
  | some y => if y.phase = .bound
      then some { p := p, g := g, j := j, job := y, cap := c.capsule y.setting, v := y.variant, i := 0 } else none
  | none => none

def Chip.walk? (c : Chip) (w : Nat) : Option Walk := c.walks.find? (·.id = w)
def Chip.updWalk (c : Chip) (w : Nat) (f : Walk → Walk) : Chip :=
  { c with walks := c.walks.map fun y => if y.id = w then f y else y }

/-- The walk that a kind 1 DMA on a pool queues: its destinations are the own Bead, or a multicast group (R261, R265). -/
def Chip.newWalk (c : Chip) (x : Ctx) : Walk :=
  let d := dmaDesc x.cap x.v (iDesc x.i)
  let wd := x.consts (ddList d) 2
  let dests := if wkDest wd = 0 then [x.p] else (mgDests (x.const (wkDest wd))).map (c.beadOf x.job)
  { id := c.sched.nextId, job := x.j, p := x.p, g := x.g, desc := iDesc x.i, wdesc := ddList d, post := iPost x.i,
    facet := physFacet x.p, walker := none, started := false, gen := 0, blocks := [], snap := [],
    dests := dests.map fun q => { p := q, done := 0, since := none, arr := 0 }, ended := false, relayK := 0, relayV := 0,
    hops := [] }

/-- The next number of a transfer, walk or edit, and of an arrival at a slot (R371). -/
def Chip.bumpId (c : Chip) : Chip := { c with sched := { c.sched with nextId := c.sched.nextId + 1 } }

def Chip.addWalk (c : Chip) (w : Walk) : Chip := ({ c with walks := c.walks ++ [w] }.bumpId).assignWalkers w.facet

/-- A kind 1 DMA on a pool queues a walk (R261). -/
def walk_ (p : Nat) (c : Chip) : Chip :=
  issueOn (fun x => isDma (fun d => ddKind d = 1) x && !isListDma 1 x) (fun _ => .none) p
    (fun x c => .started (c.addWalk (c.newWalk x))) c

def execWalk (p : Nat) (s : State) : Out := onChip (.walk p) s (walk_ p)

/-- The walk's blocks that its bitmap does not skip (R262, R287). -/
def walkBlocks (x : Ctx) (wd : Nat) : List Nat :=
  let m := maskWord x (wkMask wd)
  (List.range (2 * wkCount wd)).filter fun j => !mkBitmapEn m || blockBit x m j

/-- Hops that a walk's blocks travel: at most P - 1 (R569). -/
def Chip.walkHops (c : Chip) (wd : Nat) : Nat := min (wkHops wd) ((c.ring (wkRing wd)).size - 1)

/-- What the check of a walked record finds: of several conditions the first in the order format, host, frame range (R266, assumption
121, DESIGN CHOICE). -/
def recordStatus (qfmt frames : Nat) (pte : Nat) : Option Nat :=
  if !pteValid pte then none
  else if !widens (pteFmt pte) qfmt then some stFormatMismatch
  else if pteHost pte then some stKvPageAbsent
  else if frames ≤ pteFrame pte then some stKvFrameRange
  else none

/-- The walk whose rings take a relayed block: its blocks go to the same destinations and objects of the same ring, all of the
walk's own blocks have been written, and blocks of this ring are still to come (R294, R295). The flag tells keys from values. Two
walks of a job at different Beads with dest 0, the same ring and the same objects cannot be told apart: the earlier one takes the
block (assumption 100, DEDUCED). -/
def Chip.relayWalk (c : Chip) (b : RingBlock) (x : Ctx) : Option (Walk × Bool) :=
  (c.walks.filter fun w => w.job = b.job && w.ended).findSome? fun w =>
    let wd := x.consts w.wdesc 2
    let total := c.walkHops wd * (walkBlocks x wd).length
    if wkRing wd != b.ring || wkDest wd != b.dest then none
    else if wkKeyRing wd = b.object && w.relayK < total then some (w, true)
    else if !wkKeysOnly wd && wkValRing wd = b.object && w.relayV < total then some (w, false)
    else none

/-- Two relayed blocks fill the same slots of a ring, one after the other. -/
def RingBlock.sameRing (a b : RingBlock) : Bool := a.job = b.job && a.ring = b.ring && a.dest = b.dest && a.object = b.object

/-- The `n`-th relayed block is next for its slots: its walk's own blocks are written and no earlier block of its ring waits
(R295). -/
def Chip.relayNext (c : Chip) (n : Nat) : Option (RingBlock × Ctx × Walk × Bool) :=
  match c.ringIn[n]? with
  | none => none
  | some b => match c.kvCtx b.job 0 0 with
    | none => none
    | some x =>
      if (c.ringIn.take n).any b.sameRing then none
      else (c.relayWalk b x).map fun (w, key) => (b, x, w, key)

/-- Relayed blocks that have become next reach their slots now (R371, R375). -/
def Chip.noteRelays (c : Chip) : Chip :=
  (List.range c.ringIn.length).foldl (fun c n => match c.relayNext n with
    | some (b, _, _, _) =>
      if b.since.isSome then c
      else { c with ringIn := modAt c.ringIn n fun b => { b with since := some c.now, arr := c.sched.nextId } }.bumpId
    | none => c) c

/-- A walk whose blocks have all been written ends: done and post are made, its context is free; it stays only while its
ring relays blocks (R261, R295). -/
def Chip.endWalk (c : Chip) (x : Ctx) (w : Walk) : Chip :=
  let wd := x.consts w.wdesc 2
  let n := (walkBlocks x wd).length
  if w.dests.all fun d => d.done = n then
    let relay := c.walkHops wd * n
    let c := if relay = 0 then { c with walks := c.walks.filter (·.id != w.id) }
      else c.updWalk w.id fun w => { w with ended := true, blocks := [] }
    let c := (c.assignWalkers w.facet).noteRelays
    (c.postObj x.j x.p (ddDone (dmaDesc x.cap x.v w.desc))).postObj x.j x.p w.post
  else c

/-- The first walked record that fails the check, in the order of the walk, by its place there, with its status (assumption 121, DESIGN
CHOICE). -/
def badRecord (qfmt frames : Nat) (snap : List (Nat × Nat)) : Option (Nat × Nat) :=
  snap.zipIdx.findSome? fun (r, i) => (recordStatus qfmt frames r.1).map fun st => (st, i)

/-- The copy that a walk takes at its start: the generation, and bytes 16 to 31 of each walked record of array G mod 2, which hold its
page table entry and base. Nothing else of the state tensor is read (R278). -/
def Chip.walkSnap (c : Chip) (x : Ctx) (wd sd : Nat) : Except Place (Nat × List (Nat × Nat)) :=
  match c.tensorRead x (sqState sd) 0 64 with
  | .error p => .error p
  | .ok h =>
    let g := fld (getLE h 0 64) 511 480
    let one (r : Nat) : Except Place (Nat × Nat) :=
      match c.tensorRead x (sqState sd) (arrayOff sd g + 32 * r + 16) 16 with
      | .error p => .error p
      | .ok bs =>
        let k := recOf (getLE bs 0 16 <<< 128)
        .ok (k.pte, k.base)
    ((((List.range (sqBudget sd)).drop (wkFirst wd)).take (wkCount wd)).mapM one).map fun snap => (g, snap)

/-- A walker takes the walk: it snapshots the generation, posts start_post and checks every record; one that fails fences the job,
naming the Bead and the record (R253, R266, R278). -/
def walkStart (n : Nat) (c : Chip) : Chip :=
  match c.walk? n with
  | none => c
  | some w => match c.kvCtx w.job w.p w.g with
    | none => c
    | some x =>
      let wd := x.consts w.wdesc 2
      let sd := seqDecl x.cap x.v (wkSeq wd)
      if w.walker.isNone || w.started || !c.tensorReady x (sqState sd) 0 (stateBytes sd) then c
      else match c.walkSnap x wd sd with
        | .error at_ => c.poisonFence x.j (sqState sd) at_
        | .ok (gen, snap) =>
          let frames := (poolExtents x.cap x.job.tuple (poolDecl x.cap x.v (sqPool sd))).1
          match badRecord (wkFmt wd) frames snap with
          | some (st, i) => c.raiseNamed x.j x.p st (c.bead x.p).run.step (.record x.g (wkFirst wd + i))
          | none =>
            let w := { w with started := true, gen := gen, snap := snap,
                              dests := w.dests.map fun d => { d with since := some c.now, arr := c.sched.nextId } }
            let c := ((c.updWalk n fun _ => w).bumpId).postObj x.j x.p (wkStart wd)
            c.endWalk x w

def execWalkStart (w : Nat) (s : State) : Out := onChip (.walkStart w) s (walkStart w)

/-- Tokens of a half-page that a record holds (R264). -/
def halfTokens (pte half : Nat) : Nat := if pteValid pte then min 128 (pteFill pte - 128 * half) else 0

/-- The 128 keys or values of a block in the query format: present tokens widened, zeros elsewhere (R264, R267). -/
def Chip.blockElems (c : Chip) (x : Ctx) (wd sd pte half : Nat) (value : Bool) : Except (Nat × Place) (List Byte) :=
  let pd := poolDecl x.cap x.v (sqPool sd)
  let f := pteFmt pte
  let n := halfTokens pte half
  let elems := n * sqDim sd
  let off := pteFrame pte * (poolExtents x.cap x.job.tuple pd).2 + pageOff sd f value (wkHead wd) (128 * half)
  match (if n = 0 then .ok [] else c.tensorRead x (pdTensor pd) off (elems * fmtBits f / 8)) with
  | .error p => .error (pdTensor pd, p)
  | .ok bs =>
    let codes := (unpackCodes (fmtBits f) elems bs).map (widenCode f (wkFmt wd))
    .ok (packCodes (fmtBits (wkFmt wd)) (codes ++ List.replicate (128 * sqDim sd - elems) 0))

/-- The header of a key block (Table 7.10). -/
def blockHeader (base record origin hop fmt n : Nat) : Nat :=
  (base % 2 ^ 32) <<< 480 + record <<< 468 + origin <<< 455 + hop <<< 442 + fmt <<< 438 + (2 ^ n - 1)

/-- Bytes of a key slot: its elements, then the header at the next 64-byte boundary (R263). -/
def keySlot (elems : List Byte) (h : Nat) : List Byte := padTo elems (roundUp elems.length 64) ++ leBytes 64 h

/-- Key bytes and value bytes of a walk's block `j`. The values of the page are read for a keys_only walk too, so that poison in them
fences its job (assumption 123, DESIGN CHOICE). -/
def Chip.walkBlock (c : Chip) (x : Ctx) (w : Walk) (j : Nat) : Except (Nat × Place) (List Byte × List Byte) :=
  let wd := x.consts w.wdesc 2
  let sd := seqDecl x.cap x.v (wkSeq wd)
  let (pte, base) := w.snap.getD (j / 2) (0, 0)
  let half := j % 2
  match c.blockElems x wd sd pte half false, c.blockElems x wd sd pte half true with
  | .error e, _ => .error e
  | _, .error e => .error e
  | .ok ks, .ok vs =>
    let origin := if wkHops wd = 0 then 0 else (c.ring (wkRing wd)).rank
    .ok (keySlot ks (blockHeader (base + 128 * half) (wkFirst wd + j / 2) origin 0 (wkFmt wd) (halfTokens pte half)), vs)

/-- The objects that the `n`-th block of a walk's rings fills. -/
def walkSlots (wd n : Nat) : List Nat :=
  ringSlot (wkKeyRing wd) (wkLen wd) n :: (if wkKeysOnly wd then [] else [ringSlot (wkValRing wd) (wkLen wd) n])

/-- A slot takes a fill now (R296, R371). -/
def Chip.slotFree (c : Chip) (p n : Nat) : Bool := c.objVal? p n = some (.slot .empty false)

/-- A block's bytes fill a slot. -/
def Chip.fillSlot (c : Chip) (p n : Nat) (fwd : Bool) (bs : List Byte) : Chip :=
  match c.obj? p n with
  | some o => (c.lockWrite p o.bank o.off (bs.take o.len)).setVal p n (.slot .full fwd)
  | none => c

/-- Beads that a relayed block goes to, and the slot it fills there: the blocks of the walk itself fill the first slots (R294,
R295). -/
def Chip.relayDests (c : Chip) (x : Ctx) (w : Walk) (b : RingBlock) : List Nat :=
  if b.dest = 0 then [w.p] else (mgDests (x.const b.dest)).map (c.beadOf x.job)
def relaySlot (x : Ctx) (w : Walk) (b : RingBlock) (key : Bool) : Nat :=
  let wd := x.consts w.wdesc 2
  ringSlot b.object (wkLen wd) ((walkBlocks x wd).length + if key then w.relayK else w.relayV)

/-- An earlier walk of the job over the same slots still waits for blocks of its ring, which come before this one's (R295). -/
def Chip.relayBefore (c : Chip) (x : Ctx) (w : Walk) (q : Nat) : Bool :=
  let slots (wd : Nat) : List Nat := (List.range (wkLen wd)).flatMap (walkSlots wd)
  c.walks.any fun v => v.job = w.job && v.id < w.id && v.ended && v.dests.any (·.p = q)
    && (slots (x.consts v.wdesc 2)).any (slots (x.consts w.wdesc 2)).contains

/-- Numbers at which the fills that wait for a slot reached it: of transfers, of walks under way that no earlier relay holds back, and of
relayed blocks (R295, R371). -/
def Chip.arrivals (c : Chip) (q n : Nat) : List Nat :=
  (c.transfers.filter (·.at_ q n .waiting)).map (·.arrival q n)
    ++ (c.walks.filter fun w => w.started && !w.ended).flatMap (fun w => match c.kvCtx w.job w.p w.g with
      | none => []
      | some x =>
        let wd := x.consts w.wdesc 2
        (w.dests.filter fun d => d.p = q && d.done < (walkBlocks x wd).length && (walkSlots wd d.done).contains n
          && !c.relayBefore x w q).map (·.arr))
    ++ (List.range c.ringIn.length).flatMap (fun k => match c.relayNext k with
      | some (b, x, w, key) =>
        if (c.relayDests x w b).contains q && !b.got.contains q && relaySlot x w b key = n then [b.arr] else []
      | none => [])

/-- A fill that reached a slot as number `arr` is the first of those that wait for it (R371). -/
def Chip.firstArrival (c : Chip) (q n arr : Nat) : Bool := (c.arrivals q n).all (arr ≤ ·)

/-- Whether a destination of a walk can take its next block now. -/
def Chip.destReady (c : Chip) (x : Ctx) (w : Walk) (wd n : Nat) (d : WalkDest) : Bool :=
  d.done < n && !c.relayBefore x w d.p
    && (walkSlots wd d.done).all fun s => c.slotFree d.p s && c.firstArrival d.p s d.arr

/-- A block sent to the next part of the walk's ring, and the number of the message that carries it (R294). -/
def Chip.sendBlockOn (c : Chip) (ring dest object : Nat) (bs : List Byte) : Option Nat × Chip :=
  let c' := c.sendRing ring clsRingData dest object bs
  ((if (c'.ringRun ring).ivTx = (c.ringRun ring).ivTx then none else some (c.ringRun ring).ivTx), c')

/-- A block fills a slot, which holds it until the ring message that carries it on has left (R296). -/
def Chip.fillFrom (c : Chip) (ring : Nat) (msg : Option Nat) (q slot : Nat) (bs : List Byte) : Chip :=
  match msg with
  | some m => if c.messageWaits ring m then (c.fillSlot q slot true bs).holdForward ring m (q, slot) else c.fillSlot q slot false bs
  | none => c.fillSlot q slot false bs

/-- A block that has been read is kept until every destination has it; with hops it goes to the next part at once (R181, R265,
R294). -/
def Chip.holdBlock (c : Chip) (wd : Nat) (n : Nat) (keys vals : List Byte) : HeldBlock × Chip :=
  if c.walkHops wd = 0 then ({ n := n, keys := keys, vals := vals, keyMsg := none, valMsg := none }, c)
  else
    let (k, c) := c.sendBlockOn (wkRing wd) (wkDest wd) (wkKeyRing wd) keys
    let (v, c) := if wkKeysOnly wd then (none, c) else c.sendBlockOn (wkRing wd) (wkDest wd) (wkValRing wd) vals
    ({ n := n, keys := keys, vals := vals, keyMsg := k, valMsg := v }, c)

/-- Destination `i` takes a block that has been read (R262, R265). -/
def Chip.deliverTo (c : Chip) (w : Walk) (wd i : Nat) (d : WalkDest) (b : HeldBlock) : Chip :=
  let c := c.fillFrom (wkRing wd) b.keyMsg d.p (ringSlot (wkKeyRing wd) (wkLen wd) d.done) b.keys
  let c := if wkKeysOnly wd then c else c.fillFrom (wkRing wd) b.valMsg d.p (ringSlot (wkValRing wd) (wkLen wd) d.done) b.vals
  (c.updWalk w.id fun w =>
    let ds := modAt w.dests i fun d => { d with done := d.done + 1, since := some c.now, arr := c.sched.nextId }
    { w with dests := ds, blocks := w.blocks.filter fun b => ds.any fun d => d.done ≤ b.n }).bumpId

/-- Whether the page of a block answers now. -/
def Chip.blockReady (c : Chip) (x : Ctx) (w : Walk) (j : Nat) : Bool :=
  let wd := x.consts w.wdesc 2
  let sd := seqDecl x.cap x.v (wkSeq wd)
  let pd := poolDecl x.cap x.v (sqPool sd)
  let (pte, _) := w.snap.getD (j / 2) (0, 0)
  !pteValid pte || c.tensorReady x (pdTensor pd) (pteFrame pte * (poolExtents x.cap x.job.tuple pd).2) (pageBytes sd (pteFmt pte))

/-- The next block of destination `i` of walk `n`, if that can take one: `bs` are the blocks that the walk does not skip. Its page is
read once, whatever the number of destinations (R265). -/
def Chip.deliverOne (c : Chip) (x : Ctx) (bs : List Nat) (n i : Nat) : Except (Nat × Place) Chip :=
  match c.walk? n with
  | none => .ok c
  | some w => match w.dests[i]? with
    | none => .ok c
    | some d =>
      let wd := x.consts w.wdesc 2
      let j := bs.getD d.done 0
      if !c.destReady x w wd bs.length d then .ok c
      else match w.blocks.find? (·.n = d.done) with
        | some b => .ok (c.deliverTo w wd i d b)
        | none =>
          if !c.blockReady x w j then .ok c
          else match c.walkBlock x w j with
            | .error e => .error e
            | .ok (ks, vs) =>
              let (b, c) := c.holdBlock wd d.done ks vs
              let c := c.updWalk n fun w => { w with blocks := w.blocks ++ [b] }
              .ok (c.deliverTo w wd i d b)

/-- The same for destinations one after another; or where poisoned data stands. -/
def Chip.deliverAll (c : Chip) (x : Ctx) (bs : List Nat) (n : Nat) : List Nat → Except (Nat × Place) Chip
  | [] => .ok c
  | i :: is => match c.deliverOne x bs n i with
    | .error e => .error e
    | .ok c => c.deliverAll x bs n is

/-- The next block of each destination that can take one is widened and written (R262 to R265). A relayed walk waits while
its ring is unusable (R567). -/
def walkBlockDelivery (n : Nat) (c : Chip) : Chip :=
  match c.walk? n with
  | none => c
  | some w => match c.kvCtx w.job w.p w.g with
    | none => c
    | some x =>
      let wd := x.consts w.wdesc 2
      let bs := walkBlocks x wd
      if !w.started || w.ended || (wkHops wd != 0 && !c.ringUsable (wkRing wd) x.job.session) then c
      else
        match c.deliverAll x bs n (List.range w.dests.length) with
        | .error (tid, at_) => c.poisonFence x.j tid at_
        | .ok c => match c.walk? n with
          | some w => c.endWalk x w
          | none => c

def execWalkBlockDelivery (w : Nat) (s : State) : Out := onChip (.walkBlockDelivery w) s (walkBlockDelivery w)

/-! ## Blocks from the ring (R294 to R296) -/

/-- Byte of a key block at which its header stands. -/
def keyHeaderAt (x : Ctx) (w : Walk) : Nat :=
  let wd := x.consts w.wdesc 2
  headerOff (wkFmt wd) (sqDim (seqDecl x.cap x.v (wkSeq wd)))

/-- Hop of a key block's header. -/
def hopOf (x : Ctx) (w : Walk) (bs : List Byte) : Nat := kbHop (getLE bs (keyHeaderAt x w) 64)

/-- The hop of a key block's header raised by one. -/
def hopUp (elems : Nat) (bs : List Byte) : List Byte :=
  let h := getLE bs elems 64
  patchBytes bs elems (leBytes 64 (h + 2 ^ 442))

/-- Hops of the walk's relayed key blocks so far: those filled, and those that still wait. A value block has travelled as far as its
key block (R294). -/
def Chip.relayHops (c : Chip) (x : Ctx) (w : Walk) (b : RingBlock) : List Nat :=
  let key := { b with object := wkKeyRing (x.consts w.wdesc 2) }
  w.hops ++ (c.ringIn.filter key.sameRing).map fun e => hopOf x w e.data

/-- A relayed block has been filled at every destination: it is gone, and so is its walk after its last one. -/
def Chip.relayDone (c : Chip) (x : Ctx) (n : Nat) (w : Walk) (key : Bool) (hop : Nat) : Chip :=
  let wd := x.consts w.wdesc 2
  let total := c.walkHops wd * (walkBlocks x wd).length
  let w := if key then { w with relayK := w.relayK + 1, hops := w.hops ++ [hop] } else { w with relayV := w.relayV + 1 }
  let c := { c with ringIn := dropAt c.ringIn n }
  let c := if w.relayK = total && (wkKeysOnly wd || w.relayV = total) then { c with walks := c.walks.filter (·.id != w.id) }
    else c.updWalk w.id fun _ => w
  c.noteRelays

/-- The `n`-th accepted ring data block fills its slots, after every block of the local walk and every earlier block of its
ring, and goes on while hops remain (R294 to R296). A value block waits until its key block has come. -/
def ringDataReceive (n : Nat) (c : Chip) : Chip :=
  match c.relayNext n with
  | none => c
  | some (b, x, w, key) => match (c.relayHops x w b)[if key then w.relayK else w.relayV]? with
    | none => c
    | some hop =>
      let wd := x.consts w.wdesc 2
      let bs := if key then hopUp (keyHeaderAt x w) b.data else b.data
      let onward := hop + 1 < c.walkHops wd
      let slot := relaySlot x w b key
      let all := c.relayDests x w b
      let now := all.filter fun q => !b.got.contains q && c.slotFree q slot && c.firstArrival q slot b.arr
      if now.isEmpty || (onward && b.got.isEmpty && !c.ringUsable b.ring x.job.session) then c
      else
        let (msg, c) := if onward && b.got.isEmpty then c.sendBlockOn b.ring b.dest b.object bs else (b.msg, c)
        let c := now.foldl (fun c q => c.fillFrom b.ring msg q slot bs) c
        let got := b.got ++ now
        if all.all got.contains then c.relayDone x n w key hop
        else { c with ringIn := modAt c.ringIn n fun e => { e with got := got, msg := msg } }

def execRingDataReceive (n : Nat) (s : State) : Out := onChip (.ringDataReceive n) s (ringDataReceive n)

/-! ## Fills of transfers (R370, R371) -/

/-- A fill is admitted when its slot is EMPTY and it reached it before every other that waits (R371). -/
def fillAdmit (p obj : Nat) (c : Chip) : Chip :=
  match c.objVal? p obj, c.firstFill p obj with
  | some (.slot .empty false), some t =>
    if c.firstArrival p obj (t.arrival p obj) then
      (c.setVal p obj (.slot .filling false)).updTransfer t.id (·.setDest p obj .filling)
    else c
  | _, _ => c

def execFillAdmit (p obj : Nat) (s : State) : Out := onChip (.fillAdmit p obj) s (fillAdmit p obj)

/-! ## Edits (R270 to R280) -/

/-- A free frame for each new page that the edit at the head of a sequence needs. -/
def newPages (s : SeqSt) (fmt n : Nat) : Nat :=
  let room := match s.recs[s.tail]? with
    | some r => if r.valid && pteFmt r.pte = fmt then 256 - pteFill r.pte else 0
    | none => 0
  ceilDiv (n - room) 256

/-- The pool of a job. -/
def Job.pool? (x : Job) (n : Nat) : Option PoolSt := x.pools.find? (·.pool = n)
def Chip.updPool (c : Chip) (j n : Nat) (f : PoolSt → PoolSt) : Chip :=
  c.updJob j fun y => { y with pools := y.pools.map fun k => if k.pool = n then f k else k }

/-- Whether an edit is the first of its sequence (R280). -/
def Chip.editFirst (c : Chip) (x : Ctx) (e : Edit) : Bool :=
  !c.edits.any fun o => o.job = e.job && o.id < e.id && edSeq (x.consts o.edesc 2) = edSeq (x.consts e.edesc 2)

/-- Whether an append at the head of its sequence lacks free frames (R284). -/
def Chip.editStarved (c : Chip) (x : Ctx) (e : Edit) : Bool :=
  let w := x.consts e.edesc 2
  let sd := seqDecl x.cap x.v (edSeq w)
  edOp w = 0 && match c.readSeq x sd, x.job.pool? (sqPool sd) with
    | .ok s, some k => k.free.length < newPages s (edFmt w) e.keys.length
    | _, _ => false

/-- The waits of appends for a frame start and end (R284). -/
def Chip.notePools (c : Chip) (j : Nat) : Chip :=
  { c with edits := c.edits.map fun e =>
      if e.job != j then e
      else match c.kvCtx e.job e.p e.g with
        | none => e
        | some x =>
          if c.editFirst x e && c.editStarved x e then { e with since := some (e.since.getD c.now) }
          else { e with since := none } }

/-- The edit that a kind 2 DMA on a pool makes: what it needs of the own Locket is read (R270). -/
def Chip.newEdit (c : Chip) (x : Ctx) : Edit :=
  let d := dmaDesc x.cap x.v (iDesc x.i)
  let w := x.consts (ddList d) 2
  let rows (off : Nat) : List (List Byte) := (appendRanges d off).map fun r => c.lockRead x.p r.bank r.off r.len
  let keys := match edOp w with
    | 0 => rows (ddSrcOff d)
    | 2 => (List.range (ddRows d)).map fun i => c.lockRead x.p (fld (ddSrcOff d) 20 19) (ddSrcOff d % 2 ^ 19 + 16 * i) 16
    | _ => []
  let f := physFacet x.p
  { id := c.sched.nextId, job := x.j, p := x.p, g := x.g, desc := iDesc x.i, edesc := ddList d, post := iPost x.i,
    keys := keys, vals := if edOp w = 0 then rows (edVOff w) else [], since := none, facet := f, walker := none,
    foot := editFoot x }

/-- The edit waits for its turn in its sequence (R280). -/
def Chip.addEdit (c : Chip) (e : Edit) : Chip :=
  (({ c with edits := c.edits ++ [e] }.bumpId).assignWalkers e.facet).notePools e.job

/-- A kind 2 DMA on a pool starts an edit (R270). -/
def editStart (x : Ctx) (c : Chip) : Act := .started (c.addEdit (c.newEdit x))

/-- Issue of an edit of one operation. -/
def editIssue (op p : Nat) (c : Chip) : Chip :=
  issueOn (fun x => isDma (fun d => ddKind d = 2) x && !isListDma 2 x
    && edOp (x.consts (ddList (dmaDesc x.cap x.v (iDesc x.i))) 2) = op) editFoot p editStart c

def execAppend (p : Nat) (s : State) : Out := onChip (.append p) s (editIssue 0 p)
def execDropBelow (p : Nat) (s : State) : Out := onChip (.dropBelow p) s (editIssue 1 p)
def execScoreAdd (p : Nat) (s : State) : Out := onChip (.scoreAdd p) s (editIssue 2 p)
def execTruncateFrom (p : Nat) (s : State) : Out := onChip (.truncateFrom p) s (editIssue 3 p)

/-- The records that an append may evict (R272): valid, not of the `sink` lowest bases nor the `recent` highest; as
(record, index), in the order in which they go. With recent = 0 the tail record that the append has just filled is one of them
(assumption 122, DEDUCED). -/
def victims (sd : Nat) (s : SeqSt) : List (KvRec × Nat) :=
  let byBase := sortBy (fun (a b : KvRec × Nat) => a.1.base ≤ b.1.base) (s.recs.zipIdx.filter (·.1.valid))
  let n := byBase.length
  let mid := (byBase.take (n - sqRecent sd)).drop (sqSink sd)
  sortBy (fun a b => a.1.score < b.1.score || (a.1.score = b.1.score && a.1.base ≤ b.1.base)) mid

/-- A new sequence state, the frames that it releases, and the token data to write: (frame, format, token of the page,
token of the request). -/
structure EditResult where
  seq : SeqSt
  released : List Nat
  taken : List Nat
  writes : List (Nat × Nat × Nat × Nat)
  deriving DecidableEq, Repr

/-- What an append does (R271 to R273): the tail page is filled, then new pages take free frames and empty or evicted
records. None: too few candidates. -/
def planAppend (sd fmt n : Nat) (s : SeqSt) (free : List Nat) : Option EditResult :=
  let tailRec := (s.recs[s.tail]?).getD .empty
  let room := if tailRec.valid && pteFmt tailRec.pte = fmt then 256 - pteFill tailRec.pte else 0
  let a := min room n
  let recs1 := if a = 0 then s.recs else
    s.recs.set s.tail { tailRec with pte := pteRefill tailRec.pte (pteFill tailRec.pte + a) }
  let w1 := (List.range a).map fun k => (pteFrame tailRec.pte, fmt, pteFill tailRec.pte + k, k)
  let k := ceilDiv (n - a) 256
  let empties := (s.recs.zipIdx.filter (!·.1.valid)).map (·.2)
  let need := k - empties.length
  let cand := (victims sd s).take need
  if cand.length < need then none
  else
    let out := cand.map (·.2)
    let places := (empties ++ sortDedup out).take k
    let recs2 := recs1.zipIdx.map fun (r, i) =>
      if out.contains i then .empty
      else if 0 < k && r.valid then { r with score := r.score >>> sqDecay sd } else r
    let pages := (places.zip free).zipIdx
    let recs3 := pages.foldl (fun (rs : List KvRec) (pf, i) =>
      rs.set pf.1 { pte := ptePack fmt (min 256 (n - a - 256 * i)) pf.2, base := (s.nextPos + a + 256 * i) % 2 ^ 32, score := 0 }) recs2
    let w2 := pages.flatMap fun (pf, i) =>
      (List.range (min 256 (n - a - 256 * i))).map fun t => (pf.2, fmt, t, a + 256 * i + t)
    some { seq := { gen := s.gen + 1, nextPos := (s.nextPos + n) % 2 ^ 32, recs := recs3,
                    tail := if k = 0 then s.tail else ((places.getLast?).getD noTail) },
           released := cand.map fun r => pteFrame r.1.pte, taken := free.take k, writes := w1 ++ w2 }

/-- What a drop_below does (R274). -/
def planDrop (pos : Nat) (s : SeqSt) : EditResult :=
  let gone (r : KvRec) : Bool := r.valid && r.base + pteFill r.pte ≤ pos
  { seq := { gen := s.gen + 1, nextPos := s.nextPos,
             recs := s.recs.map fun r => if gone r then .empty else r,
             tail := if (s.recs[s.tail]?).elim true gone then noTail else s.tail },
    released := (s.recs.filter gone).map fun r => pteFrame r.pte, taken := [], writes := [] }

/-- What a truncate_from does (R275). -/
def planTruncate (pos : Nat) (s : SeqSt) : EditResult :=
  let gone (r : KvRec) : Bool := r.valid && pos ≤ r.base
  let recs := s.recs.map fun r =>
    if gone r then .empty
    else if r.valid && pos < r.base + pteFill r.pte then { r with pte := pteRefill r.pte (pos - r.base) } else r
  { seq := { gen := s.gen + 1, nextPos := pos, recs := recs, tail := tailOf recs },
    released := (s.recs.filter gone).map fun r => pteFrame r.pte, taken := [], writes := [] }

/-- What a score_add does to the records: each entry's amount on its valid record, saturating (R276). -/
def addScores (entries : List (List Byte)) (rs : List KvRec) : List KvRec :=
  entries.foldl (fun rs e =>
    let w := getLE e 0 16
    match rs[fld w 127 116]? with
    | some r => if r.valid then rs.set (fld w 127 116) { r with score := satAdd u64max r.score (fld w 63 0) } else rs
    | none => rs) rs

/-- Token data of an append written into its frames, head by head (R257, R271). -/
def Chip.writeTokens (c : Chip) (x : Ctx) (sd : Nat) (e : Edit) (ws : List (Nat × Nat × Nat × Nat)) : Chip :=
  let pd := poolDecl x.cap x.v (sqPool sd)
  let frameBytes := (poolExtents x.cap x.job.tuple pd).2
  ws.foldl (fun c (frame, fmt, t, k) =>
    let n := sqDim sd * fmtBits fmt / 8
    (List.range (sqHeads sd)).foldl (fun c h =>
      let put (c : Chip) (value : Bool) (row : List Byte) : Chip :=
        c.tensorWrite x (pdTensor pd) (frame * frameBytes + pageOff sd fmt value h t) (sliceBytes row (n * h) n)
      put (put c false (e.keys.getD k [])) true (e.vals.getD k [])) c) c

/-- An edit that has been applied is gone; its done object and post are made. -/
def Chip.endEdit (c : Chip) (x : Ctx) (e : Edit) : Chip :=
  let c := { c with edits := c.edits.filter (·.id != e.id) }.assignWalkers e.facet
  ((c.postObj x.j x.p (ddDone (dmaDesc x.cap x.v e.desc))).postObj x.j x.p e.post).notePools x.j

/-- A planned edit commits: data, the other array, the generation; released frames are held (R277, R282). -/
def Chip.commitEdit (c : Chip) (x : Ctx) (e : Edit) (sd : Nat) (r : EditResult) : Chip :=
  let c := c.writeTokens x sd e r.writes
  let c := c.writeSeq x sd r.seq
  let c := c.updPool x.j (sqPool sd) fun k =>
    { k with free := k.free.filter (!r.taken.contains ·),
             held := k.held ++ r.released.map fun f =>
               { frame := f, seq := sqNumber sd, gen := r.seq.gen, stepEnds := x.job.stepEnds } }
  c.endEdit x e

/-- The first edit of its sequence is applied and commits; an append that lacks free frames waits (R271 to R277, R280,
R284). -/
def editCommit (n : Nat) (c : Chip) : Chip :=
  match c.edits.find? (·.id = n) with
  | none => c
  | some e => match c.kvCtx e.job e.p e.g with
    | none => c
    | some x =>
      let w := x.consts e.edesc 2
      let sd := seqDecl x.cap x.v (edSeq w)
      let pd := poolDecl x.cap x.v (sqPool sd)
      let bytes := (c.tensorAlloc? x.job (pdTensor pd)).elim 0 (·.bytes)
      if e.walker.isNone || !c.editFirst x e || !c.tensorReady x (sqState sd) 0 (stateBytes sd)
          || (edOp w = 0 && !c.tensorReady x (pdTensor pd) 0 bytes) then c
      else match c.readSeq x sd with
        | .error at_ => c.poisonFence x.j (sqState sd) at_
        | .ok s => match edOp w with
          | 0 =>
            let free := (x.job.pool? (sqPool sd)).elim [] (·.free)
            match planAppend sd (edFmt w) e.keys.length s free with
            | none => c.raiseAt x.j x.p stKvNoVictim (c.bead x.p).run.step
            | some r => if free.length < newPages s (edFmt w) e.keys.length then c.notePools x.j else c.commitEdit x e sd r
          | 1 => c.commitEdit x e sd (planDrop (edPos w) s)
          | 3 => c.commitEdit x e sd (planTruncate (edPos w) s)
          | _ => (c.writeSeq x sd { s with recs := addScores e.keys s.recs }).endEdit x e

def execEditCommit (e : Nat) (s : State) : Out := onChip (.editCommit e) s (editCommit e)

/-- Whether a released frame may be free again: every walk of an older generation has ended, and the job has completed a
step_end since (R282). -/
def Chip.frameDue (c : Chip) (x : Ctx) (h : HeldFrame) : Bool :=
  h.stepEnds < x.job.stepEnds && !c.walks.any fun w =>
    w.job = x.j && w.started && !w.ended && w.gen < h.gen && wkSeq (x.consts w.wdesc 2) = h.seq

/-- A released frame returns to its pool's free list (R282). -/
def frameReclaim (j pool frame : Nat) (c : Chip) : Chip :=
  match c.kvCtx j 0 0 with
  | none => c
  | some x => match (x.job.pool? pool).bind fun k => k.held.find? (·.frame = frame) with
    | none => c
    | some h =>
      if c.frameDue x h then
        (c.updPool j pool fun k =>
          { k with free := insertBy (· ≤ ·) frame k.free, held := k.held.filter (· != h) }).notePools j
      else c

def execFrameReclaim (j pool frame : Nat) (s : State) : Out :=
  onChip (.frameReclaim j pool frame) s (frameReclaim j pool frame)

/-- An append that has waited 8,715 tk for a free frame fences the job with KV_POOL_EMPTY (R284). -/
def poolWaitExpiry (n : Nat) (c : Chip) : Chip :=
  match c.edits.find? (·.id = n) with
  | none => c
  | some e => match e.since, c.kvCtx e.job e.p e.g with
    | some s, some x =>
      if s + watchTicks ≤ c.now && c.editStarved x e then c.raiseAt x.j x.p stKvPoolEmpty (c.bead x.p).run.step else c
    | _, _ => c

def execPoolWaitExpiry (e : Nat) (s : State) : Out := onChip (.poolWaitExpiry e) s (poolWaitExpiry e)

end Sys2Proof.Machine
end

