-- ==== Sys2Proof/Machine/Watch.lean ====
section
/-! DEFINITION. The slot watchdog: every wait that it times and what its expiry does (R375, R376, R451, R572). -/
namespace Sys2Proof.Machine

/-- Length of the watchdog of a wait for a collective's messages, widened by R55 (R572). -/
def ringWatchTicks : Nat := 8719

/-- Whether a wait of a Bead is still unresolved. -/
def Chip.stillWaits (c : Chip) (p : Nat) (w : Wait) : Bool :=
  match w.kind with
  | .waitField => !c.available p w.obj
  | .localRead => match c.objVal? w.owner w.obj with
    | some (.slot st _) => st != .full
    | _ => false
  | .collective => true
  | _ => false

/-- A wait since stamp `s` has lasted `n` ticks. -/
def Chip.lateBy (c : Chip) (n s : Nat) : Bool := s + n ≤ c.now

/-- A wait that has reached its limit: the group-relative Bead that waits, that Bead, the kind of wait, the object's owner and the
object, or the Cameo stream that it waits for (R375, R451). -/
structure Late where
  g : Nat
  p : Nat
  kind : WaitKind
  owner : Nat
  obj : Nat
  stream : Option Nat
  deriving DecidableEq, Repr

/-- Late waits of the job's Beads: at the instruction that is next to issue, and at those in progress. -/
def Chip.lateBeads (c : Chip) (x : Job) : List Late :=
  (c.groupBeads x).zipIdx.flatMap fun (p, g) =>
    (((c.bead p).waits ++ (c.bead p).run.parked.flatMap (·.waits)).filter fun w =>
      c.lateBy (if w.kind = .collective then ringWatchTicks else watchTicks) w.since && c.stillWaits p w).map
        fun w => { g := g, p := p, kind := w.kind, owner := w.owner, obj := w.obj, stream := none }

/-- Whether an object still holds off a fill, or a remote access. -/
def Chip.holdsOff (c : Chip) (p obj : Nat) : Bool :=
  match c.objVal? p obj with
  | some (.slot st f) => st != .empty || f
  | some (.window o) => !o
  | _ => false

/-- Late fills and remote accesses of the job's transfers; they name the Bead that issued them. -/
def Chip.lateTransfers (c : Chip) (j : Nat) : List Late :=
  (c.transfers.filter (·.job = j)).flatMap fun t =>
    let late (kind : WaitKind) (owner obj : Nat) : Late :=
      { g := t.g, p := t.p, kind := kind, owner := owner, obj := obj, stream := none }
    (match t.remoteWait, t.remoteSince with
      | some o, some s => if c.lateBy watchTicks s && !c.windowOpen o.1 o.2 then [late .remote o.1 o.2] else []
      | _, _ => [])
    ++ (t.dests.filter fun e => e.st = .waiting && e.since.elim false (c.lateBy watchTicks) && c.holdsOff e.p e.obj).map
        fun e => late (match c.objVal? e.p e.obj with
          | some (.window _) => .remote
          | _ => .fill) e.p e.obj

/-- Late fills of the job's walks. -/
def Chip.lateWalks (c : Chip) (j : Nat) : List Late :=
  (c.walks.filter fun w => w.job = j && w.started && !w.ended).flatMap fun w =>
    match c.kvCtx j w.p w.g with
    | none => []
    | some x =>
      let wd := x.consts w.wdesc 2
      let total := (walkBlocks x wd).length
      let idle := wkHops wd != 0 && !c.ringUsable (wkRing wd) x.job.session
      (w.dests.filter fun d => d.done < total && d.since.elim false (c.lateBy watchTicks)).flatMap fun d =>
        ((walkSlots wd d.done).filter fun n => idle || c.holdsOff d.p n).map fun n =>
          { g := w.g, p := w.p, kind := .fill, owner := d.p, obj := n, stream := none }

/-- Late fills of blocks that a ring has brought: they name the Bead whose walk they belong to (R295, R375). -/
def Chip.lateRelays (c : Chip) (j : Nat) : List Late :=
  (List.range c.ringIn.length).flatMap fun n => match c.relayNext n with
    | none => []
    | some (b, x, w, key) =>
      if b.job = j && b.since.elim false (c.lateBy watchTicks) then
        let slot := relaySlot x w b key
        ((c.relayDests x w b).filter fun q => !b.got.contains q && c.holdsOff q slot).map fun q =>
          { g := w.g, p := w.p, kind := .fill, owner := q, obj := slot, stream := none }
      else []

/-- Late rows at an intake of the job's streams: rows whose slot is not open (R451). -/
def Chip.lateRows (c : Chip) (j : Nat) : List Late :=
  (c.streams.filter (·.job = j)).flatMap fun s =>
    (s.waiting.filter fun w => c.lateBy watchTicks w.since
      && !(c.slotsOf s).any fun k => k.frame = w.frame && k.row = w.y / 64).map fun w =>
        { g := (c.bead w.p).g, p := w.p, kind := .intake, owner := w.p, obj := noObj, stream := some s.entry }

/-- Every wait of a bound job that has reached its limit, the lowest waiting Bead and its lowest object first (R376). -/
def Chip.expiredWaits (c : Chip) (j : Nat) (x : Job) : List Late :=
  sortBy (fun a b => a.g < b.g || (a.g = b.g && a.obj ≤ b.obj))
    (c.lateBeads x ++ c.lateTransfers j ++ c.lateWalks j ++ c.lateRelays j ++ c.lateRows j)

/-- What a late wait's record names (R375, R451). -/
def Chip.lateNamed (c : Chip) (w : Late) : Named :=
  match w.stream with
  | some e => .stream w.g e
  | none => .wait w.g w.kind (c.bead w.owner).g w.obj (c.objVal? w.owner w.obj)

/-- A wait has lasted 8,715 tk: the job is fenced once with SLOT_TIMEOUT, naming the wait of the lowest waiting Bead (R375,
R376). -/
def slotWatchdogExpiry (j : Nat) (c : Chip) : Chip :=
  match c.job? j with
  | none => c
  | some x =>
    if x.phase != .bound then c
    else match c.expiredWaits j x with
      | [] => c
      | w :: _ => c.raiseNamed j w.p stSlotTimeout (c.bead w.p).run.step (c.lateNamed w)

def execSlotWatchdogExpiry (j : Nat) (s : State) : Out := onChip (.slotWatchdogExpiry j) s (slotWatchdogExpiry j)

end Sys2Proof.Machine
end

