-- ==== Sys2Proof/Machine/CapInstr.lean ====
section
/-! DEFINITION. What an instruction states by itself, in every stream of a capsule, mapped or not: its class, codes and field
values, its Locket bounds, and the features and tables it needs (R62, R65, R88, R91 to R98, R124, R125, R161, R162, R167,
R224 to R226, R242, R299, R327, R350, R367, R570). -/
namespace Sys2Proof.Machine

/-! ## Ranges (R65, R358) -/

/-- A range lies inside its bank (R358). -/
def LockRange.inBank (r : LockRange) : Bool := r.off + r.len ≤ 2 ^ 19
def inBanks (rs : List LockRange) : Bool := rs.all LockRange.inBank
def anyMeet (as bs : List LockRange) : Bool := as.any fun a => bs.any a.meets

/-! ## Tables and features (R62, R226) -/

/-- The images of a table section, one after another, and nothing after them but the fill of a 16-byte boundary. -/
def tableImages (c : Capsule) (pos : Nat) : List (List Byte) :=
  let bs := sectionBytes c secTable pos
  (imageOffsets bs bs.length 0).map fun o => (bs.drop o).take (thBytes (getLE bs o 64))

/-- Reduction kind of a table position; none where it has no section. -/
def tableKind? (c : Capsule) (pos : Nat) : Option Nat :=
  match tableImages c pos with
  | [] => none
  | img :: _ => some (thReduction (getLE img 0 64))

/-- A table position has a section, of a kind where one is asked for (R226). -/
def hasTable (c : Capsule) (pos : Nat) (kind : Option Nat) : Bool :=
  match tableKind? c pos with
  | some k => kind.isNone || kind = some k
  | none => false

/-- The capsule requires feature `b` (Table 2.2). -/
def hasFeature (c : Capsule) (b : Nat) : Bool := bit (hdrFeatures (capHeader c)) b

/-! ## Pairings, codes and bodies (R88, R94, R98, R125, R367) -/

/-- Legal operand pairings (R125, Table 3.7). -/
def pairingOk (a b : Nat) : Bool :=
  (3 ≤ a && a ≤ 7 && 3 ≤ b && b ≤ 7) || (10 ≤ a && a ≤ 14 && 10 ≤ b && b ≤ 14)
    || (a = b && (a = fmtBF16 || a = fmtFP16 || a = fmtMXINT8)) || (isIntFmt a && isIntFmt b)

/-- LANE operation codes that are not reserved (R94, R224, R299, R327, R350, R570). -/
def laneCodeOk (op : Nat) : Bool :=
  op ≤ 0x0E || (0x30 ≤ op && op ≤ 0x34) || (0x40 ≤ op && op ≤ 0x4A) || (0x50 ≤ op && op ≤ 0x56)
    || op = 0x60 || op = 0x61 || (0x70 ≤ op && op ≤ 0x74) || (0x80 ≤ op && op ≤ 0x83)

/-- A CTRL body: its code, and no bit set that its operands do not name (Table 2.13). -/
def ctrlBodyOk (i : Nat) : Bool :=
  match iOp i with
  | 3 => fld i 69 0 = 0 && (match loopSource i with
    | 0 => loopIndex i = 0
    | 1 => true
    | 2 => loopIndex i ≤ 3
    | _ => false)
  | 5 => fld i 77 0 = 0
  | 6 => fld i 79 0 = 0 && swapTable i ≤ 7
  | 7 => fld i 77 0 = 0
  | op => op ≤ 8 && fld i 87 0 = 0

/-- A SYNC body: its code, and every field its operation does not use at 0 or its default (Table 11.2, R367). -/
def syncBodyOk (i : Nat) : Bool :=
  let op := syOp i
  op ≤ 5 && fld i 4 0 = 0 && (op = 0 || (syCount i = 0 && (syTarget i = 0 || syTarget i = 0xFFF)))
    && (op != 0 || syCount i != 0) && (op = 5 || (syRed i = 0 && sySrc i = 0 && syIndex i = 0))
    && (op != 5 || syObject i = 0)

/-! ## Products (R91, R124, R125, R161, R162, R167) -/

/-- Shape, steps, pairing, MX and sparse operands of a product, and its ranges; `a` is operand A's range. -/
def productFormOk (q : Product) (a : LockRange) : Bool :=
  let acc : LockRange := ⟨2, 64 * q.cAddr, 4 * q.m * q.n⟩
  q.shape ≤ 9 && q.steps != 0 && pairingOk q.fmtA q.fmtB && (!isMx q.fmtA || q.transA) && (!isMx q.fmtB || q.transB)
    && (!q.sparse || (3 ≤ q.fmtA && q.fmtA ≤ 9 && q.transA)) && inBanks [a, q.rangeB, acc]

/-! ## LANE operands (R93 to R96, R155) -/

/-- A source or destination of `n` elements in a format, inside its bank. -/
def laneRangeOk (bank addr f n : Nat) : Bool := LockRange.inBank ⟨bank, 64 * addr, operandBytes f n⟩

/-- A source or destination of `n` elements whose MX blocks are whole (R96). What bank 2 holds is not asked: bytes of an INT32
accumulator are read as the operand's format says (assumption 88, DEDUCED). -/
def laneOperandOk (bank addr f n : Nat) : Bool := (!isMx f || n % 32 = 0) && laneRangeOk bank addr f n

/-- The fields of each operand, as one number that is 0 where the operand is not used. -/
def laneD (i : Nat) : Nat := laneFmtD i + laneBankD i + laneAddrD i
def laneS0 (i : Nat) : Nat := laneFmt0 i + laneBank0 i + laneAddr0 i
def laneS1 (i : Nat) : Nat := laneFmt1 i + laneBank1 i + laneAddr1 i
def laneS2 (i : Nat) : Nat := laneBank2 i + laneAddr2 i

/-- A vector operation of `k` sources in floating formats; `n` lanes are written (R95, R96, R225). -/
def floatLaneOk (k : Nat) (c : Bool) (i : Nat) : Bool :=
  let n := laneCount i
  let written := if iOp i = 0x0D || iOp i = 0x0E then 1 else n
  isFloat (laneFmtD i) && laneRangeOk (laneBankD i) (laneAddrD i) (laneFmtD i) written
    && (if 1 ≤ k then isFloat (laneFmt0 i) && laneRangeOk (laneBank0 i) (laneAddr0 i) (laneFmt0 i) n else laneS0 i = 0)
    && (if 2 ≤ k then isFloat (laneFmt1 i) && laneRangeOk (laneBank1 i) (laneAddr1 i) (laneFmt1 i) n else laneS1 i = 0)
    && (if 3 ≤ k then laneRangeOk (laneBank2 i) (laneAddr2 i) (laneFmtD i) n else laneS2 i = 0)
    && (if c then laneConst i != 0 else laneConst i = 0)

/-- A bit copy of any format and any number of lanes: R96 asks whole MX blocks of a convert alone (R95 0x00). -/
def copyOk (i : Nat) : Bool :=
  laneFmt0 i = laneFmtD i && laneRangeOk (laneBankD i) (laneAddrD i) (laneFmtD i) (laneCount i)
    && laneRangeOk (laneBank0 i) (laneAddr0 i) (laneFmt0 i) (laneCount i) && laneS1 i = 0 && laneS2 i = 0 && laneConst i = 0

/-- The operands of a convert (R95 0x01): any format, a vector of scales or biases in bank 3 or no operand. -/
def convertFormOk (i : Nat) : Bool :=
  laneConst i != 0 && laneOperandOk (laneBankD i) (laneAddrD i) (laneFmtD i) (laneCount i)
    && laneOperandOk (laneBank0 i) (laneAddr0 i) (laneFmt0 i) (laneCount i)
    && (laneS1 i = 0 || (laneBank1 i = 3 && laneFmt1 i = 0)) && (laneS2 i = 0 || laneBank2 i = 3)

/-- No operand field of the body is used, and the lane count is 128 (R224, R299, R327, R570). -/
def bareLane (i : Nat) : Bool := laneCount i = 128 && laneD i + laneS0 i + laneS1 i + laneS2 i = 0 && laneConst i != 0

/-- A LANE body, apart from what its constant entries say. -/
def laneFormOk (c : Capsule) (i : Nat) : Bool :=
  let op := iOp i
  laneCodeOk op && 1 ≤ laneCount i && laneCount i ≤ 128 &&
    if op = 0x00 then copyOk i
    else if op = 0x01 then convertFormOk i
    else if op = 0x05 then floatLaneOk 3 false i
    else if (0x02 ≤ op && op ≤ 0x04) || op = 0x06 || op = 0x07 then floatLaneOk 2 false i
    else if op = 0x0B || op = 0x0C then floatLaneOk 1 true i
    else if op ≤ 0x0E then floatLaneOk 1 false i
    else if op = 0x30 then laneD i + laneS0 i + laneS1 i + laneS2 i = 0 && laneConst i != 0
    else if op = 0x31 then floatLaneOk 0 true i && laneFmtD i = fmtFP32
    else if op ≤ 0x34 then floatLaneOk 0 true i
    else if op = 0x45 then floatLaneOk 2 false i && hasTable c posRecip none
    else if op ≤ 0x47 then floatLaneOk 1 false i && hasTable c (lanePos op) none
    else if op = 0x48 then floatLaneOk 1 true i
    else if op = 0x49 then floatLaneOk 1 true i && laneFmt0 i = fmtFP32
    else if op = 0x4A then laneD i + laneS0 i + laneS1 i + laneS2 i = 0 && laneConst i != 0
    else if op ≤ 0x56 then bareLane i && (normTables op).all fun p => hasTable c p none
    else if op = 0x60 then hasFeature c 5 && bareLane i
    else if op = 0x61 then
      hasFeature c 11 && laneCount i = 128 && laneConst i != 0 && laneFmtD i + laneFmt0 i + laneS1 i + laneS2 i = 0
    else if op ≤ 0x74 then bareLane i
    else hasFeature c 10 && bareLane i

/-! ## Every instruction -/

/-- Common fields and class body of an instruction, apart from what its Bead and its constant entries say. -/
def instrFormOk (c : Capsule) (i : Nat) : Bool :=
  fld i 123 122 = 0 && fld i 101 96 = 0 && match iClass i with
    | 0 => ctrlBodyOk i && (iOp i != 5 || ctrlOperand i < hdrDecisions (capHeader c))
        && (iOp i != 6 || hasTable c (swapTable i) none)
    | 1 => fld i 14 0 = 0 && productFormOk (mmaProduct i) (mmaProduct i).rangeA
    | 2 => laneFormOk c i
    | 3 => fld i 79 0 = 0
    | 4 => syncBodyOk i && (syOp i != 5 || hasFeature c 11)
    | 5 => chDesc i != 0
    | _ => false

end Sys2Proof.Machine
end

