-- ==== Sys2Proof/Machine/CapForm.lean ====
section
/-! DEFINITION. The form of a capsule, by itself: header, sections, tensors, extents, decision points, maps, sync
declarations and table images (R59 to R109, R120, R121, R226, R366, R684, R686). -/
namespace Sys2Proof.Machine

/-- Every number of a list is above the one before. -/
def rising : List Nat → Bool
  | [] => true
  | [_] => true
  | a :: b :: rest => a < b && rising (b :: rest)

/-- A list holds no element twice. -/
def noTwice [BEq α] : List α → Bool
  | [] => true
  | x :: xs => !xs.contains x && noTwice xs

/-! ## Header, directories and sections (R59, R63, R64) -/

/-- Fields of the header and their ranges (Table 2.1). -/
def capHeaderOk (h : Nat) : Bool :=
  1 ≤ hdrSections h && hdrSections h ≤ 4096 && 1 ≤ hdrVariants h && hdrVariants h ≤ 1024 && 1 ≤ hdrMaxSteps h
    && hdrDecisions h ≤ 1023 && hdrSectionDir h % 16 = 0 && hdrVariantDir h % 32 = 0 && fld h 159 129 = 0 && fld h 127 0 = 0

/-- Bytes of one entry of a section of fixed entry size; 16 where sections are whole only by R63 (Table 2.4). -/
def entrySize (typ : Nat) : Nat := [16, 32, 80, 16, 16, 32, 16, 16, 32, 8, 16, 2].getD typ 16

/-- One section directory entry and its CRC (Tables 2.3, 2.4). A section type that Table 2.4 gives instance 0 has no
other. -/
def sectionOk (c : Capsule) (s : SectionDir) : Bool :=
  1 ≤ s.typ && s.typ ≤ 0x0B && s.resv = 0 && s.off % 16 = 0 && s.len % 16 = 0 && s.len % entrySize s.typ = 0
    && s.off + s.len ≤ c.length && s.crc = crc32 ((c.drop s.off).take s.len)
    && (s.inst = 0 || !([secTensors, secExtents, secDecisions, secLoupe].contains s.typ))

/-- The byte ranges that must be disjoint and inside the capsule (R63). -/
def capsuleRanges (c : Capsule) : List (Nat × Nat) :=
  let h := capHeader c
  [(0, 64), (hdrSectionDir h, hdrSectionDir h + 16 * hdrSections h),
    (hdrVariantDir h, hdrVariantDir h + 32 * hdrVariants h)]
    ++ ((sectionDirs c).filter (·.len != 0)).map fun s => (s.off, s.off + s.len)

/-- Header and directories, every section with its CRC, all ranges disjoint and inside (R63). Two sections of one type and
instance are refused: nothing could tell them apart (assumption 40, DEDUCED). -/
def layoutOk (c : Capsule) : Bool :=
  let h := capHeader c
  64 ≤ c.length && c.length = hdrBytes h && capHeaderOk h && (capsuleRanges c).all (fun r => r.2 ≤ c.length)
    && disjointRanges (capsuleRanges c) && (sectionDirs c).all (sectionOk c)
    && noTwice ((sectionDirs c).map fun s => (s.typ, s.inst))

/-! ## Extents and tensors (R68 to R71, R120, R121) -/

/-- One extent and bucket declaration (Table 2.7). -/
def extentOk (d : Nat) : Bool :=
  let n := exCount d
  exKind d ≤ 4 && fld d 631 512 = 0 && (if exKind d = 0 then n = 0 else 1 ≤ n)
    && rising ((List.range n).map (exBucket d)) && ((List.range 16).drop n).all fun i => exBucket d i = 0

/-- Exactly four entries, one for each acceptance extent (R71). -/
def extentsOk (c : Capsule) : Bool :=
  sectionCount c secExtents 0 80 = 4 && (List.range 4).all fun e => extentOk (extentDecl c e)

/-- An extent descriptor, wherever it stands (Table 2.6, R69). -/
def extentDescOk (c : Capsule) (d : Nat) : Bool :=
  if bit d 31 then exKind (extentDecl c (fld d 30 29)) != 0 && fld d 28 16 = 0 && fld d 15 0 != 0 else fld d 30 0 != 0

/-- The bucket tuples of the variants, which are those at which anything is allocated. -/
def variantTuples (c : Capsule) : List (List Nat) :=
  (List.range (hdrVariants (capHeader c))).map fun v => varTuple (variantWord c v)

/-- Whether a row extent lets every row start on a byte boundary, and holds whole MX blocks (R120, R121). -/
def rowExtentOk (f n : Nat) : Bool :=
  if isMx f then n % 32 = 0
  else match fmtBits f with
    | 4 => n % 2 = 0
    | 6 => n % 4 = 0
    | _ => true

/-- One tensor declaration (Table 2.5). -/
def tensorOk (c : Capsule) (d : Nat) : Bool :=
  tdId d != noTensor && tdKind d ≤ 5 && 1 ≤ tdRank d && tdRank d ≤ 4 && fld d 227 224 = 0 && fld d 95 0 = 0
    && (tdExtents d).all (extentDescOk c) && ((tdExtents d).drop (tdRank d)).all (· = 1)
    && (variantTuples c).all fun t => rowExtentOk (tdFormat d) (rowExtent c t d)

/-- Every tensor, each identifier once (assumption 40, DEDUCED). -/
def tensorsOk (c : Capsule) : Bool := (tensorDecls c).all (tensorOk c) && noTwice ((tensorDecls c).map tdId)

/-! ## Decision points (R104) -/

/-- Decision point `i` and its arrays; `nv` variants. -/
def decisionOk (c : Capsule) (nv i : Nat) : Bool :=
  let bs := sectionBytes c secDecisions 0
  let off := decisionOffset bs i
  let h := getLE bs off 32
  let n := dpBuckets h
  let arr := (List.range 16).map fun k => getLE bs (off + 32 + 4 * k) 4
  off + 96 ≤ bs.length && dpIndex h = i && dpInputKind h ≤ 2 && 1 ≤ n && n ≤ 16 && (dpInputSem h != noObj || n = 1)
    && fld h 226 224 = 0 && fld h 175 0 = 0 && dpVariants h = nv && extentDescOk c (dpBound h)
    && off + decisionBytes h ≤ bs.length
    && rising (arr.take n) && (arr.drop n).all (· = 0)
    && (List.range nv).all fun v =>
      let r := off + 96 + v * regionRun n
      ((List.range n).all fun k => getLE bs (r + 4 * k) 4 < 2 ^ 20)
        && !anyNonzero (sliceBytes bs (r + 4 * n) (regionRun n - 4 * n))

/-- As many entries as the header says, and nothing after them. -/
def decisionsOk (c : Capsule) : Bool :=
  let h := capHeader c
  let n := hdrDecisions h
  let bs := sectionBytes c secDecisions 0
  (List.range n).all (decisionOk c (hdrVariants h)) && decisionOffset bs n = bs.length

/-- Buckets of a decision point. -/
def decisionBuckets (c : Capsule) (i : Nat) : List Nat := (decisionPoint c 0 i).2.1
/-- Its largest bucket. -/
def decisionMax (c : Capsule) (i : Nat) : Nat := (decisionBuckets c i).foldl max 0
/-- Its header. -/
def decisionHeader (c : Capsule) (i : Nat) : Nat := (decisionPoint c 0 i).1

/-! ## Variants, maps, DMA descriptors and resume point maps (R80, R81, R100, R109) -/

/-- The sections that a variant names, as (type, instance). -/
def variantSections (w : Nat) : List (Nat × Nat) :=
  [(secMap, varMap w), (secSync, varSync w), (secDma, varDma w), (secConst, varConst w), (secResume, varResume w)]

/-- One variant directory entry with its map (Table 2.9, R80, R81, R107). -/
def variantOk (c : Capsule) (v : Nat) : Bool :=
  let w := variantWord c v
  let g := sizeBeads (varSize w)
  let map := sectionBytes c secMap (varMap w)
  varSize w ≤ 6 && fld w 252 248 = 0 && fld w 231 224 = 0 && fld w 143 128 = 0 && fld w 63 0 = 0
    && ((List.range 4).all fun e =>
      let i := (varTuple w).getD e 0
      if exKind (extentDecl c e) = 0 then i = 0 else i < exCount (extentDecl c e))
    && (variantSections w).all (fun s => (findSection c s.1 s.2).isSome)
    && map.length = roundUp (2 * g) 16 && !anyNonzero (map.drop (2 * g))
    && ((List.range g).all fun k => (findSection c secStream (streamOf c v k)).isSome)
    && (List.range (hdrDecisions (capHeader c))).all fun i =>
      evalExtent c (varTuple w) false (dpBound (decisionHeader c i)) ≤ decisionMax c i

/-- Every variant, each pair of size and bucket tuple once, and no map for two sizes (R80, R81). -/
def variantsOk (c : Capsule) : Bool :=
  let ws := (List.range (hdrVariants (capHeader c))).map (variantWord c)
  (List.range (hdrVariants (capHeader c))).all (variantOk c)
    && noTwice (ws.map fun w => (varSize w, varTuple w))
    && ws.all fun a => ws.all fun b => varMap a != varMap b || varSize a = varSize b

/-- The fields of a DMA descriptor by itself: codes and reserved bits (Table 2.14). -/
def dmaFormOk (d : Nat) : Bool :=
  ddKind d ≤ 6 && ddSrcSpace d ≤ 3 && ddDstSpace d ≤ 3 && fld d 243 240 = 0 && fld d 15 0 = 0

/-- One resume point map: its tensors, padding only at its end (R109). Its offset index may hold any value, and nothing is made of it
(assumption 114, DESIGN CHOICE: the spec gives it no meaning). -/
def resumeOk (c : Capsule) (inst : Nat) : Bool :=
  let es := sectionEntries c secResume inst 8
  es.zipIdx.all fun (e, i) =>
    if fld e 63 48 = noTensor then e = noTensor <<< 48 && i + 1 = es.length
    else fld e 31 0 = 0 && match findTensor c (fld e 63 48) with
      | some d => (tdKind d = 4 || tdKind d = 5) && tdCanonical d
      | none => false

/-! ## Sync declarations (R102, R103, R366) -/

def sdIsArea (d : Nat) : Bool := sdKind d = 1 || sdKind d = 2

/-- One declaration (Table 2.15, R103). -/
def syncDeclOk (d : Nat) : Bool :=
  sdObject d ≤ 1022 && fld d 47 0 = 0 && (!sdIsArea d || sdOffset d + sdLength d ≤ 2 ^ 19)
    && (sdKind d != 1 || sdInit d ≤ 1)

/-- A declaration set: each object once, one barrier of a number, areas of one Bead apart (R103, R366). -/
def syncSetOk (c : Capsule) (inst : Nat) : Bool :=
  let ds := sectionEntries c secSync inst 16
  ds.all syncDeclOk && noTwice (ds.map fun d => (sdOwner d, sdObject d))
    && noTwice ((ds.filter (sdKind · = 3)).map sdObject)
    && (let as := ds.filter sdIsArea
        as.zipIdx.all fun (a, i) => (as.drop (i + 1)).all fun b =>
          sdOwner a != sdOwner b || sdBank a != sdBank b || sdOffset a + sdLength a ≤ sdOffset b
            || sdOffset b + sdLength b ≤ sdOffset a)

/-! ## Table sections (R226) -/

def tableSectionOk (c : Capsule) (pos : Nat) : Bool :=
  let imgs := tableImages c pos
  pos ≤ 7 && !imgs.isEmpty && (imgs.foldl (fun n i => n + i.length) 0) = (sectionBytes c secTable pos).length
    && imgs.all fun i =>
      imageOk i && kindOk pos (thReduction (getLE i 0 64)) && some (thReduction (getLE i 0 64)) = tableKind? c pos

/-! ## Loops and the step loop (R98, R684, R686) -/

/-- Instructions of a stream. -/
def streamInstrs (c : Capsule) (s : Nat) : List Nat := sectionEntries c secStream s 16

/-- The loop_begins that are open at each instruction, innermost first, as instruction words; none where loops do not match
or nest deeper than 4. -/
def loopStacks : (is open_ : List Nat) → Option (List (Nat × List Nat))
  | [], [] => some []
  | [], _ :: _ => none
  | i :: is, open_ =>
    let next := if isCtrl i 3 then (if open_.length < 4 then some (i :: open_) else none)
      else if isCtrl i 4 then (match open_ with
        | [] => none
        | _ :: rest => some rest)
      else some open_
    match next with
    | none => none
    | some o => (loopStacks is o).map ((i, open_) :: ·)

/-- The step loop of a stream of a capsule with step regions (R684). -/
def stepLoopOk (ps : List (Nat × List Nat)) : Bool :=
  !(ps.any fun p => isCtrl p.1 1)
    || ((ps.filter fun p => isCtrl p.1 3 && loopSource p.1 = 0).length = 1
        && ps.all fun p => !(isCtrl p.1 1 || isCtrl p.1 2) || p.2.any fun b => loopSource b = 0)

/-- A stream: its instructions, its end and its loops. -/
def streamOk (c : Capsule) (s : Nat) : Bool :=
  let is := streamInstrs c s
  is.length ≤ 2 ^ 20 && is.all (instrFormOk c) && (match is.getLast? with
    | some i => isCtrl i 0
    | none => false)
    && match loopStacks is [] with
      | none => false
      | some ps => !hdrStepRegions (capHeader c) || stepLoopOk ps

/-- Every section by its type. -/
def sectionBodyOk (c : Capsule) (s : SectionDir) : Bool :=
  match s.typ with
  | 0x04 => streamOk c s.inst
  | 0x05 => (sectionEntries c secDma s.inst 32).all dmaFormOk
  | 0x06 => syncSetOk c s.inst
  | 0x07 => tableSectionOk c s.inst
  | 0x09 => resumeOk c s.inst
  | _ => true

/-- The form of a whole capsule. The checks stand in the order in which later ones may read what earlier ones have made
sure of. -/
def capsuleFormOk (c : Capsule) : Bool :=
  layoutOk c && extentsOk c && decisionsOk c && variantsOk c && tensorsOk c && (sectionDirs c).all (sectionBodyOk c)

end Sys2Proof.Machine
end

