-- ==== Sys2Proof/Machine/CapMatrix.lean ====
section
/-! DEFINITION. What the part checks of products, epilogues and chains when it loads a capsule (R124, R125, R155, R159 to
R173, R177, R186 to R218, R226, R285 to R288, R297). -/
namespace Sys2Proof.Machine

/-! ## A variant as a check sees it -/

/-- A job of a bucket tuple, for the operations that ask a job for nothing else. -/
def tupleJob (tuple : List Nat) (steps : Nat) : Job :=
  { queue := 0, seq := 0, tag := 0, descIndex := 0, session := 0, setting := 0, cls := 0, steps := steps, maxSize := 0,
    exts := [], seedExt := 0, inAddr := 0, inBytes := 0, outAddr := 0, outBytes := 0, bound := none, runLimit := 0,
    tuple := tuple, stamp := 0, number := 0, ledger := .accepted, phase := .waiting, ending := none, accIdx := 0,
    doneIdx := 0, flags := 0, resumes := 0, fromStep := 0, overflow := 0, invalid := 0, runTicks := 0, size := 0, base := 0,
    slot := 0, variant := 0, tensors := [], ckptAlloc := none, camAllocs := [], gens := [], openGens := [], mid := none,
    cancel := false, preempt := false, resumeDue := false, fromFirst := false, ringWait := [], ringFrom := none,
    met := [], inputsIn := false, decisions := [], latestBucket := [], rounds := [], barriers := [], pools := [],
    swapped := [], stepEnds := 0, outEnd := 0, headerDone := false, outHeads := [], named := none, fenceRec := none }

/-- Variant `v` of a capsule, with an instruction `i` of Bead `g`. -/
def staticCtx (cap : Capsule) (v g i : Nat) : Ctx :=
  { p := g, g := g, j := 0, job := tupleJob (varTuple (variantWord cap v)) (hdrMaxSteps (capHeader cap)), cap := cap, v := v,
    i := i }

def Ctx.size (x : Ctx) : Nat := sizeBeads (varSize (variantWord x.cap x.v))
/-- Facets of a group of its size. -/
def Ctx.facets (x : Ctx) : Nat := max 1 (x.size / 112)
/-- Casket scratch of the variant in each Facet. -/
def Ctx.casket (x : Ctx) : Nat := varCasketBytes (variantWord x.cap x.v)
def Ctx.feature (x : Ctx) (b : Nat) : Bool := hasFeature x.cap b

/-- Entries `n` to `n + k - 1` of the variant's constant set exist (R171, R186). -/
def Ctx.hasConsts (x : Ctx) (n k : Nat) : Bool := n + k ≤ sectionCount x.cap secConst (varConst (variantWord x.cap x.v)) 16

/-- The greatest extent that a job of the variant's bucket tuple can have: the bucket; 0 for an unused one (R72, R172). -/
def Ctx.extMax (x : Ctx) (e : Nat) : Nat :=
  if exKind (extentDecl x.cap e) = 0 then 0 else bucketValue x.cap e (x.job.tuple.getD e 0)

/-- The declaration of object `n` of group-relative Bead `g`. -/
def Ctx.declOf (x : Ctx) (g n : Nat) : Option Nat := (syncDecls x.cap x.v).find? fun d => sdOwner d = g && sdObject d = n

/-- Bead `g` holds object `n`, of one of some kinds. -/
def Ctx.holds (x : Ctx) (g n : Nat) (kinds : List Nat) : Bool :=
  match x.declOf g n with
  | some d => kinds.contains (sdKind d)
  | none => false

def Ctx.hasTable (x : Ctx) (pos : Nat) (kind : Option Nat) : Bool := Machine.hasTable x.cap pos kind

/-! ## Dimension words, edges and conversions (R155, R172, R173) -/

/-- A dimension word whose dimension has size `d` (Table 4.6). -/
def dimOk (d w : Nat) : Bool := fld w 60 48 = 0 && if bit w 63 then fld w 47 32 != 0 else fld w 31 0 ≤ d

/-- The greatest valid count that a dimension word can give at the variant's bucket tuple. -/
def dimMax (x : Ctx) (d w : Nat) : Nat :=
  if bit w 63 then min (x.extMax (fld w 62 61) * fld w 47 32 - fld w 31 0) d else fld w 31 0

/-- An edge field of an instruction of dimensions `m`, `n` and `k`; `k` none where no K is read (Table 4.5, R173). -/
def edgeOk (x : Ctx) (edge m n : Nat) (k : Option Nat) (sparse : Bool) : Bool :=
  edge = 0 || (x.hasConsts edge 2 && (let w := edgeWord x edge
    let kw := fld w 127 64
    fld w 31 0 = 0 && dimOk m (fld w 255 192) && dimOk n (fld w 191 128) && (match k with
      | some k => dimOk k kw
      | none => fld kw 60 48 = 0)
    && (!sparse || (!bit kw 63 && fld kw 31 0 % 4 = 0))))

/-- A conversion word (R155, Table 3.8). -/
def convWordOk (w : Nat) : Bool :=
  let f := cwTarget w
  let int := isIntFmt f || f = fmtMXINT8
  fld w 16 0 = 0 && cwRounding w != 3 && !(cwRounding w = 1 && int) && (!cwInf w || f = 0 || f = 1 || f = 2 || f = 4)
    && (!cwSigned w || isIntFmt f) && cwScaleKind w != 3 && cwBiasKind w != 3

/-- Conversion constants under a word (R155, Table 3.9). Whether clip_lo lies above clip_hi is asked of the numbers: +0 does not lie
above −0 (assumption 115, DESIGN CHOICE). -/
def convConstOk (w k : Nat) : Bool :=
  !(ccLo k).isNaN && !(ccHi k).isNaN && (!cwClipEn w || !(ccHi k).lt (ccLo k))

/-! ## Epilogues (R186, R189, R197, R209, R218) -/

/-- Who names an epilogue: what R197 and R209 allow it depends on it. -/
inductive EpiUser where
  | mma
  | product
  | attention
  | mlp
  | hidden
  deriving DecidableEq, Repr

/-- Table positions that an epilogue looks up (R190, R204, R207, R210, R226). -/
def epiTables (x : Ctx) (w : Nat) : Bool :=
  (epActivation w < 3 || x.hasTable (epTable w) (some 0))
    && (match epStat w with
      | 2 => x.hasTable posRecip none
      | 3 => x.hasTable posExp none
      | 4 => x.hasTable posRecip none && x.hasTable posRsqrt none
      | 5 => x.hasTable posRecip none && x.hasTable posRsqrt none
      | _ => true)

/-- Whether an epilogue holds a vector in its vector block (R195). -/
def epiHasVectors (w : Nat) : Bool :=
  2 ≤ epAffine w || epGateBias w || epResidual w = 2 || epResident w || (cwScaleEn (epConvert w) && cwScaleKind (epConvert w) != 0)
    || (cwBiasEn (epConvert w) && cwBiasKind (epConvert w) != 0)

/-- A field that no step of the epilogue uses stands at 0 or at its default (R218, Table 5.2; assumption 41, DEDUCED). -/
def epiUnusedOk (w : Nat) : Bool :=
  (epGate w || epGateAddr w = 0) && (epResidual w != 0 || (epResidFmt w = 0 && epResidAddr w = 0))
    && (epiHasVectors w || epVecAddr w = 0) && (epActivation w = 2 || fld w 159 128 = 0)
    && (epAffine w = 1 || ((fld w 223 192 = 0 || fld w 223 192 = f32One) && (fld w 191 160 = 0 || fld w 191 160 = 2 ^ 31)))

/-- Codes, reserved fields, and the fields of steps that are off (R197, R218, assumption 41, DEDUCED). -/
def epiFieldsOk (w : Nat) : Bool :=
  epiUnusedOk w &&
  epActivation w ≤ 7 && (3 ≤ epActivation w || epTable w = 0) && (!epGateBias w || epGate w) && epResidual w ≤ 2
    && epResidFmt w ≤ 2 && epStat w ≤ 5 && fld w 74 0 = 0
    && (if epSep w then 1 ≤ epSepFmt w && epSepFmt w ≤ 4 else epSepFmt w = 0)
    && ((1 ≤ epStat w && epStat w ≤ 3) || epStatAddr w = 0)
    && (epResident w || (epHoldLen w = 0 && epHoldRows w = 0 && epHoldAddr w = 0 && fld w 127 96 = 0))
    && convWordOk (epConvert w) && convConstOk (epConvert w) (epConvConst w)

/-- An INT32 accumulation allows nothing but the conversion (R197). -/
def epiIntOk (w : Nat) : Bool :=
  epActivation w = 0 && epAffine w = 0 && !epGate w && epResidual w = 0 && epStat w = 0 && !epSep w

/-- Row-resident statistics: the hold and the columns of the chain (R209). `used` are bank 2 ranges of the chain, its second
accumulator among them. -/
def residentOk (x : Ctx) (w m n holdCol edge : Nat) (used : List LockRange) : Bool :=
  let len := epHoldLen w
  let hold : LockRange := ⟨2, 64 * epHoldAddr w, 4 * epHoldRows w * len⟩
  let rows := if edge = 0 then some m else
    let mw := fld (edgeWord x edge) 255 192
    if bit mw 63 then none else some (fld mw 31 0)
  len % 128 = 0 && 128 ≤ len && len ≤ 16384 && isPow2 (epHoldRows w) && epHoldRows w ≤ 128 && hold.inBank
    && !anyMeet [hold] used && 128 * holdCol + n ≤ len && (match rows with
      | some r => r ≤ epHoldRows w
      | none => false)

/-- An epilogue field of an `m` × `n` instruction; `used` are the operands and accumulators of the instruction. -/
def epilogueOk (x : Ctx) (u : EpiUser) (e m n holdCol edge : Nat) (int : Bool) (used : List LockRange) : Bool :=
  e = 0 || (x.hasConsts e 4 && (let w := epiWord x e
    let f := epiFoot x e m n
    let out := if u = .hidden then [] else f.writes.take 1
    epiFieldsOk w && (!int || epiIntOk w) && epiTables x w
      && (if epResident w then u = .product && residentOk x w m n holdCol edge ((used ++ f.reads).filter (·.bank = 2)) else true)
      && (u != .hidden || (epStat w = 0 && epResidual w = 0))
      && (if u = .hidden then inBanks (f.reads.take 1) else inBanks (f.reads ++ f.writes))
      && !anyMeet out (used ++ f.reads ++ (f.writes.drop 1).filter (·.bank = 2))))

/-! ## Products (R91, R124, R125, R159 to R177) -/

/-- The product of an MMA or of a kind 0 chain; `a` is operand A's range. -/
def productOk (x : Ctx) (u : EpiUser) (q : Product) (holdCol : Nat) (a : LockRange) : Bool :=
  let acc : LockRange := ⟨2, 64 * q.cAddr, 4 * q.m * q.n⟩
  productFormOk q a && edgeOk x q.edge q.m q.n (some q.kB) q.sparse
    && epilogueOk x u q.epilogue q.m q.n holdCol q.edge q.isInt [a, q.rangeB, acc]

def mmaOk (x : Ctx) : Bool :=
  let q := mmaProduct x.i
  productOk x .mma q 0 q.rangeA

/-! ## Chains (R187, R188, R199 to R217) -/

/-- Fields of a chain descriptor that only the prologues use. -/
def cdNoApply (d : Nat) : Bool :=
  cdApplyKind d = 0 && !cdApplyAffine d && cdSrcFmt d = 0 && cdParts d = 0 && cdVec d = 0
def cdNoGather (d : Nat) : Bool := cdSrcRows d = 0

/-- Body fields that only an apply or a row-resident epilogue uses (assumption 41, DEDUCED). -/
def chPlain (i : Nat) : Bool := chHoldCol i = 0 && chKOrigin i = 0 && !chComplete i && !chLast i

/-- A ring field at 0 or its default (R199). -/
def noRing (n : Nat) : Bool := n = 0 || n = noObj

/-- The apply of a product chain (R202 to R204). -/
def applyOk (x : Ctx) (d : Nat) (q : Product) : Bool :=
  let f := prologueFoot x q
  let vec : LockRange := ⟨3, 64 * cdVec d, 8 * applyLen d⟩
  1 ≤ q.fmtA && q.fmtA ≤ 7 && !q.sparse && q.transA && (cdSrcFmt d = 1 || cdSrcFmt d = 2) && 1 ≤ cdParts d
    && cdParts d ≤ 128 && cdApplyKind d != 0 && inBanks (f.reads ++ f.writes) && (if cdApplyAffine d then vec.inBank else cdVec d = 0)
    && (cdApplyKind d != 3 || fld d 190 159 = 0)
    && (match cdApplyKind d with
      | 3 => x.hasTable posExp none && (!chComplete x.i || x.hasTable posRecip none)
      | _ => !chComplete x.i || (x.hasTable posRecip none && x.hasTable posRsqrt none))

/-- A chain of kind 0 with its prologue (R200 to R204). -/
def productChainOk (x : Ctx) : Bool :=
  let d := chainWord x
  let q := chainProductOf x
  let resident := chEpilogue x.i != 0 && epResident (epiWord x (chEpilogue x.i))
  let a : LockRange := if cdPrologue d = 2 then ⟨0, 64 * q.aAddr, elemBytes (cdSrcFmt d) (q.m * q.kA)⟩ else q.rangeA
  cdBlocks d = 0 && noRing (cdRing1 d) && noRing (cdRing2 d) && cdRingLen d = 0 && cdEpi2 d = 0 && cdFmtP d = 0
    && cdPAddr d = 0 && cdMask d = 0
    && (resident || (chHoldCol x.i = 0 && !chLast x.i)) && (cdPrologue d = 2 || (chKOrigin x.i = 0 && !chComplete x.i))
    && (match cdPrologue d with
      | 0 => cdNoApply d && cdNoGather d && fld d 190 159 = 0 && chXAddr x.i = 0
      | 1 => cdNoApply d && fld d 190 159 = 0 && cdSrcRows d != 0
          && LockRange.inBank ⟨3, 64 * chXAddr x.i, 4 * q.m⟩
      | 2 => cdNoGather d && applyOk x d q
      | _ => false)
    && productOk x .product q (chHoldCol x.i) a

/-- A ring of `len` slots from object `first` of the issuing Bead, each at least `n` bytes (R297). -/
def ringOk (x : Ctx) (first len n : Nat) : Bool :=
  1 ≤ len && (List.range len).all fun k => match x.declOf x.g (first + k) with
    | some d => sdKind d = 1 && n ≤ sdLength d
    | none => false

/-- The Locket ranges of a ring's slots, each as far as `n` bytes. -/
def ringRanges (x : Ctx) (first len n : Nat) : List LockRange :=
  (List.range len).filterMap fun k => (x.declOf x.g (first + k)).map fun d => ⟨sdBank d, sdOffset d, n⟩

/-- A mask descriptor: its codes, its bitmap and its addresses (Table 7.14, R286, R287). `blocks` is what the bitmap must
leave at least. -/
def maskOk (x : Ctx) (n blocks : Nat) : Bool :=
  n = 0 || (x.hasConsts n 2 && (let w := maskWord x n
    mkKind w ≤ 3 && fld w 248 240 = 0 && fld w 133 0 = 0 && (mkKind w != 2 || 1 ≤ mkWindow w)
      && (mkKind w != 3 || 1 ≤ mkFrame w) && (mkKind w = 0 || LockRange.inBank ⟨3, 64 * mkQpos w, 512⟩)
      && (!mkBitmapEn w || blocks = 0 || x.hasConsts (mkBitmap w) (blockIndex x w (blocks - 1) / 128 + 1))))

/-- The Beads to which a walk of Bead `g` delivers. -/
def walkDests (x : Ctx) (wd g : Nat) : List Nat := if wkDest wd = 0 then [g] else mgDests (x.const (wkDest wd))

/-- Whether two runs of objects share one. -/
def objsMeet (a n b m : Nat) : Bool := a < b + m && b < a + n

/-- Walk descriptors whose key or value blocks reach the ring of Bead `x.g` that begins at object `first` (R261, R265). -/
def walksInto (x : Ctx) (first len : Nat) : List Nat :=
  (List.range x.size).flatMap fun g => (streamInstrs x.cap (streamOf x.cap x.v g)).filterMap fun i =>
    let d := dmaDesc x.cap x.v (iDesc i)
    let wd := x.consts (ddList d) 2
    if iClass i = 3 && ddKind d = 1 && ddSrcSpace d = 0 && isPool x.cap x.v (ddSrcTensor d)
        && (walkDests x wd g).contains x.g && (objsMeet (wkKeyRing wd) (wkLen wd) first len
          || (!wkKeysOnly wd && objsMeet (wkValRing wd) (wkLen wd) first len))
    then some wd else none

/-- An attention chain or a score pass (R212, R213, R226, R288, R297). -/
def attentionOk (x : Ctx) : Bool :=
  let d := chainWord x
  let f := cdFmtA d
  let hd := headDim d
  let n := cdBlocks d
  let mask := maskWord x (cdMask d)
  let score := mkScore mask
  let ft := attentionFoot x
  let block := elemBytes f (128 * hd)
  let used : List LockRange := [⟨0, 64 * chAAddr x.i, block⟩,
    ⟨0, 64 * cdPAddr d, elemBytes f 16384⟩, ⟨2, 64 * chCAddr x.i, 512 * oCols d + 65536⟩]
    ++ ringRanges x (cdRing1 d) (cdRingLen d) block ++ ringRanges x (cdRing2 d) (cdRingLen d) block
  let walks := walksInto x (cdRing1 d) (cdRingLen d)
  let all := if score then walks else walks ++ walksInto x (cdRing2 d) (cdRingLen d)
  x.feature 7 && 1 ≤ f && f ≤ 7 && cdFmtB d = f && cdFmtP d = f && fld d 243 241 = 0 && bit d 240 && fld d 239 238 = 0 && cdShape d = 0
    && (cdSteps d = 2 || cdSteps d = 4 || cdSteps d = 8) && cdPrologue d = 0 && cdNoApply d && cdNoGather d && cdEpi2 d = 0
    && chPlain x.i && chBAddr x.i = 0 && maskOk x (cdMask d) n && inBanks (ft.reads ++ ft.writes)
    && edgeOk x (chEdge x.i) 128 (128 * n) (some hd) false
    && ringOk x (cdRing1 d) (cdRingLen d)
        (if mkHeaders mask then headerOff f hd + 64 else elemBytes f (128 * hd))
    && (if score then chEpilogue x.i = 0 && cdRing2 d = noObj && mkHeaders mask && !walks.isEmpty && walks.all wkKeysOnly
        else ringOk x (cdRing2 d) (cdRingLen d) (elemBytes f (128 * hd))
          && epilogueOk x .attention (chEpilogue x.i) 128 (oCols d) 0 (chEdge x.i) false used)
    && (mkHeaders mask || all.isEmpty) && x.hasTable posExp none && x.hasTable posRecip none

/-- An MLP chain (R216, R217). -/
def mlpOk (x : Ctx) : Bool :=
  let d := chainWord x
  let cols := shapeN (cdShape d)
  let k := 32 * cdSteps d
  let ft := mlpFoot x
  let chunk := operandBytes (cdFmtB d) (128 * k)
  let chunk2 := operandBytes (cdFmtB d) (128 * cols)
  let used := ft.reads.take 1 ++ ft.writes.take 2 ++ (epiFoot x (cdEpi2 d) 128 (128 * cdBlocks d)).reads.take 1
    ++ ringRanges x (cdRing1 d) (cdRingLen d) chunk ++ ringRanges x (cdRing2 d) (cdRingLen d) chunk2
  let edge := edgeWord x (chEdge x.i)
  x.feature 8 && fld d 243 241 = 0 && !bit d 238 && (cdShape d = 0 || cdShape d = 1 || cdShape d = 4) && cdSteps d != 0
    && cdPrologue d = 0 && cdNoApply d && cdNoGather d && fld d 190 159 = 0 && cdMask d = 0
    && chPlain x.i && chBAddr x.i = 0 && chXAddr x.i = 0
    && 1 ≤ cdFmtP d && cdFmtP d ≤ 7 && pairingOk (cdFmtA d) (cdFmtB d) && pairingOk (cdFmtP d) (cdFmtB d)
    && cdEpi2 d != 0 && inBanks (ft.reads ++ ft.writes)
    && epilogueOk x .hidden (cdEpi2 d) 128 (128 * cdBlocks d) 0 0 false []
    && edgeOk x (chEdge x.i) 128 cols (some k) false
    && (chEdge x.i = 0 || fld edge 127 64 = 0 || fld edge 127 64 = k)
    && ringOk x (cdRing1 d) (cdRingLen d) chunk && ringOk x (cdRing2 d) (cdRingLen d) chunk2
    && epilogueOk x .mlp (chEpilogue x.i) 128 cols 0 (chEdge x.i) false used

/-- A CHAIN instruction (R187, R188, R199). -/
def chainOk (x : Ctx) : Bool :=
  chDesc x.i != 0 && x.hasConsts (chDesc x.i) 2 && fld (chainWord x) 65 0 = 0 && match cdKind (chainWord x) with
    | 0 => productChainOk x
    | 1 => attentionOk x
    | 2 => mlpOk x
    | _ => false

/-! ## The holds of a stream (R209) -/

/-- Hold address, columns in units of 128 and whether it ends the row, of a row-resident chain. -/
def holdUse (x : Ctx) : Option (Nat × List Nat × Bool × Nat) :=
  if iClass x.i = 5 && chEpilogue x.i != 0 then
    let w := epiWord x (chEpilogue x.i)
    if epResident w then
      some (epHoldAddr w, (List.range (shapeN (cdShape (chainWord x)) / 128)).map (chHoldCol x.i + ·), chLast x.i,
        epHoldLen w / 128)
    else none
  else none

/-- Between one chain with last = 1 and the next, every block of a hold is written exactly once; `open_` holds the blocks
written so far, by hold address. R209 does not say whether the passes of a loop or the regions of a decision count for
themselves: the model takes the instructions in the order in which the stream holds them (assumption 91, DESIGN CHOICE). -/
def holdsOk : (uses : List (Nat × List Nat × Bool × Nat)) → (open_ : Tbl (List Nat)) → Bool
  | [], _ => true
  | (a, cols, last, n) :: us, o =>
    let all := o.get [] a ++ cols
    noTwice all && if last then (List.range n).all all.contains && holdsOk us (o.put a []) else holdsOk us (o.put a all)

/-- The holds of the stream that Bead `x.g` runs. -/
def streamHoldsOk (x : Ctx) : Bool :=
  holdsOk ((streamInstrs x.cap (streamOf x.cap x.v x.g)).filterMap fun i => holdUse { x with i := i }) []

end Sys2Proof.Machine
end

