-- ==== Sys2Proof/Machine/Norm.lean ====
section
/-! DEFINITION. The normalisation operations 0x50 to 0x56 of the LANE class and the soft maximum (R242 to R250, Table 6.6). -/
namespace Sys2Proof.Machine

/-! ## The descriptor -/

/-- A normalisation descriptor: the two constant entries that the instruction names. -/
def normWord (x : Ctx) : Nat := x.consts (laneConst x.i) 2
def nmFmt (d : Nat) : Nat := fld d 251 248
def nmRows (d : Nat) : Nat := fld d 247 232
def nmLen (d : Nat) : Nat := fld d 231 215
def nmGroups (d : Nat) : Nat := max 1 (fld d 214 208)
def nmEdge (d : Nat) : Nat := fld d 207 200
def nmSrcBank (d : Nat) : Nat := fld d 199 198
def nmSrcAddr (d : Nat) : Nat := fld d 197 185
def nmDstBank (d : Nat) : Nat := fld d 184 183
def nmDstAddr (d : Nat) : Nat := fld d 182 170
def nmSrcPitch (d : Nat) : Nat := fld d 169 154
def nmDstPitch (d : Nat) : Nat := fld d 153 138
def nmWAddr (d : Nat) : Nat := fld d 137 125
def nmStatAddr (d : Nat) : Nat := fld d 124 112
def nmAffine (d : Nat) : Bool := bit d 111
def nmEps (d : Nat) : Val := f32 (fld d 95 64)
def nmConvert (d : Nat) : Nat := fld d 63 32

/-- Valid rows and valid length. -/
def normRows (x : Ctx) (d : Nat) : Nat := edgeM x (nmEdge d) (nmRows d)
def normLen (x : Ctx) (d : Nat) : Nat := edgeN x (nmEdge d) (nmLen d)

/-- Columns of group `g` that are valid. -/
def groupCols (x : Ctx) (d g : Nat) : List Nat :=
  let w := nmLen d / nmGroups d
  ((List.range w).map (g * w + ·)).filter (· < normLen x d)

/-- Value of source element (m, n). -/
def Chip.normSrc (c : Chip) (x : Ctx) (d m n : Nat) : Val :=
  c.matElem x.p (nmSrcBank d) (64 * nmSrcAddr d + 16 * m * nmSrcPitch d) (nmFmt d) true (nmLen d) n

/-- A valid row's sequence, and a group's (R243). -/
def Chip.rowSeq (c : Chip) (x : Ctx) (d m : Nat) : List Val := (List.range (normLen x d)).map (c.normSrc x d m)
def Chip.groupSeq (c : Chip) (x : Ctx) (d g : Nat) : List Val :=
  (List.range (normRows x d)).flatMap fun m => (groupCols x d g).map (c.normSrc x d m)

/-- z of y in column `n` (R248). -/
def Chip.normZ (c : Chip) (x : Ctx) (d n : Nat) (y : Val) : Val :=
  if nmAffine d then
    let w := 64 * nmWAddr d
    fmaF y (c.vec3 x.p w n) (c.vec3 x.p (roundUp (w + 4 * nmLen d) 64) n)
  else y

/-- Byte offset of destination row `m`, and of its first scale for an MX target. -/
def nmRowOff (d m : Nat) : Nat := 64 * nmDstAddr d + 16 * m * nmDstPitch d
def nmScaleOff (d m : Nat) : Nat := roundUp (nmRowOff d (nmRows d)) 64 + m * ceilDiv (nmLen d) 32

/-- Results of row `m` converted by the conversion word and written from column 0 (R134, R248). -/
def Chip.normWrite (c : Chip) (x : Ctx) (d m : Nat) (zs : List Val) : Chip :=
  let w := nmConvert d
  let f := cwTarget w
  let k : ConvSpec := { word := w, const := 0, scale := .one, bias := .zero }
  if isMx f then
    c.putBlocks x.j x.p (nmDstBank d) (nmRowOff d m) f (cwRounding w) (nmScaleOff d m) (c.nibble x m)
      (zs.map (convStage k))
  else
    let rs := zs.zipIdx.map fun (z, i) => convert k (if cwRounding w = 2 then c.nibble x m i else 0) z
    let c := c.putElems x.p (nmDstBank d) (nmRowOff d m) f (rs.map (·.code))
    c.count x.j x.p (rs.foldl (fun a r => a + r.ovf) 0) (rs.foldl (fun a r => a + r.inv) 0)

/-! ## Operations by rows and by groups -/

/-- Ranges of a normalisation: `stats` reads or writes the statistics region. -/
def normFoot (src dst statsIn statsOut : Bool) (x : Ctx) : Foot :=
  let d := normWord x
  let w := 64 * nmWAddr d
  let f := cwTarget (nmConvert d)
  { reads := (if src then [⟨nmSrcBank d, 64 * nmSrcAddr d, rowSpan (nmFmt d) (nmRows d) (nmLen d) (16 * nmSrcPitch d)⟩] else [])
      ++ (if nmAffine d then [⟨3, w, roundUp (w + 4 * nmLen d) 64 - w + 4 * nmLen d⟩] else [])
      ++ (if statsIn then [⟨3, 64 * nmStatAddr d, 8 * nmGroups d⟩] else []),
    writes := (if dst then [⟨nmDstBank d, 64 * nmDstAddr d, rowSpan f (nmRows d) (nmLen d) (16 * nmDstPitch d)⟩] else [])
      ++ (if statsOut then [⟨3, 64 * nmStatAddr d, 16 * nmGroups d⟩] else []) }

/-- The part of a normalisation that its edge leaves valid: rows and columns below the edge, with every group's statistics
(R78, R243). -/
def normLive (src dst statsIn statsOut : Bool) (x : Ctx) : Foot :=
  let d := normWord x
  let n := normLen x d
  let rows := List.range (normRows x d)
  let f := cwTarget (nmConvert d)
  let w := 64 * nmWAddr d
  { reads := (if src then rows.map fun m => ⟨nmSrcBank d, 64 * nmSrcAddr d + 16 * m * nmSrcPitch d, elemBytes (nmFmt d) n⟩ else [])
      ++ (if nmAffine d && !rows.isEmpty then [⟨3, w, 4 * n⟩, ⟨3, roundUp (w + 4 * nmLen d) 64, 4 * n⟩] else [])
      ++ (if statsIn then [⟨3, 64 * nmStatAddr d, 8 * nmGroups d⟩] else []),
    writes := (if dst then (rows.map fun m => ⟨nmDstBank d, nmRowOff d m, elemBytes f n⟩)
          ++ (if isMx f then rows.map fun m => ⟨nmDstBank d, nmScaleOff d m, ceilDiv n 32⟩ else []) else [])
      ++ (if statsOut then [⟨3, 64 * nmStatAddr d, 16 * nmGroups d⟩] else []) }

/-- A row operation: each valid row gives its y's. A row without a valid element writes nothing; it sets EMPTY_REDUCTION under the
operations of R248, and not under the soft maximum (R78, R250, Table 2.8). -/
def rowNorm (op p : Nat) (flag : Bool) (f : Ctx → Chip → Nat → List Val → List Val) (c : Chip) : Chip :=
  issueLane op (normLive true true false false) p (fun x c =>
    let d := normWord x
    if x.noContext (nmConvert d) then .raise stRngNoContext c
    else .done ((List.range (normRows x d)).foldl (fun c' m =>
      if normLen x d = 0 then (if flag then c'.setFlag x.j x.p flEmptyReduction else c')
      else
        let ys := f x c d (c.rowSeq x d m)
        c'.normWrite x d m (ys.zipIdx.map fun (y, n) => c.normZ x d n y)) c)) c

/-- Layer normalisation of a row (R248 0x50): e × r of the two-pass statistic. -/
def layerRow (x : Ctx) (c : Chip) (d : Nat) (xs : List Val) : List Val :=
  let st := c.twoPass x.p (nmEps d) xs
  xs.map (c.applyY x.p 2 st)

/-- RMS normalisation of a row (R248 0x51). -/
def rmsRow (x : Ctx) (c : Chip) (d : Nat) (xs : List Val) : List Val :=
  let r := c.rmsDev x.p (nmEps d) xs
  xs.map (mulF · r)

/-- The running maximum and sum of the soft maximum over chunks of 128; `fuel` bounds the chunks (R250). -/
def Chip.softPass (c : Chip) (p : Nat) : (fuel : Nat) → Val × Val → List Val → Val × Val
  | 0, s, _ => s
  | fuel + 1, (m, l), xs =>
    if xs.isEmpty then (m, l)
    else
      let ch := xs.take 128
      let mn := ch.foldl Val.max m
      let none_ := mn = Val.inf true
      let cr := if none_ then Val.one else c.expF p (subF m mn)
      let ps := ch.map fun v => if none_ then Val.zero else c.expF p (subF v mn)
      c.softPass p fuel (mn, rndV ((mulF l cr).add (exactSum ps))) (xs.drop 128)

/-- The soft maximum of a row (R250 0x53). -/
def softRow (x : Ctx) (c : Chip) (_ : Nat) (xs : List Val) : List Val :=
  if xs.any fun v => v.isNaN || v = .inf false then xs.map fun _ => .nan
  else
    let (m, l) := c.softPass x.p (xs.length + 1) (.inf true, .zero) xs
    if l.isZero then xs.map fun _ => .zero
    else
      let r := c.recipF x.p l
      xs.map fun v => mulF (c.expF x.p (subF v m)) r

def execLayerNormalisation (p : Nat) (s : State) : Out := onChip (.layerNormalisation p) s (rowNorm 0x50 p true layerRow)
def execRmsNormalisation (p : Nat) (s : State) : Out := onChip (.rmsNormalisation p) s (rowNorm 0x51 p true rmsRow)
def execSoftMaximum (p : Nat) (s : State) : Out := onChip (.softMaximum p) s (rowNorm 0x53 p false softRow)

/-- An operation over groups: every valid row by its groups' statistics; a group without a valid element writes nothing and
sets EMPTY_REDUCTION (R248 0x52, 0x55). -/
def groupNorm (op p : Nat) (statsIn : Bool) (f : Ctx → Chip → Nat → Nat → MeanDev) (c : Chip) : Chip :=
  issueLane op (normLive true true statsIn false) p (fun x c =>
    let d := normWord x
    let empty (g : Nat) : Bool := (groupCols x d g).isEmpty || normRows x d = 0
    let gs := List.range (nmGroups d)
    let sts := gs.map fun g => if empty g then { mu := .zero, r := .zero } else f x c d g
    let st (n : Nat) : MeanDev := sts.getD (n / (nmLen d / nmGroups d)) { mu := .zero, r := .zero }
    if x.noContext (nmConvert d) then .raise stRngNoContext c
    else
      let c' := (List.range (normRows x d)).foldl (fun c' m =>
        c'.normWrite x d m ((c.rowSeq x d m).zipIdx.map fun (v, n) => c.normZ x d n (c.applyY x.p 2 (st n) v))) c
      .done (if gs.any empty then c'.setFlag x.j x.p flEmptyReduction else c')) c

def execGroupNormalisation (p : Nat) (s : State) : Out :=
  onChip (.groupNormalisation p) s
    (groupNorm 0x52 p false fun x c d g => c.twoPass x.p (nmEps d) (c.groupSeq x d g))

/-- The stored pair of group `g` (R248 0x55). -/
def Chip.storedPair (c : Chip) (x : Ctx) (d g : Nat) : MeanDev :=
  let off := 64 * nmStatAddr d + 8 * g
  { mu := f32 (c.lockLE x.p 3 off 4), r := f32 (c.lockLE x.p 3 (off + 4) 4) }

def execApply (p : Nat) (s : State) : Out :=
  onChip (.apply p) s (groupNorm 0x55 p true fun x c d g => c.storedPair x d g)

/-- Statistics only: one record for each group (R248 0x54). -/
def statisticsOnly (p : Nat) (c : Chip) : Chip :=
  issueLane 0x54 (normLive true false false true) p (fun x c =>
    let d := normWord x
    .done ((List.range (nmGroups d)).foldl (fun c' g =>
      c'.lockWrite x.p 3 (64 * nmStatAddr d + 16 * g)
        (Partial.ofWelford (c.welford x.p (c.groupSeq x d g))).bytes) c)) c

def execStatisticsOnly (p : Nat) (s : State) : Out := onChip (.statisticsOnly p) s (statisticsOnly p)

/-- Ranges of complete: the records of every group, and the pairs. -/
def completeFoot (x : Ctx) : Foot :=
  let d := normWord x
  { reads := [⟨nmSrcBank d, 64 * nmSrcAddr d, 16 * nmGroups d * nmRows d⟩],
    writes := [⟨3, 64 * nmStatAddr d, 8 * nmGroups d⟩] }

/-- Complete: the records of each group merged into a stored pair; a merged count of 0 stores +0 twice and sets
EMPTY_REDUCTION (R248 0x56). -/
def completeOp (p : Nat) (c : Chip) : Chip :=
  issueLane 0x56 completeFoot p (fun x c =>
    let d := normWord x
    .done ((List.range (nmGroups d)).foldl (fun c' g =>
      let rs := (List.range (nmRows d)).map fun t =>
        c.partialAt x.p (nmSrcBank d) (64 * nmSrcAddr d + 16 * (g * nmRows d + t))
      let (st, empty) := c.completeRow x.p 2 (nmEps d) rs
      let c' := c'.lockWrite x.p 3 (64 * nmStatAddr d + 8 * g) (leBytes 4 (rnd st.mu) ++ leBytes 4 (rnd st.r))
      if empty then c'.setFlag x.j x.p flEmptyReduction else c') c)) c

def execComplete (p : Nat) (s : State) : Out := onChip (.complete p) s (completeOp p)

end Sys2Proof.Machine
end

