-- ==== Sys2Proof/Machine/Rows.lean ====
section
/-! DEFINITION. Row operations of convolution layers: padding, gathering, halo checks, pooling, upsampling and regrouping of
row buffers (R324 to R343). -/
namespace Sys2Proof.Machine

/-! ## The row operation descriptor (Table 9.3) -/

def roMode (d : Nat) : Nat := fld d 255 252
def roFmt (d : Nat) : Nat := fld d 251 248
def roSrcBank (d : Nat) : Nat := fld d 247 246
def roSrcAddr (d : Nat) : Nat := fld d 245 233
def roDstBank (d : Nat) : Nat := fld d 232 231
def roDstAddr (d : Nat) : Nat := fld d 230 218
def roPitch (d : Nat) : Nat := fld d 217 205
def roWidth (d : Nat) : Nat := fld d 204 193
def roCpix (d : Nat) : Nat := fld d 192 181
def roPadL (d : Nat) : Nat := fld d 180 179
def roPadR (d : Nat) : Nat := fld d 178 177
def roX0 (d : Nat) : Nat := fld d 176 165
def roStride (d : Nat) : Nat := fld d 164 162
def roDil (d : Nat) : Nat := fld d 161 159
def roTaps (d : Nat) : Nat := fld d 158 155
def roRowsIn (d : Nat) : Nat := fld d 154 151
def roCount (d : Nat) : Nat := fld d 150 143
def roEdge (d : Nat) : Nat := fld d 142 135
def roDstCpix (d : Nat) : Nat := fld d 134 123
def roLayer (d : Nat) : Nat := fld d 122 107
def roFirst (d : Nat) : Bool := bit d 106
def roLast (d : Nat) : Bool := bit d 105
def roScale (d : Nat) : Nat := fld d 104 73
def roValid (d : Nat) : Nat := fld d 72 9
def roUsed (d : Nat) : Nat := fld d 8 0

/-- The descriptor that an instruction's constant index names (R327). -/
def rowDesc (x : Ctx) : Nat := x.consts (laneConst x.i) 2

/-! ## Row buffers (R324) -/

/-- A row buffer: its bank, the byte of its first pixel, elements per pixel and their format. -/
structure RowBuf where
  bank : Nat
  off : Nat
  cpix : Nat
  fmt : Nat
  deriving DecidableEq, Repr

def srcBuf (d : Nat) : RowBuf := ⟨roSrcBank d, 64 * roSrcAddr d, roCpix d, roFmt d⟩
def dstBuf (d : Nat) : RowBuf := ⟨roDstBank d, 64 * roDstAddr d, roCpix d, roFmt d⟩

/-- The bytes of pixels `p` to `p + n - 1`. -/
def RowBuf.range (r : RowBuf) (p n : Nat) : LockRange :=
  ⟨r.bank, r.off + elemBytes r.fmt (p * r.cpix), elemBytes r.fmt (n * r.cpix)⟩

/-- The code of channel `ch` of pixel `p`. -/
def Chip.pixel (c : Chip) (q : Nat) (r : RowBuf) (p ch : Nat) : Nat :=
  packedGet c.locket (lockKey q r.bank r.off) (fmtBits r.fmt) (p * r.cpix + ch)

/-- Channel `ch` of pixel `p` written. -/
def Chip.putPixel (c : Chip) (q : Nat) (r : RowBuf) (p ch code : Nat) : Chip :=
  c.putElem q r.bank r.off r.fmt (p * r.cpix + ch) code

/-- Every channel of pixel `p` written, as a function of the channel. -/
def Chip.fillPixel (c : Chip) (q : Nat) (r : RowBuf) (p : Nat) (f : Nat → Nat) : Chip :=
  iter r.cpix (fun ch c => c.putPixel q r p ch (f ch)) c

/-! ## pad_fill (R331 to R333) -/

/-- The code of the pad value p in the row's format (R331). -/
def padCode (x : Ctx) (d : Nat) : Nat := (narrow (roFmt d) 0 0 true true (edgePad x (roEdge d))).code

/-- What pad_fill puts in a pixel: zeros, p, or a copy of a pixel. -/
inductive PadPixel where
  | zero
  | value
  | copy (p : Nat)
  deriving DecidableEq, Repr

/-- The valid count of a pad_fill (R332, R333). -/
def padValid (x : Ctx) (d : Nat) : Nat :=
  dimValid x (if roRowsIn d = 1 then 4095 else roWidth d - roPadL d - roPadR d) (roValid d)

/-- The pixel that an interior pixel `i` is, in a mode: modes 2 and 3 of an empty interior write +0. -/
def padFrom (d v i : Nat) : PadPixel :=
  match roMode d with
  | 0 => .zero
  | 1 => .value
  | _ => if v = 0 then .zero else .copy (roPadL d + i)

/-- The pixels that pad_fill with rows_in = 0 writes, in order (R332, Table 9.4). -/
def padPixels (x : Ctx) (d : Nat) : List (Nat × PadPixel) :=
  let v := padValid x d
  let l := (List.range (roPadL d)).map fun k =>
    (roPadL d - (k + 1), padFrom d v (if roMode d = 2 then min (k + 1) (v - 1) else 0))
  let r := (List.range (roPadR d)).map fun k =>
    (roPadL d + v + k, padFrom d v (if roMode d = 2 then v - 1 - (k + 1) else v - 1))
  l ++ r

/-- The pixels that pad_fill with rows_in = 1 writes; copies come from the source buffer (R333). -/
def padRow (x : Ctx) (d : Nat) : List (Nat × PadPixel) :=
  if roX0 d < padValid x d then []
  else (List.range (roWidth d)).map fun p => (p, match roMode d with
    | 0 => .zero
    | 1 => .value
    | _ => .copy p)

/-- What a pad_fill writes, and the buffer that its copies come from. -/
def padWork (x : Ctx) (d : Nat) : RowBuf × List (Nat × PadPixel) :=
  if roRowsIn d = 1 then (srcBuf d, padRow x d) else (dstBuf d, padPixels x d)

def padFoot (x : Ctx) : Foot :=
  let d := rowDesc x
  let (src, ps) := padWork x d
  { reads := ps.filterMap fun e => match e.2 with
      | .copy p => some (src.range p 1)
      | _ => none,
    writes := ps.map fun e => (dstBuf d).range e.1 1 }

/-- pad_fill (R332, R333). -/
def padFill (p : Nat) (c : Chip) : Chip :=
  issueLane 0x70 padFoot p (fun x c =>
    let d := rowDesc x
    let (src, ps) := padWork x d
    .done (ps.foldl (fun c (n, k) => match k with
      | .zero => c.fillPixel x.p (dstBuf d) n fun _ => 0
      | .value => c.fillPixel x.p (dstBuf d) n fun _ => padCode x d
      | .copy s => c.fillPixel x.p (dstBuf d) n fun ch => c.pixel x.p src s ch) c)) c

def execPadFill (p : Nat) (s : State) : Out := onChip (.padFill p) s (padFill p)

/-! ## conv_gather (R334) -/

/-- Columns of the operand that a gather builds. -/
def gatherKt (d : Nat) : Nat := 32 * ceilDiv (roTaps d * roCpix d) 32

/-- Source pixel of output `m` and tap `s`. -/
def tapPixel (d m s : Nat) : Nat := roX0 d + m * roStride d + s * roDil d

/-- The source pixels of every output and tap. -/
def tapReads (d : Nat) : List LockRange :=
  (List.range (roCount d)).flatMap fun m => (List.range (roTaps d)).map fun s => (srcBuf d).range (tapPixel d m s) 1

def gatherFoot (x : Ctx) : Foot :=
  let d := rowDesc x
  { reads := tapReads d, writes := [⟨roDstBank d, 64 * roDstAddr d, elemBytes (roFmt d) (128 * gatherKt d)⟩] }

/-- conv_gather: a 128-row operand A, each element a bit copy or +0 (R334). -/
def convGather (p : Nat) (c : Chip) : Chip :=
  issueLane 0x71 gatherFoot p
    (fun x c =>
      let d := rowDesc x
      let kt := gatherKt d
      let get (c : Chip) (m k : Nat) : Nat :=
        if m < roCount d && k < roTaps d * roCpix d
        then c.pixel x.p (srcBuf d) (tapPixel d m (k / roCpix d)) (k % roCpix d) else 0
      let codes := (List.range 128).flatMap fun m => (List.range kt).map (get c m)
      .done (c.putElems x.p (roDstBank d) (64 * roDstAddr d) (roFmt d) codes)) c

def execConvGather (p : Nat) (s : State) : Out := onChip (.convGather p) s (convGather p)

/-! ## halo_check (R340) -/

/-- What HALO_SEQ names: the slot's object, and the step and layer expected and found (R340). -/
def haloNamed (x : Ctx) (h : Nat) : Named :=
  .halo x.g (iWait x.i) (x.run.step.getD u32max) (fld h 511 480) (roLayer (rowDesc x)) (fld h 479 464)

/-- halo_check: step, layer and origin of the slot's header against the own step index, the descriptor and the slot's peer;
a difference fences the job with HALO_SEQ and posts nothing (R340). -/
def haloCheck (p : Nat) (c : Chip) : Chip :=
  issueLane 0x72 (fun _ => .none) p (fun x c =>
    match c.obj? x.p (iWait x.i) with
    | none => .raiseN stHaloSeq (.object x.g (iWait x.i)) c
    | some o =>
      let h := c.lockLE x.p o.bank (o.off + o.len - 64) 64
      if fld h 511 480 = x.run.step.getD u32max && fld h 479 464 = roLayer (rowDesc x) && fld h 463 452 = o.peer then .done c
      else .raiseN stHaloSeq (haloNamed x h) c) c

def execHaloCheck (p : Nat) (s : State) : Out := onChip (.haloCheck p) s (haloCheck p)

/-! ## resample (R335) -/

/-- The FP32 element `i` at the destination. -/
def Chip.poolElem (c : Chip) (p : Nat) (d i : Nat) : Val :=
  f32 (packedGet c.locket (lockKey p (roDstBank d) (64 * roDstAddr d)) 32 i)

/-- The value of one pooled element before it is stored (R335). -/
def Chip.poolValue (c : Chip) (p : Nat) (d m ch : Nat) : Val :=
  let vs := (List.range (roTaps d)).map fun s =>
    elemVal (roFmt d) true (c.pixel p (srcBuf d) (tapPixel d m s) ch)
  let dst := c.poolElem p d (m * roCpix d + ch)
  match vs with
  | [] => .zero
  | v :: rest =>
    if roMode d = 0 then
      let t := rest.foldl Val.max v
      if roFirst d then t else t.max dst
    else
      let t := rest.foldl addF v
      let t := if roFirst d then t else addF dst t
      if roLast d then mulF t (f32 (roScale d)) else t

def resampleFoot (x : Ctx) : Foot :=
  let d := rowDesc x
  if roMode d = 2 then
    { reads := [(srcBuf d).range (roX0 d) ((roCount d - 1) / roTaps d + 1)],
      writes := [(dstBuf d).range 0 (roCount d)] }
  else
    let dst : LockRange := ⟨roDstBank d, 64 * roDstAddr d, 4 * roCount d * roCpix d⟩
    { reads := tapReads d ++ (if roFirst d then [] else [dst]), writes := [dst] }

/-- resample: max pooling, average pooling or nearest upsampling (R335). -/
def resample (p : Nat) (c : Chip) : Chip :=
  issueLane 0x73 resampleFoot p (fun x c =>
    let d := rowDesc x
    if roMode d = 2 then
      .done (iter (roCount d) (fun m c => c.fillPixel x.p (dstBuf d) m fun ch =>
        c.pixel x.p (srcBuf d) (roX0 d + m / roTaps d) ch) c)
    else
      let codes := (List.range (roCount d)).flatMap fun m =>
        (List.range (roCpix d)).map fun ch => rnd (c.poolValue x.p d m ch)
      .done (c.putElems x.p (roDstBank d) (64 * roDstAddr d) fmtFP32 codes)) c

def execResample (p : Nat) (s : State) : Out := onChip (.resample p) s (resample p)

/-! ## regroup (R336) -/

/-- Row `i` of the rows of a buffer that lie row_pitch apart. -/
def pitchRow (d i : Nat) (r : RowBuf) : RowBuf := { r with off := r.off + 64 * (i * roPitch d) }

def regroupFoot (x : Ctx) : Foot :=
  let d := rowDesc x
  let f := roTaps d
  let out : RowBuf := { dstBuf d with cpix := roDstCpix d }
  if roMode d = 0 then
    { reads := (List.range f).map fun i => (pitchRow d i (srcBuf d)).range (roX0 d) (f * roCount d),
      writes := [out.range 0 (roCount d)] }
  else
    { reads := [(srcBuf d).range (roX0 d) (roCount d)],
      writes := (List.range f).map fun i => (pitchRow d i out).range 0 (f * roCount d) }

/-- regroup: space to channel or channel to space, bit copies (R336). -/
def regroup (p : Nat) (c : Chip) : Chip :=
  issueLane 0x74 regroupFoot p (fun x c =>
    let d := rowDesc x
    let f := roTaps d
    let u := roUsed d
    let out : RowBuf := { dstBuf d with cpix := roDstCpix d }
    if roMode d = 0 then
      .done (iter (roCount d) (fun m c => c.fillPixel x.p out m fun e =>
        let i := e / u / f
        let j := e / u % f
        if e < f * f * u then c.pixel x.p (pitchRow d i (srcBuf d)) (roX0 d + f * m + j) (e % u) else 0) c)
    else
      .done (iter f (fun i c => iter (f * roCount d) (fun q c => c.fillPixel x.p (pitchRow d i out) q fun ch =>
        if ch < u then c.pixel x.p (srcBuf d) (roX0 d + q / f) ((i * f + q % f) * u + ch) else 0) c) c)) c

def execRegroup (p : Nat) (s : State) : Out := onChip (.regroup p) s (regroup p)

end Sys2Proof.Machine
end

