-- ==== Sys2Proof/Machine/CapLane.lean ====
section
/-! DEFINITION. What the part checks of LANE instructions when it loads a capsule: vector operations, special functions,
normalisation, draws, Loupe and routes, row operations and collectives (R93 to R96, R155, R224 to R226, R242, R299 to R302,
R319, R327 to R331, R350, R351, R570). -/
namespace Sys2Proof.Machine

/-! ## Converts (R95, R155) -/

/-- A convert: its word and constants, and the vectors that the word asks for. Its word's target is the destination's format
(assumption 89, DEDUCED). -/
def convertOk (x : Ctx) : Bool :=
  let i := x.i
  let w := fld (x.const (laneConst i)) 31 0
  let f := convertFoot x
  x.hasConsts (laneConst i) 2 && convWordOk w && convConstOk w (x.const (laneConst i + 1)) && cwTarget w = laneFmtD i
    && (if cwScaleEn w && cwScaleKind w != 0 then laneBank1 i = 3 && laneFmt1 i = 0 else laneS1 i = 0)
    && (if cwBiasEn w && cwBiasKind w != 0 then laneBank2 i = 3 else laneS2 i = 0)
    && inBanks (f.reads ++ f.writes)

/-! ## Special functions and normalisation (R224 to R226, R242) -/

/-- A named table position: reserved bits 0, a position of the kind asked for; table_load alone names an image. -/
def namedOk (x : Ctx) (load : Bool) (kind : Option Nat) : Bool :=
  let k := x.const (laneConst x.i)
  x.hasConsts (laneConst x.i) 1 && fld k 15 8 = 0 && fld k 127 32 = 0
    && (if load then namedPos k ≤ 7 else 4 ≤ namedPos k && namedPos k ≤ 7 && namedImage k = 0)
    && x.hasTable (namedPos k) kind

/-- A normalisation descriptor under an operation (R242, Table 6.6). -/
def normOk (x : Ctx) : Bool :=
  let op := iOp x.i
  let d := normWord x
  let groups := fld d 214 208
  let f := match op with
    | 0x54 => normFoot true false false true x
    | 0x55 => normFoot true true true false x
    | 0x56 => completeFoot x
    | _ => normFoot true true false false x
  x.hasConsts (laneConst x.i) 2 && fld d 255 252 = 0 && fld d 110 96 = 0 && fld d 31 0 = 0
    && (if op = 0x56 then nmFmt d = 0 else nmFmt d ≤ 2) && nmRows d != 0 && nmLen d != 0 && nmLen d ≤ 65536
    && 1 ≤ groups && groups ≤ 64 && nmLen d % groups = 0
    && (op != 0x54 || nmRows d * nmLen d / groups ≤ 65535)
    && convWordOk (nmConvert d) && !cwScaleEn (nmConvert d) && !cwBiasEn (nmConvert d) && !cwClipEn (nmConvert d)
    && edgeOk x (nmEdge d) (nmRows d) (nmLen d) none false
    && inBanks (f.reads ++ f.writes) && !anyMeet (f.writes.take 1) (f.reads.take 1)

/-! ## Draws (R347, R350, R351) -/

/-- A draw context: reserved fields 0, a tail table for rand_normal and no table otherwise. -/
def drawOk (x : Ctx) : Bool :=
  let d := x.const (laneConst x.i)
  x.hasConsts (laneConst x.i) 1 && fld d 94 91 = 0 && fld d 7 0 = 0
    && if iOp x.i = 0x34 then 4 ≤ dcTable d && x.hasTable (dcTable d) (some 5) else dcTable d = 0

/-! ## Loupe and routes (R299 to R302, R319) -/

/-- Every Bead of the group names only tiles below `t` (R302). -/
def tilesOk (x : Ctx) (base per count t : Nat) : Bool := 1 ≤ count && base + per * (x.size - 1) + count ≤ t

/-- A loupe_compare (R299, R302). -/
def compareOk (x : Ctx) : Bool :=
  let e := x.const (laneConst x.i)
  let w := loupeBlock x.cap (ceBlock e)
  x.hasConsts (laneConst x.i) 1 && fld e 69 0 = 0
    && ((sectionEntries x.cap secLoupe 0 32).any fun w => lbBlock w = ceBlock e)
    && tilesOk x (ceBase e) (cePerBead e) (ceCount e) (ceilDiv (loupeShape x w).tokens 128)

/-- The most rows that a route of the variant can see (R316, R319). -/
def routeMax (x : Ctx) (w : Nat) : Nat :=
  if rtBlock w = noObj then routeAllocated x w else decisionMax x.cap (lbDecision (loupeBlock x.cap (rtBlock w)))

/-- Tensor `tid` is declared of a kind, format and rank, and its first extent holds `f` at the variant's tuple. -/
def tensorIs (x : Ctx) (tid kind fmt rank : Nat) (f : Nat → Bool) : Bool :=
  match findTensor x.cap tid with
  | some d => tdKind d = kind && tdFormat d = fmt && tdRank d = rank && f ((tensorExtents x.cap x.job.tuple d).getD 0 0)
  | none => false

/-- A route (R299, R315, R319). -/
def routeOk (x : Ctx) : Bool :=
  let i := x.i
  let w := x.consts (laneConst i) 2
  let n := routeMax x w
  x.hasConsts (laneConst i) 2 && fld w 63 0 = 0 && 1 ≤ rtTopK w && rtTopK w ≤ 8 && rtTopK w ≤ rtExperts w
    && rtCapacity w != 0 && rtDecision w + rtExperts w ≤ hdrDecisions (capHeader x.cap)
    && ((List.range (rtExperts w)).all fun e =>
      dpInputKind (decisionHeader x.cap (rtDecision w + e)) = 1 && rtCapacity w ≤ decisionMax x.cap (rtDecision w + e))
    && (if rtBlock w = noObj then dimOk (routeAllocated x w) (rtTokens w)
        else rtTokens w = 0 && (sectionEntries x.cap secLoupe 0 32).any fun b => lbBlock b = rtBlock w)
    && tensorIs x (rtTensor w) 3 fmtINT8 1 (4 * (rtExperts w * rtCapacity w + n * rtTopK w) ≤ ·)
    && tilesOk x (rtBase w) (rtPerBead w) (rtCount w) (ceilDiv n 128)
    && inBanks [⟨laneBank0 i, 64 * laneAddr0 i, 512 * rtExperts w * rtCount w⟩,
      ⟨laneBankD i, 64 * laneAddrD i, 512 * rtTopK w * rtCount w⟩]

/-- One Loupe block at one variant (R300, R301, Table 8.2). -/
def loupeBlockOk (x : Ctx) (w : Nat) : Bool :=
  let find := findTensor x.cap
  let sh (tid : Nat) : Nat × Nat × List Nat := match find tid with
    | some d => (tdFormat d, tdRank d, tdExtents d)
    | none => (0, 0, [])
  let n := (loupeShape x w).tokens
  let kept := resumeTensors x.cap x.v
  let canon (tid : Nat) : Bool := kept.contains tid && match find tid with
    | some d => tdKind d = 4 && tdCanonical d
    | none => false
  let rows (tid : Nat) : Nat := match find tid with
    | some d => tensorElems x.cap x.job.tuple d / max 1 (rowExtent x.cap x.job.tuple d)
    | none => 0
  x.feature 5 && hdrStepRegions (capHeader x.cap) && fld w 139 128 = 0 && fld w 31 0 = 0 && lbBlock w ≤ 1022
    && (find (lbIn w)).isSome && (sh (lbIn w)).1 ≤ 2 && (sh (lbIn w)).2.1 = 2 && sh (lbRef w) = sh (lbIn w)
    && canon (lbRef w) && canon (lbState w) && canon (lbOut w)
    && tensorIs x (lbState w) 4 fmtINT8 1 (· = 2 * n) && rows (lbOut w) = n
    && tensorIs x (lbList w) 3 fmtINT8 1 (· = 4 * decisionMax x.cap (lbDecision w))
    && !(lbThreshold w).isNaN && !(lbThreshold w).isNeg && lbWarm w != 0
    && lbDecision w < hdrDecisions (capHeader x.cap) && dpInputKind (decisionHeader x.cap (lbDecision w)) = 0
    && n ≤ evalExtent x.cap x.job.tuple false (dpBound (decisionHeader x.cap (lbDecision w)))
    && (decisionBuckets x.cap (lbDecision w)).all (· % 128 = 0) && n ≤ 8388608 && dimOk n (lbTokens w)
where
  /-- Output tensor of a block. -/
  lbOut (w : Nat) : Nat := fld w 187 172

/-- Every Loupe block at a variant: blocks in ascending number, each decision point fed by one (R300, R301). -/
def loupeOk (x : Ctx) : Bool :=
  let ws := sectionEntries x.cap secLoupe 0 32
  rising (ws.map lbBlock) && noTwice (ws.map lbDecision) && ws.all (loupeBlockOk x)

/-! ## Row operations (R325, R327 to R331) -/

/-- Elements per pixel of a buffer; `any_` where every count is allowed (Table 9.1). A pixel is whole bytes. -/
def cpixOk (f n : Nat) (any_ : Bool) : Bool :=
  1 ≤ n && n ≤ 4095 && (any_ || n % 16 = 0) && n * fmtBits f % 8 = 0

/-- A field at 0 or at its default of 1. -/
def orOne (n : Nat) : Bool := n ≤ 1

/-- Fields of Table 9.3 that only some operations use. -/
def roNoTaps (d : Nat) : Bool := orOne (roStride d) && orOne (roDil d) && orOne (roTaps d)
def roNoPool (d : Nat) : Bool := !roFirst d && !roLast d && (roScale d = 0 || roScale d = f32One)
def roNoFill (d : Nat) : Bool := roRowsIn d = 0 && roEdge d = 0 && roValid d = 0
def roNoGroup (d : Nat) : Bool := roPitch d = 0 && roUsed d = 0
def roFmtOk (d : Nat) : Bool := 1 ≤ roFmt d && roFmt d ≤ 9
def roSizes (d : Nat) : Bool := 1 ≤ roWidth d

/-- The whole row buffer of Ws pixels. -/
def RowBuf.whole (r : RowBuf) (d : Nat) : LockRange := r.range 0 (roWidth d)

/-- The pad value p is admitted: exact in a floating format, an integer of an integer one (R331). -/
def padOk (x : Ctx) (d : Nat) : Bool :=
  roEdge d = 0 || (x.hasConsts (roEdge d) 2 && (let e := edgeWord x (roEdge d)
    fld e 31 0 = 0 && fld e 252 240 = 0 && fld e 188 176 = 0 && fld e 124 112 = 0) && (
    let p := edgePad x (roEdge d)
    let v := elemVal (roFmt d) true (padCode x d)
    if p.isNaN then v.isNaN else rnd v = rnd p || (isIntFmt (roFmt d) && p.isZero)))

/-- A pad_fill (R329). A row that is placed (rows_in 0) has no source, and one that is filled (modes 0, 1) reads none;
only mode 1 has a pad value. Its destination must hold both pads even where they are wider than the row. -/
def padFillOk (x : Ctx) (d : Nat) : Bool :=
  let whole := roRowsIn d = 1
  let copies := 2 ≤ roMode d
  let dst := (dstBuf d).range 0 (max (roWidth d) (roPadL d + roPadR d))
  roMode d ≤ 3 && roRowsIn d ≤ 1 && roFmtOk d && roSizes d && cpixOk (roFmt d) (roCpix d) false && roNoTaps d
    && roNoPool d && roNoGroup d && roCount d = 0 && roDstCpix d = 0 && roLayer d = 0 && padOk x d
    && (roMode d = 1 || roEdge d = 0) && (whole || roX0 d = 0)
    && ((whole && copies) || (roSrcBank d = 0 && roSrcAddr d = 0))
    && dimOk (if whole then 4095 else roWidth d - roPadL d - roPadR d) (roValid d) && dst.inBank
    && (!whole || !copies || ((srcBuf d).whole d).inBank && !((srcBuf d).whole d).meets dst)

/-- Furthest source pixel of taps (R329). -/
def lastTap (d : Nat) : Nat := tapPixel d (roCount d - 1) (roTaps d - 1)
/-- The source pixels from the first to the last that is read. -/
def tapSpan (d : Nat) : LockRange := (srcBuf d).range (roX0 d) (lastTap d + 1 - roX0 d)
def tapsOk (d : Nat) : Bool :=
  1 ≤ roStride d && roStride d ≤ 4 && 1 ≤ roDil d && roDil d ≤ 4 && 1 ≤ roTaps d && roTaps d ≤ 8 && 1 ≤ roCount d
    && lastTap d < roWidth d

def convGatherOk (d : Nat) : Bool :=
  let dst : LockRange := ⟨roDstBank d, 64 * roDstAddr d, elemBytes (roFmt d) (128 * gatherKt d)⟩
  roMode d = 0 && roFmtOk d && roSizes d && cpixOk (roFmt d) (roCpix d) false && tapsOk d && roCount d ≤ 128 && roNoPool d
    && roNoFill d && roNoGroup d && roDstCpix d = 0 && roLayer d = 0 && (tapSpan d).inBank && dst.inBank
    && !(tapSpan d).meets dst

/-- A halo_check waits on a slot of at least 128 bytes of its own Bead; it uses the layer alone (R329, R340). -/
def haloCheckOk (x : Ctx) (d : Nat) : Bool :=
  fld d 255 165 = 0 && roNoTaps d && roNoFill d && roCount d = 0 && roDstCpix d = 0 && roNoPool d && roUsed d = 0
    && match x.declOf x.g (iWait x.i) with
      | some o => sdKind o = 1 && 128 ≤ sdLength o
      | none => false

def resampleOk (x : Ctx) (d : Nat) : Bool :=
  let f := resampleFoot { x with i := x.i }
  let up := roMode d = 2
  let src := if up then (srcBuf d).range (roX0 d) ((roCount d - 1) / roTaps d + 1) else tapSpan d
  roMode d ≤ 2 && roFmtOk d && roSizes d && cpixOk (roFmt d) (roCpix d) false && roDstCpix d = roCpix d && 1 ≤ roCount d
    && roNoFill d && roNoGroup d && roLayer d = 0 && src.inBank && inBanks f.writes && !anyMeet [src] f.writes
    && (roMode d = 1 || roScale d = 0 || roScale d = f32One)
    && (if up then (roTaps d = 2 || roTaps d = 4) && orOne (roStride d) && orOne (roDil d) && roNoPool d
          && roX0 d + (roCount d - 1) / roTaps d < roWidth d
        else tapsOk d)

def regroupOk (x : Ctx) (d : Nat) : Bool :=
  let f := regroupFoot x
  let t := roTaps d
  let u := roUsed d
  let toChannel := roMode d = 0
  roMode d ≤ 1 && roFmtOk d && roSizes d && cpixOk (roFmt d) (roCpix d) toChannel
    && cpixOk (roFmt d) (roDstCpix d) (!toChannel) && (t = 2 || t = 4 || t = 8) && 1 ≤ roCount d && u != 0
    && roPadL d = 0 && roPadR d = 0 && orOne (roStride d) && orOne (roDil d) && roNoPool d && roNoFill d && roLayer d = 0
    && (if toChannel then roX0 d + t * roCount d ≤ roWidth d && t * t * u ≤ roDstCpix d && u ≤ roCpix d
        else roX0 d + roCount d ≤ roWidth d && t * t * u ≤ roCpix d && u ≤ roDstCpix d)
    && inBanks (f.reads ++ f.writes) && !anyMeet f.reads f.writes

/-- A row operation (R327, R329). -/
def rowOpOk (x : Ctx) : Bool :=
  let d := rowDesc x
  x.hasConsts (laneConst x.i) 2 && match iOp x.i with
    | 0x70 => padFillOk x d
    | 0x71 => convGatherOk d
    | 0x72 => haloCheckOk x d
    | 0x73 => resampleOk x d
    | _ => regroupOk x d

/-! ## Collectives (R570) -/

/-- An end of a collective at which at least `n` bytes are read or written: a tensor but no pool, or Casket scratch (R251,
Table 16.13). -/
def collEndOk (x : Ctx) (space tensor off n : Nat) : Bool :=
  match space with
  | 0 => !isPool x.cap x.v tensor && match findTensor x.cap tensor with
    | some d => off + n ≤ tensorBytes x.cap x.job.tuple d
    | none => false
  | 3 => fld off 39 37 < x.facets && fld off 36 27 = 0 && fld off 26 0 + n ≤ x.casket
  | _ => false

/-- Bytes that every ring size writes at least: a chunk of a scatter may be empty, a gather of one part is its input. -/
def collOut (op n : Nat) : Nat := if op = 0x81 then 0 else inputBytes op n

/-- A collective (R570, Table 16.13). -/
def collectiveOk (x : Ctx) : Bool :=
  let w := x.consts (laneConst x.i) 2
  let op := iOp x.i
  x.hasConsts (laneConst x.i) 2 && fld w 77 0 = 0
    && fld w 243 240 = (if op ≤ 0x81 then fmtFP32 else fmtINT8)
    && collEndOk x (coSrcSpace w) (coSrcTensor w) (coSrcOff w) (inputBytes op (coCount w))
    && collEndOk x (coDstSpace w) (coDstTensor w) (coDstOff w) (collOut op (coCount w))
    && x.holds x.g (coDone w) [0]

/-! ## Every LANE instruction -/

/-- What the constant entries of a LANE instruction say; its body stands by itself (`laneFormOk`). -/
def laneOk (x : Ctx) : Bool :=
  let op := iOp x.i
  if op = 0x01 then convertOk x
  else if op = 0x0B || op = 0x0C then x.hasConsts (laneConst x.i) 1
  else if 0x30 ≤ op && op ≤ 0x34 then drawOk x
  else if op = 0x48 then namedOk x false (some 0)
  else if op = 0x49 then namedOk x false (some 5)
  else if op = 0x4A then namedOk x true none
  else if op ≤ 0x4F then true
  else if op ≤ 0x56 then normOk x
  else if op = 0x60 then compareOk x
  else if op = 0x61 then routeOk x
  else if op ≤ 0x74 then rowOpOk x
  else collectiveOk x

end Sys2Proof.Machine
end

