-- ==== Sys2Proof/Machine/CapDma.lean ====
section
/-! DEFINITION. What the part checks of CTRL, SYNC and DMA instructions, descriptors, reductions, the key-value cache and
Cameo streams when it loads a capsule (R97 to R107, R178 to R180, R254 to R258, R297, R313, R314, R337, R366, R367, R374,
R378 to R392, R445, R448, R607, R680). -/
namespace Sys2Proof.Machine

/-! ## Reductions (R391, R392) -/

/-- Bytes of a reduction's area: result, storage and arrival bits (Table 11.8). -/
def rdBytes (d : Nat) : Nat := rdBits d + ceilDiv (rdN d) 8 - rdArea d

/-- A reduction descriptor at a constant entry (Table 11.7, R392). -/
def reductionOk (x : Ctx) (e : Nat) : Bool :=
  let d := x.consts e 2
  e != 0 && x.hasConsts e 2 && rdKind d ≤ 6 && fld d 139 0 = 0 && rdHome d < x.facets && rdN d != 0 && rdWords d != 0
    && rdArea d + rdBytes d ≤ x.casket
    && (rdDone d = noObj || (List.range x.size).all fun g => x.holds g (rdDone d) [0])
    && (rdDecision d = noObj || (rdKind d != 0 && rdKind d != 6 && rdWords d = 1
        && rdDecision d < hdrDecisions (capHeader x.cap) && dpInputKind (decisionHeader x.cap (rdDecision d)) = 2))

/-- The last iteration index that an instruction under loops can reach; none where it cannot be reached (R99, R314). -/
def lastIter (x : Ctx) (loops : List Nat) : Option Nat :=
  let trips (i : Nat) : Nat := match loopSource i with
    | 0 => x.job.steps
    | 1 => fld (x.const (loopIndex i)) 31 0
    | _ => x.extMax (loopIndex i)
  if loops.any fun i => trips i = 0 then none
  else match loops with
    | [] => some 0
    | i :: _ => some (trips i - 1)

/-- A contribute: its words in bank 3, its index below N in every iteration (R392). -/
def contributeOk (x : Ctx) (iter : Option Nat) : Bool :=
  let d := x.consts (syRed x.i) 2
  x.feature 11 && reductionOk x (syRed x.i) && LockRange.inBank ⟨3, 64 * sySrc x.i, 4 * rdWords d⟩ && match iter with
    | some j => syIndex x.i + rdPerBead d * x.g + rdPerIter d * j < rdN d
    | none => true

/-- A SYNC instruction (R366 to R368, Table 11.2). -/
def syncOk (x : Ctx) (iter : Option Nat) : Bool :=
  let own (kind : Nat) : Bool := x.holds x.g (syObject x.i) [kind]
  match syOp x.i with
  | 0 => if syTarget x.i = 0xFFF then own 0 else syTarget x.i < x.size && x.holds (syTarget x.i) (syObject x.i) [0]
  | 1 => own 1
  | 2 => own 1
  | 3 => own 2
  | 4 => own 2
  | _ => contributeOk x iter

/-! ## CTRL (R98, R99, R105, R106) -/

def ctrlOk (x : Ctx) : Bool :=
  let n := ctrlOperand x.i
  match iOp x.i with
  | 3 => loopSource x.i != 1 || (x.hasConsts (loopIndex x.i) 1 && fld (x.const (loopIndex x.i)) 127 32 = 0)
  | 5 =>
    let (h, _, starts) := decisionPoint x.cap x.v n
    n < hdrDecisions (capHeader x.cap) && starts.all (· < streamLen x.cap (streamOf x.cap x.v x.g))
      && (dpInputSem h = noObj || x.holds x.g (dpInputSem h) [0])
  | 6 => x.hasTable (swapTable x.i) none
  | 7 => (syncDecls x.cap x.v).any fun d => sdKind d = 3 && sdObject d = n
  | _ => true

/-! ## Sides of a transfer (R100, R101, R378, R379, R388) -/

/-- What the rows of a transfer span; `listed`: its rows come from a list, which run time bounds (R314). -/
def dmaSpan (d stride : Nat) (listed : Bool) : Nat :=
  if listed || ddRows d = 0 || ddRowBytes d = 0 then 0 else (ddRows d - 1) * stride + ddRowBytes d

/-- Whether a transfer without a list moves nothing (R78). -/
def dmaEmpty (d : Nat) : Bool := ddRows d = 0 || ddRowBytes d = 0

/-- A side in a tensor, the own Locket or Casket scratch. -/
def localSideOk (x : Ctx) (space tensor off span : Nat) (listed : Bool) : Bool :=
  match space with
  | 0 => match findTensor x.cap tensor with
    | some d => listed || off + span ≤ tensorBytes x.cap x.job.tuple d
    | none => false
  | 1 => off < 2 ^ 21 && fld off 18 0 + span ≤ 2 ^ 19
  | 3 => fld off 36 27 = 0 && fld off 39 37 < x.facets && fld off 26 0 + span ≤ x.casket
  | _ => true

/-- Bead `x.g` may reach an object: it is its peer, or the object has none (R378, R379). -/
def peerOk (x : Ctx) (o : Nat) : Bool := sdPeer o = x.g || sdPeer o = 0xFFF

/-- A side in another Bead's window, or in its slot for a fill, whichever Bead issues the transfer. Bit 19 is reserved and a
slot is never a source, whatever the transfer moves; where it moves something, the object is there and every byte lies inside
it (R374, R378). -/
def remoteFormOk (x : Ctx) (off span : Nat) (fill moves : Bool) : Bool :=
  bit off 19 = false && match x.declOf (fld off 39 30) (fld off 29 20) with
    | some o => (sdKind o = 2 || (sdKind o = 1 && fill) || (!sdIsArea o && !moves))
        && (!moves || fld off 18 0 + span ≤ sdLength o)
    | none => !moves

/-- The issuing Bead is the peer of the object of a side that moves something (R379). -/
def remotePeerOk (x : Ctx) (off : Nat) : Bool :=
  match x.declOf (fld off 39 30) (fld off 29 20) with
  | some o => peerOk x o
  | none => false

/-! ## Lists, multicast and halo (R178 to R180, R313, R314, R337) -/

/-- A gather list descriptor, whichever instruction names it (Table 8.4). Its list lies in no pool (R251). -/
def gatherFormOk (x : Ctx) (d : Nat) : Bool :=
  let w := x.const (ddList d)
  x.hasConsts (ddList d) 1 && fld w 43 0 = 0 && glSpace w ≤ 1
    && (glSpace w = 1 || ((findTensor x.cap (glTensor w)).isSome && !isPool x.cap x.v (glTensor w)))

/-- The entries of a gather list in every iteration; a transfer of no rows reads none (R78, R314, Table 8.4). -/
def gatherListOk (x : Ctx) (d : Nat) (iter : Option Nat) : Bool :=
  let w := x.const (ddList d)
  let limit := match glSpace w with
    | 0 => (findTensor x.cap (glTensor w)).elim 0 fun t => tensorBytes x.cap x.job.tuple t / 4
    | _ => 2 ^ 17
  match iter with
      | some j => ddRows d = 0 || glFirst w x.g j + ddRows d ≤ limit
      | none => true

/-- A multicast group entry and its destinations, whichever Bead issues it: each holds the object with room for
rows × dst_stride bytes and for every byte that a row covers (R178 to R180). -/
def multicastOk (x : Ctx) (d : Nat) : Bool :=
  let w := x.const (ddList d)
  let off := ddDstOff d
  let span := max (ddRows d * ddDstStride d) (dmaSpan d (ddDstStride d) false)
  x.hasConsts (ddList d) 1 && fld w 90 0 = 0 && off < 2 ^ 19 && (mgDests w).all fun g =>
    g < x.size && match x.declOf g (mgObject w) with
      | some o => sdIsArea o && off + span ≤ sdLength o
      | none => false

/-- The issuing Bead is the peer of every destination's object (R180, R379). -/
def multicastPeersOk (x : Ctx) (d : Nat) : Bool :=
  let w := x.const (ddList d)
  (mgDests w).all fun g => (x.declOf g (mgObject w)).elim false (peerOk x)

/-- A halo send, whichever Bead issues it: its slot, with room for the header (R337). -/
def haloOk (x : Ctx) (d : Nat) : Bool :=
  let w := x.const (ddList d)
  let off := ddDstOff d
  x.hasConsts (ddList d) 1 && fld w 89 0 = 0 && off < 2 ^ 19 && hdDest w < x.size && match x.declOf (hdDest w) (hdObject w) with
    | some o => sdKind o = 1 && off + dmaSpan d (ddDstStride d) false + 64 ≤ sdLength o
    | none => false

/-- The issuing Bead is the peer of a halo send's slot (R337). -/
def haloPeerOk (x : Ctx) (d : Nat) : Bool :=
  let w := x.const (ddList d)
  match x.declOf (hdDest w) (hdObject w) with
  | some o => sdPeer o = x.g
  | none => false

/-! ## The key-value cache (R254 to R258, R261, R270, R289, R297) -/

/-- Bits of an element for R257's page formats. -/
def pageFmtOk (f : Nat) : Bool := 1 ≤ f && f ≤ 7

/-- Edit descriptors that the variant's DMA descriptors name, and walk descriptors. -/
def variantDmas (x : Ctx) : List Nat := sectionEntries x.cap secDma (varDma (variantWord x.cap x.v)) 32
def isWalkDesc (x : Ctx) (d : Nat) : Bool := ddKind d = 1 && ddSrcSpace d = 0 && isPool x.cap x.v (ddSrcTensor d)
def isEditDesc (x : Ctx) (d : Nat) : Bool := ddKind d = 2 && ddDstSpace d = 0 && isPool x.cap x.v (ddDstTensor d)

/-- Home of a pool or sequence declaration. -/
def pdHome (w : Nat) : Nat := fld w 107 105
def sqHome (w : Nat) : Nat := fld w 97 95

/-- A pool declaration and its frames (R255, R297). -/
def poolOk (x : Ctx) (pd : Nat) : Bool :=
  let (frames, bytes) := poolExtents x.cap x.job.tuple pd
  let seqs := (seqDecls x.cap x.v).filter (sqPool · = pdIndex pd)
  fld pd 104 0 = 0 && pdHome pd < x.facets
    && (match findTensor x.cap (pdTensor pd) with
      | some t => tdKind t = 4 && tdFormat t = fmtINT8 && tdRank t = 2 && !tdCanonical t
      | none => false)
    && bytes % 4096 = 0 && seqs.foldl (fun n s => n + sqBudget s) 0 ≤ frames
    && (variantDmas x).all fun d => !isEditDesc x d || (
      let w := x.consts (ddList d) 2
      edOp w != 0 || seqs.all fun s => sqNumber s != edSeq w || pageBytes s (edFmt w) ≤ bytes)

/-- A sequence declaration and its state tensor (R256, R258, R289, R297). -/
def seqOk (x : Ctx) (sd : Nat) : Bool :=
  let pool := (poolDecls x.cap x.v).find? (pdIndex · = sqPool sd)
  fld sd 51 0 = 0 && 1 ≤ sqHeads sd && sqHeads sd ≤ 64 && fld sd 87 86 ≤ 2 && 1 ≤ sqBudget sd && sqBudget sd ≤ 2048
    && sqSink sd + sqRecent sd < sqBudget sd
    && (match pool with
      | some pd => sqHome sd = pdHome pd
      | none => false)
    && tensorIs x (sqState sd) 4 fmtINT8 1 (· = stateBytes sd)
    && (match findTensor x.cap (sqState sd) with
      | some t => tdCanonical t
      | none => false)
    && (resumeTensors x.cap x.v).contains (sqState sd)

/-- The key-value directory of a capsule that sets feature bit 6 (R254, R297). -/
def directoryOk (x : Ctx) : Bool :=
  !x.feature 6 || (
    let w := kvDirectory x.cap x.v
    let np := fld w 111 107
    let ns := fld w 90 80
    x.hasConsts 0 1 && fld w 79 0 = 0 && 1 ≤ np && np ≤ 16 && 1 ≤ ns && ns ≤ 1024 && x.hasConsts (fld w 127 112) np
      && x.hasConsts (fld w 106 91) ns && noTwice ((poolDecls x.cap x.v).map pdIndex)
      && noTwice ((seqDecls x.cap x.v).map sqNumber) && (poolDecls x.cap x.v).all (poolOk x)
      && (seqDecls x.cap x.v).all (seqOk x))

/-- A sequence of the variant whose pool is of tensor `tid`. -/
def seqOf? (x : Ctx) (n tid : Nat) : Option Nat :=
  (seqDecls x.cap x.v).find? fun s => sqNumber s = n && pdTensor (poolDecl x.cap x.v (sqPool s)) = tid

/-- Slots of a walk's ring at Bead `g`, each at least `n` bytes (R265, R297). -/
def walkRingAt (x : Ctx) (wd first n g : Nat) : Bool :=
  g < x.size && (List.range (wkLen wd)).all fun k => match x.declOf g (first + k) with
    | some d => sdKind d = 1 && n ≤ sdLength d
    | none => false

/-- The rings of a walk at one destination; `bytes` is a block. -/
def walkRingsAt (x : Ctx) (w bytes g : Nat) : Bool :=
  walkRingAt x w (wkKeyRing w) (roundUp bytes 64 + 64) g && (wkKeysOnly w || walkRingAt x w (wkValRing w) bytes g)

/-- The issuing Bead may fill a ring of another Bead: it is the peer of every slot (R379). -/
def walkPeersAt (x : Ctx) (wd first g : Nat) : Bool :=
  g = x.g || (List.range (wkLen wd)).all fun k => (x.declOf g (first + k)).elim false (peerOk x)

/-- A walk, whichever Bead issues it (R261, R297, Table 7.9). -/
def walkOk (x : Ctx) (d : Nat) : Bool :=
  let e := ddList d
  let w := x.consts e 2
  x.feature 6 && x.hasConsts e 2 && fld w 136 0 = 0
    && ddDstSpace d = 1 && ddDstTensor d = 0xFFFF && ddSrcOff d = 0 && ddDstOff d = 0
    && ddRowBytes d = 0 && ddRows d = 0 && ddSrcStride d = 0 && ddDstStride d = 0
    && (match seqOf? x (wkSeq w) (ddSrcTensor d) with
      | none => false
      | some s =>
        let bytes := elemBytes (wkFmt w) (128 * sqDim s)
        wkHead w < sqHeads s && pageFmtOk (wkFmt w) && 1 ≤ wkCount w && wkFirst w + wkCount w ≤ sqBudget s
          && 1 ≤ wkLen w && (wkKeysOnly w || wkValRing w != noObj)
          && (wkDest w = 0 || (x.hasConsts (wkDest w) 1 && fld (x.const (wkDest w)) 90 0 = 0
            && (mgDests (x.const (wkDest w))).all (walkRingsAt x w bytes))))
    && (wkMask w = 0 || (maskOk x (wkMask w) 0 && (let m := maskWord x (wkMask w)
        !mkBitmapEn m || x.hasConsts (mkBitmap m) (ceilDiv (2 * wkCount w) 128))))
    && wkHops w ≤ 8191

/-- What a walk asks of the Bead that issues it: its start semaphore, its own ring where it delivers to itself, and the peers
of the slots that it fills elsewhere (R261, R265, R297, R379). -/
def walkBeadOk (x : Ctx) (d : Nat) : Bool :=
  let w := x.consts (ddList d) 2
  (wkStart w = noObj || x.holds x.g (wkStart w) [0])
    && (wkDest w != 0 || (match seqOf? x (wkSeq w) (ddSrcTensor d) with
      | some s => walkRingsAt x w (elemBytes (wkFmt w) (128 * sqDim s)) x.g
      | none => false))
    && (walkDests x w x.g).all fun g =>
      walkPeersAt x w (wkKeyRing w) g && (wkKeysOnly w || walkPeersAt x w (wkValRing w) g)

/-- An edit (R270, R297, Table 7.12). -/
def editOk (x : Ctx) (d : Nat) : Bool :=
  let e := ddList d
  let w := x.consts e 2
  let span := (ddRows d - 1) * ddSrcStride d + ddRowBytes d
  x.feature 6 && x.hasConsts e 2 && fld w 184 0 = 0 && ddSrcSpace d = 1 && edOp w ≤ 3
    && (edOp w = 0 || (edFmt w = 0 && edVOff w = 0)) && (edOp w = 1 || edOp w = 3 || edPos w = 0)
    && (match seqOf? x (edSeq w) (ddDstTensor d) with
      | none => false
      | some s => match edOp w with
        | 0 => pageFmtOk (edFmt w) && ddRows d != 0 && ddRowBytes d = sqHeads s * sqDim s * fmtBits (edFmt w) / 8
            && ddSrcOff d < 2 ^ 21 && fld (ddSrcOff d) 18 0 + span ≤ 2 ^ 19 && fld (edVOff w) 18 0 + span ≤ 2 ^ 19
        | 2 => ddSrcOff d < 2 ^ 21 && fld (ddSrcOff d) 18 0 + 16 * ddRows d ≤ 2 ^ 19
        | _ => ddRows d = 0 && ddRowBytes d = 0)

/-! ## Cameo (R441, R442, R444, R445, R448) -/

/-- Picture size and tile columns of an encode stream (R441, Table 13.2). -/
def pictureOk (d : Nat) : Bool :=
  let w := cmWidth d
  let h := cmHeight d
  64 ≤ w && 64 ≤ h && w ≤ 8192 && h ≤ 4352 && w * h ≤ 35651584 && w % 8 = 0 && h % 8 = 0
    && (cmTiles d).all fun (_, t) => 1 ≤ t && t ≤ 4096 && (cmCodec d = 1 || 256 ≤ t)

/-- A tensor that a stream names holds at least `n` bytes, and is no pool (R251). -/
def streamTensorOk (x : Ctx) (tid n : Nat) : Bool :=
  match findTensor x.cap tid with
  | some t => !isPool x.cap x.v tid && n ≤ tensorBytes x.cap x.job.tuple t
  | none => false

/-- An entry of a class table: reserved bits 0, and a QP or a QP delta in its range (R456, Table 13.7). -/
def classEntryOk (w : Nat) : Bool :=
  fld w 13 8 = 0 && (if classFixed w then 0 ≤ classValue w && classValue w ≤ 51 else -51 ≤ classValue w && classValue w ≤ 51)

/-- Fields of an encode stream descriptor (R445, Tables 13.4, 13.8). -/
def encodeOk (x : Ctx) (d : Nat) : Bool :=
  let n := dimMax x 65535 (cmFrames d)
  let blocks := ceilDiv (cmWidth d) 64 * ceilDiv (cmHeight d) 64
  cmCodec d ≤ 1 && fld d 506 504 ≤ 3 && pictureOk d && cmIn d = noTensor && cmFrameFree d = noObj && cmSurfaces d = 0
    && cmMode d ≤ 3 && cmQpMin d ≤ cmQpMax d && cmQpMin d ≤ cmQp d && cmQp d ≤ cmQpMax d && cmQpMax d ≤ 51
    && (!(cmMode d = 1 || cmMode d = 2) || (cmBitrate d != 0 && cmHrdBuffer d != 0))
    && (cmMode d != 2 || cmBitrate d ≤ cmMaxBitrate d)
    && (cmInFmt d = fmtBF16 || cmInFmt d = fmtFP16 || cmInFmt d = fmtINT8) && x.hasConsts (cmMatrix d) 3
    && streamTensorOk x (cmOut d) 0
    && (if cmRoi d = noTensor then cmClasses d = 0
        else streamTensorOk x (cmRoi d) (n * blocks) && x.hasConsts (cmClasses d) 1
          && (List.range 8).all fun k => classEntryOk (fld (x.const (cmClasses d)) (16 * k + 15) (16 * k)))
    && (cmCtl d = noTensor || streamTensorOk x (cmCtl d) (4 * n))

/-- Fields of a decode stream descriptor: those of an encode stream at their defaults (R445). -/
def decodeOk (x : Ctx) (d : Nat) : Bool :=
  cmCodec d ≤ 2 && !cmTenBit d && fld d 506 504 = 0 && cmWidth d = 0 && cmHeight d = 0 && cmRoi d = noTensor
    && cmCtl d = noTensor && cmMode d = 0 && cmQp d = 0 && cmQpMin d = 0 && cmQpMax d = 51 && fld d 324 265 = 0
    && cmKeyPeriod d = 0 && 1 ≤ cmSurfaces d && cmMatrix d = 0 && cmInFmt d = 0 && fld d 182 175 = 1 && fld d 174 167 = 1
    && fld d 166 159 = 1 && !bit d 158 && cmClasses d = 0 && streamTensorOk x (cmIn d) 0
    && streamTensorOk x (cmOut d) (256 * cmSurfaces d)

/-- A stream descriptor at a constant entry (R445). -/
def streamDescOk (x : Ctx) (e : Nat) : Bool :=
  let d := streamDesc x e
  let sem (n : Nat) : Bool := n = noObj || x.holds (cmOwner d) n [0]
  x.feature 9 && x.hasConsts e 4 && fld d 511 510 ≤ 1 && fld d 476 474 = 0 && fld d 109 0 = 0
    && dimOk 65535 (cmFrames d) && cmOwner d < x.size && sem (cmDone d) && sem (cmFramePost d) && sem (cmFrameFree d)
    && cmFpsNum d != 0 && cmFpsDen d != 0
    && cmWidth d * cmHeight d * cmFpsNum d ≤ 2139095040 * cmFpsDen d
    && if cmDecode d then decodeOk x d else encodeOk x d

/-- A kind 6 descriptor with its row stream entry (R448). -/
def rowStreamOk (x : Ctx) (d : Nat) : Bool :=
  let w := x.const (ddList d)
  let s := streamDesc x (rsStream w)
  ddDstSpace d = 0 && ddDstTensor d = 0xFFFF && ddDstOff d = 0 && ddList d != 0 && x.hasConsts (ddList d) 1
    && fld w 40 0 = 0 && streamDescOk x (rsStream w)
    && if cmDecode s then ddSrcSpace d = 0 && ddSrcTensor d = cmIn s && fld w 111 41 = 0
       else ddSrcSpace d = 1 && ddRowBytes d = cmWidth s * 3 * fmtBits (cmInFmt s) / 8

/-- The streams of a variant need no more than eight pairs (R445). -/
def pairsOk (x : Ctx) : Bool :=
  (variantStreams x.cap x.v).foldl (fun n e => n + cmGang (streamDesc x e)) 0 ≤ 8

/-! ## Descriptors (R65, R97, R100, R101, R180, R680) -/

/-- What is asked of a DMA descriptor, whichever Bead issues it, if any. A pool tensor is a side of walks and edits alone:
Beads never reach a pool themselves (R251). -/
def dmaDescOk (x : Ctx) (d : Nat) : Bool :=
  let k := ddKind d
  let listed := k = 1 || k = 2 || k = 5 || k = 6
  let src := localSideOk x (ddSrcSpace d) (ddSrcTensor d) (ddSrcOff d) (dmaSpan d (ddSrcStride d) (k = 1))
    (k = 1 || dmaEmpty d)
  let dst := localSideOk x (ddDstSpace d) (ddDstTensor d) (ddDstOff d) (dmaSpan d (ddDstStride d) (k = 2))
    (k = 2 || dmaEmpty d)
  let poolSide := (ddSrcSpace d = 0 && isPool x.cap x.v (ddSrcTensor d)) || (ddDstSpace d = 0 && isPool x.cap x.v (ddDstTensor d))
  let remote :=
    (ddSrcSpace d != 2 || remoteFormOk x (ddSrcOff d) (dmaSpan d (ddSrcStride d) (k = 1)) false (k = 1 || !dmaEmpty d))
      && (k = 4 || k = 5 || ddDstSpace d != 2
        || remoteFormOk x (ddDstOff d) (dmaSpan d (ddDstStride d) (k = 2)) true (k = 2 || !dmaEmpty d))
  dmaFormOk d && (isHalo d || ((ddList d != 0) = listed))
    && (if isWalkDesc x d then walkOk x d
        else if isEditDesc x d then editOk x d
        else if isHalo d then haloOk x d && src && !poolSide
        else !poolSide && remote && match k with
          | 3 => ddSrcSpace d = 0 && (match findTensor x.cap (ddSrcTensor d) with
              | some t => tdKind t = 1
              | none => false) && src && dst
          | 4 => ddDstSpace d = 0 && ddDstTensor d = 0xFFFF && ddDstOff d % 65536 = 0 && src
          | 5 => ddSrcSpace d != 2 && ddDstSpace d = 2 && src && multicastOk x d
          | 6 => rowStreamOk x d && src
          | 1 => gatherFormOk x d && src && dst
          | 2 => gatherFormOk x d && src && dst
          | _ => src && dst)

/-- A DMA instruction of Bead `x.g` (R97): what its descriptor asks of that Bead. -/
def dmaOk (x : Ctx) (iter : Option Nat) : Bool :=
  let d := dmaDesc x.cap x.v (iDesc x.i)
  let k := ddKind d
  iDesc x.i < (variantDmas x).length && (ddDone d = noObj || x.holds x.g (ddDone d) [0, 1])
    && if isWalkDesc x d then walkBeadOk x d
       else if isEditDesc x d then true
       else if isHalo d then haloPeerOk x d
       else if k = 5 then multicastPeersOk x d
       else if k = 6 then !cmDecode (streamDesc x (rsStream (x.const (ddList d))))
          || cmOwner (streamDesc x (rsStream (x.const (ddList d)))) = x.g
       else ((k != 1 && k != 2) || gatherListOk x d iter)
          && (ddSrcSpace d != 2 || (k != 1 && dmaEmpty d) || remotePeerOk x (ddSrcOff d))
          && (k = 4 || ddDstSpace d != 2 || (k != 2 && dmaEmpty d) || remotePeerOk x (ddDstOff d))

end Sys2Proof.Machine
end

