-- ==== Sys2Proof/Machine/Validate.lean ====
section
/-! DEFINITION. What the part checks of a capsule before it loads it (R61 to R66, R107, R387, R392, R607). -/
namespace Sys2Proof.Machine

/-- The magic of a Pholor capsule, and the feature bits the part offers (R60, Table 2.2). -/
def capMagic : Nat := 0x50484F4C
def featuresOffered : Nat := 0x1FFF

/-! ## One instruction of one Bead -/

/-- The objects of its wait and post fields are the issuing Bead's own, of kinds that they can name (R89, R366). -/
def fieldsOk (x : Ctx) : Bool :=
  (iWait x.i = noObj || x.holds x.g (iWait x.i) [0, 1, 2]) && (iPost x.i = noObj || x.holds x.g (iPost x.i) [0, 1])

/-- Whether what an instruction asks for depends on its Bead. -/
def beadBound (i : Nat) : Bool := iClass i != 1 && iClass i != 2 || (iClass i = 2 && (iOp i = 0x72 || 0x80 ≤ iOp i))

/-- Everything that does not depend on the Bead, and everything that does. -/
def instrOk (x : Ctx) (iter : Option Nat) : Bool :=
  match iClass x.i with
  | 0 => ctrlOk x
  | 1 => mmaOk x
  | 2 => laneOk x
  | 3 => dmaOk x iter
  | 4 => syncOk x iter
  | _ => chainOk x

/-- The Beads of a variant that run stream `s`. -/
def beadsOf (x : Ctx) (s : Nat) : List Nat := (List.range x.size).filter fun g => streamOf x.cap x.v g = s

/-- The streams of a variant. -/
def variantStreamNumbers (x : Ctx) : List Nat := sortDedup ((List.range x.size).map (streamOf x.cap x.v))

/-- A stream at a variant: each instruction for each of its Beads, and its holds. -/
def streamUseOk (x : Ctx) (s : Nat) : Bool :=
  let gs := beadsOf x s
  ((loopStacks (streamInstrs x.cap s) []).getD []).all (fun (i, loops) =>
    let y := { x with i := i }
    let iter := lastIter x loops
    gs.all (fun g => fieldsOk { y with p := g, g := g })
      && (if beadBound i then gs else gs.take 1).all fun g => instrOk { y with p := g, g := g } iter)
  && (gs.take 1).all fun g => streamHoldsOk { x with p := g, g := g }

/-! ## A whole variant -/

/-- The instructions of a variant, each once per stream. -/
def variantInstrs (x : Ctx) : List Nat := (variantStreamNumbers x).flatMap (streamInstrs x.cap)

/-- Owners and peers lie in the group (Table 2.15). -/
def groupDeclsOk (x : Ctx) : Bool :=
  (syncDecls x.cap x.v).all fun d => sdOwner d < x.size && (sdPeer d = 0xFFF || sdPeer d < x.size)

/-- Bytes of the arrival bits of a round of `t` tiles (R386). -/
def arrivalBytes (t : Nat) : Nat := 64 * ceilDiv t 512

/-- The round-state bytes of a variant (R386). -/
def roundBytes (x : Ctx) : Nat :=
  let loupe := (sectionEntries x.cap secLoupe 0 32).foldl (fun n w => n + arrivalBytes (ceilDiv (loupeShape x w).tokens 128)) 0
  let routes := sortDedup (((variantInstrs x).filter fun i => iClass i = 2 && iOp i = 0x61).map laneConst)
  routes.foldl (fun n e => n + arrivalBytes (ceilDiv (routeMax x (x.consts e 2)) 128)) loupe

/-- Casket scratch (R387). -/
def casketOk (x : Ctx) : Bool :=
  x.casket ≤ 74448896 && ceilDiv x.casket (2 ^ 20) + ceilDiv (8192 + roundBytes x) (2 ^ 20) ≤ 72

/-- The reduction descriptors of a variant: the entries that its contributes name. -/
def variantReductions (x : Ctx) : List Nat :=
  sortDedup (((variantInstrs x).filter fun i => iClass i = 4 && syOp i = 5).map syRed)

/-- Decision points of input kind 2 that the variant decides on are each fed by exactly one reduction whose done is their
input semaphore, and no decision point is fed twice (R392). -/
def feedsOk (x : Ctx) : Bool :=
  let reds := (variantReductions x).map fun e => x.consts e 2
  let fed := (reds.map rdDecision).filter (· != noObj)
  noTwice fed && ((variantInstrs x).filter (isCtrl · 5)).all fun i =>
    let h := decisionHeader x.cap (ctrlOperand i)
    dpInputKind h != 2 || ((reds.filter fun d => rdDecision d = ctrlOperand i).map rdDone) = [dpInputSem h]

/-- Start and end in the output plaintext of the kind 4 transfers that the variant's instructions name (R607). -/
def outputSpans (x : Ctx) : List (Nat × Nat) :=
  ((variantInstrs x).filter (iClass · = 3)).filterMap fun i =>
    let d := dmaDesc x.cap x.v (iDesc i)
    if ddKind d = 4 && !dmaEmpty d then some (ddDstOff d, ddDstOff d + dmaSpan d (ddDstStride d) false) else none

/-- Every kind 4 transfer but the one that ends the output is a multiple of 65,536 bytes long (R607). -/
def outputOk (x : Ctx) : Bool :=
  let ss := outputSpans x
  let top := ss.foldl (fun n s => max n s.2) 0
  ss.all fun s => (s.2 - s.1) % 65536 = 0 || s.2 = top

def variantBodyOk (cap : Capsule) (v : Nat) : Bool :=
  let x := staticCtx cap v 0 0
  groupDeclsOk x && directoryOk x && loupeOk x && (variantDmas x).all (dmaDescOk x)
    && (variantStreamNumbers x).all (streamUseOk x) && casketOk x && feedsOk x && outputOk x && pairsOk x

/-- Everything that R65 names besides the magic, the contract version and the feature bits holds. -/
def capsuleWhole (cap : Capsule) : Bool :=
  capsuleFormOk cap && (List.range (hdrVariants (capHeader cap))).all (variantBodyOk cap)

end Sys2Proof.Machine
end

