-- ==== Sys2Proof/Machine/Jobs.lean ====
section
/-! DEFINITION. Queues, doorbells, loads, acceptance, binding, unbinding and completion of jobs (R67, R72 to R85, R110 to R112,
R386 to R400, R446, R469 to R502, R605 to R609, R679, R684, R685). -/
namespace Sys2Proof.Machine

/-! ## What the host port carries (R539, R540) -/

/-- Pave runs and takes work: not booting, in a warm reset or in device fault, no tamper response or life-cycle transition has
run, and no takeover is due (Table 16.3, R516, R517, R590, R592). -/
def Chip.serves (c : Chip) : Bool :=
  c.pkg.power = .running && !c.pkg.deviceFault && !c.pkg.tampered && !c.pkg.lcLocked && c.pkg.devState = 1
    && c.clasps.all (·.takeoverDue.isNone)

/-! ## Descriptors (Table 14.2) -/

def djTag (d : Nat) : Nat := fld d 1023 960
def djSession (d : Nat) : Nat := fld d 959 948
def djSetting (d : Nat) : Nat := fld d 947 932
def djClass (d : Nat) : Nat := fld d 931 930
def djSteps (d : Nat) : Nat := fld d 929 914
def djMaxSize (d : Nat) : Nat := fld d 913 911
def djOp (d : Nat) : Nat := fld d 910 908
def djExts (d : Nat) : List Nat := [fld d 895 864, fld d 863 832, fld d 831 800, fld d 799 768]
def djSeedExt (d : Nat) : Nat := fld d 767 736
def djInAddr (d : Nat) : Nat := fld d 735 672
def djInBytes (d : Nat) : Nat := fld d 671 640
def djOutAddr (d : Nat) : Nat := fld d 639 576
def djOutBytes (d : Nat) : Nat := fld d 575 544
def djBound (d : Nat) : Nat := fld d 543 512
def djRunLimit (d : Nat) : Nat := fld d 511 480
/-- Every reserved field is 0, the reserved code of max_size with them. -/
def djReservedOk (d : Nat) : Bool := fld d 907 896 = 0 && fld d 479 0 = 0 && djMaxSize d != 7

/-- Entries of the job ledger, and the lowest free index (R480). -/
def ledgerSize : Nat := 16384
def firstGap (k : Nat) : Tbl α → Nat
  | [] => k
  | (i, _) :: t => if i = k then firstGap (k + 1) t else k

/-- The part takes a descriptor of the queue now: one is ready, and the journal and the ledger have room (R475, R480,
R540). -/
def Chip.takes (c : Chip) (q : Nat) : Bool :=
  let x := c.queue q
  c.serves && x.enable = 1 && c.headOpen x.active && x.tail != x.consumed && 2 + c.openJobs q ≤ x.jFree
    && c.jobs.length < ledgerSize

/-- The next ready descriptor. -/
def Chip.nextDesc (c : Chip) (q : Nat) : Nat :=
  let x := c.queue q
  leNat (c.hostRead (x.ringAddr + 128 * x.consumed) 128)

/-- The descriptor at hand is taken. -/
def Chip.consume (c : Chip) (q : Nat) : Chip :=
  c.updQueue q fun x => { x with consumed := (x.consumed + 1) % x.ringEntries }

/-- A record without a sequence number: refusal, load or unload (Table 14.4). -/
def Chip.answer (c : Chip) (q typ st d : Nat) : Chip :=
  (c.writeRecord q (.short typ st u32max (djTag d) c.now (c.queue q).consumed)).consume q

/-! ## Doorbells (R473, R474, R490, R542, R685) -/

/-- A doorbell write is taken: a u32 on the queue's active head, in L0 and in its IDE stream where the life cycle asks for it,
while device_state is 1; what it makes ready waits for a Clasp takeover. A write beyond the 128 pages falls to a reserved offset
and is discarded (Table 16.2, R516, R537, R542, R547). -/
def Chip.doorbell (c : Chip) (production : Bool) (head q width : Nat) : Bool :=
  isQueue q && c.pkg.power = .running && c.pkg.devState = 1 && (c.queue q).enable = 1 && width = 4 && (c.queue q).active = head && c.headOpen head
    && !c.ioClosed production head

/-- A page write that the head turns away (R537); any other that is not taken is discarded. -/
def Chip.turnAway (c : Chip) (production : Bool) (head : Nat) : Chip :=
  if (c.head head).link = 2 && c.ioClosed production head then c.unsupported head else c

/-- The part is in the PRODUCTION life-cycle state (R589). -/
def Otp.production (o : Otp) : Bool := o.lcCount = 2

/-- A command whose effect on the chip depends on the life cycle. -/
def onChipLc (i : Instr) (s : State) (f : Bool → Chip → Chip) : Out := onChip i s (f s.otp.production)

/-- The submission doorbell: a new ring tail (R473). -/
def submissionDoorbell (head q width v : Nat) (production : Bool) (c : Chip) : Chip :=
  if c.doorbell production head q width then c.updQueue q fun x => { x with tail := v % x.ringEntries }
  else c.turnAway production head

def execSubmissionDoorbell (head q width v : Nat) (s : State) : Out :=
  onChipLc (.submissionDoorbell head q width v) s (submissionDoorbell head q width v)

/-- A journal index lies among the `n` records from `h` on. -/
def passedBy (entries h n k : Nat) : Bool := (k + entries - h) % entries < n

/-- The journal head releases `n` records: the ledger entries whose completion records they hold are free (R499). -/
def Chip.release (c : Chip) (q n : Nat) : Chip :=
  let x := c.queue q
  let c := c.setQueue q { x with jHead := (x.jHead + n) % x.journalEntries, jHeld := x.jHeld - n }
  { c with jobs := c.jobs.filter fun e =>
      !(e.2.queue = q && e.2.ledger = .done && passedBy x.journalEntries x.jHead n e.2.doneIdx) }

/-- The journal doorbell (R685). -/
def journalDoorbell (head q width v : Nat) (production : Bool) (c : Chip) : Chip :=
  if c.doorbell production head q width then
    let x := c.queue q
    let n := (v % x.journalEntries + x.journalEntries - x.jHead) % x.journalEntries
    if n = 0 then (if x.jHeld = x.journalEntries then c.release q x.journalEntries else c)
    else if x.jHeld < n then c
    else c.release q n
  else c.turnAway production head

def execJournalDoorbell (head q width v : Nat) (s : State) : Out :=
  onChipLc (.journalDoorbell head q width v) s (journalDoorbell head q width v)

/-- A job is cancelled: a waiting one ends at once, a bound one at its next step_end or end, one that a fence has stopped
does not resume (R490). -/
def Chip.cancelJob (c : Chip) (j : Nat) (x : Job) : Chip :=
  match x.phase with
  | .waiting => c.endJob j stCancelled
  | .stopping => c.endJob j stCancelled
  | _ => c.setJob j { x with cancel := true }

/-- The cancel doorbell names an accepted, incomplete job of the queue by its sequence number; otherwise it does nothing. -/
def cancelDoorbell (head q width v : Nat) (production : Bool) (c : Chip) : Chip :=
  if c.doorbell production head q width then
    match List.find? (fun e : Nat × Job => e.2.queue = q && e.2.seq = v && e.2.ledger = .accepted) c.jobs with
    | some (j, x) => c.cancelJob j x
    | none => c
  else c.turnAway production head

def execCancelDoorbell (head q width v : Nat) (s : State) : Out :=
  onChipLc (.cancelDoorbell head q width v) s (cancelDoorbell head q width v)

/-! ## Loads and unloads (R67, R477, R679) -/

/-- Weight tensors in ascending tensor_id: (tensor, offset in the weight image, bytes) (R477). -/
def weightPlan (cap : Capsule) : List (Nat × Nat × Nat) :=
  let ds := sortBy (fun a b => tdId a ≤ tdId b) ((tensorDecls cap).filter (tdKind · = 0))
  (ds.foldl (fun (acc : Nat × List (Nat × Nat × Nat)) d =>
    let off := roundUp acc.1 4096
    let n := tensorBytes cap [0, 0, 0, 0] d
    (off + n, acc.2 ++ [(tdId d, off, n)])) (0, [])).2

/-- End of the last weight tensor in the weight image. -/
def weightEnd (cap : Capsule) : Nat := (weightPlan cap).foldl (fun _ w => w.2.1 + w.2.2) 0

/-- The capsule that a load descriptor names: capsule_bytes of them, the header at least (R679). -/
def Chip.loadCapsule (c : Chip) (d : Nat) : Capsule :=
  c.hostRead (djInAddr d) (max 64 (hdrBytes (capHeader (c.hostRead (djInAddr d) 64))))

/-- The first check of Table 14.9 that a load fails decides its status. -/
def Chip.loadStatus (c : Chip) (d : Nat) : Nat :=
  let h := capHeader (c.hostRead (djInAddr d) 64)
  if !djReservedOk d then stDescriptorMalformed
  else if 1024 ≤ djSetting d || (c.settings.find? (djSetting d)).isSome then stHandleInUse
  else if djInBytes d < 64 then stBufferSize
  else if hdrMagic h != capMagic || hdrHeaderBytes h != 64 then stCapsuleMalformed
  else if djInBytes d < hdrBytes h then stBufferSize
  else if hdrMajor h != 1 || 0 < hdrMinor h then stContractVersion
  else if hdrFeatures h / 2 ^ 13 != 0 then stContractFeature
  else if !capsuleWhole (c.loadCapsule d) then stCapsuleMalformed
  else if djOutBytes d < weightEnd (c.loadCapsule d) then stBufferSize
  else stOK

/-- Every weight tensor placed in a plain, untagged allocation and read from the weight image; none where they do not fit. -/
def Chip.placeWeights (c : Chip) (addr : Nat) (plan : List (Nat × Nat × Nat)) : Option (List (Nat × Nat) × Chip) :=
  plan.foldl (fun acc w => acc.bind fun (ws, c) =>
    (c.allocate false w.2.2 none).map fun (id, c') =>
      let c' := match c'.alloc? id with
        | some a => c'.storeAt (c'.allocPlace a 0) 0 (c'.hostRead (addr + w.2.1) w.2.2)
        | none => c'
      (ws ++ [(w.1, id)], c')) (some ([], c))

/-- LOAD_SETTING: the next descriptor of the queue is a load; its record of type 4 is written. A load whose weights find no
room in stacked memory waits (assumption 36, DESIGN CHOICE), and so does one during a map-epoch barrier (R432). -/
def loadSetting (q : Nat) (c : Chip) : Chip :=
  let d := c.nextDesc q
  if c.takes q && djOp d = 1 then
    let st := c.loadStatus d
    if st = stOK then
      if c.barrierOn then c else
      let cap := c.loadCapsule d
      match c.placeWeights (djOutAddr d) (weightPlan cap) with
      | none => c
      | some (ws, c) =>
        let new : SettingSt := { capsule := cap, weightAddr := djOutAddr d, weights := ws }
        let c := { c with settings := c.settings.put (djSetting d) new }
        c.answer q 4 stOK d
    else c.answer q 4 st d
  else c

def execLoadSetting (q : Nat) (s : State) : Out := onChip (.loadSetting q) s (loadSetting q)

/-- An accepted, incomplete job references the Setting (R67). -/
def Chip.settingBusy (c : Chip) (h : Nat) : Bool := c.jobs.any fun e => e.2.setting = h && e.2.ledger != .done

/-- A handle is loading: a load of it is the next descriptor that the part takes of a queue (R479, R679). One that stands behind others
in another queue is not yet (assumption 36, DESIGN CHOICE). -/
def Chip.loading (c : Chip) (h : Nat) : Bool :=
  (List.range 128).any fun q => c.takes q && djOp (c.nextDesc q) = 1 && djSetting (c.nextDesc q) = h

/-- UNLOAD_SETTING: the checks of Table 14.9, then the Setting's handle is free and its weights leave stacked memory. An unload of a
handle that is loading waits (R679). -/
def unloadSetting (q : Nat) (c : Chip) : Chip :=
  let d := c.nextDesc q
  if c.takes q && djOp d = 2 then
    if !djReservedOk d then c.answer q 4 stDescriptorMalformed d
    else match c.settings.find? (djSetting d) with
      | none => if c.loading (djSetting d) then c else c.answer q 4 stSettingUnknown d
      | some s =>
        if c.settingBusy (djSetting d) then c.answer q 4 stSettingInUse d
        else
          let c := s.weights.foldl (fun c w => c.freeAlloc w.2) c
          let c := { c with settings := c.settings.erase (djSetting d),
                            mem := { c.mem with weightMarks := c.mem.weightMarks.filter (·.1 != djSetting d) } }
          c.answer q 4 stOK d
  else c

def execUnloadSetting (q : Nat) (s : State) : Out := onChip (.unloadSetting q) s (unloadSetting q)

/-- WEIGHT_RELOAD: a weight tensor marked by Table 12.5 or R433 is read again from the host's weight image (R477). -/
def weightReload (h tid : Nat) (c : Chip) : Chip :=
  match c.settings.find? h with
  | none => c
  | some s =>
    match (weightPlan s.capsule).find? (·.1 = tid), (s.weights.lookup tid).bind c.alloc? with
    | some w, some a =>
      if c.serves && c.hostUp && c.mem.weightMarks.contains (h, tid) && !c.barrierOn then
        let c := c.storeAt (c.allocPlace a 0) 0 (c.hostRead (s.weightAddr + w.2.1) w.2.2)
        { c with mem := { c.mem with weightMarks := c.mem.weightMarks.filter (· != (h, tid)) } }
      else c
    | _, _ => c

def execWeightReload (h tid : Nat) (s : State) : Out := onChip (.weightReload h tid) s (weightReload h tid)

/-! ## Acceptance (R478 to R482, Table 14.3) -/

/-- Size codes up to `m` at which a variant exists for a bucket tuple, largest first (R84, R488). -/
def permittedSizes (cap : Capsule) (tuple : List Nat) (m : Nat) : List Nat :=
  (List.range (m + 1)).reverse.filter fun s => (findVariant cap s tuple).isSome
def permittedVariants (cap : Capsule) (tuple : List Nat) (m : Nat) : List Nat :=
  (permittedSizes cap tuple m).filterMap fun s => findVariant cap s tuple

/-- Session inputs in the input plaintext: (tensor, offset, bytes), each at a multiple of 256 (R607). -/
def inputPlan (cap : Capsule) (tuple : List Nat) : List (Nat × Nat × Nat) :=
  let ds := sortBy (fun a b => tdId a ≤ tdId b) ((tensorDecls cap).filter (tdKind · = 1))
  (ds.foldl (fun (acc : Nat × List (Nat × Nat × Nat)) d =>
    let off := roundUp acc.1 256
    let n := tensorBytes cap tuple d
    (off + n, acc.2 ++ [(tdId d, off, n)])) (0, [])).2
def inputPlainBytes (cap : Capsule) (tuple : List Nat) : Nat := (inputPlan cap tuple).foldl (fun _ w => w.2.1 + w.2.2) 0

/-- Bytes of a buffer of `t` plaintext bytes (R607). -/
def bufferBytes (t : Nat) : Nat := 64 + t + 16 * ceilDiv t 65536

/-- Plaintext bytes of the output at any permitted size. -/
def outputPlainBytes (cap : Capsule) (tuple : List Nat) (m : Nat) : Nat :=
  (permittedVariants cap tuple m).foldl (fun a v => max a (outputBytes cap v)) 0

/-- Bytes of a checkpoint allocation: its header and two generations of every tensor that a resume point map of a permitted
variant lists, with the 16 bytes of step index, counters and flags (R108, R491). -/
def ckptBytes (cap : Capsule) (tuple : List Nat) (m : Nat) : Nat :=
  let ids := sortDedup ((permittedVariants cap tuple m).flatMap (resumeTensors cap))
  4096 + 2 * (16 + ids.foldl (fun a t => a + tensorBytes cap tuple ((findTensor cap t).getD 0)) 0)

/-- Bytes that a stream's reference pictures take: four surfaces of an encoder, the largest picture buffer of a decoder
(R454, R462). -/
def cameoBytes (d : Nat) : Nat :=
  if cmDecode d then Config.dpbBytes (cmCodec d)
  else 4 * surfaceBytes d
def cameoSizes (cap : Capsule) (v : Nat) : List Nat := (variantStreams cap v).map fun e => cameoBytes (constWords cap v e 4)

/-- Tensors that a job places: all but the weights. -/
def placedDecls (cap : Capsule) : List Nat := (tensorDecls cap).filter (tdKind · != 0)

/-- Q-rows of everything a job places, at its smallest permitted size (Table 14.3, check 10). -/
def jobRows (cap : Capsule) (tuple : List Nat) (m : Nat) : Nat :=
  let ts := (placedDecls cap).foldl (fun a d => a + rowsFor (tdKind d = 1) (tensorBytes cap tuple d)) 0
  let cams := match (permittedVariants cap tuple m).getLast? with
    | some v => (cameoSizes cap v).foldl (fun a n => a + rowsFor false n) 0
    | none => 0
  ts + cams + rowsFor true (ckptBytes cap tuple m)

/-- Q-rows of the loaded weights. -/
def Chip.weightRows (c : Chip) : Nat :=
  (c.mem.allocs.filter fun a => c.settings.any fun s => s.2.weights.any (·.2 = a.id)).foldl (fun n a => n + a.rows) 0

/-- The bucket tuple of a job's extents; none where one exceeds its largest bucket (R72, R73). -/
def bucketTuple (cap : Capsule) (exts : List Nat) : Option (List Nat) :=
  let bs := exts.zipIdx.map fun (x, e) => bucketIndex cap e x
  if bs.all (·.isSome) then some (bs.filterMap id) else none

/-- The first check of Table 14.3 that a run descriptor fails decides the refusal. -/
def Chip.acceptStatus (c : Chip) (d : Nat) : Nat :=
  let s := c.session (djSession d)
  if djOp d != 0 || !djReservedOk d then stDescriptorMalformed
  else if s.st != .opened then stSessionInvalid
  else match c.settings.find? (djSetting d) with
    | none => stSettingUnknown
    | some set_ =>
      let cap := set_.capsule
      if (djExts d).zipIdx.any fun (x, e) => exKind (extentDecl cap e) = 0 && x != 0 then stDescriptorMalformed
      else if djClass d < s.ceiling then stClassDenied
      else if s.jobLimit ≤ c.sessionJobs (djSession d) then stSessionBusy
      else match bucketTuple cap (djExts d) with
        | none => stShapeExceeds
        | some tuple =>
          if djSteps d = 0 || hdrMaxSteps (capHeader cap) < djSteps d then stShapeExceeds
          else if (permittedSizes cap tuple (djMaxSize d)).isEmpty then stNoVariant
          else if djInBytes d < bufferBytes (inputPlainBytes cap tuple)
              || djOutBytes d < bufferBytes (outputPlainBytes cap tuple (djMaxSize d)) then stBufferSize
          else if totalRows - windowRows < c.weightRows + jobRows cap tuple (djMaxSize d) then stMemoryExceeds
          else stOK

/-- The ledger entry of a job as acceptance makes it (R482, R486, R489, R605). -/
def Chip.newJob (c : Chip) (q d : Nat) : Job :=
  let x := c.queue q
  let s := c.session (djSession d)
  let b := if djBound d = 0 then c.sched.bounds.getD (djClass d) u32max else djBound d
  { queue := q, seq := x.nextSeq, tag := djTag d, descIndex := x.consumed, session := djSession d, setting := djSetting d,
    cls := djClass d, steps := djSteps d, maxSize := djMaxSize d, exts := djExts d, seedExt := djSeedExt d,
    inAddr := djInAddr d, inBytes := djInBytes d, outAddr := djOutAddr d, outBytes := djOutBytes d,
    bound := if b = u32max then none else some b,
    runLimit := 1024 * (if djRunLimit d = 0 then s.runLimit else djRunLimit d),
    tuple := (bucketTuple (c.capsule (djSetting d)) (djExts d)).getD [0, 0, 0, 0],
    stamp := c.now, number := s.jobCtr, ledger := .accepted, phase := .waiting, ending := none, accIdx := x.jNext,
    doneIdx := 0, flags := 0, resumes := 0, fromStep := 0xFFFF, overflow := 0, invalid := 0, runTicks := 0, size := 0,
    base := 0, slot := 0, variant := 0, tensors := [], ckptAlloc := none, camAllocs := [], gens := [none, none],
    openGens := [], mid := none, cancel := false, preempt := false, resumeDue := false, fromFirst := false,
    ringWait := [], ringFrom := none, met := [], inputsIn := false, decisions := [], latestBucket := [], rounds := [],
    barriers := [], pools := [], swapped := [], stepEnds := 0, outEnd := 0, headerDone := false, outHeads := [], named := none, fenceRec := none }

/-- The sequence number after one: 0xFFFF_FFFF is never a job's (R481). -/
def seqAfter (n : Nat) : Nat := if u32max - 1 ≤ n then 0 else n + 1

/-- A run descriptor is accepted: the ledger entry, then the acceptance record (R481, R482, R605). -/
def Chip.accept (c : Chip) (q d : Nat) : Chip :=
  let x := c.newJob q d
  let c := c.setJob (firstGap 0 c.jobs) x
  let c := c.updSession x.session fun s => { s with jobCtr := s.jobCtr + 1 }
  let c := c.updQueue q fun y => { y with nextSeq := seqAfter y.nextSeq }
  let c := { c with tick := { c.tick with firstAccept := true },
                    telem := { c.telem with accepted := modAt c.telem.accepted q (satAdd u64max · 1) } }
  (c.writeRecord q { Record.short 1 stOK x.seq x.tag c.now x.descIndex with buckets := x.tuple }).consume q

/-- ACCEPT_JOB: the next descriptor of the queue is accepted or refused (R478). A reserved op is refused here, and a run of a handle that
is loading waits (R479). -/
def acceptJob (q : Nat) (c : Chip) : Chip :=
  let d := c.nextDesc q
  if c.takes q && djOp d != 1 && djOp d != 2 then
    let st := c.acceptStatus d
    if st = stOK then c.accept q d
    else if st = stSettingUnknown && c.loading (djSetting d) then c
    else c.answer q 3 st d
  else c

def execAcceptJob (q : Nat) (s : State) : Out := onChip (.acceptJob q) s (acceptJob q)

/-! ## Groups, slices and pairs that are free (R386, R446, R488) -/

/-- A logical Bead is free and unfenced. -/
def Chip.beadFree (c : Chip) (b : Nat) : Bool :=
  let x := c.bead (c.phys b)
  let f := c.facet (beadFacet b)
  x.job.isNone && x.svc = .inService && f.svc = .inService && !f.inReset
    && (f.segs.getD (beadRow b) SegSt.fresh).svc = .inService

/-- Scratch slices of a Facet of rank `rank`; those of rank 0 hold the decision area and the round state too (R386). -/
def slicesFor (x : Ctx) (rank : Nat) : Nat :=
  ceilDiv (varCasketBytes (variantWord x.cap x.v)) (2 ^ 20) + if rank = 0 then ceilDiv (8192 + roundBytes x) (2 ^ 20) else 0

/-- Slices of a Facet that are scratch. -/
def FacetSt.scratchSlices (x : FacetSt) : Nat :=
  (x.slices.filter fun r => match r with
    | .scratch _ => true
    | _ => false).length

/-- Slices of Facet `f` that bound jobs hold. -/
def Chip.slicesHeld (c : Chip) (f : Nat) : Nat := (c.facet f).scratchSlices

/-- The lowest `n` cache slices take a role: their dirty lines are written back first (R386, R434). -/
def FacetSt.takeSlices (x : FacetSt) (n : Nat) (r : SliceRole) : FacetSt :=
  let ks := x.cacheSlices.take n
  { x with slices := ks.foldl (fun ss k => ss.set k r) x.slices, dirty := x.dirty.filter fun l => !ks.contains l.slice }

/-- The scratch slices of a job become cache again. -/
def FacetSt.freeSlices (x : FacetSt) (slot : Nat) : FacetSt :=
  { x with slices := x.slices.map fun r => if r = .scratch slot then .cache else r }

/-- A job at a size, a variant and a group. -/
structure Pick where
  size : Nat
  variant : Nat
  base : Nat
  deriving DecidableEq, Repr

/-- The job in the place that a pick gives it. -/
def Job.at (x : Job) (k : Pick) : Job := { x with size := k.size, variant := k.variant, base := k.base }

/-- Free pairs, lowest first, and how many the streams of a variant need. -/
def Chip.freePairs (c : Chip) : List Nat := (List.range 8).filter fun e => (c.pair e).svc = .inService && (c.pair e).stream.isNone
def pairsFor (cap : Capsule) (v : Nat) : Nat :=
  (variantStreams cap v).foldl (fun n e => n + cmGang (constWords cap v e 4)) 0

/-- Whether a job can be bound at a pick now: its group is wholly free and unfenced, and slices and pairs suffice. -/
def Chip.fits (c : Chip) (j : Nat) (x : Job) (k : Pick) : Bool :=
  (groupOf k.size k.base).all c.beadFree
    && (groupFacets k.size k.base).zipIdx.all (fun (f, r) => c.slicesHeld f + slicesFor (c.jobCtx j (x.at k)) r ≤ 72)
    && pairsFor (c.capsule x.setting) k.variant ≤ c.freePairs.length

/-- The generation a job resumes from: the last committed one, or the one its ring agreed on (R498, R575). -/
def Job.resumeGen (x : Job) : Option Ckpt :=
  let gs := x.gens.filterMap id
  match x.ringFrom with
  | some m => gs.find? (·.step = m)
  | none => match gs with
    | [a, b] => some (if a.step < b.step then b else a)
    | g :: _ => some g
    | [] => none

/-- The status with which the restore of a job's context onto a group of a size is refused; none: it is not (R110 to R112). A refused
restore changes nothing. -/
def Chip.restoreStatus (c : Chip) (x : Job) (size : Nat) : Option Nat :=
  match x.mid, if x.fromFirst then none else x.resumeGen with
  | some m, _ => if (m.settingId, m.version) = c.contextId x && m.size = size then none else some stContextMismatch
  | none, some k =>
    if (k.settingId, k.version) != c.contextId x then some stContextMismatch
    else if (findVariant (c.capsule x.setting) size x.tuple).isNone then some stNoVariant
    else none
  | none, none => none

/-- Sizes at which a job may be bound, largest first: those onto which its context can be restored (R110 to R112, R488). -/
def Chip.sizesOf (c : Chip) (x : Job) : List Nat :=
  (permittedSizes (c.capsule x.setting) x.tuple x.maxSize).filter fun s => (c.restoreStatus x s).isNone

/-- The largest size and the lowest group that R488 gives a job now. -/
def Chip.pick (c : Chip) (j : Nat) (x : Job) : Option Pick :=
  (c.sizesOf x).findSome? fun s => (groupBases s).findSome? fun b =>
    let k : Pick := ⟨s, (findVariant (c.capsule x.setting) s x.tuple).getD 0, b⟩
    if c.fits j x k then some k else none

/-- A waiting job that may be bound: it awaits no RESUME of its ring (R575), no page that it goes on from lies in host memory (R290,
R293), and no weight of its Setting is marked for reload (Table 12.5). -/
def Chip.bindable (c : Chip) (x : Job) : Bool :=
  x.ledger = .accepted && x.phase = .waiting && x.ringWait.isEmpty
    && (x.swapped.isEmpty || x.mid.isNone && (x.fromFirst || x.resumeGen.isNone))
    && !c.mem.weightMarks.any (·.1 = x.setting)

/-- The lowest free job slot; 32 jobs are bound at most (R488). -/
def Chip.freeSlot (c : Chip) : Option Nat :=
  (List.range 32).find? fun n => !c.jobs.any fun e => e.2.holds && e.2.slot = n

/-! ## What binding makes (R85, R446, R491, R492, R608) -/

/-- Allocations of the list, one after another; none where one finds no room. -/
def Chip.allocateAll (c : Chip) (tag : Nat) (xs : List (Bool × Nat)) : Option (List Nat × Chip) :=
  xs.foldl (fun acc x => acc.bind fun (ids, c) =>
    (c.allocate x.1 x.2 (some tag)).map fun (id, c) => (ids ++ [id], c)) (some ([], c))

/-- Every tensor but the weights and the checkpoint allocation are placed at the first binding (R85, R491), and the Cameo references
of the variant at each, since no stream goes on from another binding (R447), with any pool that swap has emptied (R495); none
where they find no room. -/
def Chip.place (c : Chip) (j : Nat) (x : Job) (k : Pick) : Option Chip :=
  let cap := c.capsule x.setting
  let cams := (cameoSizes cap k.variant).map fun n => (false, n)
  if x.ckptAlloc.isSome then
    let ds := (placedDecls cap).filter fun d => (x.tensors.lookup (tdId d)).isNone
    let sizes := ds.map (fun d => (decide (tdKind d = 1), tensorBytes cap x.tuple d)) ++ cams
    ((x.camAllocs.foldl Chip.freeAlloc c).allocateAll x.session sizes).map fun (ids, c) =>
      c.updJob j fun y => { y with tensors := y.tensors ++ (ds.map tdId).zip ids, camAllocs := ids.drop ds.length }
  else
    let ds := placedDecls cap
    let sizes := ds.map (fun d => (decide (tdKind d = 1), tensorBytes cap x.tuple d))
      ++ [(true, ckptBytes cap x.tuple x.maxSize)] ++ cams
    (c.allocateAll x.session sizes).map fun (ids, c) =>
      c.updJob j fun y => { y with tensors := (ds.map tdId).zip ids, ckptAlloc := ids[ds.length]?,
                                   camAllocs := ids.drop (ds.length + 1) }

/-- A ring as a job that has ended leaves it: what it counted is no business of the next job (R573). -/
def RingRun.left (r : RingRun) : RingRun := { r with committed := 0, owed := none, back := 0, all := 0, fenceStamp := none }

/-- Everything a job has placed is freed (R491, R492), and its rings are another job's. -/
def Chip.freeJob (c : Chip) (j : Nat) (x : Job) : Chip :=
  let c := ((c.jobRings x).filter fun r => c.ringCarries r x.session).foldl (fun c r => c.updRingRun r RingRun.left) c
  let c := (x.tensors.map (·.2) ++ x.ckptAlloc.toList ++ x.camAllocs).foldl Chip.freeAlloc c
  c.updJob j fun y => { y with tensors := [], ckptAlloc := none, camAllocs := [], gens := [none, none], mid := none,
                               pools := [] }

/-- A chunk of the input buffer: its plaintext, none where its tag is wrong (R606). -/
def Chip.inputChunk (c : Chip) (x : Job) (aad : List Byte) (number len i : Nat) : Option (List Byte) :=
  let n := min 65536 (len - 65536 * i)
  let bs := c.hostRead (x.inAddr + 64 + 65552 * i) (n + 16)
  Config.gcmDecrypt (c.session x.session).keyIn (chunkIv number i) aad (bs.take n) (bs.drop n)

/-- The heads that carry the pages of a job's input buffer take its reads (R540). -/
def Chip.inputReadable (c : Chip) (x : Job) : Bool := (c.headsOf x.inAddr (max 64 x.inBytes)).all c.headOpen

/-- The input plaintext, `t` bytes; none: INPUT_AUTH (R606, R608). -/
def Chip.inputPlain (c : Chip) (x : Job) (t : Nat) : Option (List Byte) :=
  let hdr := c.hostRead x.inAddr 64
  let h := leNat hdr
  let number := fld h 447 384
  let len := fld h 383 320
  let chunks := fld h 319 288
  let aad := hdr.drop 16
  match Config.gcmDecrypt (c.session x.session).keyIn (chunkIv number u32max) aad [] (hdr.take 16) with
  | none => none
  | some _ =>
    if fld h 479 468 != x.session || t < len || chunks != ceilDiv len 65536 || x.inBytes < 64 + len + 16 * chunks then none
    else
      ((List.range chunks).foldl (fun acc i => acc.bind fun bs =>
        (c.inputChunk x aad number len i).map (bs ++ ·)) (some [])).map fun bs => padTo bs t

/-- Inputs decrypted into their mirrored allocations at the first binding; none: the job ends with INPUT_AUTH
(R492, R608). -/
def Chip.decryptInputs (c : Chip) (j : Nat) (x : Job) : Option Chip :=
  if x.inputsIn then some c
  else
    let cap := c.capsule x.setting
    (c.inputPlain x (inputPlainBytes cap x.tuple)).map fun bs =>
      let c := (inputPlan cap x.tuple).foldl (fun c (tid, off, n) => match c.tensorAlloc? x tid with
        | some a => c.allocWrite x.slot a 0 ((bs.drop off).take n)
        | none => c) c
      c.updJob j fun y => { y with inputsIn := true }

/-- A sync object as its declaration initialises it: every window closed (Table 2.15, R377). -/
def objOf (d : Nat) : SyncObj :=
  { val := match sdKind d with
      | 0 => .sem (sdInit d)
      | 1 => .slot (if sdInit d = 1 then .full else .empty) false
      | 2 => .window false
      | _ => .barrier,
    bank := sdBank d, off := sdOffset d, len := sdLength d, peer := sdPeer d }

/-- The sync objects of group-relative Bead `g`. -/
def objsOf (cap : Capsule) (v g : Nat) : Tbl SyncObj :=
  ((syncDecls cap v).filter (sdOwner · = g)).foldl (fun t d => t.put (sdObject d) (objOf d)) []

/-- Image 0 of every table section goes to the active bank, and the shadow banks are empty (R85, R239). -/
def Chip.bindTables (c : Chip) (cap : Capsule) (p : Nat) : Chip :=
  let c := c.updBead p fun b => { b with shadowFull := List.replicate 8 false }
  iter 8 (fun pos c => match tableImage cap pos 0 with
    | some img => c.writeTable (c.activeKey p pos) img
    | none => c) c

/-- A Bead of a new binding: its stream from instruction 0, its sync objects and tables, and the Locket mode of its Facet
(R85, R355, R365). -/
def Chip.bindBead (c : Chip) (j : Nat) (x : Job) (g : Nat) : Chip :=
  let cap := c.capsule x.setting
  let p := c.beadOf x g
  let c := c.updBead p fun b =>
    { b with job := some j, g := g, run := { RunSt.fresh with stream := streamOf cap x.variant g },
             objs := objsOf cap x.variant g, waits := [], stoodSince := c.now, replay := none, retry := [],
             writeFirst := (c.facet (physFacet p)).locketMode = 1 }
  c.bindTables cap p

/-- Streams of the variant receive the lowest free pairs (R446). -/
def Chip.bindStreams (c : Chip) (j : Nat) (x : Job) : Chip :=
  let y := c.jobCtx j x
  (variantStreams y.cap y.v).foldl (fun c e =>
    let d := streamDesc y e
    let ps := c.freePairs.take (cmGang d)
    let id := c.sched.nextId
    let c := { c with streams := c.streams ++ [newStream y id e (c.beadOf x (cmOwner d)) ps],
                      sched := { c.sched with nextId := id + 1 } }
    ps.foldl (fun c n => c.updPair n fun z => { z with stream := some id, area := newArea y e }) c) c

/-- Each Facet of the group receives its scratch slices (R386). -/
def Chip.bindSlices (c : Chip) (j : Nat) (x : Job) : Chip :=
  (groupFacets x.size x.base).zipIdx.foldl (fun c (f, r) =>
    c.updFacet f fun y => y.takeSlices (slicesFor (c.jobCtx j x) r) (.scratch x.slot)) c

/-- Reduction areas of the variant: every descriptor that a contribute names (R393). -/
def Chip.bindReductions (c : Chip) (j : Nat) (x : Job) : Chip :=
  let y := c.jobCtx j x
  let streams := sortDedup ((List.range x.beads).map (streamOf y.cap y.v))
  let reds := sortDedup (streams.flatMap fun s =>
    (sectionEntries y.cap secStream s 16).filterMap fun i => if iClass i = 4 && syOp i = 5 then some (syRed i) else none)
  reds.foldl (fun c e => c.initReduction x (y.consts e 2)) c

/-- A binding onto a Facet in retention requests its wake, and a Casket in retention wakes when any job is bound (R401). -/
def Chip.wakeFor (c : Chip) (fs : List Nat) : Chip :=
  iter 5 (fun f c =>
    let x := c.facet f
    let casket := if x.retention = 2 then some c.now else x.casketWake
    if fs.contains f then
      (if x.retention = 0 || x.retention = 3 then c
       else c.setFacet f { x with retention := 3, wakeStamp := some c.now, casketWake := casket })
    else if x.retention = 2 then c.setFacet f { x with retention := 1, casketWake := casket } else c) c

/-! ## Restores (R110 to R112, R289, R498, R682, R684) -/

/-- The step loop of a stream, its loop_begin's place and the enclosing ones, innermost first (R684). -/
def stepLoop (cap : Capsule) (stream : Nat) : (fuel pos : Nat) → List Nat → Option (Nat × List Nat)
  | 0, _, _ => none
  | fuel + 1, pos, outer =>
    match instrAt cap stream pos with
    | none => none
    | some i =>
      if isCtrl i 3 then
        (if loopSource i = 0 then some (pos, outer) else stepLoop cap stream fuel (pos + 1) (pos :: outer))
      else stepLoop cap stream fuel (pos + 1) (if isCtrl i 4 then outer.tail else outer)

/-- The run state of a stream that resumes from a checkpoint of step index `k`: at the first instruction of its step loop's
body with `k` iterations done, or past the loop when they are all done (R684, assumption 37, DEDUCED). -/
def resumeRun (x : Ctx) (stream k : Nat) : RunSt :=
  let n := streamLen x.cap stream
  let r := { RunSt.fresh with stream := stream, passed := k }
  match stepLoop x.cap stream n 0 [] with
  | none => r
  | some (at_, outer) =>
    let loop (pos it : Nat) : Loop :=
      { start := pos + 1, trip := loopTrips { x with i := (instrAt x.cap stream pos).getD 0 }, iter := it }
    let l := loop at_ k
    let r := { r with begun := k, step := if k = 0 then none else some (k - 1) }
    if k < l.trip then { r with pos := at_ + 1, loops := l :: outer.map (loop · 0) }
    else { r with pos := (matchEnd x.cap stream n 0 (at_ + 1)).getD at_ + 1, loops := outer.map (loop · 0) }

/-- The generation is readable in stacked memory: no burst of it is lost in both copies (R678). -/
def Chip.genReadable (c : Chip) (x : Job) (k : Ckpt) : Bool :=
  match x.ckptAlloc.bind c.alloc? with
  | none => false
  | some a =>
    let half := (a.bytes - 4096) / 2
    match c.allocRead a (4096 + half * ckptSlot k.step) (ckptBody k).length with
    | .ok _ => true
    | .error _ => false

/-- Tensors placed anew: all but session inputs and pools are written with zeros (R85, R581, assumption 38, DEDUCED). -/
def Chip.refresh (c : Chip) (x : Job) : Chip :=
  x.tensors.foldl (fun c (tid, id) =>
    let d := c.tensorDecl x tid
    if tdKind d = 1 || isPool (c.capsule x.setting) x.variant tid then c
    else match c.alloc? id with
      | some a => c.zeroAlloc a
      | none => c) c

/-- A resume or restart counts (R498); a pre-empted job's return to the point at which it stood is none. -/
def Chip.countResume (c : Chip) (j : Nat) (back : Bool) (step : Nat) : Chip :=
  if back then c
  else
    let c := c.updJob j fun y =>
      { y with resumes := satAdd u16max y.resumes 1, flags := y.flags ||| flFencedResumed, fromStep := step }
    { c with telem := { c.telem with resumes := satAdd u64max c.telem.resumes 1 } }

/-- Counters and flags of a job that starts at its first step, or at a checkpoint (R108, R154). -/
def Job.fromCkpt (x : Job) (k : Option Ckpt) : Job :=
  { x with flags := x.flags / 4 * 4 + (match k with
             | some g => g.flags % 4
             | none => 0),
           overflow := (k.map (·.overflow)).getD 0, invalid := (k.map (·.invalid)).getD 0,
           gens := if k.isSome then x.gens else [none, none] }

/-- The job starts at its first step: pools and sequences as R260 makes them, with no page in host memory. -/
def Chip.startFirst (c : Chip) (j : Nat) (x : Job) : Chip :=
  let c := c.updJob j fun y => { y.fromCkpt none with swapped := [] }
  match c.job? j with
  | some y => c.initKv (c.jobCtx j { y with size := x.size, variant := x.variant, base := x.base })
  | none => c

/-- The job resumes from a generation: its canonical tensors are written back, and every Bead stands in its step loop
(R110, R684). -/
def Chip.startAt (c : Chip) (j : Nat) (x : Job) (k : Ckpt) : Chip :=
  let c := k.tensors.foldl (fun c (tid, bs) => match c.tensorAlloc? x tid with
    | some a => c.allocWrite x.slot a 0 bs
    | none => c) c
  let c := c.updJob j (·.fromCkpt (some k))
  let c := (List.range x.beads).foldl (fun c g =>
    let p := c.beadOf x g
    c.updRun p fun r => resumeRun (c.jobCtx j x) r.stream k.step) c
  c.restoreKv (c.jobCtx j x)

/-- A group-relative place of a held transfer made physical, or back. -/
def Transfer.mapBeads (t : Transfer) (f : Nat → Nat) : Transfer :=
  { t with p := f t.p, remoteWait := t.remoteWait.map fun w => (f w.1, w.2), window := t.window.map fun w => (f w.1, w.2),
           dests := t.dests.map fun d => { d with p := f d.p, since := none }, remoteSince := none }

/-- A forwarded accumulator moved to other addresses (R185). -/
def RunSt.withFwd (r : RunSt) (f : Mem → Mem) : RunSt := { r with fwd := r.fwd.map f }

/-- A held transfer issues again: it reads its rows anew, and what it waits for it waits for from now on (R375, R682). -/
def Chip.reissue (c : Chip) (t : Transfer) : Chip :=
  match c.xferCtx t with
  | none => c
  | some x =>
    let d := dmaDesc x.cap x.v t.desc
    let id := c.sched.nextId
    let put (t : Transfer) : Chip := c.addTransfer { t with id := id }
    match t.remoteWait with
    | some _ => put { t with remoteSince := some c.now }
    | none => match c.dmaRows x d t.iter with
      | .rows rs none => match c.readRows x d rs with
        | .ok rows =>
          let header := if isHalo d then t.rows.getLast?.toList else []
          put { t with rows := rows ++ header, dests := t.dests.map fun e => c.newDest id (e.p, e.obj) }
        | .error at_ => c.poisonFence x.j (srcEnd d).tensor at_
      | .rows _ (some st) => (rowRaise x d st c).raised x
      | .lost tid at_ => c.poisonFence x.j tid at_
      | .busy => c

/-- The job goes on from its mid-step context: Locket images, sync objects, positions and rounding contexts come back, and
what was held issues again (R111, R355, R682). Its table banks are those of the binding (R241). -/
def Chip.startMid (c : Chip) (j : Nat) (x : Job) (m : MidCtx) : Chip :=
  let c := m.beads.foldl (fun c b =>
    let p := c.beadOf x b.g
    let c := { c with locket := c.locket.paste (lockKey p 0 0) b.locket }
    c.updBead p fun y => { y with run := b.run.withFwd fun f => Mem.paste [] (lockKey p 0 0) f, objs := b.objs }) c
  let c := c.updJob j fun y => { y with openGens := m.gens }
  let c := m.held.foldl (fun c t => c.reissue (t.mapBeads (c.beadOf x))) c
  (c.updJob j fun y => { y with mid := none }).restoreKv (c.jobCtx j x)

/-- A new binding's job starts, resumes or restarts (R498, R678). -/
def Chip.startJob (c : Chip) (j : Nat) (x : Job) : Chip :=
  match x.mid with
  | some m => c.startMid j x m
  | none =>
    let c := if x.resumeDue then c.refresh x else c
    let gen := if x.fromFirst then none else x.resumeGen
    match gen.filter (c.genReadable x) with
    | some k =>
      let c := if x.resumeDue then c.countResume j x.preempt k.step else c
      c.startAt j x k
    | none =>
      let c := if x.resumeDue then c.countResume j false 0 else c
      c.startFirst j x

/-- A ring's counters as a new job of it finds them: a COMMITTED that has come already is still to be passed on (R573). -/
def RingRun.anew (r : RingRun) : RingRun := { r with committed := 0, back := 0, all := 0, fenceStamp := none }

/-- A job is bound at a pick in a slot: everything of R85 and R393 is done before any Bead issues. -/
def Chip.bindAt (c : Chip) (j : Nat) (x : Job) (k : Pick) (slot : Nat) : Chip :=
  let y := { x.at k with slot := slot, phase := .bound, barriers := [], rounds := [], decisions := [],
                         latestBucket := if x.mid.isSome then x.latestBucket else [], preempt := false, resumeDue := false, fromFirst := false, ringFrom := none, openGens := [],
                         fenceRec := none }
  let c := c.setJob j y
  let c := (List.range y.beads).foldl (fun c g => c.bindBead j y g) c
  let c := ((c.bindStreams j y).bindSlices j y).bindReductions j y
  let c := if x.resumeDue then c
    else (c.jobRings y).foldl (fun c r => c.updRingRun r RingRun.anew) c
  let c := (c.jobRings y).foldl (fun c r => c.updRingRun r fun z => { z with collectives := 0 }) c
  let c := c.wakeFor (groupFacets y.size y.base)
  c.startJob j { x.at k with slot := slot }

/-- A burst of the job's session inputs is lost in both copies (R678). -/
def Chip.inputsLost (c : Chip) (x : Job) : Bool :=
  x.tensors.any fun (tid, id) => tdKind (c.tensorDecl x tid) = 1 && match c.alloc? id with
    | some a => match c.allocRead a 0 a.bytes with
      | .ok _ => false
      | .error _ => true
    | none => false

/-- What the scheduler does for one waiting job: it binds it if it can. Wrong inputs end it (R608), and so do lost ones when it would
resume or restart (R678). -/
def Chip.tryBind (c : Chip) (j : Nat) : Chip :=
  match c.job? j, c.freeSlot with
  | some x, some slot =>
    if !c.bindable x || !(x.inputsIn || c.inputReadable x) then c
    else match c.pick j x with
      | none => c
      | some k =>
        if x.resumeDue && c.inputsLost x then c.setJob j (x.close stDataLost)
        else match c.place j x k with
          | none => c
          | some c1 => match c1.job? j with
            | none => c
            | some x1 =>
              match c1.decryptInputs j x1 with
              | none => c.setJob j (x.close stInputAuth)
              | some c2 => match c2.job? j with
                | none => c
                | some x2 => c2.bindAt j x2 k slot
  | _, _ => c

/-! ## Victims (R493) -/

/-- Whether the free Beads and those of the jobs in `vs` hold a group of a size at which job `x` may run. -/
def Chip.roomWith (c : Chip) (x : Job) (vs : List Nat) : Bool :=
  let ok (b : Nat) : Bool :=
    let p := c.phys b
    c.beadFree b || (c.bead p).svc = .inService && (c.facet (beadFacet b)).svc = .inService && match (c.bead p).job with
      | some j => vs.contains j
      | none => false
  (c.sizesOf x).any fun s => (groupBases s).any fun b => (groupOf s b).all ok

/-- Victims in the order given, as few as make room for `x`; none where all of them do not. -/
def Chip.victims (c : Chip) (x : Job) (chosen : List Nat) : List Nat → Option (List Nat)
  | [] => if c.roomWith x chosen then some chosen else none
  | j :: js => if c.roomWith x chosen then some chosen else c.victims x (chosen ++ [j]) js

/-- When the first waiting job cannot be bound, bound jobs of classes that its class pre-empts are chosen to yield, latest
first (R493). -/
def Chip.choosePreempt (c : Chip) : Chip :=
  match (c.jobsBy fun y => y.ledger = .accepted && y.phase = .waiting).head? with
  | none => c
  | some w => match c.job? w with
    | none => c
    | some x =>
      let cands := (c.jobsBy fun y => y.phase = .bound && x.cls < y.cls).reverse
      match c.victims x [] cands with
      | some vs => vs.foldl (fun c j => c.updJob j fun y => { y with preempt := true }) c
      | none => c

/-! ## Retention of the Caskets (R400) -/

/-- With no job bound anywhere, each Casket of a Facet in Locket retention writes back its dirty lines and enters
retention. -/
def Chip.casketRetention (c : Chip) : Chip :=
  if c.jobs.any fun e => e.2.holds then c
  else iter 5 (fun f c =>
    let x := c.facet f
    if x.retention = 1 then c.setFacet f { x with retention := 2, dirty := [], casketWake := none } else c) c

/-- BIND_JOB: the scheduler considers the waiting jobs in order (R488, R493). None is bound during a map-epoch barrier (R432); what a
binding writes to a pseudo-channel whose requests wait joins its queue (R427, R522). -/
def bindJob (c : Chip) : Chip :=
  if c.serves && !c.barrierOn then
    let c := (c.jobsBy c.bindable).foldl Chip.tryBind c
    c.choosePreempt.casketRetention
  else c

def execBindJob (s : State) : Out := onChip .bindJob s bindJob

/-! ## Unbinding (R111, R389, R446, R494) -/

/-- Nothing that a job's streams started is still under way. -/
def Chip.quiet (c : Chip) (j : Nat) : Bool :=
  !(c.transfers.any (·.job = j) || c.tableLoads.any (·.job = j) || c.walks.any (·.job = j) || c.edits.any (·.job = j))

/-- Every stream of a bound job has finished, and what it started is complete. -/
def Chip.finished (c : Chip) (j : Nat) (x : Job) : Bool :=
  x.phase = .bound && (c.groupBeads x).all (fun p => (c.bead p).run.ended && (c.bead p).run.parked.isEmpty) && c.quiet j

/-- A transfer that is held: it waits for a window or for slots that are not empty, and has moved nothing (R682). -/
def Transfer.held (t : Transfer) : Bool := t.remoteWait.isSome || t.dests.all (·.st = .waiting) && !t.dests.isEmpty

/-- A mid-step context can be saved: every Bead waits at a yield or has ended, nothing but held transfers is under way, and
no slot is FILLING or holds a block that has still to be forwarded (R111, R296, R494, R682). -/
def Chip.savable (c : Chip) (j : Nat) (x : Job) : Bool :=
  x.phase = .bound && c.yieldsMidStep x && (c.groupBeads x).any (fun p => (c.bead p).run.yielded)
    && (c.groupBeads x).all (fun p => (c.bead p).run.yielded || (c.bead p).run.ended)
    && c.transfers.all (fun t => t.job != j || t.held) && !c.tableLoads.any (·.job = j) && !c.walks.any (·.job = j)
    && !c.edits.any (·.job = j) && !c.reports.any (·.job = j) && !c.contribs.any (·.job = j)
    && (c.groupBeads x).all fun p => (c.bead p).objs.all fun o => match o.2.val with
        | .slot .filling _ => false
        | .slot _ f => !f
        | _ => true

/-- The post fields of the yields at which Beads wait are made: those yields are over (R89, R98, R111). -/
def Chip.endYields (c : Chip) (j : Nat) (x : Job) : Chip :=
  (c.groupBeads x).foldl (fun c p =>
    let b := c.bead p
    if b.run.yielded then c.postObj j p (((instrAt (c.capsule x.setting) b.run.stream b.run.pos).map iPost).getD noObj) else c) c

/-- A stream position as a context holds it: past the yield it waited at. The waits of what is in progress begin anew. -/
def RunSt.saved (r : RunSt) : RunSt :=
  let r := { r with parked := r.parked.map fun (k : Parked) => { k with waits := [] } }
  if r.yielded then { r with yielded := false, pos := r.pos + 1 } else r

/-- The mid-step context of a job (R111), with the checkpoint generations that Beads ahead have opened (R108). -/
def Chip.saveMid (c : Chip) (j : Nat) (x : Job) : MidCtx :=
  { size := x.size, settingId := (c.contextId x).1, version := (c.contextId x).2,
    beads := (List.range x.beads).map fun g =>
      let b := c.bead (c.beadOf x g)
      { g := g, locket := c.locket.cut (lockKey (c.beadOf x g) 0 0) (lockKey (c.beadOf x g + 1) 0 0),
        run := b.run.saved.withFwd fun f => f.cut (lockKey (c.beadOf x g) 0 0) (lockKey (c.beadOf x g + 1) 0 0), objs := b.objs },
    gens := x.openGens, held := (c.transfers.filter (·.job = j)).map fun t => t.mapBeads fun p => (c.bead p).g }

/-- The Beads, scratch slices and pairs of a job are free again, every row of them written with zeros (R389, R446). -/
def Chip.leaveGroup (c : Chip) (j : Nat) (x : Job) : Chip :=
  let c := c.dropInFlight j
  let c := (c.groupBeads x).foldl (fun c p =>
    let c := { c with locket := c.locket.clear (lockKey p 0 0) (lockKey (p + 1) 0 0) }
    c.updBead p fun b => { b with job := none, g := 0, run := RunSt.fresh, objs := [], waits := [], replay := none, retry := [] }) c
  let c := { c with scratch := c.scratch.clear (scratchKey x.slot 0 0) (scratchKey (x.slot + 1) 0 0) }
  let c := (c.streams.filter (·.job = j)).foldl (fun c s =>
    s.pairs.foldl (fun c n => c.updPair n fun z => { z with stream := none, area := PairArea.empty }) c) c
  let c := { c with streams := c.streams.filter (·.job != j) }
  iter 5 (fun f c =>
    let y := c.facet f
    let y := y.freeSlices x.slot
    c.setFacet f (if (groupFacets x.size x.base).contains f then { y with idleSince := c.now } else y)) c

/-- A job that has left its group waits or is at its end. -/
def Job.left (x : Job) : Job :=
  let x := { x with phase := .waiting, barriers := [], rounds := [], decisions := [], openGens := [] }
  match x.ending with
  | some st => x.close st
  | none => x

/-- UNBIND: a job leaves its group: one that has stopped, one whose streams have all finished, one whose mid-step context is
to be saved (R389, R490, R494, R507). In the device-fault state one that has stopped stays where it is (R517). -/
def unbind (j : Nat) (c : Chip) : Chip :=
  match c.job? j with
  | none => c
  | some x =>
    if x.phase = .stopping then (if c.pkg.deviceFault then c else ((c.setJob j x.left).leaveGroup j x).casketRetention)
    else if c.finished j x then
      let x := { x with ending := some (if x.cancel then stCancelled else stOK) }
      ((c.setJob j x.left).leaveGroup j x).casketRetention
    else if c.savable j x then
      let c := c.endYields j x
      match c.job? j with
      | some x =>
        if x.phase != .bound then c
        else
          let y := { x with mid := some (c.saveMid j x), resumeDue := true }
          ((c.setJob j y.left).leaveGroup j x).casketRetention
      | none => c
    else c

def execUnbind (j : Nat) (s : State) : Out := onChip (.unbind j) s (unbind j)

/-! ## Ends (R484 to R486, R489, R609) -/

/-- RUN_LIMIT_EXPIRY: a bound job whose run time has reached its limit ends with JOB_LIMIT (R489). -/
def runLimitExpiry (j : Nat) (c : Chip) : Chip :=
  match c.job? j with
  | some x => if x.phase = .bound && x.runLimit ≤ x.runTicks then c.endJob j stJobLimit else c
  | none => c

def execRunLimitExpiry (j : Nat) (s : State) : Out := onChip (.runLimitExpiry j) s (runLimitExpiry j)

/-- An earlier job of the queue whose completion record is not written; sequence numbers go round modulo 0xFFFF_FFFF. -/
def Chip.earlierOpen (c : Chip) (x : Job) : Bool :=
  c.jobs.any fun e => e.2.queue = x.queue && e.2.ledger != .done && e.2.seq != x.seq
    && (x.seq + u32max - e.2.seq) % u32max < 2 ^ 31

/-- The output buffer's header, written for a job that ends OK: its tag and bytes 16 to 63 (R606, R609). -/
def Chip.outputHeader (c : Chip) (x : Job) : Chip :=
  let aad := bufferAad magicOut x.session x.number x.outEnd
  let (_, tag) := Config.gcmEncrypt (c.session x.session).keyOut (chunkIv x.number u32max) aad []
  c.hostWrite x.outAddr (tag ++ aad)

/-- The completion record (Table 14.4, R486). -/
def completionRec (x : Job) (st now : Nat) : Record :=
  { typ := 2, status := st, seq := x.seq, tag := x.tag, stamp := now, descIndex := x.descIndex, buckets := x.tuple,
    flags := x.flags ||| (if boundMissed x.stamp now x.bound then flBoundMissed else 0), resumes := x.resumes,
    overflow := x.overflow, invalid := x.invalid, margin := boundMargin x.stamp now x.bound, fromStep := x.fromStep,
    size := x.size }

/-- A CLOSING session with no job left is FREE, its keys erased (R470). -/
def Chip.settleSession (c : Chip) (n : Nat) : Chip :=
  if (c.session n).st = .closing && c.sessionJobs n = 0 then c.setSession n SessionSt.free else c

/-- The heads that have carried the job's output writes, its header's with them (R541). -/
def Chip.outputHeads (c : Chip) (x : Job) : List Nat :=
  sortDedup (x.outHeads ++ if x.ending.getD stOK = stOK then c.headsOf x.outAddr 64 else [])

/-- A zero-length read on a head is answered now; of a head whose Clasp is fenced none is asked (R541, assumption 109, DEDUCED). -/
def Chip.flushable (c : Chip) (h : Nat) : Bool := c.headOpen h || (c.clasp h).svc != .inService

/-- The zero-length reads that make what those heads have carried visible (R541). -/
def Chip.flushOutputs (c : Chip) (hs : List Nat) : Chip := (hs.filter c.headOpen).foldl (fun c h => c.send (.flushRead h)) c

/-- Completion records are written: the part takes work, or the record is one that a tamper response still owes (R592). -/
def Chip.records (c : Chip) (x : Job) : Bool :=
  c.serves || (c.pkg.power = .running && c.pkg.tampered && x.ending = some stTampered)

/-- JOB_COMPLETE: a job at its end has its completion record written, in sequence order where the queue asks for it, once a read on
every head that has carried its outputs has made them visible; what it placed is freed (R484, R491, R492, R499, R541). -/
def jobComplete (j : Nat) (c : Chip) : Chip :=
  match c.job? j with
  | none => c
  | some x =>
    let q := c.queue x.queue
    let hs := c.outputHeads x
    if x.ledger = .completing && c.records x && !c.barrierOn && c.headOpen q.active && hs.all c.flushable && !(q.inOrder = 1 && c.earlierOpen x) then
      let now := c.now
      let st := x.ending.getD stOK
      let c := if st = stOK then c.outputHeader x else c
      let c := c.flushOutputs hs
      let missed := boundMissed x.stamp now x.bound
      let c := if missed then
          { c with telem := { c.telem with boundMissed := modAt c.telem.boundMissed x.cls (satAdd u64max · 1) } } else c
      let idx := q.jNext
      let c := c.freeJob j x
      let c := c.updJob j fun y => { y with ledger := .done, doneIdx := idx, headerDone := st = stOK }
      (c.writeRecord x.queue (completionRec x st now)).settleSession x.session
    else c

def execJobComplete (j : Nat) (s : State) : Out := onChip (.jobComplete j) s (jobComplete j)

end Sys2Proof.Machine
end

