-- ==== Sys2Proof/Machine/Swap.lean ====
section
/-! DEFINITION. Pages of pre-empted jobs in host memory (R292, R293, R495, R610). -/
namespace Sys2Proof.Machine

/-! ## Swap (R292, R293, R495, R610) -/

/-- A job that waits at a resume point. -/
def Job.atResume (y : Job) : Bool := y.ledger = .accepted && y.phase = .waiting && y.resumeDue && y.mid.isNone

/-- A job whose pages move, with its place in its capsule: a pre-empted one that waits at a resume point, and where pages come back also
one that a fence has reached since (R292, R293). -/
def Chip.swapCtx (c : Chip) (back : Bool) (j : Nat) : Option Ctx :=
  match c.job? j with
  | some y => if y.atResume && (y.preempt || (back && !y.swapped.isEmpty)) && !c.barrierOn then some (c.jobCtx j y) else none
  | none => none

/-- A generation's copy of a sequence's state. -/
def Ckpt.seq? (k : Ckpt) (sd : Nat) : Option SeqSt := (k.tensors.lookup (sqState sd)).map (seqOf sd)

/-- Frames of a pool that a valid record names in stacked memory, in the live state or in a checkpoint copy. -/
def Chip.pagesIn (c : Chip) (x : Ctx) (pool : Nat) : List Nat :=
  let named (s : SeqSt) : List Nat := (s.recs.filter fun r => r.valid && !pteHost r.pte).map fun r => pteFrame r.pte
  c.framesNamed x pool ++ ((seqDecls x.cap x.v).filter (sqPool · = pool)).flatMap fun sd =>
    (x.job.gens.filterMap id).flatMap fun k => (k.seq? sd).elim [] named

/-- A pre-empted job has pages in stacked memory. -/
def Chip.hasPages (c : Chip) (j : Nat) : Bool := match c.swapCtx false j with
  | some x => (poolDecls x.cap x.v).any fun pd => !(c.pagesIn x (pdIndex pd)).isEmpty
  | none => false

/-- The memory that a waiting job of a higher class needs is taken (R495). -/
def Chip.memoryWanted (c : Chip) (cls : Nat) : Bool := (c.jobsBy c.bindable).any fun w => match c.job? w with
  | some y => y.cls < cls && (c.pick w y).any fun k => (c.place w y k).isNone
  | none => false

/-- The job whose pages go next: of the pre-empted ones that have pages, the lowest in the order of R487 (R495). -/
def Chip.swapNext (c : Chip) : Option Nat := ((c.jobsBy fun y => y.preempt && y.atResume).filter c.hasPages).getLast?

/-- Host address of a swap slot: a slot holds a frame's bytes and a tag (assumption 32, DEDUCED). -/
def swapAddr (s : SessionSt) (frameBytes slot : Nat) : Nat := s.swapAddr + slot * (frameBytes + 16)

/-- Two records name the same page. -/
def KvRec.samePage (a b : KvRec) : Bool :=
  a.valid && b.valid && a.base = b.base && pteFrame a.pte = pteFrame b.pte && pteHost a.pte = pteHost b.pte

/-- Record `rec_` of a state tensor's bytes changed, where it names the page that `old` names. -/
def patchPte (sd rec_ : Nat) (old : KvRec) (f : Nat → Nat) (bs : List Byte) : List Byte :=
  let s := seqOf sd bs
  match s.recs[rec_]? with
  | some r => if r.samePage old then patchBytes bs (arrayOff sd s.gen + 32 * rec_) { r with pte := f r.pte }.bytes else bs
  | none => bs

/-- The page table entry of record `rec_`, which is `old`, changed in the live state tensor and in every checkpoint copy that names
the same page (R292). -/
def Chip.movePte (c : Chip) (x : Ctx) (sd rec_ : Nat) (old : KvRec) (f : Nat → Nat) : Chip :=
  let fix (k : Ckpt) : Ckpt :=
    { k with tensors := k.tensors.map fun (t, bs) => (t, if t = sqState sd then patchPte sd rec_ old f bs else bs) }
  let c := match c.tensorRead x (sqState sd) 0 (stateBytes sd) with
    | .ok bs => c.tensorWrite x (sqState sd) 0 (patchPte sd rec_ old f bs)
    | .error _ => c
  c.updJob x.j fun y => { y with gens := y.gens.map (·.map fix) }

/-- The associated data of a swap move: sequence, record, host slot (R610). -/
def swapAad (seq rec_ slot : Nat) : List Byte := leBytes 2 seq ++ leBytes 2 rec_ ++ leBytes 4 slot

/-- Bytes of its session's swap region that a job's moved pages lie in, as first byte and end. -/
def Chip.swapSpans (c : Chip) (session : Nat) : List (Nat × Nat) :=
  (c.jobs.filter fun e => e.2.session = session).flatMap fun e =>
    let x := c.jobCtx e.1 e.2
    e.2.swapped.map fun k =>
      let fb := (poolExtents x.cap x.job.tuple (poolDecl x.cap x.v (sqPool (seqDecl x.cap x.v k.1)))).2
      (k.2.2.2 * (fb + 16), (k.2.2.2 + 1) * (fb + 16))

/-- A pool of which no page is in stacked memory any more gives its q-rows back (R495, assumption 117, DEDUCED). -/
def Chip.emptyPool (c : Chip) (x : Ctx) (pd : Nat) : Chip :=
  match c.job? x.j with
  | none => c
  | some y =>
    if (c.pagesIn { x with job := y } (pdIndex pd)).isEmpty then
      match y.tensors.lookup (pdTensor pd) with
      | some id => (c.freeAlloc id).updJob x.j fun y => { y with tensors := y.tensors.filter (·.1 != pdTensor pd) }
      | none => c
    else c

/-- A pool that has given its q-rows back takes new ones; none where there is no room. -/
def Chip.regainPool (c : Chip) (x : Ctx) (pd : Nat) : Option Chip :=
  match c.tensorAlloc? x.job (pdTensor pd) with
  | some _ => some c
  | none => (c.allocate false (tensorBytes x.cap x.job.tuple ((findTensor x.cap (pdTensor pd)).getD 0)) (some x.job.session)).map
      fun (id, c) => c.updJob x.j fun y => { y with tensors := y.tensors ++ [(pdTensor pd, id)] }

/-- A page of a pre-empted job goes to host slot `slot`, under the swap key, while a waiting job of a higher class lacks the memory and no
job lower in the order of R487 has pages left (R292, R495, R610). -/
def swapOut (j seq rec_ slot : Nat) (c : Chip) : Chip :=
  match c.swapCtx false j with
  | none => c
  | some x =>
    if !c.memoryWanted x.job.cls || c.swapNext != some j then c else
    let sd := seqDecl x.cap x.v seq
    let pd := poolDecl x.cap x.v (sqPool sd)
    let fb := (poolExtents x.cap x.job.tuple pd).2
    let ss := c.session x.job.session
    match c.readSeq x sd with
    | .error _ => c
    | .ok s => match s.recs[rec_]? with
      | none => c
      | some r =>
        if !r.valid || pteHost r.pte || ss.swapBytes < (slot + 1) * (fb + 16)
            || (c.swapSpans x.job.session).any (fun k => k.1 < (slot + 1) * (fb + 16) && slot * (fb + 16) < k.2) then c
        else match c.tensorRead x (pdTensor pd) (pteFrame r.pte * fb) (pageBytes sd (pteFmt r.pte)) with
          | .error _ => c
          | .ok page =>
            let (cipher, tag) := Config.gcmEncrypt ss.keySwap (leBytes 12 ss.moveCtr) (swapAad seq rec_ slot) page
            let c := c.hostWrite (swapAddr ss fb slot) (cipher ++ tag)
            let c := c.updSession x.job.session fun k => { k with moveCtr := k.moveCtr + 1 }
            let c := c.movePte x sd rec_ r fun w => pteMove w true slot
            let c := c.updPool j (sqPool sd) fun k => { k with free := insertBy (· ≤ ·) (pteFrame r.pte) k.free }
            let c := c.updJob j fun y => { y with swapped := y.swapped ++ [(seq, rec_, ss.moveCtr, slot)] }
            c.emptyPool x pd

def execSwapOut (j seq rec_ slot : Nat) (s : State) : Out := onChip (.swapOut j seq rec_ slot) s (swapOut j seq rec_ slot)

/-- The place of a frame's first byte. -/
def Chip.framePlace (c : Chip) (x : Ctx) (pd frame fb : Nat) : Place :=
  match c.tensorAlloc? x.job (pdTensor pd) with
  | some a => c.allocPlace a 0 (frame * fb)
  | none => ⟨0, 0, 0⟩

/-- A swapped page returns to a new frame; one that fails its tag fences the job as poisoned data does, and its pools start
again (R290, R292, R293, R610). -/
def swapIn (j seq rec_ : Nat) (c : Chip) : Chip :=
  match c.swapCtx true j with
  | none => c
  | some x =>
    let sd := seqDecl x.cap x.v seq
    let pd := poolDecl x.cap x.v (sqPool sd)
    let fb := (poolExtents x.cap x.job.tuple pd).2
    let ss := c.session x.job.session
    match c.readSeq x sd, x.job.swapped.find? fun k => k.1 = seq && k.2.1 = rec_ with
    | .ok s, some k => match s.recs[rec_]?, (x.job.pool? (sqPool sd)).bind (·.free.head?) with
      | some r, some frame =>
        let slot := pteFrame r.pte
        let n := pageBytes sd (pteFmt r.pte)
        let bs := c.hostRead (swapAddr ss fb slot) (n + 16)
        match Config.gcmDecrypt ss.keySwap (leBytes 12 k.2.2.1) (swapAad seq rec_ slot) (bs.take n) (bs.drop n) with
        | none =>
          let at_ := c.framePlace x pd frame fb
          let c := c.updJob j fun y => { y with fromFirst := true, swapped := y.swapped.filter (· != k) }
          c.poisonFound j (some (pdTensor pd)) at_
        | some page => match c.regainPool x pd with
          | none => c
          | some c =>
            let c := match (c.job? j).bind fun y => c.tensorAlloc? y (pdTensor pd) with
              | some a => c.storeAt (c.allocPlace a 0) (frame * fb) page
              | none => c
            let c := c.movePte x sd rec_ r fun w => pteMove w false frame
            let c := c.updPool j (sqPool sd) fun q => { q with free := q.free.filter (· != frame) }
            c.updJob j fun y => { y with swapped := y.swapped.filter (· != k) }
      | _, _ => c
    | _, _ => c

def execSwapIn (j seq rec_ : Nat) (s : State) : Out := onChip (.swapIn j seq rec_) s (swapIn j seq rec_)

end Sys2Proof.Machine
end

