-- ==== Sys2Proof/Machine/Retention.lean ====
section
/-! DEFINITION. Retention of a Facet and the end of its wake (R399 to R401, R676). -/
namespace Sys2Proof.Machine

/-- No job holds a Bead of the Facet. -/
def Chip.facetIdle (c : Chip) (f : Nat) : Bool :=
  !c.jobs.any fun e => e.2.holds && (groupFacets e.2.size e.2.base).contains f

/-- IDLE_DELAY_EXPIRY: a Facet to whose Beads no job has been bound for the idle delay enters Locket retention, and its Casket
with it when no job is bound anywhere (R399, R400). -/
def idleDelayExpiry (f : Nat) (c : Chip) : Chip :=
  let x := c.facet f
  if c.pkg.power = .running && x.retention = 0 && x.idleDelay != u32max && c.facetIdle f && x.idleSince + x.idleDelay ≤ c.now then
    (c.setFacet f { x with retention := 1 }).casketRetention
  else c

def execIdleDelayExpiry (f : Nat) (s : State) : Out := onChip (.idleDelayExpiry f) s (idleDelayExpiry f)

/-- A Casket's wake is over 1,500 tk after its stamp (R401). -/
def FacetSt.casketAwake (x : FacetSt) (now : Nat) : FacetSt :=
  if x.casketWake.any fun w => w + wakeTicks ≤ now then { x with casketWake := none } else x

/-- WAKE_COMPLETE: 1,500 tk after its wake was stamped a Facet is awake, and its Beads may issue; a Casket that wakes by itself
takes lines again (R401, R676). -/
def wakeComplete (f : Nat) (c : Chip) : Chip :=
  let x := (c.facet f).casketAwake c.now
  match x.wakeStamp with
  | some w =>
    if x.retention = 3 && w + wakeTicks ≤ c.now then
      (c.jobs.foldl (fun c e =>
        if e.2.holds && (groupFacets e.2.size e.2.base).contains f
        then c.updGroup e.2 fun b => { b with stoodSince := c.now } else c) c).setFacet f
          { x with retention := 0, wakeStamp := none }
    else c.setFacet f x
  | none => c.setFacet f x

def execWakeComplete (f : Nat) (s : State) : Out := onChip (.wakeComplete f) s (wakeComplete f)

end Sys2Proof.Machine
end

