-- ==== Sys2Proof/Machine/Fault.lean ====
section
/-! DEFINITION. Faults of Beads, banks, segments, Facets, engine pairs, Clasps and edges, the device fault, and the return of
fenced domains (R504 to R518, R525, R546). -/
namespace Sys2Proof.Machine

/-! ## Records and jobs -/

/-- The record of a hardware fault (Table 15.6, kind 0). -/
def hwRec (dom cause die unit sub detail : Nat) : FaultRec :=
  { faultRec 0 dom cause die unit with subunit := sub, detail := detail }

/-- The record that a domain leaves or returns with: domain, cause, die and unit of its fault's record; where there is none,
or it has been overwritten, its cause is a free value (assumption 1, DESIGN CHOICE). -/
def Chip.domainRec (c : Chip) (kind : Nat) (n : Option Nat) (dom die unit : Nat) : FaultRec :=
  match n.bind fun n => if (c.flog.written + 2 ^ 32 - n) % 2 ^ 32 ≤ 4096 then c.flog.recs.find? (n % 4096) else none with
  | some r => { r with kind := kind, detail := 0, count := 1 }
  | none => faultRec kind dom (Config.freeCause c.flog.written % 256) die unit

/-- Several jobs are fenced by one fault, in the order of R487. -/
def Chip.fenceJobs (c : Chip) (f : Job → Bool) (o : Origin) : Chip := (c.jobsBy f).foldl (fun c j => c.fenceJob j o none) c

/-- Jobs picked by ledger index and entry, in the order of R487. -/
def Chip.jobsWith (c : Chip) (f : Nat → Job → Bool) : List Nat := (c.jobsBy fun _ => true).filter fun j => match c.job? j with
  | some y => f j y
  | none => false

/-- A job holds a Bead that a test picks. -/
def Chip.holdsBead (c : Chip) (x : Job) (f : Nat → Bool) : Bool := x.holds && (c.groupBeads x).any f

/-! ## The device-fault state (R517, R547) -/

/-- The device-fault state is announced: in device_state, with vector 128, and as a fatal internal error in AER (R547). -/
def Chip.announceFault (c : Chip) : Chip :=
  let new := { c with pkg := { c.pkg with devState := 3 } }
  let new := iter 2 (fun h c => if (c.head h).link = 2
    then (c.updHead h fun x => { x with aerFatal := x.aerFatal + 1 }).send (.aer h true) else c) new
  c.noteHeads new

/-- The part enters the device-fault state: bound jobs stop, the state is announced on the heads, and a record of kind 7 is
written. -/
def Chip.deviceFault (c : Chip) (cause : Nat) : Chip :=
  if c.pkg.deviceFault then c
  else
    let c := c.log (faultRec 7 domDevice cause dieDevice 0)
    let o : Origin := { domain := domDevice, cause := cause, die := dieDevice, unit := 0, detail := 0 }
    let c := c.fenceJobs (·.phase = .bound) o
    { c with pkg := { c.pkg with deviceFault := true } }.announceFault

/-! ## Beads, banks, segments, Facets and pairs -/

/-- A fault of a Bead or of one of its Locket banks: the Bead and its job are fenced; inside a fenced domain it counts
there (R505, R506). -/
def Chip.beadFault (c : Chip) (p dom cause sub detail : Nat) : Chip :=
  let b := c.bead p
  let f := c.facet (physFacet p)
  let s := f.segs.getD (physRow p) SegSt.fresh
  if f.svc != .inService then c.foldFault f.fenceRec
  else if s.svc != .inService then c.foldFault s.fenceRec
  else if b.svc != .inService then c.foldFault b.fenceRec
  else
    let n := c.flog.written
    let die := dieFacet (physFacet p)
    let c := c.log (hwRec dom cause die p sub detail)
    let c := c.setBead p { b with svc := .fenced, fences := b.fences + 1, fenceRec := some n }
    match b.job with
    | some j => c.fenceJob j { domain := dom, cause := cause, die := die, unit := p, detail := 0 } none
    | none => c

/-- Physical Beads of a row of a Facet. -/
def rowBeads (f row : Nat) : List Nat := (List.range 15).map (120 * f + 15 * row + ·)

/-- A fault of a row of a Facet's mesh: every job with a Bead in the row is fenced. -/
def Chip.segmentFault (c : Chip) (f row cause detail : Nat) : Chip :=
  let x := c.facet f
  let s := x.segs.getD row SegSt.fresh
  if x.svc != .inService then c.foldFault x.fenceRec
  else if s.svc != .inService then c.foldFault s.fenceRec
  else
    let n := c.flog.written
    let c := c.log (hwRec domSegment cause (dieFacet f) row 0 detail)
    let c := c.setFacet f { x with segs := x.segs.set row { svc := .fenced, fences := s.fences + 1, fenceRec := some n } }
    c.fenceJobs (fun y => c.holdsBead y fun p => physFacet p = f && physRow p = row)
      { domain := domSegment, cause := cause, die := dieFacet f, unit := row, detail := 0 }

/-- Dirty lines that a Facet's Casket drops: a job that wrote one in a frame of its pools restarts at its first step (R290, R512). -/
def Chip.poolLinesLost (c : Chip) (x : FacetSt) : Chip :=
  let inPool (y : Job) (l : DirtyLine) : Bool :=
    match c.plainAt? (l.line / 2 ^ 24) (l.line % 2 ^ 24 / 2) with
    | some a => y.tensors.any fun t => t.2 = a.id && isPool (c.capsule y.setting) y.variant t.1
    | _ => false
  { c with jobs := c.jobs.map fun (j, y) =>
      (j, if x.dirty.any fun l => l.job = some j && inPool y l then { y with fromFirst := true } else y) }

/-- Jobs that a Facet's fence or reset takes: those bound to its Beads, and those with a dirty line in its Casket (R505, R512). -/
def Chip.onFacet (c : Chip) (f j : Nat) (y : Job) : Bool :=
  (y.holds && (groupFacets y.size y.base).contains f) || (c.facet f).dirty.any (·.job = some j)

/-- A fault of a Facet: every job bound to its Beads and every job with a dirty line in its Casket is fenced, and the dirty
lines are dropped (R505, R512). -/
def Chip.facetFault (c : Chip) (f cause detail : Nat) : Chip :=
  let x := c.facet f
  if x.svc != .inService then c.foldFault x.fenceRec
  else
    let n := c.flog.written
    let c := c.log (hwRec domFacet cause (dieFacet f) 0 0 detail)
    let hit := c.jobsWith (c.onFacet f)
    let c := ((c.poolLinesLost x).dropLines f).updFacet f fun y => { y with svc := .fenced, fenceRec := some n }
    let o : Origin := { domain := domFacet, cause := cause, die := dieFacet f, unit := 0, detail := 0 }
    hit.foldl (fun c j => c.fenceJob j o none) c

/-- A fault of a Cameo engine pair: the job that holds it is fenced. -/
def Chip.pairFault (c : Chip) (e cause detail : Nat) : Chip :=
  let x := c.pair e
  if x.svc != .inService then c.foldFault x.fenceRec
  else
    let n := c.flog.written
    let c := c.log (hwRec domPair cause dieCameo e 0 detail)
    let c := c.setPair e { x with svc := .fenced, fences := x.fences + 1, fenceRec := some n }
    match x.stream.bind c.stream? with
    | some s => c.fenceJob s.job
        { domain := domPair, cause := cause, die := dieCameo, unit := e, detail := 0 } none
    | none => c

/-! ## Clasps and edges -/

/-- A port holds a message of a ring that has not been acknowledged whole. -/
def Chip.portCarries (c : Chip) (n r : Nat) : Bool :=
  (c.port n).txQueue.any (·.ring = r) || (c.port n).unacked.any fun b => b.ends.any (·.ring = r)

/-- A job has a transfer in flight on a Clasp's crypto engines or Strand ports: session output that pages of its head carry, or a
message of its ring at a port there (Table 15.2, R540, R577, assumption 39, DEDUCED). Session input is read from stacked memory
(R680), and passes no Clasp while the job runs. -/
def Chip.onClasp (c : Chip) (n : Nat) (j : Nat) (x : Job) : Bool :=
  x.phase = .bound
    && (c.transfers.any (fun t => t.job = j && ddKind (dmaDesc (c.capsule x.setting) x.variant t.desc) = 4
        && (c.outputHeadsOf x t.rows).contains n)
      || (c.jobRings x).any fun r => c.ringCarries r x.session && (List.range 12).any fun p => portClasp p = n && c.portCarries p r)

/-- A head's link has left L0: it is removed from every line's record, writes that waited for it go on, and its IDE stream is gone
(R536). -/
def Chip.linkDown (c : Chip) (h st : Nat) : Chip :=
  let c := c.updHead h fun x => { x with link := st, width := 0, rate := 0, ide := 0, cache := [] }
  { c with held := c.held.filter (·.2 != h) }.releaseBi

/-- The ports of a Clasp leave service with it; a fault of one of them is a fault inside the Clasp, of record `k` (R506, R546,
R577). -/
def Chip.dropPorts (c : Chip) (n k : Nat) : Chip :=
  iter 6 (fun i c =>
    let p := 6 * n + i
    if (c.port p).st = 6 then c
    else (c.setPort p { c.port p with st := 6, fenceRec := some k, txQueue := [], unacked := [] }).log (faultRec 3 domPort 0x10 (dieClasp n) p)) c

/-- A fault of a Clasp: it is fenced and out of service until a warm reset; its link goes down, its ports leave service, the
tick passes to the other Clasp, whose Pave has to take over (R25, R27, R505, R515, R516, R546). -/
def Chip.claspFault (c : Chip) (n cause detail : Nat) : Chip :=
  let x := c.clasp n
  if x.svc != .inService then c.foldFault x.fenceRec
  else
    let k := c.flog.written
    let c0 := (c.log (hwRec domClasp cause (dieClasp n) 0 0 detail)).log (faultRec 3 domClasp cause (dieClasp n) 0)
    let hit := c.jobsWith (c.onClasp n)
    let o : Origin := { domain := domClasp, cause := cause, die := dieClasp n, unit := 0, detail := 0 }
    let c1 := c0.updClasp n fun y => { y with svc := .fenced, fenceRec := some k, takeoverDue := some c.now }
    let c1 := (c1.linkDown n 3).dropPorts n k
    let c1 := hit.foldl (fun c j => c.fenceJob j o none) c1
    let c1 := { c1 with pkg := { c1.pkg with claspFault := true },
                        tick := { c1.tick with primary := if c1.tick.primary = n then 1 - n else c1.tick.primary } }
    let c1 := c0.noteHeads c1
    if (c1.clasp (1 - n)).svc != .inService then c1.deviceFault cause else c1

/-- PAVE_TAKEOVER: the other Clasp's Pave has taken over, and every queue configured on the fenced Clasp's head is active on
the surviving one (R516, R546). -/
def paveTakeover (c : Chip) : Chip :=
  if c.clasps.all (·.takeoverDue.isNone) then c
  else
    let c := iter 128 (fun q c =>
      let h := (c.queue q).head
      if (c.clasp h).takeoverDue.isSome then c.updQueue q fun x => { x with active := 1 - h } else c) c
    { c with clasps := c.clasps.map fun x => { x with takeoverDue := none } }

def execPaveTakeover (s : State) : Out := onChip .paveTakeover s paveTakeover

/-- An edge's retry has failed 16 times on one flit: the edge leaves service; a second one is a device fault (R510, R517). -/
def Chip.edgeFault (c : Chip) (e : Nat) : Chip :=
  if c.edgesOut.contains e then c
  else
    let (a, b) := edgeList.getD e (0, 1)
    let c := (c.log (hwRec domEdge 0x15 a b 0 16)).log (faultRec 3 domEdge 0x15 a b)
    let second := !c.edgesOut.isEmpty
    let c := { c with edgesOut := c.edgesOut ++ [e] }
    if second then c.deviceFault 0x15 else c

def execEdgeRetryExhausted (e : Nat) (s : State) : Out := onChip (.edgeRetryExhausted e) s fun c => if c.alive then c.edgeFault e else c

/-! ## Progress and self-test -/

/-- 2^20 fc at 940 MHz, 139,438.3 tk, in whole ticks (R45, Table 15.1). -/
def progressTicks : Nat := 139439

/-- BEAD_PROGRESS_EXPIRY: the instruction at which a running Bead stands, which waits on no object, slot or unit, has made no
progress for 2^20 fc (R45, R504, cause 0x05). -/
def beadProgressExpiry (p : Nat) (c : Chip) : Chip :=
  match c.canIssue p with
  | some x =>
    let b := c.bead p
    if b.waits.isEmpty && c.available p (iWait x.i) && !x.unitBusy && b.stoodSince + progressTicks ≤ c.now then
      c.beadFault p domBead 0x05 0 b.run.pos
    else c
  | none => c

def execBeadProgressExpiry (p : Nat) (s : State) : Out := onChip (.beadProgressExpiry p) s (beadProgressExpiry p)

/-- SELF_TEST_COMPLETE: once its job has left it, a fenced Bead's self-test ends; on its first fence and with the test
passed it returns, otherwise it leaves service (R508). -/
def selfTestComplete (p : Nat) (ok : Bool) (c : Chip) : Chip :=
  let b := c.bead p
  if c.alive && b.svc = .fenced && b.job.isNone then
    if ok && b.fences ≤ 1 then
      (c.setBead p { b with svc := .inService, fenceRec := none }).log
        (c.domainRec 2 b.fenceRec domBead (dieFacet (physFacet p)) p)
    else (c.setBead p { b with svc := .out }).log (c.domainRec 3 b.fenceRec domBead (dieFacet (physFacet p)) p)
  else c

def execSelfTestComplete (p : Nat) (ok : Bool) (s : State) : Out :=
  onChip (.selfTestComplete p ok) s (selfTestComplete p ok)

/-- A fenced segment, Facet or engine pair returns after its reset, or leaves service: a segment or pair on its second
fence, a Facet when its reset fails (Table 15.2). -/
def domainReturn (d : Domain) (ok : Bool) (c : Chip) : Chip :=
  match d with
  | .segment f row =>
    let x := c.facet f
    let s := x.segs.getD row SegSt.fresh
    if s.svc = .fenced && (rowBeads f row).all (fun p => (c.bead p).job.isNone) then
      let back := ok && s.fences ≤ 1
      let s' : SegSt := { s with svc := if back then .inService else .out, fenceRec := if back then none else s.fenceRec }
      (c.setFacet f { x with segs := x.segs.set row s' }).log
        (c.domainRec (if back then 2 else 3) s.fenceRec domSegment (dieFacet f) row)
    else c
  | .facet f =>
    let x := c.facet f
    let back := { x with svc := if ok then .inService else .out, inReset := false,
                         fenceRec := if ok then none else x.fenceRec }
    if x.svc = .fenced && c.facetIdle f then
      (c.setFacet f back).log (c.domainRec (if ok then 2 else 3) x.fenceRec domFacet (dieFacet f) 0)
    else if x.svc = .inService && x.inReset && c.facetIdle f then
      if ok then c.setFacet f back else (c.setFacet f back).log (c.domainRec 3 none domFacet (dieFacet f) 0)
    else c
  | .pair e =>
    let x := c.pair e
    if x.svc = .fenced && x.stream.isNone then
      let back := ok && x.fences ≤ 1
      (c.setPair e { x with svc := if back then .inService else .out, fenceRec := if back then none else x.fenceRec }).log
        (c.domainRec (if back then 2 else 3) x.fenceRec domPair dieCameo e)
    else c

def execDomainReturn (d : Domain) (ok : Bool) (s : State) : Out := onChip (.domainReturn d ok) s (domainReturn d ok)

end Sys2Proof.Machine
end

