-- ==== Sys2Proof/Machine/Locket.lean ====
section
/-! DEFINITION. Colliding accesses to a Locket bank (R361 to R365) and patrol scrubbing of the on-chip memories (R397, R398,
Table 11.10). -/
namespace Sys2Proof.Machine

/-- The writes of one port from row `row` of bank `bank` of Bead `p` on. -/
def Chip.rowWrite (c : Chip) (p bank row : Nat) (w : RowWrite) : Chip :=
  w.foldl (fun c (off, b) => c.lockWrite p bank (64 * row + off) [b]) c

/-- A command whose effect on the chip depends on the facts of the unit. -/
def onChipUnit (i : Instr) (s : State) (f : UnitFacts → Chip → Chip) : Out := onChip i s (f s.unit)

/-- A bank runs write-first: its Bead was bound so, or its collision detector failed at shipment (R365). -/
def writeFirst (u : UnitFacts) (c : Chip) (p bank : Nat) : Bool := (c.bead p).writeFirst || u.badBanks.contains (4 * p + bank)

/-- The requests of one fc on a bank: what retries comes before what is new, and of each requester its first one competes (R39). -/
def lockHeads (rs : List LockReq) : List LockReq := rs.foldl (fun acc r => if acc.any (·.who = r.who) then acc else acc ++ [r]) []

/-- The access that a port carries out by itself. -/
def Chip.portAccess (c : Chip) (p bank : Nat) (r : LockReq) : Chip :=
  match r.write with
  | some w => c.rowWrite p bank r.row w
  | none => c

/-- An access that the bank replays returns its rows as the writes have left them. -/
def Chip.replayed (c : Chip) (p bank port : Nat) (r : LockReq) : Chip :=
  c.updBead p fun b =>
    { b with replay := some { bank := bank, row := r.row, port := port, data := c.lockRead p bank (64 * r.row) (64 * r.rows) } }

/-- Two accesses of a bank have a row in common. -/
def rowsMeet (a b : LockReq) : Bool := a.row < b.row + b.rows && b.row < a.row + a.rows

/-- A busy warning of a bank is counted (R362, R365). -/
def Chip.busyWarning (c : Chip) (p bank : Nat) : Chip :=
  c.updBead p fun b => { b with busyWarnings := modAt b.busyWarnings bank (satAdd u32max · 1) }

/-- The accesses of both ports in one fc, `r0` on port 0 and `r1` on port 1. Where they meet in a row, a read returns its rows as
the write leaves them, on the main path by a replay that a busy warning counts, and of two writes that on port 1 lands last
(R361 to R364). -/
def Chip.portPair (c : Chip) (u : UnitFacts) (p bank : Nat) (r0 r1 : LockReq) : Chip :=
  let c' := (c.portAccess p bank r0).portAccess p bank r1
  if !rowsMeet r0 r1 then c'
  else
    let warned := if writeFirst u c p bank then c' else c'.busyWarning p bank
    match r0.write, r1.write with
    | none, none => c'
    | none, some _ => warned.replayed p bank 0 r0
    | some _, none => warned.replayed p bank 1 r1
    | some _, some _ => c'.replayed p bank 1 r1

/-- BANK_COLLISION_REPLAY: one fc of a bank, with the requests that come to it. Each port goes to its owner or to the lowest other
requester, a requester that loses retries, and what the ports carry out lands (R39, R361 to R365). -/
def bankCollisionReplay (p bank : Nat) (reqs : List LockReq) (u : UnitFacts) (c : Chip) : Chip :=
  if c.pkg.power != .running || (c.facet (physFacet p)).retention != 0 then c
  else
    let mine := ((c.bead p).retry.filter (·.1 = bank)).map (·.2) ++ reqs
    let heads := lockHeads mine
    let (g0, g1) := locketGrant bank (heads.map (·.who))
    let won (g : Option Nat) : Option LockReq := g.bind fun w => heads.find? (·.who = w)
    let lost := [g0, g1].foldl (fun rs g => g.elim rs fun w => rs.eraseP (·.who = w)) mine
    let c := c.updBead p fun b => { b with retry := b.retry.filter (·.1 != bank) ++ lost.map (bank, ·) }
    match won g0, won g1 with
    | some a, some b => c.portPair u p bank a b
    | some a, none => c.portAccess p bank a
    | none, some b => c.portAccess p bank b
    | none, none => c

def execBankCollisionReplay (p bank : Nat) (reqs : List LockReq) (s : State) : Out :=
  onChipUnit (.bankCollisionReplay p bank reqs) s (bankCollisionReplay p bank reqs)

/-- A correction is counted where the telemetry has a count (Tables 11.10, 19.11). -/
def Chip.countCorrected (c : Chip) (m : OnChip) : Chip :=
  match m with
  | .locketRow n _ => c.updBead (n / 4) fun b => { b with locketCorrected := satAdd u32max b.locketCorrected 1 }
  | .casketClean f => c.updFacet f fun x => { x with casketCorrected := satAdd u32max x.casketCorrected 1 }
  | .casketDirty f _ => c.updFacet f fun x => { x with casketCorrected := satAdd u32max x.casketCorrected 1 }
  | .tableStore _ _ => c
  | .syncStore _ _ => c

/-- An uncorrectable error is a fault of the domain of Table 11.10; a clean line is refetched. -/
def Chip.scrubFault (c : Chip) (m : OnChip) : Chip :=
  match m with
  | .locketRow n row => c.hwFound ⟨0x01, n / 4, n % 4, row⟩
  | .casketClean _ => c
  | .casketDirty f slice => c.hwFound ⟨0x07, f, 0, slice⟩
  | .tableStore p pos => c.hwFound ⟨0x03, p, 0, pos⟩
  | .syncStore p obj => c.hwFound ⟨0x02, p, 0, obj⟩

/-- The memory is clocked, so that patrol scrubbing reads it: no Locket, sync or table store of a Facet in retention or waking,
whose Beads' clocks stand still, and no Casket in retention or waking from it (R398 to R401, R676). -/
def Chip.scrubbable (c : Chip) (m : OnChip) : Bool :=
  let awake (p : Nat) : Bool := (c.facet (physFacet p)).retention = 0
  c.pkg.power = .running && match m with
    | .locketRow n _ => awake (n / 4)
    | .casketClean f => !(c.facet f).casketStill c.now
    | .casketDirty f _ => !(c.facet f).casketStill c.now
    | .tableStore p _ => awake p
    | .syncStore p _ => awake p

/-- LOCKET_PATROL_SCRUB: patrol scrubbing has read a row of an on-chip memory (R397, R398). -/
def locketPatrolScrub (m : OnChip) (r : ScrubResult) (c : Chip) : Chip :=
  if !c.scrubbable m then c
  else match r with
  | .clean => c
  | .corrected => c.countCorrected m
  | .uncorrectable => c.scrubFault m

def execLocketPatrolScrub (m : OnChip) (r : ScrubResult) (s : State) : Out :=
  onChip (.locketPatrolScrub m r) s (locketPatrolScrub m r)

end Sys2Proof.Machine
end

