-- ==== Sys2Proof/Machine/Thermal.lean ====
section
/-! DEFINITION. Sensor readings, thermal limiting and the thermal trip (R21, R416, R528, R529, Tables 12.4, 15.8), and the
telemetry intervals (R47, R649). Temperatures are in 1/16 degrees Celsius. -/
namespace Sys2Proof.Machine

/-- The temperature band of a stack: rows 0 to 3 of Table 12.4. -/
def tempBand (t : Int) : Nat := if t < 85 * 16 then 0 else if t < 95 * 16 then 1 else if t < 105 * 16 then 2 else 3

/-- Greatest of a list of readings; -32768 of none. -/
def hottest (ts : List Int) : Int := ts.foldl max (-32768)

/-- Junction readings of a Facet, and readings of its four stacks. -/
def junctionsOf (r : ThermalReading) (f : Nat) : List Int := (r.facet.drop (8 * f)).take 8
def stackReadings (r : ThermalReading) (f : Nat) : List Int := (r.stack.drop (4 * f)).take 4

/-- The junction readings of each die, in die order. -/
def dieReadings (r : ThermalReading) : List Int :=
  r.clasp ++ (List.range 5).map (fun f => hottest (junctionsOf r f)) ++ [r.cameo]

/-- The record of a thermal condition (Table 15.7), with the domain and the unit of what is hot. -/
def thermalRec (kind cause dom die unit : Nat) (t : Int) : FaultRec :=
  { faultRec kind dom cause die unit with detail := codeOf 32 t }

/-- A Facet moves to another FCLK point; its Beads issue nothing in this tick (R21). -/
def FacetSt.clock (x : FacetSt) (now p : Nat) : FacetSt := if x.fclk = p then x else { x with fclk := p, holdTick := some now }

/-- Limiting of a Facet after a reading: entered on any cause, left after two readings in a row that meet the leaving
condition (R528, Table 15.8). -/
def Chip.limitFacet (c : Chip) (r : ThermalReading) (f : Nat) : Chip :=
  let x := c.facet f
  let js := junctionsOf r f
  let ss := stackReadings r f
  let hot := hottest (js ++ ss)
  let enter := js.any (100 * 16 ≤ ·) || ss.any (95 * 16 ≤ ·)
  let leave := js.all (· < 92 * 16) && ss.all (· < 95 * 16)
  let x := { x with junction := js }
  if x.limiting then
    if !leave then c.setFacet f { x with cool := 0 }
    else if x.cool = 0 then c.setFacet f { x with cool := 1 }
    else (c.setFacet f { x.clock c.tick.count 0 with limiting := false, cool := 0 }).log (thermalRec 6 0x20 domFacet (dieFacet f) 0 hot)
  else if enter then
    (c.setFacet f { x.clock c.tick.count 1 with limiting := true, cool := 0 }).log (thermalRec 5 0x20 domFacet (dieFacet f) 0 hot)
  else c.setFacet f x

/-- What trips, as the log names it: the domain, the die, the unit and the reading. -/
structure Trip where
  dom : Nat
  die : Nat
  unit : Nat
  temp : Int
  deriving DecidableEq, Repr

/-- The domain of a junction sensor by its die: a Clasp, a Facet, or none for Cameo. -/
def domOfDie (d : Nat) : Nat := if d < 2 then domClasp else if d < 7 then domFacet else domNone

/-- The first reading that trips: a junction at 115 degrees or a stack at 105 (Table 15.8). -/
def tripOf (r : ThermalReading) : Option Trip :=
  match ((dieReadings r).zipIdx.map fun (t, d) => Trip.mk (domOfDie d) d 0 t).find? fun e => 115 * 16 ≤ e.temp with
  | some e => some e
  | none => (r.stack.zipIdx.map fun (t, s) => Trip.mk domStack (dieFacet (stackFacet s)) s t).find? fun e => 105 * 16 ≤ e.temp

/-- The telemetry interval in progress ends at the stamp at hand (R47, R649). -/
def Chip.intervalEnds (c : Chip) : Bool := c.telem.start < c.now && c.now % c.telem.nextInterval = 0

/-- Junction readings count in the telemetry interval to which their stamp belongs: one stamped with an interval's end in the next
(R44). -/
def Chip.noteMax (c : Chip) (ts : List Int) : Chip :=
  let t := c.telem
  if c.intervalEnds then { c with telem := { t with nextMax := List.zipWith max t.nextMax ts } }
  else { c with telem := { t with runMax := List.zipWith max (List.zipWith max t.runMax t.nextMax) ts,
                                  nextMax := List.replicate 8 (-32768) } }

/-- THERMAL_READING: a reading stamped at a multiple of 125,000 tk. Stacks change band, Facets enter or leave limiting, and a
trip sets the latch, with which the next tick edge stops every clock (R416, R528, R529). -/
def thermalReading (r : ThermalReading) (c : Chip) : Chip :=
  if c.now % 125000 != 0 || c.pkg.power = .off || c.pkg.power = .inReset || c.pkg.power = .stopped then c
  else
    let c := iter 20 (fun s c =>
      let t := r.stack.getD s 0
      c.updStack s fun x => { x with temp := t, band := tempBand t }) c
    let c := c.noteMax (dieReadings r)
    let c := iter 5 (fun f c => c.limitFacet r f) c
    match tripOf r with
    | none => c
    | some t =>
      let c := c.log (thermalRec 5 0x21 t.dom t.die t.unit t.temp)
      { c with pkg := { c.pkg with tripLatch := true } }

def execThermalReading (r : ThermalReading) (s : State) : Out := onChip (.thermalReading r) s (thermalReading r)

/-- TELEMETRY_INTERVAL_END: at a stamp that is a multiple of the interval length the interval in progress ends, and the next
begins with the length last written (R47, R649). -/
def telemetryIntervalEnd (r : PowerReading) (c : Chip) : Chip :=
  let t := c.telem
  if c.pkg.power = .running && c.intervalEnds then
    { c with telem := { t with interval := t.nextInterval, start := c.now, lastPower := r.package, lastDie := r.die,
                               lastMax := List.zipWith (fun a b => if a = -32768 then b else a) t.runMax t.lastMax,
                               runMax := t.nextMax, nextMax := List.replicate 8 (-32768) } }
  else c

def execTelemetryIntervalEnd (r : PowerReading) (s : State) : Out :=
  onChip (.telemetryIntervalEnd r) s (telemetryIntervalEnd r)

end Sys2Proof.Machine
end

