-- ==== Sys2Proof/Machine/Hbm.lean ====
section
/-! DEFINITION. Control of stacked memory: refresh, corrections and uncorrectable reads, slices, retraining and repair, lost
pseudo-channels and stack faults (R410 to R438, R678). -/
namespace Sys2Proof.Machine

/-- Bank (0 to 63) and row of a local granule (Table 12.2). -/
def granuleBank (n : Nat) : Nat := n / 4 % 64
def granuleRow (n : Nat) : Nat := n / 256

/-- Facet of a pseudo-channel, as a die. -/
def dieOfPc (pc : Nat) : Nat := dieFacet (pcFacet pc)

/-! ## Bursts, their code and their other copies (R414, R417 to R419) -/

/-- The 32 bytes of the burst that holds a place. -/
def Chip.burstBytes (c : Chip) (p : Place) : List Byte := c.hbm.readN ({ p with byte := p.byte / 32 * 32 } : Place).key 32

/-- A burst written whole. -/
def Chip.putBurst (c : Chip) (p : Place) (bs : List Byte) : Chip :=
  let p := { p with byte := p.byte / 32 * 32 }
  let c := c.openDetour p
  { c with hbm := c.hbm.writeN p.key bs }.cureBurst p.burst

/-- What a read of a burst gives: its data as it stands, corrected data, or nothing that may be used (R417). -/
inductive BurstRead where
  | clean
  | corrected (data : List Byte)
  | bad
  deriving DecidableEq, Repr

/-- The 36 symbols of a burst, pin by pin: data and checks, which are inverted in a poisoned burst (R417, R419). Data byte `i` is
taken as symbol `i` (assumption 107, DESIGN CHOICE: the manual does not place the bytes on the pins). -/
def Chip.burstWord (c : Chip) (p : Place) (poisoned : Bool) : List Nat :=
  let data := (c.burstBytes p).map (·.toNat)
  let checks := Config.checkSymbols data
  data ++ (List.range 4).map fun i => if poisoned then 255 - checks.getD i 0 % 256 else checks.getD i 0 % 256

/-- The symbols as they arrive: each beat in error on a pin is a bit of its symbol inverted. -/
def withErrors (word : List Nat) (errs : List PinError) : List Nat := errs.foldl (fun w e => modAt w e.pin (· ^^^ e.beats)) word

/-- Pins of the 36 that arrive with a wrong symbol: those of which some beat is in error. -/
def wrongPins (errs : List PinError) : Nat :=
  ((List.range 36).filter fun p => (errs.filter (·.pin = p)).foldl (fun b e => b ^^^ e.beats) 0 != 0).length

/-- A read of a burst through its code: an error on one pin is corrected, one on two or three pins is detected; what comes of more
is free (R417). A poisoned burst is uncorrectable whatever its pins do (R419). -/
def Chip.readBurst (c : Chip) (p : Place) (errs : List PinError) : BurstRead :=
  if c.poisonedAt p then .bad
  else
    match wrongPins errs with
    | 0 => .clean
    | 1 => .corrected (c.burstBytes p)
    | 2 | 3 => .bad
    | _ => match Config.manyPins (c.burstWord p false) (withErrors (c.burstWord p false) errs) with
      | some data => .corrected ((List.range 32).map fun i => BitVec.ofNat 8 (data.getD i 0))
      | none => .bad

/-! ## Refresh (R415) -/

/-- Quarter ticks of a refresh interval: 3.9 µs in the lowest band, 1.95 µs above. -/
def refreshQuarters (band : Nat) : Nat := if band = 0 then 1950 else 975

/-- REFRESH: a per-bank refresh that falls due is issued, or is owed while the pseudo-channel is held, at most 8 per bank. -/
def refresh (pc bank : Nat) (c : Chip) : Chip :=
  let x := c.pcSt pc
  let s := c.stack (pcStack pc)
  if refreshQuarters s.band ≤ 4 * (c.now - x.refreshed.get 0 bank) && x.st != 3 && s.st < 2
      && (c.pkg.power = .running || c.pkg.power = .booting) then
    if x.st = 1 then c.setPc pc { x with refreshed := x.refreshed.put bank c.now, owed := x.owed.put bank (min 8 (x.owed.get 0 bank + 1)) }
    else c.setPc pc { x with refreshed := x.refreshed.put bank c.now }
  else c

def execRefresh (pc bank : Nat) (s : State) : Out := onChip (.refresh pc bank) s (refresh pc bank)

/-! ## Slices and retraining (R413, R426 to R428) -/

/-- RETRAIN_START: a stack retrains when its temperature has moved 8 degrees since its last retrain began, or when an eye
margin is low (R428). -/
def retrainStart (st : Nat) (eyeLow : Bool) (c : Chip) : Chip :=
  let s := c.stack st
  if s.st = 0 && s.retrain.isNone && (eyeLow || 128 ≤ (s.temp - s.baseTemp).natAbs) then
    c.setStack st { s with st := 1, retrain := some (0, 0), baseTemp := s.temp }
  else c

def execRetrainStart (st : Nat) (eyeLow : Bool) (s : State) : Out :=
  onChip (.retrainStart st eyeLow) s (retrainStart st eyeLow)

/-- The next pseudo-channel of the stack from `i` on that is not lost. -/
def Chip.nextTrain (c : Chip) (st i : Nat) : Option Nat :=
  (List.range 32).find? fun k => i ≤ k && (c.pcSt (32 * st + k)).st != 3

/-- Whether a slice may begin on a pseudo-channel now (R413, R426, R432): not while a granule in it, its own or one detoured into
it, has another copy that is not re-mirrored. -/
def Chip.sliceFree (c : Chip) (pc : Nat) : Bool :=
  let s := c.stack (pcStack pc)
  let o := c.stack ((pcStack pc + 10) % 20)
  let behind (lost : Nat) : Bool := o.detour = some (partnerPc lost) && !o.remirrored
  (c.pcSt pc).st = 0 && s.slice.isNone && s.st < 2 && o.slice.isNone && o.st < 2 && c.mem.epochDue.isEmpty
    && (match s.lastSliceEnd with
      | some e => e + 2500 ≤ c.now
      | none => true)
    && !behind pc && !s.detour.any behind

/-- Whether the slice is one that the stack's retrain or its repairs call for. -/
def Chip.sliceWanted (c : Chip) (pc : Nat) (k : SliceKind) : Bool :=
  let s := c.stack (pcStack pc)
  match k with
  | .retrain => match s.retrain with
    | some (i, _) => c.nextTrain (pcStack pc) i = some (pc % 32)
    | none => false
  | .repair bank row => s.needRepair.contains { pc := pc % 32, bank := bank, row := row }

/-- SLICE_BEGIN: a slice holds one pseudo-channel (R426). -/
def sliceBegin (pc : Nat) (k : SliceKind) (c : Chip) : Chip :=
  if c.sliceFree pc && c.sliceWanted pc k then
    (c.updPc pc fun x => { x with st := 1 }).updStack (pcStack pc) fun s =>
      { s with slice := some { pc := pc, start := c.now, kind := k } }
  else c

def execSliceBegin (pc : Nat) (k : SliceKind) (s : State) : Out := onChip (.sliceBegin pc k) s (sliceBegin pc k)

/-- A retrain goes on with the next pseudo-channel from `i` on, or is over. -/
def Chip.trainFrom (c : Chip) (st i : Nat) : Chip := match c.nextTrain st i with
  | some k => c.updStack st fun s => { s with retrain := some (k, 0) }
  | none => c.updStack st fun s => { s with retrain := none, st := 0 }

/-- How far a retrain is after a slice on pseudo-channel `i` of its stack: six slices are one attempt; a failed attempt is
made again until the third in a row, at which the pseudo-channel is as good as lost (R428, R429). -/
def Chip.trainStep (c : Chip) (st i n : Nat) (ok : Bool) : Chip :=
  let pc := 32 * st + i
  if n < 5 then c.updStack st fun s => { s with retrain := some (i, n + 1) }
  else if ok then (c.updPc pc fun x => { x with badTrains := 0 }).trainFrom st (i + 1)
  else
    let bad := (c.pcSt pc).badTrains + 1
    let c := c.updPc pc fun x => { x with badTrains := bad }
    if bad < 3 then c.updStack st fun s => { s with retrain := some (i, 0) } else c.trainFrom st (i + 1)

/-- SLICE_END: the pseudo-channel runs again, the refreshes it owes are issued and its queue drains (R415, R427). -/
def sliceEnd (pc : Nat) (ok : Bool) (c : Chip) : Chip :=
  let st := pcStack pc
  match (c.stack st).slice with
  | none => c
  | some k =>
    if k.pc != pc then c
    else
      let c := c.updPc pc fun x => { x with st := 0, owed := [] }
      let c := (c.updStack st fun s => { s with slice := none, lastSliceEnd := some c.now }).drainQueue pc
      match k.kind, (c.stack st).retrain with
      | .retrain, some (_, n) => c.trainStep st (pc % 32) n ok
      | _, _ => c

def execSliceEnd (pc : Nat) (ok : Bool) (s : State) : Out := onChip (.sliceEnd pc ok) s (sliceEnd pc ok)

/-! ## Errors (R418 to R421, R423, R678) -/

/-- A row needs repair (R423). -/
def StackSt.need (s : StackSt) (r : RowRef) : StackSt :=
  if s.needRepair.contains r then s else { s with needRepair := s.needRepair ++ [r] }

/-- A corrected error: counted, and its row needs repair once the threshold is reached (R418, R423). -/
def Chip.corrected (c : Chip) (pc granule : Nat) : Chip :=
  let r : RowRef := { pc := pc % 32, bank := granuleBank granule, row := granuleRow granule }
  let c := c.updPc pc fun x => { x with corrected := satAdd u32max x.corrected 1 }
  c.updStack (pcStack pc) fun s =>
    let n := (s.rowErrs.lookup r).getD 0 + 1
    let s := { s with rowErrs := (r, n) :: s.rowErrs.filter (·.1 != r) }
    if c.mem.repairThreshold ≤ n then s.need r else s

/-- The repair threshold takes a value; rows whose corrected errors reach it need repair (R423). -/
def Chip.setThreshold (c : Chip) (v : Nat) : Chip :=
  { c with mem := { c.mem with repairThreshold := v },
           stackTab := c.stackTab.mapVals fun s => (s.rowErrs.filter (v ≤ ·.2)).foldl (fun s e => s.need e.1) s }

/-- An uncorrectable error is counted, with its row and stamp, and the row needs repair (R418, R423, R429). -/
def Chip.uncorrected (c : Chip) (pc granule : Nat) : Chip :=
  let row := granuleRow granule * 64 + granuleBank granule
  let r : RowRef := { pc := pc % 32, bank := granuleBank granule, row := granuleRow granule }
  let c := c.updPc pc fun x =>
    { x with uncorrectable := satAdd u32max x.uncorrectable 1, errRows := x.errRows.filter (·.1 != row) ++ [(row, c.now)] }
  c.updStack (pcStack pc) (·.need r)

/-- What every read of a burst leaves: a corrected one is counted and rewritten, an uncorrectable one counted (R418). Poison that
has been written is no new error of its row (assumption 108, DESIGN CHOICE). -/
def Chip.noteRead (c : Chip) (p : Place) (errs : List PinError) : Chip :=
  match c.readBurst p errs with
  | .clean => c
  | .corrected bs => (c.corrected p.pc p.granule).putBurst p bs
  | .bad => if c.poisonedAt p then c else c.uncorrected p.pc p.granule

/-- A failing burst of a copied position is rewritten from its other copy, which is read behind the writes that wait for it, or both
copies are poisoned when the read of that one, with the errors `other`, fails too (R414, R427, R678). The answer says whether the
data is kept. -/
def Chip.healBurst (c : Chip) (other : List PinError) (p : Place) (q r : Nat) : Bool × Chip :=
  let o := c.placeOf q ((r + 320) % 640) p.byte
  let c' := c.noteRead o other
  let behind := c.settled o.pc
  match behind.readBurst o other with
  | .clean => (true, c'.putBurst p (behind.burstBytes o))
  | .corrected bs => (true, c'.putBurst p bs)
  | .bad => (false, (c'.poisonBurst p.burst).poisonBurst o.burst)

/-! ## Repair (R422 to R425) -/

/-- Spare rows used in a bank, and whether a row can still be repaired. -/
def StackSt.used (s : StackSt) (r : RowRef) : Nat := (s.sparesUsed.lookup (r.pc, r.bank)).getD 0
def StackSt.repairable (u : UnitFacts) (s : StackSt) (r : RowRef) : Bool :=
  s.used r < u.spareRows && (s.repairList.contains r || s.repairList.length < 16)

/-- The errors of burst `i` among those of a read of several. -/
def errorsOf (errs : List BurstError) (i : Nat) : List PinError := (errs.filter (·.burst = i)).map (·.error)

/-- Weight tensors marked for reload: those of the allocations picked (Table 12.5, R433). -/
def Chip.markWeights (c : Chip) (f : Alloc → Bool) : Chip :=
  let new := c.settings.flatMap fun (h, s) => s.weights.filterMap fun (t, id) => match c.alloc? id with
    | some a => if f a && !c.mem.weightMarks.contains (h, t) then some (h, t) else none
    | none => none
  { c with mem := { c.mem with weightMarks := c.mem.weightMarks ++ new } }

/-- The row's bursts as the repair reads them and writes them back: one that is uncorrectable comes from its other copy, and
without one it is written poisoned, its weights marked for reload (R420, R422). -/
def Chip.writeBackRow (c : Chip) (pc bank row : Nat) (errs : List BurstError) : Chip :=
  iter 32 (fun i c =>
    let p : Place := ⟨pc, row * 256 + bank * 4 + i / 8, 32 * (i % 8)⟩
    let es := errorsOf errs i
    let c' := c.noteRead p es
    if c.readBurst p es != .bad then c'
    else match c.positionOf pc p.granule with
      | none => c'.poisonBurst p.burst
      | some (q, r) => match c.useOf q r with
        | .window | .mirrored _ => (c'.healBurst [] p q r).2
        | .plain a => (c'.poisonBurst p.burst).markWeights fun b => b.id = a.id
        | .none => c'.poisonBurst p.burst) c

/-- SOFT_REPAIR: in its slice, a row is read, replaced by a spare of its bank and written back; it enters the repair list
(R422, R423). -/
def softRepair (pc : Nat) (place : BankRow) (errs : List BurstError) (u : UnitFacts) (c : Chip) : Chip :=
  let st := pcStack pc
  let s := c.stack st
  let r : RowRef := { pc := pc % 32, bank := place.bank, row := place.row }
  match s.slice with
  | none => c
  | some k =>
    if k.pc = pc && k.kind = .repair place.bank place.row && s.needRepair.contains r && s.repairable u r then
      (c.writeBackRow pc place.bank place.row errs).updStack st fun s =>
        { s with needRepair := s.needRepair.filter (· != r),
                 repairList := if s.repairList.contains r then s.repairList else s.repairList ++ [r],
                 rowErrs := s.rowErrs.filter (·.1 != r),
                 sparesUsed := ((r.pc, r.bank), s.used r + 1) :: s.sparesUsed.filter (·.1 != (r.pc, r.bank)) }
    else c

def execSoftRepair (pc : Nat) (place : BankRow) (errs : List BurstError) (s : State) : Out :=
  onChipUnit (.softRepair pc place errs) s (softRepair pc place errs)

/-! ## Reads that meet errors (R414, R418 to R421, R678) -/

/-- The tensor of a Bead's job that an allocation holds. -/
def Chip.tensorOfAlloc (c : Chip) (x : Job) (id : Nat) : Option Nat :=
  match x.tensors.find? (·.2 = id) with
  | some t => some t.1
  | none => ((c.settings.find? x.setting).bind fun s => s.weights.find? (·.2 = id)).map (·.1)

/-- Poisoned data reaches its reader: the job of a Bead is fenced; a host read and a scrub get what their own command gives
(Table 12.5). -/
def Chip.deliverPoison (c : Chip) (p : Place) (a : Alloc) (r : Reader) : Chip :=
  match r with
  | .bead b => match (c.bead b).job with
    | some j => match c.job? j with
      | some x =>
        if x.camAllocs.contains a.id then c.poisonRefFence j p
        else match c.tensorOfAlloc x a.id with
          | some tid => c.poisonFence j tid p
          | none => c
      | none => c
    | none => c
  | _ => c

/-- A read meets a burst with errors. Corrected data is rewritten. A window or mirrored copy that is uncorrectable is rewritten from
the other one, which is read with the errors `other`; where both fail, and in a plain allocation, the burst is written poisoned,
a weight tensor is marked for reload, and the reader gets poison (R414, R418 to R420, R678). -/
def Chip.meetErrors (c : Chip) (p : Place) (errs other : List PinError) (rd : Reader) : Chip :=
  let c' := c.noteRead p errs
  if c.readBurst p errs != .bad then c'
  else match c.positionOf p.pc p.granule with
    | none => c'
    | some (q, r) => match c.useOf q r with
      | .window => (c'.healBurst other p q r).2
      | .mirrored a =>
        let (kept, c') := c'.healBurst other p q r
        if kept then c' else c'.deliverPoison p a rd
      | .plain a => ((c'.poisonBurst p.burst).markWeights fun b => b.id = a.id).deliverPoison p a rd
      | .none => c'

/-- A read of a pseudo-channel is made now: it is not lost, and no read waits for it (R427, R437). -/
def Chip.readsNow (c : Chip) (pc : Nat) : Bool := (c.pcSt pc).st = 0 && (c.stack (pcStack pc)).st < 2

/-- HBM_PATROL_SCRUB: patrol scrubbing reads the eight bursts of a granule (R421); it waits while requests to the pseudo-channel do. -/
def hbmPatrolScrub (pc granule : Nat) (errs : List BurstError) (c : Chip) : Chip :=
  if !c.readsNow pc then c
  else
    iter 8 (fun i c => c.meetErrors ⟨pc, granule, 32 * i⟩ (errorsOf errs i) [] .scrub)
      (c.updPc pc fun x => { x with scrubbed := x.scrubbed + 1 })

def execHbmPatrolScrub (pc granule : Nat) (errs : List BurstError) (s : State) : Out :=
  onChip (.hbmPatrolScrub pc granule errs) s (hbmPatrolScrub pc granule errs)

/-- UNCORRECTABLE_READ: a read finds errors in a burst (R414, R417 to R420, R678); no read is made while requests to the
pseudo-channel wait. -/
def uncorrectableRead (pc granule burst : Nat) (errs : ReadErrors) (rd : Reader) (c : Chip) : Chip :=
  if !c.readsNow pc then c else c.meetErrors ⟨pc, granule, 32 * burst⟩ errs.own errs.other rd

def execUncorrectableRead (pc granule burst : Nat) (errs : ReadErrors) (r : Reader) (s : State) : Out :=
  onChip (.uncorrectableRead pc granule burst errs r) s (uncorrectableRead pc granule burst errs r)

/-! ## Losing a pseudo-channel (R429 to R436) -/

/-- Whether a case of R429 holds: 0 three failed retrains, 1 a row that cannot be repaired, 2 more than 16 rows with
uncorrectable errors within 125,000 tk. -/
def Chip.lossDue (c : Chip) (u : UnitFacts) (pc reason : Nat) : Bool :=
  let x := c.pcSt pc
  let s := c.stack (pcStack pc)
  match reason with
  | 0 => 3 ≤ x.badTrains
  | 1 => s.needRepair.any fun r => r.pc = pc % 32 && !s.repairable u r
  | 2 => 16 < (x.errRows.filter fun e => c.now < e.2 + 125000).length
  | _ => false

/-- An allocation has a granule in the pseudo-channel. -/
def Chip.allocIn (c : Chip) (a : Alloc) (pc : Nat) : Bool :=
  (List.range (ceilDiv a.bytes 256)).any fun g => (c.allocPlace a 0 (256 * g)).pc = pc

/-- A job with a plain allocation. -/
def Chip.hasPlain (c : Chip) (x : Job) : Bool := (x.tensors.map (·.2) ++ x.camAllocs).any fun id =>
  match c.alloc? id with
  | some a => !a.mirrored
  | none => false

/-- Jobs whose pools have lost frames restart at their first step (R290). -/
def Chip.poolsLost (c : Chip) : Chip :=
  { c with jobs := c.jobs.map fun (j, x) =>
      (j, if x.tensors.any fun t => isPool (c.capsule x.setting) x.variant t.1 then { x with fromFirst := true } else x) }

/-- The data of a stack is lost, a fault of the whole device: what waits for it is cancelled, and every burst of it is poisoned until
it is written whole (R431, R438, assumption 54, DEDUCED). -/
def Chip.stackLost (c : Chip) (st cause : Nat) : Chip :=
  let c := iter 32 (fun i c => c.cancelQueue (32 * st + i)) c
  let c := c.updStack st fun s => { s with st := 3, lost := some [] }
  (c.markWeights fun _ => true).poolsLost.deviceFault cause

/-- A second pseudo-channel of a stack is lost, by the fault of record `n`: the stack leaves service with its data (R431, R525). -/
def Chip.stackOut (c : Chip) (st n : Nat) : Chip :=
  let c := c.log (faultRec 3 domStack 0x0C (dieFacet (stackFacet st)) st)
  (c.updStack st fun s => { s with fenceRec := some n }).stackLost st 0x0C

/-- A pseudo-channel is lost: it is fenced and has left service, every job with a plain allocation is fenced, its weights are
marked, and a map-epoch barrier is due; a second loss in one stack loses the stack (R429, R431 to R433). -/
def Chip.losePc (c : Chip) (pc reason : Nat) : Chip :=
  let st := pcStack pc
  let x := c.pcSt pc
  if 2 ≤ (c.stack st).st then c.foldFault (c.stack st).fenceRec
  else if 2 ≤ x.st then c.foldFault x.fenceRec
  else
    let n := c.flog.written
    let die := dieOfPc pc
    let c := (c.log (hwRec domPc 0x0C die pc 0 reason)).log (faultRec 3 domPc 0x0C die pc)
    let c := c.setPc pc { x with st := 2, fenceRec := some n, owed := [] }
    let c := c.updStack st fun s =>
      if (s.slice.map (·.pc)) = some pc then { s with slice := none, lastSliceEnd := some c.now } else s
    let c := if ((c.stack st).retrain.map (·.1)) = some (pc % 32) then c.trainFrom st (pc % 32 + 1) else c
    if (c.stack st).detour.isSome || c.mem.epochDue.any (fun e => pcStack e.1 = st) then c.stackOut st n
    else
      let c := c.poolsLost.markWeights fun a => c.allocIn a pc
      let c := c.fenceJobs c.hasPlain
        { domain := domPc, cause := 0x0C, die := die, unit := pc, detail := 0 }
      { c with mem := { c.mem with epochDue := c.mem.epochDue ++ [(pc, roundUp (c.now + 4) 16)] } }

/-- PC_LOSS: a pseudo-channel for which a case of R429 holds is declared lost. -/
def pcLoss (pc reason : Nat) (u : UnitFacts) (c : Chip) : Chip := if c.lossDue u pc reason then c.losePc pc reason else c

def execPcLoss (pc reason : Nat) (s : State) : Out := onChipUnit (.pcLoss pc reason) s (pcLoss pc reason)

/-- The detour of a lost pseudo-channel is installed: its lines leave the Casket without write-back, and one slice of the Casket holds
the bits of its detour granules from now on (R430, R432, R434). -/
def Chip.installDetour (c : Chip) (pc : Nat) : Chip :=
  let c := c.updPc pc fun x => { x with st := 3 }
  let c := c.updStack (pcStack pc) fun s => { s with detour := some pc, written := [] }
  c.updFacet (pcFacet pc) fun x =>
    { x with dirty := x.dirty.filter fun l => l.line / 2 ^ 24 != pc }.takeSlices 1 .detour

/-- The first training after a cold reset: a pseudo-channel that fails it is lost before the first acceptance, and the first map holds
its detour; nothing has a copy there that would be re-mirrored (R429, R436). A second one in a stack loses the stack (R431). -/
def Chip.firstTraining (c : Chip) (u : UnitFacts) : Chip :=
  (u.deadPcs.filter (· < 640)).foldl (fun c pc =>
    if 2 ≤ (c.pcSt pc).st || (c.stack (pcStack pc)).st = 3 then c
    else
      let n := c.flog.written
      let c := (c.log (hwRec domPc 0x0C (dieOfPc pc) pc 0 0)).log (faultRec 3 domPc 0x0C (dieOfPc pc) pc)
      let c := c.updPc pc fun x => { x with st := 2, fenceRec := some n }
      if (c.stack (pcStack pc)).detour.isSome then c.stackOut (pcStack pc) n else c.installDetour pc) c

/-- MAP_EPOCH_BARRIER: the barrier that is due, once no slice is in progress any more, cancels what waits for its pseudo-channel and
installs its detour, and the map epoch rises (R432, R434). -/
def mapEpochBarrier (c : Chip) : Chip :=
  match c.mem.epochDue with
  | (pc, t) :: rest =>
    if c.now < t || c.stackTab.any (·.2.slice.isSome) then c
    else
      let c := (c.cancelQueue pc).installDetour pc
      let c := c.updStack (pcStack pc) fun s => { s with remirrored := false }
      { c with mem := { c.mem with mapEpoch := (c.mem.mapEpoch + 1) % 2 ^ 32, epochDue := rest } }
  | [] => c

def execMapEpochBarrier (s : State) : Out := onChip .mapEpochBarrier s mapEpochBarrier

/-- One granule copied from its other copy into its place, poison with it. -/
def Chip.copyGranule (c : Chip) (q r : Nat) : Chip :=
  let p := c.placeOf q r 0
  let o := c.placeOf q ((r + 320) % 640) 0
  iter 8 (fun b c =>
    let p := { p with byte := 32 * b }
    let o := { o with byte := 32 * b }
    if c.poisonedAt o then (c.openDetour p).poisonBurst p.burst else c.putBurst p (c.burstBytes o)) c

/-- A re-mirror goes on: no request of the stack or of its partner waits, and no map-epoch barrier is on (R427, R432, R437). -/
def Chip.remirrorReady (c : Chip) (st : Nat) : Bool :=
  let o := (st + 10) % 20
  !c.barrierOn && (c.stack st).st < 2 && (c.stack o).st < 2
    && c.pcs.all fun e => (pcStack e.1 != st && pcStack e.1 != o) || (e.2.st != 1 && e.2.queue.isEmpty)

/-- REMIRROR: every window and mirrored granule with a copy on the stack's lost pseudo-channel has been copied from its
partner into its detour place (R435). -/
def remirror (st : Nat) (c : Chip) : Chip :=
  let s := c.stack st
  match s.detour with
  | none => c
  | some pc =>
    if s.remirrored || !c.remirrorReady st then c
    else
      let copied (q : Nat) (c : Chip) : Chip :=
        let r := (pc + 640 - qHash q) % 640
        match c.useOf q r with
        | .window | .mirrored _ => c.copyGranule q r
        | _ => c
      let c' := iter windowRows copied c
      let c' := (c.mem.allocs.filter (·.mirrored)).foldl (fun c a => iter a.rows (fun i c => copied (a.q0 + i) c) c) c'
      c'.updStack st fun s => { s with remirrored := true }

def execRemirror (st : Nat) (s : State) : Out := onChip (.remirror st) s (remirror st)

/-! ## Stack faults (R437, R438) -/

/-- A stack's controller fault: the stack is fenced, its contents kept in self-refresh; a slice in it ends with the reset of
its controller (R437). -/
def Chip.faultStack (c : Chip) (st detail : Nat) : Chip :=
  let s := c.stack st
  if 2 ≤ s.st then c.foldFault s.fenceRec
  else
    let n := c.flog.written
    let c := match s.slice with
      | some k => c.updPc k.pc fun x => { x with st := if x.st = 1 then 0 else x.st, owed := [] }
      | none => c
    let c := c.setStack st { s with st := 2, fenceStamp := c.now, fenceRec := some n, slice := none, retrain := none,
                                    lastSliceEnd := if s.slice.isSome then some c.now else s.lastSliceEnd }
    c.log (hwRec domStack 0x0D (dieFacet (stackFacet st)) st 0 detail)

def execStackFault (st detail : Nat) (s : State) : Out := onChip (.stackFault st detail) s fun c => if c.alive then c.faultStack st detail else c

/-- Ticks within which a fenced stack returns: the window is half-open (R44, R437). -/
def stackTicks : Nat := 31250

/-- STACK_RETURN: a fenced stack returns, all its pseudo-channels retrained (R437). -/
def stackReturn (st : Nat) (c : Chip) : Chip :=
  let s := c.stack st
  if s.st = 2 && c.now < s.fenceStamp + stackTicks then
    let c := iter 32 (fun i c => c.updPc (32 * st + i) fun x => { x with badTrains := 0 }) c
    let c := (c.setStack st { s with st := 0, fenceRec := none, baseTemp := s.temp }).log
      (c.domainRec 2 s.fenceRec domStack (dieFacet (stackFacet st)) st)
    iter 32 (fun i c => c.drainQueue (32 * st + i)) c
  else c

def execStackReturn (st : Nat) (s : State) : Out := onChip (.stackReturn st) s (stackReturn st)

/-- STACK_RETURN_TIMEOUT: a stack that has not returned in time has lost its data (R438). -/
def stackReturnTimeout (st : Nat) (c : Chip) : Chip :=
  let s := c.stack st
  if s.st = 2 && s.fenceStamp + stackTicks ≤ c.now then
    (c.log (c.domainRec 3 s.fenceRec domStack (dieFacet (stackFacet st)) st)).stackLost st 0x0D
  else c

def execStackReturnTimeout (st : Nat) (s : State) : Out := onChip (.stackReturnTimeout st) s (stackReturnTimeout st)

end Sys2Proof.Machine
end

