-- ==== Sys2Proof/Machine/HostPort.lean ====
section
/-! DEFINITION. The two CXL heads as the host uses them: the window, snoops, IDE, the join cookie, the HDM decoder, links and
the addresses of the I3C ports (R411, R412, R530 to R548, R611, R666). -/
namespace Sys2Proof.Machine

/-! ## Traffic a head takes -/

/-- A head's link is in L0. -/
def Chip.headUp (c : Chip) (h : Nat) : Bool := c.alive && (c.head h).link = 2

/-- A head takes CXL.mem traffic of its window: stacked memory has been trained (R586), its decoder is committed, and the
traffic is not discarded outside an IDE stream (R535, R537). -/
def Chip.takesMem (c : Chip) (production : Bool) (h : Nat) : Bool :=
  c.pkg.power = .running && c.headUp h && (c.head h).hdmCommitted && !c.ioClosed production h

/-- The window byte that a host address of a head's decoder reaches (R535). -/
def Chip.windowAt (c : Chip) (h addr : Nat) : Option Nat :=
  let b := (c.head h).hdmBase
  if b ≤ addr && addr < b + windowBytes then some (addr - b) else none

/-- The pieces of a range that lie in one 64-byte line each: (first byte, length). -/
def linePieces (x n : Nat) : List (Nat × Nat) :=
  if n = 0 then []
  else (List.range ((x + n - 1) / 64 + 1 - x / 64)).map fun i =>
    let a := max x (64 * (x / 64 + i))
    (a, min (x + n) (64 * (x / 64 + i) + 64) - a)

/-- A head holds a copy of a window line (R536). -/
def Chip.hold (c : Chip) (line h : Nat) : Chip :=
  if c.held.contains (line, h) then c else { c with held := c.held ++ [(line, h)] }

/-- The bursts of a read of the window whose copy is uncorrectable are rewritten from the other one (R414). -/
def Chip.healWindow (c : Chip) (x n : Nat) : Chip :=
  iter ((x + n - 1) / 32 + 1 - x / 32) (fun i c =>
    let y := 32 * (x / 32 + i)
    let k := c.windowCopy y
    let p := c.windowPlace k y
    let (q, r, _) := windowPos k y
    if c.poisonedAt p && !c.requestsWait p.pc then (c.healBurst [] p q r).2 else c) c

/-- One line's bytes go to the host: from a readable copy, or with poison where some byte has none (R411, R414, Table 12.5).
Poisoned data are free bytes. -/
def Chip.serveLine (c : Chip) (h x n : Nat) : Chip :=
  let bs := (List.range n).map fun i => c.windowByte (x + i)
  let c := (c.hold (x / 64) h).healWindow x n
  if bs.all (·.isSome) then c.send (.windowData h (bs.filterMap id) false)
  else
    let (free, c) := c.freeBytes n
    c.send (.windowData h free true)

/-- HOST_WINDOW_READ (R411). -/
def hostWindowRead (h addr len : Nat) (production : Bool) (c : Chip) : Chip :=
  match c.takesMem production h, c.windowAt h addr with
  | true, some x => if x + len ≤ windowBytes then (linePieces x len).foldl (fun c e => c.serveLine h e.1 e.2) c else c
  | _, _ => c

def execHostWindowRead (head addr len : Nat) (s : State) : Out :=
  onChipLc (.hostWindowRead head addr len) s (hostWindowRead head addr len)

/-- HOST_WINDOW_WRITE: other heads that hold the lines are invalidated, both copies are written, and the write completes
(R412), once those heads have answered (R536). In a warm reset and in device fault it is discarded (R547). -/
def hostWindowWrite (h addr : Nat) (bs : List Byte) (production : Bool) (c : Chip) : Chip :=
  match c.takesMem production h, c.windowAt h addr with
  | true, some x =>
    if x + bs.length ≤ windowBytes then
      if 2 ≤ c.pkg.devState then c.send (.windowDone h)
      else c.afterBi { head := some h, x := x, bytes := bs } (·.hostWindowStore h x bs)
    else c
  | _, _ => c

def execHostWindowWrite (head addr : Nat) (bytes : List Byte) (s : State) : Out :=
  onChipLc (.hostWindowWrite head addr bytes) s (hostWindowWrite head addr bytes)

/-- HOST_SNOOP: a line that the device cache holds modified is written back and given up; otherwise, and in a warm reset or
device fault once the cache has been written back, the snoop misses (R543, R547). -/
def hostSnoop (h line : Nat) (production : Bool) (c : Chip) : Chip :=
  if c.pkg.power = .running && c.headUp h && !c.ioClosed production h then
    match (c.head h).cache.lookup line with
    | some bs =>
      let c := { c with host := c.host.writeN (64 * line) bs }
      let c := c.updHead h fun x => { x with cache := x.cache.filter (·.1 != line) }
      c.send (.snoop h line (if 2 ≤ c.pkg.devState then none else some bs))
    | none => c.send (.snoop h line none)
  else c

def execHostSnoop (head line : Nat) (s : State) : Out := onChipLc (.hostSnoop head line) s (hostSnoop head line)

/-! ## IDE (R537, R539, R611) -/

/-- IDE_CHECK_FAIL: the failing item is discarded, the event is an uncorrectable, non-fatal error, and the stream has to be
established again (R539). -/
def ideCheckFail (h : Nat) (c : Chip) : Chip :=
  if c.headUp h && (c.head h).ide = 1 then
    (c.updHead h fun x => { x with ide := 2, ideFail := satAdd u32max x.ideFail 1, aerNonFatal := x.aerNonFatal + 1 }).send
      (.aer h false)
  else c

def execIdeCheckFail (head : Nat) (s : State) : Out := onChip (.ideCheckFail head) s (ideCheckFail head)

/-- Debug access of a life-cycle state, and its sessions (Table 17.4). -/
inductive DebugAccess where
  | open_
  | exceptStore
  | exceptUds
  | closed
  deriving DecidableEq, Repr
inductive SessionRight where
  | none
  | test
  | all
  deriving DecidableEq, Repr

/-- A row of Table 17.4: debug access, whether the heads require IDE, whether the identity signs, and which sessions there are. -/
structure LifeCycle where
  debug : DebugAccess
  ide : Bool
  signs : Bool
  sessions : SessionRight
  deriving DecidableEq, Repr

/-- The life-cycle state of a count of burned bits: MANUFACTURE, PROVISIONED, PRODUCTION, RETURN, DECOMMISSIONED (R588). -/
def lifeCycle (count : Nat) : LifeCycle :=
  match count with
  | 0 => ⟨.open_, false, false, .none⟩
  | 1 => ⟨.exceptStore, false, true, .test⟩
  | 2 => ⟨.closed, true, true, .all⟩
  | 3 => ⟨.exceptUds, false, false, .none⟩
  | _ => ⟨.closed, false, false, .none⟩

/-- The life cycle allows identity signing. -/
def Otp.signs (o : Otp) : Bool := (lifeCycle o.lcCount).signs

/-- Bezel can sign: its identity is ready, its keys are held, and the life cycle allows identity signing (R592, R596,
Table 17.4). -/
def State.canSign (s : State) : Bool :=
  s.sec.identityState = 0 && !s.sec.keysErased && s.sec.treesReady != 0 && s.otp.signs

/-- A non-posted request that a head completes with Completer Abort: in a warm reset or device fault, any but a read of the identity
page (R547). -/
def Chip.aborts (c : Chip) (h : Nat) : Bool := c.headUp h && 2 ≤ c.pkg.devState

/-- IDE_KM_EXCHANGE: inside an SPDM session, whose key exchange Bezel signs, the stream is established (R611), and writes that waited
for the head go on (R536). -/
def ideKmExchange (h : Nat) (sign : Bool) (c : Chip) : Chip :=
  if c.aborts h then c.send (.completerAbort h)
  else if c.headUp h && sign then (c.updHead h fun x => { x with ide := 1 }).releaseBi else c

def execIdeKmExchange (head : Nat) (s : State) : Out :=
  onChip (.ideKmExchange head) s (ideKmExchange head s.canSign)

/-! ## Registers of a head (R532, R535) -/

/-- JOIN_COOKIE_WRITE: a u32 write sets the cookie of both heads; any other width is discarded (R532). -/
def joinCookieWrite (h width v : Nat) (production : Bool) (c : Chip) : Chip :=
  if !c.headUp h then c
  else if c.ioClosed production h then c.unsupported h
  else if width = 4 then { c with pkg := { c.pkg with joinCookie := v } }
  else c

def execJoinCookieWrite (head width v : Nat) (s : State) : Out :=
  onChipLc (.joinCookieWrite head width v) s (joinCookieWrite head width v)

/-- HDM_DECODER_COMMIT: a configuration request commits the head's decoder (R535). -/
def hdmDecoderCommit (h base : Nat) (c : Chip) : Chip :=
  if c.aborts h then c.send (.completerAbort h)
  else if c.headUp h then c.updHead h fun x => { x with hdmBase := base, hdmCommitted := true } else c

def execHdmDecoderCommit (head base : Nat) (s : State) : Out :=
  onChip (.hdmDecoderCommit head base) s (hdmDecoderCommit head base)

/-! ## What a head's function shows (R531, R537, R538, R547) -/

/-- Device identifier and class code of a head's function; the vendor is that of the identity range (R531). -/
def deviceId (h : Nat) : Nat := 0xE820 + h
def classCode : Nat := 0x120000

/-- Bytes of BAR0. -/
def barBytes : Nat := 2 ^ 21

/-- The identity page: its first 64 bytes are Table 16.3. -/
def State.identityPage (s : State) (h : Nat) : List Byte :=
  let c := s.chip
  padTo (leBytes 64 (s.unit.hallmark <<< 448 + h <<< 446 + c.partner h <<< 444 + c.pkg.devState <<< 440 + c.pkg.joinCookie <<< 384))
    4096

/-- A byte of BAR0 (Table 16.2): the identity page, the pending bits of the vectors that wait for the link, and 0 at a reserved offset. -/
def State.barByte (s : State) (h off : Nat) : Byte :=
  if off < 0x1000 then (s.identityPage h).getD off 0
  else if 0x3000 ≤ off && off < 0x4000 then
    BitVec.ofNat 8 (((List.range 8).filter fun b => (s.chip.head h).msixPending.contains (8 * (off - 0x3000) + b)).map (2 ^ ·)).sum
  else if (0x2000 ≤ off && off < 0x3000) || (0x100000 ≤ off && off < 0x180000) then Config.barByte h off
  else 0

/-- What a head answers to a memory read of BAR0. -/
inductive BarAnswer where
  | none
  | unsupported
  | abort
  | data (bytes : List Byte)
  deriving DecidableEq, Repr

/-- A read of BAR0 at a head in L0: outside an IDE stream it is turned away where R537 says so, but for the identity page in the boot
phase (R538); in a warm reset or device fault only the identity page is read (R547). -/
def State.barRead (s : State) (h off n : Nat) : BarAnswer :=
  let c := s.chip
  let identity := off + n ≤ 0x1000
  if !c.headUp h then .none
  else if c.ioClosed s.otp.production h && !(identity && c.pkg.bootPhase) then .unsupported
  else if 2 ≤ c.pkg.devState && !identity then .abort
  else .data ((List.range n).map fun i => s.barByte h (off + i))

/-! ## Links and addresses (R666, R667) -/

/-- The head that enumerates first. -/
def Chip.firstHead (c : Chip) : Nat := c.pkg.straps.head

/-- Whether a head may leave Detect.Quiet: the first head always, the other once the first is in L0 or 20 ms after its
PERST_N (R666). -/
def Chip.mayTrain (c : Chip) (h : Nat) : Bool :=
  h = c.firstHead || (c.head c.firstHead).link = 2 || (c.head c.firstHead).perstUp + 2500000 ≤ c.now

/-- Vectors that waited for the link are signalled (R534). -/
def Chip.flushMsix (c : Chip) (h : Nat) : Chip :=
  let vs := (c.head h).msixPending
  vs.foldl (fun c v => c.send (.msix h v)) (c.updHead h fun x => { x with msixPending := [] })

/-- LINK_UP: the head's link is in L0 at a width and rate. -/
def linkUp (h width rate : Nat) (c : Chip) : Chip :=
  if c.alive && (c.clasp h).svc = .inService && (c.head h).link < 2 && c.mayTrain h then
    let new := c.updHead h fun x => { x with link := 2, width := width, rate := rate }
    let new := { new with pkg := { new.pkg with perstLow := new.pkg.perstLow.set h false } }
    (c.noteHeads new).flushMsix h
  else c

def execLinkUp (head width rate : Nat) (s : State) : Out := onChip (.linkUp head width rate) s (linkUp head width rate)

/-- I3C_DYNAMIC_ADDRESS_ASSIGNMENT: the port becomes an I3C target (R666). -/
def i3cDynamicAddressAssignment (port addr : Nat) (c : Chip) : Chip :=
  if c.alive && (c.clasp port).svc = .inService then
    { c with pkg := { c.pkg with i3cDynamic := c.pkg.i3cDynamic.set port (some addr) } }
  else c

def execI3cDynamicAddressAssignment (port addr : Nat) (s : State) : Out :=
  onChip (.i3cDynamicAddressAssignment port addr) s (i3cDynamicAddressAssignment port addr)

end Sys2Proof.Machine
end

