-- ==== Sys2Proof/Machine/Tick.lean ====
section
/-! DEFINITION. The common tick: counting, alignment by TICK_SYNC or Strand time, stepping and slewing (R25 to R28, R48 to
R55). Offsets are in 1/256 tk; a positive offset means the counter runs ahead. -/
namespace Sys2Proof.Machine

/-- An offset exceeds 2 tk (R53). -/
def beyond2 (off : Int) : Bool := 512 < off || off < -512

/-- The offset still to be slewed away has a new value; the window in which it stays within 2 tk starts or ends (R53). -/
def TickSt.withResidual (t : TickSt) (r : Int) : TickSt :=
  { t with residual := r,
           inRange := if beyond2 r then none else match t.inRange with
             | some n => some n
             | none => some t.count }

/-- The window in which the offset from the Strand time reference stays within 2 tk starts or ends (R53). -/
def TickSt.withRef (t : TickSt) (r : Int) : TickSt :=
  { t with refOff := r,
           refRange := if beyond2 r then none else match t.refRange with
             | some n => some n
             | none => some t.count }

/-- The counter moves back by `d`: the offset from the Strand time reference does too, once that is known (R53, R561). -/
def TickSt.refBy (t : TickSt) (d : Int) : TickSt := if t.upper.isSome then t.withRef (t.refOff - d) else t

/-- One slew step of 1/256 tk towards 0 every 4 tk: one tick in 1,024 (R52, assumption 12, DEDUCED). -/
def TickSt.slew (t : TickSt) : TickSt :=
  if t.residual = 0 then { t with slewSub := 0 }
  else if t.slewSub < 3 then { t with slewSub := t.slewSub + 1 }
  else
    let d : Int := if 0 < t.residual then 1 else -1
    ({ t with slewSub := 0 }.withResidual (t.residual - d)).refBy d

/-- Ticks that a job's run-time count and its watchdogs stand still: a fenced stack, or a pending map-epoch barrier
(R514). -/
def Chip.paused (c : Chip) : Bool := c.stackTab.any (fun x => x.2.st = 2) || c.mem.epochDue.any (·.2 ≤ c.now)

/-- Run time of every bound job, and the waits whose watchdog stands still, over one tick (R489, R514). -/
def Chip.runTick (c : Chip) : Chip :=
  if c.paused then
    let later (w : Wait) : Wait := { w with since := w.since + 1 }
    { c with
      beads := c.beads.map fun (p, b) => (p, { b with
        waits := b.waits.map later,
        run := { b.run with parked := b.run.parked.map fun k => { k with waits := k.waits.map later } } }),
      transfers := c.transfers.map fun t =>
        { t with remoteSince := t.remoteSince.map (· + 1),
                 dests := t.dests.map fun d => { d with since := d.since.map (· + 1) } },
      walks := c.walks.map fun w => { w with dests := w.dests.map fun d => { d with since := d.since.map (· + 1) } },
      ringIn := c.ringIn.map fun b => { b with since := b.since.map (· + 1) },
      edits := c.edits.map fun e => { e with since := e.since.map (· + 1) },
      streams := c.streams.map fun s => { s with waiting := s.waiting.map fun w => { w with since := w.since + 1 } } }
  else
    { c with jobs := c.jobs.map fun (j, x) =>
        (j, if x.phase = .bound then { x with runTicks := x.runTicks + 1 } else x) }

/-- One tick edge: every copy of the counter rises by one (R26), the slew goes on (R52) and run time counts (R489). After a trip it
stops every clock in place of that (R529). Nothing counts in a part whose clocks are stopped or whose rails are off (R674). -/
def tickEdge (c : Chip) : Chip :=
  match c.pkg.power with
  | .off | .stopped | .inReset => c
  | _ =>
    if c.pkg.tripLatch then { c with pkg := { c.pkg with power := .stopped } }
    else
      let c := c.runTick
      { c with tick := { c.tick with count := (c.tick.count + 1) % 2 ^ 64 }.slew }

/-- The record of a tick condition (Table 15.7): detail is an s32. Of a step or an offset that an s32 does not hold it keeps the low
32 bits (assumption 98, DESIGN CHOICE: the spec gives no value). -/
def tickRec (kind cause : Nat) (v : Int) : FaultRec :=
  { faultRec kind domNone cause dieDevice 0 with detail := codeOf 32 v }

/-- The counter is stepped by whole ticks to the alignment target, once and before the first acceptance (R51). Its record carries
the counter after the step as its stamp; stamps taken before it stand, so that a step forward ends at once what they began, and a step
back holds it off for as long (assumption 98, DESIGN CHOICE: the spec says neither). -/
def Chip.stepTick (c : Chip) (whole : Int) : Chip :=
  let n := codeOf 64 ((c.tick.count : Int) - whole)
  let t := c.tick.refBy (256 * whole)
  let c := { c with tick := { t with count := n, stepped := true, upper := t.upper.map fun _ => 0 } }
  c.log (tickRec 5 0x30 (-whole))

/-- The counter may still be stepped (R51). -/
def Chip.mayStep (c : Chip) : Bool := !c.tick.firstAccept && !c.tick.stepped

/-- An offset of `off` is corrected: `whole` ticks by a step where R51 allows it, the rest of `off` by slewing (R51, R52); `up` of
these ticks are of the upper bits alone. -/
def Chip.alignBy (c : Chip) (off whole up : Int) : Chip :=
  if c.mayStep && whole != 0 then
    let c := c.stepTick whole
    { c with tick := c.tick.withResidual (off - 256 * (whole - up)) }
  else { c with tick := c.tick.withResidual off }

/-- The tick-unaligned condition is set when the offset left after a step exceeds 2 tk (R53). The detail of its record is in whole
ticks: the fraction is dropped towards 0 (assumption 98, DESIGN CHOICE: Table 15.7 gives no rounding). -/
def Chip.monitorTick (c : Chip) (off : Int) : Chip :=
  if beyond2 off && !c.tick.unaligned then
    { c with tick := { c.tick with unaligned := true } }.log (tickRec 5 0x31 (off.tdiv 256))
  else c

/-- The offset of the counter from the TICK_SYNC phase: it is expected where the low 17 bits are 0 (R49). -/
def syncOffset (count frac : Nat) : Int :=
  let x : Nat := (count * 256 + frac) % 2 ^ 25
  if x < 2 ^ 24 then (x : Int) else (x : Int) - 2 ^ 25

/-- The part has a parent from which it has not yet learned the upper bits: it keeps its one step until it can take it to the phase
and the upper bits at once (R51, assumption 101, DESIGN CHOICE). -/
def Chip.upperDue (c : Chip) : Bool := c.strand.parent < 12 && c.tick.upper.isNone

/-- A TICK_SYNC edge: ignored when the strap selects internal (R50), otherwise measured and corrected, with the upper bits where
Strand time has taught them (R49, R51 to R53). -/
def tickSyncPulse (frac : Nat) (c : Chip) : Chip :=
  if c.pkg.straps.tick = 0 || c.pkg.power = .off || c.pkg.power = .stopped || c.pkg.power = .inReset then c
  else
    let off := syncOffset c.tick.count frac
    let c := { c with tick := { c.tick with measured := off } }
    let up := c.tick.upper.getD 0
    let c := c.alignBy off (if c.upperDue then 0 else off.tdiv 256 + up) up
    c.monitorTick c.tick.residual

def execTickSyncPulse (frac : Nat) (s : State) : Out := onChip (.tickSyncPulse frac) s (tickSyncPulse frac)

/-- A window that began at a stamp, if it has, has lasted 131,072 tk. -/
def Chip.pulseLong (c : Chip) (since : Option Nat) : Bool := since.elim false fun n => n + 131072 ≤ c.now

/-- Whether the tick-unaligned condition ends now: the offset has stayed within 2 tk for 131,072 tk, from TICK_SYNC and from the
Strand time reference (R53). -/
def tickClearDue (c : Chip) : Bool := c.tick.unaligned && c.pulseLong c.tick.inRange && c.pulseLong c.tick.refRange

/-- The tick-unaligned condition ends and its record is written (R53, R525). -/
def tickAlignedClear (c : Chip) : Chip :=
  if tickClearDue c then
    { c with tick := { c.tick with unaligned := false } }.log (tickRec 6 0x31 (c.tick.residual.tdiv 256))
  else c

def execTickAlignedClear (s : State) : Out := onChip .tickAlignedClear s tickAlignedClear

end Sys2Proof.Machine
end

