-- ==== Sys2Proof/Machine/Strand.lean ====
section
/-! DEFINITION. Receiving on Strand: blocks and retries (R550 to R552), messages (R553 to R557, R567), time across parts
(R558 to R562), training, faults and retraining of ports (R564, R568, R576, R577, R611), and the control messages that make
the jobs of a ring commit, fence and resume as one (R573 to R575). -/
namespace Sys2Proof.Machine

/-! ## Blocks (R551, R552) -/

/-- The unacknowledged blocks after an ack: every block up to the one it names is acknowledged. -/
def PortSt.acked (x : PortSt) (ack : Nat) : PortSt :=
  match x.unacked with
  | [] => x
  | b :: _ =>
    let k := (ack + 4096 - b.seq) % 4096
    if k < x.unacked.length then { x with unacked := x.unacked.drop (k + 1) } else x

/-- STRAND_BLOCK_RECEIVE: a block that fails its checks is discarded with every later data block until the resend, which a
retry request asks for; one of a reserved type is discarded and counted; any other acknowledges and returns credits, and a
data block in order is taken (R551, R552). -/
def strandBlockReceive (port : Nat) (b : StrandBlock) (c : Chip) : Chip :=
  let x := c.port port
  if !x.working then c
  else if !b.intact then (c.setPort port { x with discarding := true }).sendOther port 3 0 0 []
  else if 5 ≤ b.type then c.setPort port { x with badType := satAdd u32max x.badType 1 }
  else
    let x := { x.acked b.ack with credits := modAt x.credits b.creditVc (· + b.credit) }
    let x := if b.type = 0 && b.seq = x.rxNext then { x with rxNext := (x.rxNext + 1) % 4096, discarding := false } else x
    (c.setPort port x).pump port

def execStrandBlockReceive (port : Nat) (b : StrandBlock) (s : State) : Out :=
  onChip (.strandBlockReceive port b) s (strandBlockReceive port b)

/-! ## Port faults (R568, R576, R577) -/

/-- The messages that a port has not got through go over the other ports of their neighbour sets, in order: those that end in a block
that is not acknowledged, and those that wait (R568; assumption 127, DESIGN CHOICE). -/
def Chip.moveMessages (c : Chip) (port : Nat) : Chip :=
  let x := c.port port
  (x.unacked.flatMap (·.ends) ++ x.txQueue).foldl Chip.route (c.setPort port { x with unacked := [], txQueue := [] })

/-- A port is the last working one of a neighbour set of a ring. -/
def Chip.lastPort (c : Chip) (r port : Nat) : Bool := c.nextPorts r = [port] || c.prevPorts r = [port]

/-- Accepted jobs of this part on a ring: those of its session whose variant uses it. -/
def Chip.jobsOnRing (c : Chip) (r : Nat) : List Nat :=
  c.jobsBy fun x => x.ledger = .accepted && x.inputsIn && c.ringCarries r x.session && (c.jobRings x).contains r

/-- A port is faulted: it retrains, or leaves service at its second fault; every job is fenced of whose ring this was the last working
port of a neighbour set, and what the port had not got through moves (R576, R577). -/
def Chip.portFault (c : Chip) (port detail : Nat) : Chip :=
  let x := c.port port
  let die := dieClasp (portClasp port)
  if x.st = 5 || x.st = 6 then c.foldFault x.fenceRec
  else if !x.working then c
  else
    let n := c.flog.written
    let hit := c.jobsWith fun j y => (c.jobRings y).any fun r => c.lastPort r port && (c.jobsOnRing r).contains j
    let c := c.log (hwRec domPort 0x10 die port 0 detail)
    let out := 1 ≤ x.faults
    let c := c.setPort port { x with st := if out then 6 else 5, faults := x.faults + 1, fenceRec := some n }
    let c := if out then c.log (faultRec 3 domPort 0x10 die port) else c
    let c := c.moveMessages port
    hit.foldl (fun c j => c.fenceJob j
      { domain := domPort, cause := 0x10, die := die, unit := port, detail := 0 } none) c

def execStrandPortFault (port lanes : Nat) (s : State) : Out :=
  onChip (.strandPortFault port lanes) s fun c => c.portFault port lanes

/-- Retries of a block without acknowledgement that fault a port (R576). -/
def retryLimit : Nat := 16

/-- STRAND_RETRY_REQUEST: every block after the ack is sent again, in order; one that has been retried sixteen times without
acknowledgement faults the port, without a failed lane (R551, R576). -/
def strandRetryRequest (port ack : Nat) (c : Chip) : Chip :=
  if !(c.port port).working then c
  else
    let x := (c.port port).acked ack
    if x.unacked.isEmpty then c.setPort port x
    else
      let again := x.unacked.map fun b => { b with tries := b.tries + 1 }
      let c := c.setPort port { x with retries := satAdd u32max x.retries x.unacked.length, unacked := again }
      let c := again.foldl (fun c b => c.send (.strand port (blockBytes 0 b.seq x.ackSeq 0 0 b.payload))) c
      if again.any (retryLimit ≤ ·.tries) then c.hwFound ⟨0x10, port, 0, 0⟩ else c

def execStrandRetryRequest (port ack : Nat) (s : State) : Out :=
  onChip (.strandRetryRequest port ack) s (strandRetryRequest port ack)

/-- The state of a port with the given good lanes: all of them, or a whole half (R576). -/
def laneState (lanes : Nat) : Option Nat :=
  if lanes = 0xFF then some 2
  else if lanes % 16 = 15 then some 3
  else if lanes / 16 = 15 then some 4
  else none

/-- A port whose ends have trained: sequence numbers start anew and the peer's buffer is empty; messages that no port could take go
out. What it had not got through has moved, or waits among them (R568). -/
def Chip.restartPort (c : Chip) (port st : Nat) : Chip :=
  let c := (c.setPort port { c.port port with st := st, txSeq := 0, rxNext := 0, discarding := false,
                                              credits := PortSt.fresh.credits, fenceRec := none }).moveMessages port
  c.releaseHeld

/-- PORT_RETRAIN_COMPLETE: a faulted port returns with its intact lanes, or leaves service (R576). -/
def portRetrainComplete (port intact : Nat) (c : Chip) : Chip :=
  let x := c.port port
  if x.st != 5 then c
  else
    let die := dieClasp (portClasp port)
    match laneState intact with
    | some st => (c.log (c.domainRec 2 x.fenceRec domPort die port)).restartPort port st
    | none => ((c.setPort port { x with st := 6 }).moveMessages port).log
        (c.domainRec 3 x.fenceRec domPort die port)

def execPortRetrainComplete (port intact : Nat) (s : State) : Out :=
  onChip (.portRetrainComplete port intact) s (portRetrainComplete port intact)

/-- The link key and its salt, from the secret that the ends' SPDM session exports and their part numbers (R611). -/
def linkKeyOf (secret : List Byte) (a b : Nat) : List Byte × List Byte :=
  let parts := leBytes 2 (min a b) ++ leBytes 2 (max a b)
  (Config.hkdfExpand secret (label "strand link" ++ parts) 32,
   (Config.hkdfExpand secret (label "strand salt" ++ parts) 32).take 4)

/-- LINK_TRAINING: the ends of a port train, exchange part numbers in link control blocks and derive the link key; the exported secret
is free (R564, R611). Training on too few lanes fails. -/
def linkTraining (port peer lanes : Nat) (c : Chip) : Chip :=
  let x := c.port port
  if c.pkg.power = .running && (c.clasp (portClasp port)).svc = .inService && x.st < 2 && !c.pkg.tampered then
    match laneState lanes with
    | none => c.setPort port { x with st := 1 }
    | some st =>
      let (secret, c) := c.freeBytes 48
      let (key, salt) := linkKeyOf secret c.strand.partNumber peer
      let c := c.setPort port { x with peer := peer, linkKey := key, linkSalt := salt, ivTx := [0, 0], ivRx := [0, 0],
                                       echoTx := 0, echoRx := 0, peerRef := 0, peerDepth := 63, lastSync := 0 }
      (c.sendOther port 4 0 0 (Config.linkControl c.strand.partNumber)).restartPort port st
  else c

def execLinkTraining (port peer lanes : Nat) (s : State) : Out :=
  onChip (.linkTraining port peer lanes) s (linkTraining port peer lanes)

/-! ## Messages (R553 to R557, R567) -/

/-- The header of a received message, reserved bits with it. -/
def receivedHeader (m : StrandMessage) : List Byte :=
  leBytes 16 (leNat (messageHeader m.cls m.ring m.src m.dst m.dest m.object m.length) + m.resv)

/-- A received message's bytes free credits of the receive buffer, returned in an idle block (R552). -/
def Chip.returnCredits (c : Chip) (port : Nat) (m : StrandMessage) : Chip :=
  c.sendOther port 1 (classVc m.cls) (ceilDiv (roundUp (32 + m.cipher.length) 16) 256) []

/-- The bound job whose ring it is: it takes the ring's data. -/
def Chip.ringJob (c : Chip) (r : Nat) : Option Nat :=
  (List.find? (fun e : Nat × Job => e.2.phase = .bound && e.2.session = (c.ring r).session && (c.jobRings e.2).contains r)
    c.jobs).map (·.1)

/-- The port of a message whose tag fails counts it (R556). -/
def Chip.badTag (c : Chip) (port : Nat) : Chip :=
  c.updPort port fun x => { x with tagFail := satAdd u32max x.tagFail 1 }

/-- STRAND_MESSAGE_RECEIVE: a message is authenticated and delivered, or discarded. A ring control message that passes is the
event that its own command handles; a ring data block waits for its slot (R555 to R557, R567). -/
def strandMessageReceive (port : Nat) (m : StrandMessage) (c : Chip) : Chip :=
  if !(c.port port).working then c
  else
    let c := c.returnCredits port m
    if m.cls = clsControl then
      let x := c.port port
      let n := x.ivRx.getD 0 0
      let c := c.setPort port { x with ivRx := modAt x.ivRx 0 (· + 1) }
      match Config.gcmDecrypt x.linkKey (messageIv x.linkSalt n) (receivedHeader m) m.cipher m.tag with
      | some _ => c
      | none => (c.badTag port).hwFound ⟨0x10, port, 0, 0⟩
    else if clsControl < m.cls || (c.ring m.ring).enable != 1 || m.src != (c.ring m.ring).prevPart then c
    else
      let n := (c.ringRun m.ring).ivRx
      let (key, salt) := c.ringKey m.ring
      let c := c.updRingRun m.ring fun x => { x with ivRx := n + 1 }
      match Config.gcmDecrypt key (messageIv salt n) (receivedHeader m) m.cipher m.tag, c.ringJob m.ring with
      | none, _ => c.badTag port
      | some data, some j =>
        if m.cls = clsRingData then
          let b : RingBlock := { ring := m.ring, job := j, dest := m.dest, object := m.object, data := data, got := [], msg := none,
                                 since := none, arr := 0 }
          Chip.noteRelays { c with ringIn := c.ringIn ++ [b] }
        else c
      | some _, none => c

def execStrandMessageReceive (port : Nat) (m : StrandMessage) (s : State) : Out :=
  onChip (.strandMessageReceive port m) s (strandMessageReceive port m)

/-! ## Time across parts (R558 to R562) -/

/-- Hops from the time reference: 0 at the reference. -/
def Chip.depth (c : Chip) : Nat := if c.strand.timeRef = 1 then 0 else c.strand.depth

/-- The time reference part that the part reports. -/
def Chip.refPart (c : Chip) : Nat :=
  if c.strand.timeRef = 1 then c.strand.partNumber
  else if c.strand.parent < 12 then (c.port c.strand.parent).peerRef else 0

/-- The first 64 bytes of a time-sync block's payload (Table 16.9). -/
def timeSyncBytes (tTx echoTx echoRx refPart depth : Nat) : List Byte :=
  leBytes 64 (tTx <<< 440 + echoTx <<< 368 + echoRx <<< 296 + refPart <<< 283 + depth <<< 277)

/-- TIME_SYNC_SEND: a port's block at a tick whose low 17 bits are 0 (R558). -/
def timeSyncSend (port frac : Nat) (c : Chip) : Chip :=
  let x := c.port port
  if c.alive && x.working && c.now % 131072 = 0 then
    c.sendOther port 2 0 0 (timeSyncBytes (256 * c.now + frac) x.echoTx x.echoRx c.refPart c.depth)
  else c

def execTimeSyncSend (port frac : Nat) (s : State) : Out := onChip (.timeSyncSend port frac) s (timeSyncSend port frac)

/-- Ticks within which a sync block is awaited: four intervals, widened at each end (R55, R562). -/
def syncWindow : Nat := 4 * 131072 + 4

/-- A port whose peer can be the parent: it works, has been heard in time, and its depth leaves room for one more hop. -/
def Chip.parentable (c : Chip) (n : Nat) : Bool :=
  let x := c.port n
  x.working && x.peerDepth < 32 && c.now < x.lastSync + syncWindow

/-- The parent is the port whose peer reports the least depth, the lower port on a tie (R559). -/
def Chip.chooseParent (c : Chip) : Chip :=
  let ns := if c.strand.timeRef = 1 then [] else (List.range 12).filter c.parentable
  match sortBy (fun a b => (c.port a).peerDepth < (c.port b).peerDepth
      || ((c.port a).peerDepth = (c.port b).peerDepth && a ≤ b)) ns with
  | [] => { c with strand := { c.strand with parent := 0xFF, depth := 63 } }
  | n :: _ => { c with strand := { c.strand with parent := n, depth := (c.port n).peerDepth + 1 } }

/-- Offset from the parent, in 1/256 tk, positive when this part runs ahead (R560). -/
def parentOffset (b : TimeSync) : Int :=
  (((b.arrival : Int) - b.tTx) - ((b.echoRx : Int) - b.echoTx)).tdiv 2

/-- The whole number of pulse intervals in an offset, in tk: what Strand time gives the upper counter bits when TICK_SYNC gives
the phase (R561). -/
def upperPart (off : Int) : Int := 131072 * ((off + 2 ^ 24) / 2 ^ 25)

/-- An offset from the parent is corrected (R51 to R53, R560, R561). Under strap TICK_SYNC it teaches the upper bits, to which the
next pulse may step the counter, and is watched. -/
def Chip.followParent (c : Chip) (off : Int) : Chip :=
  let c := { c with tick := { c.tick with measured := off } }
  if c.pkg.straps.tick = 0 then
    let c := c.alignBy off (off.tdiv 256) 0
    c.monitorTick c.tick.residual
  else
    { c with tick := { c.tick with upper := some (upperPart off) }.withRef off }.monitorTick off

/-- TIME_SYNC_RECEIVE: what the peer says is kept; a block from the parent gives the offset, once the peer echoes a block of
this part (R558 to R561). -/
def timeSyncReceive (port : Nat) (b : TimeSync) (c : Chip) : Chip :=
  if !(c.port port).working then c
  else
    let c := c.updPort port fun x => { x with echoTx := b.tTx, echoRx := b.arrival, peerRef := b.refPart,
                                              peerDepth := b.depth, lastSync := c.now }
    let c := c.chooseParent
    if c.strand.parent = port && b.echoTx != 0 then c.followParent (parentOffset b) else c

def execTimeSyncReceive (port : Nat) (b : TimeSync) (s : State) : Out :=
  onChip (.timeSyncReceive port b) s (timeSyncReceive port b)

/-- PARENT_TIMEOUT: no sync block has come from the parent in time: the part chooses again (R562). -/
def parentTimeout (c : Chip) : Chip :=
  if c.strand.parent < 12 && !c.parentable c.strand.parent then c.chooseParent else c

def execParentTimeout (s : State) : Out := onChip .parentTimeout s parentTimeout

/-! ## Rings (R573 to R575) -/

/-- A ring of more than one part is in use. -/
def Chip.ringLive (c : Chip) (r : Nat) : Bool := (c.ring r).enable = 1 && 1 < (c.ring r).size

/-- RING_COMMITTED: rank 0 has it back and sends ALL; another rank passes it on once it has committed too (R573). -/
def ringCommitted (r k : Nat) (c : Chip) : Chip :=
  if !c.ringLive r then c
  else if (c.ring r).rank = 0 then (if k ≤ (c.ringRun r).back then c else c.ringBack r k)
  else if k ≤ (c.ringRun r).committed then c.sendNext r opCommitted k 0
  else c.updRingRun r fun x => { x with owed := some k }

def execRingCommitted (at_ : RingPort) (k : Nat) (s : State) : Out := onChip (.ringCommitted at_ k) s (ringCommitted at_.ring k)

/-- RING_ALL: every part has committed `k`; the message goes on until the last rank (R573). -/
def ringAll (r k : Nat) (c : Chip) : Chip :=
  if !c.ringLive r || (c.ring r).rank = 0 then c
  else
    let c := c.updRingRun r fun x => { x with all := max x.all k }
    if (c.ring r).rank + 1 < (c.ring r).size then c.sendNext r opAll k 0 else c

def execRingAll (at_ : RingPort) (k : Nat) (s : State) : Out := onChip (.ringAll at_ k) s (ringAll at_.ring k)

/-- RING_FENCE: a FENCE newer than the part's epoch goes on in the same direction and fences the part's job of the ring, which is held
for it; the job's other rings are told (R574, R575). -/
def ringFence (r epoch port : Nat) (c : Chip) : Chip :=
  if !c.ringLive r || epoch ≤ (c.ring r).epoch then c
  else
    let c := c.setRing r { c.ring r with epoch := epoch }
    let c := c.updRingRun r fun x => { x with fenceStamp := some c.now, owed := none }
    let o : Origin := { domain := domPort, cause := 0x10, die := dieClasp (portClasp port), unit := port,
                        detail := 2 ^ 31 + r }
    let hit := c.jobsOnRing r
    let c := if bit (c.ring r).prevPorts port then c.sendNext r opFence 0 epoch else c.sendPrev r opFence 0 epoch
    hit.foldl (fun c j =>
      let c := (c.fenceCore j o none none).ringHold j r
      (((c.job? j).elim [] c.jobRings).filter (· != r)).foldl (fun c q => c.ringTell j q) c) c

def execRingFence (ring epoch port : Nat) (s : State) : Out := onChip (.ringFence ring epoch port) s (ringFence ring epoch port)

/-- RING_RESUME: the part's job resumes from the generation that holds step index `m`, and the message goes on (R575). -/
def ringResume (r m epoch : Nat) (c : Chip) : Chip :=
  if !c.ringLive r || (c.ring r).rank = 0 || epoch != (c.ring r).epoch then c
  else
    let c := (c.jobsOnRing r).foldl (fun c j => c.updJob j fun x =>
      if x.ringWait.contains r then { x with ringWait := x.ringWait.filter (· != r) }.from m else x) c
    let c := c.updRingRun r fun x => { x with committed := m, owed := none, back := m, all := m, fenceStamp := none }
    if (c.ring r).rank + 1 < (c.ring r).size then c.sendNext r opResume m epoch else c

def execRingResume (at_ : RingPort) (m epoch : Nat) (s : State) : Out :=
  onChip (.ringResume at_ m epoch) s (ringResume at_.ring m epoch)

/-- RING_RESUME_EXPIRY: 125,000,000 tk after its fence a job without a RESUME ends with RESUME_LIMIT (R575). -/
def ringResumeExpiry (r : Nat) (c : Chip) : Chip :=
  match (c.ringRun r).fenceStamp with
  | none => c
  | some s =>
    if (c.ring r).rank = 0 || c.now < s + 125000000 then c
    else
      let c := (c.jobsBy fun x => x.ringWait.contains r).foldl (fun c j => c.endJob j stResumeLimit) c
      c.updRingRun r fun x => { x with fenceStamp := none }

def execRingResumeExpiry (ring : Nat) (s : State) : Out := onChip (.ringResumeExpiry ring) s (ringResumeExpiry ring)

/-! ## FAULT (R504, R505, Table 15.1) -/

/-- The fault of a cause, in its domain. The unit is that of Table 15.6; a mesh segment is 8 × Facet + row. A job status and
consumed poison are found by the job's own commands, and other codes are no cause. -/
def faultOf (f : FaultEvent) (c : Chip) : Chip :=
  match f.cause with
  | 0x01 => if f.unit < 600 && f.sub < 4 then c.beadFault f.unit domBank f.cause f.sub f.detail else c
  | 0x02 | 0x03 | 0x04 | 0x05 => if f.unit < 600 then c.beadFault f.unit domBead f.cause 0 f.detail else c
  | 0x06 => if f.unit < 40 then c.segmentFault (f.unit / 8) (f.unit % 8) f.cause f.detail else c
  | 0x07 | 0x08 | 0x09 | 0x0A => if f.unit < 5 then c.facetFault f.unit f.cause f.detail else c
  | 0x0C => if f.unit < 640 then c.losePc f.unit f.detail else c
  | 0x0D => if f.unit < 20 then c.faultStack f.unit f.detail else c
  | 0x0E | 0x0F => if f.unit < 8 then c.pairFault f.unit f.cause f.detail else c
  | 0x10 => if f.unit < 12 then c.portFault f.unit f.detail else c
  | 0x11 | 0x12 | 0x13 | 0x14 => if f.unit < 2 then c.claspFault f.unit f.cause f.detail else c
  | 0x15 => if f.unit < 18 then c.edgeFault f.unit else c
  | _ => c

/-- The sequencer handles a fault that was found inside the part (R33, R504, R505). -/
def Chip.handleRaised (c : Chip) : Found → Chip
  | .status j num o st step n => c.statusFault j num o st step n
  | .poison j num tid at_ => c.poisonFault j num tid at_
  | .hw f => faultOf f c

def execFault (f : FaultEvent) (s : State) : Out := onChip (.fault f) s fun c => if c.alive then faultOf f c else c

end Sys2Proof.Machine
end

