-- ==== Sys2Proof/Machine/Dict.lean ====
section
/-! DEFINITION. The parameter dictionary as it is read: its entries (Tables 19.2 to 19.12), their values, the request and
response headers (Tables 18.2, 18.3, 18.6), and the checks that a request meets before it is handled (R612 to R632, R638 to
R641). -/
namespace Sys2Proof.Machine

/-! ## Entries (R621, R622, R638) -/

/-- A row of the dictionary: index and subindex, type code of Table 18.5, size in bytes, read and write sets (bit 0 H, 1 M,
2 B), default, instances, persistence (0 kept, 1 trigger, 2 fixed, 3 live) and effect (0 at handling, 1 at binding). -/
structure Entry where
  index : Nat
  sub : Nat
  typ : Nat
  size : Nat
  rd : Nat
  wr : Nat
  dflt : Nat
  insts : Nat
  persist : Nat
  effect : Nat
  deriving DecidableEq, Repr

def tyFlag : Nat := 0x0
def tyU8 : Nat := 0x1
def tyU16 : Nat := 0x2
def tyU32 : Nat := 0x3
def tyU64 : Nat := 0x4
def tyS16 : Nat := 0x6
def tyS32 : Nat := 0x7
def tyEnum : Nat := 0xA
def tyOctets : Nat := 0xB
def tyRecord : Nat := 0xC

/-- Bytes of a value of a numeric type. -/
def typeBytes (t : Nat) : Nat := [1, 1, 2, 4, 8, 1, 2, 4, 8, 4, 1].getD t 0

/-- A fixed or live entry, which nobody writes. -/
def fixedE (i s t n : Nat) : Entry := ⟨i, s, t, typeBytes t, 3, 0, 0, n, 2, 0⟩
def liveE (i s t n : Nat) : Entry := ⟨i, s, t, typeBytes t, 3, 0, 0, n, 3, 0⟩
/-- A kept entry with its write set and default; a single access set H also lets M read. -/
def keptE (i s t wr d n : Nat) : Entry := ⟨i, s, t, typeBytes t, 3, wr, d, n, 0, 0⟩
/-- A trigger. -/
def trigE (i s t n : Nat) : Entry := ⟨i, s, t, typeBytes t, 3, 3, 0, n, 1, 0⟩
/-- An octet string that H and M write. -/
def octE (i s size : Nat) : Entry := ⟨i, s, tyOctets, size, 3, 3, 0, 1, 0, 0⟩

/-- Table 19.2, in part: identity and communication. -/
def entries1 : List Entry :=
  [fixedE 0x1000 1 tyU16 1, fixedE 0x1000 2 tyU16 1, fixedE 0x1000 3 tyU8 1, fixedE 0x1000 4 tyU64 1,
   fixedE 0x1000 5 tyU8 1, fixedE 0x1000 6 tyU8 1, fixedE 0x1000 7 tyU64 1, liveE 0x1001 1 tyU8 4,
   liveE 0x1001 2 tyFlag 4, fixedE 0x1001 3 tyU8 2]

/-- Table 19.3: the package, tick and power. -/
def entries2 : List Entry :=
  [liveE 0x2000 1 tyU64 1, liveE 0x2000 2 tyEnum 1, fixedE 0x2000 3 tyEnum 1, liveE 0x2000 4 tyFlag 1,
   liveE 0x2000 5 tyS32 1, liveE 0x2001 1 tyU64 1, trigE 0x2001 2 tyU32 1, liveE 0x2001 3 tyEnum 1,
   liveE 0x2002 1 tyU16 8]

/-- Table 19.4: Facets and Beads. -/
def entries3 : List Entry :=
  [liveE 0x3000 1 tyU8 40, liveE 0x3000 2 tyFlag 600, liveE 0x3000 3 tyU8 600,
   { keptE 0x3001 1 tyEnum 3 0 5 with effect := 1 }, fixedE 0x3001 2 tyFlag 2400, keptE 0x3001 3 tyU32 3 125000 5,
   liveE 0x3001 4 tyEnum 5, liveE 0x3001 5 tyEnum 5, liveE 0x3001 6 tyFlag 5, liveE 0x3001 7 tyS16 40,
   octE 0x3002 1 1536, octE 0x3002 2 1536, octE 0x3002 3 1536, octE 0x3002 4 1536, octE 0x3002 5 1536,
   octE 0x3002 6 1536, octE 0x3002 7 1536, octE 0x3002 8 1536, trigE 0x3002 9 tyU8 600]

/-- Tables 19.5 and 19.6: memory and Cameo. -/
def entries4 : List Entry :=
  [liveE 0x4000 1 tyU32 1, keptE 0x4000 2 tyU8 3 4 1, liveE 0x4001 1 tyS16 20, liveE 0x4001 2 tyEnum 20,
   liveE 0x4001 3 tyEnum 20, liveE 0x4001 4 tyU16 20, liveE 0x4001 5 tyFlag 20,
   ⟨0x4001, 6, tyRecord, 68, 3, 0, 0, 20, 3, 0⟩, liveE 0x4002 1 tyEnum 640,
   fixedE 0x5000 1 tyU16 1, liveE 0x5000 2 tyEnum 8]

/-- Tables 19.7 and 19.8: Strand and the heads. -/
def entries6 : List Entry :=
  [keptE 0x6000 1 tyU16 3 0 1, keptE 0x6000 2 tyFlag 3 0 1, liveE 0x6000 3 tyU8 1, liveE 0x6000 4 tyU8 1,
   ⟨0x6001, 1, tyRecord, 32, 3, 1, 0, 4096, 0, 0⟩, liveE 0x6002 1 tyEnum 12, liveE 0x6002 2 tyU16 12,
   liveE 0x6002 3 tyU32 12, liveE 0x6002 4 tyU32 12, liveE 0x6002 5 tyU32 12,
   liveE 0x7000 1 tyEnum 2, liveE 0x7000 2 tyU8 2, liveE 0x7000 3 tyEnum 2, liveE 0x7000 4 tyU64 2,
   liveE 0x7000 5 tyEnum 2, liveE 0x7000 6 tyU32 2, liveE 0x7000 7 tyU32 2, liveE 0x7000 8 tyU32 2]

/-- Table 19.9: security and life cycle. -/
def entries8 : List Entry :=
  [liveE 0x8000 1 tyU64 2, keptE 0x8001 1 tyU64 3 0 1, keptE 0x8001 2 tyU32 3 0 1, trigE 0x8001 3 tyFlag 1,
   liveE 0x8001 4 tyU16 1, fixedE 0x8001 5 tyU8 1, fixedE 0x8001 6 tyU8 1, octE 0x8002 1 2047,
   liveE 0x8002 2 tyEnum 1, fixedE 0x8002 3 tyU16 1, trigE 0x8002 4 tyFlag 1, liveE 0x8002 5 tyU32 1,
   fixedE 0x8003 1 tyU8 1, trigE 0x8003 2 tyU8 1, ⟨0x8003, 3, tyOctets, 32, 3, 0, 0, 1, 3, 0⟩,
   octE 0x8003 4 1920, octE 0x8003 5 1920, fixedE 0x8003 6 tyU8 1]

/-- Table 19.9, sessions and what Bezel alone reads. -/
def entries8s : List Entry :=
  [⟨0x8010, 1, tyRecord, 32, 1, 1, 0, 1, 1, 0⟩, ⟨0x8010, 2, tyOctets, 1880, 1, 0, 0, 1, 3, 0⟩,
   ⟨0x8010, 3, tyOctets, 156, 1, 1, 0, 1, 1, 0⟩, ⟨0x8010, 4, tyOctets, 48, 1, 0, 0, 1, 3, 0⟩,
   ⟨0x8010, 5, tyU16, 2, 1, 0, 0, 1, 3, 0⟩, ⟨0x8010, 6, tyU16, 2, 1, 1, 0, 1, 1, 0⟩,
   liveE 0x8011 1 tyEnum 4096, liveE 0x8011 2 tyU16 4096, ⟨0x8020, 1, tyU32, 4, 4, 4, 0, 1, 3, 0⟩,
   ⟨0x8020, 2, tyRecord, 16, 4, 4, 0, 1, 3, 0⟩]

/-- Tables 19.10 and 19.11: the fault log and telemetry. -/
def entries9 : List Entry :=
  [liveE 0x9000 1 tyU32 1, keptE 0x9000 2 tyU32 3 0 1, ⟨0x9001, 1, tyRecord, 32, 3, 0, 0, 4096, 3, 0⟩,
   keptE 0xA000 1 tyU32 3 125000 1, liveE 0xA001 1 tyU32 2400, liveE 0xA001 2 tyU32 600, liveE 0xA001 3 tyU32 5,
   liveE 0xA001 4 tyU32 640, liveE 0xA001 5 tyU32 640, liveE 0xA002 1 tyU32 1, liveE 0xA002 2 tyU32 8,
   liveE 0xA002 3 tyS16 8, liveE 0xA003 1 tyU64 128, liveE 0xA003 2 tyU64 4, liveE 0xA003 3 tyU64 1]

/-- Table 19.12: queues and latency classes. -/
def entriesB : List Entry :=
  [keptE 0xB000 1 tyU64 1 0 128, keptE 0xB000 2 tyU32 1 0 128, keptE 0xB000 3 tyU64 1 0 128,
   keptE 0xB000 4 tyU32 1 0 128, keptE 0xB000 5 tyEnum 1 0 128, keptE 0xB000 6 tyFlag 1 0 128,
   keptE 0xB000 7 tyFlag 1 0 128, liveE 0xB000 8 tyU32 128, liveE 0xB000 9 tyU32 128, liveE 0xB000 0xA tyU32 128,
   keptE 0xB001 1 tyU32 3 31250000 1, keptE 0xB001 2 tyU32 3 250000000 1, keptE 0xB001 3 tyU32 3 3750000000 1,
   keptE 0xB001 4 tyU32 3 0xFFFFFFFF 1, keptE 0xB002 1 tyU32 3 125000 1, keptE 0xB002 2 tyU8 3 8 1,
   liveE 0xB003 1 tyU16 1]

/-- The dictionary, in ascending order of index and subindex. -/
def dictionary : List Entry :=
  entries1 ++ entries2 ++ entries3 ++ entries4 ++ entries6 ++ entries8 ++ entries8s ++ entries9 ++ entriesB

/-- An entry's index and subindex as one number, ordered as R624 orders them. -/
def entryKey (index sub : Nat) : Nat := index * 256 + sub
def Entry.key (e : Entry) : Nat := entryKey e.index e.sub

def findEntry (index sub : Nat) : Option Entry := dictionary.find? fun e => e.index = index && e.sub = sub

/-- The first entry above a key (R624). -/
def nextEntry (key : Nat) : Option Entry := dictionary.find? fun e => key < e.key

/-! ## Values -/

/-- A flag as a number. -/
def flagNum (b : Bool) : Nat := if b then 1 else 0

/-- A management path answers (Table 18.1). -/
def State.pathUp (s : State) (path : Nat) : Bool :=
  let c := s.chip
  if path < 2 then c.alive && (c.clasp path).svc = .inService
  else c.headUp (path - 2) && !c.ioClosed s.otp.production (path - 2)

/-- A fault log record's 256 bits (Table 15.6). -/
def FaultRec.word (r : FaultRec) : Nat :=
  r.stamp <<< 192 + r.kind <<< 188 + r.domain <<< 184 + r.cause <<< 176 + r.die <<< 168 + r.unit <<< 152
    + r.subunit <<< 144 + r.detail <<< 112 + r.queue <<< 105 + r.seq <<< 73 + r.status <<< 57 + r.count <<< 41

/-- A ring entry's 256 bits (Table 16.11), and the entry that written bits make: fence_epoch is the part's own (R641). -/
def RingEntry.word (r : RingEntry) : Nat :=
  r.enable <<< 255 + r.size <<< 241 + r.rank <<< 228 + r.session <<< 216 + r.nextPart <<< 203 + r.prevPart <<< 190
    + r.nextPorts <<< 178 + r.prevPorts <<< 166 + r.epoch <<< 134
def ringOf (w epoch : Nat) : RingEntry :=
  { enable := fld w 255 255, size := fld w 254 241, rank := fld w 240 228, session := fld w 227 216,
    nextPart := fld w 215 203, prevPart := fld w 202 190, nextPorts := fld w 189 178, prevPorts := fld w 177 166,
    epoch := epoch }

/-- A stack's repair list record (R644). -/
def StackSt.repairRecord (x : StackSt) : List Byte :=
  padTo (leBytes 4 x.repairList.length
    ++ x.repairList.flatMap fun r => leBytes 4 (r.pc <<< 27 + r.bank <<< 21 + r.row <<< 6)) 68

/-- A Bead is out of service: itself, its row or its Facet (R509). -/
def Chip.beadOut (c : Chip) (p : Nat) : Bool :=
  let f := c.facet (physFacet p)
  (c.bead p).svc = .out || f.svc = .out || (f.segs.getD (physRow p) SegSt.fresh).svc = .out

def PairSt.code (x : PairSt) : Nat := match x.svc with
  | .fenced => 2
  | .out => 3
  | .inService => if x.stream.isSome then 1 else 0

def SessState.code : SessState → Nat
  | .free => 0
  | .opened => 1
  | .closing => 2

/-- Values of Tables 19.2 and 19.3. -/
def State.identityNum (s : State) (key i : Nat) : Nat :=
  let c := s.chip
  match key with
  | 0x100001 => s.unit.vendorId
  | 0x100002 => 0xE820
  | 0x100003 => s.unit.revision
  | 0x100004 => s.unit.hallmark
  | 0x100005 => 1
  | 0x100006 => 0
  | 0x100007 => featuresOffered
  | 0x100101 => (c.path i).eid
  | 0x100102 => flagNum (s.pathUp i)
  | 0x100103 => 0x40 + 2 * c.pkg.straps.addr + i
  | 0x200001 => c.now
  | 0x200002 => c.tick.primary
  | 0x200003 => c.pkg.straps.tick
  | 0x200004 => flagNum c.tick.unaligned
  | 0x200005 => codeOf 32 c.tick.measured
  | 0x200101 => c.mgmt.configCount
  | 0x200103 => c.pkg.devState
  | 0x200201 => c.pkg.avs.getD i 0
  | _ => 0

/-- Values of Tables 19.4 to 19.6. -/
def State.unitNum (s : State) (key i : Nat) : Nat :=
  let c := s.chip
  match key with
  | 0x300001 => (c.facet (i / 8)).disabledCol.getD (i % 8) 14
  | 0x300002 => flagNum (c.beadOut i)
  | 0x300003 => match (c.bead i).job.bind c.job? with
    | some x => x.slot
    | none => 0xFF
  | 0x300101 => (c.facet i).locketMode
  | 0x300102 => flagNum (s.unit.badBanks.contains i)
  | 0x300103 => (c.facet i).idleDelay
  | 0x300104 => (c.facet i).retention
  | 0x300105 => (c.facet i).fclk
  | 0x300106 => flagNum (c.facet i).limiting
  | 0x300107 => codeOf 16 ((c.facet (i / 8)).junction.getD (i % 8) 0)
  | 0x400001 => c.mem.mapEpoch
  | 0x400002 => c.mem.repairThreshold
  | 0x400101 => codeOf 16 (c.stack i).temp
  | 0x400102 => (c.stack i).band
  | 0x400103 => (c.stack i).st
  | 0x400104 => (c.stack i).detour.getD 0xFFFF
  | 0x400105 => flagNum (c.stack i).remirrored
  | 0x400201 => (c.pcSt i).st
  | 0x500001 => s.unit.encRevision
  | 0x500002 => (c.pair i).code
  | _ => 0

/-- Values of Tables 19.7 and 19.8. -/
def State.linkNum (s : State) (key i : Nat) : Nat :=
  let c := s.chip
  match key with
  | 0x600001 => c.strand.partNumber
  | 0x600002 => c.strand.timeRef
  | 0x600003 => c.strand.parent
  | 0x600004 => c.depth
  | 0x600201 => (c.port i).st
  | 0x600202 => (c.port i).peer
  | 0x600203 => (c.port i).retries
  | 0x600204 => (c.port i).badType
  | 0x600205 => (c.port i).tagFail
  | 0x700001 => (c.head i).link
  | 0x700002 => (c.head i).width
  | 0x700003 => (c.head i).rate
  | 0x700004 => if (c.head i).hdmCommitted then (c.head i).hdmBase else 0
  | 0x700005 => (c.head i).ide
  | 0x700006 => (c.head i).ideFail
  | 0x700007 => (c.head i).replays
  | 0x700008 => (c.head i).urCount
  | _ => 0

/-- Values of Table 19.9. -/
def State.securityNum (s : State) (key i : Nat) : Nat :=
  let c := s.chip
  match key with
  | 0x800001 => (c.clasp i).filterDenied
  | 0x800101 => s.sec.imageAddr
  | 0x800102 => s.sec.imageLen
  | 0x800104 => s.sec.bootStatus
  | 0x800105 => s.otp.svn
  | 0x800106 => s.otp.revoked
  | 0x800202 => s.sec.identityState
  | 0x800203 => s.otp.blocks
  | 0x800205 => s.sec.block <<< 16 + s.sec.alias_
  | 0x800301 => s.otp.lcCount
  | 0x800306 => s.otp.tamperCount
  | 0x801005 => c.mailbox.status
  | 0x801101 => (c.session i).st.code
  | 0x801102 => c.sessionJobs i
  | 0x802001 => s.sec.lmsNext
  | _ => 0

/-- Values of Tables 19.10 to 19.12. -/
def State.serviceNum (s : State) (key i : Nat) : Nat :=
  let c := s.chip
  match key with
  | 0x900001 => c.flog.written
  | 0x900002 => c.flog.acked
  | 0xA00001 => c.telem.nextInterval
  | 0xA00101 => (c.bead (i / 4)).busyWarnings.getD (i % 4) 0
  | 0xA00102 => (c.bead i).locketCorrected
  | 0xA00103 => (c.facet i).casketCorrected
  | 0xA00104 => (c.pcSt i).corrected
  | 0xA00105 => (c.pcSt i).uncorrectable
  | 0xA00201 => c.telem.lastPower
  | 0xA00202 => c.telem.lastDie.getD i 0
  | 0xA00203 => codeOf 16 (c.telem.lastMax.getD i 0)
  | 0xA00301 => c.telem.accepted.getD i 0
  | 0xA00302 => c.telem.boundMissed.getD i 0
  | 0xA00303 => c.telem.resumes
  | 0xB00001 => (c.queue i).ringAddr
  | 0xB00002 => (c.queue i).ringEntries
  | 0xB00003 => (c.queue i).journalAddr
  | 0xB00004 => (c.queue i).journalEntries
  | 0xB00005 => (c.queue i).head
  | 0xB00006 => (c.queue i).inOrder
  | 0xB00007 => (c.queue i).enable
  | 0xB00008 => (c.queue i).consumed
  | 0xB00009 => (c.queue i).nextSeq
  | 0xB0000A => (c.queue i).jNext
  | 0xB00101 => c.sched.bounds.getD 0 0
  | 0xB00102 => c.sched.bounds.getD 1 0
  | 0xB00103 => c.sched.bounds.getD 2 0
  | 0xB00104 => c.sched.bounds.getD 3 0
  | 0xB00201 => c.sched.preemptThreshold
  | 0xB00202 => c.sched.resumeLimit
  | 0xB00301 => ledgerSize - c.jobs.length
  | _ => 0

/-- A numeric entry's value; a trigger reads 0. -/
def State.num (s : State) (key i : Nat) : Nat :=
  if key < 0x300000 then s.identityNum key i
  else if key < 0x600000 then s.unitNum key i
  else if key < 0x800000 then s.linkNum key i
  else if key < 0x900000 then s.securityNum key i
  else s.serviceNum key i

/-- An octet string or record, before it is filled up with zeros; a trigger reads 0. -/
def State.octets (s : State) (key i : Nat) : List Byte :=
  let c := s.chip
  match key with
  | 0x400106 => (c.stack i).repairRecord
  | 0x600101 => leBytes 32 (c.ring i).word
  | 0x800201 => s.sec.bundle
  | 0x800303 => s.sec.nonce
  | 0x800304 => s.sec.token.take 1920
  | 0x800305 => s.sec.token.drop 1920
  | 0x801002 => c.mailbox.offer
  | 0x801004 => c.mailbox.confirm
  | 0x802002 => leBytes 4 (s.sec.block <<< 16 + s.sec.alias_) ++ leBytes 4 s.sec.lmsNext
  | 0x900101 => match c.flog.recs.find? i with
    | some r => leBytes 32 r.word
    | none => []
  | _ => if 0x300201 ≤ key && key ≤ 0x300208 then (c.mgmt.stage.drop (1536 * (key - 0x300201))).take 1536 else []

/-- The value of one instance of an entry, all its bytes (R621). -/
def State.value (s : State) (e : Entry) (i : Nat) : List Byte :=
  if e.typ = tyOctets || e.typ = tyRecord then padTo (s.octets e.key i) e.size else leBytes e.size (s.num e.key i)

/-! ## Requests and responses (R613 to R618, R623, R624) -/

/-- Access class of a path, as a set: bit 0 H, bit 1 M (Table 18.1). -/
def pathClass (path : Nat) : Nat := if path < 2 then 2 else 1

/-- Fields of a response (Table 18.3). -/
structure Response where
  status : Nat
  typ : Nat
  count : Nat
  firstFail : Nat
  failMask : Nat
  data : List Byte
  deriving DecidableEq, Repr

/-- A response that only refuses. -/
def Response.refuse (status typ : Nat) : Response :=
  { status := status, typ := typ, count := 0, firstFail := 0x1FFF, failMask := 0, data := [] }

/-- A response's bytes: its header and its data (R616). -/
def Response.bytes (x : Response) (r : MgmtReq) (stamp : Nat) : List Byte :=
  leBytes 24 (r.op <<< 188 + r.select <<< 186 + r.reqId <<< 176 + x.status <<< 160 + x.typ <<< 156 + x.count <<< 143
    + x.firstFail <<< 130 + stamp <<< 64 + x.failMask) ++ x.data

/-- Instances that a request selects, ascending (R626). -/
def selected (r : MgmtReq) (e : Entry) : List Nat :=
  if r.select = 0 then [r.inst]
  else if r.select = 1 then ((List.range 64).filter (bit r.mask)).map (r.inst + ·)
  else List.range e.insts

/-- Check 1 without the entry: op and select known, reserved fields 0, the fields that select fixes (R6, R615, R626). -/
def headerOk (r : MgmtReq) : Bool :=
  r.op < 4 && r.select < 3 && r.resv = 0 && (r.op < 2 || r.select = 0)
    && (r.op = 3 || ((r.select = 1) == (r.mask != 0))) && (r.select != 2 || r.inst = 0)

/-- Check 1 with the entry: offset, length and the value's size agree with its type (Tables 18.2, 18.5). -/
def shapeOk (r : MgmtReq) (e : Entry) : Bool :=
  if r.op = 2 then r.offset = 0 && r.length = 0 && r.value.isEmpty
  else if e.typ = tyOctets then
    1 ≤ r.length && r.length ≤ 1024 && r.offset + r.length ≤ e.size && r.value.length = (if r.op = 1 then r.length else 0)
  else r.offset = 0 && r.length = 0 && r.value.length = (if r.op = 1 then e.size else 0)

/-- The ROM phase: only ranges 0x1000 and 0x8000 answer (R582, R636). -/
def Chip.romPhase (c : Chip) : Bool := c.pkg.power = .rom || c.pkg.power = .booting

/-- The value's number. -/
def reqNum (r : MgmtReq) : Nat := leNat r.value

/-- Check 5: the value lies in the entry's own range (Table 18.5 and the entry's row). -/
def rangeOk (e : Entry) (v : Nat) : Bool :=
  match e.key with
  | 0x200102 => v = 1
  | 0x300101 => v ≤ 1
  | 0x300209 => v ≤ 7
  | 0x400002 => 1 ≤ v
  | 0x600001 => v ≤ 8191
  | 0x600101 => fld v 133 0 = 0
  | 0x800302 => 1 ≤ v && v ≤ 4
  | 0x801001 => fld v 241 240 = 0 && fld v 63 0 = 0 && 1 ≤ fld v 239 224 && fld v 239 224 ≤ 4096
      && 1 ≤ fld v 223 192 && fld v 191 128 % 4096 = 0 && fld v 127 64 % 4096 = 0
  | 0x801006 => v ≤ 4095
  | 0xA00001 => 1250 ≤ v && v ≤ 125000000
  | 0xB00001 | 0xB00003 => v % 4096 = 0
  | 0xB00002 => isPow2 v && 16 ≤ v && v ≤ 65536
  | 0xB00004 => isPow2 v && 32 ≤ v && v ≤ 131072
  | 0xB00005 => v ≤ 1
  | 0xB00202 => 1 ≤ v
  | _ => e.typ != tyFlag || v ≤ 1

/-- The status that checks 1 to 5 of Table 18.4 give a request for an entry; OK when it passes. A describe needs only
check 2 (R623). -/
def State.precheck (s : State) (r : MgmtReq) : Nat :=
  match headerOk r, findEntry r.index r.sub with
  | false, _ => stValueRange
  | true, none => stNoSuchEntry
  | true, some e =>
    if !shapeOk r e then stValueRange
    else if (selected r e).any (e.insts ≤ ·) then stNoSuchEntry
    else if r.op = 2 then stOK
    else if s.chip.romPhase && r.index / 4096 != 1 && r.index / 4096 != 8 then stTargetReset
    else if r.op = 0 then
      if e.rd &&& pathClass r.path = 0 then stAccessDenied
      else if 4096 < 24 + (selected r e).length * (if e.typ = tyOctets then r.length else e.size) then stValueRange
      else stOK
    else if e.wr = 0 then stReadOnly
    else if e.wr &&& pathClass r.path = 0 then stAccessDenied
    else if !(e.typ = tyOctets || rangeOk e (reqNum r)) then stValueRange
    else stOK

/-- Type code that a response reports. -/
def typeOf (r : MgmtReq) : Nat := ((findEntry r.index r.sub).map (·.typ)).getD 0

/-- A read's response: one value for each selected instance (R616, R628). -/
def State.readResponse (s : State) (r : MgmtReq) : Response :=
  match s.precheck r, findEntry r.index r.sub with
  | 0, some e =>
    let one (i : Nat) : List Byte := if e.typ = tyOctets then ((s.value e i).drop r.offset).take r.length else s.value e i
    let is := selected r e
    { Response.refuse stOK e.typ with count := is.length, data := is.flatMap one }
  | st, _ => Response.refuse st (typeOf r)

/-- The 32-byte description of an entry; a fixed entry's default is its value (R623, R638, Table 18.6). -/
def State.description (s : State) (e : Entry) : List Byte :=
  let d := if e.typ = tyOctets || e.typ = tyRecord then 0 else if e.persist = 2 then s.num e.key 0 else e.dflt
  leBytes 32 (e.typ <<< 252 + e.persist <<< 250 + e.effect <<< 248 + e.rd <<< 245 + e.wr <<< 242 + e.insts <<< 229
    + e.size <<< 218 + d)

def State.describeResponse (s : State) (r : MgmtReq) : Response :=
  match s.precheck r, findEntry r.index r.sub with
  | 0, some e => { Response.refuse stOK e.typ with data := s.description e }
  | st, _ => Response.refuse st (typeOf r)

/-- A next's response: the first entry above the one named (R624). -/
def nextResponse (r : MgmtReq) : Response :=
  if !headerOk r || r.offset != 0 || r.length != 0 || !r.value.isEmpty then Response.refuse stValueRange (typeOf r)
  else match nextEntry (entryKey r.index r.sub) with
    | some e => { Response.refuse stOK (typeOf r) with data := leBytes 2 e.index ++ leBytes 1 e.sub ++ [0] }
    | none => Response.refuse stNoSuchEntry (typeOf r)

/-- A next as the part answers it: in the ROM phase one that names no entry of the ranges 0x1000 and 0x8000 is refused (R582, R618,
assumption 67, DEDUCED). -/
def State.nextResponse (s : State) (r : MgmtReq) : Response :=
  let x := Machine.nextResponse r
  if x.status != stValueRange && s.chip.romPhase && r.index / 4096 != 1 && r.index / 4096 != 8
  then Response.refuse stTargetReset (typeOf r) else x

/-- A request that a path takes: the path answers, or the boot phase opens it for this request (R538). -/
def State.takesRequest (s : State) (r : MgmtReq) : Bool :=
  s.pathUp r.path
    || (2 ≤ r.path && s.chip.headUp (r.path - 2) && s.chip.pkg.bootPhase && (s.chip.head (r.path - 2)).ide != 2
        && (r.index / 4096 = 1 || (0x800101 ≤ entryKey r.index r.sub && entryKey r.index r.sub ≤ 0x800205)))

/-- What a request meets on a path that does not take it: a head in L0 answers Unsupported Request; otherwise nothing
happens (R537, Table 18.1). -/
def State.turnAway (s : State) (path : Nat) : State :=
  if 2 ≤ path && s.chip.headUp (path - 2) then { s with chip := s.chip.unsupported (path - 2) } else s

/-- A response leaves on its request's path. -/
def State.respond (s : State) (r : MgmtReq) (bs : List Byte) : State := { s with chip := s.chip.send (.mgmt r.path r.tag bs) }

/-- The most recent stamp that the sequencer has finished: every event and fault that it still holds is later (R632). -/
def State.finished (s : State) : Nat :=
  ((s.inbox.map (·.stamp)).head?.toList ++ (s.chip.raised.map (·.stamp)).head?.toList).foldl (fun m n => min m (n - 1)) s.chip.now

/-- A request that is not sequenced is answered at once with a response made of the state (R618, R632). -/
def answerNow (r : MgmtReq) (f : State → MgmtReq → Response) (s : State) : State :=
  if s.takesRequest r then s.respond r ((f s r).bytes r s.finished) else s.turnAway r.path

def execDictRead (r : MgmtReq) (s : State) : Out := meaning (.dictRead r) s (answerNow r State.readResponse)

def execDictDescribe (r : MgmtReq) (s : State) : Out := meaning (.dictDescribe r) s (answerNow r State.describeResponse)

def execDictNext (r : MgmtReq) (s : State) : Out := meaning (.dictNext r) s (answerNow r State.nextResponse)

end Sys2Proof.Machine
end

