-- ==== Sys2Proof/Machine/Security.lean ====
section
/-! DEFINITION. Bezel and the ROM: image checks and boot (R582 to R587), identity and signatures (R593 to R599), attestation
(R600 to R602), sessions and their keys (R603, R604, R648), life cycle and tamper (R588 to R592). -/
namespace Sys2Proof.Machine

/-- A state whose chip is changed. -/
def State.onChip (s : State) (f : Chip → Chip) : State := { s with chip := f s.chip }
/-- A state whose security registers are changed. -/
def State.onSec (s : State) (f : SecSt → SecSt) : State := { s with sec := f s.sec }

/-- Free bytes at the level of the whole part. -/
def State.freeBytes (s : State) (n : Nat) : List Byte × State :=
  let (bs, c) := s.chip.freeBytes n
  (bs, { s with chip := c })

/-! ## What the ROM holds -/

/-- Keys of an image slot burned in the ROM: ECDSA, then HSS (R584). -/
def romEcdsaKey (slot : Nat) : List Byte := Config.romBytes (2 * slot)
def romHssKey (slot : Nat) : List Byte := Config.romBytes (2 * slot + 1)
/-- The ROM's own bytes, the unit device secret, and the certificates above the alias (R593, R600). -/
def romCode : List Byte := Config.romBytes 8
def udsSecret : List Byte := Config.romBytes 9
def creordChain : List Byte := Config.romBytes 10
/-- Creord's HSS signature over the DeviceID certificate (R601). -/
def creordHss : List Byte := Config.romBytes 11

/-- Bytes signed by both keys of an unrevoked ROM slot (R584, R589). -/
def signedBy (slot : Nat) (msg ecdsa hss : List Byte) : Bool :=
  Config.ecdsaVerify (romEcdsaKey slot) msg ecdsa && Config.lmsVerify (romHssKey slot) msg hss

/-! ## Images (R583, R584, Tables 17.2, 17.3) -/

def imMagic (h : Nat) : Nat := fld h 1023 992
def imFormat (h : Nat) : Nat := fld h 991 976
def imComponents (h : Nat) : Nat := fld h 975 968
def imCommit (h : Nat) : Bool := bit h 967
def imSlot (h : Nat) : Nat := fld h 966 965
def imLcMask (h : Nat) : Nat := fld h 964 960
def imSvn (h : Nat) : Nat := fld h 959 952
def imRevoke (h : Nat) : Nat := fld h 951 948
def imBytes (h : Nat) : Nat := fld h 927 896
def imEcdsa (h : Nat) : Nat := fld h 895 864
def imLms (h : Nat) : Nat := fld h 863 832
def imLmsBytes (h : Nat) : Nat := fld h 831 800
def imTarget (h : Nat) : Nat := fld h 799 736
def icType (e : Nat) : Nat := fld e 511 504
def icOffset (e : Nat) : Nat := fld e 479 448
def icLength (e : Nat) : Nat := fld e 447 416
def icDigest (e : Nat) : Nat := fld e 383 0

/-- Header and directory entries of an image. -/
def imageHeader (img : List Byte) : Nat := getLE img 0 128
def imageEntries (img : List Byte) : List Nat :=
  (List.range (imComponents (imageHeader img))).map fun i => getLE img (128 + 64 * i) 64

/-- The digest that the directory gives the component of a type. -/
def componentDigest (img : List Byte) (t : Nat) : List Byte :=
  match (imageEntries img).find? (icType · = t) with
  | some e => leBytes 48 (icDigest e)
  | none => []

/-- Check 1 of R584: format, lengths, reserved fields, and one component of each type inside the image. -/
def imageForm (img : List Byte) (len : Nat) : Bool :=
  let h := imageHeader img
  let es := imageEntries img
  let n := imBytes h
  imMagic h = 0x5659494D && imFormat h = 1 && 1 ≤ imComponents h && imComponents h ≤ 8 && imSvn h ≤ 128
    && fld h 947 928 = 0 && fld h 735 0 = 0 && n ≤ 2 ^ 26 && n ≤ len
    && 128 + 64 * es.length ≤ n && imEcdsa h + 96 ≤ n && imLms h + imLmsBytes h ≤ n
    && sortBy (· ≤ ·) (es.map icType) = [0, 1, 2]
    && es.all fun e => fld e 503 480 = 0 && fld e 415 384 = 0 && icOffset e % 4096 = 0 && icOffset e + icLength e ≤ n

/-- The status that the first failing check of R584 gives; OK when all pass. -/
def State.imageStatus (s : State) (img : List Byte) : Nat :=
  let h := imageHeader img
  let signed := img.take (128 + 64 * imComponents h)
  if !imageForm img s.sec.imageLen then stSignatureInvalid
  else if bit s.otp.revoked (imSlot h) then stSignatureInvalid
  else if imTarget h != 0 && imTarget h != s.unit.hallmark then stSignatureInvalid
  else if !bit (imLcMask h) s.otp.lcCount then stLifecycleDenied
  else if imSvn h < s.otp.svn then stRollback
  else if (imageEntries img).any (fun e => Config.sha384 (sliceBytes img (icOffset e) (icLength e)) != leBytes 48 (icDigest e))
    then stSignatureInvalid
  else if !Config.ecdsaVerify (romEcdsaKey (imSlot h)) signed (sliceBytes img (imEcdsa h) 96) then stSignatureInvalid
  else if !Config.lmsVerify (romHssKey (imSlot h)) signed (sliceBytes img (imLms h) (imLmsBytes h)) then stSignatureInvalid
  else stOK

/-- The head through which the image is read, and whether it carries the read: outside IDE in the boot phase, inside the
stream after it (R538, R582). -/
def State.imageReadable (s : State) : Bool :=
  let h := s.chip.pkg.straps.boot
  s.chip.headUp h && (s.chip.head h).ide != 2
    && (s.chip.pkg.bootPhase || !s.otp.production || (s.chip.head h).ide = 1)

/-- The image that the entries name. -/
def State.image (s : State) : List Byte := s.chip.hostRead s.sec.imageAddr s.sec.imageLen

/-! ## Identity (R593 to R599) -/

/-- Bezel takes the lowest unburned identity block and burns its bit; with none left the identity has ended (R595, R599). -/
def State.claimBlock (s : State) : State :=
  if 8192 ≤ s.otp.blocks then s.onSec fun x => { x with identityState := 2, treesReady := 0 }
  else
    { s with otp := { s.otp with blocks := s.otp.blocks + 1 },
             sec := { s.sec with block := s.otp.blocks, alias_ := 0, lmsNext := 0, treesReady := 0, identityState := 1 } }

/-- The UDS; none that the key-derivation engine reads where it is not fused, or is locked (Table 17.5). -/
def Otp.readUds (o : Otp) : Option (List Byte) := if o.udsPresent && !o.udsLocked then some (o.uds.getD udsSecret) else none

/-- The layer keys that the ROM derives at a cold boot, after the image has passed (R586, Table 17.6). -/
def State.deriveLayers (s : State) : Option LayerKeys :=
  s.otp.readUds.map fun uds =>
    { device := Config.hkdfExpand uds (label "hallmark device") 48,
      trees := [Config.hkdfExpand uds (label "hallmark lms 0") 24, Config.hkdfExpand uds (label "hallmark lms 1") 24],
      cdi := Config.hkdfExpand uds (Config.sha384 romCode ++ s.sec.patchDigest
        ++ leBytes 1 s.otp.lcCount ++ leBytes 1 s.otp.svn ++ leBytes 1 s.otp.revoked) 48 }

/-- DeviceID, the seed of an identity tree, and the alias key; empty where there are no layer keys. -/
def State.deviceKey (s : State) : List Byte := s.sec.layers.elim [] (·.device)
def State.treeSeed (s : State) (t : Nat) : List Byte := s.sec.layers.elim [] fun k => k.trees.getD t []
def State.aliasKey (s : State) : List Byte :=
  s.sec.layers.elim [] fun k => Config.hkdfExpand k.cdi (label "hallmark alias" ++ leBytes 2 s.sec.block) 48

/-- Indices of an alias tree, and how many of them are used before the next tree is made (R594, R597). -/
def aliasIndices : Nat := 32768
def aliasHalf : Nat := 16384

/-- An index of the current alias tree is used: after the last one the next alias takes over, and after the last leaf of the
block the next block (R595, R598). -/
def State.useIndex (s : State) : State :=
  if s.sec.lmsNext + 1 < aliasIndices then s.onSec fun x => { x with lmsNext := x.lmsNext + 1 }
  else if s.sec.alias_ + 1 < 1024 then
    s.onSec fun x => { x with lmsNext := 0, alias_ := x.alias_ + 1, treesReady := x.treesReady - 1 }
  else s.claimBlock

/-- Both signatures of the alias over a message: ECDSA, 96 bytes, and LMS, 1,620 bytes; one LMS index is used (R598, R601). -/
def State.aliasSign (s : State) (msg : List Byte) : (List Byte × List Byte) × State :=
  let e := padTo (Config.sign s.aliasKey msg 0) 96
  let l := padTo (Config.sign (Config.aliasSeed s.sec.block s.sec.alias_) msg s.sec.lmsNext) 1620
  ((e, l), s.useIndex)

/-! ## Session offers (R603, R648) -/

/-- The offer of the request at hand is signed and written. -/
def State.makeOffer (s : State) : State :=
  let (nonce, s) := s.freeBytes 32
  let (priv, s) := s.freeBytes 48
  let body := s.chip.mailbox.request ++ nonce ++ padTo (Config.publicKey priv) 97 ++ [0, 0, 0]
  let ((e, l), s) := s.aliasSign body
  s.onChip fun c => { c with mailbox := { c.mailbox with offer := body ++ e ++ l, offerSecret := priv,
                                                         offered := some c.now, confirm := [], status := stOK } }

/-- An offer for the request at hand: made, waiting for Bezel to be able to sign, or refused for good (R596, R599). -/
def State.offer (s : State) : State :=
  if s.sec.identityState = 2 then
    s.onChip fun c => { c with mailbox := { c.mailbox with request := [], status := stEndOfIdentity } }
  else if s.canSign then s.makeOffer
  else s.onSec fun x => { x with waiting := x.waiting ++ [.offer] }

/-! ## Attestation (R600 to R602) -/

/-- A measurement block's content (Table 17.9). -/
def State.measurement (s : State) (i : Nat) : List Byte :=
  match i with
  | 1 => Config.sha384 romCode
  | 2 => s.sec.patchDigest
  | 3 => s.sec.paveDigest
  | 4 => s.sec.cameoDigest
  | 5 => leBytes 1 s.otp.lcCount ++ leBytes 1 s.otp.svn ++ leBytes 1 s.otp.revoked ++ leBytes 1 s.sec.keySlot
  | 6 => leBytes 1 s.otp.tamperCount
  | 7 => leBytes 2 s.sec.block ++ leBytes 2 s.sec.alias_
  | 8 => s.chip.settings.flatMap fun (h, x) => leBytes 2 h ++ Config.sha384 x.capsule
  | _ => []

/-- The certificate chain of slot 0 ends with the alias certificate, signed by the DeviceID key and carrying its block
(R597, R600); where the life cycle allows no identity signing there is no alias (Table 17.4). -/
def State.aliasCert (s : State) : List Byte :=
  let body := Config.publicKey s.aliasKey ++ leBytes 2 s.sec.block
  body ++ Config.sign s.deviceKey body 0
def State.certChain (s : State) : List Byte := creordChain ++ if s.otp.signs then s.aliasCert else []

/-- The alias certification record with its identity signature (R597). -/
def State.aliasRecord (s : State) : List Byte :=
  let body := leBytes 8 s.unit.hallmark ++ leBytes 2 s.sec.block ++ leBytes 2 s.sec.alias_
    ++ Config.lmsPublic (Config.aliasSeed s.sec.block s.sec.alias_) ++ Config.sha384 s.aliasCert
  body ++ Config.sign (s.treeSeed (s.sec.block / 4096)) body (s.sec.block % 4096 * 1024 + s.sec.alias_)

/-- A response of the responder leaves. -/
def State.spdmOut (s : State) (path code : Nat) (bs : List Byte) : State := s.onChip fun c => c.send (.spdm path code bs)

/-- The ERROR response with its code. -/
def State.spdmError (s : State) (path err : Nat) : State := s.spdmOut path 0x7F [BitVec.ofNat 8 err]

/-- Whether a request asks for a signature, and the body that is signed with the code of its response. -/
def State.spdmSigned (s : State) (r : SpdmRequest) : Option (Nat × List Byte) :=
  match r with
  | .challenge _ nonce => some (0x03, Config.sha384 s.certChain ++ nonce)
  | .getMeasurements i true nonce => some (0x60, s.measurement i ++ nonce)
  | .keyExchange _ body => some (0x64, body)
  | _ => none

/-- A signed response: the body, a nonce of the responder, the ECDSA signature, and the Creord element with the LMS signature
(R601). -/
def State.spdmSign (s : State) (path code : Nat) (body : List Byte) : State :=
  let (nonce, s) := s.freeBytes 32
  let ((e, l), s) := s.aliasSign (body ++ nonce)
  s.spdmOut path code (body ++ nonce ++ e ++ l)

/-- The certificate slot of a request, where it names one: only slot 0 is provisioned (R600). -/
def spdmSlot : SpdmRequest → Nat
  | .getCertificate slot => slot
  | .challenge slot _ => slot
  | .keyExchange slot _ => slot
  | _ => 0

/-- The responder's answer to a request that asks for no signature. -/
def State.spdmPlain (s : State) (path : Nat) (r : SpdmRequest) : State :=
  match r with
  | .getVersion => s.spdmOut path 0x04 [0x12, 0x13]
  | .getCapabilities => s.spdmOut path 0x61 (label "CERT CHAL MEAS KEY_EX MUT_AUTH ENCRYPT MAC HBEAT")
  | .negotiateAlgorithms => s.spdmOut path 0x63 (label "ECDSA-P384 SHA-384 SECP384R1 AES-256-GCM")
  | .getDigests => s.spdmOut path 0x01 (Config.sha384 s.certChain)
  | .getCertificate _ => s.spdmOut path 0x02 s.certChain
  | .getMeasurements i _ _ => s.spdmOut path 0x60 (s.measurement i)
  | .finish _ => s.spdmOut path 0x65 []
  | .heartbeat => s.spdmOut path 0x68 []
  | .endSession => s.spdmOut path 0x6C []
  | .challenge _ _ | .keyExchange _ _ | .other _ => s.spdmError path 0x07

/-- A request as the responder serves it: a signature waits while the identity waits for its bundle or for a tree, and fails
once the identity has ended or its keys are erased (R592, R596, R599). -/
def State.spdmServe (s : State) (path : Nat) (r : SpdmRequest) : State :=
  if spdmSlot r != 0 then s.spdmError path 0x01
  else match s.spdmSigned r with
    | none => s.spdmPlain path r
    | some (code, body) =>
      if s.canSign then s.spdmSign path code body
      else if s.sec.identityState = 2 || s.sec.keysErased || !s.otp.signs then s.spdmError path 0x05
      else s.onSec fun x => { x with waiting := x.waiting ++ [.spdm path r] }

/-- A path of the responder answers: a management path as Table 18.1 says, opened to SPDM in the boot phase, or the DOE mailbox
of a head in L0 (R537, R538, R600). The responder is Bezel, which runs once an image has passed. -/
def State.spdmUp (s : State) (path : Nat) : Bool :=
  s.chip.pkg.power != .rom
    && if path < 4 then
         s.pathUp path || (2 ≤ path && s.chip.headUp (path - 2) && s.chip.pkg.bootPhase && (s.chip.head (path - 2)).ide != 2)
       else s.chip.headUp (path - 4)

/-- SPDM_REQUEST (R600 to R602). -/
def spdmRequest (path : Nat) (r : SpdmRequest) (s : State) : State :=
  if s.spdmUp path then s.spdmServe path r else if path < 4 then s.turnAway path else s

def execSpdmRequest (path : Nat) (r : SpdmRequest) (s : State) : Out := meaning (.spdmRequest path r) s (spdmRequest path r)

/-- SPDM_VENDOR_REQUEST: Creord's registry identifier brings the LMS chain, any other an error (R601). -/
def spdmVendorRequest (path registry : Nat) (s : State) : State :=
  if !s.spdmUp path then (if path < 4 then s.turnAway path else s)
  else if registry = s.unit.vendorId && s.sec.identityState = 0 && !s.sec.keysErased && s.otp.signs then
    s.spdmOut path 0x7E (creordHss ++ s.aliasRecord)
  else s.spdmError path 0x07

def execSpdmVendorRequest (path registry : Nat) (s : State) : Out :=
  meaning (.spdmVendorRequest path registry) s (spdmVendorRequest path registry)

/-- Requests that waited are served in the order of their stamps (R596, R598); what still has to wait waits again. -/
def State.serveWaiting (s : State) : State :=
  s.sec.waiting.foldl (fun s w => match w with
    | .offer => s.offer
    | .spdm path r => s.spdmServe path r) (s.onSec fun x => { x with waiting := [] })

/-- ALIAS_TREE_GENERATE: the first tree of a block, or the next one once half of the current one is used (R597). -/
def aliasTreeGenerate (s : State) : State :=
  let x := s.sec
  if s.chip.alive && x.identityState = 0 && !x.keysErased && s.otp.signs
      && s.chip.pkg.power != .rom && (x.treesReady = 0 || (x.treesReady = 1 && aliasHalf ≤ x.lmsNext)) then
    (s.onSec fun x => { x with treesReady := x.treesReady + 1 }).serveWaiting
  else s

def execAliasTreeGenerate (s : State) : Out := meaning .aliasTreeGenerate s aliasTreeGenerate

/-- A bundle that is right for the block at hand (R596, R646). -/
def State.bundleRight (s : State) : Bool :=
  let bs := padTo s.sec.bundle 2047
  let n := getLE bs 2 2
  getLE bs 0 2 = s.sec.block && n ≤ 1755 && !anyNonzero (bs.drop (292 + n))
    && Config.pathCarries s.sec.block (sliceBytes bs 4 288) && Config.certNames (sliceBytes bs 292 n) (Config.publicKey s.deviceKey)

/-- Bezel checks the bundle: a right one certifies the first alias of the block, a wrong one leaves identity_state at 1
(R596). -/
def State.commitBundle (s : State) : State :=
  if s.bundleRight then (s.onSec fun x => { x with identityState := 0, treesReady := 1, lmsNext := 0 }).serveWaiting else s

/-! ## Boot (R582 to R586) -/

/-- The digests and the version that a passed image brings. -/
def State.takeImage (s : State) (img : List Byte) : State :=
  let h := imageHeader img
  s.onSec fun x => { x with keySlot := imSlot h, imageSvn := imSvn h, commitSvn := imCommit h, revokeMask := imRevoke h,
                            patchDigest := componentDigest img 0, paveDigest := componentDigest img 1,
                            cameoDigest := componentDigest img 2 }

/-- Bezel programs the access filter of both Clasps (R578, R586). -/
def Chip.programFilters (c : Chip) : Chip := { c with clasps := c.clasps.map fun x => { x with filterOn := true } }

/-- The ROM checks the image; one that passes boots: the ROM derives the layer keys, Bezel claims an identity block where the life cycle
allows identity signing, and programs the access filters (R584, R586, Table 17.4). -/
def State.bootCheck (s : State) : State :=
  if !s.imageReadable then s
  else
    let st := s.imageStatus s.image
    let t := s.onSec fun x => { x with bootStatus := st }
    if st != stOK then t
    else
      let t := t.takeImage s.image
      let t := t.onSec fun x => { x with layers := t.deriveLayers }
      let t := if s.otp.signs || 8192 ≤ s.otp.blocks then t.claimBlock else t
      t.onChip fun c => { c with pkg := { c.pkg with power := .booting } }.programFilters

/-- The fused version and the revocations that the image asks for, once after a cold boot (R585). -/
def State.commitSvn (s : State) : State :=
  if s.sec.svnDone then s
  else
    let o := s.otp
    let o := if s.sec.commitSvn then { o with svn := max o.svn s.sec.imageSvn } else o
    let own := 2 ^ s.sec.keySlot
    let mask := s.sec.revokeMask - (if bit s.sec.revokeMask s.sec.keySlot then own else 0)
    { s with otp := { o with revoked := o.revoked ||| mask }, sec := { s.sec with svnDone := true } }

/-- PAVE_READY: every die has its fused voltage and is released, memory has been trained, the heads and Strand are up, device_state
becomes 1, and Bezel commits the version (R585, R586, R659). While Bezel awaits a bundle the boot has not come so far (R596). -/
def paveReady (s : State) : State :=
  if s.chip.pkg.power = .booting && s.sec.identityState != 1 then
    let s' := s.onChip fun c =>
      let c := (s.unit.fusedMv.zipIdx).foldl (fun c (mv, d) => c.send (.voltage d mv)) c
      let c := c.noteHeads
        { c with pkg := { c.pkg with power := .running, devState := 1, bootPhase := false, avs := s.unit.fusedMv } }
      c.firstTraining s.unit
    s'.commitSvn
  else s

def execPaveReady (s : State) : Out := meaning .paveReady s paveReady

/-! ## Sessions (R469, R470, R603, R604, R648) -/

/-- Fields of a session request (Table 19.14). -/
def sqSlot (w : Nat) : Nat := fld w 255 244
def sqCeiling (w : Nat) : Nat := fld w 243 242
def sqJobLimit (w : Nat) : Nat := fld w 239 224
def sqRunLimit (w : Nat) : Nat := fld w 223 192
def sqSwapAddr (w : Nat) : Nat := fld w 191 128
def sqSwapBytes (w : Nat) : Nat := fld w 127 64

/-- The mailbox holds an exchange: an offer, or a request that waits for one. -/
def Mailbox.busy (m : Mailbox) : Bool := !m.request.isEmpty

/-- A status of the mailbox's last step. -/
def State.mailStatus (s : State) (st : Nat) : State := s.onChip fun c => { c with mailbox := { c.mailbox with status := st } }

/-- A session request: the slot must be FREE and the mailbox without an offer; the life cycle must allow sessions (R603, R648,
Table 17.4). -/
def State.requestSession (s : State) (rec_ : List Byte) : Nat × State :=
  if (s.chip.session (sqSlot (leNat rec_))).st != .free || s.chip.mailbox.busy || (lifeCycle s.otp.lcCount).sessions = .none
  then (stSessionInvalid, s.mailStatus stSessionInvalid)
  else (stOK, (s.onChip fun c => { c with mailbox := { Mailbox.fresh with request := rec_ } }).offer)

/-- The exchange in the mailbox is over. -/
def Mailbox.closed (m : Mailbox) : Mailbox := { m with request := [], offerSecret := [], offered := none }

/-- Ticks for which an offer stands. -/
def offerTicks : Nat := 125000000

/-- The secrets that an accept carries, and the keys of its session: the offer and the client's key are hashed into the salt
(R603, R604). -/
def Chip.acceptKeys (c : Chip) (acc : List Byte) : Option (List Byte × (String → Nat → List Byte)) :=
  let m := c.mailbox
  let pub := acc.take 97
  if !Config.validPoint pub then none
  else
    let prk := Config.hkdfExtract (Config.sha384 (m.offer ++ acc.take 100)) (Config.ecdh m.offerSecret pub)
    let key (l : String) (n : Nat) : List Byte := Config.hkdfExpand prk (label l) n
    (Config.gcmDecrypt (key "vylar confirm" 32) (sliceBytes m.offer 32 12) (acc.take 100) (sliceBytes acc 100 40)
      (sliceBytes acc 140 16)).map fun body => (body, key)

/-- The slot that an accept opens. -/
def openedSession (w : Nat) (body : List Byte) (key : String → Nat → List Byte) : SessionSt :=
  { st := .opened, seed := getLE body 0 8, ceiling := sqCeiling w, jobLimit := sqJobLimit w, runLimit := sqRunLimit w,
    swapAddr := sqSwapAddr w, swapBytes := sqSwapBytes w, jobCtr := 0, moveCtr := 0, keyIn := key "vylar in" 32,
    keyOut := key "vylar out" 32, keySwap := key "vylar swap" 32, ringSecret := sliceBytes body 8 32 }

/-- A session accept: refused without an offer in time or when its body does not decrypt; otherwise the slot is OPEN and the
confirmation is there (R603). -/
def Chip.acceptSession (c : Chip) (acc : List Byte) : Nat × Chip :=
  let m := c.mailbox
  let no : Nat × Chip := (stSessionKeyInvalid, { c with mailbox := { m.closed with status := stSessionKeyInvalid } })
  match m.offered with
  | none => (stSessionKeyInvalid, { c with mailbox := { m with status := stSessionKeyInvalid } })
  | some t =>
    if t + offerTicks ≤ c.now then no
    else match c.acceptKeys acc with
      | none => no
      | some (body, key) =>
        let w := leNat m.request
        let confirm := Config.hmac384 (key "vylar confirm" 32) (m.request ++ m.offer ++ acc)
        let c := c.setSession (sqSlot w) (openedSession w body key)
        let c := { c with ringRuns := c.ringRuns.filter fun r => (c.ring r.1).session != sqSlot w }
        (stOK, { c with mailbox := { m.closed with confirm := padTo confirm 48, status := stOK } })

/-- SESSION_OFFER_EXPIRY: an offer has stood for 125,000,000 tk (R648). -/
def sessionOfferExpiry (c : Chip) : Chip :=
  match c.mailbox.offered with
  | some t => if t + offerTicks ≤ c.now then { c with mailbox := c.mailbox.closed } else c
  | none => c

def execSessionOfferExpiry (s : State) : Out := onChip .sessionOfferExpiry s sessionOfferExpiry

/-- A session closes: CLOSING while it has jobs, otherwise FREE with its keys erased (R470). -/
def Chip.closeSession (c : Chip) (n : Nat) : Nat × Chip :=
  if (c.session n).st != .opened then (stSessionInvalid, c)
  else (stOK, (c.updSession n fun x => { x with st := .closing }).settleSession n)

/-! ## What Pave reaches (R578, R579) -/

/-- A resource of Table 17.1. -/
inductive Resource where
  | otp
  | secureStore
  | keys
  | cryptoEngines
  | onChip
  | tagged
  | capsules
  | hostWindow
  | paveRange
  | scheduling
  | classB
  deriving DecidableEq, Repr

/-- Whether Table 17.1 lets Pave access a resource. Of the crypto engines it requests transfers, which is no access of memory. -/
def paveReaches : Resource → Bool
  | .capsules | .hostWindow | .paveRange | .scheduling => true
  | .otp | .secureStore | .keys | .cryptoEngines | .onChip | .tagged | .classB => false

/-- An access by the management pair of Clasp `n` passes the Clasp's access filter: one that Table 17.1 does not allow is counted, and
nothing comes of it (R578, R579). `f` is what the access does where it is allowed: the bytes read, and the chip after it. -/
def Chip.paveAccess (c : Chip) (n : Nat) (r : Resource) (len : Nat) (f : Chip → List Byte × Chip) : List Byte × Chip :=
  if (c.clasp n).filterOn && !paveReaches r then
    (List.replicate len 0, c.updClasp n fun x => { x with filterDenied := satAdd u32max x.filterDenied 1 })
  else f c

/-! ## Life cycle (R588 to R590, R647) -/

/-- A job that is accepted and has no completion record. -/
def Chip.jobsOpen (c : Chip) : Bool := c.jobs.any fun e => e.2.ledger != .done

/-- The staged token allows a transition (R589, R647). -/
def State.tokenRight (s : State) (target : Nat) : Bool :=
  let t := padTo s.sec.token 3840
  let n := getLE t 144 4
  let slot := getLE t 9 1
  getLE t 0 8 = s.unit.hallmark && getLE t 8 1 = target && slot < 4 && !bit s.otp.revoked slot && !anyNonzero (sliceBytes t 10 6)
    && sliceBytes t 16 32 = padTo s.sec.nonce 32 && 148 + n ≤ 3840 && !anyNonzero (t.drop (148 + n))
    && signedBy slot (t.take 48) (sliceBytes t 48 96) (sliceBytes t 148 n)

/-- A transition of Table 17.5 with its authority. -/
def State.transitionRight (s : State) (target : Nat) : Bool :=
  s.otp.lcCount < target && (target = 4 || (target = s.otp.lcCount + 1 && s.tokenRight target))

/-- A port without its link key, and a head whose IDE stream has ended (R592). -/
def eraseKeys (p : PortSt) : PortSt := { p with linkKey := [], linkSalt := [] }
def endIde (h : HeadSt) : HeadSt := { h with ide := 0 }

/-- The secure store is wiped: keys, sessions and the fault log's records with it (Tables 17.5, 17.8). -/
def State.wipeStore (s : State) : State :=
  let s := s.onSec fun x => { x with keysErased := true, linkKeysErased := true, treesReady := 0, waiting := [], layers := none,
                                     bundle := [], token := [], lmsNext := 0 }
  s.onChip fun c => { c with sessions := [], mailbox := Mailbox.fresh, flog := { c.flog with recs := [] },
                             ports := c.ports.mapVals eraseKeys, heads := c.heads.map endIde }

/-- The bits that a transition burns: the count, and beyond it what Table 17.5 says; `seed` is the UDS that the TRNG gives. -/
def Otp.transition (o : Otp) (target : Nat) (seed : List Byte) : Otp :=
  match target with
  | 1 => { o with lcCount := 1, udsPresent := true, uds := some seed }
  | 3 => { o with lcCount := 3, udsLocked := true }
  | 4 => { o with lcCount := 4, udsLocked := true, uds := some (List.replicate 48 0xFF), blocks := 8192 }
  | n => { o with lcCount := n }

/-- The identity public keys and the path file of a part leave it as it is provisioned (Table 17.5). -/
def State.exportIdentity (s : State) : State :=
  match s.deriveLayers with
  | some k => s.onChip fun c =>
      c.send (.identity (Config.publicKey k.device :: k.trees.map Config.lmsPublic) (Config.pathFile k.trees))
  | none => s

/-- A life-cycle request: refused as R589 states, otherwise committed; the nonce changes either way. From then on the part takes
no descriptor (R590). -/
def State.changeLifeCycle (s : State) (target : Nat) : Nat × State :=
  let ok := s.transitionRight target && s.chip.sessions.all (fun x => x.2.st = .free) && !s.chip.jobsOpen
  let (nonce, s) := s.freeBytes 32
  let s := s.onSec fun x => { x with nonce := nonce }
  if !ok then (stLifecycleDenied, s)
  else
    let (seed, s) := if target = 1 then s.freeBytes 48 else ([], s)
    let s := { s with otp := s.otp.transition target seed }
    let s := if target = 1 then s.exportIdentity else s
    let s := if target = 3 || target = 4 then s.wipeStore else s
    (stOK, s.onChip fun c => { c with pkg := { c.pkg with lcLocked := true, production := (lifeCycle target).ide } })

/-! ## Tamper (R591, R592) -/

/-- Sensors that are counted in OTP (Table 17.7). -/
def counted (n : Nat) : Bool := [0, 1, 10, 11, 12, 13].contains n

/-- An accepted job stops and gets its completion record, TAMPERED, once its outputs are visible; what it placed is freed. A record that
the journal's head cannot carry now waits, and JOB_COMPLETE writes it (R541, R592). -/
def Chip.tamperJob (c : Chip) (j : Nat) : Chip :=
  match c.job? j with
  | none => c
  | some x =>
    if x.ledger = .done then c
    else
      let c := if x.holds then c.leaveGroup j x else c
      let q := c.queue x.queue
      let c := (c.freeJob j x).updJob j fun y => { y with ledger := .completing, phase := .ended, ending := some stTampered }
      if c.headOpen q.active && x.outHeads.all c.flushable then
        let c := (c.flushOutputs x.outHeads).updJob j fun y => { y with ledger := .done, doneIdx := q.jNext }
        c.writeRecord x.queue (completionRec x stTampered c.now)
      else c

/-- TAMPER: the sensors of the mask fire in one stamp; the lowest is handled and the others are counted into its record. Keys
are erased, every accepted job ends with TAMPERED, link keys are erased, a counted sensor burns a bit (R591, R592). Table 15.1
gives a tamper no cause: that field is free. -/
def tamper (sensors : Nat) (s : State) : State :=
  match (List.range 14).filter (bit sensors) with
  | [] => s
  | n :: rest =>
    if !s.chip.alive then s
    else
      let s := s.onSec fun x => { x with imageAddr := 0, imageLen := 0, bundle := [], token := [], lmsNext := 0, layers := none,
                                         treesReady := 0, waiting := [], keysErased := true, linkKeysErased := true }
      let s := s.onChip fun c =>
        let (cause, c) := c.freeNat
        let rec0 := faultRec 0 domDevice (cause % 256) dieDevice 0
        let c := c.log { rec0 with detail := n, count := rest.length + 1 }
        let c := (c.jobsBy fun _ => true).foldl Chip.tamperJob c
        let c := { c with sessions := [], mailbox := Mailbox.fresh, ports := c.ports.mapVals eraseKeys,
                          heads := c.heads.map endIde }
        { c with pkg := { c.pkg with tampered := true } }
      if counted n then { s with otp := { s.otp with tamperCount := min 32 (s.otp.tamperCount + 1) } } else s

def execTamper (sensors : Nat) (s : State) : Out := meaning (.tamper sensors) s (tamper sensors)

end Sys2Proof.Machine
end

