-- ==== Sys2Proof/Machine/Sequencer.lean ====
section
/-! DEFINITION. The package sequencer: which commands are stamped events of Table 1.5, how they reach it, and when it handles
them (R29 to R35, R515; assumption 110). -/
namespace Sys2Proof.Machine

/-- The lowest sensor of a mask: the one that is handled (R591). -/
def lowestSensor (mask : Nat) : Nat := ((List.range 16).find? (bit mask)).getD 0

/-- Die index of the Clasp at which a management path ends: I3C port or head A or B. -/
def pathClasp (path : Nat) : Nat := dieClasp (path % 2)

/-- Rank and source index of a command that is a stamped event (R29, R548, R557, R589, R618, Table 1.5); none for what is settled
inside one clock domain, or follows from what the sequencer has handled. A package cold reset acts whether or not the sequencer
handles it (R670). Timers are numbered as their commands stand in the opcode table (assumption 110, DESIGN CHOICE: the manual
gives no numbers). -/
def eventOf : Instr → Option (Nat × List Nat)
  | .fault f => some (1, faultSource f)
  | .beadProgressExpiry p => some (1, [dieFacet (physFacet p), p])
  | .edgeRetryExhausted e => some (1, [(edgeList.getD e (0, 1)).1, (edgeList.getD e (0, 1)).2])
  | .pcLoss pc _ => some (1, [dieFacet (stackFacet (pcStack pc)), pc])
  | .stackFault st _ => some (1, [dieFacet (stackFacet st), st])
  | .strandPortFault port _ => some (1, [dieClasp (portClasp port), port])
  | .tamper mask => some (2, [lowestSensor mask])
  | .warmResetRequest _ | .warmReset => some (3, [1])
  | .headReset h => some (3, [2 + h])
  | .facetReset f => some (3, [4 + f])
  | .lcRequest r => some (4, [pathClasp r.path])
  | .spdmRequest path _ | .spdmVendorRequest path _ => some (5, [pathClasp path])
  | .ideKmExchange h => some (5, [dieClasp h])
  | .dictWrite r | .bootGo r | .bundleCommit r | .sessionRequest r | .sessionAccept r | .sessionClose r | .tableCommit r
  | .queueEnable r | .faultLogAck r | .strandIdentityWrite r | .telemetryIntervalWrite r | .ringEntryWrite r => some (6, [r.path])
  | .submissionDoorbell h q _ _ | .journalDoorbell h q _ _ | .cancelDoorbell h q _ _ => some (7, [h, q])
  | .strandMessageReceive port m => if m.cls = clsControl then some (8, [port]) else none
  | .ringFence _ _ port => some (8, [port])
  | .ringCommitted a _ | .ringAll a _ | .ringResume a _ _ => some (8, [a.port])
  | .timeSyncReceive port _ => some (8, [port])
  | .tickAlignedClear => some (9, [1])
  | .idleDelayExpiry f => some (9, [9, f])
  | .runLimitExpiry j => some (9, [12, j])
  | .thermalReading _ => some (9, [126])
  | .telemetryIntervalEnd _ => some (9, [127])
  | .stackReturnTimeout st => some (9, [140, st])
  | .sessionOfferExpiry => some (9, [161])
  | .parentTimeout => some (9, [173])
  | .ringResumeExpiry r => some (9, [181, r])
  | _ => none

def Stamped.key (e : Stamped) : EventKey := { stamp := e.stamp, rank := e.rank, source := e.source }

/-- Two writes of one doorbell of one queue. -/
def sameDoorbell : Instr → Instr → Bool
  | .submissionDoorbell h q _ _, .submissionDoorbell h' q' _ _ => h = h' && q = q'
  | .journalDoorbell h q _ _, .journalDoorbell h' q' _ _ => h = h' && q = q'
  | .cancelDoorbell h q _ _, .cancelDoorbell h' q' _ _ => h = h' && q = q'
  | _, _ => false

/-- A command arrives from outside. The tick stamper gives a stamped event the counter's value, and the sequencer keeps it in the order
in which it will handle it; of two writes to one doorbell of one stamp it keeps the later. Any other command joins the queue (R29 to
R35, R474). -/
def State.arrive (i : Instr) (s : State) : State :=
  match if i.wf then eventOf i else none with
  | some (rank, source) =>
    let e : Stamped := { stamp := s.chip.tick.count, rank := rank, source := source, event := i }
    let held := s.inbox.filter fun x => !(x.stamp = e.stamp && sameDoorbell x.event i)
    { s with inbox := insertBy (fun a b => a.key.le b.key) e held }
  | none => { s with pending := s.pending ++ [i] }

/-- The part's clocks run. -/
def Chip.clocked (c : Chip) : Bool := match c.pkg.power with
  | .off | .inReset | .stopped => false
  | _ => true

/-- How long ago the event at hand was stamped. -/
def State.withLag (s : State) (n : Nat) : State := { s with chip := { s.chip with tick := { s.chip.tick with lag := n } } }

/-- The shadow sequencer of the tick secondary is compared with the primary on each event; where they disagree, at the stamps that the
unit names, the part enters the device-fault state (R515, R517). The record's cause is free: Table 15.1 gives none. -/
def State.shadowCheck (s : State) : State :=
  let n := s.chip.tick.count - s.chip.tick.lag
  if s.unit.shadowSplits.contains n && s.chip.tick.lag != 0 && s.chip.clasps.all (·.svc = .inService) then
    { s with chip := s.chip.deviceFault (Config.freeCause s.chip.flog.written % 256) }
  else s

/-- What the sequencer handles. -/
inductive Ripe where
  | event (i : Instr)
  | fault (f : Found)
  deriving DecidableEq, Repr

/-- The first thing that the sequencer holds, an event from outside or a fault found inside the part: its stamp, what it is, and the
state without it. -/
def State.first (s : State) : Option (Nat × Ripe × State) :=
  let ev := s.inbox.head?.map fun e => (e.stamp, Ripe.event e.event, { s with inbox := s.inbox.tail })
  let ft := s.chip.raised.head?.map fun r => (r.stamp, Ripe.fault r.what, { s with chip := { s.chip with raised := s.chip.raised.tail } })
  match s.inbox, s.chip.raised with
  | e :: _, r :: _ => if r.key.le e.key then ft else ev
  | [], _ => ft
  | _, [] => ev

/-- What the sequencer handles now, with the state in which it does: the first thing that it holds, once three ticks have
passed since its stamp (R33). -/
def State.ripe (s : State) : Option (Ripe × State) :=
  match s.first with
  | some (n, r, t) =>
    if s.chip.clocked && n + 3 ≤ s.chip.tick.count then some (r, t.withLag (s.chip.tick.count - n)) else none
  | none => none

end Sys2Proof.Machine
end

