-- ==== Sys2Proof/Machine/Reset.lean ====
section
/-! DEFINITION. The four kinds of reset and the removal of the rails (R36, R501, R502, R518, R523, R524, R547, R548, R587,
R665 to R672, Table 20.5). -/
namespace Sys2Proof.Machine

/-! ## Spare Beads (R523, R524) -/

/-- A row that holds a Bead out of service takes it as its disabled Bead, when the one disabled now passed self-test at the last
cold reset (R523); one Bead of a row at a time. -/
def Chip.substitute (c : Chip) (f row : Nat) : Chip :=
  let x := c.facet f
  let d := x.disabledCol.getD row 14
  let at_ (col : Nat) : Nat := 120 * f + 15 * row + col
  match (List.range 15).find? fun col => col != d && (c.bead (at_ col)).svc = .out with
  | none => c
  | some col =>
    if (c.bead (at_ d)).selfTestOk then
      let r := c.domainRec 4 (c.bead (at_ col)).fenceRec domBead (dieFacet f) (at_ col)
      let c := c.setFacet f { x with disabledCol := x.disabledCol.set row col }
      let c := c.updBead (at_ col) fun b => { b with svc := .inService, fenceRec := none }
      c.log { r with domain := domBead, unit := at_ col, subunit := d, detail := 0 }
    else c

/-- Every row of the part. -/
def Chip.substituteAll (c : Chip) : Chip := iter 40 (fun i c => c.substitute (i / 8) (i % 8)) c

/-! ## Jobs that a reset takes -/

/-- A bound job stops as a fence stops it, without a fault log record: its uncommitted generation is dropped, and it resumes
unless R490 or R498 ends it. The other parts of its rings are told (R574). -/
def Chip.haltJob (c : Chip) (j : Nat) : Chip :=
  match c.job? j with
  | none => c
  | some x =>
    if x.ledger != .accepted || x.phase != .bound then c
    else
      let e := fenceEnd c.sched.resumeLimit x none
      let c := (c.stopJob j x).updJob j fun y =>
        { y with ending := e, mid := none, resumeDue := true, preempt := false, ringWait := [], ringFrom := none }
      (c.jobRings x).foldl (fun c r => c.ringTell j r) c

/-- A job that has stopped leaves its group at once. -/
def Chip.leaveNow (c : Chip) (j : Nat) : Chip :=
  match c.job? j with
  | none => c
  | some x => if x.phase = .stopping then (c.setJob j x.left).leaveGroup j x else c

/-! ## Warm reset (R501, R518, R547, R548, R587, R667 to R669) -/

/-- WARM_RESET_REQUEST through the head control page: a u32 write of 1 asks, any other is discarded (R548). -/
def barWarmReset (h width v : Nat) (production : Bool) (c : Chip) : Chip :=
  if !c.headUp h then c
  else if c.ioClosed production h then c.unsupported h
  else if width = 4 && v = 1 && c.pkg.power = .running then { c with pkg := { c.pkg with warmAsked := true } }
  else c

/-- What a warm reset leaves of a Bead, a Facet and a pseudo-channel: the counters that start anew, cleared tables, no dirty
line (Table 20.5, R508, R640). -/
def BeadSt.warm (b : BeadSt) : BeadSt :=
  { b with fences := 0, tabSel := BeadSt.fresh.tabSel, shadowFull := BeadSt.fresh.shadowFull,
           busyWarnings := BeadSt.fresh.busyWarnings, locketCorrected := 0, replay := none, retry := [] }
/-- A detour's slice is cache again: its unwritten granules are poisoned, as its bits said they were (R434). -/
def FacetSt.warm (x : FacetSt) : FacetSt :=
  { x with segs := x.segs.map fun s => { s with fences := 0 }, slices := FacetSt.fresh.slices, dirty := [], casketCorrected := 0,
           inReset := false }
def PcSt.warm (x : PcSt) : PcSt := { x with corrected := 0, uncorrectable := 0 }

def PairSt.warm (x : PairSt) : PairSt := { x with fences := 0 }

/-- A head: its counters start anew and its device cache has been written back (R547, R640). -/
def HeadSt.warm (h : HeadSt) : HeadSt := { h with ideFail := 0, replays := 0, urCount := 0, cache := [] }
def PortSt.warm (x : PortSt) : PortSt := { x with faults := 0, retries := 0, badType := 0, tagFail := 0 }

/-- The telemetry of Table 19.11 starts anew. -/
def TelemSt.warm (t : TelemSt) : TelemSt :=
  { t with lastPower := 0, lastDie := List.replicate 8 0, lastMax := List.replicate 8 0, accepted := List.replicate 128 0,
           boundMissed := List.replicate 4 0, resumes := 0 }

/-- Modified lines of the device cache go back to host memory (R547). -/
def Chip.writeBackCache (c : Chip) : Chip :=
  let lines := c.heads.flatMap (·.cache)
  { c with host := lines.foldl (fun m e => m.writeN (64 * e.1) e.2) c.host }

/-- A Clasp that was fenced and passes its self-test returns: its head may train, the ports that left service with it are down, and its
queues are active on its head again (Table 15.2, R518, R546). -/
def Chip.claspBack (c : Chip) (u : UnitFacts) (n : Nat) : Chip :=
  let x := c.clasp n
  if x.svc = .inService then c.updClasp n fun y => { y with takeoverDue := none, filterDenied := 0 }
  else if u.badClasps.contains n then c
  else
    let c := c.log (c.domainRec 2 x.fenceRec domClasp (dieClasp n) 0)
    let c := c.updClasp n fun _ => ClaspSt.fresh
    let c := c.updHead n fun h => { h with link := if h.link = 3 then 0 else h.link }
    let c := iter 6 (fun i c =>
      let p := 6 * n + i
      if (c.port p).st = 6 && (c.port p).fenceRec = x.fenceRec then
        (c.updPort p fun y => { y with st := 0, fenceRec := none }).log (faultRec 2 domPort 0x10 (dieClasp n) p)
      else c) c
    { c with queues := c.queues.map fun e => (e.1, if e.2.head = n then { e.2 with active := n } else e.2) }

/-- A slice in progress is over: its pseudo-channel runs again. -/
def Chip.stopSlice (c : Chip) (st : Nat) : Chip :=
  match (c.stack st).slice with
  | none => c
  | some k => (c.updPc k.pc fun x => { x with st := if x.st = 1 then 0 else x.st, owed := [] }).updStack st fun x =>
      { x with slice := none, lastSliceEnd := some c.now }

/-- A stack that was fenced or has lost its data trains again (R518). Its slices are over and what waits for it is served; the rows
of its repair list are repaired for good, with the spares that they hold (R424, R668). -/
def Chip.stackBack (c : Chip) (st : Nat) : Chip :=
  let c := c.stopSlice st
  let x := c.stack st
  let c := if x.st < 2 then c
    else
      (c.setStack st { x with st := 0, fenceRec := none, baseTemp := x.temp }).log
        (c.domainRec 2 x.fenceRec domStack (dieFacet (stackFacet st)) st)
  let c := c.updStack st fun y => { y with repairList := [], hardUsed := if y.repairList.isEmpty then y.hardUsed else y.sparesUsed }
  (c.pcs.filter fun e => pcStack e.1 = st && !e.2.queue.isEmpty).foldl (fun c e => c.drainQueue e.1) c

/-- Every stack trains: none has a lost pseudo-channel that no detour serves or is about to serve, and the unit's stacks do (R431,
R518). -/
def Chip.stacksTrain (c : Chip) (u : UnitFacts) : Bool :=
  u.deadStacks.all (20 ≤ ·) && c.pcs.all fun e => e.2.st != 2 || c.mem.epochDue.any (·.1 = e.1)

/-- Everything that a warm reset clears or applies before Pave is loaded again. -/
def Chip.warmBody (c : Chip) (u : UnitFacts) : Chip :=
  let js := c.jobsBy (·.phase = .bound)
  let c := js.foldl Chip.haltJob c
  let c := (c.jobsBy (·.phase = .stopping)).foldl Chip.leaveNow c
  let c := c.writeBackCache
  let c := { c with locket := [], tables := [], scratch := [], beads := c.beads.mapVals BeadSt.warm,
                    facets := c.facets.mapVals FacetSt.warm, pcs := c.pcs.mapVals PcSt.warm,
                    pairs := c.pairs.mapVals PairSt.warm, heads := c.heads.map HeadSt.warm,
                    ports := c.ports.mapVals PortSt.warm, telem := c.telem.warm, raised := [] }
  let c := c.substituteAll
  let c := iter 20 (fun st c => c.stackBack st) c
  let c := iter 2 (fun n c => c.claspBack u n) c
  { c with pkg := { c.pkg with claspFault := false } }

/-- device_state takes a value, and vector 128 goes out (R534, R547). -/
def Chip.announce (c : Chip) (st : Nat) : Chip := c.noteHeads { c with pkg := { c.pkg with devState := st } }

/-- Pave and the Cameo microcode are loaded again from the image that the entries name: one that fails R584, or whose Bezel patch
is another, leaves the warm reset incomplete (R587). Two edges out of service, a stack that does not train, or no Clasp that passes
self-test leave the part in the device-fault state; out of that state all weights are reloaded (R477, R518). -/
def State.warmLoad (s : State) : State :=
  let img := s.image
  let st := if s.imageReadable then s.imageStatus img else stSignatureInvalid
  let st := if st = stOK && componentDigest img 0 != s.sec.patchDigest then stSignatureInvalid else st
  let s := s.onSec fun x => { x with bootStatus := st }
  if st != stOK then s
  else
    let s := s.onSec fun x => { x with paveDigest := componentDigest img 1, cameoDigest := componentDigest img 2 }
    s.onChip fun c =>
      let c := { c with pkg := { c.pkg with warmAsked := false } }
      if 2 ≤ c.edgesOut.length || !c.stacksTrain s.unit || c.clasps.all (·.svc != .inService) then
        { c with pkg := { c.pkg with deviceFault := true } }.announceFault
      else
        let c := if c.pkg.deviceFault then c.markWeights fun _ => true else c
        { c with pkg := { c.pkg with deviceFault := false } }.announce 1

/-- WARM_RESET: one that has been asked for runs; one that waits for a corrected image runs again (R587). -/
def warmReset (s : State) : State :=
  if s.chip.pkg.warmAsked && s.chip.pkg.power = .running then
    (s.onChip fun c => (c.announce 2).warmBody s.unit).warmLoad
  else s

def execWarmReset (s : State) : Out := meaning .warmReset s warmReset

/-! ## Head and Facet resets (R36, R512, R666, R667) -/

/-- PERST_N of a head is released. -/
def HeadSt.released (now : Nat) (h : HeadSt) : HeadSt := { h with perstUp := now }

/-- HEAD_RESET: PERST_N of a head is asserted and released; its link has to train again, and its IDE stream is gone. -/
def headReset (h : Nat) (c : Chip) : Chip :=
  let new := { c with pkg := { c.pkg with perstLow := c.pkg.perstLow.set h true } }
  if !c.alive then new
  else
    let new := if (c.clasp h).svc = .inService then new.linkDown h 0 else new
    c.noteHeads (new.updHead h (HeadSt.released c.now))

def execHeadReset (head : Nat) (s : State) : Out := onChip (.headReset head) s (headReset head)

/-- FACET_RESET: jobs of the Facet's Beads and those with a dirty line in its Casket stop and resume; its Lockets and table
stores are cleared and its dirty lines dropped. The Facet is in reset until DOMAIN_RETURN. -/
def facetReset (f : Nat) (c : Chip) : Chip :=
  let x := c.facet f
  if c.pkg.power != .running || x.svc != .inService || x.inReset then c
  else
    let hit := c.jobsWith fun j y => y.phase = .bound && c.onFacet f j y
    let c := hit.foldl Chip.haltJob ((c.poolLinesLost x).dropLines f)
    let beads := c.beads.map fun e => (e.1, if physFacet e.1 = f then
      { e.2 with tabSel := BeadSt.fresh.tabSel, shadowFull := BeadSt.fresh.shadowFull, replay := none, retry := [] } else e.2)
    let c := { c with beads := beads, locket := c.locket.clear (lockKey (120 * f) 0 0) (lockKey (120 * f + 120) 0 0),
                      tables := c.tables.clear (tableKey (120 * f) 0 0) (tableKey (120 * f + 120) 0 0) }
    c.updFacet f fun y => { y with inReset := true }

def execFacetReset (f : Nat) (s : State) : Out := onChip (.facetReset f) s (facetReset f)

/-! ## Cold reset and power (R502, R524, R529, R654 to R656, R665, R670, R674) -/

/-- What is left of a stack: the spare rows that hard repairs hold (R424). -/
def StackSt.cold (x : StackSt) : StackSt := { StackSt.fresh with sparesUsed := x.hardUsed, hardUsed := x.hardUsed }

/-- The chip in cold reset: what lies outside it, the model's own counter, PERST_N, the trip latch and hard repairs stay (R424,
Table 20.5, R674). -/
def Chip.cold (c : Chip) (p : Power) : Chip :=
  let pkg := { Chip.reset.pkg with power := p, perstLow := c.pkg.perstLow, tripLatch := c.pkg.tripLatch }
  let held := (c.stackTab.filter fun e => !e.2.hardUsed.isEmpty).map fun e => (e.1, e.2.cold)
  { Chip.reset with freeCtr := c.freeCtr, sent := c.sent, host := c.host, pkg := pkg, stackTab := held }

/-- Tamper events of counted sensors that the sequencer still holds: each ranks above the reset, and its OTP bit is still burned
(R670). -/
def State.tampersHeld (s : State) : Nat := (s.inbox.filter fun e => match e.event with
  | .tamper mask => mask != 0 && counted (lowestSensor mask)
  | _ => false).length

/-- The heads take from the OTP whether the life cycle is PRODUCTION (R537). -/
def Chip.seeLife (c : Chip) (o : Otp) : Chip := { c with pkg := { c.pkg with production := o.production } }

/-- COLD_RESET: PKG_RESET_N is low. Every accepted job ends without a record (R502), and what the sequencer holds is lost but for
the OTP bits of tamper events (R670). After a thermal trip the rails have to go first (R529). -/
def coldReset (s : State) : State :=
  if s.chip.pkg.power = .stopped || s.chip.pkg.tripLatch then s
  else
    { s with chip := (s.chip.cold .inReset).seeLife s.otp, sec := SecSt.fresh, inbox := [],
             otp := { s.otp with tamperCount := min 32 (s.otp.tamperCount + s.tampersHeld) } }

def execColdReset (s : State) : Out := meaning .coldReset s coldReset

/-- Disabled columns as fused, and the self-test of every Bead: one that fails is placed by R523 or is out of service (R524). -/
def Chip.selfTest (c : Chip) (u : UnitFacts) : Chip :=
  let c := iter 5 (fun f c => c.updFacet f fun x => { x with disabledCol := (u.fusedCol.drop (8 * f)).take 8 }) c
  let bad := u.badBeads.filter fun p => p < 600
  let c := bad.foldl (fun c p =>
    let fused := (c.facet (physFacet p)).disabledCol.getD (physRow p) 14 = physCol p
    c.updBead p fun b => { b with selfTestOk := false, svc := if fused then .inService else .out }) c
  c.substituteAll

/-- PKG_RESET_DEASSERT: straps are sampled, the tick starts from 0 with the primary they select, Beads are tested, and the ROM
runs (R25, R28, R524, R582, R665). -/
def pkgResetDeassert (straps : Straps) (s : State) : State :=
  if s.chip.pkg.power != .inReset then s
  else
    let (nonce, s) := s.freeBytes 32
    let s := s.onSec fun x => { x with nonce := nonce }
    s.onChip fun c =>
      let heads := c.heads.map (HeadSt.released c.now)
      let c := { c with pkg := { c.pkg with power := .rom, straps := straps }, tick := { c.tick with primary := straps.head },
                        heads := heads }
      c.selfTest s.unit

def execPkgResetDeassert (straps : Straps) (s : State) : Out := meaning (.pkgResetDeassert straps) s (pkgResetDeassert straps)

/-- POWER_DOWN: the rails are removed. Nothing is held but the OTP bits and the facts of the unit; the trip latch goes with
VDD_AON (R655, R656, R674). -/
def powerDown (s : State) : State :=
  let c := s.chip.cold .off
  { s with chip := { c with pkg := { c.pkg with tripLatch := false, aonUp := false } }.seeLife s.otp, sec := SecSt.fresh, inbox := [] }

def execPowerDown (s : State) : Out := meaning .powerDown s powerDown

end Sys2Proof.Machine
end

