-- ==== Sys2Proof/Machine/Mgmt.lean ====
section
/-! DEFINITION. Sequenced writes of the parameter dictionary (R36, R37, R618, R620, R627, R633, R634, R642 to R650) and the MCTP
control commands (R612, R613). -/
namespace Sys2Proof.Machine

/-! ## One write (R618, R620, R627) -/

/-- The bytes of a written octet string in the entry's value. -/
def setBytes (bs : List Byte) (size off : Nat) (v : List Byte) : List Byte :=
  let p := padTo bs size
  p.take off ++ v ++ p.drop (off + v.length)

/-- The outcome of checks 6 to 8 at the selected instances, in ascending order: those that took the value, those that did not
with their status, and the state after. -/
def State.writeAll (put : Nat → State → Nat × State) : List Nat → State → List Nat × List (Nat × Nat) × State
  | [], s => ([], [], s)
  | i :: is, s =>
    let (st, s) := put i s
    let (took, failed, s) := State.writeAll put is s
    if st = stOK then (i :: took, failed, s) else (took, (i, st) :: failed, s)

/-- The response of a handled write (R616, R627). -/
def writeResponse (r : MgmtReq) (typ : Nat) (took : List Nat) (failed : List (Nat × Nat)) : Response :=
  match failed with
  | [] => { Response.refuse stOK typ with count := took.length }
  | (first, st) :: _ =>
    let base := if r.select = 1 then r.inst else first
    let mask := if r.select = 0 then 0
      else (failed.filter fun e => e.1 < base + 64).foldl (fun m e => m ||| 2 ^ (e.1 - base)) 0
    { status := st, typ := typ, count := took.length, firstFail := first, failMask := mask, data := [] }

/-- Check 6 and check 7 for one Facet (R36, R37). A warm reset that has been asked for, or that has not completed, has placed every
Facet in reset (R548, R587). -/
def Chip.facetDomain (c : Chip) (f : Nat) : Nat :=
  let x := c.facet f
  if x.inReset || c.pkg.warmAsked || c.pkg.devState = 2 then stTargetReset else if x.svc = .fenced then stTargetFenced else stOK

/-- Check 6 and check 7 for an instance: entries numbered by Facet or by Bead have a domain (R36, R37). -/
def Chip.domainStatus (c : Chip) (e : Entry) (i : Nat) : Nat :=
  match e.key with
  | 0x300101 | 0x300103 => c.facetDomain i
  | 0x300209 =>
    let f := physFacet i
    if c.facetDomain f != stOK then c.facetDomain f
    else if ((c.facet f).segs.getD (physRow i) SegSt.fresh).svc = .fenced || (c.bead i).svc = .fenced then stTargetFenced
    else stOK
  | _ => stOK

/-- A write that the part handles in the device-fault state and after a tamper response (R633). -/
def State.handles (s : State) (r : MgmtReq) : Bool :=
  !(s.chip.pkg.deviceFault || s.chip.pkg.tampered) || [0x900002, 0x800302, 0x200102].contains (entryKey r.index r.sub)

/-- A request as the replay memory compares it: every byte of the message, on its own path (R620). -/
def reqMessage (r : MgmtReq) : MgmtReq := { r with path := 0, tag := 0 }

/-- A handled write joins its path's replay memory, which keeps the last 16 (R620). -/
def Chip.remember (c : Chip) (r : MgmtReq) (bs : List Byte) : Chip :=
  c.updPath r.path fun x => { x with replay := ({ req := reqMessage r, response := bs } :: x.replay).take 16 }

/-- A write that has passed checks 1 to 5 is handled at its stamp: each instance takes the value or refuses, the configuration
count rises if one took it, and the response leaves (R618, R627, R634). -/
def State.handleWrite (s : State) (r : MgmtReq) (e : Entry) (put : Nat → State → Nat × State) : State :=
  let guarded (i : Nat) (s : State) : Nat × State :=
    let st := s.chip.domainStatus e i
    if st = stOK then put i s else (st, s)
  let (took, failed, t) := State.writeAll guarded (selected r e) s
  let bs := (writeResponse r e.typ took failed).bytes r s.chip.now
  let t := if took.isEmpty then t
    else t.onChip fun c => { c with mgmt := { c.mgmt with configCount := (c.mgmt.configCount + 1) % 2 ^ 64 } }
  (t.onChip fun c => c.remember r bs).respond r bs

/-- A write request: repeated, refused by checks 1 to 5 or by R633, or handled. -/
def writeEntry (r : MgmtReq) (put : Entry → Nat → State → Nat × State) (s : State) : State :=
  if !s.takesRequest r then s.turnAway r.path
  else match (s.chip.path r.path).replay.find? fun x => x.req = reqMessage r with
    | some x => s.respond r x.response
    | none => match s.precheck r, findEntry r.index r.sub with
      | 0, some e =>
        if s.handles r then s.handleWrite r e (put e)
        else s.respond r ((writeResponse r e.typ [] ((selected r e).map fun i => (i, stTargetFenced))).bytes r s.chip.now)
      | st, _ => s.respond r ((Response.refuse st (typeOf r)).bytes r s.chip.now)

/-! ## Entries with no row of their own (Tables 19.4, 19.5, 19.9, 19.12) -/

/-- A queue parameter changes while the queue is not enabled (R472). -/
def State.setQueueParam (s : State) (q : Nat) (f : QueueSt → QueueSt) : Nat × State :=
  if (s.chip.queue q).enable = 1 then (stQueueActive, s) else (stOK, s.onChip fun c => c.updQueue q f)

/-- A change to the scheduling registers. -/
def State.setSched (s : State) (f : SchedSt → SchedSt) : Nat × State :=
  (stOK, s.onChip fun c => { c with sched := f c.sched })

/-- The value is stored, or the entry's own condition refuses it (Table 19.13). -/
def putEntry (r : MgmtReq) (e : Entry) (i : Nat) (s : State) : Nat × State :=
  let v := reqNum r
  match e.key with
  | 0x300101 => (stOK, s.onChip fun c => c.updFacet i fun x => { x with locketMode := v })
  | 0x300103 => (stOK, s.onChip fun c => c.updFacet i fun x => { x with idleDelay := v })
  | 0x400002 => (stOK, s.onChip fun c => c.setThreshold v)
  | 0x800101 => (stOK, s.onSec fun x => { x with imageAddr := v })
  | 0x800102 => (stOK, s.onSec fun x => { x with imageLen := v })
  | 0x800201 => (stOK, s.onSec fun x => { x with bundle := setBytes x.bundle 2047 r.offset r.value })
  | 0x800304 => (stOK, s.onSec fun x => { x with token := setBytes x.token 3840 r.offset r.value })
  | 0x800305 => (stOK, s.onSec fun x => { x with token := setBytes x.token 3840 (1920 + r.offset) r.value })
  | 0xB00001 => s.setQueueParam i fun q => { q with ringAddr := v }
  | 0xB00002 => s.setQueueParam i fun q => { q with ringEntries := v }
  | 0xB00003 => s.setQueueParam i fun q => { q with journalAddr := v }
  | 0xB00004 => s.setQueueParam i fun q => { q with journalEntries := v }
  | 0xB00005 => s.setQueueParam i fun q => { q with head := v }
  | 0xB00006 => s.setQueueParam i fun q => { q with inOrder := v }
  | 0xB00101 => s.setSched fun x => { x with bounds := x.bounds.set 0 v }
  | 0xB00102 => s.setSched fun x => { x with bounds := x.bounds.set 1 v }
  | 0xB00103 => s.setSched fun x => { x with bounds := x.bounds.set 2 v }
  | 0xB00104 => s.setSched fun x => { x with bounds := x.bounds.set 3 v }
  | 0xB00201 => s.setSched fun x => { x with preemptThreshold := v }
  | 0xB00202 => s.setSched fun x => { x with resumeLimit := v }
  | k =>
    if 0x300201 ≤ k && k ≤ 0x300208 then
      (stOK, s.onChip fun c =>
        { c with mgmt := { c.mgmt with stage := setBytes c.mgmt.stage 12288 (1536 * (k - 0x300201) + r.offset) r.value } })
    else (stOK, s)

def execDictWrite (r : MgmtReq) (s : State) : Out := meaning (.dictWrite r) s (writeEntry r (putEntry r))

/-! ## Entries with a row of their own -/

/-- WARM_RESET_REQUEST: a warm reset is asked for through BAR0 or 0x2001.02 (R548). -/
def putWarmReset (_ : Entry) (_ : Nat) (s : State) : Nat × State :=
  (stOK, s.onChip fun c => { c with pkg := { c.pkg with warmAsked := true } })

def warmResetRequest (src : WarmResetSource) (s : State) : State :=
  match src with
  | .bar head width v => s.onChip (barWarmReset head width v s.otp.production)
  | .dict r => writeEntry r putWarmReset s

def execWarmResetRequest (src : WarmResetSource) (s : State) : Out :=
  meaning (.warmResetRequest src) s (warmResetRequest src)

/-- BOOT_GO: 1 starts the ROM's check, in the ROM phase alone (R584, Table 19.13). -/
def putBootGo (r : MgmtReq) (_ : Entry) (_ : Nat) (s : State) : Nat × State :=
  if s.chip.pkg.power != .rom then (stAccessDenied, s) else if reqNum r = 1 then (stOK, s.bootCheck) else (stOK, s)

def execBootGo (r : MgmtReq) (s : State) : Out := meaning (.bootGo r) s (writeEntry r (putBootGo r))

/-- BUNDLE_COMMIT: 1 makes Bezel check the bundle while it awaits one (R596). -/
def putBundleCommit (r : MgmtReq) (_ : Entry) (_ : Nat) (s : State) : Nat × State :=
  if s.sec.identityState != 1 then (stValueRange, s) else if reqNum r = 1 then (stOK, s.commitBundle) else (stOK, s)

def execBundleCommit (r : MgmtReq) (s : State) : Out := meaning (.bundleCommit r) s (writeEntry r (putBundleCommit r))

/-- LC_REQUEST: a life-cycle transition (R588 to R590). -/
def putLcRequest (r : MgmtReq) (_ : Entry) (_ : Nat) (s : State) : Nat × State := s.changeLifeCycle (reqNum r)

def execLcRequest (r : MgmtReq) (s : State) : Out := meaning (.lcRequest r) s (writeEntry r (putLcRequest r))

/-- SESSION_REQUEST (R648). -/
def putSessionRequest (r : MgmtReq) (_ : Entry) (_ : Nat) (s : State) : Nat × State := s.requestSession r.value

def execSessionRequest (r : MgmtReq) (s : State) : Out := meaning (.sessionRequest r) s (writeEntry r (putSessionRequest r))

/-- SESSION_ACCEPT: what is written of the 156 bytes; the rest read 0 (R603). -/
def putSessionAccept (r : MgmtReq) (_ : Entry) (_ : Nat) (s : State) : Nat × State :=
  let (st, c) := s.chip.acceptSession (setBytes [] 156 r.offset r.value)
  (st, { s with chip := c })

def execSessionAccept (r : MgmtReq) (s : State) : Out := meaning (.sessionAccept r) s (writeEntry r (putSessionAccept r))

/-- SESSION_CLOSE (R470). -/
def putSessionClose (r : MgmtReq) (_ : Entry) (_ : Nat) (s : State) : Nat × State :=
  let (st, c) := s.chip.closeSession (reqNum r)
  (st, { s with chip := c })

def execSessionClose (r : MgmtReq) (s : State) : Out := meaning (.sessionClose r) s (writeEntry r (putSessionClose r))

/-- TABLE_COMMIT: the staged image goes to the shadow bank of a position of an unbound Bead (R240, R643). -/
def putTableCommit (r : MgmtReq) (_ : Entry) (p : Nat) (s : State) : Nat × State :=
  let pos := reqNum r
  let stage := padTo s.chip.mgmt.stage 12288
  let img := stage.take (thBytes (getLE stage 0 64))
  if (s.chip.bead p).job.isSome then (stBusyBound, s)
  else if !imageOk img || !kindOk pos (thReduction (getLE stage 0 64)) then (stValueRange, s)
  else
    (stOK, s.onChip fun c =>
      (c.writeTable (c.shadowKey p pos) img).updBead p fun b => { b with shadowFull := modAt b.shadowFull pos fun _ => true })

def execTableCommit (r : MgmtReq) (s : State) : Out := meaning (.tableCommit r) s (writeEntry r (putTableCommit r))

/-- A queue that has just been enabled: its indices are 0, the next record carries phase 1, and it is active on its head, or on
the other one while that head's Clasp is fenced (R546, R650). -/
def QueueSt.started (x : QueueSt) (headFenced : Bool) : QueueSt :=
  { x with enable := 1, active := if headFenced then 1 - x.head else x.head, tail := 0, consumed := 0, nextSeq := 0, jNext := 0,
           phase := true, jHead := 0, jHeld := 0 }

/-- The parameters let a queue be enabled (Table 19.13). -/
def QueueSt.valid (x : QueueSt) : Bool :=
  x.ringAddr != 0 && x.ringEntries != 0 && x.journalAddr != 0 && 2 * x.ringEntries ≤ x.journalEntries

/-- QUEUE_ENABLE (R472, R650). -/
def putQueueEnable (r : MgmtReq) (_ : Entry) (q : Nat) (s : State) : Nat × State :=
  let x := s.chip.queue q
  if reqNum r = 1 then
    if !x.valid then (stValueRange, s)
    else if x.enable = 1 then (stOK, s)
    else (stOK, s.onChip fun c => c.setQueue q (x.started ((c.clasp x.head).svc != .inService)))
  else if s.chip.openJobs q != 0 then (stQueueActive, s)
  else (stOK, s.onChip fun c => c.setQueue q { x with enable := 0 })

def execQueueEnable (r : MgmtReq) (s : State) : Out := meaning (.queueEnable r) s (writeEntry r (putQueueEnable r))

/-- FAULT_LOG_ACK: the acknowledged index moves on, up to the write index (R526, Table 19.13). -/
def putFaultLogAck (r : MgmtReq) (_ : Entry) (_ : Nat) (s : State) : Nat × State :=
  let v := reqNum r
  let l := s.chip.flog
  if v < l.acked || l.written < v then (stValueRange, s)
  else (stOK, s.onChip fun c => { c with flog := { c.flog with acked := v } })

def execFaultLogAck (r : MgmtReq) (s : State) : Out := meaning (.faultLogAck r) s (writeEntry r (putFaultLogAck r))

/-- STRAND_IDENTITY_WRITE: the part number or the time reference; every port in service retrains (R645). -/
def putStrandIdentity (r : MgmtReq) (e : Entry) (_ : Nat) (s : State) : Nat × State :=
  let v := reqNum r
  if s.chip.rings.any fun x => x.2.enable = 1 then (stBusyBound, s)
  else
    (stOK, s.onChip fun c =>
      let st := if e.sub = 1 then { c.strand with partNumber := v } else { c.strand with timeRef := v }
      { c with strand := st, ports := c.ports.mapVals fun x => if x.working then { x with st := 1 } else x })

def execStrandIdentityWrite (r : MgmtReq) (s : State) : Out :=
  meaning (.strandIdentityWrite r) s (writeEntry r (putStrandIdentity r))

/-- TELEMETRY_INTERVAL_WRITE: the length that the next interval takes (R649). -/
def putTelemetryInterval (r : MgmtReq) (_ : Entry) (_ : Nat) (s : State) : Nat × State :=
  (stOK, s.onChip fun c => { c with telem := { c.telem with nextInterval := reqNum r } })

def execTelemetryIntervalWrite (r : MgmtReq) (s : State) : Out :=
  meaning (.telemetryIntervalWrite r) s (writeEntry r (putTelemetryInterval r))

/-- An enabled entry names a ring of 1 to 8,192 parts and a rank in it; a disabled one may be all 0 (Table 16.11). -/
def RingEntry.valid (x : RingEntry) : Bool :=
  x.size ≤ 8192 && (x.rank < x.size || (x.enable = 0 && x.size = 0 && x.rank = 0))

/-- A bound job uses a ring. -/
def Chip.ringInUse (c : Chip) (n : Nat) : Bool :=
  c.jobs.any fun e => (e.2.phase = .bound || e.2.phase = .stopping) && (c.jobRings e.2).contains n

/-- RING_ENTRY_WRITE: the entry but for its fence epoch, which the part keeps (R566, R641). Another session brings another key,
whose messages count from 0 (R555, R604). -/
def putRingEntry (r : MgmtReq) (_ : Entry) (n : Nat) (s : State) : Nat × State :=
  let x := ringOf (reqNum r) (s.chip.ring n).epoch
  if s.chip.ringInUse n then (stBusyBound, s)
  else if !x.valid then (stValueRange, s)
  else
    (stOK, s.onChip fun c =>
      let c := if (c.ring n).session = x.session then c else c.updRingRun n fun y => { y with ivTx := 0, ivRx := 0 }
      c.setRing n x)

def execRingEntryWrite (r : MgmtReq) (s : State) : Out := meaning (.ringEntryWrite r) s (writeEntry r (putRingEntry r))

/-! ## MCTP control (R612, R613) -/

/-- Control messages reach a path that answers, or a head's path in the boot phase (R538). -/
def State.takesControl (s : State) (path : Nat) : Bool :=
  s.pathUp path || (2 ≤ path && s.chip.headUp (path - 2) && s.chip.pkg.bootPhase && (s.chip.head (path - 2)).ide != 2)

/-- A control command: its answer leaves, or the path turns it away. -/
def control (path code : Nat) (answer : State → List Byte) (f : State → State) (s : State) : State :=
  if s.takesControl path then
    let t := f s
    { t with chip := t.chip.send (.control path code (answer t)) }
  else s.turnAway path

/-- Completion codes of the MCTP base specification. -/
def ccSuccess : Byte := 0x00
def ccInvalidData : Byte := 0x02
def ccUnsupported : Byte := 0x05
def ccTypeUnknown : Byte := 0x80

/-- An endpoint ID that a bus owner may assign. -/
def eidOk (eid : Nat) : Bool := eid != 0 && eid != 255

/-- SET_ENDPOINT_ID (R612). -/
def setEndpointId (path eid : Nat) (s : State) : State :=
  control path 0x01 (fun t => if eidOk eid then [ccSuccess, 0, BitVec.ofNat 8 (t.chip.path path).eid, 0] else [ccInvalidData])
    (fun s => if eidOk eid then s.onChip fun c => c.updPath path fun x => { x with eid := eid } else s) s

def execSetEndpointId (path eid : Nat) (s : State) : Out := meaning (.setEndpointId path eid) s (setEndpointId path eid)

/-- GET_ENDPOINT_ID: 0 until one is assigned. -/
def getEndpointId (path : Nat) (s : State) : State :=
  control path 0x02 (fun t => [ccSuccess, BitVec.ofNat 8 (t.chip.path path).eid, 0, 0]) id s

def execGetEndpointId (path : Nat) (s : State) : Out := meaning (.getEndpointId path) s (getEndpointId path)

/-- Message types that the part accepts (R613). -/
def messageTypes : List Nat := [0x00, 0x05, 0x7E]

/-- GET_MCTP_VERSION_SUPPORT: MCTP 1.3 for the base and control (R612). -/
def getMctpVersionSupport (path msgType : Nat) (s : State) : State :=
  control path 0x04 (fun _ =>
    if msgType = 0xFF || msgType = 0x00 then [ccSuccess, 1, 0xF1, 0xF3, 0xFF, 0x00]
    else if messageTypes.contains msgType then [ccSuccess, 1, 0xF1, 0xF0, 0xFF, 0x00]
    else [ccTypeUnknown]) id s

def execGetMctpVersionSupport (path msgType : Nat) (s : State) : Out :=
  meaning (.getMctpVersionSupport path msgType) s (getMctpVersionSupport path msgType)

/-- GET_MESSAGE_TYPE_SUPPORT. -/
def getMessageTypeSupport (path : Nat) (s : State) : State :=
  control path 0x05 (fun _ => [ccSuccess, 3] ++ messageTypes.map (BitVec.ofNat 8)) id s

def execGetMessageTypeSupport (path : Nat) (s : State) : Out :=
  meaning (.getMessageTypeSupport path) s (getMessageTypeSupport path)

/-- GET_VENDOR_DEFINED_MESSAGE_SUPPORT: one identifier, Creord's PCI vendor identifier (R613). -/
def getVendorDefinedMessageSupport (path : Nat) (s : State) : State :=
  control path 0x06 (fun t => [ccSuccess, 0xFF, 0x00] ++ (leBytes 2 t.unit.vendorId).reverse ++ [0, 0]) id s

def execGetVendorDefinedMessageSupport (path : Nat) (s : State) : Out :=
  meaning (.getVendorDefinedMessageSupport path) s (getVendorDefinedMessageSupport path)

/-- UNSUPPORTED_CONTROL_COMMAND: ERROR_UNSUPPORTED_CMD (R613). -/
def unsupportedControlCommand (path code : Nat) (s : State) : State := control path code (fun _ => [ccUnsupported]) id s

def execUnsupportedControlCommand (path code : Nat) (s : State) : Out :=
  meaning (.unsupportedControlCommand path code) s (unsupportedControlCommand path code)

end Sys2Proof.Machine
end

