-- ==== Sys2Proof/Machine/Product.lean ====
section
/-! DEFINITION. The products that stand in a stream: MMA and the product chain, and the forwarding of an accumulator from one
MMA to the next (R160, R163, R185, R200 to R204). -/
namespace Sys2Proof.Machine

/-! ## What any instruction accesses of bank 2 (R185) -/

/-- Sources of a vector operation (Table 2.18). -/
def vectorSources (op : Nat) : Nat :=
  if op = 0x05 then 3
  else if (0x02 ≤ op && op ≤ 0x04) || op = 0x06 || op = 0x07 || op = 0x45 then 2
  else if 0x31 ≤ op && op ≤ 0x34 then 0 else 1

/-- What a LANE instruction accesses of its Bead's Locket. -/
def Chip.laneAccess (c : Chip) (x : Ctx) : Foot :=
  let op := iOp x.i
  if op = 0x01 then convertFoot x
  else if op = 0x30 || op = 0x4A || op = 0x60 || op = 0x72 then .none
  else if op ≤ 0x4A then laneFoot (vectorSources op) x.i
  else if op = 0x54 then normLive true false false true x
  else if op = 0x55 then normLive true true true false x
  else if op = 0x56 then completeFoot x
  else if op ≤ 0x56 then normLive true true false false x
  else if op = 0x61 then routeFoot x
  else if op = 0x70 then padFoot x
  else if op = 0x71 then gatherFoot x
  else if op = 0x73 then resampleFoot x
  else if op = 0x74 then regroupFoot x
  else c.collectiveFoot x

/-- What a DMA instruction accesses of its Bead's Locket: an edit by its descriptor, a walk the rings that it fills, any other transfer by
its rows (R263, R270, R278). -/
def Chip.dmaAccess (c : Chip) (x : Ctx) : Foot :=
  let d := dmaDesc x.cap x.v (iDesc x.i)
  if ddKind d = 2 && !isListDma 2 x then editFoot x
  else if ddKind d = 1 && !isListDma 1 x then
    let w := x.consts (ddList d) 2
    let own := wkDest w = 0 || (mgDests (x.const (wkDest w))).contains x.g
    let ring (first : Nat) : List LockRange := (List.range (wkLen w)).filterMap fun n => (c.obj? x.p (first + n)).map (·.range)
    { reads := [], writes := if own then ring (wkKeyRing w) ++ (if wkKeysOnly w then [] else ring (wkValRing w)) else [] }
  else dmaFoot c x

/-- What an instruction that does not use the matrix unit accesses of its Bead's Locket. -/
def Chip.otherAccess (c : Chip) (x : Ctx) : Foot :=
  match iClass x.i with
  | 2 => c.laneAccess x
  | 3 => c.dmaAccess x
  | 4 => contributeFoot x
  | _ => .none

/-! ## Forwarding (R185) -/

/-- What stands next in a stream, seen ahead of time. -/
inductive Next where
  /-- the position and the loops it is reached under -/
  | at_ (pos : Nat) (loops : List Loop)
  /-- one of the regions of a decide -/
  | region (starts : List Nat)
  /-- it is not known yet, or there is none -/
  | unknown

/-- The instruction after one that needs no matrix unit. A loop that begins ahead is looked through once: its later iterations
hold the same instructions. -/
def nextAhead (x : Ctx) (i pos : Nat) (loops : List Loop) : Next :=
  if iClass i != 0 then .at_ (pos + 1) loops
  else match iOp i with
    | 0 => .unknown
    | 3 =>
      if loopTrips { x with i := i } = 0 then
        match matchEnd x.cap x.run.stream (streamLen x.cap x.run.stream) 0 (pos + 1) with
        | some e => .at_ (e + 1) loops
        | none => .unknown
      else .at_ (pos + 1) ({ start := pos + 1, trip := 1, iter := 0 } :: loops)
    | 4 => match loops with
      | [] => .at_ (pos + 1) []
      | l :: ls => if l.iter + 1 < l.trip then .at_ l.start ({ l with iter := l.iter + 1 } :: ls) else .at_ (pos + 1) ls
    | 5 =>
      let (_, _, starts) := decisionPoint x.cap x.v (ctrlOperand i)
      .region starts
    | _ => .at_ (pos + 1) loops

/-- Whether the next instruction of the stream that uses the matrix unit continues the accumulator `acc` of the single subtile
product `q` at the same address, and nothing before it touches that; `fuel` bounds the look ahead. Past a decide that has not chosen
its region it does where it does in every region (assumption 99, DESIGN CHOICE). -/
def Chip.continued (c : Chip) (x : Ctx) (q : Product) (acc : LockRange) : (fuel pos : Nat) → List Loop → Bool
  | 0, _, _ => false
  | fuel + 1, pos, loops =>
    match instrAt x.cap x.run.stream pos with
    | none => false
    | some i =>
      if iClass i = 1 then mmaAccumulate i && mmaCAddr i = q.cAddr && mmaShape i = q.shape
      else if iClass i = 5 then false
      else
        let f := c.otherAccess { x with i := i, run := { x.run with pos := pos, loops := loops } }
        if (f.reads ++ f.writes).any acc.meets then false
        else match nextAhead x i pos loops with
          | .at_ pos loops => c.continued x q acc fuel pos loops
          | .region starts => !starts.isEmpty && starts.all fun pos => c.continued x q acc fuel pos loops
          | .unknown => false

/-- An MMA forwards its accumulator: it has no post and no epilogue, its shape is one subtile, and the next MMA continues it
(R185). -/
def Chip.forwards (c : Chip) (x : Ctx) (q : Product) : Bool :=
  iPost x.i = noObj && q.epilogue = 0 && q.shape = 0
    && c.continued x q ⟨2, 64 * q.cAddr, 4 * q.m * q.n⟩ (2 * streamLen x.cap x.run.stream + 2) (x.run.pos + 1) x.run.loops

/-! ## MMA (R160, R163) -/

/-- What an MMA accesses. -/
def mmaLive (x : Ctx) : Foot := plainLive x (mmaProduct x.i) 0 true

def mma (p : Nat) (c : Chip) : Chip :=
  issue (iClass · = 1) mmaLive p (fun x c =>
    let q := mmaProduct x.i
    if x.epiNoContext q.epilogue true then .raise stRngNoContext c
    else .done (c.runProduct x q (c.forwards x q) some (c.elemA p q) 0 false)) c

def execMma (p : Nat) (s : State) : Out := onChip (.mma p) s (mma p)

/-! ## The product chain -/

/-- Operand A of an apply, narrowed row by row with what it counts; nothing where there is no valid column (R78, R204; assumption 93,
DEDUCED). -/
def Chip.applied (c : Chip) (x : Ctx) (q : Product) : List (List Conv) :=
  let kv := edgeK x q.edge q.kB
  if edgeN x q.edge q.n = 0 then []
  else (List.range (edgeM x q.edge q.m)).map fun m => (List.range q.kA).map fun k =>
    if q.readsA kv k then c.applyA x (chainWord x) q m k else ⟨0, 0, 0⟩

/-- A chain of kind 0 (R200): with its row gather (R201) or its statistic apply (R204). -/
def chainProduct (p : Nat) (c : Chip) : Chip :=
  issueAt (isChain 0) chainLive p (fun x c =>
    let d := chainWord x
    let q := chainProductOf x
    let mv := edgeM x q.edge q.m
    if x.epiNoContext q.epilogue (chLast x.i) then .raise stRngNoContext c
    else if cdPrologue d = 1 then
      if c.gatherBad x q then .raise stGatherRange c
      else .done (c.runProduct x q false (c.gatherRow x) (c.elemA p q) (chHoldCol x.i) (chLast x.i))
    else if cdPrologue d = 2 then
      let c := if chComplete x.i then c.completeStats x d mv else c
      let as := c.applied x q
      let c := c.count x.j x.p (as.foldl (fun s r => r.foldl (fun s a => s + a.ovf) s) 0)
        (as.foldl (fun s r => r.foldl (fun s a => s + a.inv) s) 0)
      .done (c.runProduct x q false some (fun m k => elemVal q.fmtA true ((as.getD m []).getD k ⟨0, 0, 0⟩).code)
        (chHoldCol x.i) (chLast x.i))
    else .done (c.runProduct x q false some (c.elemA p q) (chHoldCol x.i) (chLast x.i))) c

def execChainProduct (p : Nat) (s : State) : Out := onChip (.chainProduct p) s (chainProduct p)

end Sys2Proof.Machine
end

