-- ==== Sys2Proof/Machine/Dispatch.lean ====
section
/-! DEFINITION. The meaning of each command: one arm per constructor of Instr, one direct call each. -/
namespace Sys2Proof.Machine
open Sys2Proof

/-- The effect of a command on everything but the queue. -/
def exec (i : Instr) (s : State) : Host.Outcome State Fault Refusal :=
  match i with
  | .tickSyncPulse frac => Sys2Proof.Machine.execTickSyncPulse frac s
  | .tickAlignedClear => Sys2Proof.Machine.execTickAlignedClear s
  | .bankCollisionReplay p bank reqs => Sys2Proof.Machine.execBankCollisionReplay p bank reqs s
  | .loadSetting q => Sys2Proof.Machine.execLoadSetting q s
  | .unloadSetting q => Sys2Proof.Machine.execUnloadSetting q s
  | .acceptJob q => Sys2Proof.Machine.execAcceptJob q s
  | .bindJob => Sys2Proof.Machine.execBindJob s
  | .wakeComplete f => Sys2Proof.Machine.execWakeComplete f s
  | .unbind j => Sys2Proof.Machine.execUnbind j s
  | .idleDelayExpiry f => Sys2Proof.Machine.execIdleDelayExpiry f s
  | .jobComplete j => Sys2Proof.Machine.execJobComplete j s
  | .checkpointCommit j => Sys2Proof.Machine.execCheckpointCommit j s
  | .runLimitExpiry j => Sys2Proof.Machine.execRunLimitExpiry j s
  | .submissionDoorbell head q width v => Sys2Proof.Machine.execSubmissionDoorbell head q width v s
  | .journalDoorbell head q width v => Sys2Proof.Machine.execJournalDoorbell head q width v s
  | .cancelDoorbell head q width v => Sys2Proof.Machine.execCancelDoorbell head q width v s
  | .endStream p => Sys2Proof.Machine.execEndStream p s
  | .stepBegin p => Sys2Proof.Machine.execStepBegin p s
  | .stepEnd p => Sys2Proof.Machine.execStepEnd p s
  | .loopBegin p => Sys2Proof.Machine.execLoopBegin p s
  | .loopEnd p => Sys2Proof.Machine.execLoopEnd p s
  | .decide p => Sys2Proof.Machine.execDecide p s
  | .tableSwap p => Sys2Proof.Machine.execTableSwap p s
  | .barrier p => Sys2Proof.Machine.execBarrier p s
  | .barrierRelease j obj => Sys2Proof.Machine.execBarrierRelease j obj s
  | .yield p => Sys2Proof.Machine.execYield p s
  | .mma p => Sys2Proof.Machine.execMma p s
  | .chainProduct p => Sys2Proof.Machine.execChainProduct p s
  | .chainAttention p => Sys2Proof.Machine.execChainAttention p s
  | .scorePass p => Sys2Proof.Machine.execScorePass p s
  | .chainMlp p => Sys2Proof.Machine.execChainMlp p s
  | .copy p => Sys2Proof.Machine.execCopy p s
  | .convert p => Sys2Proof.Machine.execConvert p s
  | .add p => Sys2Proof.Machine.execAdd p s
  | .subtract p => Sys2Proof.Machine.execSubtract p s
  | .multiply p => Sys2Proof.Machine.execMultiply p s
  | .fusedMultiplyAdd p => Sys2Proof.Machine.execFusedMultiplyAdd p s
  | .maximum p => Sys2Proof.Machine.execMaximum p s
  | .minimum p => Sys2Proof.Machine.execMinimum p s
  | .absoluteValue p => Sys2Proof.Machine.execAbsoluteValue p s
  | .negate p => Sys2Proof.Machine.execNegate p s
  | .relu p => Sys2Proof.Machine.execRelu p s
  | .leakyRelu p => Sys2Proof.Machine.execLeakyRelu p s
  | .scalarAffine p => Sys2Proof.Machine.execScalarAffine p s
  | .laneSum p => Sys2Proof.Machine.execLaneSum p s
  | .laneMaximum p => Sys2Proof.Machine.execLaneMaximum p s
  | .rngContext p => Sys2Proof.Machine.execRngContext p s
  | .randBits p => Sys2Proof.Machine.execRandBits p s
  | .randUniform p => Sys2Proof.Machine.execRandUniform p s
  | .randUniformOpen p => Sys2Proof.Machine.execRandUniformOpen p s
  | .randNormal p => Sys2Proof.Machine.execRandNormal p s
  | .exp2 p => Sys2Proof.Machine.execExp2 p s
  | .exp p => Sys2Proof.Machine.execExp p s
  | .log2 p => Sys2Proof.Machine.execLog2 p s
  | .ln p => Sys2Proof.Machine.execLn p s
  | .recip p => Sys2Proof.Machine.execRecip p s
  | .div p => Sys2Proof.Machine.execDiv p s
  | .rsqrt p => Sys2Proof.Machine.execRsqrt p s
  | .sqrt p => Sys2Proof.Machine.execSqrt p s
  | .eval p => Sys2Proof.Machine.execEval p s
  | .gauss p => Sys2Proof.Machine.execGauss p s
  | .tableLoad p => Sys2Proof.Machine.execTableLoad p s
  | .tableLoadComplete p pos => Sys2Proof.Machine.execTableLoadComplete p pos s
  | .layerNormalisation p => Sys2Proof.Machine.execLayerNormalisation p s
  | .rmsNormalisation p => Sys2Proof.Machine.execRmsNormalisation p s
  | .groupNormalisation p => Sys2Proof.Machine.execGroupNormalisation p s
  | .softMaximum p => Sys2Proof.Machine.execSoftMaximum p s
  | .statisticsOnly p => Sys2Proof.Machine.execStatisticsOnly p s
  | .apply p => Sys2Proof.Machine.execApply p s
  | .complete p => Sys2Proof.Machine.execComplete p s
  | .loupeCompare p => Sys2Proof.Machine.execLoupeCompare p s
  | .route p => Sys2Proof.Machine.execRoute p s
  | .tileReport j n => Sys2Proof.Machine.execTileReport j n s
  | .roundWaitExpiry p => Sys2Proof.Machine.execRoundWaitExpiry p s
  | .padFill p => Sys2Proof.Machine.execPadFill p s
  | .convGather p => Sys2Proof.Machine.execConvGather p s
  | .haloCheck p => Sys2Proof.Machine.execHaloCheck p s
  | .resample p => Sys2Proof.Machine.execResample p s
  | .regroup p => Sys2Proof.Machine.execRegroup p s
  | .allReduceSum p inputs => Sys2Proof.Machine.execAllReduceSum p inputs s
  | .reduceScatterSum p inputs => Sys2Proof.Machine.execReduceScatterSum p inputs s
  | .allGather p inputs => Sys2Proof.Machine.execAllGather p inputs s
  | .allReduceMinimum p inputs => Sys2Proof.Machine.execAllReduceMinimum p inputs s
  | .dmaCopy p => Sys2Proof.Machine.execDmaCopy p s
  | .gatherByList p => Sys2Proof.Machine.execGatherByList p s
  | .scatterByList p => Sys2Proof.Machine.execScatterByList p s
  | .sessionInputDecrypt p => Sys2Proof.Machine.execSessionInputDecrypt p s
  | .sessionOutputEncrypt p => Sys2Proof.Machine.execSessionOutputEncrypt p s
  | .multicastCopy p => Sys2Proof.Machine.execMulticastCopy p s
  | .haloSend p => Sys2Proof.Machine.execHaloSend p s
  | .rowStream p => Sys2Proof.Machine.execRowStream p s
  | .transferComplete t => Sys2Proof.Machine.execTransferComplete t s
  | .walk p => Sys2Proof.Machine.execWalk p s
  | .walkStart w => Sys2Proof.Machine.execWalkStart w s
  | .walkBlockDelivery w => Sys2Proof.Machine.execWalkBlockDelivery w s
  | .append p => Sys2Proof.Machine.execAppend p s
  | .dropBelow p => Sys2Proof.Machine.execDropBelow p s
  | .scoreAdd p => Sys2Proof.Machine.execScoreAdd p s
  | .truncateFrom p => Sys2Proof.Machine.execTruncateFrom p s
  | .editCommit e => Sys2Proof.Machine.execEditCommit e s
  | .frameReclaim j pool frame => Sys2Proof.Machine.execFrameReclaim j pool frame s
  | .poolWaitExpiry e => Sys2Proof.Machine.execPoolWaitExpiry e s
  | .syncPost p => Sys2Proof.Machine.execSyncPost p s
  | .syncFill p => Sys2Proof.Machine.execSyncFill p s
  | .syncDrain p => Sys2Proof.Machine.execSyncDrain p s
  | .syncOpen p => Sys2Proof.Machine.execSyncOpen p s
  | .syncClose p => Sys2Proof.Machine.execSyncClose p s
  | .syncContribute p => Sys2Proof.Machine.execSyncContribute p s
  | .contributionArrival j n => Sys2Proof.Machine.execContributionArrival j n s
  | .fillAdmit p obj => Sys2Proof.Machine.execFillAdmit p obj s
  | .fillLand p obj => Sys2Proof.Machine.execFillLand p obj s
  | .remoteAccessAdmit t => Sys2Proof.Machine.execRemoteAccessAdmit t s
  | .slotWatchdogExpiry j => Sys2Proof.Machine.execSlotWatchdogExpiry j s
  | .rowIntake st n => Sys2Proof.Machine.execRowIntake st n s
  | .ctuRowStart st => Sys2Proof.Machine.execCtuRowStart st s
  | .recordAssembly st => Sys2Proof.Machine.execRecordAssembly st s
  | .decodeInput p => Sys2Proof.Machine.execDecodeInput p s
  | .decodeFrameOutput st => Sys2Proof.Machine.execDecodeFrameOutput st s
  | .endOfInput p => Sys2Proof.Machine.execEndOfInput p s
  | .fault f => Sys2Proof.Machine.execFault f s
  | .beadProgressExpiry p => Sys2Proof.Machine.execBeadProgressExpiry p s
  | .selfTestComplete p ok => Sys2Proof.Machine.execSelfTestComplete p ok s
  | .domainReturn d ok => Sys2Proof.Machine.execDomainReturn d ok s
  | .edgeRetryExhausted e => Sys2Proof.Machine.execEdgeRetryExhausted e s
  | .paveTakeover => Sys2Proof.Machine.execPaveTakeover s
  | .tamper sensors => Sys2Proof.Machine.execTamper sensors s
  | .thermalReading r => Sys2Proof.Machine.execThermalReading r s
  | .telemetryIntervalEnd r => Sys2Proof.Machine.execTelemetryIntervalEnd r s
  | .refresh pc bank => Sys2Proof.Machine.execRefresh pc bank s
  | .retrainStart st eyeLow => Sys2Proof.Machine.execRetrainStart st eyeLow s
  | .sliceBegin pc k => Sys2Proof.Machine.execSliceBegin pc k s
  | .sliceEnd pc ok => Sys2Proof.Machine.execSliceEnd pc ok s
  | .softRepair pc place errs => Sys2Proof.Machine.execSoftRepair pc place errs s
  | .uncorrectableRead pc granule burst errs r => Sys2Proof.Machine.execUncorrectableRead pc granule burst errs r s
  | .pcLoss pc reason => Sys2Proof.Machine.execPcLoss pc reason s
  | .mapEpochBarrier => Sys2Proof.Machine.execMapEpochBarrier s
  | .remirror st => Sys2Proof.Machine.execRemirror st s
  | .hbmPatrolScrub pc granule errs => Sys2Proof.Machine.execHbmPatrolScrub pc granule errs s
  | .stackFault st detail => Sys2Proof.Machine.execStackFault st detail s
  | .stackReturn st => Sys2Proof.Machine.execStackReturn st s
  | .stackReturnTimeout st => Sys2Proof.Machine.execStackReturnTimeout st s
  | .weightReload h tensor => Sys2Proof.Machine.execWeightReload h tensor s
  | .hostWindowRead head addr len => Sys2Proof.Machine.execHostWindowRead head addr len s
  | .hostWindowWrite head addr bytes => Sys2Proof.Machine.execHostWindowWrite head addr bytes s
  | .hostSnoop head line => Sys2Proof.Machine.execHostSnoop head line s
  | .ideCheckFail head => Sys2Proof.Machine.execIdeCheckFail head s
  | .joinCookieWrite head width v => Sys2Proof.Machine.execJoinCookieWrite head width v s
  | .warmResetRequest src => Sys2Proof.Machine.execWarmResetRequest src s
  | .warmReset => Sys2Proof.Machine.execWarmReset s
  | .headReset head => Sys2Proof.Machine.execHeadReset head s
  | .facetReset f => Sys2Proof.Machine.execFacetReset f s
  | .coldReset => Sys2Proof.Machine.execColdReset s
  | .pkgResetDeassert straps => Sys2Proof.Machine.execPkgResetDeassert straps s
  | .linkUp head width rate => Sys2Proof.Machine.execLinkUp head width rate s
  | .bootGo r => Sys2Proof.Machine.execBootGo r s
  | .paveReady => Sys2Proof.Machine.execPaveReady s
  | .bundleCommit r => Sys2Proof.Machine.execBundleCommit r s
  | .aliasTreeGenerate => Sys2Proof.Machine.execAliasTreeGenerate s
  | .lcRequest r => Sys2Proof.Machine.execLcRequest r s
  | .sessionRequest r => Sys2Proof.Machine.execSessionRequest r s
  | .sessionAccept r => Sys2Proof.Machine.execSessionAccept r s
  | .sessionOfferExpiry => Sys2Proof.Machine.execSessionOfferExpiry s
  | .sessionClose r => Sys2Proof.Machine.execSessionClose r s
  | .spdmRequest path r => Sys2Proof.Machine.execSpdmRequest path r s
  | .spdmVendorRequest path registry => Sys2Proof.Machine.execSpdmVendorRequest path registry s
  | .swapOut j seq rec slot => Sys2Proof.Machine.execSwapOut j seq rec slot s
  | .swapIn j seq rec => Sys2Proof.Machine.execSwapIn j seq rec s
  | .strandBlockReceive port b => Sys2Proof.Machine.execStrandBlockReceive port b s
  | .strandRetryRequest port ack => Sys2Proof.Machine.execStrandRetryRequest port ack s
  | .strandMessageReceive port m => Sys2Proof.Machine.execStrandMessageReceive port m s
  | .ringDataReceive n => Sys2Proof.Machine.execRingDataReceive n s
  | .timeSyncSend port frac => Sys2Proof.Machine.execTimeSyncSend port frac s
  | .timeSyncReceive port b => Sys2Proof.Machine.execTimeSyncReceive port b s
  | .parentTimeout => Sys2Proof.Machine.execParentTimeout s
  | .linkTraining port peer lanes => Sys2Proof.Machine.execLinkTraining port peer lanes s
  | .strandPortFault port lanes => Sys2Proof.Machine.execStrandPortFault port lanes s
  | .portRetrainComplete port intact => Sys2Proof.Machine.execPortRetrainComplete port intact s
  | .ringCommitted at_ k => Sys2Proof.Machine.execRingCommitted at_ k s
  | .ringAll at_ k => Sys2Proof.Machine.execRingAll at_ k s
  | .ringFence ring epoch port => Sys2Proof.Machine.execRingFence ring epoch port s
  | .ringResume at_ m epoch => Sys2Proof.Machine.execRingResume at_ m epoch s
  | .ringResumeExpiry ring => Sys2Proof.Machine.execRingResumeExpiry ring s
  | .dictRead r => Sys2Proof.Machine.execDictRead r s
  | .dictWrite r => Sys2Proof.Machine.execDictWrite r s
  | .dictDescribe r => Sys2Proof.Machine.execDictDescribe r s
  | .dictNext r => Sys2Proof.Machine.execDictNext r s
  | .setEndpointId path eid => Sys2Proof.Machine.execSetEndpointId path eid s
  | .getEndpointId path => Sys2Proof.Machine.execGetEndpointId path s
  | .getMctpVersionSupport path msgType => Sys2Proof.Machine.execGetMctpVersionSupport path msgType s
  | .getMessageTypeSupport path => Sys2Proof.Machine.execGetMessageTypeSupport path s
  | .getVendorDefinedMessageSupport path => Sys2Proof.Machine.execGetVendorDefinedMessageSupport path s
  | .unsupportedControlCommand path code => Sys2Proof.Machine.execUnsupportedControlCommand path code s
  | .tableCommit r => Sys2Proof.Machine.execTableCommit r s
  | .queueEnable r => Sys2Proof.Machine.execQueueEnable r s
  | .faultLogAck r => Sys2Proof.Machine.execFaultLogAck r s
  | .strandIdentityWrite r => Sys2Proof.Machine.execStrandIdentityWrite r s
  | .telemetryIntervalWrite r => Sys2Proof.Machine.execTelemetryIntervalWrite r s
  | .ringEntryWrite r => Sys2Proof.Machine.execRingEntryWrite r s
  | .locketPatrolScrub m r => Sys2Proof.Machine.execLocketPatrolScrub m r s
  | .ideKmExchange head => Sys2Proof.Machine.execIdeKmExchange head s
  | .hdmDecoderCommit head base => Sys2Proof.Machine.execHdmDecoderCommit head base s
  | .i3cDynamicAddressAssignment port addr => Sys2Proof.Machine.execI3cDynamicAddressAssignment port addr s
  | .powerDown => Sys2Proof.Machine.execPowerDown s

end Sys2Proof.Machine
end

