-- ==== Sys2Proof/Machine/Step.lean ====
section
/-! DEFINITION. One step of the part: the command at the front of the queue, or, with none waiting, what the package
sequencer has to handle at this tick edge, or one tick edge. -/
namespace Sys2Proof.Machine

/-- The outcome of an event that the sequencer has handled: the shadow is compared, and what comes after is of the present tick again. -/
def settled : Out → Out
  | .next s => .next (s.shadowCheck.withLag 0)
  | .fault r => .fault r
  | .refused r => .refused r

/-- The next command is taken off the queue and has its effect. With none waiting, the sequencer handles the first event or fault that it
has held for three ticks (R33 to R35); with none such, one tick edge passes (assumption 9, DESIGN CHOICE). -/
def step (s : State) : Host.Outcome State Fault Refusal :=
  match s.pending with
  | c :: rest => exec c { s with pending := rest }
  | [] => match s.ripe with
    | some (.event c, t) => settled (exec c t)
    | some (.fault f, t) => settled (.next { t with chip := t.chip.handleRaised f })
    | none => .next { s with chip := tickEdge s.chip }

/-- The state with the command that a word spells put in front of its queue; unchanged where the word spells none. -/
def State.withFetchWord (s : State) (nbits w : Nat) : State :=
  match decodeTableWord nbits w with
  | some c => { s with pending := c :: s.pending }
  | none => s

end Sys2Proof.Machine
end

