-- ==== Sys2Proof/Safety.lean ====
section
/-! DEFINITION. What claims call a safe state: one-time programmable bits, counters and indices inside their fields. -/
namespace Sys2Proof.Machine

/-- The one-time programmable bits hold values they can hold (Tables 17.3, 17.4, 17.7; R595). -/
def Otp.legal (o : Otp) : Bool :=
  o.svn ≤ 128 && o.revoked < 16 && o.lcCount ≤ 4 && o.tamperCount ≤ 32 && o.blocks ≤ 8192

/-- The one-time programmable bits, and the version and revocations that wait to be burned (Table 17.3), lie in their fields. -/
def State.fusesSound (s : State) : Bool := s.otp.legal && s.sec.imageSvn ≤ 128 && s.sec.revokeMask < 16

end Sys2Proof.Machine
end

