-- ==== Sys2Proof/Certificates/Slice0/Obligations.lean ====
section
/-! DEFINITION. The statements for the provers, and the words they are said in: when an instruction of a Bead is ready to
issue, what its completion leaves, and what a command leaves alone. -/
namespace Sys2Proof.Claims

open Sys2Proof Sys2Proof.Machine

/-- Bead `p` stands at the instruction of `x`, which `sel` picks, and no earlier one that `sel` picks is in progress; the object of
its wait field is available (R89), its units are free (R683), no earlier instruction of its stream conflicts with its Locket
ranges `f` (R90), none of its local accesses stalls (R372), and no earlier table_swap holds it (R238). -/
def Ready (c : Chip) (p : Nat) (x : Ctx) (sel : Ctx → Prop) (f : Foot) : Prop :=
  isBead p = true ∧ c.canIssue p = some x ∧ sel x ∧ (∀ n y k, c.parkedCtx p n = some (y, k) → ¬sel y) ∧
    c.available p (iWait x.i) = true ∧ x.unitBusy = false ∧ c.hazard x f = false ∧ c.readStalls p (localFoot x f) = [] ∧
    c.writeStall p (localFoot x f) = false ∧ x.tableHeld = false

/-- Instructions whose word `sel` picks. -/
def byWord (sel : Nat → Prop) (x : Ctx) : Prop := sel x.i

/-- The state with another chip. -/
def inState (s : State) (c : Chip) : State := { s with chip := c }

/-- The chip once the instruction has taken what its wait field takes (R368, R681). -/
def taken (c : Chip) (x : Ctx) : Chip := c.take x.p (iWait x.i)

/-- The Bead goes on to the instruction after the one it stood at in `c0`. -/
def wentOn (c0 : Chip) (x : Ctx) (c : Chip) : Chip := c.goTo x.p ((c0.bead x.p).run.pos + 1)

/-- The instruction has completed with `c` as its results: the Bead goes on and the post field is made (R89). -/
def completed (c0 : Chip) (x : Ctx) (c : Chip) : Chip := (wentOn c0 x c).postObj x.j x.p (iPost x.i)

/-- Whenever Bead `p` is ready at an instruction that `sel` picks and `cond` holds of it, command `cmd p` answers the next
state in which the instruction has had its effect `eff`, has completed and has posted. -/
def CompletesAt (cmd : Nat → Instr) (sel : Ctx → Prop) (foot : Chip → Ctx → Foot) (cond : Ctx → Chip → Prop)
    (eff : Ctx → Chip → Chip) : Prop :=
  ∀ (s : State) (p : Nat) (x : Ctx), Ready s.chip p x sel (foot s.chip x) → cond x (taken s.chip x) →
    exec (cmd p) s = .next (inState s (completed s.chip x (eff x (taken s.chip x))))

/-- The same for instructions that their word alone picks and whose ranges their context alone gives. -/
def Completes (cmd : Nat → Instr) (sel : Nat → Prop) (foot : Ctx → Foot) (cond : Ctx → Chip → Prop)
    (eff : Ctx → Chip → Chip) : Prop :=
  CompletesAt cmd (byWord sel) (fun _ => foot) cond eff

/-- The same for an instruction that starts what ends by a command of its own: it goes on and does not post yet. -/
def Starts (cmd : Nat → Instr) (sel : Nat → Prop) (foot : Ctx → Foot) (cond : Ctx → Chip → Prop)
    (eff : Ctx → Chip → Chip) : Prop :=
  ∀ (s : State) (p : Nat) (x : Ctx), Ready s.chip p x (byWord sel) (foot x) → cond x (taken s.chip x) →
    exec (cmd p) s = .next (inState s (wentOn s.chip x (eff x (taken s.chip x))))

/-- No earlier instruction in progress at the Bead is one that `busy` picks. -/
def noneAhead (x : Ctx) (busy : Parked → Bool) : Prop := x.ahead.any busy = false

/-- No condition beside readiness. -/
def always (_ : Ctx) (_ : Chip) : Prop := True

/-- LANE operation code `op`. -/
def lane (op i : Nat) : Prop := iClass i = 2 ∧ iOp i = op

/-- CTRL operation `op`. -/
def ctrl (op i : Nat) : Prop := iClass i = 0 ∧ iOp i = op

/-- SYNC operation `op`. -/
def sync (op i : Nat) : Prop := iClass i = 4 ∧ syOp i = op

end Sys2Proof.Claims

open Sys2Proof Sys2Proof.Machine Sys2Proof.Claims

/-! ## LANE: vector operations (Table 2.18) -/

/-- Every arithmetic vector operation whose Bead is ready completes: its FP32 results, one for each lane (one in all for the
two reductions), are narrowed to fmt_d and written from lane 0 up (R95, R96). `addF`, `subF`, `mulF` and `fmaF` are the exact
result rounded once to FP32. -/
def Sys2Proof.Claims.VectorArithmeticCompletes : Prop :=
  Completes .add (lane 0x02) (fun x => laneFoot 2 x.i) always
    (fun x c => c.writeLanes x (List.zipWith addF (c.src0 x) (c.src1 x))) ∧
  Completes .subtract (lane 0x03) (fun x => laneFoot 2 x.i) always
    (fun x c => c.writeLanes x (List.zipWith subF (c.src0 x) (c.src1 x))) ∧
  Completes .multiply (lane 0x04) (fun x => laneFoot 2 x.i) always
    (fun x c => c.writeLanes x (List.zipWith mulF (c.src0 x) (c.src1 x))) ∧
  Completes .fusedMultiplyAdd (lane 0x05) (fun x => laneFoot 3 x.i) always
    (fun x c => c.writeLanes x
      (List.zipWith (fun g v => g v) (List.zipWith fmaF (c.src0 x) (c.src1 x)) (c.src2 x))) ∧
  Completes .maximum (lane 0x06) (fun x => laneFoot 2 x.i) always
    (fun x c => c.writeLanes x (List.zipWith Val.max (c.src0 x) (c.src1 x))) ∧
  Completes .minimum (lane 0x07) (fun x => laneFoot 2 x.i) always
    (fun x c => c.writeLanes x (List.zipWith Val.min (c.src0 x) (c.src1 x))) ∧
  Completes .absoluteValue (lane 0x08) (fun x => laneFoot 1 x.i) always
    (fun x c => c.writeLanes x ((c.src0 x).map Val.abs)) ∧
  Completes .negate (lane 0x09) (fun x => laneFoot 1 x.i) always
    (fun x c => c.writeLanes x ((c.src0 x).map Val.neg)) ∧
  Completes .relu (lane 0x0A) (fun x => laneFoot 1 x.i) always
    (fun x c => c.writeLanes x ((c.src0 x).map fun v => v.max .zero)) ∧
  Completes .leakyRelu (lane 0x0B) (fun x => laneFoot 1 x.i) always
    (fun x c => c.writeLanes x ((c.src0 x).map fun v =>
      if v = .nan ∨ v.lt .zero = true then mulF v (f32 (fld (x.const (laneConst x.i)) 31 0)) else v)) ∧
  Completes .scalarAffine (lane 0x0C) (fun x => laneFoot 1 x.i) always
    (fun x c => c.writeLanes x ((c.src0 x).map fun v =>
      fmaF v (f32 (fld (x.const (laneConst x.i)) 127 96)) (f32 (fld (x.const (laneConst x.i)) 95 64)))) ∧
  Completes .laneSum (lane 0x0D)
    (fun x => { laneFoot 1 x.i with writes := [⟨laneBankD x.i, 64 * laneAddrD x.i, elemBytes (laneFmtD x.i) 1⟩] }) always
    (fun x c => c.writeLanes x [pairwise (c.src0 x).length (c.src0 x)]) ∧
  Completes .laneMaximum (lane 0x0E)
    (fun x => { laneFoot 1 x.i with writes := [⟨laneBankD x.i, 64 * laneAddrD x.i, elemBytes (laneFmtD x.i) 1⟩] }) always
    (fun x c => c.writeLanes x [maxOf (c.src0 x)])

/-- copy writes every lane's code as it is, and an MX tile's scale bytes with it; convert narrows every lane by its
conversion word, in blocks of 32 for an MX target (R95, R122, R134). -/
def Sys2Proof.Claims.CopyAndConvertComplete : Prop :=
  Completes .copy (lane 0x00) (fun x => laneFoot 1 x.i) always
    (fun x c =>
      let f := laneFmt0 x.i
      let n := laneCount x.i
      let d := c.putElems x.p (laneBankD x.i) (64 * laneAddrD x.i) f (c.elems x.p (laneBank0 x.i) (64 * laneAddr0 x.i) f n)
      if isMx f then d.lockWrite x.p (laneBankD x.i) (mxScaleOff (64 * laneAddrD x.i) f n)
        (c.lockRead x.p (laneBank0 x.i) (mxScaleOff (64 * laneAddr0 x.i) f n) (ceilDiv n 32))
      else d) ∧
  Completes .convert (lane 0x01) convertFoot
    (fun x _ => isMx (cwTarget (fld (x.const (laneConst x.i)) 31 0)) = false ∧
      x.noContext (fld (x.const (laneConst x.i)) 31 0) = false)
    (fun x c =>
      let w := fld (x.const (laneConst x.i)) 31 0
      let vs := c.values x.p (laneBank0 x.i) (64 * laneAddr0 x.i) (laneFmt0 x.i) (bit (x.const (laneConst x.i)) 32)
        (laneCount x.i)
      let rs := vs.zipIdx.map fun (v, i) =>
        Machine.convert (laneConvSpec x c i) (if cwRounding w = 2 then c.nibble x 0 i else 0) v
      (c.putElems x.p (laneBankD x.i) (64 * laneAddrD x.i) (cwTarget w) (rs.map (·.code))).count x.j x.p
        (rs.foldl (fun a r => a + r.ovf) 0) (rs.foldl (fun a r => a + r.inv) 0)) ∧
  Completes .convert (lane 0x01) convertFoot
    (fun x _ => isMx (cwTarget (fld (x.const (laneConst x.i)) 31 0)) = true ∧
      x.noContext (fld (x.const (laneConst x.i)) 31 0) = false)
    (fun x c =>
      let w := fld (x.const (laneConst x.i)) 31 0
      let n := laneCount x.i
      let vs := c.values x.p (laneBank0 x.i) (64 * laneAddr0 x.i) (laneFmt0 x.i) (bit (x.const (laneConst x.i)) 32) n
      c.putBlocks x.j x.p (laneBankD x.i) (64 * laneAddrD x.i) (cwTarget w) (cwRounding w)
        (mxScaleOff (64 * laneAddrD x.i) (cwTarget w) n) (c.nibble x 0)
        (vs.zipIdx.map fun (v, i) => convStage (laneConvSpec x c i) v))

/-- Copies, conversions and arithmetic of the vector unit complete with their results (R95, R96, R122, R134). -/
def Obligations.LaneArithmeticCompletes : Prop :=
  VectorArithmeticCompletes ∧ CopyAndConvertComplete

/-! ## LANE: draws (Table 10.3) -/

/-- A ready draw completes: rng_context sets the rounding context; the others write one value for each lane n, made of the
random word at local position (0, n) under the draw context that const names (R350, R354). -/
def Sys2Proof.Claims.DrawsComplete : Prop :=
  Completes .rngContext (lane 0x30) (fun _ => Foot.none) always
    (fun x c => c.updRun x.p fun r => { r with ctx := some (x.const (laneConst x.i)) }) ∧
  Completes .randBits (lane 0x31) (fun x => laneFoot 0 x.i) always
    (fun x c => c.putElems x.p (laneBankD x.i) (64 * laneAddrD x.i) (laneFmtD x.i)
      ((List.range (laneCount x.i)).map (c.word x (x.const (laneConst x.i)) 0))) ∧
  Completes .randUniform (lane 0x32) (fun x => laneFoot 0 x.i) always
    (fun x c => c.writeLanes x (((List.range (laneCount x.i)).map (c.word x (x.const (laneConst x.i)) 0)).map
      fun w => .fin false (w / 2 ^ 8) (-24))) ∧
  Completes .randUniformOpen (lane 0x33) (fun x => laneFoot 0 x.i) always
    (fun x c => c.writeLanes x (((List.range (laneCount x.i)).map (c.word x (x.const (laneConst x.i)) 0)).map
      fun w => .fin false (2 * (w / 2 ^ 9) + 1) (-24))) ∧
  Completes .randNormal (lane 0x34) (fun x => laneFoot 0 x.i) always
    (fun x c => c.writeLanes x (((List.range (laneCount x.i)).map (c.word x (x.const (laneConst x.i)) 0)).map
      (c.table x.p (dcTable (x.const (laneConst x.i)))).gauss))

/-! ## LANE: the special-function unit (Tables 6.1, 2.18) -/

/-- A ready lookup completes: every lane of source 0 goes through the table that is active at the operation's position (R226),
div through recip and one more rounding, eval by breakpoints where the image has a section for fmt_d (R224, R229, R231,
R232, R234). -/
def Sys2Proof.Claims.LookupsComplete : Prop :=
  Completes .exp2 (lane 0x40) (fun x => laneFoot 1 x.i) always
    (fun x c => c.writeLanes x ((c.src0 x).map (c.table x.p 0).exp2)) ∧
  Completes .exp (lane 0x41) (fun x => laneFoot 1 x.i) always
    (fun x c => c.writeLanes x ((c.src0 x).map (c.table x.p 0).exp)) ∧
  Completes .log2 (lane 0x42) (fun x => laneFoot 1 x.i) always
    (fun x c => c.writeLanes x ((c.src0 x).map (c.table x.p 3).log2)) ∧
  Completes .ln (lane 0x43) (fun x => laneFoot 1 x.i) always
    (fun x c => c.writeLanes x ((c.src0 x).map (c.table x.p 3).ln)) ∧
  Completes .recip (lane 0x44) (fun x => laneFoot 1 x.i) always
    (fun x c => c.writeLanes x ((c.src0 x).map (c.table x.p 1).recip)) ∧
  Completes .div (lane 0x45) (fun x => laneFoot 2 x.i) always
    (fun x c => c.writeLanes x (List.zipWith (fun a b => mulF a ((c.table x.p 1).recip b)) (c.src0 x) (c.src1 x))) ∧
  Completes .rsqrt (lane 0x46) (fun x => laneFoot 1 x.i) always
    (fun x c => c.writeLanes x ((c.src0 x).map (c.table x.p 2).rsqrt)) ∧
  Completes .sqrt (lane 0x47) (fun x => laneFoot 1 x.i) always
    (fun x c => c.writeLanes x ((c.src0 x).map (c.table x.p 2).sqrt)) ∧
  Completes .eval (lane 0x48) (fun x => laneFoot 1 x.i) always
    (fun x c => c.writeConvs x ((c.src0 x).map
      ((c.table x.p (fld (x.const (laneConst x.i)) 7 0)).evalTo (laneFmtD x.i)))) ∧
  Completes .gauss (lane 0x49) (fun x => laneFoot 1 x.i) always
    (fun x c => c.writeLanes x ((c.elems x.p (laneBank0 x.i) (64 * laneAddr0 x.i) 0 (laneCount x.i)).map
      (c.table x.p (fld (x.const (laneConst x.i)) 7 0)).gauss))

/-- table_load starts to move an image that its section holds and completes when the image is there; then the shadow bank
holds it and is full, and the load posts. A table_swap with no load, swap or lookup of its position under way exchanges the banks
if the shadow bank is full and leaves them if it is not (R236 to R239). -/
def Sys2Proof.Claims.TableLoadAndSwapComplete : Prop :=
  (∀ img, Starts .tableLoad (lane 0x4A) (fun _ => Foot.none)
    (fun x c => tableImage x.cap (fld (x.const (laneConst x.i)) 7 0) (fld (x.const (laneConst x.i)) 31 16) = some img ∧
      (∀ t ∈ c.tableLoads, ¬(t.p = x.p ∧ t.pos = fld (x.const (laneConst x.i)) 7 0)) ∧
      noneAhead x fun k => k.swaps = some (fld (x.const (laneConst x.i)) 7 0) || k.loads = some (fld (x.const (laneConst x.i)) 7 0))
    (fun x c => { c with tableLoads := c.tableLoads ++
      [{ job := x.j, p := x.p, pos := fld (x.const (laneConst x.i)) 7 0, image := img, post := iPost x.i }] })) ∧
  (∀ (s : State) (p pos : Nat) (t : TableLoad), isBead p = true → pos < 8 →
    s.chip.tableLoads.find? (fun t => t.p = p && t.pos = pos) = some t →
    exec (.tableLoadComplete p pos) s = .next (inState s
      ((({ s.chip with tableLoads := s.chip.tableLoads.filter fun t => !(t.p = p && t.pos = pos) }.writeTable
        (s.chip.shadowKey p pos) t.image).updBead p fun b =>
          { b with shadowFull := modAt b.shadowFull pos fun _ => true }).postObj t.job p t.post))) ∧
  Completes .tableSwap (ctrl 6) (fun _ => Foot.none)
    (fun x c => (∀ t ∈ c.tableLoads, ¬(t.p = x.p ∧ t.pos = swapTable x.i)) ∧
      noneAhead x fun k => k.swaps = some (swapTable x.i) || k.loads = some (swapTable x.i) || k.looks.contains (swapTable x.i))
    (fun x c => if (c.bead x.p).shadowFull.getD (swapTable x.i) false then
      c.updBead x.p fun b => { b with tabSel := modAt b.tabSel (swapTable x.i) (!·) } else c)

/-- Draws and table lookups complete with their values, and a table image is loaded beside the active one and swapped in
(R95, R236, R240, R241, R350, R354). -/
def Obligations.DrawsLookupsAndTablesComplete : Prop :=
  DrawsComplete ∧ LookupsComplete ∧ TableLoadAndSwapComplete

/-! ## LANE: normalisation (Table 6.6) -/

/-- One row of a row normalisation: a row with no valid element writes nothing and, where `flag` says so, sets EMPTY_REDUCTION; any
other has its values `y`, scaled and shifted by the affine vectors where they are held, converted and written (R248). Statistics and values
are of the source as the instruction found it. -/
def Sys2Proof.Claims.normRow (flag : Bool) (y : Ctx → Chip → Nat → List Val → List Val) (x : Ctx) (c c' : Chip) (m : Nat) : Chip :=
  if normLen x (normWord x) = 0 then (if flag then c'.setFlag x.j x.p flEmptyReduction else c')
  else c'.normWrite x (normWord x) m
    ((y x c (normWord x) (c.rowSeq x (normWord x) m)).zipIdx.map fun (v, n) => c.normZ x (normWord x) n v)

/-- Whether group `g` of a normalisation has no valid element. -/
def Sys2Proof.Claims.groupEmpty (x : Ctx) (g : Nat) : Bool := (groupCols x (normWord x) g).isEmpty || normRows x (normWord x) = 0

/-- Every valid row of a group normalisation by the pair `st` of the group its column lies in; one group without a valid
element sets EMPTY_REDUCTION (R248). -/
def Sys2Proof.Claims.normGroups (st : Nat → MeanDev) (x : Ctx) (c : Chip) : Chip :=
  let d := normWord x
  let pair (n : Nat) : MeanDev := ((List.range (nmGroups d)).map fun g =>
    if groupEmpty x g then { mu := .zero, r := .zero } else st g).getD (n / (nmLen d / nmGroups d))
      { mu := .zero, r := .zero }
  let c' := (List.range (normRows x d)).foldl (fun c' m =>
    c'.normWrite x d m ((c.rowSeq x d m).zipIdx.map fun (v, n) => c.normZ x d n (c.applyY x.p 2 (pair n) v))) c
  if (List.range (nmGroups d)).any (groupEmpty x) then c'.setFlag x.j x.p flEmptyReduction else c'

/-- A ready normalisation whose conversion has the rounding context it needs completes: layer, RMS and soft maximum row by
row, group normalisation and apply by groups, statistics as one record a group, complete as one stored pair a group
(R244 to R250). -/
def Sys2Proof.Claims.NormalisationsComplete : Prop :=
  Completes .layerNormalisation (lane 0x50) (normLive true true false false)
    (fun x _ => x.noContext (nmConvert (normWord x)) = false)
    (fun x c => (List.range (normRows x (normWord x))).foldl (normRow true (fun x c d xs =>
      xs.map (c.applyY x.p 2 (c.twoPass x.p (nmEps d) xs))) x c) c) ∧
  Completes .rmsNormalisation (lane 0x51) (normLive true true false false)
    (fun x _ => x.noContext (nmConvert (normWord x)) = false)
    (fun x c => (List.range (normRows x (normWord x))).foldl (normRow true (fun x c d xs =>
      xs.map fun v => mulF v (c.rmsDev x.p (nmEps d) xs)) x c) c) ∧
  Completes .groupNormalisation (lane 0x52) (normLive true true false false)
    (fun x _ => x.noContext (nmConvert (normWord x)) = false)
    (fun x c => normGroups (fun g => c.twoPass x.p (nmEps (normWord x)) (c.groupSeq x (normWord x) g)) x c) ∧
  Completes .softMaximum (lane 0x53) (normLive true true false false)
    (fun x _ => x.noContext (nmConvert (normWord x)) = false)
    (fun x c => (List.range (normRows x (normWord x))).foldl (normRow false softRow x c) c) ∧
  Completes .statisticsOnly (lane 0x54) (normLive true false false true) always
    (fun x c => (List.range (nmGroups (normWord x))).foldl (fun c' g =>
      c'.lockWrite x.p 3 (64 * nmStatAddr (normWord x) + 16 * g)
        (Partial.ofWelford (c.welford x.p (c.groupSeq x (normWord x) g))).bytes) c) ∧
  Completes .apply (lane 0x55) (normLive true true true false)
    (fun x _ => x.noContext (nmConvert (normWord x)) = false)
    (fun x c => normGroups (fun g => c.storedPair x (normWord x) g) x c) ∧
  Completes .complete (lane 0x56) completeFoot always
    (fun x c => (List.range (nmGroups (normWord x))).foldl (fun c' g =>
      let r := c.completeRow x.p 2 (nmEps (normWord x)) ((List.range (nmRows (normWord x))).map fun t =>
        c.partialAt x.p (nmSrcBank (normWord x)) (64 * nmSrcAddr (normWord x) + 16 * (g * nmRows (normWord x) + t)))
      let c' := c'.lockWrite x.p 3 (64 * nmStatAddr (normWord x) + 8 * g) (leBytes 4 (rnd r.1.mu) ++ leBytes 4 (rnd r.1.r))
      if r.2 then c'.setFlag x.j x.p flEmptyReduction else c') c)

/-! ## LANE: row buffers (Table 9.3) -/

/-- One pixel that pad_fill writes: zeros, the pad value, or a copy. -/
def Sys2Proof.Claims.padOne (x : Ctx) (c : Chip) (e : Nat × PadPixel) : Chip :=
  match e.2 with
  | .zero => c.fillPixel x.p (dstBuf (rowDesc x)) e.1 fun _ => 0
  | .value => c.fillPixel x.p (dstBuf (rowDesc x)) e.1 fun _ => padCode x (rowDesc x)
  | .copy s => c.fillPixel x.p (dstBuf (rowDesc x)) e.1 fun ch => c.pixel x.p (padWork x (rowDesc x)).1 s ch

/-- A ready row operation completes: pad_fill writes its pixels in order, conv_gather a 128-row operand of bit copies and +0,
halo_check passes a header that names the own step, the layer and the peer, resample pools or repeats pixels, regroup moves
channels between pixels (R332 to R336, R340). -/
def Sys2Proof.Claims.RowOperationsComplete : Prop :=
  Completes .padFill (lane 0x70) padFoot always
    (fun x c => (padWork x (rowDesc x)).2.foldl (padOne x) c) ∧
  Completes .convGather (lane 0x71)
    (fun x => { reads := tapReads (rowDesc x),
                writes := [⟨roDstBank (rowDesc x), 64 * roDstAddr (rowDesc x),
                  elemBytes (roFmt (rowDesc x)) (128 * gatherKt (rowDesc x))⟩] }) always
    (fun x c =>
      let d := rowDesc x
      c.putElems x.p (roDstBank d) (64 * roDstAddr d) (roFmt d) ((List.range 128).flatMap fun m =>
        (List.range (gatherKt d)).map fun k =>
          if m < roCount d ∧ k < roTaps d * roCpix d
          then c.pixel x.p (srcBuf d) (roX0 d + m * roStride d + k / roCpix d * roDil d) (k % roCpix d) else 0)) ∧
  (∀ o, Completes .haloCheck (lane 0x72) (fun _ => .none)
    (fun x c => c.obj? x.p (iWait x.i) = some o ∧
      fld (c.lockLE x.p o.bank (o.off + o.len - 64) 64) 511 480 = x.run.step.getD u32max ∧
      fld (c.lockLE x.p o.bank (o.off + o.len - 64) 64) 479 464 = roLayer (rowDesc x) ∧
      fld (c.lockLE x.p o.bank (o.off + o.len - 64) 64) 463 452 = o.peer)
    (fun _ c => c)) ∧
  Completes .resample (lane 0x73) resampleFoot (fun x _ => roMode (rowDesc x) = 2)
    (fun x c =>
      let d := rowDesc x
      iter (roCount d) (fun m c => c.fillPixel x.p (dstBuf d) m fun ch =>
        c.pixel x.p (srcBuf d) (roX0 d + m / roTaps d) ch) c) ∧
  Completes .resample (lane 0x73) resampleFoot (fun x _ => roMode (rowDesc x) ≠ 2)
    (fun x c =>
      let d := rowDesc x
      c.putElems x.p (roDstBank d) (64 * roDstAddr d) 0 ((List.range (roCount d)).flatMap fun m =>
        (List.range (roCpix d)).map fun ch => rnd (c.poolValue x.p d m ch))) ∧
  Completes .regroup (lane 0x74) regroupFoot (fun x _ => roMode (rowDesc x) = 0)
    (fun x c =>
      let d := rowDesc x
      let f := roTaps d
      let u := roUsed d
      iter (roCount d) (fun m c => c.fillPixel x.p { dstBuf d with cpix := roDstCpix d } m fun e =>
        if e < f * f * u then c.pixel x.p (pitchRow d (e / u / f) (srcBuf d)) (roX0 d + f * m + e / u % f) (e % u) else 0)
        c) ∧
  Completes .regroup (lane 0x74) regroupFoot (fun x _ => roMode (rowDesc x) ≠ 0)
    (fun x c =>
      let d := rowDesc x
      let f := roTaps d
      let u := roUsed d
      iter f (fun i c => iter (f * roCount d) (fun q c =>
        c.fillPixel x.p (pitchRow d i { dstBuf d with cpix := roDstCpix d }) q fun ch =>
          if ch < u then c.pixel x.p (srcBuf d) (roX0 d + q / f) ((i * f + q % f) * u + ch) else 0) c) c)

/-- Normalisations, statistics and row operations complete with their results (R95). -/
def Obligations.NormalisationsAndRowOperationsComplete : Prop :=
  NormalisationsComplete ∧ RowOperationsComplete

/-! ## The matrix path -/

/-- A ready MMA whose epilogue has the rounding context it needs completes: the accumulator range is written, or forwarded to the
next MMA where R185 says so, and its epilogue runs. A ready product chain does the same, with its source rows gathered where its
prologue says so, or its operand A made by the statistic apply, whose narrowing is counted once (R160, R163, R200 to R204). -/
def Sys2Proof.Claims.ProductsComplete : Prop :=
  Completes .mma (fun i => iClass i = 1) mmaLive (fun x _ => x.epiNoContext (mmaEpilogue x.i) true = false)
    (fun x c => c.runProduct x (mmaProduct x.i) (c.forwards x (mmaProduct x.i)) some (c.elemA x.p (mmaProduct x.i)) 0 false) ∧
  (∀ (s : State) (p : Nat) (x : Ctx),
    Ready s.chip p x (fun y => iClass y.i = 5 ∧ cdKind (chainWord y) = 0) (chainLive s.chip x) →
    x.epiNoContext (chEpilogue x.i) (chLast x.i) = false →
    (cdPrologue (chainWord x) ≠ 1 → cdPrologue (chainWord x) ≠ 2 →
      exec (.chainProduct p) s = .next (inState s (completed s.chip x
        ((taken s.chip x).runProduct x (chainProductOf x) false some ((taken s.chip x).elemA x.p (chainProductOf x))
          (chHoldCol x.i) (chLast x.i))))) ∧
    (cdPrologue (chainWord x) = 1 → (taken s.chip x).gatherBad x (chainProductOf x) = false →
      exec (.chainProduct p) s = .next (inState s (completed s.chip x
        ((taken s.chip x).runProduct x (chainProductOf x) false ((taken s.chip x).gatherRow x)
          ((taken s.chip x).elemA x.p (chainProductOf x)) (chHoldCol x.i) (chLast x.i))))) ∧
    (cdPrologue (chainWord x) = 2 → ∃ (c : Chip) (a : Nat → Nat → Val),
      c = (if chComplete x.i then
        (taken s.chip x).completeStats x (chainWord x) (edgeM x (chEdge x.i) (chainProductOf x).m) else taken s.chip x) ∧
      exec (.chainProduct p) s = .next (inState s (completed s.chip x
        ((c.count x.j x.p (((c.applied x (chainProductOf x)).flatten.map (·.ovf)).foldl (· + ·) 0)
            (((c.applied x (chainProductOf x)).flatten.map (·.inv)).foldl (· + ·) 0)).runProduct x (chainProductOf x) false some a
          (chHoldCol x.i) (chLast x.i)))) ∧
      ∀ m k, edgeN x (chEdge x.i) (chainProductOf x).n ≠ 0 → m < edgeM x (chEdge x.i) (chainProductOf x).m → k < (chainProductOf x).kA →
        (chainProductOf x).readsA (edgeK x (chEdge x.i) (chainProductOf x).kB) k = true →
        a m k = elemVal (chainProductOf x).fmtA true (c.applyA x (chainWord x) (chainProductOf x) m k).code))

/-- The blocks that an attention chain works through once it has begun: its rings hold what it needs of all of them. -/
def Sys2Proof.Claims.attends (x : Ctx) (c d : Chip) : Prop :=
  runBlocks x (cdBlocks (chainWord x))
    (attendBlock x (chainWord x) (maskWord x (cdMask (chainWord x))) (edgeM x (chEdge x.i) 128)
      (edgeK x (chEdge x.i) (headDim (chainWord x)))) (cdBlocks (chainWord x) + 1) 0
    (c.attendStart x (chainWord x) (edgeM x (chEdge x.i) 128)) = .done d

/-- A chain of kind 1, with or without a scoring mask. -/
def Sys2Proof.Claims.kind1 (score : Bool) (x : Ctx) : Prop :=
  iClass x.i = 5 ∧ cdKind (chainWord x) = 1 ∧ mkScore (maskWord x (cdMask (chainWord x))) = score

/-- A ready chain fed by rings that hold all of its blocks completes in one go: an attention chain then divides each row by
its sum and runs its epilogue, a score pass has written one entry a block, an MLP chain runs its epilogue over Y (R213,
R214, R216, R288). -/
def Sys2Proof.Claims.RingFedChainsComplete : Prop :=
  (∀ d, CompletesAt .chainAttention (kind1 false) (fun _ => attentionLive)
    (fun x c => x.epiNoContext (chEpilogue x.i) true = false ∧ attends x c d)
    (fun x _ =>
      let e := d.attendEnd x (chainWord x) (edgeM x (chEdge x.i) 128)
      if chEpilogue x.i = 0 then e
      else e.epilogue x (chEpilogue x.i) 128 (oCols (chainWord x)) 0 false
        (e.attendLanes x (chainWord x) (edgeM x (chEdge x.i) 128)))) ∧
  (∀ d, CompletesAt .scorePass (kind1 true) (fun _ => attentionLive)
    (fun x c =>
      runBlocks x (cdBlocks (chainWord x))
        (scoreStep x (chainWord x) (maskWord x (cdMask (chainWord x))) (edgeM x (chEdge x.i) 128)
          (edgeK x (chEdge x.i) (headDim (chainWord x)))) (cdBlocks (chainWord x) + 1) 0
        (c.lockClear x.p 2 (scoreOff x (chainWord x)) 65536) = .done d)
    (fun _ _ => d)) ∧
  (∀ d, CompletesAt .chainMlp (fun x => iClass x.i = 5 ∧ cdKind (chainWord x) = 2) (fun _ => mlpLive)
    (fun x c => x.epiNoContext (chEpilogue x.i) true = false ∧
      x.epiNoContext (cdEpi2 (chainWord x)) true = false ∧
      runBlocks x (mlpParts x (chainWord x) * cdBlocks (chainWord x))
        (mlpBlock x (chainWord x) (edgeM x (chEdge x.i) 128) (edgeN x (chEdge x.i) (shapeN (cdShape (chainWord x)))))
        (mlpParts x (chainWord x) * cdBlocks (chainWord x) + 1) 0
        (c.lockClear x.p 2 (64 * chCAddr x.i) (512 * shapeN (cdShape (chainWord x)) + 65536
          + if epGate (epiWord x (cdEpi2 (chainWord x))) then 65536 else 0)) = .done d)
    (fun x _ => if chEpilogue x.i = 0 then d
      else d.epilogue x (chEpilogue x.i) 128 (shapeN (cdShape (chainWord x))) 0 false
        (d.mlpLanes x (chainWord x) (edgeM x (chEdge x.i) 128)
          (edgeN x (chEdge x.i) (shapeN (cdShape (chainWord x))))))
    )

/-- Matrix products and chains, fed from the Locket or from slots, complete or go on with their results. -/
def Obligations.ProductsAndChainsComplete : Prop :=
  ProductsComplete ∧ RingFedChainsComplete

/-! ## CTRL (Table 2.13) -/

/-- A ready step_begin begins the next step, the first with index 0, and clears the rounding context; a step_end whose stream
has nothing unposted completes outside a map-epoch barrier and, the first of its group there, opens the checkpoint generation of its step;
once every Bead has passed, a pending cancel ends the job there (R490); end stops the stream for good; a yield with no context to save goes on at once, one with a context to save waits (R98, R108, R111, R338, R355). -/
def Sys2Proof.Claims.StepsComplete : Prop :=
  Completes .stepBegin (ctrl 1) (fun _ => .none) always
    (fun x c => c.updRun x.p fun r => { r with step := some r.begun, begun := r.begun + 1, ctx := none }) ∧
  Completes .stepEnd (ctrl 2) (fun _ => .none)
    (fun x c => c.unposted x.p = false ∧ c.barrierOn = false)
    (fun x c => ((if 0 < c.behind x.job x.p then c
        else c.updJob x.j fun y => { y with openGens := y.openGens ++ [c.openCkpt x.job x.run.begun] }).updRun x.p
      fun r => { r with passed := r.passed + 1 }).cancelAtStep x.j) ∧
  (∀ (s : State) (p : Nat) (x : Ctx), Ready s.chip p x (byWord (ctrl 0)) .none →
    exec (.endStream p) s = .next (inState s
      ((((taken s.chip x).updRun x.p fun r => { r with ended := true }).goTo x.p ((taken s.chip x).bead x.p).run.pos).postObj
        x.j x.p (iPost x.i)))) ∧
  Completes .yield (ctrl 8) (fun _ => .none) (fun x c => c.yieldsMidStep x.job = false) (fun _ c => c) ∧
  (∀ (s : State) (p : Nat) (x : Ctx), Ready s.chip p x (byWord (ctrl 8)) .none → (taken s.chip x).yieldsMidStep x.job = true →
    exec (.yield p) s = .next (inState s ((taken s.chip x).updRun x.p fun r => { r with yielded := true })))

/-- A loop_begin of a positive trip count enters its body; one of count 0 goes on after the matching loop_end. A loop_end
goes back to the first instruction of the body until the last iteration is done (R98, R99). -/
def Sys2Proof.Claims.LoopsComplete : Prop :=
  Completes .loopBegin (ctrl 3) (fun _ => .none) (fun x _ => loopTrips x ≠ 0)
    (fun x c => c.updRun x.p fun r =>
      { r with loops := { start := (c.bead x.p).run.pos + 1, trip := loopTrips x, iter := 0 } :: r.loops }) ∧
  (∀ (s : State) (p e : Nat) (x : Ctx), Ready s.chip p x (byWord (ctrl 3)) .none → loopTrips x = 0 →
    matchEnd x.cap (s.chip.bead p).run.stream (streamLen x.cap (s.chip.bead p).run.stream) 0
      ((s.chip.bead p).run.pos + 1) = some e →
    exec (.loopBegin p) s = .next (inState s (((taken s.chip x).goTo x.p (e + 1)).postObj x.j x.p (iPost x.i)))) ∧
  Completes .loopEnd (ctrl 4) (fun _ => .none)
    (fun x c => ∀ l ls, (c.bead x.p).run.loops = l :: ls → l.trip ≤ l.iter + 1)
    (fun x c => if (c.bead x.p).run.loops = [] then c
      else c.updRun x.p fun r => { r with loops := (c.bead x.p).run.loops.tail }) ∧
  (∀ (s : State) (p : Nat) (x : Ctx) (l : Loop) (ls : List Loop), Ready s.chip p x (byWord (ctrl 4)) .none →
    ((taken s.chip x).bead x.p).run.loops = l :: ls → l.iter + 1 < l.trip →
    exec (.loopEnd p) s = .next (inState s
      ((((taken s.chip x).updRun x.p fun r => { r with loops := { l with iter := l.iter + 1 } :: ls }).goTo x.p
        l.start).postObj x.j x.p (iPost x.i))))

/-- decide goes on in the region of the smallest bucket that holds the decision word, and takes a count of its input
semaphore; a word above every bucket raises DECISION_RANGE, which names the decision point and carries the word, and the Bead goes no
further (R106, R311, R312, R504). -/
def Sys2Proof.Claims.DecideComplete : Prop :=
  ∀ (s : State) (p : Nat) (x : Ctx) (h : Nat) (buckets starts : List Nat), Ready s.chip p x (byWord (ctrl 5)) .none →
    decisionPoint x.cap x.v (ctrlOperand x.i) = (h, buckets, starts) →
    (dpInputSem h ≠ noObj ∨ dpBuckets h ≠ 1) → (taken s.chip x).available x.p (dpInputSem h) = true →
    (∀ i, i < buckets.length → x.job.decisions.get 0 (ctrlOperand x.i) ≤ buckets.getD i 0 →
      (∀ k, k < i → buckets.getD k 0 < x.job.decisions.get 0 (ctrlOperand x.i)) →
      exec (.decide p) s = .next (inState s
        (((((taken s.chip x).take x.p (dpInputSem h)).updJob x.j fun y =>
          { y with latestBucket := y.latestBucket.put (ctrlOperand x.i) (buckets.getD i 0) }).goTo x.p
            (starts.getD i 0)).postObj x.j x.p (iPost x.i)))) ∧
    ((∀ b ∈ buckets, b < x.job.decisions.get 0 (ctrlOperand x.i)) →
      exec (.decide p) s = .next (inState s
        ((((taken s.chip x).take x.p (dpInputSem h)).raiseDie x.j (dieFacet (physFacet x.p)) stDecisionRange x.run.step
          (.decisionWord (ctrlOperand x.i) (x.job.decisions.get 0 (ctrlOperand x.i)))).halt x.p)))

/-- Steps, ends, yields, loops and decisions move a Bead's stream as R78 to R81 and R98 to R105 say. -/
def Obligations.ControlFlowCompletes : Prop :=
  StepsComplete ∧ LoopsComplete ∧ DecideComplete

/-- A barrier counts the Bead in and holds it there; once every Bead of the bound group has arrived the barrier releases, each
of them goes on and makes its post, and the barrier is empty again (R369). -/
def Sys2Proof.Claims.BarriersComplete : Prop :=
  (∀ (s : State) (p : Nat) (x : Ctx), Ready s.chip p x (byWord (ctrl 7)) .none →
    exec (.barrier p) s = .next (inState s
      (((taken s.chip x).updJob x.j fun y =>
        { y with barriers := y.barriers.put (ctrlOperand x.i) (y.barriers.get [] (ctrlOperand x.i) ++ [x.g]) }).updRun x.p
          fun r => { r with barrier := some (ctrlOperand x.i) }))) ∧
  (∀ (s : State) (j obj : Nat) (x : Job), obj < 1024 → s.chip.job? j = some x → x.phase = .bound →
    (∀ g, g < x.beads → g ∈ x.barriers.get [] obj) →
    exec (.barrierRelease j obj) s = .next (inState s
      (((s.chip.setJob j { x with barriers := x.barriers.erase obj }).groupBeads x).foldl
        (fun c p => if (c.bead p).run.barrier = some obj then c.leaveBarrier j p else c)
        (s.chip.setJob j { x with barriers := x.barriers.erase obj }))))

/-! ## SYNC (Table 11.2) -/

/-- A ready SYNC instruction whose object is in the state it needs completes: a post adds its count to the target's semaphore,
a fill makes an EMPTY slot FULL, a drain a FULL one EMPTY, open opens the own window and close closes it once no admitted
access is under way, contribute sends its words to the home Casket (R368, R370, R373, R377, R380, R392). -/
def Sys2Proof.Claims.SyncInstructionsComplete : Prop :=
  (∀ q o v, Completes .syncPost (sync 0) (fun _ => .none)
    (fun x c => q = (if syTarget x.i = 0xFFF then x.p else c.beadOf x.job (syTarget x.i)) ∧
      c.obj? q (syObject x.i) = some o ∧ o.val = .sem v ∧ v + syCount x.i ≤ 65535)
    (fun x c => c.setObj q (syObject x.i) { o with val := .sem (v + syCount x.i) })) ∧
  (∀ o, Completes .syncFill (sync 1) (fun _ => .none)
    (fun x c => c.obj? x.p (syObject x.i) = some o ∧ o.val = .slot .empty false)
    (fun x c => c.setObj x.p (syObject x.i) { o with val := .slot .full false })) ∧
  (∀ o f, Completes .syncDrain (sync 2) (fun _ => .none)
    (fun x c => c.obj? x.p (syObject x.i) = some o ∧ o.val = .slot .full f)
    (fun x c => c.setObj x.p (syObject x.i) { o with val := .slot .empty f })) ∧
  (∀ o, Completes .syncOpen (sync 3) (fun _ => .none) (fun x c => c.obj? x.p (syObject x.i) = some o)
    (fun x c => c.setObj x.p (syObject x.i) { o with val := .window true })) ∧
  (∀ o, Completes .syncClose (sync 4) (fun _ => .none)
    (fun x c => c.obj? x.p (syObject x.i) = some o ∧
      (∀ t ∈ c.transfers, t.window ≠ some (x.p, syObject x.i) ∧
        ∀ e ∈ t.dests, e.p = x.p → e.obj = syObject x.i → e.st ≠ .filling))
    (fun x c => c.setObj x.p (syObject x.i) { o with val := .window false })) ∧
  Completes .syncContribute (sync 5)
    (fun x => { reads := [⟨3, 64 * sySrc x.i, 4 * rdWords (x.consts (syRed x.i) 2)⟩], writes := [] }) always
    (fun x c => { c with contribs := c.contribs ++
      [{ job := x.j, step := x.run.step, entry := syRed x.i,
         idx := syIndex x.i + rdPerBead (x.consts (syRed x.i) 2) * x.g
           + rdPerIter (x.consts (syRed x.i) 2) * x.iteration,
         words := (List.range (rdWords (x.consts (syRed x.i) 2))).map fun w =>
           BitVec.ofNat 32 (c.lockLE x.p 3 (64 * sySrc x.i + 4 * w) 4) }] })

/-- The contributions left once one of job `j` has been taken. -/
def Sys2Proof.Claims.contribLeft (c : Chip) (rest : List Contrib) : Chip := { c with contribs := rest }

/-- A contribution that reaches its home Casket is combined and its arrival bit is set; the last of its round publishes the
result and starts the next round; a second one of an index raises REDUCE_DUPLICATE, which names descriptor and index,
and is not stored (R394, R395). -/
def Sys2Proof.Claims.ContributionsArrive : Prop :=
  ∀ (s : State) (j n d : Nat) (k : Contrib) (rest : List Contrib) (x : Job),
    takeNth (fun k : Contrib => k.job = j) n s.chip.contribs = some (k, rest) → s.chip.job? j = some x →
    d = constWords (s.chip.capsule x.setting) x.variant k.entry 2 →
    (s.chip.arrived x d k.idx = false →
      (∃ i, i < rdN d ∧ ((contribLeft s.chip rest).storeContrib x d k).arrived x d i = false) →
      exec (.contributionArrival j n) s = .next (inState s ((contribLeft s.chip rest).storeContrib x d k))) ∧
    (s.chip.arrived x d k.idx = false →
      (∀ i, i < rdN d → ((contribLeft s.chip rest).storeContrib x d k).arrived x d i = true) →
      exec (.contributionArrival j n) s =
        .next (inState s (((contribLeft s.chip rest).storeContrib x d k).completeReduction j x d))) ∧
    (s.chip.arrived x d k.idx = true →
      exec (.contributionArrival j n) s = .next (inState s ((contribLeft s.chip rest).raiseDie j
        (dieFacet ((groupFacets x.size x.base).getD (rdHome d) 0)) stReduceDuplicate k.step (.contributor k.entry k.idx))))

/-- Barriers, sync instructions and contributions have their effect (R366 to R371, R393). -/
def Obligations.BarriersSyncAndContributionsComplete : Prop :=
  BarriersComplete ∧ SyncInstructionsComplete ∧ ContributionsArrive

/-! ## Choosing: Loupe and routes -/

/-- The block and the tiles of a loupe_compare, and the descriptor and the tiles of a route. -/
def Sys2Proof.Claims.compareBlock (x : Ctx) : Nat := loupeBlock x.cap (ceBlock (x.const (laneConst x.i)))
def Sys2Proof.Claims.compareTiles (x : Ctx) : List Nat :=
  instrTiles (ceBase (x.const (laneConst x.i))) (cePerBead (x.const (laneConst x.i))) (ceCount (x.const (laneConst x.i))) x.g
def Sys2Proof.Claims.routeWord (x : Ctx) : Nat := x.consts (laneConst x.i) 2
def Sys2Proof.Claims.routeTiles (x : Ctx) : List Nat :=
  instrTiles (rtBase (routeWord x)) (rtPerBead (routeWord x)) (rtCount (routeWord x)) x.g

/-- A loupe_compare whose tensors answer and hold no poisoned data compares its tiles and has a report of each under way; a
route does the same with its rows (R302 to R304, R315, R316). -/
def Sys2Proof.Claims.ComparesAndRoutesComplete : Prop :=
  (∀ d, Completes .loupeCompare (lane 0x60) (fun _ => .none)
    (fun x c => c.loupeReady x (compareBlock x) (loupeShape x (compareBlock x)) (compareTiles x) = true ∧
      c.compareTiles x (compareBlock x) x.stepIndex (loupeShape x (compareBlock x)) (compareTiles x) = .ok d)
    (fun _ _ => d)) ∧
  (∀ d, Completes .route (lane 0x61)
    (fun x => { reads := [⟨laneBank0 x.i, 64 * laneAddr0 x.i, 512 * rtExperts (routeWord x) * rtCount (routeWord x)⟩],
                writes := [⟨laneBankD x.i, 64 * laneAddrD x.i, 512 * rtTopK (routeWord x) * rtCount (routeWord x)⟩] })
    (fun x c => (rtBlock (routeWord x) = noObj ∨ ∀ t ∈ routeTiles x,
        c.tensorReady x (lbList (loupeBlock x.cap (rtBlock (routeWord x)))) (512 * t) 512 = true) ∧
      c.routeTiles x (routeWord x) x.stepIndex (routeTiles x).zipIdx = .ok d)
    (fun _ _ => d))

/-- The reports left once one of a job has been taken. -/
def Sys2Proof.Claims.reportLeft (c : Chip) (rest : List Report) : Chip := { c with reports := rest }

/-- The round that a report belongs to, with the report counted in, and the other rounds of its job. -/
def Sys2Proof.Claims.roundWith (y : Job) (k : Report) : Round :=
  { roundOf y.rounds k with tiles := (roundOf y.rounds k).tiles ++ [k.tile],
                            choices := (roundOf y.rounds k).choices ++ k.choices }
def Sys2Proof.Claims.otherRounds (y : Job) (k : Report) : List Round := y.rounds.filter fun o => o.obj != k.obj

/-- A tile report that reaches the home Casket is counted into its round; the last tile of the round completes it when the
tensor that it writes answers; a tile that has reported, or a report of another step, raises ROUND_DUPLICATE,
which names the object and the tile (R305, R306, R317, R318). -/
def Sys2Proof.Claims.TileReportsArrive : Prop :=
  ∀ (s : State) (j n : Nat) (k : Report) (rest : List Report) (y : Job),
    takeNth (fun k : Report => k.job = j) n s.chip.reports = some (k, rest) → s.chip.job? j = some y →
    ((k.tile ∈ (roundOf y.rounds k).tiles ∨ (roundOf y.rounds k).step ≠ k.step) →
      exec (.tileReport j n) s = .next (inState s ((reportLeft s.chip rest).raiseDie j
        (dieFacet ((groupFacets y.size y.base).getD 0 0)) stRoundDuplicate (some k.step) (.tile k.obj k.tile)))) ∧
    (k.tile ∉ (roundOf y.rounds k).tiles → (roundOf y.rounds k).step = k.step →
      (∃ t, t < roundTiles (s.chip.jobCtx j y) k.obj ∧ t ∉ (roundWith y k).tiles) →
      exec (.tileReport j n) s = .next (inState s
        ((reportLeft s.chip rest).setJob j { y with rounds := otherRounds y k ++ [roundWith y k] }))) ∧
    (k.tile ∉ (roundOf y.rounds k).tiles → (roundOf y.rounds k).step = k.step →
      (∀ t, t < roundTiles (s.chip.jobCtx j y) k.obj → t ∈ (roundWith y k).tiles) →
      s.chip.tensorReady (s.chip.jobCtx j y) (roundTensor (s.chip.jobCtx j y) k.obj) 0
        ((s.chip.tensorAlloc? y (roundTensor (s.chip.jobCtx j y) k.obj)).elim 0 (·.bytes)) = true →
      exec (.tileReport j n) s = .next (inState s (match k.obj with
        | .loupe b => ((reportLeft s.chip rest).setJob j { y with rounds := otherRounds y k }).completeLoupe
            (s.chip.jobCtx j y) b (roundWith y k)
        | .route e => ((reportLeft s.chip rest).setJob j { y with rounds := otherRounds y k }).completeRoute
            (s.chip.jobCtx j y) e (roundWith y k))))

/-- Compares and routes report their tiles, and the reports make the round's decision. -/
def Obligations.RoundsComplete : Prop :=
  ComparesAndRoutesComplete ∧ TileReportsArrive

/-! ## Collectives (Table 16.12) -/

/-- What a collective sends to the next part of a ring of several: its messages, each of at most 65,536 bytes. -/
def Sys2Proof.Claims.collectiveSent (c : Chip) (op n r : Nat) (inputs : List (List Byte)) : Chip :=
  if (c.ring r).size ≤ 1 then c
  else (Config.collectiveMessages op n (c.ring r).size (c.ring r).rank inputs).foldl (fun c m =>
    c.sendRing r clsCollective 0 headerNoObject (m.take 65536)) c

/-- A collective of operation `op` whose ring is usable, with the input of every other rank there, each of the same collective of the ring,
the same code and the same count, and its memory answering, completes: its output, made of the inputs with the own one in its rank, is
written, the ring's count of collectives rises, its messages go to the next part and done is posted (R567, R570 to R572). -/
def Sys2Proof.Claims.CollectiveCompletes (cmd : Nat → List RankInput → Instr) (op : Nat) : Prop :=
  ∀ (inputs : List RankInput) (own bs : List Byte) (all : List (List Byte)),
    CompletesAt (cmd · inputs) (byWord (lane op)) Chip.collectiveFoot
      (fun x c =>
        let w := x.consts (laneConst x.i) 2
        let r := coRing w
        let bytes := if op = 0x82 then coCount w else 4 * coCount w
        c.ringUsable r x.job.session = true ∧ inputs.length = max 1 (c.ring r).size ∧
        (∀ k i, inputs[k]? = some i → k ≠ (c.ring r).rank →
          i.index = (c.ringRun r).collectives ∧ i.op = op ∧ i.count = coCount w ∧ i.data.length = bytes) ∧
        c.endReady x (coSrc w) (coSrc w).base bytes = true ∧ c.endRead x (coSrc w) (coSrc w).base bytes = .ok own ∧
        all = (inputs.map (·.data)).set (c.ring r).rank own ∧
        bs = collectiveOut op (coCount w) (max 1 (c.ring r).size) (c.ring r).rank all ∧
        c.endReady x (coDst w) (coDst w).base bs.length = true)
      (fun x c =>
        let w := x.consts (laneConst x.i) 2
        (collectiveSent ((c.endWrite x (coDst w) (coDst w).base bs).updRingRun (coRing w) fun k =>
          { k with collectives := k.collectives + 1 }) op (coCount w) (coRing w) all).postObj x.j x.p (coDone w))

/-- all_reduce_sum, reduce_scatter_sum, all_gather and all_reduce_minimum, their Bead ready, their ring usable and their inputs
given, each write their result, count one collective of the ring, send their messages and post (R570, R571, R572). -/
def Obligations.CollectivesComplete : Prop :=
  CollectiveCompletes .allReduceSum 0x80 ∧ CollectiveCompletes .reduceScatterSum 0x81 ∧
    CollectiveCompletes .allGather 0x82 ∧ CollectiveCompletes .allReduceMinimum 0x83

/-! ## DMA (Table 2.14) -/

/-- The descriptor of a DMA instruction. -/
def Sys2Proof.Claims.descOf (x : Ctx) : Nat := dmaDesc x.cap x.v (iDesc x.i)

/-- A DMA instruction of a kind of descriptor that its Bead is ready for, that no earlier transfer conflicts with (R90) and
that reads no closed window: when its rows answer and hold no poisoned data, its transfer is in flight with the rows it has
read (R97, R100, R313). -/
def Sys2Proof.Claims.StartsTransfer (cmd : Nat → Instr) (kind : Ctx → Nat → Prop) : Prop :=
  ∀ (s : State) (p : Nat) (x : Ctx) (rs : List DmaRow) (rows : List (Nat × List Byte)),
    Ready s.chip p x (fun y => iClass y.i = 3 ∧ kind y (descOf y)) (dmaFoot s.chip x) →
    (taken s.chip x).dmaPlan x (descOf x) x.iteration = .rows rs none →
    (taken s.chip x).closedSource x (descOf x) = none → (taken s.chip x).rowsReady x (descOf x) rs = true →
    (taken s.chip x).readRows x (descOf x) rs = .ok rows →
    exec (cmd p) s = .next (inState s (wentOn s.chip x ((taken s.chip x).addTransfer
      ((taken s.chip x).newTransfer x (descOf x) x.iteration rows))))

/-- The seven kinds of transfer that start so. -/
def Sys2Proof.Claims.TransfersStart : Prop :=
  StartsTransfer .dmaCopy (fun _ d => ddKind d = 0 ∧ isHalo d = false) ∧
  StartsTransfer .haloSend (fun _ d => isHalo d = true) ∧
  StartsTransfer .gatherByList (fun x d => ddKind d = 1 ∧ (ddSrcSpace d = 0 → isPool x.cap x.v (ddSrcTensor d) = false)) ∧
  StartsTransfer .scatterByList (fun x d => ddKind d = 2 ∧ (ddDstSpace d = 0 → isPool x.cap x.v (ddDstTensor d) = false)) ∧
  StartsTransfer .sessionInputDecrypt (fun _ d => ddKind d = 3) ∧
  StartsTransfer .sessionOutputEncrypt (fun _ d => ddKind d = 4) ∧
  StartsTransfer .multicastCopy (fun _ d => ddKind d = 5)

/-- What a transfer waits for comes: of the fills that wait for an EMPTY slot the one that reached it first makes it FILLING, a fill
that lands writes its bytes and makes the slot FULL, a remote read whose window has opened takes its data, a remote write whose window
is open or admitted it while open is made, and a transfer with all it waits for writes what is left, leaves and makes its two posts (R97, R370, R371, R379,
R382). -/
def Sys2Proof.Claims.TransfersMove : Prop :=
  (∀ (s : State) (p obj : Nat) (t : Transfer), isBead p = true → obj < 1024 →
    s.chip.objVal? p obj = some (.slot .empty false) → s.chip.firstFill p obj = some t →
    (∀ n ∈ s.chip.arrivals p obj, t.arrival p obj ≤ n) →
    exec (.fillAdmit p obj) s = .next (inState s
      ((s.chip.setVal p obj (.slot .filling false)).updTransfer t.id (·.setDest p obj .filling)))) ∧
  (∀ (s : State) (p obj : Nat) (t : Transfer) (o : SyncObj) (f : Bool) (x : Ctx), isBead p = true → obj < 1024 →
    s.chip.obj? p obj = some o → o.val = .slot .filling f →
    s.chip.transfers.find? (·.at_ p obj .filling) = some t → s.chip.xferCtx t = some x →
    exec (.fillLand p obj) s = .next (inState s
      (((s.chip.writeObject x (dmaDesc x.cap x.v t.desc) p o t.rows).setVal p obj (.slot .full f)).updTransfer t.id
        (·.setDest p obj .landed)))) ∧
  (∀ (s : State) (t : Nat) (y : Transfer) (x : Ctx) (o : Nat × Nat) (rs : List DmaRow) (rows : List (Nat × List Byte)),
    s.chip.transfer? t = some y → s.chip.xferCtx y = some x → y.remoteWait = some o →
    s.chip.objVal? o.1 o.2 = some (.window true) →
    s.chip.dmaPlan x (dmaDesc x.cap x.v y.desc) y.iter = .rows rs none →
    s.chip.readRows x (dmaDesc x.cap x.v y.desc) rs = .ok rows →
    exec (.remoteAccessAdmit t) s = .next (inState s { s.chip.updTransfer t (fun z =>
      { z with rows := s.chip.withHalo x (dmaDesc x.cap x.v y.desc) rows, remoteWait := none, remoteSince := none,
               window := some o,
               dests := (s.chip.dmaObjects x (dmaDesc x.cap x.v y.desc)
                 (s.chip.withHalo x (dmaDesc x.cap x.v y.desc) rows)).map (s.chip.newDest s.chip.sched.nextId) }) with
      sched := { s.chip.sched with nextId := s.chip.sched.nextId + 1 } })) ∧
  (∀ (s : State) (t : Nat) (y : Transfer) (x : Ctx) (e : Dest) (o : SyncObj) (w : Bool),
    s.chip.transfer? t = some y → s.chip.xferCtx y = some x → y.remoteWait = none → y.dests = [e] →
    s.chip.obj? e.p e.obj = some o → o.val = .window w → (w = true ∧ e.st = .waiting) ∨ e.st = .filling →
    exec (.remoteAccessAdmit t) s = .next (inState s
      ((s.chip.writeObject x (dmaDesc x.cap x.v y.desc) e.p o y.rows).updTransfer t (·.setDest e.p e.obj .landed)))) ∧
  (∀ (s : State) (t : Nat) (y : Transfer) (x : Ctx),
    s.chip.transfer? t = some y → s.chip.xferCtx y = some x → s.chip.transferDue x y = true →
    exec (.transferComplete t) s = .next (inState s
      ((({ s.chip.writeRows x y with
          transfers := (s.chip.writeRows x y).transfers.filter (·.id != t) } : Chip).postObj x.j x.p
        (ddDone (dmaDesc x.cap x.v y.desc))).postObj x.j x.p y.post)))

/-- DMA transfers start, land and complete. -/
def Obligations.TransfersStartAndMove : Prop :=
  TransfersStart ∧ TransfersMove

/-! ## Key-value pools (R251 to R298) -/

/-- A walk descriptor, or an edit descriptor, that a DMA instruction names. -/
def Sys2Proof.Claims.listWord (x : Ctx) : Nat := x.consts (ddList (descOf x)) 2

/-- A kind 1 DMA on a pool, and a kind 2 DMA on one whose descriptor names operation `op`. -/
def Sys2Proof.Claims.walkAt (x : Ctx) : Prop :=
  iClass x.i = 3 ∧ ddKind (descOf x) = 1 ∧ ddSrcSpace (descOf x) = 0 ∧ isPool x.cap x.v (ddSrcTensor (descOf x)) = true
def Sys2Proof.Claims.editAt (op : Nat) (x : Ctx) : Prop :=
  iClass x.i = 3 ∧ ddKind (descOf x) = 2 ∧ ddDstSpace (descOf x) = 0 ∧ isPool x.cap x.v (ddDstTensor (descOf x)) = true ∧
    edOp (listWord x) = op

/-- A ready kind 1 DMA on a pool queues its walk; a ready kind 2 DMA on a pool starts its edit with what it has read of the
own Locket, whichever of the four operations its descriptor names (R261, R270). -/
def Sys2Proof.Claims.WalksAndEditsStart : Prop :=
  (∀ (s : State) (p : Nat) (x : Ctx), Ready s.chip p x walkAt .none →
    exec (.walk p) s = .next (inState s (wentOn s.chip x ((taken s.chip x).addWalk ((taken s.chip x).newWalk x))))) ∧
  (∀ (s : State) (p : Nat) (x : Ctx), Ready s.chip p x (editAt 0) (editFoot x) →
    exec (.append p) s = .next (inState s (wentOn s.chip x ((taken s.chip x).addEdit ((taken s.chip x).newEdit x))))) ∧
  (∀ (s : State) (p : Nat) (x : Ctx), Ready s.chip p x (editAt 1) (editFoot x) →
    exec (.dropBelow p) s = .next (inState s (wentOn s.chip x ((taken s.chip x).addEdit ((taken s.chip x).newEdit x))))) ∧
  (∀ (s : State) (p : Nat) (x : Ctx), Ready s.chip p x (editAt 2) (editFoot x) →
    exec (.scoreAdd p) s = .next (inState s (wentOn s.chip x ((taken s.chip x).addEdit ((taken s.chip x).newEdit x))))) ∧
  (∀ (s : State) (p : Nat) (x : Ctx), Ready s.chip p x (editAt 3) (editFoot x) →
    exec (.truncateFrom p) s = .next (inState s (wentOn s.chip x ((taken s.chip x).addEdit ((taken s.chip x).newEdit x)))))

/-- A walk that has started: the generation of its sequence and the page table entries and bases of the walked records, its destinations
waiting from now on (R278). -/
def Sys2Proof.Claims.startedWalk (c : Chip) (w : Walk) (gen : Nat) (snap : List (Nat × Nat)) : Walk :=
  { w with started := true, gen := gen, snap := snap,
           dests := w.dests.map fun d => { d with since := some c.now, arr := c.sched.nextId } }

/-- What a walk copies at its start: the generation in the header, and of each walked record of array G mod 2 the entry and the base in its
bytes 16 to 31. Nothing else of the state tensor is read (R258, R278). -/
def Sys2Proof.Claims.Copied (c : Chip) (x : Ctx) (wd sd gen : Nat) (snap : List (Nat × Nat)) : Prop :=
  ∃ h, c.tensorRead x (sqState sd) 0 64 = .ok h ∧ gen = fld (getLE h 0 64) 511 480 ∧
    snap.length = min (wkCount wd) (sqBudget sd - wkFirst wd) ∧
    ∀ i r, snap[i]? = some r → ∃ bs, c.tensorRead x (sqState sd) (arrayOff sd gen + 32 * (wkFirst wd + i) + 16) 16 = .ok bs ∧
      r = ((recOf (getLE bs 0 16 <<< 128)).pte, (recOf (getLE bs 0 16 <<< 128)).base)

/-- The frames of the pool that a walk's sequence lies in. -/
def Sys2Proof.Claims.walkFrames (x : Ctx) (w : Walk) : Nat :=
  (poolExtents x.cap x.job.tuple (poolDecl x.cap x.v (sqPool (seqDecl x.cap x.v (wkSeq (x.consts w.wdesc 2)))))).1

/-- A walk that has a walker's context starts: start_post is made, and the first record that names a wrong format, a swapped page or
no frame raises a status that names it; its next block goes to every destination whose slots are free; a relayed block
that is next for its slots fills them and ends where no hop remains (R252, R253, R262, R265, R266, R278, R294 to R296). -/
def Sys2Proof.Claims.WalksRun : Prop :=
  (∀ (s : State) (n gen : Nat) (snap : List (Nat × Nat)) (w : Walk) (x : Ctx), s.chip.walk? n = some w →
    s.chip.kvCtx w.job w.p w.g = some x → w.walker ≠ none → w.started = false →
    s.chip.tensorReady x (sqState (seqDecl x.cap x.v (wkSeq (x.consts w.wdesc 2)))) 0
      (stateBytes (seqDecl x.cap x.v (wkSeq (x.consts w.wdesc 2)))) = true →
    Copied s.chip x (x.consts w.wdesc 2) (seqDecl x.cap x.v (wkSeq (x.consts w.wdesc 2))) gen snap →
    ((∀ r ∈ snap, recordStatus (wkFmt (x.consts w.wdesc 2)) (walkFrames x w) r.1 = none) →
      exec (.walkStart n) s = .next (inState s
        ((((s.chip.updWalk n fun _ => startedWalk s.chip w gen snap).bumpId).postObj x.j x.p
          (wkStart (x.consts w.wdesc 2))).endWalk x (startedWalk s.chip w gen snap)))) ∧
    (∀ st i r, snap[i]? = some r →
      recordStatus (wkFmt (x.consts w.wdesc 2)) (walkFrames x w) r.1 = some st →
      (∀ k r', k < i → snap[k]? = some r' →
        recordStatus (wkFmt (x.consts w.wdesc 2)) (walkFrames x w) r'.1 = none) →
      exec (.walkStart n) s = .next (inState s (s.chip.raiseNamed x.j x.p st (s.chip.bead x.p).run.step
        (.record x.g (wkFirst (x.consts w.wdesc 2) + i)))))) ∧
  (∀ (s : State) (n : Nat) (w w' : Walk) (x : Ctx) (d : Chip), s.chip.walk? n = some w →
    s.chip.kvCtx w.job w.p w.g = some x → w.started = true → w.ended = false →
    (wkHops (x.consts w.wdesc 2) = 0 ∨ s.chip.ringUsable (wkRing (x.consts w.wdesc 2)) x.job.session = true) →
    s.chip.deliverAll x (walkBlocks x (x.consts w.wdesc 2)) n (List.range w.dests.length) = .ok d → d.walk? n = some w' →
    exec (.walkBlockDelivery n) s = .next (inState s (d.endWalk x w'))) ∧
  (∀ (s : State) (n slot : Nat) (b : RingBlock) (x : Ctx) (w : Walk), s.chip.relayNext n = some (b, x, w, true) →
    w.hops.length = w.relayK →
    s.chip.walkHops (x.consts w.wdesc 2) ≤ hopOf x w b.data + 1 → b.object = wkKeyRing (x.consts w.wdesc 2) →
    slot = ringSlot b.object (wkLen (x.consts w.wdesc 2)) ((walkBlocks x (x.consts w.wdesc 2)).length + w.relayK) →
    b.dest = 0 → b.got = [] → s.chip.slotFree w.p slot = true →
    (∀ k ∈ s.chip.arrivals w.p slot, b.arr ≤ k) →
    exec (.ringDataReceive n) s = .next (inState s
      ((s.chip.fillFrom b.ring b.msg w.p slot (hopUp (keyHeaderAt x w) b.data)).relayDone x n w true (hopOf x w b.data))))

/-- The edit of a number in its place: its job bound, a walker's context its own, first of its sequence, its memory
answering, and its sequence as it stands. -/
def Sys2Proof.Claims.EditDue (c : Chip) (n : Nat) (e : Edit) (x : Ctx) (q : SeqSt) : Prop :=
  c.edits.find? (·.id = n) = some e ∧ c.kvCtx e.job e.p e.g = some x ∧ e.walker ≠ none ∧
    c.editFirst x e = true ∧
    c.tensorReady x (sqState (seqDecl x.cap x.v (edSeq (x.consts e.edesc 2)))) 0
      (stateBytes (seqDecl x.cap x.v (edSeq (x.consts e.edesc 2)))) = true ∧
    c.readSeq x (seqDecl x.cap x.v (edSeq (x.consts e.edesc 2))) = .ok q

/-- An edit that is due commits: drop_below empties every valid record whose last position is below pos, truncate_from every
one that starts at pos or above and cuts the one that reaches over it, score_add adds its amounts, append fills the tail page
and takes free frames for new pages when the pool has them and enough records can be evicted (R271 to R277, R280). -/
def Sys2Proof.Claims.EditsCommit : Prop :=
  (∀ (s : State) (n : Nat) (e : Edit) (x : Ctx) (q : SeqSt), EditDue s.chip n e x q → edOp (x.consts e.edesc 2) = 1 →
    exec (.editCommit n) s = .next (inState s (s.chip.commitEdit x e (seqDecl x.cap x.v (edSeq (x.consts e.edesc 2)))
      (planDrop (edPos (x.consts e.edesc 2)) q)))) ∧
  (∀ (s : State) (n : Nat) (e : Edit) (x : Ctx) (q : SeqSt), EditDue s.chip n e x q → edOp (x.consts e.edesc 2) = 3 →
    exec (.editCommit n) s = .next (inState s (s.chip.commitEdit x e (seqDecl x.cap x.v (edSeq (x.consts e.edesc 2)))
      (planTruncate (edPos (x.consts e.edesc 2)) q)))) ∧
  (∀ (s : State) (n : Nat) (e : Edit) (x : Ctx) (q : SeqSt), EditDue s.chip n e x q → edOp (x.consts e.edesc 2) = 2 →
    exec (.editCommit n) s = .next (inState s
      ((s.chip.writeSeq x (seqDecl x.cap x.v (edSeq (x.consts e.edesc 2))) { q with recs := addScores e.keys q.recs }).endEdit
        x e))) ∧
  (∀ (s : State) (n : Nat) (e : Edit) (x : Ctx) (q : SeqSt) (k : PoolSt) (r : EditResult), EditDue s.chip n e x q →
    edOp (x.consts e.edesc 2) = 0 → x.job.pool? (sqPool (seqDecl x.cap x.v (edSeq (x.consts e.edesc 2)))) = some k →
    s.chip.tensorReady x
      (pdTensor (poolDecl x.cap x.v (sqPool (seqDecl x.cap x.v (edSeq (x.consts e.edesc 2)))))) 0
      ((s.chip.tensorAlloc? x.job
        (pdTensor (poolDecl x.cap x.v (sqPool (seqDecl x.cap x.v (edSeq (x.consts e.edesc 2))))))).elim 0 (·.bytes)) = true →
    planAppend (seqDecl x.cap x.v (edSeq (x.consts e.edesc 2))) (edFmt (x.consts e.edesc 2)) e.keys.length q k.free = some r →
    newPages q (edFmt (x.consts e.edesc 2)) e.keys.length ≤ k.free.length →
    exec (.editCommit n) s = .next (inState s
      (s.chip.commitEdit x e (seqDecl x.cap x.v (edSeq (x.consts e.edesc 2))) r)))

/-- Walks deliver their blocks and edits of a pool commit. -/
def Obligations.WalksAndEditsRun : Prop :=
  WalksAndEditsStart ∧ WalksRun ∧ EditsCommit

/-- What drop_below and truncate_from leave of the records (R274, R275): a valid record is gone exactly when its last token
lies below pos, or its first at pos or above; a record that truncate_from cuts keeps its tokens below pos; every other one is
as it was; the generation rises by one, and truncate_from makes pos the next position. -/
def Obligations.DropAndTruncateKeepTheRest : Prop :=
  ∀ (pos i : Nat) (q : SeqSt) (r : KvRec), q.recs[i]? = some r →
    (planDrop pos q).seq.gen = q.gen + 1 ∧ (planTruncate pos q).seq.gen = q.gen + 1 ∧
    (planDrop pos q).seq.nextPos = q.nextPos ∧ (planTruncate pos q).seq.nextPos = pos ∧
    ((planDrop pos q).seq.recs[i]? = some (if r.valid = true ∧ r.base + pteFill r.pte ≤ pos then KvRec.empty else r)) ∧
    ((planTruncate pos q).seq.recs[i]? = some (
      if r.valid = true ∧ pos ≤ r.base then KvRec.empty
      else if r.valid = true ∧ pos < r.base + pteFill r.pte then { r with pte := pteRefill r.pte (pos - r.base) }
      else r)) ∧
    (r.valid = true → r.base + pteFill r.pte ≤ pos → pteFrame r.pte ∈ (planDrop pos q).released) ∧
    (r.valid = true → pos ≤ r.base → pteFrame r.pte ∈ (planTruncate pos q).released)

/-- The sequence of a swap, its pool, the bytes of one of the pool's frames, and the session that swaps. -/
def Sys2Proof.Claims.swapSeq (x : Ctx) (seq : Nat) : Nat := seqDecl x.cap x.v seq
def Sys2Proof.Claims.swapPool (x : Ctx) (seq : Nat) : Nat := poolDecl x.cap x.v (sqPool (swapSeq x seq))
def Sys2Proof.Claims.swapFrame (x : Ctx) (seq : Nat) : Nat := (poolExtents x.cap x.job.tuple (swapPool x seq)).2
def Sys2Proof.Claims.swapSession (c : Chip) (x : Ctx) : SessionSt := c.session x.job.session

/-- What a swap-in reads of the host: the page's ciphertext and its tag, and the plaintext they give under the swap key, none
where the tag is wrong. -/
def Sys2Proof.Claims.swappedPage (c : Chip) (x : Ctx) (seq rec_ ctr : Nat) (r : KvRec) : Option (List Byte) :=
  let n := pageBytes (swapSeq x seq) (pteFmt r.pte)
  let bs := c.hostRead (swapAddr (swapSession c x) (swapFrame x seq) (pteFrame r.pte)) (n + 16)
  Config.gcmDecrypt (swapSession c x).keySwap (leBytes 12 ctr) (swapAad seq rec_ (pteFrame r.pte)) (bs.take n) (bs.drop n)

/-- The chip with a page in a frame of its pool's tensor. -/
def Sys2Proof.Claims.pageStored (c : Chip) (j : Nat) (x : Ctx) (seq frame : Nat) (page : List Byte) : Chip :=
  match (c.job? j).bind fun y => c.tensorAlloc? y (pdTensor (swapPool x seq)) with
  | some a => c.storeAt (c.allocPlace a 0) (frame * swapFrame x seq) page
  | none => c

/-- A released frame returns to its free list once the walks of older generations have ended and a step_end has passed; an
append that has starved for 8,715 tk raises KV_POOL_EMPTY; while a waiting job of a higher class lacks memory, a page of the waiting
pre-empted job that is lowest in the order of R487 goes under the swap key to a host slot that no other page of the session lies in, and a
pool of which no page is left in stacked memory gives its rows back; a page comes back into a free frame, its pool taking rows again
first, or, with a wrong tag, is found as poisoned data is (R282, R284, R290, R292, R495, R610). -/
def Obligations.FramesAndSwapsMove : Prop :=
  (∀ (s : State) (j pool frame : Nat) (x : Ctx) (k : PoolSt) (h : HeldFrame), s.chip.kvCtx j 0 0 = some x →
    x.job.pool? pool = some k → k.held.find? (·.frame = frame) = some h → s.chip.frameDue x h = true →
    exec (.frameReclaim j pool frame) s = .next (inState s
      ((s.chip.updPool j pool fun k =>
        { k with free := insertBy (· ≤ ·) frame k.free, held := k.held.filter (· != h) }).notePools j))) ∧
  (∀ (s : State) (n t : Nat) (e : Edit) (x : Ctx), s.chip.edits.find? (·.id = n) = some e → e.since = some t →
    s.chip.kvCtx e.job e.p e.g = some x → t + 8715 ≤ s.chip.now → s.chip.editStarved x e = true →
    exec (.poolWaitExpiry n) s = .next (inState s
      (s.chip.raiseAt x.j x.p stKvPoolEmpty (s.chip.bead x.p).run.step))) ∧
  (∀ (s : State) (j seq rec_ slot : Nat) (x : Ctx) (q : SeqSt) (r : KvRec) (page : List Byte),
    s.chip.swapCtx false j = some x → s.chip.memoryWanted x.job.cls = true → s.chip.swapNext = some j →
    s.chip.readSeq x (swapSeq x seq) = .ok q → q.recs[rec_]? = some r →
    r.valid = true → pteHost r.pte = false → (slot + 1) * (swapFrame x seq + 16) ≤ (swapSession s.chip x).swapBytes →
    (∀ k ∈ s.chip.swapSpans x.job.session, k.2 ≤ slot * (swapFrame x seq + 16) ∨ (slot + 1) * (swapFrame x seq + 16) ≤ k.1) →
    s.chip.tensorRead x (pdTensor (swapPool x seq)) (pteFrame r.pte * swapFrame x seq)
      (pageBytes (swapSeq x seq) (pteFmt r.pte)) = .ok page →
    exec (.swapOut j seq rec_ slot) s = .next (inState s
      ((((((s.chip.hostWrite (swapAddr (swapSession s.chip x) (swapFrame x seq) slot)
        ((Config.gcmEncrypt (swapSession s.chip x).keySwap (leBytes 12 (swapSession s.chip x).moveCtr)
          (swapAad seq rec_ slot) page).1 ++
         (Config.gcmEncrypt (swapSession s.chip x).keySwap (leBytes 12 (swapSession s.chip x).moveCtr)
          (swapAad seq rec_ slot) page).2)).updSession x.job.session fun k =>
        { k with moveCtr := k.moveCtr + 1 }).movePte x (swapSeq x seq) rec_ r fun w => pteMove w true slot).updPool j
        (sqPool (swapSeq x seq)) fun k => { k with free := insertBy (· ≤ ·) (pteFrame r.pte) k.free }).updJob j
        fun y => { y with swapped := y.swapped ++ [(seq, rec_, (swapSession s.chip x).moveCtr, slot)] }).emptyPool x
          (swapPool x seq)))) ∧
  (∀ (s : State) (j seq rec_ frame : Nat) (x : Ctx) (q : SeqSt) (r : KvRec) (k : Nat × Nat × Nat × Nat) (pl : PoolSt),
    s.chip.swapCtx true j = some x → s.chip.readSeq x (swapSeq x seq) = .ok q → q.recs[rec_]? = some r →
    x.job.swapped.find? (fun k => k.1 = seq && k.2.1 = rec_) = some k →
    x.job.pool? (sqPool (swapSeq x seq)) = some pl → pl.free.head? = some frame →
    (swappedPage s.chip x seq rec_ k.2.2.1 r = none →
      exec (.swapIn j seq rec_) s = .next (inState s
        ((s.chip.updJob j fun y => { y with fromFirst := true, swapped := y.swapped.filter (· != k) }).poisonFound j
          (some (pdTensor (swapPool x seq))) (s.chip.framePlace x (swapPool x seq) frame (swapFrame x seq))))) ∧
    (∀ page c, swappedPage s.chip x seq rec_ k.2.2.1 r = some page → s.chip.regainPool x (swapPool x seq) = some c →
      exec (.swapIn j seq rec_) s = .next (inState s
        ((((pageStored c j x seq frame page).movePte x (swapSeq x seq) rec_ r fun w =>
          pteMove w false frame).updPool j (sqPool (swapSeq x seq)) fun q =>
            { q with free := q.free.filter (· != frame) }).updJob j
          fun y => { y with swapped := y.swapped.filter (· != k) }))))

/-! ## Cameo -/

/-- The stream descriptor that a stream, or a row stream transfer, names. -/
def Sys2Proof.Claims.streamWord (x : Ctx) (s : StreamSt) : Nat := streamDesc x s.entry
def Sys2Proof.Claims.rowWord (x : Ctx) : Nat := x.const (ddList (descOf x))

/-- The rows that an encode transfer brings to the intake: row i of the descriptor, with the frame and the luma row that it is
(R449), waiting from now on. -/
def Sys2Proof.Claims.rowsOffered (c : Chip) (x : Ctx) : List WaitRow :=
  (List.range (ddRows (descOf x))).map fun i =>
    { xfer := c.sched.nextId, p := x.p, frame := rowFrame (rowWord x) x.iteration,
      y := rowLuma (rowWord x) x.g x.iteration i,
      bytes := c.lockRead x.p (srcEnd (descOf x)).unit ((srcEnd (descOf x)).base + i * ddSrcStride (descOf x))
        (ddRowBytes (descOf x)),
      since := c.now }

/-- A kind 6 DMA whose transfer descriptor and stream descriptor `sel` picks. -/
def Sys2Proof.Claims.streamAt (sel : Nat → Nat → Prop) (x : Ctx) : Prop :=
  iClass x.i = 3 ∧ ddKind (descOf x) = 6 ∧ sel (descOf x) (streamDesc x (rsStream (rowWord x)))

/-- A kind 6 DMA that its Bead is ready for starts: an encode transfer puts its rows at its stream's intake when they lie in the
picture and the frames, and raises CAMEO_ROW_RANGE when one does not; a decode transfer that no earlier one of its stream is ahead of
adds its bytes to the input, and one of no bytes ends the input (R448, R449, R451, R467). -/
def Sys2Proof.Claims.StreamTransfersStart : Prop :=
  (∀ (s : State) (p : Nat) (x : Ctx) (st : StreamSt),
    Ready s.chip p x (streamAt fun _ d => cmDecode d = false) (dmaFoot s.chip x) →
    (taken s.chip x).streamOf? x.j (rsStream (rowWord x)) = some st →
    (∀ i, i < ddRows (descOf x) →
      rowLuma (rowWord x) x.g x.iteration i < cmHeight (streamDesc x (rsStream (rowWord x))) ∧
      rowFrame (rowWord x) x.iteration < streamFrames x (streamDesc x (rsStream (rowWord x)))) →
    ∃ t c : Chip, exec (.rowStream p) s = .next (inState s (wentOn s.chip x t)) ∧
      c = (taken s.chip x).updStream st.id (fun z => { z with waiting := z.waiting ++ rowsOffered (taken s.chip x) x }) ∧
      t = c.addTransfer (c.newTransfer x (descOf x) x.iteration [])) ∧
  (∀ (s : State) (p i : Nat) (x : Ctx) (st : StreamSt),
    Ready s.chip p x (streamAt fun _ d => cmDecode d = false) (dmaFoot s.chip x) →
    (taken s.chip x).streamOf? x.j (rsStream (rowWord x)) = some st → i < ddRows (descOf x) →
    (cmHeight (streamDesc x (rsStream (rowWord x))) ≤ rowLuma (rowWord x) x.g x.iteration i ∨
      streamFrames x (streamDesc x (rsStream (rowWord x))) ≤ rowFrame (rowWord x) x.iteration) →
    exec (.rowStream p) s = .next (inState s (((taken s.chip x).raiseAt x.j x.p stCameoRowRange x.run.step).halt x.p))) ∧
  (∀ (s : State) (p : Nat) (x : Ctx) (st : StreamSt) (rows : List (Nat × List Byte)),
    Ready s.chip p x (streamAt fun w d => cmDecode d = true ∧ ddRows w * ddRowBytes w ≠ 0) (dmaFoot s.chip x) →
    (taken s.chip x).streamOf? x.j (rsStream (rowWord x)) = some st → x.inputAhead (rsStream (rowWord x)) = false →
    (taken s.chip x).rowsReady x (descOf x) (plainRows (descOf x)) = true →
    (taken s.chip x).readRows x (descOf x) (plainRows (descOf x)) = .ok rows →
    ∃ c : Chip, exec (.decodeInput p) s =
        .next (inState s (wentOn s.chip x (c.addTransfer (c.newTransfer x (descOf x) 0 [])))) ∧
      c = (taken s.chip x).setInput st ((taken s.chip x).inputOf st ++ rows.flatMap (·.2)) ∧
      ((taken s.chip x).setInput st ((taken s.chip x).inputOf st ++ rows.flatMap (·.2))).areaOf st 0 =
        { (taken s.chip x).areaOf st 0 with
          bits := ((taken s.chip x).inputOf st ++ rows.flatMap (·.2)).take bitstreamBytes }) ∧
  (∀ (s : State) (p : Nat) (x : Ctx) (st : StreamSt),
    Ready s.chip p x (streamAt fun w d => cmDecode d = true ∧ ddRows w * ddRowBytes w = 0) (dmaFoot s.chip x) →
    (taken s.chip x).streamOf? x.j (rsStream (rowWord x)) = some st → x.inputAhead st.entry = false →
    ∃ c : Chip, exec (.endOfInput p) s =
        .next (inState s (wentOn s.chip x (c.addTransfer (c.newTransfer x (descOf x) 0 [])))) ∧
      c = (taken s.chip x).updStream st.id fun z => { z with inputEnd := true })

/-- A stream as the start of its frame leaves it: the control word, the regions, the long-term slots, the fall-back and the frames
to search (R454 to R456). -/
def Sys2Proof.Claims.frameBegun (x : Ctx) (z : StreamSt) (ctl : Nat) (roi : List Nat) : StreamSt :=
  { z with ctl := ctl, roi := roi, lt := (applyControl (streamWord x z) z.frame ctl z.lt).1,
           fallback := (applyControl (streamWord x z) z.frame ctl z.lt).2,
           refs := frameRefs (streamWord x z) z.frame ctl (applyControl (streamWord x z) z.frame ctl z.lt).1 }

/-- What pair `i` of the gang takes of a row that waits: the pixels of its own tile column (R441). -/
def Sys2Proof.Claims.rowTile (x : Ctx) (z : StreamSt) (w : WaitRow) (i : Nat) : List Byte :=
  tilePixels (pixelBytes (streamWord x z)) ((cmTiles (streamWord x z)).getD i (0, 0)) w.bytes

/-- A row that waits at an intake is taken into its open slot, each pair of the gang converting its own tile column's pixels as it takes
them, and a second copy of it raises CAMEO_ROW_DUPLICATE; the engines code a CTU row whose slot is complete and whose reference windows are full, after the
control word and the regions of the frame when it is the first of one (R441, R451, R452, R455, R456). -/
def Sys2Proof.Claims.RowsAreTaken : Prop :=
  (∀ (s : State) (st n : Nat) (z : StreamSt) (x : Ctx) (w : WaitRow) (k : RowSlot), s.chip.stream? st = some z →
    s.chip.streamCtx z = some x → z.waiting[n]? = some w →
    (s.chip.slotsOf z).find? (fun k => k.frame = w.frame && k.row = w.y / 64) = some k →
    exec (.rowIntake st n) s = .next (inState s
      (if k.have_.any (·.y = w.y) then
        (s.chip.updStream st fun z => { z with waiting := dropAt z.waiting n }).raiseNamed z.job w.p stCameoRowDuplicate
          (s.chip.bead w.p).run.step (.row (s.chip.bead w.p).g w.frame w.y)
      else (s.chip.updStream st fun z => { z with waiting := dropAt z.waiting n }).updAreas z fun i a =>
        { a with slots := a.slots.map fun o =>
          if o.frame = k.frame && o.row = k.row then
            o.take x (streamWord x z) w.y (rowTile x z w i)
          else o }))) ∧
  (∀ (s : State) (st : Nat) (z : StreamSt) (x : Ctx) (k : RowSlot), s.chip.stream? st = some z →
    s.chip.streamCtx z = some x → (s.chip.slotsOf z).find? (fun k => k.frame = z.frame && k.row = z.row) = some k →
    z.recordDue = false → (∀ y ∈ ctuLuma (streamWord x z) z.row, ∃ h ∈ k.have_, h.y = y) →
    (∀ ws, z.row ≠ 0 → s.chip.windowsFor x (streamWord x z) z z.refs false = .ok ws →
      exec (.ctuRowStart st) s = .next (inState s (s.chip.codeCtuRow x (streamWord x z) z k ws))) ∧
    (∀ ctl roi ws, z.row = 0 → s.chip.frameStart x (streamWord x z) z.frame = .ok ctl roi →
      s.chip.windowsFor x (streamWord x z) (frameBegun x z ctl roi) (frameBegun x z ctl roi).refs true = .ok ws →
      exec (.ctuRowStart st) s = .next (inState s (s.chip.codeCtuRow x (streamWord x z) (frameBegun x z ctl roi) k ws))) ∧
    (z.row = 0 → s.chip.frameStart x (streamWord x z) z.frame = .bad →
      exec (.ctuRowStart st) s = .next (inState s (s.chip.raiseCameo z stCameoControl z.frame))))

/-- A stream's rate control keeps what it promises: in modes 1 and 2 a frame whose QP is below qp_max does not exceed the buffer model
(R458). -/
def Sys2Proof.Claims.withinBuffer (d : Nat) (y : StreamSt) (pay : List Byte) : Prop :=
  cpbMode d = true → y.qp < cmQpMax d → cpbExceeded d y.fullness pay.length = false

/-- A coded frame's record, at the QP that rate control settles on, is written at the end of the output and posted, its reconstruction is
kept, and the next frame begins; one that does not fit raises CAMEO_OUTPUT_FULL (R454, R455, R458, R460, R461). The decoder's next
picture, with those before it in decoding order, is decoded and written into its surface when frame_free allows it. With no picture left a
part that is not supported raises CAMEO_UNSUPPORTED; otherwise, before the input's end the stream waits for more, and after it the
missing frames are made up and then the stream ends (R462, R463, R467). -/
def Sys2Proof.Claims.FramesComplete : Prop :=
  (∀ (s : State) (st : Nat) (z y : StreamSt) (x : Ctx) (d : Nat) (e : Chip) (pay : List Byte), s.chip.stream? st = some z →
    s.chip.streamCtx z = some x → d = streamWord x z → (e, y) = s.chip.settleQp x d z → pay = e.codedPayload x d y →
    z.ended = false → cmDecode d = false → z.recordDue = true → s.chip.refsReady x d z = true →
    s.chip.tensorReady x (cmOut d) 0 ((s.chip.tensorAlloc? x.job (cmOut d)).elim 0 (·.bytes)) = true →
    withinBuffer d y pay ∧ exec (.recordAssembly st) s = .next (inState s
      (match e.putRecord x d y (frameRecord d y pay) with
      | none => e.raiseCameo y stCameoOutputFull y.frame
      | some c => ((((c.keepPicture x d y).updStream st fun w =>
          { w with frame := w.frame + 1, row := 0, recordDue := false, taken := [], sizes := w.sizes ++ [pay.length],
                   fullness := cpbBefore d (cpbAfter d w.fullness pay.length),
                   lt := if fcMark w.ctl then w.lt.set (fcSlot w.ctl) (some w.frame) else w.lt }).postObj x.j y.owner
          (cmFramePost d)).endStream x d st)))) ∧
  (∀ (s : State) (st : Nat) (z y : StreamSt) (x : Ctx) (d : Nat) (c : Chip) (good : List (Config.DecUnit × Bool)) (cut : Bool),
    s.chip.stream? st = some z → s.chip.streamCtx z = some x → d = streamWord x z → z.ended = false → cmDecode d = true →
    c = s.chip.parseInput d z → c.stream? st = some y → (good, cut) = supportedUnits (cmCodec d) y.units →
    (∀ p e v, y.nextPic d = some p → c.surfaceFree x d y = true →
      Chip.decodePics x d y.id good (y.toDecode d p) c = .ok e →
      ((e.stream? y.id).getD y).held.find? (·.pic = p) = some v →
      exec (.decodeFrameOutput st) s = .next (inState s ((e.take y.owner (cmFrameFree d)).putSurface x d y v))) ∧
    (y.nextPic d = none → cut = true →
      exec (.decodeFrameOutput st) s = .next (inState s (c.raiseCameo y stCameoUnsupported y.output))) ∧
    (y.nextPic d = none → cut = false → y.inputEnd = false → exec (.decodeFrameOutput st) s = .next (inState s c)) ∧
    (y.nextPic d = none → cut = false → y.inputEnd = true → y.output < streamFrames x d → c.surfaceFree x d y = true →
      exec (.decodeFrameOutput st) s = .next (inState s
        ((c.take y.owner (cmFrameFree d)).putSurface x d y (missingFrame d y)))) ∧
    (y.nextPic d = none → cut = false → y.inputEnd = true → streamFrames x d ≤ y.output →
      exec (.decodeFrameOutput st) s = .next (inState s
        ((c.updStream y.id fun w => { w with ended := true }).postObj x.j y.owner (cmDone d)))))

/-- Cameo takes its rows and its input and completes its frames. -/
def Obligations.CameoStreamsRun : Prop :=
  StreamTransfersStart ∧ RowsAreTaken ∧ FramesComplete

/-! ## Queues, Settings and jobs -/

/-- What a taken doorbell of a queue does: the ring's tail, the journal records released, or the job cancelled. -/
def Sys2Proof.Claims.bell (cmd : Nat → Nat → Nat → Nat → Instr) (eff : Nat → Nat → Chip → Chip) : Prop :=
  ∀ (s : State) (head q v : Nat), isHead head = true → isQueue q = true → v < 2 ^ 32 →
    s.chip.doorbell s.otp.production head q 4 = true → exec (cmd head q 4 v) s = .next (inState s (eff q v s.chip))

/-- A doorbell that the part takes: the submission doorbell sets the tail; the journal doorbell releases the records that it
passes, all of them when a full journal's head comes round to where it stands, and is discarded when it passes more than are
held; the cancel doorbell ends a job that waits or stops and marks a bound one (R473, R490, R499, R685). -/
def Sys2Proof.Claims.DoorbellsComplete : Prop :=
  bell .submissionDoorbell (fun q v c => c.updQueue q fun x => { x with tail := v % x.ringEntries }) ∧
  (∀ (s : State) (head q v n : Nat), isHead head = true → isQueue q = true → v < 2 ^ 32 →
    s.chip.doorbell s.otp.production head q 4 = true →
    n = (v % (s.chip.queue q).journalEntries + (s.chip.queue q).journalEntries - (s.chip.queue q).jHead)
      % (s.chip.queue q).journalEntries →
    (0 < n → n ≤ (s.chip.queue q).jHeld →
      exec (.journalDoorbell head q 4 v) s = .next (inState s (s.chip.release q n))) ∧
    (n = 0 → (s.chip.queue q).jHeld = (s.chip.queue q).journalEntries →
      exec (.journalDoorbell head q 4 v) s = .next (inState s (s.chip.release q (s.chip.queue q).journalEntries))) ∧
    ((s.chip.queue q).jHeld < n → exec (.journalDoorbell head q 4 v) s = .next s)) ∧
  (∀ (s : State) (head q v j : Nat) (x : Job), isHead head = true → isQueue q = true → v < 2 ^ 32 →
    s.chip.doorbell s.otp.production head q 4 = true →
    List.find? (fun e : Nat × Job => e.2.queue = q && e.2.seq = v && e.2.ledger = .accepted) s.chip.jobs = some (j, x) →
    exec (.cancelDoorbell head q 4 v) s = .next (inState s
      (if x.phase = .waiting ∨ x.phase = .stopping then s.chip.endJob j stCancelled
       else s.chip.setJob j { x with cancel := true })))

/-- A load descriptor that fails no check, with room for its weights in stacked memory outside a map-epoch barrier, makes its Setting and
is answered OK; one that fails a check is answered with its status. An unload of a Setting that no open job names frees the handle, its weights' rows and its
marks; one that a job names is answered SETTING_IN_USE, and one of a handle that is not even loading SETTING_UNKNOWN (R67, R477,
R679). -/
def Sys2Proof.Claims.SettingsLoadAndUnload : Prop :=
  (∀ (s : State) (q : Nat) (ws : List (Nat × Nat)) (c : Chip), isQueue q = true → s.chip.takes q = true →
    djOp (s.chip.nextDesc q) = 1 → s.chip.loadStatus (s.chip.nextDesc q) = stOK → s.chip.barrierOn = false →
    s.chip.placeWeights (djOutAddr (s.chip.nextDesc q)) (weightPlan (s.chip.loadCapsule (s.chip.nextDesc q)))
      = some (ws, c) →
    ∃ t : Chip, exec (.loadSetting q) s = .next (inState s (t.answer q 4 stOK (s.chip.nextDesc q))) ∧
      t.settings.find? (djSetting (s.chip.nextDesc q)) =
        some { capsule := s.chip.loadCapsule (s.chip.nextDesc q), weightAddr := djOutAddr (s.chip.nextDesc q), weights := ws } ∧
      t = { c with settings := t.settings }) ∧
  (∀ (s : State) (q : Nat), isQueue q = true → s.chip.takes q = true → djOp (s.chip.nextDesc q) = 1 →
    s.chip.loadStatus (s.chip.nextDesc q) ≠ stOK →
    exec (.loadSetting q) s = .next (inState s
      (s.chip.answer q 4 (s.chip.loadStatus (s.chip.nextDesc q)) (s.chip.nextDesc q)))) ∧
  (∀ (s : State) (q : Nat) (x : SettingSt), isQueue q = true → s.chip.takes q = true → djOp (s.chip.nextDesc q) = 2 →
    djReservedOk (s.chip.nextDesc q) = true → s.chip.settings.find? (djSetting (s.chip.nextDesc q)) = some x →
    (s.chip.settingBusy (djSetting (s.chip.nextDesc q)) = true →
      exec (.unloadSetting q) s = .next (inState s (s.chip.answer q 4 stSettingInUse (s.chip.nextDesc q)))) ∧
    (s.chip.settingBusy (djSetting (s.chip.nextDesc q)) = false →
      ∃ t c : Chip, exec (.unloadSetting q) s = .next (inState s (t.answer q 4 stOK (s.chip.nextDesc q))) ∧
        c = x.weights.foldl (fun c w => c.freeAlloc w.2) s.chip ∧
        t = { c with settings := c.settings.erase (djSetting (s.chip.nextDesc q)),
                     mem := { c.mem with weightMarks :=
                       c.mem.weightMarks.filter (·.1 != djSetting (s.chip.nextDesc q)) } })) ∧
  (∀ (s : State) (q : Nat), isQueue q = true → s.chip.takes q = true → djOp (s.chip.nextDesc q) = 2 →
    djReservedOk (s.chip.nextDesc q) = true → s.chip.settings.find? (djSetting (s.chip.nextDesc q)) = none →
    s.chip.loading (djSetting (s.chip.nextDesc q)) = false →
    exec (.unloadSetting q) s = .next (inState s (s.chip.answer q 4 stSettingUnknown (s.chip.nextDesc q))))

/-- A weight tensor marked for reload is read again from the host's weight image when the host can be reached, outside a map-epoch
barrier, and its mark goes (R433, R477, Table 12.5). -/
def Sys2Proof.Claims.WeightsReload : Prop :=
  ∀ (s : State) (h tid : Nat) (x : SettingSt) (w : Nat × Nat × Nat) (a : Alloc), s.chip.settings.find? h = some x →
    (weightPlan x.capsule).find? (·.1 = tid) = some w → (x.weights.lookup tid).bind s.chip.alloc? = some a →
    s.chip.serves = true → s.chip.hostUp = true → s.chip.mem.weightMarks.contains (h, tid) = true →
    s.chip.barrierOn = false →
    ∃ t c : Chip, exec (.weightReload h tid) s = .next (inState s t) ∧
      c = s.chip.storeAt (s.chip.allocPlace a 0) 0 (s.chip.hostRead (x.weightAddr + w.2.1) w.2.2) ∧
      t = { c with mem := { c.mem with weightMarks := c.mem.weightMarks.filter (· != (h, tid)) } }

/-- Doorbells act on their queue, and Settings are loaded, unloaded and mended (R67, R433, R473, R477, R490, R499, R679,
R685). -/
def Obligations.DoorbellsAndSettingsComplete : Prop :=
  DoorbellsComplete ∧ SettingsLoadAndUnload ∧ WeightsReload

/-- A run descriptor that passes every check of Table 14.3 is accepted: a ledger entry at the lowest free index, stamped
now, with the queue's next sequence number, waiting; the session's job counter and the queue's sequence number go on, the
acceptance record is written and the descriptor consumed. One that fails is answered with a refusal record, but for a handle that
is loading, whose run waits (R478 to R482, R605). -/
def Obligations.JobsAreAcceptedOrRefused : Prop :=
  (∀ (s : State) (q : Nat), isQueue q = true → s.chip.takes q = true → djOp (s.chip.nextDesc q) = 0 →
    s.chip.acceptStatus (s.chip.nextDesc q) = stOK →
    ∃ (t : State) (x : Job), exec (.acceptJob q) s = .next t ∧
      (s.chip.jobs.Pairwise (fun a b => a.1 < b.1) → s.chip.jobs.find? (firstGap 0 s.chip.jobs) = none) ∧
      t.chip.jobs.find? (firstGap 0 s.chip.jobs) = some x ∧ x.ledger = .accepted ∧ x.phase = .waiting ∧
      x.stamp = s.chip.now ∧ x.seq = (s.chip.queue q).nextSeq ∧ x.session = djSession (s.chip.nextDesc q) ∧
      x.number = (s.chip.session x.session).jobCtr ∧
      (t.chip.session x.session).jobCtr = (s.chip.session x.session).jobCtr + 1 ∧
      (t.chip.queue q).nextSeq = seqAfter (s.chip.queue q).nextSeq ∧
      (t.chip.queue q).consumed = ((s.chip.queue q).consumed + 1) % (s.chip.queue q).ringEntries ∧
      (t.chip.queue q).jHeld = (s.chip.queue q).jHeld + 1 ∧ t.chip.tick.firstAccept = true) ∧
  (∀ (s : State) (q : Nat), isQueue q = true → s.chip.takes q = true → djOp (s.chip.nextDesc q) ≠ 1 →
    djOp (s.chip.nextDesc q) ≠ 2 → s.chip.acceptStatus (s.chip.nextDesc q) ≠ stOK →
    exec (.acceptJob q) s = .next (inState s
      (if s.chip.acceptStatus (s.chip.nextDesc q) = stSettingUnknown ∧ s.chip.loading (djSetting (s.chip.nextDesc q)) = true
      then s.chip
      else s.chip.answer q 3 (s.chip.acceptStatus (s.chip.nextDesc q)) (s.chip.nextDesc q))))

/-- BIND_JOB, while Pave serves outside a map-epoch barrier, tries the waiting jobs one by one in the order of
R487, then chooses what to pre-empt for the first that found no room, then puts the Caskets of Facets in retention into retention
when nothing is bound. A job tried is bound at the largest size and the lowest group that are free and onto which its context, if
it has one, can be restored; one that has no group stays; wrong inputs end it with INPUT_AUTH, and inputs lost in both copies
end one that would resume with DATA_LOST (R111, R112, R400, R487, R488, R493, R608, R678). -/
def Obligations.BindingGoesInOrder : Prop :=
  (∀ s : State, s.chip.serves = true → s.chip.barrierOn = false →
    exec .bindJob s = .next (inState s
      ((s.chip.jobsBy s.chip.bindable).foldl Chip.tryBind s.chip).choosePreempt.casketRetention)) ∧
  (∀ (c c1 : Chip) (j slot : Nat) (x x1 : Job) (k : Pick), c.job? j = some x → c.freeSlot = some slot →
    c.bindable x = true → (x.inputsIn = true ∨ c.inputReadable x = true) → c.pick j x = some k →
    (x.resumeDue = false ∨ c.inputsLost x = false) → c.place j x k = some c1 → c1.job? j = some x1 →
    (c1.decryptInputs j x1 = none → c.tryBind j = c.setJob j (x.close stInputAuth)) ∧
    (∀ (c2 : Chip) (x2 : Job), c1.decryptInputs j x1 = some c2 → c2.job? j = some x2 →
      c.tryBind j = c2.bindAt j x2 k slot)) ∧
  (∀ (c : Chip) (j slot : Nat) (x : Job) (k : Pick), c.job? j = some x → c.freeSlot = some slot → c.bindable x = true →
    (x.inputsIn = true ∨ c.inputReadable x = true) → c.pick j x = some k → x.resumeDue = true → c.inputsLost x = true →
    c.tryBind j = c.setJob j (x.close stDataLost)) ∧
  (∀ (c : Chip) (j : Nat) (x : Job), c.job? j = some x → (c.bindable x = false ∨ c.pick j x = none) → c.tryBind j = c) ∧
  (∀ (c : Chip) (j : Nat) (x : Job) (k : Pick), c.pick j x = some k →
    k.size ∈ c.sizesOf x ∧ c.restoreStatus x k.size = none ∧ k.base ∈ groupBases k.size ∧ c.fits j x k = true ∧
    (∀ s b, s ∈ c.sizesOf x → b ∈ groupBases s → (k.size < s ∨ (s = k.size ∧ b < k.base)) →
      c.fits j x ⟨s, (findVariant (c.capsule x.setting) s x.tuple).getD 0, b⟩ = false))

/-- A job leaves its group when it has stopped, when all its streams have ended and nothing of it is under way (OK, or
CANCELLED after a cancel), or with its mid-step context saved at a yield, whose post is made; its Beads, slices and pairs are free
again (R98, R111, R389, R490, R494). -/
def Obligations.JobsLeaveTheirGroups : Prop :=
  (∀ (s : State) (j : Nat) (x : Job), s.chip.job? j = some x → x.phase = .stopping →
    s.chip.pkg.deviceFault = false → exec (.unbind j) s = .next (inState s ((s.chip.setJob j x.left).leaveGroup j x).casketRetention)) ∧
  (∀ (s : State) (j : Nat) (x y : Job), s.chip.job? j = some x → s.chip.finished j x = true →
    y = { x with ending := some (if x.cancel then stCancelled else stOK) } →
    exec (.unbind j) s = .next (inState s ((s.chip.setJob j y.left).leaveGroup j y).casketRetention)) ∧
  (∀ (s : State) (c : Chip) (j : Nat) (x y z : Job), s.chip.job? j = some x → s.chip.finished j x = false →
    s.chip.savable j x = true → c = s.chip.endYields j x → c.job? j = some z → z.phase = .bound →
    y = { z with mid := some (c.saveMid j z), resumeDue := true } →
    exec (.unbind j) s = .next (inState s ((c.setJob j y.left).leaveGroup j z).casketRetention))

/-- A bound job whose run time has reached its limit ends with JOB_LIMIT (R489). A wait that has lasted 8,715 tk raises once
SLOT_TIMEOUT, naming the lowest waiting Bead and what it waits for, and a decide's with ROUND_INCOMPLETE, naming the
decision point (R309, R375, R376). A Bead that waits on nothing and has made no progress for 2^20 fc is fenced with cause 0x05 (R45,
R504). -/
def Sys2Proof.Claims.LimitsAndWatchdogsAct : Prop :=
  (∀ (s : State) (j : Nat) (x : Job), s.chip.job? j = some x → x.phase = .bound → x.runLimit ≤ x.runTicks →
    exec (.runLimitExpiry j) s = .next (inState s (s.chip.endJob j stJobLimit)) ∧
    (x.ledger = .accepted → x.ending = none → ∃ y : Job, (s.chip.endJob j stJobLimit).job? j = some y ∧
      y.phase = .stopping ∧ y.ending = some stJobLimit)) ∧
  (∀ (s : State) (j : Nat) (x : Job) (w : Late) (ws : List Late), s.chip.job? j = some x → x.phase = .bound →
    s.chip.expiredWaits j x = w :: ws →
    exec (.slotWatchdogExpiry j) s = .next (inState s
      (s.chip.raiseNamed j w.p stSlotTimeout (s.chip.bead w.p).run.step (s.chip.lateNamed w)))) ∧
  (∀ (s : State) (p : Nat) (x : Ctx), isBead p = true → s.chip.canIssue p = some x →
    (∃ w ∈ (s.chip.bead p).waits, w.kind = .decide ∧ w.since + watchTicks ≤ s.chip.now ∧ s.chip.available p w.obj = false) →
    exec (.roundWaitExpiry p) s = .next (inState s
      (s.chip.raiseDie x.j (dieFacet (physFacet p)) stRoundIncomplete x.run.step (.decision (ctrlOperand x.i))))) ∧
  (∀ (s : State) (p : Nat) (x : Ctx), isBead p = true → s.chip.canIssue p = some x → (s.chip.bead p).waits = [] →
    s.chip.available p (iWait x.i) = true → x.unitBusy = false → (s.chip.bead p).stoodSince + progressTicks ≤ s.chip.now →
    exec (.beadProgressExpiry p) s = .next (inState s
      (s.chip.beadFault p domBead 0x05 0 (s.chip.bead p).run.pos)))

/-- A job at its end has its completion record written while the part writes records and its queue's head is up, outside a map-epoch
barrier, after every earlier job of the queue where the queue asks for order; a job that ended OK has its output header written first, and on every head that has
carried its outputs a zero-length read is made; what it placed is freed, a late one is counted, and its closing session goes when
it was the last (R470, R484 to R486, R491, R541, R609). -/
def Sys2Proof.Claims.JobsComplete : Prop :=
  ∀ (s : State) (j : Nat) (x : Job), s.chip.job? j = some x → x.ledger = .completing → s.chip.records x = true → s.chip.barrierOn = false →
    s.chip.headOpen (s.chip.queue x.queue).active = true →
    ¬ ((s.chip.queue x.queue).inOrder = 1 ∧ s.chip.earlierOpen x = true) →
    (∀ h ∈ s.chip.outputHeads x, s.chip.flushable h = true) →
    ∃ c0 c1 c2 c3 t : Chip, exec (.jobComplete j) s = .next (inState s t) ∧
      c0 = (if x.ending.getD stOK = stOK then s.chip.outputHeader x else s.chip) ∧
      c1 = ((s.chip.outputHeads x).filter c0.headOpen).foldl (fun c h => c.send (.flushRead h)) c0 ∧
      c2 = (if boundMissed x.stamp s.chip.now x.bound then
        { c1 with telem := { c1.telem with
            boundMissed := modAt c1.telem.boundMissed x.cls (satAdd u64max · 1) } } else c1) ∧
      c3 = (c2.freeJob j x).updJob j (fun y => { y with ledger := .done, doneIdx := (s.chip.queue x.queue).jNext,
                                                        headerDone := decide (x.ending.getD stOK = stOK) }) ∧
      t = (c3.writeRecord x.queue (completionRec x (x.ending.getD stOK) s.chip.now)).settleSession x.session

/-- A completion record says what R486 asks of it: the margin and the missed bound are computed from the acceptance stamp and
the completion stamp, and flags, counts and size are the job's (R486). -/
def Sys2Proof.Claims.CompletionRecordsHold : Prop :=
  ∀ (x : Job) (st now : Nat), (completionRec x st now).seq = x.seq ∧ (completionRec x st now).stamp = now ∧
    (completionRec x st now).margin = boundMargin x.stamp now x.bound ∧
    (completionRec x st now).overflow = x.overflow ∧ (completionRec x st now).invalid = x.invalid ∧
    ((completionRec x st now).flags.testBit 3 = (x.flags.testBit 3 || boundMissed x.stamp now x.bound)) ∧
    (∀ i, i ≠ 3 → (completionRec x st now).flags.testBit i = x.flags.testBit i)

/-- A job at its end completes, and its record has the fields of R486. -/
def Obligations.JobsCompleteWithTheirRecords : Prop :=
  JobsComplete ∧ CompletionRecordsHold

/-- After the idle delay a Facet without a bound job enters Locket retention; a wake ends 1,500 tk after its stamp, the Beads of the
Facet stand at their instructions from then on, and a Casket whose own wake has lasted as long takes lines again (R399 to
R401). -/
def Sys2Proof.Claims.RetentionComesAndGoes : Prop :=
  (∀ (s : State) (f : Nat), isFacet f = true → s.chip.pkg.power = .running → (s.chip.facet f).retention = 0 →
    (s.chip.facet f).idleDelay ≠ u32max →
    s.chip.facetIdle f = true → (s.chip.facet f).idleSince + (s.chip.facet f).idleDelay ≤ s.chip.now →
    exec (.idleDelayExpiry f) s = .next (inState s
      (s.chip.setFacet f { s.chip.facet f with retention := 1 }).casketRetention)) ∧
  (∀ (s : State) (f w : Nat), isFacet f = true → (s.chip.facet f).wakeStamp = some w → (s.chip.facet f).retention = 3 →
    w + 1500 ≤ s.chip.now →
    ∃ t : Chip, exec (.wakeComplete f) s = .next (inState s t) ∧
      t.facets = (s.chip.setFacet f
        { (s.chip.facet f).casketAwake s.chip.now with retention := 0, wakeStamp := none }).facets ∧ t.jobs = s.chip.jobs) ∧
  (∀ (s : State) (f : Nat), isFacet f = true → (s.chip.facet f).wakeStamp = none →
    exec (.wakeComplete f) s = .next (inState s (s.chip.setFacet f ((s.chip.facet f).casketAwake s.chip.now)))) ∧
  (∀ (x : FacetSt) (w now : Nat), x.casketWake = some w →
    (x.casketAwake now).casketWake = if w + 1500 ≤ now then none else some w)

/-- Limits and watchdogs end or fence what has taken too long, and an idle Facet goes into retention and wakes. -/
def Obligations.LimitsWatchdogsAndRetentionAct : Prop :=
  LimitsAndWatchdogsAct ∧ RetentionComesAndGoes

/-- The generation that is committed, and the job once it is. -/
def Sys2Proof.Claims.sealed (k : Ckpt) : Ckpt := { k with crc := crc32 (ckptBody k) }
def Sys2Proof.Claims.withGen (x : Job) (k : Ckpt) (later : List Ckpt) : Job :=
  { x with openGens := later, gens := x.gens.set (ckptSlot k.step) (some k), stepEnds := x.stepEnds + 1 }

/-- A bound job's oldest open generation is committed once every Bead has passed the step's end and each of its rings has sent ALL for
the step before: it gets its CRC, goes to its slot and to the checkpoint allocation, each ring hears COMMITTED, and what
waited for a step's end happens (R491, R496, R497, R573). -/
def Obligations.CheckpointsCommit : Prop :=
  ∀ (s : State) (j : Nat) (x y : Job) (k : Ckpt) (later : List Ckpt), s.chip.job? j = some x → x.openGens = k :: later →
    x.phase = .bound → s.chip.allPassed x = true → s.chip.ckptReady x = true →
    (∀ r ∈ s.chip.jobRings x, k.step - 1 ≤ (s.chip.ringRun r).all) →
    y = withGen x (sealed k) later →
    ∃ c c1 : Chip, exec (.checkpointCommit j) s = .next (inState s (c1.atStepEnd j y)) ∧
      c = (s.chip.setJob j y).storeCkpt y (sealed k) ∧ c1 = (c.jobRings y).foldl (fun c r => c.ringCommit r y.session k.step) c

/-! ## The tick, faults and thermal readings -/

/-- A step of a part whose clocks run and that has not tripped, with no command waiting and nothing to handle, is one tick edge: the counter rises by one, modulo
2^64, and stamps with it (R26). -/
def Sys2Proof.Claims.TickRisesByOne : Prop :=
  ∀ s : State, s.pending = [] → s.ripe = none → s.chip.pkg.power ≠ .off → s.chip.pkg.power ≠ .stopped →
    s.chip.pkg.power ≠ .inReset → s.chip.pkg.tripLatch = false →
    ∃ t : State, step s = .next t ∧ t.chip.tick.count = (s.chip.tick.count + 1) % 2 ^ 64 ∧ t.pending = [] ∧
      (s.chip.tick.lag = 0 → t.chip.now = (s.chip.now + 1) % 2 ^ 64)

/-- A TICK_SYNC edge at which the counter is off by whole ticks steps the counter onto the phase, with the upper bits where Strand
time has taught them, once before the first job is accepted, and never after it (R49, R51); a part that still has to learn the
upper bits from its parent waits with its one step (the model's choice, assumption 101); the tick-unaligned condition ends after
131,072 tk within 2 tk (R53). -/
def Sys2Proof.Claims.TickAligns : Prop :=
  (∀ (s : State) (frac : Nat) (off : Int), frac < 256 → s.chip.pkg.straps.tick ≠ 0 → s.chip.pkg.power = .running →
    off = syncOffset s.chip.tick.count frac → s.chip.tick.count < 2 ^ 64 →
    ∃ t : State, exec (.tickSyncPulse frac) s = .next t ∧ t.chip.tick.measured = off ∧
      (s.chip.tick.firstAccept = true ∨ s.chip.upperDue = true → t.chip.tick.count = s.chip.tick.count ∧
        t.chip.tick.stepped = s.chip.tick.stepped) ∧
      (s.chip.tick.firstAccept = false → s.chip.tick.stepped = false → s.chip.upperDue = false →
        off.tdiv 256 + s.chip.tick.upper.getD 0 ≠ 0 →
        t.chip.tick.count = codeOf 64 ((s.chip.tick.count : Int) - (off.tdiv 256 + s.chip.tick.upper.getD 0)) ∧
        t.chip.tick.stepped = true)) ∧
  (∀ (s : State) (n m : Nat), s.chip.tick.unaligned = true → s.chip.tick.inRange = some n → n + 131072 ≤ s.chip.now →
    s.chip.tick.refRange = some m → m + 131072 ≤ s.chip.now →
    ∃ t : State, exec .tickAlignedClear s = .next t ∧ t.chip.tick.unaligned = false ∧
      t.chip.flog.written = (s.chip.flog.written + 1) % 2 ^ 32)

/-- The tick rises by one at every edge and is aligned by TICK_SYNC (R26, R49 to R53). -/
def Obligations.TickRisesAndAligns : Prop :=
  TickRisesByOne ∧ TickAligns

/-- The fields of a fault hold in the fields of its record (Table 15.6). -/
def Sys2Proof.Claims.causeFits (f : FaultEvent) : Prop := f.cause < 256 ∧ f.unit < 65536 ∧ f.sub < 256 ∧ f.detail < 2 ^ 32

/-- A cause of Table 15.1 fences its domain: a Bead or a bank, a row of a mesh, a Facet, a pseudo-channel, a stack, an engine
pair, a port, a Clasp or an edge (R504, R505). -/
def Sys2Proof.Claims.CausesFenceTheirDomains : Prop :=
  ∀ (s : State) (f : FaultEvent), causeFits f → s.chip.alive = true →
    (f.cause = 0x01 → f.unit < 600 → f.sub < 4 →
      exec (.fault f) s = .next (inState s (s.chip.beadFault f.unit domBank f.cause f.sub f.detail))) ∧
    (2 ≤ f.cause → f.cause ≤ 5 → f.unit < 600 →
      exec (.fault f) s = .next (inState s (s.chip.beadFault f.unit domBead f.cause 0 f.detail))) ∧
    (f.cause = 0x06 → f.unit < 40 →
      exec (.fault f) s = .next (inState s (s.chip.segmentFault (f.unit / 8) (f.unit % 8) f.cause f.detail))) ∧
    (7 ≤ f.cause → f.cause ≤ 0x0A → f.unit < 5 →
      exec (.fault f) s = .next (inState s (s.chip.facetFault f.unit f.cause f.detail))) ∧
    (f.cause = 0x0C → f.unit < 640 → exec (.fault f) s = .next (inState s (s.chip.losePc f.unit f.detail))) ∧
    (f.cause = 0x0D → f.unit < 20 → exec (.fault f) s = .next (inState s (s.chip.faultStack f.unit f.detail))) ∧
    (0x0E ≤ f.cause → f.cause ≤ 0x0F → f.unit < 8 →
      exec (.fault f) s = .next (inState s (s.chip.pairFault f.unit f.cause f.detail))) ∧
    (f.cause = 0x10 → f.unit < 12 → exec (.fault f) s = .next (inState s (s.chip.portFault f.unit f.detail))) ∧
    (0x11 ≤ f.cause → f.cause ≤ 0x14 → f.unit < 2 →
      exec (.fault f) s = .next (inState s (s.chip.claspFault f.unit f.cause f.detail))) ∧
    (f.cause = 0x15 → f.unit < 18 → exec (.fault f) s = .next (inState s (s.chip.edgeFault f.unit)))

/-- The first fault of an unbound Bead in service, in a row and a Facet in service, is logged, fences the Bead and counts its
fence, and no other Bead or job is touched; a further one while it is fenced only counts in the record (R505, R506). -/
def Sys2Proof.Claims.BeadFaultsFence : Prop :=
  ∀ (c : Chip) (p dom cause sub detail : Nat), (c.facet (physFacet p)).svc = .inService →
    (((c.facet (physFacet p)).segs.getD (physRow p) SegSt.fresh).svc = .inService) →
    ((c.bead p).svc = .inService → (c.bead p).job = none → ∃ d : Chip, d = c.beadFault p dom cause sub detail ∧
      (d.bead p).svc = .fenced ∧ (d.bead p).fences = (c.bead p).fences + 1 ∧
      (d.bead p).fenceRec = some c.flog.written ∧ d.flog.written = (c.flog.written + 1) % 2 ^ 32 ∧
      (∀ q, q ≠ p → d.bead q = c.bead q) ∧ d.jobs = c.jobs ∧
      d.flog.recs.find? (c.flog.written % 4096) =
        some { hwRec dom cause (dieFacet (physFacet p)) p sub detail with stamp := c.now }) ∧
    ((c.bead p).svc ≠ .inService → c.beadFault p dom cause sub detail = c.foldFault (c.bead p).fenceRec ∧
      (c.beadFault p dom cause sub detail).beads = c.beads)

/-- The command of a fault whose domain is in service leaves it fenced, or, for an edge, out of service; a Facet's dirty lines are
dropped; the first record that it writes is the fault's own (R504 to R506, R510, R512, R515, R576). -/
def Sys2Proof.Claims.FaultsTakeTheirDomains : Prop :=
  ∀ (s : State) (f : FaultEvent), causeFits f → s.chip.alive = true →
    (2 ≤ f.cause → f.cause ≤ 5 → f.unit < 600 → (s.chip.facet (physFacet f.unit)).svc = .inService →
      ((s.chip.facet (physFacet f.unit)).segs.getD (physRow f.unit) SegSt.fresh).svc = .inService →
      (s.chip.bead f.unit).svc = .inService →
      ∃ t : State, exec (.fault f) s = .next t ∧ (t.chip.bead f.unit).svc = .fenced ∧
        (t.chip.bead f.unit).fences = (s.chip.bead f.unit).fences + 1 ∧
        (t.chip.bead f.unit).fenceRec = some s.chip.flog.written) ∧
    (f.cause = 0x06 → f.unit < 40 → (s.chip.facet (f.unit / 8)).svc = .inService →
      f.unit % 8 < (s.chip.facet (f.unit / 8)).segs.length →
      ((s.chip.facet (f.unit / 8)).segs.getD (f.unit % 8) SegSt.fresh).svc = .inService →
      ∃ t : State, exec (.fault f) s = .next t ∧
        (t.chip.facet (f.unit / 8)).segs.getD (f.unit % 8) SegSt.fresh =
          { svc := .fenced, fenceRec := some s.chip.flog.written,
            fences := ((s.chip.facet (f.unit / 8)).segs.getD (f.unit % 8) SegSt.fresh).fences + 1 }) ∧
    (7 ≤ f.cause → f.cause ≤ 0x0A → f.unit < 5 → (s.chip.facet f.unit).svc = .inService →
      ∃ t : State, exec (.fault f) s = .next t ∧
        t.chip.facet f.unit =
          { s.chip.facet f.unit with svc := .fenced, fenceRec := some s.chip.flog.written, dirty := [] }) ∧
    (f.cause = 0x0C → f.unit < 640 → (s.chip.stack (pcStack f.unit)).st < 2 → (s.chip.pcSt f.unit).st < 2 →
      ∃ t : State, exec (.fault f) s = .next t ∧ (t.chip.pcSt f.unit).st = 2 ∧
        (t.chip.pcSt f.unit).fenceRec = some s.chip.flog.written) ∧
    (f.cause = 0x0D → f.unit < 20 → (s.chip.stack f.unit).st < 2 →
      ∃ t : State, exec (.fault f) s = .next t ∧ (t.chip.stack f.unit).st = 2 ∧
        (t.chip.stack f.unit).fenceStamp = s.chip.now ∧ t.chip.flog.written = (s.chip.flog.written + 1) % 2 ^ 32) ∧
    (0x0E ≤ f.cause → f.cause ≤ 0x0F → f.unit < 8 → (s.chip.pair f.unit).svc = .inService →
      ∃ t : State, exec (.fault f) s = .next t ∧ t.chip.pair f.unit =
        { s.chip.pair f.unit with svc := .fenced, fences := (s.chip.pair f.unit).fences + 1,
                                  fenceRec := some s.chip.flog.written }) ∧
    (f.cause = 0x10 → f.unit < 12 → (s.chip.port f.unit).working = true → s.chip.jobs = [] →
      ∃ t : State, exec (.fault f) s = .next t ∧
        (t.chip.port f.unit).st = (if 1 ≤ (s.chip.port f.unit).faults then 6 else 5) ∧
        (t.chip.port f.unit).faults = (s.chip.port f.unit).faults + 1) ∧
    (0x11 ≤ f.cause → f.cause ≤ 0x14 → f.unit < s.chip.clasps.length → f.unit < 2 →
      (s.chip.clasp f.unit).svc = .inService →
      ∃ t : State, exec (.fault f) s = .next t ∧ (t.chip.clasp f.unit).svc = .fenced ∧
        (t.chip.clasp f.unit).takeoverDue = some s.chip.now ∧ t.chip.tick.primary ≠ f.unit) ∧
    (f.cause = 0x15 → f.unit < 18 → s.chip.edgesOut.contains f.unit = false →
      ∃ t : State, exec (.fault f) s = .next t ∧ t.chip.edgesOut = s.chip.edgesOut ++ [f.unit])

/-- Every cause fences its domain, and a Bead's fence is logged once (R504 to R506). -/
def Obligations.FaultsFence : Prop :=
  CausesFenceTheirDomains ∧ BeadFaultsFence ∧ FaultsTakeTheirDomains

/-- A fenced Bead that its job has left is back in service after a passed self-test of its first fence and out of service
otherwise; a fenced segment, Facet or engine pair that no job holds returns or leaves likewise; each writes one record
(R508, Table 15.2). -/
def Sys2Proof.Claims.FencedDomainsReturnOrLeave : Prop :=
  (∀ (s : State) (p : Nat) (ok : Bool), isBead p = true → s.chip.alive = true → (s.chip.bead p).svc = .fenced →
    (s.chip.bead p).job = none → ∃ t : State, exec (.selfTestComplete p ok) s = .next t ∧
      (t.chip.bead p).svc = (if ok = true ∧ (s.chip.bead p).fences ≤ 1 then .inService else .out) ∧
      t.chip.flog.written = (s.chip.flog.written + 1) % 2 ^ 32) ∧
  (∀ (s : State) (f : Nat) (ok : Bool), isFacet f = true → (s.chip.facet f).svc = .fenced → s.chip.facetIdle f = true →
    ∃ t : State, exec (.domainReturn (.facet f) ok) s = .next t ∧
      (t.chip.facet f).svc = (if ok = true then .inService else .out) ∧ (t.chip.facet f).inReset = false ∧
      t.chip.flog.written = (s.chip.flog.written + 1) % 2 ^ 32) ∧
  (∀ (s : State) (f row : Nat) (ok : Bool), isFacet f = true → row < 8 → row < (s.chip.facet f).segs.length →
    ((s.chip.facet f).segs.getD row SegSt.fresh).svc = .fenced →
    (∀ p ∈ rowBeads f row, (s.chip.bead p).job = none) →
    ∃ t : State, exec (.domainReturn (.segment f row) ok) s = .next t ∧
      ((t.chip.facet f).segs.getD row SegSt.fresh).svc =
        (if ok = true ∧ ((s.chip.facet f).segs.getD row SegSt.fresh).fences ≤ 1 then .inService else .out) ∧
      t.chip.flog.written = (s.chip.flog.written + 1) % 2 ^ 32) ∧
  (∀ (s : State) (e : Nat) (ok : Bool), e < 8 → (s.chip.pair e).svc = .fenced → (s.chip.pair e).stream = none →
    ∃ t : State, exec (.domainReturn (.pair e) ok) s = .next t ∧
      (t.chip.pair e).svc = (if ok = true ∧ (s.chip.pair e).fences ≤ 1 then .inService else .out) ∧
      t.chip.flog.written = (s.chip.flog.written + 1) % 2 ^ 32)

/-- An edge whose retry is exhausted leaves service with two records; a second edge is a fault of the device (R510, R517). A
Clasp that is fenced hands its queues to the other one's Pave (R516, R546). -/
def Sys2Proof.Claims.EdgesAndClaspsLeave : Prop :=
  (∀ (s : State) (e : Nat), e < 18 → s.chip.alive = true → s.chip.edgesOut = [] →
    ∃ t : State, exec (.edgeRetryExhausted e) s = .next t ∧ t.chip.edgesOut = [e] ∧
      t.chip.flog.written = (s.chip.flog.written + 2) % 2 ^ 32 ∧ t.chip.pkg = s.chip.pkg) ∧
  (∀ (s : State) (e a : Nat), e < 18 → e ≠ a → s.chip.alive = true → s.chip.edgesOut = [a] →
    ∃ t : State, exec (.edgeRetryExhausted e) s = .next t ∧ t.chip.edgesOut = [a, e] ∧ t.chip.pkg.deviceFault = true ∧
      t.chip.pkg.devState = (if s.chip.pkg.deviceFault then s.chip.pkg.devState else 3)) ∧
  (∀ (s : State) (q : Nat), isQueue q = true → (s.chip.clasp (s.chip.queue q).head).takeoverDue.isSome = true →
    ∃ t : State, exec .paveTakeover s = .next t ∧ (t.chip.queue q).active = 1 - (s.chip.queue q).head ∧
      t.chip.clasps.all (·.takeoverDue.isNone) = true)

/-- Fenced domains return or leave service, edges leave it, and a fenced Clasp is taken over (R508, R510, R516, R517,
R546). -/
def Obligations.FencedDomainsReturnOrLeaveService : Prop :=
  FencedDomainsReturnOrLeave ∧ EdgesAndClaspsLeave

/-- A thermal reading at a multiple of 125,000 tk of a part in service gives every stack its temperature and band; one in
which a junction has reached 115 degrees, or a stack 105, sets the trip latch, with which the next tick edge stops every clock; at the end of a telemetry
interval the next begins with the length last written and with the readings stamped at that end (R44, R47, R416, R528, R529,
R649). -/
def Obligations.ReadingsAct : Prop :=
  (∀ (s : State) (r : ThermalReading), r.wf = true → s.chip.now % 125000 = 0 → s.chip.pkg.power = .running →
    ∃ t : State, exec (.thermalReading r) s = .next t ∧
      (∀ i, i < 20 → (t.chip.stack i).temp = r.stack.getD i 0 ∧ (t.chip.stack i).band = tempBand (r.stack.getD i 0)) ∧
      (tripOf r = none → t.chip.pkg = s.chip.pkg) ∧
      (tripOf r ≠ none → t.chip.pkg = { s.chip.pkg with tripLatch := true })) ∧
  (∀ s : State, s.pending = [] → s.ripe = none → s.chip.clocked = true → s.chip.pkg.tripLatch = true →
    step s = .next (inState s { s.chip with pkg := { s.chip.pkg with power := .stopped } })) ∧
  (∀ (s : State) (r : PowerReading), r.wf = true → s.chip.pkg.power = .running → s.chip.telem.start < s.chip.now →
    s.chip.now % s.chip.telem.nextInterval = 0 →
    ∃ t : State, exec (.telemetryIntervalEnd r) s = .next t ∧ t.chip.telem.interval = s.chip.telem.nextInterval ∧
      t.chip.telem.start = s.chip.now ∧ t.chip.telem.lastPower = r.package ∧ t.chip.telem.lastDie = r.die ∧
      t.chip.telem.runMax = s.chip.telem.nextMax ∧ t.chip.telem.nextMax = List.replicate 8 (-32768))

/-- The fault that an uncorrectable error of an on-chip memory is (Table 11.10). -/
def Sys2Proof.Claims.scrubCause : OnChip → Option FaultEvent
  | .locketRow bank row => some ⟨0x01, bank / 4, bank % 4, row⟩
  | .casketClean _ => none
  | .casketDirty f slice => some ⟨0x07, f, 0, slice⟩
  | .tableStore p pos => some ⟨0x03, p, 0, pos⟩
  | .syncStore p obj => some ⟨0x02, p, 0, obj⟩

/-- Whatever memory a patrol scrub has read, the command completes. A clean row changes nothing, and neither does a memory that is not
clocked; a correction is counted at its Bead or Facet; an uncorrectable error is found as the fault of Table 11.10, and of a clean line
of a Casket, which is refetched, there is none (R397, R398). -/
def Sys2Proof.Claims.OnChipErrorsAct : Prop :=
  (∀ (s : State) (m : OnChip), m.wf = true →
    exec (.locketPatrolScrub m .clean) s = .next s ∧
    (s.chip.scrubbable m = false → ∀ r, exec (.locketPatrolScrub m r) s = .next s) ∧
    (s.chip.scrubbable m = true → exec (.locketPatrolScrub m .uncorrectable) s =
      .next (inState s (match scrubCause m with
        | some f => s.chip.hwFound f
        | none => s.chip)))) ∧
  (∀ (s : State) (bank row : Nat), bank < 2400 → row < 8192 → s.chip.scrubbable (.locketRow bank row) = true →
    exec (.locketPatrolScrub (.locketRow bank row) .corrected) s = .next (inState s (s.chip.updBead (bank / 4) fun b =>
      { b with locketCorrected := satAdd u32max b.locketCorrected 1 }))) ∧
  (∀ (s : State) (f slice : Nat) (m : OnChip), isFacet f = true → slice < 96 → (m = .casketClean f ∨ m = .casketDirty f slice) →
    s.chip.scrubbable m = true →
    exec (.locketPatrolScrub m .corrected) s = .next (inState s (s.chip.updFacet f fun x =>
      { x with casketCorrected := satAdd u32max x.casketCorrected 1 }))) ∧
  (∀ (s : State) (p n : Nat) (m : OnChip), isBead p = true → m.wf = true → (m = .tableStore p n ∨ m = .syncStore p n) →
    exec (.locketPatrolScrub m .corrected) s = .next s)

/-- One fc of a bank of a Bead that is awake: the owner of a port gets it, the lowest other requester a free one, who loses retries;
accesses that do not meet in a row land by themselves, and where a write meets a read or a write in its row, what R362 to R364 say
holds: the writes land, port 1's last, and the port that is replayed returns the row as they leave it (R38, R39, R361 to R364). -/
def Sys2Proof.Claims.BankRequestsAct : Prop :=
  (∀ (s : State) (p bank : Nat) (r0 r1 : LockReq), isBead p = true → bank < 4 → LockReq.wf r0 = true → LockReq.wf r1 = true →
    s.chip.pkg.power = .running → (s.chip.facet (physFacet p)).retention = 0 →
    (∀ e ∈ (s.chip.bead p).retry, e.1 ≠ bank) →
    locketGrant bank [r0.who, r1.who] = (some r0.who, some r1.who) → r0.who ≠ r1.who →
    ∃ c t : Chip, exec (.bankCollisionReplay p bank [r0, r1]) s = .next (inState s t) ∧
      c = (s.chip.portAccess p bank r0).portAccess p bank r1 ∧ t.locket = c.locket ∧
      (t.bead p).retry = (s.chip.bead p).retry ∧
      (rowsMeet r0 r1 = true → r0.write.isSome = true → (t.bead p).replay = some
        { bank, row := r1.row, port := 1, data := c.lockRead p bank (64 * r1.row) (64 * r1.rows) }) ∧
      (rowsMeet r0 r1 = true → r0.write = none → r1.write.isSome = true → (t.bead p).replay = some
        { bank, row := r0.row, port := 0, data := c.lockRead p bank (64 * r0.row) (64 * r0.rows) }) ∧
      (t.bead p).busyWarnings =
        if rowsMeet r0 r1 = true ∧ r0.write.isSome ≠ r1.write.isSome ∧ writeFirst s.unit s.chip p bank = false
        then modAt (s.chip.bead p).busyWarnings bank (satAdd u32max · 1) else (s.chip.bead p).busyWarnings) ∧
  (∀ (s : State) (p bank : Nat) (r : LockReq), isBead p = true → bank < 3 → LockReq.wf r = true → r.who ≠ bank →
    s.chip.pkg.power = .running → (s.chip.facet (physFacet p)).retention = 0 → (s.chip.bead p).retry = [] →
    ∀ r0 r1 : LockReq, LockReq.wf r0 = true → LockReq.wf r1 = true → r0.who = bank → r1.who < r.who → r1.who ≠ bank →
      ∃ t : Chip, exec (.bankCollisionReplay p bank [r, r0, r1]) s = .next (inState s t) ∧
        (t.bead p).retry = [(bank, r)] ∧
        t.locket = ((s.chip.portAccess p bank r0).portAccess p bank r1).locket)

/-! ## Stacked memory -/

/-- A per-bank refresh that is due is issued, or owed, eight at most, while a slice holds the pseudo-channel (R415). A stack
whose temperature has moved 8 degrees, or with a low eye, begins to retrain; a slice that is wanted and free holds its
pseudo-channel, and its end lets it run again with nothing owed (R413, R426 to R428). -/
def Obligations.RefreshAndSlicesRun : Prop :=
  (∀ (s : State) (pc bank : Nat), isPc pc = true → bank < 64 →
    refreshQuarters (s.chip.stack (pcStack pc)).band ≤ 4 * (s.chip.now - (s.chip.pcSt pc).refreshed.get 0 bank) →
    (s.chip.pcSt pc).st ≠ 3 → (s.chip.stack (pcStack pc)).st < 2 → s.chip.pkg.power = .running →
    ∃ t : State, exec (.refresh pc bank) s = .next t ∧ (t.chip.pcSt pc).refreshed.get 0 bank = s.chip.now ∧
      (t.chip.pcSt pc).owed = if (s.chip.pcSt pc).st = 1
        then (s.chip.pcSt pc).owed.put bank (min 8 ((s.chip.pcSt pc).owed.get 0 bank + 1)) else (s.chip.pcSt pc).owed) ∧
  (∀ (s : State) (st : Nat) (low : Bool), isStack st = true → (s.chip.stack st).st = 0 → (s.chip.stack st).retrain = none →
    (low = true ∨ 128 ≤ ((s.chip.stack st).temp - (s.chip.stack st).baseTemp).natAbs) →
    ∃ t : State, exec (.retrainStart st low) s = .next t ∧ (t.chip.stack st).st = 1 ∧
      (t.chip.stack st).retrain = some (0, 0) ∧ (t.chip.stack st).baseTemp = (s.chip.stack st).temp) ∧
  (∀ (s : State) (pc : Nat) (k : SliceKind), isPc pc = true → k.wf = true → s.chip.sliceFree pc = true →
    s.chip.sliceWanted pc k = true →
    ∃ t : State, exec (.sliceBegin pc k) s = .next t ∧ (t.chip.pcSt pc).st = 1 ∧
      (t.chip.stack (pcStack pc)).slice = some { pc := pc, start := s.chip.now, kind := k }) ∧
  (∀ (s : State) (pc : Nat) (ok : Bool) (k : Slice), isPc pc = true → (s.chip.stack (pcStack pc)).slice = some k →
    k.pc = pc → ∃ t : State, exec (.sliceEnd pc ok) s = .next t ∧ (t.chip.pcSt pc).st = 0 ∧ (t.chip.pcSt pc).owed = [] ∧
      (t.chip.stack (pcStack pc)).slice = none ∧ (t.chip.stack (pcStack pc)).lastSliceEnd = some s.chip.now)

/-- A row without errors and without poison is written back as it is (R422). -/
def Sys2Proof.Claims.CleanRowsStand : Prop :=
  ∀ (c : Chip) (pc bank row : Nat),
    (∀ i, i < 32 → c.poisonedAt ⟨pc, row * 256 + bank * 4 + i / 8, 32 * (i % 8)⟩ = false) →
    c.writeBackRow pc bank row [] = c

/-- A soft repair completes whatever row and errors it is given. In its slice, a row that needs repair and can be repaired is read and
written back, takes a spare row of its bank and enters the repair list; its error count goes and it needs repair no longer. Any other
row is left as it is (R422, R423, R425). -/
def Sys2Proof.Claims.RowsAreRepaired : Prop :=
  ∀ (s : State) (pc bank row : Nat) (errs : List BurstError) (r : RowRef), isPc pc = true → bank < 64 →
    row < 32768 → errs.all (BurstError.wf 32) = true → r = { pc := pc % 32, bank := bank, row := row } →
    (∀ k, (s.chip.stack (pcStack pc)).slice = some k → k.pc = pc → k.kind = .repair bank row →
      r ∈ (s.chip.stack (pcStack pc)).needRepair → (s.chip.stack (pcStack pc)).repairable s.unit r = true →
      exec (.softRepair pc ⟨bank, row⟩ errs) s = .next (inState s
        ((s.chip.writeBackRow pc bank row errs).updStack (pcStack pc) fun x =>
          { x with needRepair := x.needRepair.filter (· != r),
                   repairList := if x.repairList.contains r then x.repairList else x.repairList ++ [r],
                   rowErrs := x.rowErrs.filter (·.1 != r),
                   sparesUsed := ((pc % 32, bank), x.used r + 1) :: x.sparesUsed.filter (·.1 != (pc % 32, bank)) }))) ∧
    ((∀ k, (s.chip.stack (pcStack pc)).slice = some k → k.pc ≠ pc ∨ k.kind ≠ .repair bank row) ∨
      r ∉ (s.chip.stack (pcStack pc)).needRepair ∨ (s.chip.stack (pcStack pc)).repairable s.unit r = false →
      exec (.softRepair pc ⟨bank, row⟩ errs) s = .next s)

/-- A patrol scrub of stacked memory completes whatever it meets: of a pseudo-channel whose reads are made now it counts the granule
and meets the errors of its eight bursts in turn, and of one whose requests wait it does nothing yet. One that meets an error on one pin of
one burst, where none is poisoned, counts a correction (R417, R418, R421, R427, R437). -/
def Sys2Proof.Claims.ScrubsCount : Prop :=
  (∀ (s : State) (pc granule : Nat) (errs : List BurstError), isPc pc = true → granule < 8388608 →
    errs.all (BurstError.wf 8) = true →
    (s.chip.readsNow pc = true → exec (.hbmPatrolScrub pc granule errs) s = .next (inState s
      (iter 8 (fun i c => c.meetErrors ⟨pc, granule, 32 * i⟩ (errorsOf errs i) [] .scrub)
        (s.chip.updPc pc fun x => { x with scrubbed := x.scrubbed + 1 })))) ∧
    (s.chip.readsNow pc = false → exec (.hbmPatrolScrub pc granule errs) s = .next s)) ∧
  (∀ (s : State) (pc granule : Nat) (e : BurstError), isPc pc = true → granule < 8388608 → e.wf 8 = true → e.error.beats ≠ 0 →
    s.chip.readsNow pc = true → (∀ i, i < 8 → s.chip.poisonedAt ⟨pc, granule, 32 * i⟩ = false) →
    ∃ t : State, exec (.hbmPatrolScrub pc granule [e]) s = .next t ∧
      (t.chip.pcSt pc).scrubbed = (s.chip.pcSt pc).scrubbed + 1 ∧
      (t.chip.pcSt pc).corrected = satAdd u32max (s.chip.pcSt pc).corrected 1 ∧
      (t.chip.pcSt pc).uncorrectable = (s.chip.pcSt pc).uncorrectable) ∧
  (∀ (s : State) (pc granule : Nat), isPc pc = true → granule < 8388608 → s.chip.readsNow pc = true →
    (∀ i, i < 8 → s.chip.poisonedAt ⟨pc, granule, 32 * i⟩ = false) →
    exec (.hbmPatrolScrub pc granule []) s =
      .next (inState s (s.chip.updPc pc fun x => { x with scrubbed := x.scrubbed + 1 })))

/-- Patrol scrubs of the on-chip memories and of stacked memory, one fc of a Locket bank and soft repairs complete, and what each leaves
(R39, R361 to R365, R397, R398, R417, R418, R421 to R425). -/
def Obligations.ErrorsScrubsAndRepairsAct : Prop :=
  OnChipErrorsAct ∧ BankRequestsAct ∧ CleanRowsStand ∧ RowsAreRepaired ∧ ScrubsCount

/-- The code of a burst corrects what is wrong on one pin and detects what is wrong on two or three; a poisoned burst is
uncorrectable whatever its pins do (R417, R419). -/
def Sys2Proof.Claims.CodeCorrects : Prop :=
  ∀ (c : Chip) (p : Place),
    (c.poisonedAt p = true → ∀ errs, c.readBurst p errs = .bad) ∧
    (c.poisonedAt p = false →
      c.readBurst p [] = .clean ∧
      (∀ e : PinError, e.wf = true → e.beats ≠ 0 → c.readBurst p [e] = .corrected (c.burstBytes p)) ∧
      (∀ e f : PinError, e.wf = true → f.wf = true → e.beats ≠ 0 → f.beats ≠ 0 → e.pin ≠ f.pin → c.readBurst p [e, f] = .bad) ∧
      (∀ e f g : PinError, e.wf = true → f.wf = true → g.wf = true → e.beats ≠ 0 → f.beats ≠ 0 → g.beats ≠ 0 →
        e.pin ≠ f.pin → e.pin ≠ g.pin → f.pin ≠ g.pin → c.readBurst p [e, f, g] = .bad))

/-- A read of a burst that is clean changes nothing; what it corrects is counted and rewritten. An uncorrectable burst is counted with its
row; a copied position is healed from its other copy, and only where both fail, or in a plain allocation, whose weights are
marked for reload, does poison reach the reader (R414, R418, R420, R678). -/
def Sys2Proof.Claims.ReadsHealOrPoison : Prop :=
  ∀ (s : State) (pc granule burst : Nat) (errs other : List PinError) (rd : Reader) (p : Place) (c : Chip), isPc pc = true →
    granule < 8388608 → burst < 8 → errs.all PinError.wf = true → other.all PinError.wf = true → rd.wf = true →
    s.chip.readsNow pc = true → p = ⟨pc, granule, 32 * burst⟩ → c = s.chip.noteRead p errs →
    (s.chip.readBurst p errs = .clean → exec (.uncorrectableRead pc granule burst ⟨errs, other⟩ rd) s = .next s) ∧
    (∀ bs, s.chip.readBurst p errs = .corrected bs → exec (.uncorrectableRead pc granule burst ⟨errs, other⟩ rd) s =
      .next (inState s ((s.chip.corrected pc granule).putBurst p bs))) ∧
    (∀ q r, s.chip.readBurst p errs = .bad → s.chip.positionOf pc granule = some (q, r) →
      (s.chip.useOf q r = .window → exec (.uncorrectableRead pc granule burst ⟨errs, other⟩ rd) s =
        .next (inState s (c.healBurst other p q r).2)) ∧
      (∀ a, s.chip.useOf q r = .mirrored a → exec (.uncorrectableRead pc granule burst ⟨errs, other⟩ rd) s =
        .next (inState s (if (c.healBurst other p q r).1 then (c.healBurst other p q r).2
          else (c.healBurst other p q r).2.deliverPoison p a rd))) ∧
      (∀ a, s.chip.useOf q r = .plain a → exec (.uncorrectableRead pc granule burst ⟨errs, other⟩ rd) s =
        .next (inState s (((c.poisonBurst p.burst).markWeights fun b => b.id = a.id).deliverPoison p a rd))))

/-- Errors of stacked memory are corrected, healed or poisoned (R414, R417 to R420, R678). -/
def Obligations.UncorrectableReadsHealOrPoison : Prop :=
  CodeCorrects ∧ ReadsHealOrPoison

/-- A pseudo-channel for which a case of R429 holds is lost; at the barrier due, once no slice is in progress, what waits for the first
one is cancelled and its detour is installed, its Casket lines go and the map epoch rises; a re-mirror is done once (R429, R432, R434,
R435). -/
def Sys2Proof.Claims.PseudoChannelsAreLost : Prop :=
  (∀ (s : State) (pc reason : Nat), isPc pc = true → s.chip.lossDue s.unit pc reason = true →
    exec (.pcLoss pc reason) s = .next (inState s (s.chip.losePc pc reason)) ∧
    ((s.chip.stack (pcStack pc)).st < 2 → (s.chip.pcSt pc).st < 2 → (s.chip.stack (pcStack pc)).detour = none →
      (∀ e ∈ s.chip.mem.epochDue, pcStack e.1 ≠ pcStack pc) →
      ((s.chip.losePc pc reason).pcSt pc).st = 2 ∧
      (s.chip.losePc pc reason).mem.epochDue = s.chip.mem.epochDue ++ [(pc, roundUp (s.chip.now + 4) 16)])) ∧
  (∀ (s : State) (pc t : Nat) (rest : List (Nat × Nat)), s.chip.mem.epochDue = (pc, t) :: rest → t ≤ s.chip.now →
    (∀ e ∈ s.chip.stackTab, e.2.slice = none) →
    ∃ n : State, exec .mapEpochBarrier s = .next n ∧ (n.chip.stack (pcStack pc)).detour = some pc ∧
      (n.chip.stack (pcStack pc)).written = [] ∧ (n.chip.stack (pcStack pc)).remirrored = false ∧
      (n.chip.pcSt pc).st = 3 ∧ (n.chip.pcSt pc).queue = [] ∧ n.chip.mem.epochDue = rest ∧
      n.chip.mem.mapEpoch = (s.chip.mem.mapEpoch + 1) % 2 ^ 32 ∧
      (∀ l ∈ (n.chip.facet (pcFacet pc)).dirty, l.line / 2 ^ 24 ≠ pc)) ∧
  (∀ (s : State) (st pc : Nat), isStack st = true → (s.chip.stack st).detour = some pc →
    (s.chip.stack st).remirrored = false → s.chip.remirrorReady st = true →
    ∃ t : State, exec (.remirror st) s = .next t ∧ (t.chip.stack st).remirrored = true)

/-- A stack whose controller fails is fenced with its contents kept; it returns within 31,250 tk, what has waited for it is served
then, and from 31,250 tk on its data are lost and the device is in fault (R44, R427, R437, R438). -/
def Sys2Proof.Claims.StacksFenceAndReturn : Prop :=
  (∀ (s : State) (st detail : Nat), isStack st = true → detail < 2 ^ 32 → s.chip.alive = true →
    (s.chip.stack st).st < 2 →
    ∃ t : State, exec (.stackFault st detail) s = .next t ∧ (t.chip.stack st).st = 2 ∧
      (t.chip.stack st).fenceStamp = s.chip.now ∧ (t.chip.stack st).slice = none ∧ t.chip.hbm = s.chip.hbm) ∧
  (∀ (s : State) (st : Nat), isStack st = true → (s.chip.stack st).st = 2 →
    s.chip.now < (s.chip.stack st).fenceStamp + 31250 →
    ∃ t : State, exec (.stackReturn st) s = .next t ∧ (t.chip.stack st).st = 0 ∧
      (∀ i, i < 32 → (t.chip.pcSt (32 * st + i)).queue = []) ∧
      ((∀ i, i < 32 → (s.chip.pcSt (32 * st + i)).queue = []) → t.chip.hbm = s.chip.hbm)) ∧
  (∀ (s : State) (st : Nat), isStack st = true → (s.chip.stack st).st = 2 →
    (s.chip.stack st).fenceStamp + 31250 ≤ s.chip.now →
    ∃ t : State, exec (.stackReturnTimeout st) s = .next t ∧ t.chip.pkg.deviceFault = true ∧
      t = inState s ((s.chip.log (s.chip.domainRec 3 (s.chip.stack st).fenceRec domStack (dieFacet (stackFacet st)) st)).stackLost
        st 0x0D))

/-- Pseudo-channels and stacks are lost, detoured, fenced and returned (R429, R432, R434, R435, R437, R438). -/
def Obligations.StackedMemoryIsLostAndReturns : Prop :=
  PseudoChannelsAreLost ∧ StacksFenceAndReturn

/-! ## Heads -/

/-- A host read inside the window goes out line by line, from a readable copy or with poison, and the head is recorded as a
holder; a host write invalidates the other heads' lines, waits for a head that cannot answer, reaches both copies, or their queues,
and is answered, but while the part is in a warm reset or in device fault it is only answered (R411, R412, R427, R536, R547). -/
def Sys2Proof.Claims.WindowAccessesComplete : Prop :=
  (∀ (s : State) (h addr len x : Nat), isHead h = true → addr < 2 ^ 64 →
    s.chip.takesMem s.otp.production h = true → s.chip.windowAt h addr = some x → x + len ≤ 2 ^ 34 →
    exec (.hostWindowRead h addr len) s = .next (inState s
      ((linePieces x len).foldl (fun c e => c.serveLine h e.1 e.2) s.chip))) ∧
  (∀ (s : State) (h addr x : Nat) (bs : List Byte), isHead h = true → addr < 2 ^ 64 →
    s.chip.takesMem s.otp.production h = true → s.chip.windowAt h addr = some x → x + bs.length ≤ 2 ^ 34 →
    (s.chip.pkg.devState < 2 → s.chip.biWaits (some h) x bs.length = true →
      ∃ c : Chip, c = s.chip.backInvalidate (some h) x bs.length ∧ exec (.hostWindowWrite h addr bs) s = .next (inState s
        { c with mem := { c.mem with biWrites := c.mem.biWrites ++ [{ head := some h, x := x, bytes := bs }] } })) ∧
    (s.chip.pkg.devState < 2 → s.chip.biWaits (some h) x bs.length = false → exec (.hostWindowWrite h addr bs) s = .next (inState s
      ((s.chip.backInvalidate (some h) x bs.length).hostWindowStore h x bs)) ∧
      ((∀ k, k < 2 → (s.chip.backInvalidate (some h) x bs.length).windowWaits k x bs.length 0 = []) →
        exec (.hostWindowWrite h addr bs) s = .next (inState s
          (((s.chip.backInvalidate (some h) x bs.length).windowWrite x bs).send (.windowDone h))))) ∧
    (2 ≤ s.chip.pkg.devState →
      exec (.hostWindowWrite h addr bs) s = .next (inState s (s.chip.send (.windowDone h))))) ∧
  (∀ (c : Chip) (h x n : Nat), (∀ i, i < n → (c.windowByte (x + i)).isSome = true) →
    ∃ bs d : _, c.serveLine h x n = (d : Chip).send (.windowData h bs false) ∧ d = (c.hold (x / 64) h).healWindow x n ∧
      bs.length = n ∧ ∀ i, i < n → c.windowByte (x + i) = bs[i]?)

/-- A snoop of a line that the device cache holds writes it to the host, drops it and answers with it; of another line it
answers a miss. A write of the join cookie sets it; the decoder's commitment and an established IDE stream are
the head's, but in a warm reset and in device fault their requests are completed with Completer Abort; a failed IDE check closes the
stream and is counted and reported (R532, R535, R537, R539, R543, R547, R611). -/
def Sys2Proof.Claims.HeadEventsComplete : Prop :=
  (∀ (s : State) (h line : Nat), isHead h = true → line < 2 ^ 58 → s.chip.pkg.power = .running →
    s.chip.headUp h = true → s.chip.ioClosed s.otp.production h = false →
    ((s.chip.head h).cache.lookup line = none →
      exec (.hostSnoop h line) s = .next (inState s (s.chip.send (.snoop h line none)))) ∧
    (∀ bs, (s.chip.head h).cache.lookup line = some bs → s.chip.pkg.devState < 2 → h < s.chip.heads.length →
      ∃ t : State, exec (.hostSnoop h line) s = .next t ∧ t.chip.host = s.chip.host.writeN (64 * line) bs ∧
        t.chip.sent = s.chip.sent ++ [.snoop h line (some bs)] ∧ (t.chip.head h).cache.lookup line = none)) ∧
  (∀ (s : State) (h v : Nat), isHead h = true → v < 2 ^ 32 → s.chip.headUp h = true →
    s.chip.ioClosed s.otp.production h = false →
    ∃ t : State, exec (.joinCookieWrite h 4 v) s = .next t ∧ t.chip.pkg = { s.chip.pkg with joinCookie := v } ∧
      t.chip.heads = s.chip.heads) ∧
  (∀ (s : State) (h base : Nat), (Instr.hdmDecoderCommit h base).wf = true → s.chip.headUp h = true →
    exec (.hdmDecoderCommit h base) s = .next (inState s
      (if 2 ≤ s.chip.pkg.devState then s.chip.send (.completerAbort h)
      else s.chip.updHead h fun x => { x with hdmBase := base, hdmCommitted := true }))) ∧
  (∀ (s : State) (h : Nat), isHead h = true → s.chip.headUp h = true →
    (2 ≤ s.chip.pkg.devState → exec (.ideKmExchange h) s = .next (inState s (s.chip.send (.completerAbort h)))) ∧
    (s.canSign = true → s.chip.pkg.devState < 2 →
      exec (.ideKmExchange h) s = .next (inState s ((s.chip.updHead h fun x => { x with ide := 1 }).releaseBi))) ∧
    ((s.chip.head h).ide = 1 → exec (.ideCheckFail h) s = .next (inState s
      ((s.chip.updHead h fun x => { x with ide := 2, ideFail := satAdd u32max x.ideFail 1,
                                            aerNonFatal := x.aerNonFatal + 1 }).send (.aer h false)))))

/-- BAR0 at a head in L0: a page holds the identity of the part and of its partner head, the state and the join cookie, as Table 16.3
places them, and is read in every state of the device; what else BAR0 shows is read but in a warm reset or device fault, and reserved
offsets read 0 (R531, R532, R538, R547). -/
def Sys2Proof.Claims.BarsAreRead : Prop :=
  (∀ (s : State) (h off n : Nat), s.chip.headUp h = true → off + n ≤ 4096 →
    (s.chip.ioClosed s.otp.production h = false ∨ s.chip.pkg.bootPhase = true) →
    s.barRead h off n = .data ((List.range n).map fun i => (s.identityPage h).getD (off + i) 0)) ∧
  (∀ (s : State) (h off n : Nat), s.chip.headUp h = true → s.chip.ioClosed s.otp.production h = false → 4096 < off + n →
    s.barRead h off n = (if 2 ≤ s.chip.pkg.devState then .abort else .data ((List.range n).map fun i => s.barByte h (off + i)))) ∧
  (∀ (s : State) (h off n : Nat), s.chip.headUp h = true → s.chip.ioClosed s.otp.production h = true →
    (s.chip.pkg.bootPhase = false ∨ 4096 < off + n) → s.barRead h off n = .unsupported) ∧
  (∀ (s : State) (h w : Nat), s.unit.hallmark < 2 ^ 64 → h < 2 → s.chip.partner h < 4 → s.chip.pkg.devState < 16 →
    s.chip.pkg.joinCookie < 2 ^ 32 → w = leNat ((s.identityPage h).take 64) → (s.identityPage h).length = 4096 ∧
    fld w 511 448 = s.unit.hallmark ∧ fld w 447 446 = h ∧ fld w 445 444 = s.chip.partner h ∧
    fld w 443 440 = s.chip.pkg.devState ∧ fld w 415 384 = s.chip.pkg.joinCookie) ∧
  (∀ (s : State) (h off : Nat), (0x4000 ≤ off ∧ off < 0x100000) ∨ (0x180000 ≤ off ∧ off < barBytes) → s.barByte h off = 0)

/-- A head in service whose turn it is comes to L0 at its width and rate, its PERST_N is released, and the vectors that waited
for it are signalled; an I3C port takes its dynamic address (R534, R666, R667). -/
def Sys2Proof.Claims.LinksComeUp : Prop :=
  (∀ (s : State) (h width rate : Nat), (Instr.linkUp h width rate).wf = true → h < s.chip.heads.length →
    s.chip.alive = true → (s.chip.clasp h).svc = .inService → (s.chip.head h).link < 2 → s.chip.mayTrain h = true →
    ∃ t : State, exec (.linkUp h width rate) s = .next t ∧ (t.chip.head h).link = 2 ∧ (t.chip.head h).width = width ∧
      (t.chip.head h).rate = rate ∧ (t.chip.head h).msixPending = [] ∧
      t.chip.pkg = { s.chip.pkg with perstLow := s.chip.pkg.perstLow.set h false } ∧
      ∀ v ∈ (s.chip.head h).msixPending, .msix h v ∈ t.chip.sent) ∧
  (∀ (s : State) (port addr : Nat), (Instr.i3cDynamicAddressAssignment port addr).wf = true → s.chip.alive = true →
    (s.chip.clasp port).svc = .inService →
    ∃ t : State, exec (.i3cDynamicAddressAssignment port addr) s = .next t ∧
      t.chip.pkg = { s.chip.pkg with i3cDynamic := s.chip.pkg.i3cDynamic.set port (some addr) })

/-- Heads carry window accesses, snoops, register reads and writes, and their links come up (R411, R412, R531 to R547, R666). -/
def Obligations.HeadsCarryTheirTraffic : Prop :=
  WindowAccessesComplete ∧ HeadEventsComplete ∧ BarsAreRead ∧ LinksComeUp

/-! ## Resets, boot and security -/

/-- COLD_RESET, but of a part that a thermal trip stops or has stopped, ends every job, session and queue, clears the Beads and the memories,
sets the tick to 0, drops what the sequencer holds, but for the OTP bits that counted tampers among it still burn, and keeps host
memory and the trip latch; the package's release samples the straps and runs the ROM with its strapped primary; POWER_DOWN leaves the
OTP bits and the unit's facts (R25, R502, R529, R582, R665, R670, R674). -/
def Sys2Proof.Claims.ColdResetsComplete : Prop :=
  (∀ s : State, s.chip.pkg.power ≠ .stopped → s.chip.pkg.tripLatch = false → ∃ t : State, exec .coldReset s = .next t ∧ t.sec = SecSt.fresh ∧
    t.otp = { s.otp with tamperCount := min 32 (s.otp.tamperCount + s.tampersHeld) } ∧ t.unit = s.unit ∧
    t.pending = s.pending ∧ t.inbox = [] ∧ t.chip.pkg.power = .inReset ∧ t.chip.tick = Chip.reset.tick ∧
    t.chip.beads = [] ∧ t.chip.jobs = [] ∧ t.chip.queues = [] ∧ t.chip.sessions = [] ∧ t.chip.locket = [] ∧ t.chip.hbm = [] ∧
    t.chip.host = s.chip.host ∧ t.chip.pkg.tripLatch = s.chip.pkg.tripLatch) ∧
  (∀ s : State, s.chip.pkg.power = .stopped ∨ s.chip.pkg.tripLatch = true → exec .coldReset s = .next s) ∧
  (∀ (s : State) (straps : Straps), straps.wf = true → s.chip.pkg.power = .inReset →
    ∃ t : State, exec (.pkgResetDeassert straps) s = .next t ∧ t.chip.pkg.power = .rom ∧ t.chip.pkg.straps = straps ∧
      t.chip.tick.primary = straps.head ∧ t.chip.tick.count = s.chip.tick.count ∧ t.otp = s.otp) ∧
  (∀ s : State, ∃ t : State, exec .powerDown s = .next t ∧ t.otp = s.otp ∧ t.unit = s.unit ∧ t.sec = SecSt.fresh ∧
    t.inbox = [] ∧ t.chip.pkg.power = .off ∧ t.chip.pkg.tripLatch = false ∧ t.chip.hbm = [])

/-- A warm reset that was asked for runs and loads Pave again; it clears the Lockets, table stores, scratch and the counters
that start anew; a fenced Clasp returns with it if it passes its self-test; asking for one, by a page write of 1, marks it (R518,
R547, R548, R587, Table 20.5). -/
def Sys2Proof.Claims.WarmResetsComplete : Prop :=
  (∀ (s : State) (h : Nat), isHead h = true → s.chip.headUp h = true → s.chip.ioClosed s.otp.production h = false →
    s.chip.pkg.power = .running →
    exec (.warmResetRequest (.bar h 4 1)) s = .next (inState s
      { s.chip with pkg := { s.chip.pkg with warmAsked := true } })) ∧
  (∀ s : State, s.chip.pkg.warmAsked = true → s.chip.pkg.power = .running →
    exec .warmReset s = .next (inState s ((s.chip.announce 2).warmBody s.unit)).warmLoad) ∧
  (∀ (c : Chip) (u : UnitFacts), (c.warmBody u).locket = [] ∧ (c.warmBody u).tables = [] ∧ (c.warmBody u).scratch = [] ∧
    (c.warmBody u).raised = []) ∧
  (∀ (c : Chip) (u : UnitFacts), (∀ e ∈ (c.warmBody u).pcs, e.2.corrected = 0 ∧ e.2.uncorrectable = 0) ∧
    (∀ e ∈ (c.warmBody u).beads, e.2.fences = 0 ∧ e.2.locketCorrected = 0 ∧ e.2.replay = none)) ∧
  (∀ (c : Chip) (u : UnitFacts) (n : Nat), n < 2 → n < c.clasps.length → (c.clasp n).svc ≠ .inService →
    ((c.claspBack u n).clasp n).svc = (if u.badClasps.contains n then (c.clasp n).svc else .inService))

/-- PERST_N of a head takes its link down, with its IDE stream and its cache, and no job; a Facet's reset clears its Lockets and
table stores, drops its dirty lines, and holds the Facet in reset (R36, R512, R666, R667). -/
def Sys2Proof.Claims.HeadAndFacetResetsComplete : Prop :=
  (∀ (s : State) (h : Nat), isHead h = true → h < s.chip.heads.length → s.chip.alive = true →
    (s.chip.clasp h).svc = .inService →
    ∃ t : State, exec (.headReset h) s = .next t ∧ (t.chip.head h).link = 0 ∧ (t.chip.head h).ide = 0 ∧
      (t.chip.head h).perstUp = s.chip.now ∧ (t.chip.head h).cache = [] ∧ t.chip.jobs = s.chip.jobs) ∧
  (∀ (s : State) (f : Nat), isFacet f = true → s.chip.pkg.power = .running → (s.chip.facet f).svc = .inService →
    (s.chip.facet f).inReset = false →
    ∃ t : State, exec (.facetReset f) s = .next t ∧ (t.chip.facet f).inReset = true ∧ (t.chip.facet f).dirty = [] ∧
      (∀ a, lockKey (120 * f) 0 0 ≤ a → a < lockKey (120 * f + 120) 0 0 → Mem.read t.chip.locket a = 0) ∧
      (∀ a, tableKey (120 * f) 0 0 ≤ a → a < tableKey (120 * f + 120) 0 0 → Mem.read t.chip.tables a = 0))

/-- Cold, warm, head and Facet resets complete. -/
def Obligations.ResetsComplete : Prop :=
  ColdResetsComplete ∧ WarmResetsComplete ∧ HeadAndFacetResetsComplete

/-- PAVE_READY ends the boot: the part runs, device_state is 1 unless the first training loses a stack, every die has its fused voltage,
and Bezel commits the version and the revocations that the image asks for, never its own slot's (R431, R585, R586, R659). -/
def Sys2Proof.Claims.BootEndsInService : Prop :=
  ∀ s : State, s.chip.pkg.power = .booting → s.sec.identityState ≠ 1 → s.sec.svnDone = false →
    ∃ t : State, exec .paveReady s = .next t ∧ t.chip.pkg.power = .running ∧
      (s.unit.deadPcs = [] → t.chip.pkg.devState = 1) ∧ t.chip.pkg.bootPhase = false ∧ t.chip.pkg.avs = s.unit.fusedMv ∧ t.sec.svnDone = true ∧
      t.otp.svn = (if s.sec.commitSvn then max s.otp.svn s.sec.imageSvn else s.otp.svn) ∧
      (∀ i, t.otp.revoked.testBit i =
        (s.otp.revoked.testBit i || (s.sec.revokeMask.testBit i && decide (i ≠ s.sec.keySlot))))

/-- An alias tree is made for a ready identity whose life cycle signs, at first and when half of the tree in use is spent; then
what waited is served. An offer falls after 125,000,000 tk (R596 to R598, R648). -/
def Sys2Proof.Claims.IdentityGoesOn : Prop :=
  (∀ s : State, s.chip.pkg.power = .running → s.sec.identityState = 0 → s.sec.keysErased = false →
    s.otp.signs = true →
    (s.sec.treesReady = 0 ∨ (s.sec.treesReady = 1 ∧ 16384 ≤ s.sec.lmsNext)) →
    exec .aliasTreeGenerate s = .next
      ({ s with sec := { s.sec with treesReady := s.sec.treesReady + 1 } } : State).serveWaiting) ∧
  (∀ (s : State) (n : Nat), s.chip.mailbox.offered = some n → n + 125000000 ≤ s.chip.now →
    ∃ t : State, exec .sessionOfferExpiry s = .next t ∧ t.chip.mailbox.request = [] ∧ t.chip.mailbox.offered = none ∧
      t.chip.mailbox.offerSecret = [] ∧ t.chip.mailbox.offer = s.chip.mailbox.offer)

/-- The responder answers a request that asks for no signature at once, one for another certificate slot with an error, and
keeps one that needs a signature until it can sign; a vendor request with Creord's identifier brings the signed alias record
(R596, R600 to R602). -/
def Sys2Proof.Claims.SpdmRequestsAreServed : Prop :=
  (∀ (s : State) (path : Nat) (r : SpdmRequest), isSpdmPath path = true → s.spdmUp path = true →
    (spdmSlot r ≠ 0 → exec (.spdmRequest path r) s = .next (s.spdmError path 0x01)) ∧
    (spdmSlot r = 0 → s.spdmSigned r = none → exec (.spdmRequest path r) s = .next (s.spdmPlain path r)) ∧
    (∀ code body, spdmSlot r = 0 → s.spdmSigned r = some (code, body) → s.canSign = true →
      exec (.spdmRequest path r) s = .next (s.spdmSign path code body)) ∧
    (∀ code body, spdmSlot r = 0 → s.spdmSigned r = some (code, body) → s.sec.identityState = 1 →
      s.sec.keysErased = false → s.otp.signs = true →
      exec (.spdmRequest path r) s = .next { s with sec := { s.sec with waiting := s.sec.waiting ++ [.spdm path r] } })) ∧
  (∀ (s : State) (path registry : Nat), isSpdmPath path = true → s.spdmUp path = true →
    registry = s.unit.vendorId → s.sec.identityState = 0 → s.sec.keysErased = false →
    s.otp.signs = true → exec (.spdmVendorRequest path registry) s = .next (s.spdmOut path 0x7E (creordHss ++ s.aliasRecord))) ∧
  (∀ o : Otp, o.signs = true ↔ o.lcCount = 1 ∨ o.lcCount = 2)

/-- What Pave does passes the access filter that Bezel programs at boot: an access that Table 17.1 does not allow reads zeros, is
counted, and changes nothing else; another one has its effect (R578, R579). -/
def Sys2Proof.Claims.PaveIsFiltered : Prop :=
  (∀ (c : Chip) (n len : Nat) (r : Resource) (f : Chip → List Byte × Chip), (c.clasp n).filterOn = true → paveReaches r = false →
    c.paveAccess n r len f =
      (List.replicate len 0, c.updClasp n fun x => { x with filterDenied := satAdd u32max x.filterDenied 1 })) ∧
  (∀ (c : Chip) (n len : Nat) (r : Resource) (f : Chip → List Byte × Chip), paveReaches r = true → c.paveAccess n r len f = f c) ∧
  (∀ c : Chip, ∀ x ∈ c.programFilters.clasps, x.filterOn = true)

/-- The boot ends in service, the identity goes on, the responder answers, and Pave is filtered (R578, R579, R585, R586, R596 to R602). -/
def Obligations.BootAndResponderComplete : Prop :=
  BootEndsInService ∧ IdentityGoesOn ∧ SpdmRequestsAreServed ∧ PaveIsFiltered

/-- A tamper erases keys, layer keys, sessions and link keys, ends the IDE streams, logs the lowest sensor once with the number of sensors,
marks the part, and burns a bit when the sensor is counted (R591, R592, Table 17.7). -/
def Obligations.TamperErases : Prop :=
  ∀ (s : State) (sensors n : Nat) (rest : List Nat), sensors < 65536 →
    (List.range 14).filter (bit sensors) = n :: rest → s.chip.alive = true →
    ∃ t : State, exec (.tamper sensors) s = .next t ∧ t.sec.keysErased = true ∧ t.sec.linkKeysErased = true ∧
      t.sec.layers = none ∧ t.sec.nonce = s.sec.nonce ∧ t.sec.treesReady = 0 ∧ t.sec.waiting = [] ∧ t.chip.sessions = [] ∧ t.chip.mailbox = Mailbox.fresh ∧
      t.chip.pkg.tampered = true ∧ (∀ e ∈ t.chip.ports, e.2.linkKey = [] ∧ e.2.linkSalt = []) ∧
      (∀ h ∈ t.chip.heads, h.ide = 0) ∧ t.chip.flog.written = (s.chip.flog.written + 1) % 2 ^ 32 ∧
      (∃ r, t.chip.flog.recs.find? (s.chip.flog.written % 4096) = some r ∧ r.detail = n ∧ r.count = rest.length + 1 ∧
        r.stamp = s.chip.now) ∧
      t.otp.tamperCount = (if counted n then min 32 (s.otp.tamperCount + 1) else s.otp.tamperCount)

/-! ## Strand -/

/-- A working port's block that fails its checks is discarded with a retry request; one of a reserved type is discarded and
counted; another acknowledges, returns credits and, being the next data block, is taken. A retry request resends what is not
acknowledged; a block that is retried sixteen times without acknowledgement is a fault of the port (R551, R552, R576). -/
def Sys2Proof.Claims.StrandBlocksAreTaken : Prop :=
  (∀ (s : State) (port : Nat) (b : StrandBlock), isPort port = true → b.wf = true → (s.chip.port port).working = true →
    (b.intact = false → exec (.strandBlockReceive port b) s = .next (inState s
      ((s.chip.setPort port { s.chip.port port with discarding := true }).send
        (.strand port (blockBytes 3 0 (s.chip.port port).ackSeq 0 0 (padTo [] 2560)))))) ∧
    (b.intact = true → 5 ≤ b.type → exec (.strandBlockReceive port b) s = .next (inState s
      (s.chip.setPort port { s.chip.port port with badType := satAdd u32max (s.chip.port port).badType 1 }))) ∧
    (b.intact = true → b.type = 0 → b.seq = (s.chip.port port).rxNext → (s.chip.port port).txQueue = [] →
      ∃ t : State, exec (.strandBlockReceive port b) s = .next t ∧
        (t.chip.port port).rxNext = ((s.chip.port port).rxNext + 1) % 4096 ∧ (t.chip.port port).discarding = false ∧
        (t.chip.port port).unacked = ((s.chip.port port).acked b.ack).unacked ∧
        (t.chip.port port).credits = modAt (s.chip.port port).credits b.creditVc (· + b.credit))) ∧
  (∀ (s : State) (port ack : Nat), isPort port = true → ack < 4096 → (s.chip.port port).working = true →
    ((s.chip.port port).acked ack).unacked ≠ [] →
    ∃ (x : PortSt) (again : List TxBlock) (c : Chip), x = (s.chip.port port).acked ack ∧
      again = x.unacked.map (fun b => { b with tries := b.tries + 1 }) ∧
      c = again.foldl (fun c b => c.send (.strand port (blockBytes 0 b.seq x.ackSeq 0 0 b.payload)))
        (s.chip.setPort port { x with retries := satAdd u32max x.retries x.unacked.length, unacked := again }) ∧
      exec (.strandRetryRequest port ack) s =
        .next (inState s (if ∃ b ∈ again, 16 ≤ b.tries then c.hwFound ⟨0x10, port, 0, 0⟩ else c))) ∧
  (∀ (x : PortSt) (ack : Nat) (b : TxBlock), b ∈ (x.acked ack).unacked → b ∈ x.unacked)

/-- A message that a working port receives returns its credits and counts in its IV; one under the link key whose tag fails
counts and is a fault of the port, one under a ring key whose tag fails counts; ring data of a bound ring job waits for its slot
(R552, R555 to R557, R567). -/
def Sys2Proof.Claims.StrandMessagesAreDelivered : Prop :=
  (∀ (s : State) (port : Nat) (m : StrandMessage), isPort port = true → m.wf = true → (s.chip.port port).working = true →
    m.cls = clsControl → ∃ c t : Chip, exec (.strandMessageReceive port m) s = .next (inState s t) ∧
      c = (s.chip.returnCredits port m).setPort port
        { s.chip.port port with ivRx := modAt (s.chip.port port).ivRx 0 (· + 1) } ∧
      t = (match Config.gcmDecrypt (s.chip.port port).linkKey
          (messageIv (s.chip.port port).linkSalt ((s.chip.port port).ivRx.getD 0 0)) (receivedHeader m) m.cipher m.tag with
        | some _ => c
        | none => (c.badTag port).hwFound ⟨0x10, port, 0, 0⟩)) ∧
  (∀ (s : State) (port j : Nat) (m : StrandMessage), isPort port = true → m.wf = true →
    (s.chip.port port).working = true → m.cls = clsRingData → (s.chip.ring m.ring).enable = 1 →
    m.src = (s.chip.ring m.ring).prevPart → s.chip.ringJob m.ring = some j →
    ∃ c t : Chip, exec (.strandMessageReceive port m) s = .next (inState s t) ∧
      c = (s.chip.returnCredits port m).updRingRun m.ring (fun x => { x with ivRx := (s.chip.ringRun m.ring).ivRx + 1 }) ∧
      t = (match Config.gcmDecrypt (s.chip.ringKey m.ring).1
          (messageIv (s.chip.ringKey m.ring).2 (s.chip.ringRun m.ring).ivRx) (receivedHeader m) m.cipher m.tag with
        | some data => Chip.noteRelays { c with ringIn := c.ringIn ++
            [{ ring := m.ring, job := j, dest := m.dest, object := m.object, data := data, got := [], msg := none,
               since := none, arr := 0 }] }
        | none => c.badTag port))

/-- Strand blocks and messages are taken, counted, resent or delivered (R551 to R557, R567). -/
def Obligations.StrandBlocksAndMessagesAreTaken : Prop :=
  StrandBlocksAreTaken ∧ StrandMessagesAreDelivered

/-- A port sends its sync block at the ticks whose low 17 bits are 0; a received one is kept, the parent is chosen anew, and a
block from the parent that echoes one of ours gives half the difference of the two one-way offsets as the offset; a parent not
heard in time is replaced (R558 to R562). -/
def Obligations.StrandTimeIsKept : Prop :=
  (∀ (s : State) (port frac : Nat), isPort port = true → frac < 256 → s.chip.alive = true →
    (s.chip.port port).working = true → s.chip.now % 131072 = 0 →
    exec (.timeSyncSend port frac) s = .next (inState s (s.chip.send
      (.strand port (blockBytes 2 0 (s.chip.port port).ackSeq 0 0 (padTo (timeSyncBytes (256 * s.chip.now + frac)
        (s.chip.port port).echoTx (s.chip.port port).echoRx s.chip.refPart s.chip.depth) 2560)))))) ∧
  (∀ (s : State) (port : Nat) (b : TimeSync), isPort port = true → b.wf = true → (s.chip.port port).working = true →
    ∃ c t : Chip, exec (.timeSyncReceive port b) s = .next (inState s t) ∧
      c = (s.chip.updPort port fun x => { x with echoTx := b.tTx, echoRx := b.arrival, peerRef := b.refPart,
                                                  peerDepth := b.depth, lastSync := s.chip.now }).chooseParent ∧
      (c.strand.parent ≠ port ∨ b.echoTx = 0 → t = c) ∧
      (c.strand.parent = port → b.echoTx ≠ 0 → t = c.followParent (parentOffset b) ∧
        t.tick.measured = (((b.arrival : Int) - b.tTx) - ((b.echoRx : Int) - b.echoTx)).tdiv 2)) ∧
  (∀ (s : State), s.chip.strand.parent < 12 → s.chip.parentable s.chip.strand.parent = false →
    exec .parentTimeout s = .next (inState s s.chip.chooseParent)) ∧
  (∀ (c : Chip) (n : Nat), c.strand.timeRef ≠ 1 → c.chooseParent.strand.parent = n → n < 12 →
    c.parentable n = true ∧ c.chooseParent.strand.depth = (c.port n).peerDepth + 1 ∧
    ∀ k, k < 12 → c.parentable k = true → (c.port n).peerDepth ≤ (c.port k).peerDepth)

/-- A port of a Clasp in service trains on all its lanes or on a half: it learns its peer, and its counts start anew; on fewer
lanes it goes on training. A port fault sends a working port to retrain, at its second fault out of service; it comes back
with its intact lanes, or leaves service where they are too few (R564, R576, R577, R611). -/
def Obligations.PortsTrainAndFault : Prop :=
  (∀ (s : State) (port peer lanes st : Nat), isPort port = true → peer < 8192 → lanes < 256 →
    s.chip.pkg.power = .running → (s.chip.clasp (portClasp port)).svc = .inService → (s.chip.port port).st < 2 →
    s.chip.pkg.tampered = false → (∀ x ∈ s.chip.ringRuns, x.2.held = []) →
    (laneState lanes = none → ∃ t : State, exec (.linkTraining port peer lanes) s = .next t ∧ (t.chip.port port).st = 1) ∧
    (laneState lanes = some st → (s.chip.port port).unacked = [] → (s.chip.port port).txQueue = [] →
      ∃ t : State, exec (.linkTraining port peer lanes) s = .next t ∧ (t.chip.port port).st = st ∧
        (t.chip.port port).peer = peer ∧ (t.chip.port port).txSeq = 0 ∧ (t.chip.port port).rxNext = 0 ∧
        (t.chip.port port).ivTx = [0, 0] ∧ (t.chip.port port).ivRx = [0, 0])) ∧
  (∀ (s : State) (port lanes : Nat), isPort port = true → lanes < 256 →
    exec (.strandPortFault port lanes) s = .next (inState s (s.chip.portFault port lanes))) ∧
  (∀ (s : State) (port lanes : Nat), isPort port = true → lanes < 256 → (s.chip.port port).working = true → s.chip.jobs = [] →
    ∃ t : State, exec (.strandPortFault port lanes) s = .next t ∧
      (t.chip.port port).st = (if 1 ≤ (s.chip.port port).faults then 6 else 5) ∧
      (t.chip.port port).faults = (s.chip.port port).faults + 1 ∧
      (t.chip.port port).fenceRec = some s.chip.flog.written) ∧
  (∀ (s : State) (port intact : Nat), isPort port = true → intact < 256 → (s.chip.port port).st = 5 →
    (∀ x ∈ s.chip.ringRuns, x.2.held = []) →
    (∀ st, laneState intact = some st → (s.chip.port port).unacked = [] → (s.chip.port port).txQueue = [] →
      ∃ t : State, exec (.portRetrainComplete port intact) s = .next t ∧ (t.chip.port port).st = st ∧
        (t.chip.port port).txSeq = 0 ∧ (t.chip.port port).rxNext = 0) ∧
    (laneState intact = none → ∃ t : State, exec (.portRetrainComplete port intact) s = .next t ∧
      (t.chip.port port).st = 6 ∧ (t.chip.port port).unacked = [] ∧ (t.chip.port port).txQueue = []))

/-- COMMITTED goes round a ring of more than one part: rank 0 takes it back and sends ALL, unless it has had it back already; another
rank passes it on once it has committed too and keeps it until then; ALL is taken and goes on up to the last rank. On a ring that is not
in use, and ALL that comes back to rank 0, has no effect (R573). -/
def Sys2Proof.Claims.RingCommitsGoRound : Prop :=
  (∀ (s : State) (at_ : RingPort) (k : Nat), at_.wf = true → k < 2 ^ 32 → exec (.ringCommitted at_ k) s = .next (inState s
    (if s.chip.ringLive at_.ring = false then s.chip
    else if (s.chip.ring at_.ring).rank = 0 then
      (if k ≤ (s.chip.ringRun at_.ring).back then s.chip else s.chip.ringBack at_.ring k)
    else if k ≤ (s.chip.ringRun at_.ring).committed then s.chip.sendNext at_.ring opCommitted k 0
    else s.chip.updRingRun at_.ring fun x => { x with owed := some k }))) ∧
  (∀ (s : State) (at_ : RingPort) (k : Nat), at_.wf = true → k < 2 ^ 32 → exec (.ringAll at_ k) s = .next (inState s
    (if s.chip.ringLive at_.ring = false ∨ (s.chip.ring at_.ring).rank = 0 then s.chip
    else if (s.chip.ring at_.ring).rank + 1 < (s.chip.ring at_.ring).size then
      (s.chip.updRingRun at_.ring fun x => { x with all := max x.all k }).sendNext at_.ring opAll k 0
    else s.chip.updRingRun at_.ring fun x => { x with all := max x.all k }))) ∧
  (∀ (c : Chip) (r k : Nat), ((c.ringBack r k).ringRun r).back = max (c.ringRun r).back k ∧
    ((c.ringBack r k).ringRun r).all = max (c.ringRun r).all k)

/-- A job that FENCE reaches is fenced and held for the ring it came by, and its other rings are told (R574, R575). -/
def Sys2Proof.Claims.fencedByRing (r port : Nat) (c : Chip) (j : Nat) : Chip :=
  let d := (c.fenceCore j { domain := domPort, cause := 0x10, die := dieClasp (portClasp port), unit := port, detail := 2 ^ 31 + r }
    none none).ringHold j r
  (((d.job? j).elim [] d.jobRings).filter (· != r)).foldl (fun c q => c.ringTell j q) d

/-- A FENCE newer than the part's epoch sets the epoch, goes on in its direction, and fences the part's jobs of the ring; an old
one, or one of a ring not in use, does nothing. A RESUME of the present epoch lets the jobs that waited for it go, to resume from no
later step index than it names; at rank 0, of another epoch and on a ring not in use it does nothing. A job that has waited
125,000,000 tk ends with RESUME_LIMIT; before that, and at rank 0, the expiry does nothing (R574, R575). -/
def Sys2Proof.Claims.RingFencesGoRound : Prop :=
  (∀ (s : State) (r epoch port : Nat), isRing r = true → epoch < 2 ^ 32 → isPort port = true →
    (s.chip.ringLive r = false ∨ epoch ≤ (s.chip.ring r).epoch → exec (.ringFence r epoch port) s = .next s) ∧
    (s.chip.ringLive r = true → (s.chip.ring r).epoch < epoch →
      ∃ c d : Chip, c = (s.chip.setRing r { s.chip.ring r with epoch := epoch }).updRingRun r
          (fun x => { x with fenceStamp := some s.chip.now, owed := none }) ∧
        d = (if bit (s.chip.ring r).prevPorts port then c.sendNext r opFence 0 epoch else c.sendPrev r opFence 0 epoch) ∧
        (d.ring r).epoch = epoch ∧
        exec (.ringFence r epoch port) s = .next (inState s ((s.chip.jobsOnRing r).foldl (fencedByRing r port) d)))) ∧
  (∀ (s : State) (at_ : RingPort) (m epoch : Nat), at_.wf = true → m < 2 ^ 32 → epoch < 2 ^ 32 →
    (s.chip.ringLive at_.ring = false ∨ (s.chip.ring at_.ring).rank = 0 ∨ epoch ≠ (s.chip.ring at_.ring).epoch →
      exec (.ringResume at_ m epoch) s = .next s) ∧
    (s.chip.ringLive at_.ring = true → (s.chip.ring at_.ring).rank ≠ 0 → epoch = (s.chip.ring at_.ring).epoch →
      ∃ c : Chip, c = ((s.chip.jobsOnRing at_.ring).foldl (fun c j => c.updJob j fun x =>
          if x.ringWait.contains at_.ring then { x with ringWait := x.ringWait.filter (· != at_.ring) }.from m else x)
          s.chip).updRingRun at_.ring
            (fun x => { x with committed := m, owed := none, back := m, all := m, fenceStamp := none }) ∧
        exec (.ringResume at_ m epoch) s = .next (inState s
          (if (s.chip.ring at_.ring).rank + 1 < (s.chip.ring at_.ring).size then c.sendNext at_.ring opResume m epoch else c)))) ∧
  (∀ (s : State) (at_ : RingPort) (m j : Nat) (x : Job), at_.wf = true → m < 2 ^ 32 → (s.chip.ring at_.ring).epoch < 2 ^ 32 →
    s.chip.ringLive at_.ring = true → (s.chip.ring at_.ring).rank ≠ 0 → s.chip.jobsOnRing at_.ring = [j] →
    s.chip.job? j = some x → x.ringWait = [at_.ring] → x.ringFrom = none →
    ∃ t : State, exec (.ringResume at_ m (s.chip.ring at_.ring).epoch) s = .next t ∧
      t.chip.job? j = some { x with ringWait := [], ringFrom := some m } ∧ (t.chip.ringRun at_.ring).back = m ∧
      (t.chip.ringRun at_.ring).fenceStamp = none) ∧
  (∀ (s : State) (r : Nat), isRing r = true → exec (.ringResumeExpiry r) s = .next (inState s
    (match (s.chip.ringRun r).fenceStamp with
    | none => s.chip
    | some n =>
      if (s.chip.ring r).rank = 0 ∨ s.chip.now < n + 125000000 then s.chip
      else ((s.chip.jobsBy fun x => x.ringWait.contains r).foldl (fun c j => c.endJob j stResumeLimit) s.chip).updRingRun r
        fun x => { x with fenceStamp := none })))

/-- COMMITTED, ALL, FENCE and RESUME go round a ring (R573 to R575). -/
def Obligations.RingControlGoesRound : Prop :=
  RingCommitsGoRound ∧ RingFencesGoRound

/-! ## The parameter dictionary and MCTP control -/

/-- A request that its path takes is answered at once with what the state gives, stamped with what the sequencer has finished: a read
with its values, a describe with its description, a next with the entry above, and nothing else changes. In the ROM phase a next that
names no entry of the ranges that answer gets TARGET_RESET (R582, R615 to R618, R623, R624, R632). -/
def Sys2Proof.Claims.QueriesAreAnswered : Prop :=
  ∀ (s : State) (r : MgmtReq), r.wf = true → s.takesRequest r = true →
    (r.op = 0 → exec (.dictRead r) s = .next (inState s (s.chip.send
      (.mgmt r.path r.tag ((s.readResponse r).bytes r s.finished))))) ∧
    (r.op = 2 → exec (.dictDescribe r) s = .next (inState s (s.chip.send
      (.mgmt r.path r.tag ((s.describeResponse r).bytes r s.finished))))) ∧
    (r.op = 3 → exec (.dictNext r) s = .next (inState s (s.chip.send
      (.mgmt r.path r.tag ((s.nextResponse r).bytes r s.finished))))) ∧
    (s.chip.romPhase = false ∨ r.index / 4096 = 1 ∨ r.index / 4096 = 8 → s.nextResponse r = nextResponse r) ∧
    (s.chip.romPhase = true → r.index / 4096 ≠ 1 → r.index / 4096 ≠ 8 → (nextResponse r).status ≠ stValueRange →
      (s.nextResponse r).status = stTargetReset)

/-- A write request that its path takes, that repeats no message of its replay memory, passes checks 1 to 5 and is handled in
the part's present condition (R618, R620, R627, R633). -/
def Sys2Proof.Claims.Handled (s : State) (r : MgmtReq) (e : Entry) : Prop :=
  r.wf = true ∧ r.op = 1 ∧ s.takesRequest r = true ∧
    (s.chip.path r.path).replay.find? (fun x => x.req = reqMessage r) = none ∧ s.precheck r = 0 ∧
    findEntry r.index r.sub = some e ∧ s.handles r = true

/-- Each command that writes an entry handles it with the effect of its own row at every selected instance (R618, R627). -/
def Sys2Proof.Claims.WritesAreHandled : Prop :=
  ∀ (s : State) (r : MgmtReq) (e : Entry), Handled s r e →
    (ownWrites.contains (r.index, r.sub) = false → exec (.dictWrite r) s = .next (s.handleWrite r e (putEntry r e))) ∧
    (r.writes 0x2001 2 = true → exec (.warmResetRequest (.dict r)) s = .next (s.handleWrite r e (putWarmReset e))) ∧
    (r.writes 0x8001 3 = true → exec (.bootGo r) s = .next (s.handleWrite r e (putBootGo r e))) ∧
    (r.writes 0x8002 4 = true → exec (.bundleCommit r) s = .next (s.handleWrite r e (putBundleCommit r e))) ∧
    (r.writes 0x8003 2 = true → exec (.lcRequest r) s = .next (s.handleWrite r e (putLcRequest r e))) ∧
    (r.writes 0x8010 1 = true → exec (.sessionRequest r) s = .next (s.handleWrite r e (putSessionRequest r e))) ∧
    (r.writes 0x8010 3 = true → exec (.sessionAccept r) s = .next (s.handleWrite r e (putSessionAccept r e))) ∧
    (r.writes 0x8010 6 = true → exec (.sessionClose r) s = .next (s.handleWrite r e (putSessionClose r e))) ∧
    (r.writes 0x3002 9 = true → exec (.tableCommit r) s = .next (s.handleWrite r e (putTableCommit r e))) ∧
    (r.writes 0xB000 7 = true → exec (.queueEnable r) s = .next (s.handleWrite r e (putQueueEnable r e))) ∧
    (r.writes 0x9000 2 = true → exec (.faultLogAck r) s = .next (s.handleWrite r e (putFaultLogAck r e))) ∧
    ((r.writes 0x6000 1 = true ∨ r.writes 0x6000 2 = true) →
      exec (.strandIdentityWrite r) s = .next (s.handleWrite r e (putStrandIdentity r e))) ∧
    (r.writes 0xA000 1 = true → exec (.telemetryIntervalWrite r) s = .next (s.handleWrite r e (putTelemetryInterval r e))) ∧
    (r.writes 0x6001 1 = true → exec (.ringEntryWrite r) s = .next (s.handleWrite r e (putRingEntry r e)))

/-- A write of one instance whose domain takes it: an accepted value raises the configuration count by one, a refused one does
not; either way its response leaves and the path remembers it, so that the same message is answered alike without being
handled again (R618, R620, R634). -/
def Sys2Proof.Claims.HandledWritesCountAndRepeat : Prop :=
  (∀ (s t : State) (r : MgmtReq) (e : Entry) (put : Nat → State → Nat × State) (i st : Nat), selected r e = [i] →
    s.chip.domainStatus e i = stOK → put i s = (st, t) → isPath r.path = true → t.chip.mgmt.paths.length = 4 →
    ∃ bs : List Byte, (s.handleWrite r e put).chip.sent = t.chip.sent ++ [.mgmt r.path r.tag bs] ∧
      (s.handleWrite r e put).chip.mgmt.configCount =
        (if st = stOK then (t.chip.mgmt.configCount + 1) % 2 ^ 64 else t.chip.mgmt.configCount) ∧
      ((s.handleWrite r e put).chip.path r.path).replay.head? = some { req := reqMessage r, response := bs }) ∧
  (∀ (s : State) (r : MgmtReq) (put : Entry → Nat → State → Nat × State) (x : Replayed), s.takesRequest r = true →
    (s.chip.path r.path).replay.find? (fun x => x.req = reqMessage r) = some x →
    writeEntry r put s = inState s (s.chip.send (.mgmt r.path r.tag x.response)))

/-- Every write row is handled at its instances, counted and remembered (R618, R620, R627, R634). -/
def Obligations.WritesAreHandledOnce : Prop :=
  WritesAreHandled ∧ HandledWritesCountAndRepeat

/-- A write of one instance whose entry has taken it, which has left the state `t`: the configuration count rises, the response leaves,
and the path remembers it (R618, R620, R634). -/
def Sys2Proof.Claims.answered (s : State) (r : MgmtReq) (e : Entry) (i : Nat) (t : State) : State :=
  ((t.onChip fun c => { c with mgmt := { c.mgmt with configCount := (c.mgmt.configCount + 1) % 2 ^ 64 } }).onChip fun c =>
    c.remember r ((writeResponse r e.typ [i] []).bytes r s.chip.now)).respond r
      ((writeResponse r e.typ [i] []).bytes r s.chip.now)

/-- A handled write `cmd` of one instance of entries that `own` picks, in a domain that takes it, is taken when `cond` holds, and leaves
what `eff` says. -/
def Sys2Proof.Claims.Takes (cmd : MgmtReq → Instr) (own : MgmtReq → Bool) (cond : State → MgmtReq → Nat → Prop)
    (eff : State → MgmtReq → Nat → State → Prop) : Prop :=
  ∀ (s : State) (r : MgmtReq) (e : Entry) (i : Nat), Handled s r e → own r = true → selected r e = [i] →
    s.chip.domainStatus e i = stOK → cond s r i →
    ∃ t : State, exec (cmd r) s = .next (answered s r e i t) ∧ eff s r i t

/-- The writes of the boot, the identity and the life cycle take effect: a passed image boots and claims an identity block, a right
bundle certifies the first alias and serves what waited, a transition with its authority burns its bits, an asked warm reset is
marked (R548, R584, R586, R588 to R590, R595, R596). -/
def Sys2Proof.Claims.BootWritesTakeEffect : Prop :=
  Takes .bootGo (·.writes 0x8001 3)
    (fun s r _ => s.chip.pkg.power = .rom ∧ reqNum r = 1 ∧ s.imageReadable = true ∧ s.imageStatus s.image = stOK ∧
      s.otp.signs = true ∧ s.otp.blocks < 8192)
    (fun s _ _ t => t.chip.pkg = { s.chip.pkg with power := .booting } ∧ t.sec.bootStatus = stOK ∧ t.sec.identityState = 1 ∧
      t.chip.clasps = s.chip.clasps.map (fun x => { x with filterOn := true }) ∧ t.sec.block = s.otp.blocks ∧ t.otp = { s.otp with blocks := s.otp.blocks + 1 } ∧
      t.sec.keySlot = imSlot (imageHeader s.image) ∧ t.sec.paveDigest = componentDigest s.image 1) ∧
  Takes .bootGo (·.writes 0x8001 3)
    (fun s r _ => s.chip.pkg.power = .rom ∧ reqNum r = 1 ∧ s.imageReadable = true ∧ s.imageStatus s.image ≠ stOK)
    (fun s _ _ t => t.sec.bootStatus = s.imageStatus s.image ∧ t.chip = s.chip ∧ t.otp = s.otp) ∧
  Takes .bundleCommit (·.writes 0x8002 4)
    (fun s r _ => s.sec.identityState = 1 ∧ reqNum r = 1 ∧ s.bundleRight = true)
    (fun s _ _ t => t = ({ s with sec := { s.sec with identityState := 0, treesReady := 1, lmsNext := 0 } } : State).serveWaiting ∧
      (s.sec.waiting = [] → t.sec.identityState = 0 ∧ t.sec.treesReady = 1 ∧ t.chip = s.chip)) ∧
  Takes .bundleCommit (·.writes 0x8002 4)
    (fun s r _ => s.sec.identityState = 1 ∧ reqNum r = 1 ∧ s.bundleRight = false) (fun s _ _ t => t = s) ∧
  Takes .lcRequest (·.writes 0x8003 2)
    (fun s r _ => s.transitionRight (reqNum r) = true ∧ (∀ x ∈ s.chip.sessions, x.2.st = .free) ∧ s.chip.jobsOpen = false)
    (fun s r _ t => (∃ seed : List Byte, t.otp = s.otp.transition (reqNum r) seed) ∧ t.otp.lcCount = reqNum r ∧
      t.chip.pkg = { s.chip.pkg with lcLocked := true, production := (lifeCycle (reqNum r)).ide } ∧ t.sec.nonce.length = 32 ∧
      (reqNum r = 3 ∨ reqNum r = 4 → t.sec.keysErased = true ∧ t.chip.sessions = [])) ∧
  Takes (fun r => .warmResetRequest (.dict r)) (·.writes 0x2001 2) (fun _ _ _ => True)
    (fun s _ _ t => t = inState s { s.chip with pkg := { s.chip.pkg with warmAsked := true } })

/-- The writes of the session mailbox take effect: a request for a free slot brings an offer, at once or once Bezel can sign, or the
end of the identity; an accept in time whose body decrypts opens the slot with the keys of R604; a close frees it, or lets its
jobs end first (R470, R596, R599, R603, R604, R648). -/
def Sys2Proof.Claims.SessionWritesTakeEffect : Prop :=
  Takes .sessionRequest (·.writes 0x8010 1)
    (fun s r _ => (s.chip.session (sqSlot (leNat r.value))).st = .free ∧ s.chip.mailbox.busy = false ∧
      (lifeCycle s.otp.lcCount).sessions ≠ .none)
    (fun s r _ t =>
      (s.sec.identityState = 2 → t.chip.mailbox.request = [] ∧ t.chip.mailbox.status = stEndOfIdentity) ∧
      (s.canSign = true → t.chip.mailbox.request = r.value ∧ t.chip.mailbox.offered = some s.chip.now ∧
        t.chip.mailbox.status = stOK ∧ t.chip.mailbox.offer.take r.value.length = r.value ∧
        (s.sec.lmsNext + 1 < aliasIndices → t.sec.lmsNext = s.sec.lmsNext + 1)) ∧
      (s.sec.identityState ≠ 2 → s.canSign = false → t.chip.mailbox.request = r.value ∧ t.chip.mailbox.offered = none ∧
        t.sec.waiting = s.sec.waiting ++ [.offer])) ∧
  (∀ body key, Takes .sessionAccept (·.writes 0x8010 3)
    (fun s r _ => (∃ k, s.chip.mailbox.offered = some k ∧ s.chip.now < k + 125000000) ∧
      s.chip.acceptKeys (setBytes [] 156 r.offset r.value) = some (body, key))
    (fun s _ _ t => t.chip.session (sqSlot (leNat s.chip.mailbox.request)) =
        openedSession (leNat s.chip.mailbox.request) body key ∧
      t.chip.mailbox.request = [] ∧ t.chip.mailbox.offered = none ∧ t.chip.mailbox.status = stOK)) ∧
  Takes .sessionClose (·.writes 0x8010 6) (fun s r _ => (s.chip.session (reqNum r)).st = .opened)
    (fun s r _ t => (s.chip.sessionJobs (reqNum r) = 0 → t.chip.session (reqNum r) = SessionSt.free) ∧
      (s.chip.sessionJobs (reqNum r) ≠ 0 →
        t.chip.session (reqNum r) = { s.chip.session (reqNum r) with st := .closing }))

/-- The other writes take effect: a queue with valid parameters is enabled with its indices 0, and one without open jobs disabled; a
fault log is acknowledged up to what it holds; a ring entry keeps its fence epoch; after a new Strand identity no port works
before it has trained again; a table image goes to an unbound Bead's shadow bank; an interval length waits for the next
interval; a plain entry holds what is written (R240, R472, R526, R566, R641, R643, R645, R649, R650). -/
def Sys2Proof.Claims.EntryWritesTakeEffect : Prop :=
  Takes .queueEnable (·.writes 0xB000 7)
    (fun s r q => reqNum r = 1 ∧ (s.chip.queue q).valid = true ∧ (s.chip.queue q).enable ≠ 1)
    (fun _ _ q t => (t.chip.queue q).enable = 1 ∧ (t.chip.queue q).tail = 0 ∧ (t.chip.queue q).consumed = 0 ∧
      (t.chip.queue q).nextSeq = 0 ∧ (t.chip.queue q).jNext = 0 ∧ (t.chip.queue q).phase = true ∧
      (t.chip.queue q).jHeld = 0) ∧
  Takes .queueEnable (·.writes 0xB000 7) (fun s r q => reqNum r ≠ 1 ∧ s.chip.openJobs q = 0)
    (fun s _ q t => t = inState s (s.chip.setQueue q { s.chip.queue q with enable := 0 })) ∧
  Takes .faultLogAck (·.writes 0x9000 2)
    (fun s r _ => s.chip.flog.acked ≤ reqNum r ∧ reqNum r ≤ s.chip.flog.written)
    (fun s r _ t => t = inState s { s.chip with flog := { s.chip.flog with acked := reqNum r } }) ∧
  Takes .ringEntryWrite (·.writes 0x6001 1)
    (fun s r n => s.chip.ringInUse n = false ∧ (ringOf (reqNum r) (s.chip.ring n).epoch).valid = true)
    (fun s r n t => t.chip.ring n = ringOf (reqNum r) (s.chip.ring n).epoch ∧ (t.chip.ring n).epoch = (s.chip.ring n).epoch) ∧
  Takes .strandIdentityWrite (fun r => r.writes 0x6000 1 || r.writes 0x6000 2)
    (fun s _ _ => ∀ x ∈ s.chip.rings, x.2.enable ≠ 1)
    (fun _ r _ t => (∀ x ∈ t.chip.ports, x.2.working = false) ∧
      (r.sub = 1 → t.chip.strand.partNumber = reqNum r) ∧ (r.sub = 2 → t.chip.strand.timeRef = reqNum r)) ∧
  (∀ img, Takes .tableCommit (·.writes 0x3002 9)
    (fun s r p => (s.chip.bead p).job = none ∧
      img = (padTo s.chip.mgmt.stage 12288).take (thBytes (getLE (padTo s.chip.mgmt.stage 12288) 0 64)) ∧
      imageOk img = true ∧ kindOk (reqNum r) (thReduction (getLE (padTo s.chip.mgmt.stage 12288) 0 64)) = true)
    (fun s r p t => t.chip.tables = s.chip.tables.writeN (s.chip.shadowKey p (reqNum r)) img ∧
      (t.chip.bead p).shadowFull = modAt (s.chip.bead p).shadowFull (reqNum r) (fun _ => true))) ∧
  Takes .telemetryIntervalWrite (·.writes 0xA000 1) (fun _ _ _ => True)
    (fun s r _ t => t = inState s { s.chip with telem := { s.chip.telem with nextInterval := reqNum r } }) ∧
  Takes .dictWrite (fun r => r.writes 0x3001 1 || r.writes 0x3001 3) (fun _ _ _ => True)
    (fun s r f t => t = inState s (s.chip.setFacet f
      (if r.sub = 1 then { s.chip.facet f with locketMode := reqNum r } else { s.chip.facet f with idleDelay := reqNum r }))) ∧
  Takes .dictWrite (·.writes 0x4000 2) (fun _ _ _ => True)
    (fun s r _ t => t = inState s (s.chip.setThreshold (reqNum r)) ∧ t.chip.mem = { s.chip.mem with repairThreshold := reqNum r }) ∧
  Takes .dictWrite (·.writes 0xB000 1) (fun s _ q => (s.chip.queue q).enable ≠ 1)
    (fun s r q t => t = inState s (s.chip.setQueue q { s.chip.queue q with ringAddr := reqNum r }))

/-- What each row of its own refuses: open jobs forbid that a queue is disabled, an enabled queue keeps its parameters; a fault log is
not acknowledged past what it holds; a bound job keeps its ring entry and its tables; a boot asked for outside the ROM phase,
a bundle that is not awaited and a transition without authority are turned away (R472, R526, R584, R589, R596, R641, R643). -/
def Sys2Proof.Claims.WritesAreRefused : Prop :=
  (∀ (s : State) (r : MgmtReq) (e : Entry) (q : Nat), reqNum r ≠ 1 → 0 < s.chip.openJobs q →
    putQueueEnable r e q s = (stQueueActive, s)) ∧
  (∀ (s : State) (r : MgmtReq) (e : Entry) (i : Nat), reqNum r < s.chip.flog.acked ∨ s.chip.flog.written < reqNum r →
    putFaultLogAck r e i s = (stValueRange, s)) ∧
  (∀ (s : State) (r : MgmtReq) (e : Entry) (p : Nat) (j : Nat), (s.chip.bead p).job = some j →
    putTableCommit r e p s = (stBusyBound, s)) ∧
  (∀ (s : State) (r : MgmtReq) (e : Entry) (n : Nat), s.chip.ringInUse n = true →
    putRingEntry r e n s = (stBusyBound, s)) ∧
  (∀ (s : State) (r : MgmtReq) (e : Entry) (q : Nat), e.key = 0xB00001 → (s.chip.queue q).enable = 1 →
    putEntry r e q s = (stQueueActive, s)) ∧
  (∀ (s : State) (r : MgmtReq) (e : Entry) (i : Nat), s.chip.pkg.power ≠ .rom → putBootGo r e i s = (stAccessDenied, s)) ∧
  (∀ (s : State) (r : MgmtReq) (e : Entry) (i : Nat), s.sec.identityState ≠ 1 → putBundleCommit r e i s = (stValueRange, s)) ∧
  (∀ (s : State) (r : MgmtReq) (e : Entry) (i : Nat), s.transitionRight (reqNum r) = false →
    ∃ t : State, putLcRequest r e i s = (stLifecycleDenied, t) ∧ t.otp = s.otp ∧ t.sec.nonce.length = 32 ∧
      t.chip.sessions = s.chip.sessions)

/-- Every write row takes effect, or refuses, as its rule says (R470, R472, R526, R566, R584 to R590, R596, R603, R641 to R650). -/
def Obligations.RowsOfTheirOwnTakeEffect : Prop :=
  BootWritesTakeEffect ∧ SessionWritesTakeEffect ∧ EntryWritesTakeEffect ∧ WritesAreRefused

/-- A control command on a path that takes it is answered: an assigned endpoint identifier is kept and reported, and the
versions, message types, vendor identifier and an unsupported command are answered as R612 and R613 say. -/
def Sys2Proof.Claims.ControlCommandsAreAnswered : Prop :=
  (∀ (s : State) (path eid : Nat), isPath path = true → eid ≠ 0 → eid < 255 → s.takesControl path = true →
    path < s.chip.mgmt.paths.length →
    ∃ t : State, exec (.setEndpointId path eid) s = .next t ∧ (t.chip.path path).eid = eid ∧
      t.chip.sent = s.chip.sent ++ [.control path 0x01 [0x00, 0, BitVec.ofNat 8 eid, 0]]) ∧
  (∀ (s : State) (path : Nat), isPath path = true → s.takesControl path = true →
    exec (.getEndpointId path) s = .next (inState s (s.chip.send
      (.control path 0x02 [0x00, BitVec.ofNat 8 (s.chip.path path).eid, 0, 0]))) ∧
    exec (.getMctpVersionSupport path 0) s = .next (inState s (s.chip.send
      (.control path 0x04 [0x00, 1, 0xF1, 0xF3, 0xFF, 0x00]))) ∧
    exec (.getMessageTypeSupport path) s = .next (inState s (s.chip.send
      (.control path 0x05 [0x00, 3, 0x00, 0x05, 0x7E]))) ∧
    exec (.getVendorDefinedMessageSupport path) s = .next (inState s (s.chip.send
      (.control path 0x06 ([0x00, 0xFF, 0x00] ++ (leBytes 2 s.unit.vendorId).reverse ++ [0, 0]))))) ∧
  (∀ (s : State) (path code : Nat), isPath path = true → code < 256 → code ∉ [1, 2, 4, 5, 6] →
    s.takesControl path = true →
    exec (.unsupportedControlCommand path code) s = .next (inState s (s.chip.send (.control path code [0x05]))))

/-- Dictionary queries and MCTP control commands are answered (R612 to R618, R623, R624). -/
def Obligations.RequestsAndControlAreAnswered : Prop :=
  QueriesAreAnswered ∧ ControlCommandsAreAnswered

/-! ## The machine -/

/-- A step with a command at the front of the queue is that command's effect with the rest of the queue behind it. -/
def Obligations.StepRunsTheFrontCommand : Prop :=
  ∀ (s : State) (c : Instr) (rest : List Instr), s.pending = c :: rest →
    step s = exec c { s with pending := rest }

/-- The inbox of the sequencer stands in the order in which its events are handled: stamp, then rank, then source index (R33 to R35). -/
def Sys2Proof.Claims.InOrder (es : List Stamped) : Prop := es.Pairwise fun a b => a.key.le b.key = true

/-- What arrives as a stamped event takes the counter's value as its stamp and its place in the order of the inbox, what is no event
joins the queue; a write of a doorbell takes the place of one of the same stamp. A fault found inside the part, a job's status among
them, waits in the same order. With no command waiting a step handles the first of both once three ticks have passed since its stamp,
under that stamp, and none before (R29, R33 to R35, R474, R504, Table 1.5; which commands are events is the model's choice:
assumption 110). -/
def Obligations.EventsAreHandledInOrder : Prop :=
  (∀ (s : State) (i : Instr) (rank : Nat) (source : List Nat), i.wf = true → eventOf i = some (rank, source) →
    InOrder s.inbox →
    InOrder (s.arrive i).inbox ∧ (s.arrive i).pending = s.pending ∧
    ∀ e : Stamped, e ∈ (s.arrive i).inbox ↔
      (e ∈ s.inbox ∧ ¬(e.stamp = s.chip.tick.count ∧ sameDoorbell e.event i = true)) ∨ e = ⟨s.chip.tick.count, rank, source, i⟩) ∧
  (∀ (s : State) (i : Instr), (i.wf = false ∨ eventOf i = none) →
    s.arrive i = { s with pending := s.pending ++ [i] }) ∧
  (∀ (s : State) (e : Stamped) (rest : List Stamped), s.pending = [] → s.inbox = e :: rest →
    (∀ r ∈ s.chip.raised.head?, r.key.le e.key = false) → s.chip.clocked = true → e.stamp + 3 ≤ s.chip.tick.count →
    ∃ t : State, step s = settled (exec e.event t) ∧ t = { s with inbox := rest }.withLag (s.chip.tick.count - e.stamp) ∧
      t.chip.now = e.stamp) ∧
  (∀ (s : State) (r : Raised) (rest : List Raised), s.pending = [] → s.chip.raised = r :: rest →
    (∀ e ∈ s.inbox.head?, r.key.le e.key = true) → s.chip.clocked = true → r.stamp + 3 ≤ s.chip.tick.count →
    ∃ t : State, step s = settled (.next { t with chip := t.chip.handleRaised r.what }) ∧
      t = (inState s { s.chip with raised := rest }).withLag (s.chip.tick.count - r.stamp) ∧ t.chip.now = r.stamp) ∧
  (∀ s : State, s.pending = [] → (∀ e ∈ s.inbox.head?, s.chip.tick.count < e.stamp + 3) →
    (∀ r ∈ s.chip.raised.head?, s.chip.tick.count < r.stamp + 3) → step s = .next { s with chip := tickEdge s.chip }) ∧
  (∀ (c : Chip) (source : List Nat) (f : Found), c.raised.Pairwise (fun a b => a.key.le b.key = true) →
    (c.found source f).raised.Pairwise (fun a b => a.key.le b.key = true) ∧ ∃ r ∈ (c.found source f).raised, r.what = f)

/-- Every command whose operands name units and values of the part has an effect, and any other is refused by name; none
changes the commands that wait or the facts of the unit (the refusal is the model's: assumption 13). -/
def Obligations.EveryCommandIsTakenOrRefused : Prop :=
  ∀ (s : State) (c : Instr),
    (c.wf = true → ∃ t : State, exec c s = .next t ∧ t.pending = s.pending ∧ t.unit = s.unit) ∧
    (c.wf = false → exec c s = .refused .noSuchOperand)

/-- After reset the ROM runs with the tick at 0, no command waits, no queue, session, job or Setting exists, every memory reads
0, and the parameters of Tables 14.1, 19.4, 19.5, 19.11 and 19.12 have their defaults (R28, R582, R636, R640). -/
def Obligations.ResetGivesTheDefaults : Prop :=
  State.reset.pending = [] ∧ State.reset.chip.pkg.power = .rom ∧ State.reset.chip.now = 0 ∧
  (∀ q, (State.reset.chip.queue q).enable = 0 ∧ (State.reset.chip.queue q).ringAddr = 0) ∧
  (∀ n, (State.reset.chip.session n).st = .free) ∧ State.reset.chip.jobs = [] ∧ State.reset.chip.settings = [] ∧
  (∀ f, (State.reset.chip.facet f).idleDelay = 125000 ∧ (State.reset.chip.facet f).locketMode = 0 ∧
    (State.reset.chip.facet f).fclk = 0) ∧
  (∀ p, (State.reset.chip.bead p).svc = .inService ∧ (State.reset.chip.bead p).job = none ∧
    (State.reset.chip.bead p).shadowFull = List.replicate 8 false) ∧
  State.reset.chip.mem.repairThreshold = 4 ∧ State.reset.chip.sched.bounds = [31250000, 250000000, 3750000000, 0xFFFFFFFF] ∧
  State.reset.chip.sched.preemptThreshold = 125000 ∧ State.reset.chip.sched.resumeLimit = 8 ∧
  State.reset.chip.telem.nextInterval = 125000 ∧ State.reset.chip.strand.partNumber = 0 ∧
  (∀ a, Mem.read State.reset.chip.locket a = 0 ∧ Mem.read State.reset.chip.tables a = 0 ∧
    Mem.read State.reset.chip.scratch a = 0 ∧ Mem.read State.reset.chip.hbm a = 0)

/-- The one-time programmable bits of the state after reset, and what waits to be burned, lie in their fields (the values are the
model's choice: assumption 3). -/
def Obligations.ResetFusesAreSound : Prop := State.reset.fusesSound = true

/-- Whatever command a step runs, from any state in which the one-time programmable bits, and the version and revocations that
wait to be burned, lie in their fields, they do after it (Tables 17.3, 17.4, 17.7; R595). -/
def Obligations.FusesStaySound : Prop := ∀ s t : State, s.fusesSound = true → step s = .next t → t.fusesSound = true

/-- A fuse that is burned stays burned: the fused version, the life cycle, the tamper count and the identity blocks never fall,
and no revocation is taken back, whatever command a step runs (R585, R588, R591, R595). -/
def Obligations.FusesNeverFall : Prop :=
  ∀ s t : State, s.fusesSound = true → step s = .next t →
    s.otp.svn ≤ t.otp.svn ∧ s.otp.lcCount ≤ t.otp.lcCount ∧ s.otp.tamperCount ≤ t.otp.tamperCount ∧
    s.otp.blocks ≤ t.otp.blocks ∧ (∀ i, s.otp.revoked.testBit i = true → t.otp.revoked.testBit i = true) ∧
    (s.otp.udsPresent = true → t.otp.udsPresent = true) ∧ (s.otp.udsLocked = true → t.otp.udsLocked = true)

/-- Commands of Bezel, of the boot and of the life cycle, which may burn a fuse, and the cold reset, which burns the bits of the tampers
that the sequencer still holds. -/
def Sys2Proof.Claims.burns : Instr → Bool
  | .bootGo _ | .paveReady | .bundleCommit _ | .aliasTreeGenerate | .lcRequest _ | .sessionRequest _ | .spdmRequest _ _
  | .tamper _ | .coldReset => true
  | _ => false

/-- No other command changes a one-time programmable bit (R585, R589, R591, R595, R670). -/
def Obligations.OnlyTheseCommandsBurnFuses : Prop :=
  ∀ (s t : State) (c : Instr), burns c = false → exec c s = .next t → t.otp = s.otp

/-- What a Bead's own computation leaves alone whatever becomes of it: the memories but its Locket, the tick, the package, its
Clasps and Facets, the controls of stacked memory, Settings, sessions, queues, engine pairs and streams, heads, management,
and everything outside the chip. -/
def Sys2Proof.Claims.OutsideKept (s t : State) : Prop :=
  t.pending = s.pending ∧ t.unit = s.unit ∧ t.otp = s.otp ∧ t.sec = s.sec ∧
  t.chip.tick = s.chip.tick ∧ t.chip.pkg = s.chip.pkg ∧ t.chip.clasps = s.chip.clasps ∧ t.chip.edgesOut = s.chip.edgesOut ∧
  t.chip.facets = s.chip.facets ∧ t.chip.tables = s.chip.tables ∧ t.chip.scratch = s.chip.scratch ∧
  t.chip.hbm = s.chip.hbm ∧ t.chip.poison = s.chip.poison ∧ t.chip.host = s.chip.host ∧ t.chip.pcs = s.chip.pcs ∧
  t.chip.stackTab = s.chip.stackTab ∧ t.chip.mem = s.chip.mem ∧ t.chip.settings = s.chip.settings ∧
  t.chip.sessions = s.chip.sessions ∧ t.chip.mailbox = s.chip.mailbox ∧ t.chip.queues = s.chip.queues ∧
  t.chip.pairs = s.chip.pairs ∧ t.chip.streams = s.chip.streams ∧ t.chip.heads = s.chip.heads ∧ t.chip.held = s.chip.held ∧
  t.chip.strand = s.chip.strand ∧ t.chip.mgmt = s.chip.mgmt ∧ t.chip.telem = s.chip.telem

/-- Vector operations, draws, lookups, conversions, normalisations, row operations, products and the chain product on physical
Bead `p`. -/
def Sys2Proof.Claims.computes (p : Nat) : List Instr :=
  [.copy p, .convert p, .add p, .subtract p, .multiply p, .fusedMultiplyAdd p, .maximum p, .minimum p, .absoluteValue p,
   .negate p, .relu p, .leakyRelu p, .scalarAffine p, .laneSum p, .laneMaximum p, .rngContext p, .randBits p,
   .randUniform p, .randUniformOpen p, .randNormal p, .exp2 p, .exp p, .log2 p, .ln p, .recip p, .div p, .rsqrt p,
   .sqrt p, .eval p, .gauss p, .layerNormalisation p, .rmsNormalisation p, .groupNormalisation p, .softMaximum p,
   .statisticsOnly p, .apply p, .complete p, .padFill p, .convGather p, .haloCheck p, .resample p, .regroup p, .mma p,
   .chainProduct p]

/-- A computation of a Bead, whether it completes, waits, raises a status or meets poison, reaches nothing outside the Beads, the Lockets,
the jobs and the faults that have been found. -/
def Obligations.ComputationsKeepTheOutside : Prop :=
  ∀ (s t : State) (p : Nat) (c : Instr), c ∈ computes p → exec c s = .next t → OutsideKept s t

/-- The vector operations with their numbers of sources and codes. -/
def Sys2Proof.Claims.vectorOps (p : Nat) : List (Instr × Nat × Nat) :=
  [(.add p, 2, 0x02), (.subtract p, 2, 0x03), (.multiply p, 2, 0x04), (.fusedMultiplyAdd p, 3, 0x05), (.maximum p, 2, 0x06),
   (.minimum p, 2, 0x07), (.absoluteValue p, 1, 0x08), (.negate p, 1, 0x09), (.relu p, 1, 0x0A), (.leakyRelu p, 1, 0x0B),
   (.scalarAffine p, 1, 0x0C)]

/-- A vector operation changes, of every Locket of the part, only the bytes of its destination: the packed elements of fmt_d
from its first row on (R95, R119, R360). -/
def Obligations.VectorOperationsStoreOnlyTheirDestination : Prop :=
  ∀ (s t : State) (p : Nat) (x : Ctx) (c : Instr) (n op : Nat), (c, n, op) ∈ vectorOps p →
    Mem.wf s.chip.locket = true → Ready s.chip p x (byWord (lane op)) (laneFoot n x.i) → exec c s = .next t →
    Mem.wf t.chip.locket = true ∧
    ∀ a, (a < lockKey p (laneBankD x.i) (64 * laneAddrD x.i) ∨
        lockKey p (laneBankD x.i) (64 * laneAddrD x.i) + elemBytes (laneFmtD x.i) (laneCount x.i) ≤ a) →
      Mem.read t.chip.locket a = Mem.read s.chip.locket a

/-- An element written reads back, and every other element of the same packing and every byte outside it keep their values, at
every width that a format has (R119, R360). -/
def Obligations.PackedElementsReadBack : Prop :=
  ∀ (m : Mem) (base bits i code : Nat), Mem.wf m = true → bits ∈ [4, 6, 8, 16, 32] →
    Mem.wf (packedPut m base bits i code) = true ∧
    packedGet (packedPut m base bits i code) base bits i = code % 2 ^ bits ∧
    (∀ k, k ≠ i → packedGet (packedPut m base bits i code) base bits k = packedGet m base bits k) ∧
    (∀ a, (a < base + bits * i / 8 ∨ base + (bits * i + bits + 7) / 8 ≤ a) →
      Mem.read (packedPut m base bits i code) a = Mem.read m a)

/-- A store in stacked memory, a write of host memory, a Locket write, a tensor's write and a tensor's zeroing keep the canonical
form of the memories, and a Locket's bytes read back as written (the form is the model's: assumption 5). -/
def Obligations.StoresKeepTheForm : Prop :=
  (∀ (c : Chip) (at_ : Nat → Place) (x : Nat) (bs : List Byte), Mem.wf c.hbm = true →
    Mem.wf (c.storeAt at_ x bs).hbm = true ∧ (c.storeAt at_ x bs).locket = c.locket) ∧
  (∀ (c : Chip) (a : Nat) (bs : List Byte), Mem.wf c.hbm = true → Mem.wf c.host = true →
    Mem.wf (c.hostWrite a bs).hbm = true ∧ Mem.wf (c.hostWrite a bs).host = true) ∧
  (∀ (c : Chip) (p bank off : Nat) (bs : List Byte), Mem.wf c.locket = true →
    Mem.wf (c.lockWrite p bank off bs).locket = true ∧ (c.lockWrite p bank off bs).lockRead p bank off bs.length = bs) ∧
  (∀ (c : Chip) (slot : Nat) (a : Alloc) (x : Nat) (bs : List Byte), Mem.wf c.hbm = true →
    Mem.wf (c.allocWrite slot a x bs).hbm = true ∧ Mem.wf (c.zeroAlloc a).hbm = true)

/-- A fence changes the jobs, the Beads, what is in flight, the rings and their ports, and the fault log; it touches no memory, no
session, Setting, queue or allocation, no control of the package and no fuse; a job that is not accepted or has ended is not fenced at
all (R505, R507, R521, R574). -/
def Sys2Proof.Claims.FencesTouchOnlyJobs : Prop :=
  (∀ (c d : Chip) (j : Nat) (o : Origin) (raised : Option (Nat × Nat)) (force : Option Nat),
    d = c.fenceJobWith j o raised force →
    d.tick = c.tick ∧ d.pkg = c.pkg ∧ d.clasps = c.clasps ∧ d.facets = c.facets ∧ d.locket = c.locket ∧
    d.tables = c.tables ∧ d.scratch = c.scratch ∧ d.hbm = c.hbm ∧ d.host = c.host ∧ d.mem = c.mem ∧ d.pcs = c.pcs ∧
    d.stackTab = c.stackTab ∧ d.settings = c.settings ∧ d.sessions = c.sessions ∧ d.queues = c.queues ∧
    d.pairs = c.pairs ∧ d.streams = c.streams ∧ d.heads = c.heads ∧ d.mgmt = c.mgmt ∧ d.telem = c.telem) ∧
  (∀ (c : Chip) (j : Nat) (x : Job) (o : Origin) (raised : Option (Nat × Nat)) (force : Option Nat), c.job? j = some x →
    x.fenceable = false → c.fenceJobWith j o raised force = c)

/-- A fence of a bound job drops everything of it that is in flight, stops its Beads and leaves it stopping; one that is stopping
already stays so, with the end it has; a waiting job stays waiting to resume, or is at its end when a cancel, its resume limit or a
status met before ends it. Each fence writes its record (R490, R498, R507, R521). -/
def Sys2Proof.Claims.FencedJobsStop : Prop :=
  ∀ (c d : Chip) (j : Nat) (x : Job) (o : Origin) (raised : Option (Nat × Nat)), c.job? j = some x →
    x.ledger = .accepted → x.phase ≠ .ended → d = c.fenceCore j o raised none → (x.phase = .stopping ∨ x.ending = none) →
    ∃ y : Job, d.job? j = some y ∧ d.flog.written = (c.flog.written + 1) % 2 ^ 32 ∧ y.fenceRec = some c.flog.written ∧
      (x.phase = .stopping → y.phase = .stopping ∧ y.ledger = .accepted ∧
        y.ending = x.ending.orElse fun _ => fenceEnd c.sched.resumeLimit x raised) ∧
      y.openGens = [] ∧ y.mid = none ∧ y.resumeDue = true ∧ y.preempt = false ∧ y.seq = x.seq ∧ y.gens = x.gens ∧
      (x.phase = .bound → y.phase = .stopping ∧ y.ledger = .accepted ∧
        y.ending = fenceEnd c.sched.resumeLimit x raised ∧ (∀ v ∈ d.transfers, v.job ≠ j) ∧ (∀ v ∈ d.walks, v.job ≠ j) ∧
        (∀ v ∈ d.edits, v.job ≠ j) ∧ (∀ v ∈ d.reports, v.job ≠ j) ∧ (∀ v ∈ d.contribs, v.job ≠ j)) ∧
      (x.phase = .waiting → fenceEnd c.sched.resumeLimit x raised = none → y.phase = .waiting ∧ y.ledger = .accepted) ∧
      (∀ st, x.phase = .waiting → fenceEnd c.sched.resumeLimit x raised = some st →
        y.phase = .ended ∧ y.ledger = .completing ∧ y.ending = some st) ∧
      (x.cancel = true → raised = none → fenceEnd c.sched.resumeLimit x raised = some stCancelled)

/-- A fence stops its job and leaves every memory, session, Setting and queue as they are (R490, R498, R505, R507). -/
def Obligations.FencesStopJobsAlone : Prop :=
  FencesTouchOnlyJobs ∧ FencedJobsStop

/-! ## Numbers -/

/-- The value of a code is narrowed to that very code, uncounted, in every rounding mode and format of floating point: an exact
value is not rounded (R114, R137, R141). -/
def Obligations.ExactValuesKeepTheirCodes : Prop :=
  ∀ (f mode r code : Nat) (infOnOvf : Bool), f < 8 → code < 2 ^ fmtBits f → fpVal (fpFmt f) code ≠ .nan →
    narrowFp (fpFmt f) mode r infOnOvf (fpVal (fpFmt f) code) = ⟨code, 0, 0⟩

/-- An integer target saturates to its range, and counts one overflow exactly when the rounded value lies outside it
(R141, R142). -/
def Obligations.IntegersSaturate : Prop :=
  ∀ (mode r m : Nat) (e : Int) (neg : Bool) (n : Int),
    n = (if neg then -(unitsOf mode r m e 0 : Int) else (unitsOf mode r m e 0 : Int)) →
    signedOf 8 (narrow 8 mode r false true (.fin neg m e)).code = max (-128) (min 127 n) ∧
    ((narrow 8 mode r false true (.fin neg m e)).ovf = 1 ↔ n < -128 ∨ 127 < n) ∧
    signedOf 4 (narrow 9 mode r false true (.fin neg m e)).code = max (-8) (min 7 n) ∧
    ((narrow 9 mode r false true (.fin neg m e)).ovf = 1 ↔ n < -8 ∨ 7 < n) ∧
    ((narrow 8 mode r false false (.fin neg m e)).code : Int) = max 0 (min 255 n) ∧
    ((narrow 9 mode r false false (.fin neg m e)).code : Int) = max 0 (min 15 n)

/-- Sums, products and comparisons of finite values are exact: counted in any unit that is fine enough, the sum is the sum, the
product the product, and less is less (R126, R131). -/
def Obligations.ArithmeticIsExact : Prop :=
  (∀ (s t : Bool) (m n : Nat) (e k x : Int), x ≤ e → x ≤ k →
    ∃ (u : Bool) (j : Nat) (z : Int), (Val.fin s m e).add (.fin t n k) = .fin u j z ∧
      ((j = 0 ∧ scaledInt s m e x + scaledInt t n k x = 0) ∨
        (x ≤ z ∧ scaledInt u j z x = scaledInt s m e x + scaledInt t n k x))) ∧
  (∀ (s t : Bool) (m n : Nat) (e k x y : Int), x ≤ e → y ≤ k →
    ∃ (u : Bool) (j : Nat), (Val.fin s m e).mul (.fin t n k) = .fin u j (e + k) ∧
      scaledInt u j (e + k) (x + y) = scaledInt s m e x * scaledInt t n k y) ∧
  (∀ (s t : Bool) (m n : Nat) (e k x : Int), x ≤ e → x ≤ k →
    ((Val.fin s m e).lt (.fin t n k) = true ↔ scaledInt s m e x < scaledInt t n k x))

/-! ## Rules as they stand -/

/-- R137 and R139, for the unit in which a value is rounded. Rounding `m` units of 2^-k to nearest even is off by half a unit at
most, and by exactly half only onto an even number; stochastic rounding takes the neighbour away from zero when t + r is 16 or
more and the one toward zero otherwise, where t is the first four bits below the unit. Rounding to odd is within one unit, and
odd wherever it is not exact. -/
def Obligations.RoundingFollowsItsModes : Prop :=
  (∀ m k r : Nat, 2 * (roundUnits 0 r m k * 2 ^ k) ≤ 2 * m + 2 ^ k ∧ 2 * m ≤ 2 * (roundUnits 0 r m k * 2 ^ k) + 2 ^ k ∧
    (2 * (roundUnits 0 r m k * 2 ^ k) = 2 * m + 2 ^ k ∨ 2 * m = 2 * (roundUnits 0 r m k * 2 ^ k) + 2 ^ k →
      roundUnits 0 r m k % 2 = 0)) ∧
  (∀ m k r t : Nat, r < 16 → t = 16 * (m % 2 ^ k) / 2 ^ k → t ≤ 15 ∧
    (m % 2 ^ k ≠ 0 → roundUnits 2 r m k = if 16 ≤ t + r then m / 2 ^ k + 1 else m / 2 ^ k) ∧
    (m % 2 ^ k = 0 → roundUnits 2 r m k = m / 2 ^ k)) ∧
  (∀ m k r : Nat, roundUnits 1 r m k * 2 ^ k < m + 2 ^ k ∧ m < roundUnits 1 r m k * 2 ^ k + 2 ^ k ∧
    (roundUnits 1 r m k * 2 ^ k ≠ m → roundUnits 1 r m k % 2 = 1))

/-- R624: a next names the first entry above the one named in the request, in ascending order of index and then subindex, and
ignores the instance and mask fields; with no such entry its status is NO_SUCH_ENTRY. (A next carries no offset, no length and no
value.) -/
def Obligations.NextGivesTheEntryAbove : Prop :=
  (∀ (r : MgmtReq), headerOk r = true → r.op = 3 → r.offset = 0 → r.length = 0 → r.value = [] → (∃ e ∈ dictionary, entryKey r.index r.sub < e.key) →
    ∃ e ∈ dictionary, entryKey r.index r.sub < e.key ∧ (∀ f ∈ dictionary, entryKey r.index r.sub < f.key → e.key ≤ f.key) ∧
      (nextResponse r).status = stOK ∧ (nextResponse r).data = leBytes 2 e.index ++ leBytes 1 e.sub ++ [0]) ∧
  (∀ (r : MgmtReq), headerOk r = true → r.op = 3 → r.offset = 0 → r.length = 0 → r.value = [] →
    (∀ e ∈ dictionary, e.key ≤ entryKey r.index r.sub) →
    (nextResponse r).status = stNoSuchEntry ∧ (nextResponse r).data = []) ∧
  (∀ (r : MgmtReq) (inst mask : Nat), r.op = 3 → r.select ≠ 2 →
    nextResponse { r with inst := inst, mask := mask } = nextResponse r)

/-- The instances of a handled write that take its value, in the order in which they are asked (R618). -/
def Sys2Proof.Claims.took (s : State) (r : MgmtReq) (e : Entry) (put : Nat → State → Nat × State) : List Nat :=
  (State.writeAll (fun i s => if s.chip.domainStatus e i = stOK then put i s else (s.chip.domainStatus e i, s))
    (selected r e) s).1

/-- R634: the configuration count, a u64, rises by one for each write, from any path, that is committed to at least one
instance, so that two such writes raise it by two; a write that every selected instance refuses leaves it unchanged; it is 0 at
cold reset. -/
def Obligations.ConfigurationCountRises : Prop :=
  (∀ (s : State) (r : MgmtReq) (e : Entry) (put : Nat → State → Nat × State),
    (∀ (i : Nat) (t : State), (put i t).2.chip.mgmt.configCount = t.chip.mgmt.configCount) →
    (took s r e put ≠ [] → (s.handleWrite r e put).chip.mgmt.configCount = (s.chip.mgmt.configCount + 1) % 2 ^ 64) ∧
    (took s r e put = [] → (s.handleWrite r e put).chip.mgmt.configCount = s.chip.mgmt.configCount)) ∧
  (∀ (s : State) (r q : MgmtReq) (e f : Entry) (put get : Nat → State → Nat × State),
    (∀ (i : Nat) (t : State), (put i t).2.chip.mgmt.configCount = t.chip.mgmt.configCount) →
    (∀ (i : Nat) (t : State), (get i t).2.chip.mgmt.configCount = t.chip.mgmt.configCount) → took s r e put ≠ [] →
    took (s.handleWrite r e put) q f get ≠ [] →
    ((s.handleWrite r e put).handleWrite q f get).chip.mgmt.configCount = (s.chip.mgmt.configCount + 2) % 2 ^ 64) ∧
  (∀ (r : MgmtReq) (e : Entry) (i : Nat) (t : State), (putEntry r e i t).2.chip.mgmt.configCount = t.chip.mgmt.configCount) ∧
  (∀ s t : State, s.chip.pkg.power ≠ .stopped → s.chip.pkg.tripLatch = false → exec .coldReset s = .next t → t.chip.mgmt.configCount = 0)

/-- R650: enabling a queue sets consumed, next_seq and journal_next to 0 and the phase of its next record to 1; while it is
enabled the part takes its doorbells; the queue's parameters keep their values when it is disabled. -/
def Obligations.QueuesEnableAsStated : Prop :=
  (∀ (s t : State) (r : MgmtReq) (e : Entry) (q : Nat), (s.chip.queue q).enable = 0 → reqNum r = 1 →
    putQueueEnable r e q s = (stOK, t) → (t.chip.queue q).enable = 1 ∧ (t.chip.queue q).consumed = 0 ∧
      (t.chip.queue q).nextSeq = 0 ∧ (t.chip.queue q).jNext = 0 ∧ (t.chip.queue q).phase = true) ∧
  (∀ (s : State) (q head v : Nat), (s.chip.queue q).enable = 1 → isQueue q = true → isHead head = true → v < 2 ^ 32 →
    s.chip.pkg.power = .running → s.chip.pkg.devState = 1 → (s.chip.queue q).active = head → s.chip.headOpen head = true →
    s.chip.ioClosed s.otp.production head = false →
    ∃ t : State, exec (.submissionDoorbell head q 4 v) s = .next t ∧
      (t.chip.queue q).tail = v % (s.chip.queue q).ringEntries) ∧
  (∀ (s t : State) (r : MgmtReq) (e : Entry) (q : Nat), reqNum r = 0 → putQueueEnable r e q s = (stOK, t) →
    (t.chip.queue q).enable = 0 ∧ (t.chip.queue q).ringAddr = (s.chip.queue q).ringAddr ∧
    (t.chip.queue q).ringEntries = (s.chip.queue q).ringEntries ∧
    (t.chip.queue q).journalAddr = (s.chip.queue q).journalAddr ∧
    (t.chip.queue q).journalEntries = (s.chip.queue q).journalEntries ∧ (t.chip.queue q).head = (s.chip.queue q).head ∧
    (t.chip.queue q).inOrder = (s.chip.queue q).inOrder)

/-- The byte that a write gives an offset of its row, the last one where it gives several. -/
def Sys2Proof.Claims.given (w : RowWrite) (off : Nat) : Option Byte := (w.reverse.find? (·.1 = off)).map (·.2)

/-- R363: of two writes that meet in a row both land, the one on port 0 first; where they overlap the row keeps the data of
port 1, and every other byte of every Locket keeps its value. -/
def Obligations.CollidingWritesKeepPortOne : Prop :=
  ∀ (s : State) (p bank row a b : Nat) (w0 w1 : RowWrite), isBead p = true → bank < 4 → row < 8192 → a < 7 →
    b < 7 → a ≠ b → RowWrite.wf 1 w0 = true → RowWrite.wf 1 w1 = true → s.chip.pkg.power = .running → (s.chip.facet (physFacet p)).retention = 0 →
    (s.chip.bead p).retry = [] → locketGrant bank [a, b] = (some a, some b) → Mem.wf s.chip.locket = true →
    ∃ t : State, exec (.bankCollisionReplay p bank [⟨a, row, false, some w0⟩, ⟨b, row, false, some w1⟩]) s = .next t ∧
      (∀ off, off < 64 → Mem.read t.chip.locket (lockKey p bank (64 * row + off)) =
        match given w1 off, given w0 off with
        | some b, _ => b
        | none, some b => b
        | none, none => Mem.read s.chip.locket (lockKey p bank (64 * row + off))) ∧
      (∀ a, (a < lockKey p bank (64 * row) ∨ lockKey p bank (64 * row) + 64 ≤ a) →
        Mem.read t.chip.locket a = Mem.read s.chip.locket a)
end

