-- ==== Sys2Proof/Laws/Tables.lean ====
section
/-! SUPPORT. Laws of the tables of like units and of the byte memories: an entry read after a write, and the canonical form,
which every memory operation keeps. -/
namespace Sys2Proof.Machine

/-! ## Tables -/

theorem Tbl.find?_put (t : Tbl α) (k : Nat) (a : α) (i : Nat) :
    (t.put k a).find? i = if i = k then some a else t.find? i := by
  induction t with
  | nil => by_cases h : k = i <;> simp [Tbl.put, Tbl.find?, h, eq_comm]
  | cons e t ih =>
    obtain ⟨m, x⟩ := e
    simp only [Tbl.put]
    split
    · by_cases h : i = k
      · simp [Tbl.find?, h]
      · simp [Tbl.find?, h, Ne.symm h]
    · split
      · next h => subst h; simp only [Tbl.find?]; split <;> simp_all [eq_comm]
      · next h1 h2 =>
        simp only [Tbl.find?, ih]
        by_cases h : i = k
        · subst h; simp [h2]
        · simp [h]

theorem Tbl.get_put (t : Tbl α) (d : α) (k : Nat) (a : α) (i : Nat) :
    (t.put k a).get d i = if i = k then a else t.get d i := by
  simp only [Tbl.get, Tbl.find?_put]; split <;> rfl

/-! ## Memories -/

/-- Addresses of the list are all above `k`. -/
theorem Mem.wf_tail {a : Nat} {b : Byte} {m : Mem} (h : Mem.wf ((a, b) :: m) = true) : Mem.wf m = true := by
  cases m with
  | nil => rfl
  | cons e m => obtain ⟨a', b'⟩ := e; simp [Mem.wf] at h; exact h.2

theorem Mem.wf_head {a : Nat} {b : Byte} {m : Mem} (h : Mem.wf ((a, b) :: m) = true) : b ≠ 0 := by
  cases m with
  | nil => simpa [Mem.wf] using h
  | cons e m => obtain ⟨a', b'⟩ := e; simp [Mem.wf] at h; exact h.1.1

/-- Form of a list with one more cell in front. -/
theorem Mem.wf_cons {a : Nat} {b : Byte} {m : Mem} :
    Mem.wf ((a, b) :: m) = true ↔ b ≠ 0 ∧ Mem.wf m = true ∧ ∀ e ∈ m.head?, a < e.1 := by
  cases m with
  | nil => simp [Mem.wf]
  | cons e m =>
    obtain ⟨a', b'⟩ := e
    simp only [Mem.wf, Bool.and_eq_true, decide_eq_true_eq, bne_iff_ne, List.head?_cons, Option.mem_some_iff, forall_eq']
    exact ⟨fun h => ⟨h.1.1, h.2, h.1.2⟩, fun h => ⟨⟨h.1, h.2.2⟩, h.2.1⟩⟩

/-- The first cell of a written memory is the one written or the first one before. -/
theorem Mem.head_write (m : Mem) (k : Nat) (v : Byte) {j : Nat} (h : j < k) (hm : ∀ e ∈ m.head?, j < e.1)
    (hw : Mem.wf m = true) : ∀ e ∈ (Mem.write m k v).head?, j < e.1 := by
  cases m with
  | nil => unfold Mem.write; split <;> simp [h]
  | cons e m =>
    obtain ⟨a, b⟩ := e
    simp only [List.head?_cons, Option.mem_some_iff, forall_eq'] at hm
    unfold Mem.write
    split
    · split
      · simpa using hm
      · simpa using h
    · split
      · split
        · next h1 h2 h3 =>
          have := (Mem.wf_cons.1 hw).2.2
          intro e he; exact Nat.lt_trans hm (this e he)
        · simpa using h
      · simpa using hm

/-- One byte written keeps the canonical form. -/
theorem Mem.wf_write (m : Mem) (k : Nat) (v : Byte) (h : Mem.wf m = true) : Mem.wf (Mem.write m k v) = true := by
  induction m with
  | nil => unfold Mem.write; split <;> simp_all [Mem.wf]
  | cons e m ih =>
    obtain ⟨a, b⟩ := e
    have ht := Mem.wf_cons.1 h
    unfold Mem.write
    split
    · split
      · exact h
      · next h1 h2 => exact Mem.wf_cons.2 ⟨h2, h, by simpa using h1⟩
    · split
      · split
        · exact ht.2.1
        · next h1 h2 h3 => subst h2; exact Mem.wf_cons.2 ⟨h3, ht.2.1, ht.2.2⟩
      · next h1 h2 =>
        exact Mem.wf_cons.2 ⟨ht.1, ih ht.2.1, Mem.head_write m k v (by omega) ht.2.2 ht.2.1⟩

/-- An address below every listed one reads as nothing written. -/
theorem Mem.read_below (m : Mem) (k : Nat) (h : Mem.wf m = true) (hk : ∀ e ∈ m.head?, k < e.1) : Mem.read m k = 0 := by
  induction m with
  | nil => rfl
  | cons e m ih =>
    obtain ⟨a, b⟩ := e
    have ht := Mem.wf_cons.1 h
    simp only [List.head?_cons, Option.mem_some_iff, forall_eq'] at hk
    simp only [Mem.read, show a ≠ k by omega, if_false]
    exact ih ht.2.1 fun e he => Nat.lt_trans hk (ht.2.2 e he)

/-- A byte reads as it was last written; every other address reads as before. -/
theorem Mem.read_write (m : Mem) (k : Nat) (v : Byte) (i : Nat) (h : Mem.wf m = true) :
    Mem.read (Mem.write m k v) i = if i = k then v else Mem.read m i := by
  induction m with
  | nil =>
    unfold Mem.write
    by_cases hi : k = i
    · subst hi; split <;> simp_all [Mem.read]
    · split <;> simp_all [Mem.read, Ne.symm hi]
  | cons e m ih =>
    obtain ⟨a, b⟩ := e
    have ht := Mem.wf_cons.1 h
    unfold Mem.write
    split
    · next h1 =>
      split
      · next h2 =>
        by_cases hi : i = k
        · subst hi
          simp only [if_true, h2, Mem.read]
          rw [if_neg (by omega)]
          exact Mem.read_below m i ht.2.1 fun e he => Nat.lt_trans h1 (ht.2.2 e he)
        · simp [hi]
      · by_cases hi : i = k
        · simp [Mem.read, hi]
        · simp [Mem.read, hi, Ne.symm hi]
    · split
      · next h1 h2 =>
        subst h2
        split
        · next h3 =>
          by_cases hi : i = a
          · subst hi; simp only [if_true, h3]; exact Mem.read_below m i ht.2.1 ht.2.2
          · simp [Mem.read, hi, Ne.symm hi]
        · by_cases hi : i = a
          · simp [Mem.read, hi]
          · simp [Mem.read, hi, Ne.symm hi]
      · next h1 h2 =>
        simp only [Mem.read, ih ht.2.1]
        by_cases hi : i = k
        · subst hi; simp [h2]
        · simp [hi]

theorem Mem.wf_writeN (m : Mem) (k : Nat) (bs : List Byte) (h : Mem.wf m = true) : Mem.wf (m.writeN k bs) = true := by
  induction bs generalizing m k with
  | nil => exact h
  | cons b bs ih => exact ih _ _ (Mem.wf_write m k b h)

/-- A run of bytes written from `k` up: each reads as written, and every other address reads as before. -/
theorem Mem.read_writeN (m : Mem) (k : Nat) (bs : List Byte) (i : Nat) (h : Mem.wf m = true) :
    Mem.read (m.writeN k bs) i = if k ≤ i ∧ i < k + bs.length then bs.getD (i - k) 0 else Mem.read m i := by
  induction bs generalizing m k with
  | nil =>
    have h0 : ¬ (k ≤ i ∧ i < k + ([] : List Byte).length) := by
      simp only [List.length_nil]; omega
    rw [if_neg h0]; rfl
  | cons b bs ih =>
    rw [Mem.writeN, ih _ _ (Mem.wf_write m k b h), Mem.read_write m k b i h, List.length_cons]
    by_cases h1 : i = k
    · subst h1
      have ha : ¬ (i + 1 ≤ i ∧ i < i + 1 + bs.length) := by omega
      have hb : i ≤ i ∧ i < i + (bs.length + 1) := by omega
      rw [if_neg ha, if_pos rfl, if_pos hb, Nat.sub_self]; rfl
    · by_cases h2 : k + 1 ≤ i ∧ i < k + 1 + bs.length
      · have hs : i - k = (i - (k + 1)) + 1 := by omega
        have hb : k ≤ i ∧ i < k + (bs.length + 1) := by omega
        rw [if_pos h2, if_pos hb, hs]; rfl
      · have hb : ¬ (k ≤ i ∧ i < k + (bs.length + 1)) := by omega
        rw [if_neg h2, if_neg h1, if_neg hb]

/-- Cells picked out of a memory keep the canonical form. -/
theorem Mem.wf_filter (m : Mem) (f : Nat × Byte → Bool) (h : Mem.wf m = true) :
    Mem.wf (m.filter f) = true ∧ ∀ j, (∀ e ∈ m.head?, j < e.1) → ∀ e ∈ (m.filter f).head?, j < e.1 := by
  induction m with
  | nil => exact ⟨rfl, by simp⟩
  | cons e m ih =>
    obtain ⟨a, b⟩ := e
    have ht := Mem.wf_cons.1 h
    have hi := ih ht.2.1
    by_cases hf : f (a, b) = true
    · simp only [List.filter_cons, hf, if_true]
      exact ⟨Mem.wf_cons.2 ⟨ht.1, hi.1, hi.2 a ht.2.2⟩, by simp⟩
    · simp only [List.filter_cons, hf]
      refine ⟨hi.1, fun j hj => hi.2 j fun e he => ?_⟩
      exact Nat.lt_trans (hj _ rfl) (ht.2.2 e he)

theorem Mem.wf_clear (m : Mem) (lo hi : Nat) (h : Mem.wf m = true) : Mem.wf (m.clear lo hi) = true :=
  (Mem.wf_filter m _ h).1

/-- A cleared range reads as nothing written; every other address reads as before. -/
theorem Mem.read_clear (m : Mem) (lo hi i : Nat) :
    Mem.read (m.clear lo hi) i = if lo ≤ i ∧ i < hi then 0 else Mem.read m i := by
  induction m with
  | nil => simp [Mem.clear, Mem.read]
  | cons e m ih =>
    obtain ⟨a, b⟩ := e
    simp only [Mem.clear, List.filter_cons] at ih ⊢
    by_cases hf : a < lo ∨ hi ≤ a
    · simp only [hf, if_true, Mem.read, ih, Bool.or_eq_true, decide_eq_true_eq]
      by_cases ha : a = i
      · subst ha; simp [show ¬ (lo ≤ a ∧ a < hi) by omega]
      · simp [ha]
    · simp only [hf, Bool.or_eq_true, decide_eq_true_eq, if_false, ih, Mem.read]
      by_cases ha : a = i
      · subst ha; simp [show lo ≤ a ∧ a < hi by omega]
      · simp [ha]

/-- Addresses moved down together keep the canonical form. -/
theorem Mem.wf_cut (m : Mem) (lo hi : Nat) (h : Mem.wf m = true) : Mem.wf (m.cut lo hi) = true := by
  have h1 := (Mem.wf_filter m (fun e => decide (lo ≤ e.1) && decide (e.1 < hi)) h).1
  have h2 : ∀ e ∈ m.filter (fun e => decide (lo ≤ e.1) && decide (e.1 < hi)), lo ≤ e.1 := by
    intro e he; simp [List.mem_filter] at he; exact he.2.1
  show Mem.wf ((m.filter fun e => decide (lo ≤ e.1) && decide (e.1 < hi)).map fun e => (e.1 - lo, e.2)) = true
  revert h1 h2
  generalize m.filter (fun e => decide (lo ≤ e.1) && decide (e.1 < hi)) = l
  intro h1 h2
  induction l with
  | nil => rfl
  | cons e l ih =>
    obtain ⟨a, b⟩ := e
    have ht := Mem.wf_cons.1 h1
    refine Mem.wf_cons.2 ⟨ht.1, ih ht.2.1 fun e he => h2 e (List.mem_cons_of_mem _ he), ?_⟩
    cases l with
    | nil => simp
    | cons e l =>
      have h3 := ht.2.2 e rfl
      have h4 := h2 (a, b) (List.mem_cons_self)
      simp only [List.map_cons, List.head?_cons, Option.mem_some_iff, forall_eq']
      simp only at h4 ⊢
      omega

theorem Mem.wf_paste (m : Mem) (lo : Nat) (img : Mem) (h : Mem.wf m = true) : Mem.wf (m.paste lo img) = true := by
  unfold Mem.paste
  induction img generalizing m with
  | nil => exact h
  | cons e img ih => exact ih _ (Mem.wf_write m _ _ h)

/-- Two canonical memories that read alike at every address are equal. -/
theorem Mem.ext_read (m n : Mem) (hm : Mem.wf m = true) (hn : Mem.wf n = true)
    (h : ∀ i, Mem.read m i = Mem.read n i) : m = n := by
  induction m generalizing n with
  | nil =>
    cases n with
    | nil => rfl
    | cons e n =>
      obtain ⟨a, b⟩ := e
      have := h a
      simp [Mem.read] at this
      exact absurd this.symm (Mem.wf_cons.1 hn).1
  | cons e m ih =>
    obtain ⟨a, b⟩ := e
    have ht := Mem.wf_cons.1 hm
    cases n with
    | nil =>
      have := h a
      simp [Mem.read] at this
      exact absurd this ht.1
    | cons e' n =>
      obtain ⟨a', b'⟩ := e'
      have hu := Mem.wf_cons.1 hn
      have key : a = a' := by
        rcases Nat.lt_trichotomy a a' with hl | hl | hl
        · have h1 := h a
          rw [Mem.read_below ((a', b') :: n) a hn (by simpa using hl)] at h1
          simp [Mem.read] at h1; exact absurd h1 ht.1
        · exact hl
        · have h1 := h a'
          rw [Mem.read_below ((a, b) :: m) a' hm (by simpa using hl)] at h1
          simp [Mem.read] at h1; exact absurd h1.symm hu.1
      subst key
      have hb := h a
      simp only [Mem.read, if_true] at hb
      subst hb
      congr 1
      refine ih n ht.2.1 hu.2.1 fun i => ?_
      by_cases hi : i = a
      · subst hi; rw [Mem.read_below m i ht.2.1 ht.2.2, Mem.read_below n i hu.2.1 hu.2.2]
      · have := h i; simpa [Mem.read, Ne.symm hi] using this

end Sys2Proof.Machine
end

