-- ==== Sys2Proof/Laws/State.lean ====
section
/-! SUPPORT. One lemma per field per update of the named operations, so that no proof unfolds a record update. -/
namespace Sys2Proof.Machine

/-! ## setBead -/

@[simp] theorem Chip.setBead_freeCtr (c : Chip) (p : Nat) (b : BeadSt) : (c.setBead p b).freeCtr = c.freeCtr := rfl
@[simp] theorem Chip.setBead_sent (c : Chip) (p : Nat) (b : BeadSt) : (c.setBead p b).sent = c.sent := rfl
@[simp] theorem Chip.setBead_tick (c : Chip) (p : Nat) (b : BeadSt) : (c.setBead p b).tick = c.tick := rfl
@[simp] theorem Chip.setBead_pkg (c : Chip) (p : Nat) (b : BeadSt) : (c.setBead p b).pkg = c.pkg := rfl
@[simp] theorem Chip.setBead_clasps (c : Chip) (p : Nat) (b : BeadSt) : (c.setBead p b).clasps = c.clasps := rfl
@[simp] theorem Chip.setBead_edgesOut (c : Chip) (p : Nat) (b : BeadSt) : (c.setBead p b).edgesOut = c.edgesOut := rfl
@[simp] theorem Chip.setBead_facets (c : Chip) (p : Nat) (b : BeadSt) : (c.setBead p b).facets = c.facets := rfl
@[simp] theorem Chip.setBead_beads (c : Chip) (p : Nat) (b : BeadSt) : (c.setBead p b).beads = c.beads.put p b := rfl
@[simp] theorem Chip.setBead_locket (c : Chip) (p : Nat) (b : BeadSt) : (c.setBead p b).locket = c.locket := rfl
@[simp] theorem Chip.setBead_tables (c : Chip) (p : Nat) (b : BeadSt) : (c.setBead p b).tables = c.tables := rfl
@[simp] theorem Chip.setBead_scratch (c : Chip) (p : Nat) (b : BeadSt) : (c.setBead p b).scratch = c.scratch := rfl
@[simp] theorem Chip.setBead_hbm (c : Chip) (p : Nat) (b : BeadSt) : (c.setBead p b).hbm = c.hbm := rfl
@[simp] theorem Chip.setBead_poison (c : Chip) (p : Nat) (b : BeadSt) : (c.setBead p b).poison = c.poison := rfl
@[simp] theorem Chip.setBead_host (c : Chip) (p : Nat) (b : BeadSt) : (c.setBead p b).host = c.host := rfl
@[simp] theorem Chip.setBead_pcs (c : Chip) (p : Nat) (b : BeadSt) : (c.setBead p b).pcs = c.pcs := rfl
@[simp] theorem Chip.setBead_stackTab (c : Chip) (p : Nat) (b : BeadSt) : (c.setBead p b).stackTab = c.stackTab := rfl
@[simp] theorem Chip.setBead_mem (c : Chip) (p : Nat) (b : BeadSt) : (c.setBead p b).mem = c.mem := rfl
@[simp] theorem Chip.setBead_settings (c : Chip) (p : Nat) (b : BeadSt) : (c.setBead p b).settings = c.settings := rfl
@[simp] theorem Chip.setBead_sessions (c : Chip) (p : Nat) (b : BeadSt) : (c.setBead p b).sessions = c.sessions := rfl
@[simp] theorem Chip.setBead_mailbox (c : Chip) (p : Nat) (b : BeadSt) : (c.setBead p b).mailbox = c.mailbox := rfl
@[simp] theorem Chip.setBead_queues (c : Chip) (p : Nat) (b : BeadSt) : (c.setBead p b).queues = c.queues := rfl
@[simp] theorem Chip.setBead_jobs (c : Chip) (p : Nat) (b : BeadSt) : (c.setBead p b).jobs = c.jobs := rfl
@[simp] theorem Chip.setBead_transfers (c : Chip) (p : Nat) (b : BeadSt) : (c.setBead p b).transfers = c.transfers := rfl
@[simp] theorem Chip.setBead_tableLoads (c : Chip) (p : Nat) (b : BeadSt) : (c.setBead p b).tableLoads = c.tableLoads := rfl
@[simp] theorem Chip.setBead_walks (c : Chip) (p : Nat) (b : BeadSt) : (c.setBead p b).walks = c.walks := rfl
@[simp] theorem Chip.setBead_edits (c : Chip) (p : Nat) (b : BeadSt) : (c.setBead p b).edits = c.edits := rfl
@[simp] theorem Chip.setBead_reports (c : Chip) (p : Nat) (b : BeadSt) : (c.setBead p b).reports = c.reports := rfl
@[simp] theorem Chip.setBead_contribs (c : Chip) (p : Nat) (b : BeadSt) : (c.setBead p b).contribs = c.contribs := rfl
@[simp] theorem Chip.setBead_ringIn (c : Chip) (p : Nat) (b : BeadSt) : (c.setBead p b).ringIn = c.ringIn := rfl
@[simp] theorem Chip.setBead_sched (c : Chip) (p : Nat) (b : BeadSt) : (c.setBead p b).sched = c.sched := rfl
@[simp] theorem Chip.setBead_pairs (c : Chip) (p : Nat) (b : BeadSt) : (c.setBead p b).pairs = c.pairs := rfl
@[simp] theorem Chip.setBead_streams (c : Chip) (p : Nat) (b : BeadSt) : (c.setBead p b).streams = c.streams := rfl
@[simp] theorem Chip.setBead_heads (c : Chip) (p : Nat) (b : BeadSt) : (c.setBead p b).heads = c.heads := rfl
@[simp] theorem Chip.setBead_held (c : Chip) (p : Nat) (b : BeadSt) : (c.setBead p b).held = c.held := rfl
@[simp] theorem Chip.setBead_ports (c : Chip) (p : Nat) (b : BeadSt) : (c.setBead p b).ports = c.ports := rfl
@[simp] theorem Chip.setBead_rings (c : Chip) (p : Nat) (b : BeadSt) : (c.setBead p b).rings = c.rings := rfl
@[simp] theorem Chip.setBead_ringRuns (c : Chip) (p : Nat) (b : BeadSt) : (c.setBead p b).ringRuns = c.ringRuns := rfl
@[simp] theorem Chip.setBead_strand (c : Chip) (p : Nat) (b : BeadSt) : (c.setBead p b).strand = c.strand := rfl
@[simp] theorem Chip.setBead_mgmt (c : Chip) (p : Nat) (b : BeadSt) : (c.setBead p b).mgmt = c.mgmt := rfl
@[simp] theorem Chip.setBead_telem (c : Chip) (p : Nat) (b : BeadSt) : (c.setBead p b).telem = c.telem := rfl
@[simp] theorem Chip.setBead_flog (c : Chip) (p : Nat) (b : BeadSt) : (c.setBead p b).flog = c.flog := rfl
@[simp] theorem Chip.setBead_raised (c : Chip) (p : Nat) (b : BeadSt) : (c.setBead p b).raised = c.raised := rfl

/-! ## setFacet -/

@[simp] theorem Chip.setFacet_freeCtr (c : Chip) (f : Nat) (x : FacetSt) : (c.setFacet f x).freeCtr = c.freeCtr := rfl
@[simp] theorem Chip.setFacet_sent (c : Chip) (f : Nat) (x : FacetSt) : (c.setFacet f x).sent = c.sent := rfl
@[simp] theorem Chip.setFacet_tick (c : Chip) (f : Nat) (x : FacetSt) : (c.setFacet f x).tick = c.tick := rfl
@[simp] theorem Chip.setFacet_pkg (c : Chip) (f : Nat) (x : FacetSt) : (c.setFacet f x).pkg = c.pkg := rfl
@[simp] theorem Chip.setFacet_clasps (c : Chip) (f : Nat) (x : FacetSt) : (c.setFacet f x).clasps = c.clasps := rfl
@[simp] theorem Chip.setFacet_edgesOut (c : Chip) (f : Nat) (x : FacetSt) : (c.setFacet f x).edgesOut = c.edgesOut := rfl
@[simp] theorem Chip.setFacet_facets (c : Chip) (f : Nat) (x : FacetSt) : (c.setFacet f x).facets = c.facets.put f x := rfl
@[simp] theorem Chip.setFacet_beads (c : Chip) (f : Nat) (x : FacetSt) : (c.setFacet f x).beads = c.beads := rfl
@[simp] theorem Chip.setFacet_locket (c : Chip) (f : Nat) (x : FacetSt) : (c.setFacet f x).locket = c.locket := rfl
@[simp] theorem Chip.setFacet_tables (c : Chip) (f : Nat) (x : FacetSt) : (c.setFacet f x).tables = c.tables := rfl
@[simp] theorem Chip.setFacet_scratch (c : Chip) (f : Nat) (x : FacetSt) : (c.setFacet f x).scratch = c.scratch := rfl
@[simp] theorem Chip.setFacet_hbm (c : Chip) (f : Nat) (x : FacetSt) : (c.setFacet f x).hbm = c.hbm := rfl
@[simp] theorem Chip.setFacet_poison (c : Chip) (f : Nat) (x : FacetSt) : (c.setFacet f x).poison = c.poison := rfl
@[simp] theorem Chip.setFacet_host (c : Chip) (f : Nat) (x : FacetSt) : (c.setFacet f x).host = c.host := rfl
@[simp] theorem Chip.setFacet_pcs (c : Chip) (f : Nat) (x : FacetSt) : (c.setFacet f x).pcs = c.pcs := rfl
@[simp] theorem Chip.setFacet_stackTab (c : Chip) (f : Nat) (x : FacetSt) : (c.setFacet f x).stackTab = c.stackTab := rfl
@[simp] theorem Chip.setFacet_mem (c : Chip) (f : Nat) (x : FacetSt) : (c.setFacet f x).mem = c.mem := rfl
@[simp] theorem Chip.setFacet_settings (c : Chip) (f : Nat) (x : FacetSt) : (c.setFacet f x).settings = c.settings := rfl
@[simp] theorem Chip.setFacet_sessions (c : Chip) (f : Nat) (x : FacetSt) : (c.setFacet f x).sessions = c.sessions := rfl
@[simp] theorem Chip.setFacet_mailbox (c : Chip) (f : Nat) (x : FacetSt) : (c.setFacet f x).mailbox = c.mailbox := rfl
@[simp] theorem Chip.setFacet_queues (c : Chip) (f : Nat) (x : FacetSt) : (c.setFacet f x).queues = c.queues := rfl
@[simp] theorem Chip.setFacet_jobs (c : Chip) (f : Nat) (x : FacetSt) : (c.setFacet f x).jobs = c.jobs := rfl
@[simp] theorem Chip.setFacet_transfers (c : Chip) (f : Nat) (x : FacetSt) : (c.setFacet f x).transfers = c.transfers := rfl
@[simp] theorem Chip.setFacet_tableLoads (c : Chip) (f : Nat) (x : FacetSt) : (c.setFacet f x).tableLoads = c.tableLoads := rfl
@[simp] theorem Chip.setFacet_walks (c : Chip) (f : Nat) (x : FacetSt) : (c.setFacet f x).walks = c.walks := rfl
@[simp] theorem Chip.setFacet_edits (c : Chip) (f : Nat) (x : FacetSt) : (c.setFacet f x).edits = c.edits := rfl
@[simp] theorem Chip.setFacet_reports (c : Chip) (f : Nat) (x : FacetSt) : (c.setFacet f x).reports = c.reports := rfl
@[simp] theorem Chip.setFacet_contribs (c : Chip) (f : Nat) (x : FacetSt) : (c.setFacet f x).contribs = c.contribs := rfl
@[simp] theorem Chip.setFacet_ringIn (c : Chip) (f : Nat) (x : FacetSt) : (c.setFacet f x).ringIn = c.ringIn := rfl
@[simp] theorem Chip.setFacet_sched (c : Chip) (f : Nat) (x : FacetSt) : (c.setFacet f x).sched = c.sched := rfl
@[simp] theorem Chip.setFacet_pairs (c : Chip) (f : Nat) (x : FacetSt) : (c.setFacet f x).pairs = c.pairs := rfl
@[simp] theorem Chip.setFacet_streams (c : Chip) (f : Nat) (x : FacetSt) : (c.setFacet f x).streams = c.streams := rfl
@[simp] theorem Chip.setFacet_heads (c : Chip) (f : Nat) (x : FacetSt) : (c.setFacet f x).heads = c.heads := rfl
@[simp] theorem Chip.setFacet_held (c : Chip) (f : Nat) (x : FacetSt) : (c.setFacet f x).held = c.held := rfl
@[simp] theorem Chip.setFacet_ports (c : Chip) (f : Nat) (x : FacetSt) : (c.setFacet f x).ports = c.ports := rfl
@[simp] theorem Chip.setFacet_rings (c : Chip) (f : Nat) (x : FacetSt) : (c.setFacet f x).rings = c.rings := rfl
@[simp] theorem Chip.setFacet_ringRuns (c : Chip) (f : Nat) (x : FacetSt) : (c.setFacet f x).ringRuns = c.ringRuns := rfl
@[simp] theorem Chip.setFacet_strand (c : Chip) (f : Nat) (x : FacetSt) : (c.setFacet f x).strand = c.strand := rfl
@[simp] theorem Chip.setFacet_mgmt (c : Chip) (f : Nat) (x : FacetSt) : (c.setFacet f x).mgmt = c.mgmt := rfl
@[simp] theorem Chip.setFacet_telem (c : Chip) (f : Nat) (x : FacetSt) : (c.setFacet f x).telem = c.telem := rfl
@[simp] theorem Chip.setFacet_flog (c : Chip) (f : Nat) (x : FacetSt) : (c.setFacet f x).flog = c.flog := rfl
@[simp] theorem Chip.setFacet_raised (c : Chip) (f : Nat) (x : FacetSt) : (c.setFacet f x).raised = c.raised := rfl

/-! ## setPc -/

@[simp] theorem Chip.setPc_freeCtr (c : Chip) (pc : Nat) (x : PcSt) : (c.setPc pc x).freeCtr = c.freeCtr := rfl
@[simp] theorem Chip.setPc_sent (c : Chip) (pc : Nat) (x : PcSt) : (c.setPc pc x).sent = c.sent := rfl
@[simp] theorem Chip.setPc_tick (c : Chip) (pc : Nat) (x : PcSt) : (c.setPc pc x).tick = c.tick := rfl
@[simp] theorem Chip.setPc_pkg (c : Chip) (pc : Nat) (x : PcSt) : (c.setPc pc x).pkg = c.pkg := rfl
@[simp] theorem Chip.setPc_clasps (c : Chip) (pc : Nat) (x : PcSt) : (c.setPc pc x).clasps = c.clasps := rfl
@[simp] theorem Chip.setPc_edgesOut (c : Chip) (pc : Nat) (x : PcSt) : (c.setPc pc x).edgesOut = c.edgesOut := rfl
@[simp] theorem Chip.setPc_facets (c : Chip) (pc : Nat) (x : PcSt) : (c.setPc pc x).facets = c.facets := rfl
@[simp] theorem Chip.setPc_beads (c : Chip) (pc : Nat) (x : PcSt) : (c.setPc pc x).beads = c.beads := rfl
@[simp] theorem Chip.setPc_locket (c : Chip) (pc : Nat) (x : PcSt) : (c.setPc pc x).locket = c.locket := rfl
@[simp] theorem Chip.setPc_tables (c : Chip) (pc : Nat) (x : PcSt) : (c.setPc pc x).tables = c.tables := rfl
@[simp] theorem Chip.setPc_scratch (c : Chip) (pc : Nat) (x : PcSt) : (c.setPc pc x).scratch = c.scratch := rfl
@[simp] theorem Chip.setPc_hbm (c : Chip) (pc : Nat) (x : PcSt) : (c.setPc pc x).hbm = c.hbm := rfl
@[simp] theorem Chip.setPc_poison (c : Chip) (pc : Nat) (x : PcSt) : (c.setPc pc x).poison = c.poison := rfl
@[simp] theorem Chip.setPc_host (c : Chip) (pc : Nat) (x : PcSt) : (c.setPc pc x).host = c.host := rfl
@[simp] theorem Chip.setPc_pcs (c : Chip) (pc : Nat) (x : PcSt) : (c.setPc pc x).pcs = c.pcs.put pc x := rfl
@[simp] theorem Chip.setPc_stackTab (c : Chip) (pc : Nat) (x : PcSt) : (c.setPc pc x).stackTab = c.stackTab := rfl
@[simp] theorem Chip.setPc_mem (c : Chip) (pc : Nat) (x : PcSt) : (c.setPc pc x).mem = c.mem := rfl
@[simp] theorem Chip.setPc_settings (c : Chip) (pc : Nat) (x : PcSt) : (c.setPc pc x).settings = c.settings := rfl
@[simp] theorem Chip.setPc_sessions (c : Chip) (pc : Nat) (x : PcSt) : (c.setPc pc x).sessions = c.sessions := rfl
@[simp] theorem Chip.setPc_mailbox (c : Chip) (pc : Nat) (x : PcSt) : (c.setPc pc x).mailbox = c.mailbox := rfl
@[simp] theorem Chip.setPc_queues (c : Chip) (pc : Nat) (x : PcSt) : (c.setPc pc x).queues = c.queues := rfl
@[simp] theorem Chip.setPc_jobs (c : Chip) (pc : Nat) (x : PcSt) : (c.setPc pc x).jobs = c.jobs := rfl
@[simp] theorem Chip.setPc_transfers (c : Chip) (pc : Nat) (x : PcSt) : (c.setPc pc x).transfers = c.transfers := rfl
@[simp] theorem Chip.setPc_tableLoads (c : Chip) (pc : Nat) (x : PcSt) : (c.setPc pc x).tableLoads = c.tableLoads := rfl
@[simp] theorem Chip.setPc_walks (c : Chip) (pc : Nat) (x : PcSt) : (c.setPc pc x).walks = c.walks := rfl
@[simp] theorem Chip.setPc_edits (c : Chip) (pc : Nat) (x : PcSt) : (c.setPc pc x).edits = c.edits := rfl
@[simp] theorem Chip.setPc_reports (c : Chip) (pc : Nat) (x : PcSt) : (c.setPc pc x).reports = c.reports := rfl
@[simp] theorem Chip.setPc_contribs (c : Chip) (pc : Nat) (x : PcSt) : (c.setPc pc x).contribs = c.contribs := rfl
@[simp] theorem Chip.setPc_ringIn (c : Chip) (pc : Nat) (x : PcSt) : (c.setPc pc x).ringIn = c.ringIn := rfl
@[simp] theorem Chip.setPc_sched (c : Chip) (pc : Nat) (x : PcSt) : (c.setPc pc x).sched = c.sched := rfl
@[simp] theorem Chip.setPc_pairs (c : Chip) (pc : Nat) (x : PcSt) : (c.setPc pc x).pairs = c.pairs := rfl
@[simp] theorem Chip.setPc_streams (c : Chip) (pc : Nat) (x : PcSt) : (c.setPc pc x).streams = c.streams := rfl
@[simp] theorem Chip.setPc_heads (c : Chip) (pc : Nat) (x : PcSt) : (c.setPc pc x).heads = c.heads := rfl
@[simp] theorem Chip.setPc_held (c : Chip) (pc : Nat) (x : PcSt) : (c.setPc pc x).held = c.held := rfl
@[simp] theorem Chip.setPc_ports (c : Chip) (pc : Nat) (x : PcSt) : (c.setPc pc x).ports = c.ports := rfl
@[simp] theorem Chip.setPc_rings (c : Chip) (pc : Nat) (x : PcSt) : (c.setPc pc x).rings = c.rings := rfl
@[simp] theorem Chip.setPc_ringRuns (c : Chip) (pc : Nat) (x : PcSt) : (c.setPc pc x).ringRuns = c.ringRuns := rfl
@[simp] theorem Chip.setPc_strand (c : Chip) (pc : Nat) (x : PcSt) : (c.setPc pc x).strand = c.strand := rfl
@[simp] theorem Chip.setPc_mgmt (c : Chip) (pc : Nat) (x : PcSt) : (c.setPc pc x).mgmt = c.mgmt := rfl
@[simp] theorem Chip.setPc_telem (c : Chip) (pc : Nat) (x : PcSt) : (c.setPc pc x).telem = c.telem := rfl
@[simp] theorem Chip.setPc_flog (c : Chip) (pc : Nat) (x : PcSt) : (c.setPc pc x).flog = c.flog := rfl
@[simp] theorem Chip.setPc_raised (c : Chip) (pc : Nat) (x : PcSt) : (c.setPc pc x).raised = c.raised := rfl

/-! ## setStack -/

@[simp] theorem Chip.setStack_freeCtr (c : Chip) (n : Nat) (x : StackSt) : (c.setStack n x).freeCtr = c.freeCtr := rfl
@[simp] theorem Chip.setStack_sent (c : Chip) (n : Nat) (x : StackSt) : (c.setStack n x).sent = c.sent := rfl
@[simp] theorem Chip.setStack_tick (c : Chip) (n : Nat) (x : StackSt) : (c.setStack n x).tick = c.tick := rfl
@[simp] theorem Chip.setStack_pkg (c : Chip) (n : Nat) (x : StackSt) : (c.setStack n x).pkg = c.pkg := rfl
@[simp] theorem Chip.setStack_clasps (c : Chip) (n : Nat) (x : StackSt) : (c.setStack n x).clasps = c.clasps := rfl
@[simp] theorem Chip.setStack_edgesOut (c : Chip) (n : Nat) (x : StackSt) : (c.setStack n x).edgesOut = c.edgesOut := rfl
@[simp] theorem Chip.setStack_facets (c : Chip) (n : Nat) (x : StackSt) : (c.setStack n x).facets = c.facets := rfl
@[simp] theorem Chip.setStack_beads (c : Chip) (n : Nat) (x : StackSt) : (c.setStack n x).beads = c.beads := rfl
@[simp] theorem Chip.setStack_locket (c : Chip) (n : Nat) (x : StackSt) : (c.setStack n x).locket = c.locket := rfl
@[simp] theorem Chip.setStack_tables (c : Chip) (n : Nat) (x : StackSt) : (c.setStack n x).tables = c.tables := rfl
@[simp] theorem Chip.setStack_scratch (c : Chip) (n : Nat) (x : StackSt) : (c.setStack n x).scratch = c.scratch := rfl
@[simp] theorem Chip.setStack_hbm (c : Chip) (n : Nat) (x : StackSt) : (c.setStack n x).hbm = c.hbm := rfl
@[simp] theorem Chip.setStack_poison (c : Chip) (n : Nat) (x : StackSt) : (c.setStack n x).poison = c.poison := rfl
@[simp] theorem Chip.setStack_host (c : Chip) (n : Nat) (x : StackSt) : (c.setStack n x).host = c.host := rfl
@[simp] theorem Chip.setStack_pcs (c : Chip) (n : Nat) (x : StackSt) : (c.setStack n x).pcs = c.pcs := rfl
@[simp] theorem Chip.setStack_stackTab (c : Chip) (n : Nat) (x : StackSt) : (c.setStack n x).stackTab = c.stackTab.put n x := rfl
@[simp] theorem Chip.setStack_mem (c : Chip) (n : Nat) (x : StackSt) : (c.setStack n x).mem = c.mem := rfl
@[simp] theorem Chip.setStack_settings (c : Chip) (n : Nat) (x : StackSt) : (c.setStack n x).settings = c.settings := rfl
@[simp] theorem Chip.setStack_sessions (c : Chip) (n : Nat) (x : StackSt) : (c.setStack n x).sessions = c.sessions := rfl
@[simp] theorem Chip.setStack_mailbox (c : Chip) (n : Nat) (x : StackSt) : (c.setStack n x).mailbox = c.mailbox := rfl
@[simp] theorem Chip.setStack_queues (c : Chip) (n : Nat) (x : StackSt) : (c.setStack n x).queues = c.queues := rfl
@[simp] theorem Chip.setStack_jobs (c : Chip) (n : Nat) (x : StackSt) : (c.setStack n x).jobs = c.jobs := rfl
@[simp] theorem Chip.setStack_transfers (c : Chip) (n : Nat) (x : StackSt) : (c.setStack n x).transfers = c.transfers := rfl
@[simp] theorem Chip.setStack_tableLoads (c : Chip) (n : Nat) (x : StackSt) : (c.setStack n x).tableLoads = c.tableLoads := rfl
@[simp] theorem Chip.setStack_walks (c : Chip) (n : Nat) (x : StackSt) : (c.setStack n x).walks = c.walks := rfl
@[simp] theorem Chip.setStack_edits (c : Chip) (n : Nat) (x : StackSt) : (c.setStack n x).edits = c.edits := rfl
@[simp] theorem Chip.setStack_reports (c : Chip) (n : Nat) (x : StackSt) : (c.setStack n x).reports = c.reports := rfl
@[simp] theorem Chip.setStack_contribs (c : Chip) (n : Nat) (x : StackSt) : (c.setStack n x).contribs = c.contribs := rfl
@[simp] theorem Chip.setStack_ringIn (c : Chip) (n : Nat) (x : StackSt) : (c.setStack n x).ringIn = c.ringIn := rfl
@[simp] theorem Chip.setStack_sched (c : Chip) (n : Nat) (x : StackSt) : (c.setStack n x).sched = c.sched := rfl
@[simp] theorem Chip.setStack_pairs (c : Chip) (n : Nat) (x : StackSt) : (c.setStack n x).pairs = c.pairs := rfl
@[simp] theorem Chip.setStack_streams (c : Chip) (n : Nat) (x : StackSt) : (c.setStack n x).streams = c.streams := rfl
@[simp] theorem Chip.setStack_heads (c : Chip) (n : Nat) (x : StackSt) : (c.setStack n x).heads = c.heads := rfl
@[simp] theorem Chip.setStack_held (c : Chip) (n : Nat) (x : StackSt) : (c.setStack n x).held = c.held := rfl
@[simp] theorem Chip.setStack_ports (c : Chip) (n : Nat) (x : StackSt) : (c.setStack n x).ports = c.ports := rfl
@[simp] theorem Chip.setStack_rings (c : Chip) (n : Nat) (x : StackSt) : (c.setStack n x).rings = c.rings := rfl
@[simp] theorem Chip.setStack_ringRuns (c : Chip) (n : Nat) (x : StackSt) : (c.setStack n x).ringRuns = c.ringRuns := rfl
@[simp] theorem Chip.setStack_strand (c : Chip) (n : Nat) (x : StackSt) : (c.setStack n x).strand = c.strand := rfl
@[simp] theorem Chip.setStack_mgmt (c : Chip) (n : Nat) (x : StackSt) : (c.setStack n x).mgmt = c.mgmt := rfl
@[simp] theorem Chip.setStack_telem (c : Chip) (n : Nat) (x : StackSt) : (c.setStack n x).telem = c.telem := rfl
@[simp] theorem Chip.setStack_flog (c : Chip) (n : Nat) (x : StackSt) : (c.setStack n x).flog = c.flog := rfl
@[simp] theorem Chip.setStack_raised (c : Chip) (n : Nat) (x : StackSt) : (c.setStack n x).raised = c.raised := rfl

/-! ## setSession -/

@[simp] theorem Chip.setSession_freeCtr (c : Chip) (n : Nat) (x : SessionSt) : (c.setSession n x).freeCtr = c.freeCtr := rfl
@[simp] theorem Chip.setSession_sent (c : Chip) (n : Nat) (x : SessionSt) : (c.setSession n x).sent = c.sent := rfl
@[simp] theorem Chip.setSession_tick (c : Chip) (n : Nat) (x : SessionSt) : (c.setSession n x).tick = c.tick := rfl
@[simp] theorem Chip.setSession_pkg (c : Chip) (n : Nat) (x : SessionSt) : (c.setSession n x).pkg = c.pkg := rfl
@[simp] theorem Chip.setSession_clasps (c : Chip) (n : Nat) (x : SessionSt) : (c.setSession n x).clasps = c.clasps := rfl
@[simp] theorem Chip.setSession_edgesOut (c : Chip) (n : Nat) (x : SessionSt) : (c.setSession n x).edgesOut = c.edgesOut := rfl
@[simp] theorem Chip.setSession_facets (c : Chip) (n : Nat) (x : SessionSt) : (c.setSession n x).facets = c.facets := rfl
@[simp] theorem Chip.setSession_beads (c : Chip) (n : Nat) (x : SessionSt) : (c.setSession n x).beads = c.beads := rfl
@[simp] theorem Chip.setSession_locket (c : Chip) (n : Nat) (x : SessionSt) : (c.setSession n x).locket = c.locket := rfl
@[simp] theorem Chip.setSession_tables (c : Chip) (n : Nat) (x : SessionSt) : (c.setSession n x).tables = c.tables := rfl
@[simp] theorem Chip.setSession_scratch (c : Chip) (n : Nat) (x : SessionSt) : (c.setSession n x).scratch = c.scratch := rfl
@[simp] theorem Chip.setSession_hbm (c : Chip) (n : Nat) (x : SessionSt) : (c.setSession n x).hbm = c.hbm := rfl
@[simp] theorem Chip.setSession_poison (c : Chip) (n : Nat) (x : SessionSt) : (c.setSession n x).poison = c.poison := rfl
@[simp] theorem Chip.setSession_host (c : Chip) (n : Nat) (x : SessionSt) : (c.setSession n x).host = c.host := rfl
@[simp] theorem Chip.setSession_pcs (c : Chip) (n : Nat) (x : SessionSt) : (c.setSession n x).pcs = c.pcs := rfl
@[simp] theorem Chip.setSession_stackTab (c : Chip) (n : Nat) (x : SessionSt) : (c.setSession n x).stackTab = c.stackTab := rfl
@[simp] theorem Chip.setSession_mem (c : Chip) (n : Nat) (x : SessionSt) : (c.setSession n x).mem = c.mem := rfl
@[simp] theorem Chip.setSession_settings (c : Chip) (n : Nat) (x : SessionSt) : (c.setSession n x).settings = c.settings := rfl
@[simp] theorem Chip.setSession_sessions (c : Chip) (n : Nat) (x : SessionSt) : (c.setSession n x).sessions = c.sessions.put n x := rfl
@[simp] theorem Chip.setSession_mailbox (c : Chip) (n : Nat) (x : SessionSt) : (c.setSession n x).mailbox = c.mailbox := rfl
@[simp] theorem Chip.setSession_queues (c : Chip) (n : Nat) (x : SessionSt) : (c.setSession n x).queues = c.queues := rfl
@[simp] theorem Chip.setSession_jobs (c : Chip) (n : Nat) (x : SessionSt) : (c.setSession n x).jobs = c.jobs := rfl
@[simp] theorem Chip.setSession_transfers (c : Chip) (n : Nat) (x : SessionSt) : (c.setSession n x).transfers = c.transfers := rfl
@[simp] theorem Chip.setSession_tableLoads (c : Chip) (n : Nat) (x : SessionSt) : (c.setSession n x).tableLoads = c.tableLoads := rfl
@[simp] theorem Chip.setSession_walks (c : Chip) (n : Nat) (x : SessionSt) : (c.setSession n x).walks = c.walks := rfl
@[simp] theorem Chip.setSession_edits (c : Chip) (n : Nat) (x : SessionSt) : (c.setSession n x).edits = c.edits := rfl
@[simp] theorem Chip.setSession_reports (c : Chip) (n : Nat) (x : SessionSt) : (c.setSession n x).reports = c.reports := rfl
@[simp] theorem Chip.setSession_contribs (c : Chip) (n : Nat) (x : SessionSt) : (c.setSession n x).contribs = c.contribs := rfl
@[simp] theorem Chip.setSession_ringIn (c : Chip) (n : Nat) (x : SessionSt) : (c.setSession n x).ringIn = c.ringIn := rfl
@[simp] theorem Chip.setSession_sched (c : Chip) (n : Nat) (x : SessionSt) : (c.setSession n x).sched = c.sched := rfl
@[simp] theorem Chip.setSession_pairs (c : Chip) (n : Nat) (x : SessionSt) : (c.setSession n x).pairs = c.pairs := rfl
@[simp] theorem Chip.setSession_streams (c : Chip) (n : Nat) (x : SessionSt) : (c.setSession n x).streams = c.streams := rfl
@[simp] theorem Chip.setSession_heads (c : Chip) (n : Nat) (x : SessionSt) : (c.setSession n x).heads = c.heads := rfl
@[simp] theorem Chip.setSession_held (c : Chip) (n : Nat) (x : SessionSt) : (c.setSession n x).held = c.held := rfl
@[simp] theorem Chip.setSession_ports (c : Chip) (n : Nat) (x : SessionSt) : (c.setSession n x).ports = c.ports := rfl
@[simp] theorem Chip.setSession_rings (c : Chip) (n : Nat) (x : SessionSt) : (c.setSession n x).rings = c.rings := rfl
@[simp] theorem Chip.setSession_ringRuns (c : Chip) (n : Nat) (x : SessionSt) : (c.setSession n x).ringRuns = c.ringRuns := rfl
@[simp] theorem Chip.setSession_strand (c : Chip) (n : Nat) (x : SessionSt) : (c.setSession n x).strand = c.strand := rfl
@[simp] theorem Chip.setSession_mgmt (c : Chip) (n : Nat) (x : SessionSt) : (c.setSession n x).mgmt = c.mgmt := rfl
@[simp] theorem Chip.setSession_telem (c : Chip) (n : Nat) (x : SessionSt) : (c.setSession n x).telem = c.telem := rfl
@[simp] theorem Chip.setSession_flog (c : Chip) (n : Nat) (x : SessionSt) : (c.setSession n x).flog = c.flog := rfl
@[simp] theorem Chip.setSession_raised (c : Chip) (n : Nat) (x : SessionSt) : (c.setSession n x).raised = c.raised := rfl

/-! ## setQueue -/

@[simp] theorem Chip.setQueue_freeCtr (c : Chip) (q : Nat) (x : QueueSt) : (c.setQueue q x).freeCtr = c.freeCtr := rfl
@[simp] theorem Chip.setQueue_sent (c : Chip) (q : Nat) (x : QueueSt) : (c.setQueue q x).sent = c.sent := rfl
@[simp] theorem Chip.setQueue_tick (c : Chip) (q : Nat) (x : QueueSt) : (c.setQueue q x).tick = c.tick := rfl
@[simp] theorem Chip.setQueue_pkg (c : Chip) (q : Nat) (x : QueueSt) : (c.setQueue q x).pkg = c.pkg := rfl
@[simp] theorem Chip.setQueue_clasps (c : Chip) (q : Nat) (x : QueueSt) : (c.setQueue q x).clasps = c.clasps := rfl
@[simp] theorem Chip.setQueue_edgesOut (c : Chip) (q : Nat) (x : QueueSt) : (c.setQueue q x).edgesOut = c.edgesOut := rfl
@[simp] theorem Chip.setQueue_facets (c : Chip) (q : Nat) (x : QueueSt) : (c.setQueue q x).facets = c.facets := rfl
@[simp] theorem Chip.setQueue_beads (c : Chip) (q : Nat) (x : QueueSt) : (c.setQueue q x).beads = c.beads := rfl
@[simp] theorem Chip.setQueue_locket (c : Chip) (q : Nat) (x : QueueSt) : (c.setQueue q x).locket = c.locket := rfl
@[simp] theorem Chip.setQueue_tables (c : Chip) (q : Nat) (x : QueueSt) : (c.setQueue q x).tables = c.tables := rfl
@[simp] theorem Chip.setQueue_scratch (c : Chip) (q : Nat) (x : QueueSt) : (c.setQueue q x).scratch = c.scratch := rfl
@[simp] theorem Chip.setQueue_hbm (c : Chip) (q : Nat) (x : QueueSt) : (c.setQueue q x).hbm = c.hbm := rfl
@[simp] theorem Chip.setQueue_poison (c : Chip) (q : Nat) (x : QueueSt) : (c.setQueue q x).poison = c.poison := rfl
@[simp] theorem Chip.setQueue_host (c : Chip) (q : Nat) (x : QueueSt) : (c.setQueue q x).host = c.host := rfl
@[simp] theorem Chip.setQueue_pcs (c : Chip) (q : Nat) (x : QueueSt) : (c.setQueue q x).pcs = c.pcs := rfl
@[simp] theorem Chip.setQueue_stackTab (c : Chip) (q : Nat) (x : QueueSt) : (c.setQueue q x).stackTab = c.stackTab := rfl
@[simp] theorem Chip.setQueue_mem (c : Chip) (q : Nat) (x : QueueSt) : (c.setQueue q x).mem = c.mem := rfl
@[simp] theorem Chip.setQueue_settings (c : Chip) (q : Nat) (x : QueueSt) : (c.setQueue q x).settings = c.settings := rfl
@[simp] theorem Chip.setQueue_sessions (c : Chip) (q : Nat) (x : QueueSt) : (c.setQueue q x).sessions = c.sessions := rfl
@[simp] theorem Chip.setQueue_mailbox (c : Chip) (q : Nat) (x : QueueSt) : (c.setQueue q x).mailbox = c.mailbox := rfl
@[simp] theorem Chip.setQueue_queues (c : Chip) (q : Nat) (x : QueueSt) : (c.setQueue q x).queues = c.queues.put q x := rfl
@[simp] theorem Chip.setQueue_jobs (c : Chip) (q : Nat) (x : QueueSt) : (c.setQueue q x).jobs = c.jobs := rfl
@[simp] theorem Chip.setQueue_transfers (c : Chip) (q : Nat) (x : QueueSt) : (c.setQueue q x).transfers = c.transfers := rfl
@[simp] theorem Chip.setQueue_tableLoads (c : Chip) (q : Nat) (x : QueueSt) : (c.setQueue q x).tableLoads = c.tableLoads := rfl
@[simp] theorem Chip.setQueue_walks (c : Chip) (q : Nat) (x : QueueSt) : (c.setQueue q x).walks = c.walks := rfl
@[simp] theorem Chip.setQueue_edits (c : Chip) (q : Nat) (x : QueueSt) : (c.setQueue q x).edits = c.edits := rfl
@[simp] theorem Chip.setQueue_reports (c : Chip) (q : Nat) (x : QueueSt) : (c.setQueue q x).reports = c.reports := rfl
@[simp] theorem Chip.setQueue_contribs (c : Chip) (q : Nat) (x : QueueSt) : (c.setQueue q x).contribs = c.contribs := rfl
@[simp] theorem Chip.setQueue_ringIn (c : Chip) (q : Nat) (x : QueueSt) : (c.setQueue q x).ringIn = c.ringIn := rfl
@[simp] theorem Chip.setQueue_sched (c : Chip) (q : Nat) (x : QueueSt) : (c.setQueue q x).sched = c.sched := rfl
@[simp] theorem Chip.setQueue_pairs (c : Chip) (q : Nat) (x : QueueSt) : (c.setQueue q x).pairs = c.pairs := rfl
@[simp] theorem Chip.setQueue_streams (c : Chip) (q : Nat) (x : QueueSt) : (c.setQueue q x).streams = c.streams := rfl
@[simp] theorem Chip.setQueue_heads (c : Chip) (q : Nat) (x : QueueSt) : (c.setQueue q x).heads = c.heads := rfl
@[simp] theorem Chip.setQueue_held (c : Chip) (q : Nat) (x : QueueSt) : (c.setQueue q x).held = c.held := rfl
@[simp] theorem Chip.setQueue_ports (c : Chip) (q : Nat) (x : QueueSt) : (c.setQueue q x).ports = c.ports := rfl
@[simp] theorem Chip.setQueue_rings (c : Chip) (q : Nat) (x : QueueSt) : (c.setQueue q x).rings = c.rings := rfl
@[simp] theorem Chip.setQueue_ringRuns (c : Chip) (q : Nat) (x : QueueSt) : (c.setQueue q x).ringRuns = c.ringRuns := rfl
@[simp] theorem Chip.setQueue_strand (c : Chip) (q : Nat) (x : QueueSt) : (c.setQueue q x).strand = c.strand := rfl
@[simp] theorem Chip.setQueue_mgmt (c : Chip) (q : Nat) (x : QueueSt) : (c.setQueue q x).mgmt = c.mgmt := rfl
@[simp] theorem Chip.setQueue_telem (c : Chip) (q : Nat) (x : QueueSt) : (c.setQueue q x).telem = c.telem := rfl
@[simp] theorem Chip.setQueue_flog (c : Chip) (q : Nat) (x : QueueSt) : (c.setQueue q x).flog = c.flog := rfl
@[simp] theorem Chip.setQueue_raised (c : Chip) (q : Nat) (x : QueueSt) : (c.setQueue q x).raised = c.raised := rfl

/-! ## setJob -/

@[simp] theorem Chip.setJob_freeCtr (c : Chip) (j : Nat) (x : Job) : (c.setJob j x).freeCtr = c.freeCtr := rfl
@[simp] theorem Chip.setJob_sent (c : Chip) (j : Nat) (x : Job) : (c.setJob j x).sent = c.sent := rfl
@[simp] theorem Chip.setJob_tick (c : Chip) (j : Nat) (x : Job) : (c.setJob j x).tick = c.tick := rfl
@[simp] theorem Chip.setJob_pkg (c : Chip) (j : Nat) (x : Job) : (c.setJob j x).pkg = c.pkg := rfl
@[simp] theorem Chip.setJob_clasps (c : Chip) (j : Nat) (x : Job) : (c.setJob j x).clasps = c.clasps := rfl
@[simp] theorem Chip.setJob_edgesOut (c : Chip) (j : Nat) (x : Job) : (c.setJob j x).edgesOut = c.edgesOut := rfl
@[simp] theorem Chip.setJob_facets (c : Chip) (j : Nat) (x : Job) : (c.setJob j x).facets = c.facets := rfl
@[simp] theorem Chip.setJob_beads (c : Chip) (j : Nat) (x : Job) : (c.setJob j x).beads = c.beads := rfl
@[simp] theorem Chip.setJob_locket (c : Chip) (j : Nat) (x : Job) : (c.setJob j x).locket = c.locket := rfl
@[simp] theorem Chip.setJob_tables (c : Chip) (j : Nat) (x : Job) : (c.setJob j x).tables = c.tables := rfl
@[simp] theorem Chip.setJob_scratch (c : Chip) (j : Nat) (x : Job) : (c.setJob j x).scratch = c.scratch := rfl
@[simp] theorem Chip.setJob_hbm (c : Chip) (j : Nat) (x : Job) : (c.setJob j x).hbm = c.hbm := rfl
@[simp] theorem Chip.setJob_poison (c : Chip) (j : Nat) (x : Job) : (c.setJob j x).poison = c.poison := rfl
@[simp] theorem Chip.setJob_host (c : Chip) (j : Nat) (x : Job) : (c.setJob j x).host = c.host := rfl
@[simp] theorem Chip.setJob_pcs (c : Chip) (j : Nat) (x : Job) : (c.setJob j x).pcs = c.pcs := rfl
@[simp] theorem Chip.setJob_stackTab (c : Chip) (j : Nat) (x : Job) : (c.setJob j x).stackTab = c.stackTab := rfl
@[simp] theorem Chip.setJob_mem (c : Chip) (j : Nat) (x : Job) : (c.setJob j x).mem = c.mem := rfl
@[simp] theorem Chip.setJob_settings (c : Chip) (j : Nat) (x : Job) : (c.setJob j x).settings = c.settings := rfl
@[simp] theorem Chip.setJob_sessions (c : Chip) (j : Nat) (x : Job) : (c.setJob j x).sessions = c.sessions := rfl
@[simp] theorem Chip.setJob_mailbox (c : Chip) (j : Nat) (x : Job) : (c.setJob j x).mailbox = c.mailbox := rfl
@[simp] theorem Chip.setJob_queues (c : Chip) (j : Nat) (x : Job) : (c.setJob j x).queues = c.queues := rfl
@[simp] theorem Chip.setJob_jobs (c : Chip) (j : Nat) (x : Job) : (c.setJob j x).jobs = c.jobs.put j x := rfl
@[simp] theorem Chip.setJob_transfers (c : Chip) (j : Nat) (x : Job) : (c.setJob j x).transfers = c.transfers := rfl
@[simp] theorem Chip.setJob_tableLoads (c : Chip) (j : Nat) (x : Job) : (c.setJob j x).tableLoads = c.tableLoads := rfl
@[simp] theorem Chip.setJob_walks (c : Chip) (j : Nat) (x : Job) : (c.setJob j x).walks = c.walks := rfl
@[simp] theorem Chip.setJob_edits (c : Chip) (j : Nat) (x : Job) : (c.setJob j x).edits = c.edits := rfl
@[simp] theorem Chip.setJob_reports (c : Chip) (j : Nat) (x : Job) : (c.setJob j x).reports = c.reports := rfl
@[simp] theorem Chip.setJob_contribs (c : Chip) (j : Nat) (x : Job) : (c.setJob j x).contribs = c.contribs := rfl
@[simp] theorem Chip.setJob_ringIn (c : Chip) (j : Nat) (x : Job) : (c.setJob j x).ringIn = c.ringIn := rfl
@[simp] theorem Chip.setJob_sched (c : Chip) (j : Nat) (x : Job) : (c.setJob j x).sched = c.sched := rfl
@[simp] theorem Chip.setJob_pairs (c : Chip) (j : Nat) (x : Job) : (c.setJob j x).pairs = c.pairs := rfl
@[simp] theorem Chip.setJob_streams (c : Chip) (j : Nat) (x : Job) : (c.setJob j x).streams = c.streams := rfl
@[simp] theorem Chip.setJob_heads (c : Chip) (j : Nat) (x : Job) : (c.setJob j x).heads = c.heads := rfl
@[simp] theorem Chip.setJob_held (c : Chip) (j : Nat) (x : Job) : (c.setJob j x).held = c.held := rfl
@[simp] theorem Chip.setJob_ports (c : Chip) (j : Nat) (x : Job) : (c.setJob j x).ports = c.ports := rfl
@[simp] theorem Chip.setJob_rings (c : Chip) (j : Nat) (x : Job) : (c.setJob j x).rings = c.rings := rfl
@[simp] theorem Chip.setJob_ringRuns (c : Chip) (j : Nat) (x : Job) : (c.setJob j x).ringRuns = c.ringRuns := rfl
@[simp] theorem Chip.setJob_strand (c : Chip) (j : Nat) (x : Job) : (c.setJob j x).strand = c.strand := rfl
@[simp] theorem Chip.setJob_mgmt (c : Chip) (j : Nat) (x : Job) : (c.setJob j x).mgmt = c.mgmt := rfl
@[simp] theorem Chip.setJob_telem (c : Chip) (j : Nat) (x : Job) : (c.setJob j x).telem = c.telem := rfl
@[simp] theorem Chip.setJob_flog (c : Chip) (j : Nat) (x : Job) : (c.setJob j x).flog = c.flog := rfl
@[simp] theorem Chip.setJob_raised (c : Chip) (j : Nat) (x : Job) : (c.setJob j x).raised = c.raised := rfl

/-! ## setPair -/

@[simp] theorem Chip.setPair_freeCtr (c : Chip) (e : Nat) (x : PairSt) : (c.setPair e x).freeCtr = c.freeCtr := rfl
@[simp] theorem Chip.setPair_sent (c : Chip) (e : Nat) (x : PairSt) : (c.setPair e x).sent = c.sent := rfl
@[simp] theorem Chip.setPair_tick (c : Chip) (e : Nat) (x : PairSt) : (c.setPair e x).tick = c.tick := rfl
@[simp] theorem Chip.setPair_pkg (c : Chip) (e : Nat) (x : PairSt) : (c.setPair e x).pkg = c.pkg := rfl
@[simp] theorem Chip.setPair_clasps (c : Chip) (e : Nat) (x : PairSt) : (c.setPair e x).clasps = c.clasps := rfl
@[simp] theorem Chip.setPair_edgesOut (c : Chip) (e : Nat) (x : PairSt) : (c.setPair e x).edgesOut = c.edgesOut := rfl
@[simp] theorem Chip.setPair_facets (c : Chip) (e : Nat) (x : PairSt) : (c.setPair e x).facets = c.facets := rfl
@[simp] theorem Chip.setPair_beads (c : Chip) (e : Nat) (x : PairSt) : (c.setPair e x).beads = c.beads := rfl
@[simp] theorem Chip.setPair_locket (c : Chip) (e : Nat) (x : PairSt) : (c.setPair e x).locket = c.locket := rfl
@[simp] theorem Chip.setPair_tables (c : Chip) (e : Nat) (x : PairSt) : (c.setPair e x).tables = c.tables := rfl
@[simp] theorem Chip.setPair_scratch (c : Chip) (e : Nat) (x : PairSt) : (c.setPair e x).scratch = c.scratch := rfl
@[simp] theorem Chip.setPair_hbm (c : Chip) (e : Nat) (x : PairSt) : (c.setPair e x).hbm = c.hbm := rfl
@[simp] theorem Chip.setPair_poison (c : Chip) (e : Nat) (x : PairSt) : (c.setPair e x).poison = c.poison := rfl
@[simp] theorem Chip.setPair_host (c : Chip) (e : Nat) (x : PairSt) : (c.setPair e x).host = c.host := rfl
@[simp] theorem Chip.setPair_pcs (c : Chip) (e : Nat) (x : PairSt) : (c.setPair e x).pcs = c.pcs := rfl
@[simp] theorem Chip.setPair_stackTab (c : Chip) (e : Nat) (x : PairSt) : (c.setPair e x).stackTab = c.stackTab := rfl
@[simp] theorem Chip.setPair_mem (c : Chip) (e : Nat) (x : PairSt) : (c.setPair e x).mem = c.mem := rfl
@[simp] theorem Chip.setPair_settings (c : Chip) (e : Nat) (x : PairSt) : (c.setPair e x).settings = c.settings := rfl
@[simp] theorem Chip.setPair_sessions (c : Chip) (e : Nat) (x : PairSt) : (c.setPair e x).sessions = c.sessions := rfl
@[simp] theorem Chip.setPair_mailbox (c : Chip) (e : Nat) (x : PairSt) : (c.setPair e x).mailbox = c.mailbox := rfl
@[simp] theorem Chip.setPair_queues (c : Chip) (e : Nat) (x : PairSt) : (c.setPair e x).queues = c.queues := rfl
@[simp] theorem Chip.setPair_jobs (c : Chip) (e : Nat) (x : PairSt) : (c.setPair e x).jobs = c.jobs := rfl
@[simp] theorem Chip.setPair_transfers (c : Chip) (e : Nat) (x : PairSt) : (c.setPair e x).transfers = c.transfers := rfl
@[simp] theorem Chip.setPair_tableLoads (c : Chip) (e : Nat) (x : PairSt) : (c.setPair e x).tableLoads = c.tableLoads := rfl
@[simp] theorem Chip.setPair_walks (c : Chip) (e : Nat) (x : PairSt) : (c.setPair e x).walks = c.walks := rfl
@[simp] theorem Chip.setPair_edits (c : Chip) (e : Nat) (x : PairSt) : (c.setPair e x).edits = c.edits := rfl
@[simp] theorem Chip.setPair_reports (c : Chip) (e : Nat) (x : PairSt) : (c.setPair e x).reports = c.reports := rfl
@[simp] theorem Chip.setPair_contribs (c : Chip) (e : Nat) (x : PairSt) : (c.setPair e x).contribs = c.contribs := rfl
@[simp] theorem Chip.setPair_ringIn (c : Chip) (e : Nat) (x : PairSt) : (c.setPair e x).ringIn = c.ringIn := rfl
@[simp] theorem Chip.setPair_sched (c : Chip) (e : Nat) (x : PairSt) : (c.setPair e x).sched = c.sched := rfl
@[simp] theorem Chip.setPair_pairs (c : Chip) (e : Nat) (x : PairSt) : (c.setPair e x).pairs = c.pairs.put e x := rfl
@[simp] theorem Chip.setPair_streams (c : Chip) (e : Nat) (x : PairSt) : (c.setPair e x).streams = c.streams := rfl
@[simp] theorem Chip.setPair_heads (c : Chip) (e : Nat) (x : PairSt) : (c.setPair e x).heads = c.heads := rfl
@[simp] theorem Chip.setPair_held (c : Chip) (e : Nat) (x : PairSt) : (c.setPair e x).held = c.held := rfl
@[simp] theorem Chip.setPair_ports (c : Chip) (e : Nat) (x : PairSt) : (c.setPair e x).ports = c.ports := rfl
@[simp] theorem Chip.setPair_rings (c : Chip) (e : Nat) (x : PairSt) : (c.setPair e x).rings = c.rings := rfl
@[simp] theorem Chip.setPair_ringRuns (c : Chip) (e : Nat) (x : PairSt) : (c.setPair e x).ringRuns = c.ringRuns := rfl
@[simp] theorem Chip.setPair_strand (c : Chip) (e : Nat) (x : PairSt) : (c.setPair e x).strand = c.strand := rfl
@[simp] theorem Chip.setPair_mgmt (c : Chip) (e : Nat) (x : PairSt) : (c.setPair e x).mgmt = c.mgmt := rfl
@[simp] theorem Chip.setPair_telem (c : Chip) (e : Nat) (x : PairSt) : (c.setPair e x).telem = c.telem := rfl
@[simp] theorem Chip.setPair_flog (c : Chip) (e : Nat) (x : PairSt) : (c.setPair e x).flog = c.flog := rfl
@[simp] theorem Chip.setPair_raised (c : Chip) (e : Nat) (x : PairSt) : (c.setPair e x).raised = c.raised := rfl

/-! ## setPort -/

@[simp] theorem Chip.setPort_freeCtr (c : Chip) (n : Nat) (x : PortSt) : (c.setPort n x).freeCtr = c.freeCtr := rfl
@[simp] theorem Chip.setPort_sent (c : Chip) (n : Nat) (x : PortSt) : (c.setPort n x).sent = c.sent := rfl
@[simp] theorem Chip.setPort_tick (c : Chip) (n : Nat) (x : PortSt) : (c.setPort n x).tick = c.tick := rfl
@[simp] theorem Chip.setPort_pkg (c : Chip) (n : Nat) (x : PortSt) : (c.setPort n x).pkg = c.pkg := rfl
@[simp] theorem Chip.setPort_clasps (c : Chip) (n : Nat) (x : PortSt) : (c.setPort n x).clasps = c.clasps := rfl
@[simp] theorem Chip.setPort_edgesOut (c : Chip) (n : Nat) (x : PortSt) : (c.setPort n x).edgesOut = c.edgesOut := rfl
@[simp] theorem Chip.setPort_facets (c : Chip) (n : Nat) (x : PortSt) : (c.setPort n x).facets = c.facets := rfl
@[simp] theorem Chip.setPort_beads (c : Chip) (n : Nat) (x : PortSt) : (c.setPort n x).beads = c.beads := rfl
@[simp] theorem Chip.setPort_locket (c : Chip) (n : Nat) (x : PortSt) : (c.setPort n x).locket = c.locket := rfl
@[simp] theorem Chip.setPort_tables (c : Chip) (n : Nat) (x : PortSt) : (c.setPort n x).tables = c.tables := rfl
@[simp] theorem Chip.setPort_scratch (c : Chip) (n : Nat) (x : PortSt) : (c.setPort n x).scratch = c.scratch := rfl
@[simp] theorem Chip.setPort_hbm (c : Chip) (n : Nat) (x : PortSt) : (c.setPort n x).hbm = c.hbm := rfl
@[simp] theorem Chip.setPort_poison (c : Chip) (n : Nat) (x : PortSt) : (c.setPort n x).poison = c.poison := rfl
@[simp] theorem Chip.setPort_host (c : Chip) (n : Nat) (x : PortSt) : (c.setPort n x).host = c.host := rfl
@[simp] theorem Chip.setPort_pcs (c : Chip) (n : Nat) (x : PortSt) : (c.setPort n x).pcs = c.pcs := rfl
@[simp] theorem Chip.setPort_stackTab (c : Chip) (n : Nat) (x : PortSt) : (c.setPort n x).stackTab = c.stackTab := rfl
@[simp] theorem Chip.setPort_mem (c : Chip) (n : Nat) (x : PortSt) : (c.setPort n x).mem = c.mem := rfl
@[simp] theorem Chip.setPort_settings (c : Chip) (n : Nat) (x : PortSt) : (c.setPort n x).settings = c.settings := rfl
@[simp] theorem Chip.setPort_sessions (c : Chip) (n : Nat) (x : PortSt) : (c.setPort n x).sessions = c.sessions := rfl
@[simp] theorem Chip.setPort_mailbox (c : Chip) (n : Nat) (x : PortSt) : (c.setPort n x).mailbox = c.mailbox := rfl
@[simp] theorem Chip.setPort_queues (c : Chip) (n : Nat) (x : PortSt) : (c.setPort n x).queues = c.queues := rfl
@[simp] theorem Chip.setPort_jobs (c : Chip) (n : Nat) (x : PortSt) : (c.setPort n x).jobs = c.jobs := rfl
@[simp] theorem Chip.setPort_transfers (c : Chip) (n : Nat) (x : PortSt) : (c.setPort n x).transfers = c.transfers := rfl
@[simp] theorem Chip.setPort_tableLoads (c : Chip) (n : Nat) (x : PortSt) : (c.setPort n x).tableLoads = c.tableLoads := rfl
@[simp] theorem Chip.setPort_walks (c : Chip) (n : Nat) (x : PortSt) : (c.setPort n x).walks = c.walks := rfl
@[simp] theorem Chip.setPort_edits (c : Chip) (n : Nat) (x : PortSt) : (c.setPort n x).edits = c.edits := rfl
@[simp] theorem Chip.setPort_reports (c : Chip) (n : Nat) (x : PortSt) : (c.setPort n x).reports = c.reports := rfl
@[simp] theorem Chip.setPort_contribs (c : Chip) (n : Nat) (x : PortSt) : (c.setPort n x).contribs = c.contribs := rfl
@[simp] theorem Chip.setPort_ringIn (c : Chip) (n : Nat) (x : PortSt) : (c.setPort n x).ringIn = c.ringIn := rfl
@[simp] theorem Chip.setPort_sched (c : Chip) (n : Nat) (x : PortSt) : (c.setPort n x).sched = c.sched := rfl
@[simp] theorem Chip.setPort_pairs (c : Chip) (n : Nat) (x : PortSt) : (c.setPort n x).pairs = c.pairs := rfl
@[simp] theorem Chip.setPort_streams (c : Chip) (n : Nat) (x : PortSt) : (c.setPort n x).streams = c.streams := rfl
@[simp] theorem Chip.setPort_heads (c : Chip) (n : Nat) (x : PortSt) : (c.setPort n x).heads = c.heads := rfl
@[simp] theorem Chip.setPort_held (c : Chip) (n : Nat) (x : PortSt) : (c.setPort n x).held = c.held := rfl
@[simp] theorem Chip.setPort_ports (c : Chip) (n : Nat) (x : PortSt) : (c.setPort n x).ports = c.ports.put n x := rfl
@[simp] theorem Chip.setPort_rings (c : Chip) (n : Nat) (x : PortSt) : (c.setPort n x).rings = c.rings := rfl
@[simp] theorem Chip.setPort_ringRuns (c : Chip) (n : Nat) (x : PortSt) : (c.setPort n x).ringRuns = c.ringRuns := rfl
@[simp] theorem Chip.setPort_strand (c : Chip) (n : Nat) (x : PortSt) : (c.setPort n x).strand = c.strand := rfl
@[simp] theorem Chip.setPort_mgmt (c : Chip) (n : Nat) (x : PortSt) : (c.setPort n x).mgmt = c.mgmt := rfl
@[simp] theorem Chip.setPort_telem (c : Chip) (n : Nat) (x : PortSt) : (c.setPort n x).telem = c.telem := rfl
@[simp] theorem Chip.setPort_flog (c : Chip) (n : Nat) (x : PortSt) : (c.setPort n x).flog = c.flog := rfl
@[simp] theorem Chip.setPort_raised (c : Chip) (n : Nat) (x : PortSt) : (c.setPort n x).raised = c.raised := rfl

/-! ## setRing -/

@[simp] theorem Chip.setRing_freeCtr (c : Chip) (r : Nat) (x : RingEntry) : (c.setRing r x).freeCtr = c.freeCtr := rfl
@[simp] theorem Chip.setRing_sent (c : Chip) (r : Nat) (x : RingEntry) : (c.setRing r x).sent = c.sent := rfl
@[simp] theorem Chip.setRing_tick (c : Chip) (r : Nat) (x : RingEntry) : (c.setRing r x).tick = c.tick := rfl
@[simp] theorem Chip.setRing_pkg (c : Chip) (r : Nat) (x : RingEntry) : (c.setRing r x).pkg = c.pkg := rfl
@[simp] theorem Chip.setRing_clasps (c : Chip) (r : Nat) (x : RingEntry) : (c.setRing r x).clasps = c.clasps := rfl
@[simp] theorem Chip.setRing_edgesOut (c : Chip) (r : Nat) (x : RingEntry) : (c.setRing r x).edgesOut = c.edgesOut := rfl
@[simp] theorem Chip.setRing_facets (c : Chip) (r : Nat) (x : RingEntry) : (c.setRing r x).facets = c.facets := rfl
@[simp] theorem Chip.setRing_beads (c : Chip) (r : Nat) (x : RingEntry) : (c.setRing r x).beads = c.beads := rfl
@[simp] theorem Chip.setRing_locket (c : Chip) (r : Nat) (x : RingEntry) : (c.setRing r x).locket = c.locket := rfl
@[simp] theorem Chip.setRing_tables (c : Chip) (r : Nat) (x : RingEntry) : (c.setRing r x).tables = c.tables := rfl
@[simp] theorem Chip.setRing_scratch (c : Chip) (r : Nat) (x : RingEntry) : (c.setRing r x).scratch = c.scratch := rfl
@[simp] theorem Chip.setRing_hbm (c : Chip) (r : Nat) (x : RingEntry) : (c.setRing r x).hbm = c.hbm := rfl
@[simp] theorem Chip.setRing_poison (c : Chip) (r : Nat) (x : RingEntry) : (c.setRing r x).poison = c.poison := rfl
@[simp] theorem Chip.setRing_host (c : Chip) (r : Nat) (x : RingEntry) : (c.setRing r x).host = c.host := rfl
@[simp] theorem Chip.setRing_pcs (c : Chip) (r : Nat) (x : RingEntry) : (c.setRing r x).pcs = c.pcs := rfl
@[simp] theorem Chip.setRing_stackTab (c : Chip) (r : Nat) (x : RingEntry) : (c.setRing r x).stackTab = c.stackTab := rfl
@[simp] theorem Chip.setRing_mem (c : Chip) (r : Nat) (x : RingEntry) : (c.setRing r x).mem = c.mem := rfl
@[simp] theorem Chip.setRing_settings (c : Chip) (r : Nat) (x : RingEntry) : (c.setRing r x).settings = c.settings := rfl
@[simp] theorem Chip.setRing_sessions (c : Chip) (r : Nat) (x : RingEntry) : (c.setRing r x).sessions = c.sessions := rfl
@[simp] theorem Chip.setRing_mailbox (c : Chip) (r : Nat) (x : RingEntry) : (c.setRing r x).mailbox = c.mailbox := rfl
@[simp] theorem Chip.setRing_queues (c : Chip) (r : Nat) (x : RingEntry) : (c.setRing r x).queues = c.queues := rfl
@[simp] theorem Chip.setRing_jobs (c : Chip) (r : Nat) (x : RingEntry) : (c.setRing r x).jobs = c.jobs := rfl
@[simp] theorem Chip.setRing_transfers (c : Chip) (r : Nat) (x : RingEntry) : (c.setRing r x).transfers = c.transfers := rfl
@[simp] theorem Chip.setRing_tableLoads (c : Chip) (r : Nat) (x : RingEntry) : (c.setRing r x).tableLoads = c.tableLoads := rfl
@[simp] theorem Chip.setRing_walks (c : Chip) (r : Nat) (x : RingEntry) : (c.setRing r x).walks = c.walks := rfl
@[simp] theorem Chip.setRing_edits (c : Chip) (r : Nat) (x : RingEntry) : (c.setRing r x).edits = c.edits := rfl
@[simp] theorem Chip.setRing_reports (c : Chip) (r : Nat) (x : RingEntry) : (c.setRing r x).reports = c.reports := rfl
@[simp] theorem Chip.setRing_contribs (c : Chip) (r : Nat) (x : RingEntry) : (c.setRing r x).contribs = c.contribs := rfl
@[simp] theorem Chip.setRing_ringIn (c : Chip) (r : Nat) (x : RingEntry) : (c.setRing r x).ringIn = c.ringIn := rfl
@[simp] theorem Chip.setRing_sched (c : Chip) (r : Nat) (x : RingEntry) : (c.setRing r x).sched = c.sched := rfl
@[simp] theorem Chip.setRing_pairs (c : Chip) (r : Nat) (x : RingEntry) : (c.setRing r x).pairs = c.pairs := rfl
@[simp] theorem Chip.setRing_streams (c : Chip) (r : Nat) (x : RingEntry) : (c.setRing r x).streams = c.streams := rfl
@[simp] theorem Chip.setRing_heads (c : Chip) (r : Nat) (x : RingEntry) : (c.setRing r x).heads = c.heads := rfl
@[simp] theorem Chip.setRing_held (c : Chip) (r : Nat) (x : RingEntry) : (c.setRing r x).held = c.held := rfl
@[simp] theorem Chip.setRing_ports (c : Chip) (r : Nat) (x : RingEntry) : (c.setRing r x).ports = c.ports := rfl
@[simp] theorem Chip.setRing_rings (c : Chip) (r : Nat) (x : RingEntry) : (c.setRing r x).rings = c.rings.put r x := rfl
@[simp] theorem Chip.setRing_ringRuns (c : Chip) (r : Nat) (x : RingEntry) : (c.setRing r x).ringRuns = c.ringRuns := rfl
@[simp] theorem Chip.setRing_strand (c : Chip) (r : Nat) (x : RingEntry) : (c.setRing r x).strand = c.strand := rfl
@[simp] theorem Chip.setRing_mgmt (c : Chip) (r : Nat) (x : RingEntry) : (c.setRing r x).mgmt = c.mgmt := rfl
@[simp] theorem Chip.setRing_telem (c : Chip) (r : Nat) (x : RingEntry) : (c.setRing r x).telem = c.telem := rfl
@[simp] theorem Chip.setRing_flog (c : Chip) (r : Nat) (x : RingEntry) : (c.setRing r x).flog = c.flog := rfl
@[simp] theorem Chip.setRing_raised (c : Chip) (r : Nat) (x : RingEntry) : (c.setRing r x).raised = c.raised := rfl

/-! ## setRingRun -/

@[simp] theorem Chip.setRingRun_freeCtr (c : Chip) (r : Nat) (x : RingRun) : (c.setRingRun r x).freeCtr = c.freeCtr := rfl
@[simp] theorem Chip.setRingRun_sent (c : Chip) (r : Nat) (x : RingRun) : (c.setRingRun r x).sent = c.sent := rfl
@[simp] theorem Chip.setRingRun_tick (c : Chip) (r : Nat) (x : RingRun) : (c.setRingRun r x).tick = c.tick := rfl
@[simp] theorem Chip.setRingRun_pkg (c : Chip) (r : Nat) (x : RingRun) : (c.setRingRun r x).pkg = c.pkg := rfl
@[simp] theorem Chip.setRingRun_clasps (c : Chip) (r : Nat) (x : RingRun) : (c.setRingRun r x).clasps = c.clasps := rfl
@[simp] theorem Chip.setRingRun_edgesOut (c : Chip) (r : Nat) (x : RingRun) : (c.setRingRun r x).edgesOut = c.edgesOut := rfl
@[simp] theorem Chip.setRingRun_facets (c : Chip) (r : Nat) (x : RingRun) : (c.setRingRun r x).facets = c.facets := rfl
@[simp] theorem Chip.setRingRun_beads (c : Chip) (r : Nat) (x : RingRun) : (c.setRingRun r x).beads = c.beads := rfl
@[simp] theorem Chip.setRingRun_locket (c : Chip) (r : Nat) (x : RingRun) : (c.setRingRun r x).locket = c.locket := rfl
@[simp] theorem Chip.setRingRun_tables (c : Chip) (r : Nat) (x : RingRun) : (c.setRingRun r x).tables = c.tables := rfl
@[simp] theorem Chip.setRingRun_scratch (c : Chip) (r : Nat) (x : RingRun) : (c.setRingRun r x).scratch = c.scratch := rfl
@[simp] theorem Chip.setRingRun_hbm (c : Chip) (r : Nat) (x : RingRun) : (c.setRingRun r x).hbm = c.hbm := rfl
@[simp] theorem Chip.setRingRun_poison (c : Chip) (r : Nat) (x : RingRun) : (c.setRingRun r x).poison = c.poison := rfl
@[simp] theorem Chip.setRingRun_host (c : Chip) (r : Nat) (x : RingRun) : (c.setRingRun r x).host = c.host := rfl
@[simp] theorem Chip.setRingRun_pcs (c : Chip) (r : Nat) (x : RingRun) : (c.setRingRun r x).pcs = c.pcs := rfl
@[simp] theorem Chip.setRingRun_stackTab (c : Chip) (r : Nat) (x : RingRun) : (c.setRingRun r x).stackTab = c.stackTab := rfl
@[simp] theorem Chip.setRingRun_mem (c : Chip) (r : Nat) (x : RingRun) : (c.setRingRun r x).mem = c.mem := rfl
@[simp] theorem Chip.setRingRun_settings (c : Chip) (r : Nat) (x : RingRun) : (c.setRingRun r x).settings = c.settings := rfl
@[simp] theorem Chip.setRingRun_sessions (c : Chip) (r : Nat) (x : RingRun) : (c.setRingRun r x).sessions = c.sessions := rfl
@[simp] theorem Chip.setRingRun_mailbox (c : Chip) (r : Nat) (x : RingRun) : (c.setRingRun r x).mailbox = c.mailbox := rfl
@[simp] theorem Chip.setRingRun_queues (c : Chip) (r : Nat) (x : RingRun) : (c.setRingRun r x).queues = c.queues := rfl
@[simp] theorem Chip.setRingRun_jobs (c : Chip) (r : Nat) (x : RingRun) : (c.setRingRun r x).jobs = c.jobs := rfl
@[simp] theorem Chip.setRingRun_transfers (c : Chip) (r : Nat) (x : RingRun) : (c.setRingRun r x).transfers = c.transfers := rfl
@[simp] theorem Chip.setRingRun_tableLoads (c : Chip) (r : Nat) (x : RingRun) : (c.setRingRun r x).tableLoads = c.tableLoads := rfl
@[simp] theorem Chip.setRingRun_walks (c : Chip) (r : Nat) (x : RingRun) : (c.setRingRun r x).walks = c.walks := rfl
@[simp] theorem Chip.setRingRun_edits (c : Chip) (r : Nat) (x : RingRun) : (c.setRingRun r x).edits = c.edits := rfl
@[simp] theorem Chip.setRingRun_reports (c : Chip) (r : Nat) (x : RingRun) : (c.setRingRun r x).reports = c.reports := rfl
@[simp] theorem Chip.setRingRun_contribs (c : Chip) (r : Nat) (x : RingRun) : (c.setRingRun r x).contribs = c.contribs := rfl
@[simp] theorem Chip.setRingRun_ringIn (c : Chip) (r : Nat) (x : RingRun) : (c.setRingRun r x).ringIn = c.ringIn := rfl
@[simp] theorem Chip.setRingRun_sched (c : Chip) (r : Nat) (x : RingRun) : (c.setRingRun r x).sched = c.sched := rfl
@[simp] theorem Chip.setRingRun_pairs (c : Chip) (r : Nat) (x : RingRun) : (c.setRingRun r x).pairs = c.pairs := rfl
@[simp] theorem Chip.setRingRun_streams (c : Chip) (r : Nat) (x : RingRun) : (c.setRingRun r x).streams = c.streams := rfl
@[simp] theorem Chip.setRingRun_heads (c : Chip) (r : Nat) (x : RingRun) : (c.setRingRun r x).heads = c.heads := rfl
@[simp] theorem Chip.setRingRun_held (c : Chip) (r : Nat) (x : RingRun) : (c.setRingRun r x).held = c.held := rfl
@[simp] theorem Chip.setRingRun_ports (c : Chip) (r : Nat) (x : RingRun) : (c.setRingRun r x).ports = c.ports := rfl
@[simp] theorem Chip.setRingRun_rings (c : Chip) (r : Nat) (x : RingRun) : (c.setRingRun r x).rings = c.rings := rfl
@[simp] theorem Chip.setRingRun_ringRuns (c : Chip) (r : Nat) (x : RingRun) : (c.setRingRun r x).ringRuns = c.ringRuns.put r x := rfl
@[simp] theorem Chip.setRingRun_strand (c : Chip) (r : Nat) (x : RingRun) : (c.setRingRun r x).strand = c.strand := rfl
@[simp] theorem Chip.setRingRun_mgmt (c : Chip) (r : Nat) (x : RingRun) : (c.setRingRun r x).mgmt = c.mgmt := rfl
@[simp] theorem Chip.setRingRun_telem (c : Chip) (r : Nat) (x : RingRun) : (c.setRingRun r x).telem = c.telem := rfl
@[simp] theorem Chip.setRingRun_flog (c : Chip) (r : Nat) (x : RingRun) : (c.setRingRun r x).flog = c.flog := rfl
@[simp] theorem Chip.setRingRun_raised (c : Chip) (r : Nat) (x : RingRun) : (c.setRingRun r x).raised = c.raised := rfl

/-! ## updClasp -/

@[simp] theorem Chip.updClasp_freeCtr (c : Chip) (n : Nat) (g : ClaspSt → ClaspSt) : (c.updClasp n g).freeCtr = c.freeCtr := rfl
@[simp] theorem Chip.updClasp_sent (c : Chip) (n : Nat) (g : ClaspSt → ClaspSt) : (c.updClasp n g).sent = c.sent := rfl
@[simp] theorem Chip.updClasp_tick (c : Chip) (n : Nat) (g : ClaspSt → ClaspSt) : (c.updClasp n g).tick = c.tick := rfl
@[simp] theorem Chip.updClasp_pkg (c : Chip) (n : Nat) (g : ClaspSt → ClaspSt) : (c.updClasp n g).pkg = c.pkg := rfl
@[simp] theorem Chip.updClasp_clasps (c : Chip) (n : Nat) (g : ClaspSt → ClaspSt) : (c.updClasp n g).clasps = modAt c.clasps n g := rfl
@[simp] theorem Chip.updClasp_edgesOut (c : Chip) (n : Nat) (g : ClaspSt → ClaspSt) : (c.updClasp n g).edgesOut = c.edgesOut := rfl
@[simp] theorem Chip.updClasp_facets (c : Chip) (n : Nat) (g : ClaspSt → ClaspSt) : (c.updClasp n g).facets = c.facets := rfl
@[simp] theorem Chip.updClasp_beads (c : Chip) (n : Nat) (g : ClaspSt → ClaspSt) : (c.updClasp n g).beads = c.beads := rfl
@[simp] theorem Chip.updClasp_locket (c : Chip) (n : Nat) (g : ClaspSt → ClaspSt) : (c.updClasp n g).locket = c.locket := rfl
@[simp] theorem Chip.updClasp_tables (c : Chip) (n : Nat) (g : ClaspSt → ClaspSt) : (c.updClasp n g).tables = c.tables := rfl
@[simp] theorem Chip.updClasp_scratch (c : Chip) (n : Nat) (g : ClaspSt → ClaspSt) : (c.updClasp n g).scratch = c.scratch := rfl
@[simp] theorem Chip.updClasp_hbm (c : Chip) (n : Nat) (g : ClaspSt → ClaspSt) : (c.updClasp n g).hbm = c.hbm := rfl
@[simp] theorem Chip.updClasp_poison (c : Chip) (n : Nat) (g : ClaspSt → ClaspSt) : (c.updClasp n g).poison = c.poison := rfl
@[simp] theorem Chip.updClasp_host (c : Chip) (n : Nat) (g : ClaspSt → ClaspSt) : (c.updClasp n g).host = c.host := rfl
@[simp] theorem Chip.updClasp_pcs (c : Chip) (n : Nat) (g : ClaspSt → ClaspSt) : (c.updClasp n g).pcs = c.pcs := rfl
@[simp] theorem Chip.updClasp_stackTab (c : Chip) (n : Nat) (g : ClaspSt → ClaspSt) : (c.updClasp n g).stackTab = c.stackTab := rfl
@[simp] theorem Chip.updClasp_mem (c : Chip) (n : Nat) (g : ClaspSt → ClaspSt) : (c.updClasp n g).mem = c.mem := rfl
@[simp] theorem Chip.updClasp_settings (c : Chip) (n : Nat) (g : ClaspSt → ClaspSt) : (c.updClasp n g).settings = c.settings := rfl
@[simp] theorem Chip.updClasp_sessions (c : Chip) (n : Nat) (g : ClaspSt → ClaspSt) : (c.updClasp n g).sessions = c.sessions := rfl
@[simp] theorem Chip.updClasp_mailbox (c : Chip) (n : Nat) (g : ClaspSt → ClaspSt) : (c.updClasp n g).mailbox = c.mailbox := rfl
@[simp] theorem Chip.updClasp_queues (c : Chip) (n : Nat) (g : ClaspSt → ClaspSt) : (c.updClasp n g).queues = c.queues := rfl
@[simp] theorem Chip.updClasp_jobs (c : Chip) (n : Nat) (g : ClaspSt → ClaspSt) : (c.updClasp n g).jobs = c.jobs := rfl
@[simp] theorem Chip.updClasp_transfers (c : Chip) (n : Nat) (g : ClaspSt → ClaspSt) : (c.updClasp n g).transfers = c.transfers := rfl
@[simp] theorem Chip.updClasp_tableLoads (c : Chip) (n : Nat) (g : ClaspSt → ClaspSt) : (c.updClasp n g).tableLoads = c.tableLoads := rfl
@[simp] theorem Chip.updClasp_walks (c : Chip) (n : Nat) (g : ClaspSt → ClaspSt) : (c.updClasp n g).walks = c.walks := rfl
@[simp] theorem Chip.updClasp_edits (c : Chip) (n : Nat) (g : ClaspSt → ClaspSt) : (c.updClasp n g).edits = c.edits := rfl
@[simp] theorem Chip.updClasp_reports (c : Chip) (n : Nat) (g : ClaspSt → ClaspSt) : (c.updClasp n g).reports = c.reports := rfl
@[simp] theorem Chip.updClasp_contribs (c : Chip) (n : Nat) (g : ClaspSt → ClaspSt) : (c.updClasp n g).contribs = c.contribs := rfl
@[simp] theorem Chip.updClasp_ringIn (c : Chip) (n : Nat) (g : ClaspSt → ClaspSt) : (c.updClasp n g).ringIn = c.ringIn := rfl
@[simp] theorem Chip.updClasp_sched (c : Chip) (n : Nat) (g : ClaspSt → ClaspSt) : (c.updClasp n g).sched = c.sched := rfl
@[simp] theorem Chip.updClasp_pairs (c : Chip) (n : Nat) (g : ClaspSt → ClaspSt) : (c.updClasp n g).pairs = c.pairs := rfl
@[simp] theorem Chip.updClasp_streams (c : Chip) (n : Nat) (g : ClaspSt → ClaspSt) : (c.updClasp n g).streams = c.streams := rfl
@[simp] theorem Chip.updClasp_heads (c : Chip) (n : Nat) (g : ClaspSt → ClaspSt) : (c.updClasp n g).heads = c.heads := rfl
@[simp] theorem Chip.updClasp_held (c : Chip) (n : Nat) (g : ClaspSt → ClaspSt) : (c.updClasp n g).held = c.held := rfl
@[simp] theorem Chip.updClasp_ports (c : Chip) (n : Nat) (g : ClaspSt → ClaspSt) : (c.updClasp n g).ports = c.ports := rfl
@[simp] theorem Chip.updClasp_rings (c : Chip) (n : Nat) (g : ClaspSt → ClaspSt) : (c.updClasp n g).rings = c.rings := rfl
@[simp] theorem Chip.updClasp_ringRuns (c : Chip) (n : Nat) (g : ClaspSt → ClaspSt) : (c.updClasp n g).ringRuns = c.ringRuns := rfl
@[simp] theorem Chip.updClasp_strand (c : Chip) (n : Nat) (g : ClaspSt → ClaspSt) : (c.updClasp n g).strand = c.strand := rfl
@[simp] theorem Chip.updClasp_mgmt (c : Chip) (n : Nat) (g : ClaspSt → ClaspSt) : (c.updClasp n g).mgmt = c.mgmt := rfl
@[simp] theorem Chip.updClasp_telem (c : Chip) (n : Nat) (g : ClaspSt → ClaspSt) : (c.updClasp n g).telem = c.telem := rfl
@[simp] theorem Chip.updClasp_flog (c : Chip) (n : Nat) (g : ClaspSt → ClaspSt) : (c.updClasp n g).flog = c.flog := rfl
@[simp] theorem Chip.updClasp_raised (c : Chip) (n : Nat) (g : ClaspSt → ClaspSt) : (c.updClasp n g).raised = c.raised := rfl

/-! ## updHead -/

@[simp] theorem Chip.updHead_freeCtr (c : Chip) (h : Nat) (g : HeadSt → HeadSt) : (c.updHead h g).freeCtr = c.freeCtr := rfl
@[simp] theorem Chip.updHead_sent (c : Chip) (h : Nat) (g : HeadSt → HeadSt) : (c.updHead h g).sent = c.sent := rfl
@[simp] theorem Chip.updHead_tick (c : Chip) (h : Nat) (g : HeadSt → HeadSt) : (c.updHead h g).tick = c.tick := rfl
@[simp] theorem Chip.updHead_pkg (c : Chip) (h : Nat) (g : HeadSt → HeadSt) : (c.updHead h g).pkg = c.pkg := rfl
@[simp] theorem Chip.updHead_clasps (c : Chip) (h : Nat) (g : HeadSt → HeadSt) : (c.updHead h g).clasps = c.clasps := rfl
@[simp] theorem Chip.updHead_edgesOut (c : Chip) (h : Nat) (g : HeadSt → HeadSt) : (c.updHead h g).edgesOut = c.edgesOut := rfl
@[simp] theorem Chip.updHead_facets (c : Chip) (h : Nat) (g : HeadSt → HeadSt) : (c.updHead h g).facets = c.facets := rfl
@[simp] theorem Chip.updHead_beads (c : Chip) (h : Nat) (g : HeadSt → HeadSt) : (c.updHead h g).beads = c.beads := rfl
@[simp] theorem Chip.updHead_locket (c : Chip) (h : Nat) (g : HeadSt → HeadSt) : (c.updHead h g).locket = c.locket := rfl
@[simp] theorem Chip.updHead_tables (c : Chip) (h : Nat) (g : HeadSt → HeadSt) : (c.updHead h g).tables = c.tables := rfl
@[simp] theorem Chip.updHead_scratch (c : Chip) (h : Nat) (g : HeadSt → HeadSt) : (c.updHead h g).scratch = c.scratch := rfl
@[simp] theorem Chip.updHead_hbm (c : Chip) (h : Nat) (g : HeadSt → HeadSt) : (c.updHead h g).hbm = c.hbm := rfl
@[simp] theorem Chip.updHead_poison (c : Chip) (h : Nat) (g : HeadSt → HeadSt) : (c.updHead h g).poison = c.poison := rfl
@[simp] theorem Chip.updHead_host (c : Chip) (h : Nat) (g : HeadSt → HeadSt) : (c.updHead h g).host = c.host := rfl
@[simp] theorem Chip.updHead_pcs (c : Chip) (h : Nat) (g : HeadSt → HeadSt) : (c.updHead h g).pcs = c.pcs := rfl
@[simp] theorem Chip.updHead_stackTab (c : Chip) (h : Nat) (g : HeadSt → HeadSt) : (c.updHead h g).stackTab = c.stackTab := rfl
@[simp] theorem Chip.updHead_mem (c : Chip) (h : Nat) (g : HeadSt → HeadSt) : (c.updHead h g).mem = c.mem := rfl
@[simp] theorem Chip.updHead_settings (c : Chip) (h : Nat) (g : HeadSt → HeadSt) : (c.updHead h g).settings = c.settings := rfl
@[simp] theorem Chip.updHead_sessions (c : Chip) (h : Nat) (g : HeadSt → HeadSt) : (c.updHead h g).sessions = c.sessions := rfl
@[simp] theorem Chip.updHead_mailbox (c : Chip) (h : Nat) (g : HeadSt → HeadSt) : (c.updHead h g).mailbox = c.mailbox := rfl
@[simp] theorem Chip.updHead_queues (c : Chip) (h : Nat) (g : HeadSt → HeadSt) : (c.updHead h g).queues = c.queues := rfl
@[simp] theorem Chip.updHead_jobs (c : Chip) (h : Nat) (g : HeadSt → HeadSt) : (c.updHead h g).jobs = c.jobs := rfl
@[simp] theorem Chip.updHead_transfers (c : Chip) (h : Nat) (g : HeadSt → HeadSt) : (c.updHead h g).transfers = c.transfers := rfl
@[simp] theorem Chip.updHead_tableLoads (c : Chip) (h : Nat) (g : HeadSt → HeadSt) : (c.updHead h g).tableLoads = c.tableLoads := rfl
@[simp] theorem Chip.updHead_walks (c : Chip) (h : Nat) (g : HeadSt → HeadSt) : (c.updHead h g).walks = c.walks := rfl
@[simp] theorem Chip.updHead_edits (c : Chip) (h : Nat) (g : HeadSt → HeadSt) : (c.updHead h g).edits = c.edits := rfl
@[simp] theorem Chip.updHead_reports (c : Chip) (h : Nat) (g : HeadSt → HeadSt) : (c.updHead h g).reports = c.reports := rfl
@[simp] theorem Chip.updHead_contribs (c : Chip) (h : Nat) (g : HeadSt → HeadSt) : (c.updHead h g).contribs = c.contribs := rfl
@[simp] theorem Chip.updHead_ringIn (c : Chip) (h : Nat) (g : HeadSt → HeadSt) : (c.updHead h g).ringIn = c.ringIn := rfl
@[simp] theorem Chip.updHead_sched (c : Chip) (h : Nat) (g : HeadSt → HeadSt) : (c.updHead h g).sched = c.sched := rfl
@[simp] theorem Chip.updHead_pairs (c : Chip) (h : Nat) (g : HeadSt → HeadSt) : (c.updHead h g).pairs = c.pairs := rfl
@[simp] theorem Chip.updHead_streams (c : Chip) (h : Nat) (g : HeadSt → HeadSt) : (c.updHead h g).streams = c.streams := rfl
@[simp] theorem Chip.updHead_heads (c : Chip) (h : Nat) (g : HeadSt → HeadSt) : (c.updHead h g).heads = modAt c.heads h g := rfl
@[simp] theorem Chip.updHead_held (c : Chip) (h : Nat) (g : HeadSt → HeadSt) : (c.updHead h g).held = c.held := rfl
@[simp] theorem Chip.updHead_ports (c : Chip) (h : Nat) (g : HeadSt → HeadSt) : (c.updHead h g).ports = c.ports := rfl
@[simp] theorem Chip.updHead_rings (c : Chip) (h : Nat) (g : HeadSt → HeadSt) : (c.updHead h g).rings = c.rings := rfl
@[simp] theorem Chip.updHead_ringRuns (c : Chip) (h : Nat) (g : HeadSt → HeadSt) : (c.updHead h g).ringRuns = c.ringRuns := rfl
@[simp] theorem Chip.updHead_strand (c : Chip) (h : Nat) (g : HeadSt → HeadSt) : (c.updHead h g).strand = c.strand := rfl
@[simp] theorem Chip.updHead_mgmt (c : Chip) (h : Nat) (g : HeadSt → HeadSt) : (c.updHead h g).mgmt = c.mgmt := rfl
@[simp] theorem Chip.updHead_telem (c : Chip) (h : Nat) (g : HeadSt → HeadSt) : (c.updHead h g).telem = c.telem := rfl
@[simp] theorem Chip.updHead_flog (c : Chip) (h : Nat) (g : HeadSt → HeadSt) : (c.updHead h g).flog = c.flog := rfl
@[simp] theorem Chip.updHead_raised (c : Chip) (h : Nat) (g : HeadSt → HeadSt) : (c.updHead h g).raised = c.raised := rfl

/-! ## send -/

@[simp] theorem Chip.send_freeCtr (c : Chip) (o : Output) : (c.send o).freeCtr = c.freeCtr := rfl
@[simp] theorem Chip.send_sent (c : Chip) (o : Output) : (c.send o).sent = c.sent ++ [o] := rfl
@[simp] theorem Chip.send_tick (c : Chip) (o : Output) : (c.send o).tick = c.tick := rfl
@[simp] theorem Chip.send_pkg (c : Chip) (o : Output) : (c.send o).pkg = c.pkg := rfl
@[simp] theorem Chip.send_clasps (c : Chip) (o : Output) : (c.send o).clasps = c.clasps := rfl
@[simp] theorem Chip.send_edgesOut (c : Chip) (o : Output) : (c.send o).edgesOut = c.edgesOut := rfl
@[simp] theorem Chip.send_facets (c : Chip) (o : Output) : (c.send o).facets = c.facets := rfl
@[simp] theorem Chip.send_beads (c : Chip) (o : Output) : (c.send o).beads = c.beads := rfl
@[simp] theorem Chip.send_locket (c : Chip) (o : Output) : (c.send o).locket = c.locket := rfl
@[simp] theorem Chip.send_tables (c : Chip) (o : Output) : (c.send o).tables = c.tables := rfl
@[simp] theorem Chip.send_scratch (c : Chip) (o : Output) : (c.send o).scratch = c.scratch := rfl
@[simp] theorem Chip.send_hbm (c : Chip) (o : Output) : (c.send o).hbm = c.hbm := rfl
@[simp] theorem Chip.send_poison (c : Chip) (o : Output) : (c.send o).poison = c.poison := rfl
@[simp] theorem Chip.send_host (c : Chip) (o : Output) : (c.send o).host = c.host := rfl
@[simp] theorem Chip.send_pcs (c : Chip) (o : Output) : (c.send o).pcs = c.pcs := rfl
@[simp] theorem Chip.send_stackTab (c : Chip) (o : Output) : (c.send o).stackTab = c.stackTab := rfl
@[simp] theorem Chip.send_mem (c : Chip) (o : Output) : (c.send o).mem = c.mem := rfl
@[simp] theorem Chip.send_settings (c : Chip) (o : Output) : (c.send o).settings = c.settings := rfl
@[simp] theorem Chip.send_sessions (c : Chip) (o : Output) : (c.send o).sessions = c.sessions := rfl
@[simp] theorem Chip.send_mailbox (c : Chip) (o : Output) : (c.send o).mailbox = c.mailbox := rfl
@[simp] theorem Chip.send_queues (c : Chip) (o : Output) : (c.send o).queues = c.queues := rfl
@[simp] theorem Chip.send_jobs (c : Chip) (o : Output) : (c.send o).jobs = c.jobs := rfl
@[simp] theorem Chip.send_transfers (c : Chip) (o : Output) : (c.send o).transfers = c.transfers := rfl
@[simp] theorem Chip.send_tableLoads (c : Chip) (o : Output) : (c.send o).tableLoads = c.tableLoads := rfl
@[simp] theorem Chip.send_walks (c : Chip) (o : Output) : (c.send o).walks = c.walks := rfl
@[simp] theorem Chip.send_edits (c : Chip) (o : Output) : (c.send o).edits = c.edits := rfl
@[simp] theorem Chip.send_reports (c : Chip) (o : Output) : (c.send o).reports = c.reports := rfl
@[simp] theorem Chip.send_contribs (c : Chip) (o : Output) : (c.send o).contribs = c.contribs := rfl
@[simp] theorem Chip.send_ringIn (c : Chip) (o : Output) : (c.send o).ringIn = c.ringIn := rfl
@[simp] theorem Chip.send_sched (c : Chip) (o : Output) : (c.send o).sched = c.sched := rfl
@[simp] theorem Chip.send_pairs (c : Chip) (o : Output) : (c.send o).pairs = c.pairs := rfl
@[simp] theorem Chip.send_streams (c : Chip) (o : Output) : (c.send o).streams = c.streams := rfl
@[simp] theorem Chip.send_heads (c : Chip) (o : Output) : (c.send o).heads = c.heads := rfl
@[simp] theorem Chip.send_held (c : Chip) (o : Output) : (c.send o).held = c.held := rfl
@[simp] theorem Chip.send_ports (c : Chip) (o : Output) : (c.send o).ports = c.ports := rfl
@[simp] theorem Chip.send_rings (c : Chip) (o : Output) : (c.send o).rings = c.rings := rfl
@[simp] theorem Chip.send_ringRuns (c : Chip) (o : Output) : (c.send o).ringRuns = c.ringRuns := rfl
@[simp] theorem Chip.send_strand (c : Chip) (o : Output) : (c.send o).strand = c.strand := rfl
@[simp] theorem Chip.send_mgmt (c : Chip) (o : Output) : (c.send o).mgmt = c.mgmt := rfl
@[simp] theorem Chip.send_telem (c : Chip) (o : Output) : (c.send o).telem = c.telem := rfl
@[simp] theorem Chip.send_flog (c : Chip) (o : Output) : (c.send o).flog = c.flog := rfl
@[simp] theorem Chip.send_raised (c : Chip) (o : Output) : (c.send o).raised = c.raised := rfl

/-! ## spend -/

@[simp] theorem Chip.spend_freeCtr (c : Chip) (n : Nat) : (c.spend n).freeCtr = c.freeCtr + n := rfl
@[simp] theorem Chip.spend_sent (c : Chip) (n : Nat) : (c.spend n).sent = c.sent := rfl
@[simp] theorem Chip.spend_tick (c : Chip) (n : Nat) : (c.spend n).tick = c.tick := rfl
@[simp] theorem Chip.spend_pkg (c : Chip) (n : Nat) : (c.spend n).pkg = c.pkg := rfl
@[simp] theorem Chip.spend_clasps (c : Chip) (n : Nat) : (c.spend n).clasps = c.clasps := rfl
@[simp] theorem Chip.spend_edgesOut (c : Chip) (n : Nat) : (c.spend n).edgesOut = c.edgesOut := rfl
@[simp] theorem Chip.spend_facets (c : Chip) (n : Nat) : (c.spend n).facets = c.facets := rfl
@[simp] theorem Chip.spend_beads (c : Chip) (n : Nat) : (c.spend n).beads = c.beads := rfl
@[simp] theorem Chip.spend_locket (c : Chip) (n : Nat) : (c.spend n).locket = c.locket := rfl
@[simp] theorem Chip.spend_tables (c : Chip) (n : Nat) : (c.spend n).tables = c.tables := rfl
@[simp] theorem Chip.spend_scratch (c : Chip) (n : Nat) : (c.spend n).scratch = c.scratch := rfl
@[simp] theorem Chip.spend_hbm (c : Chip) (n : Nat) : (c.spend n).hbm = c.hbm := rfl
@[simp] theorem Chip.spend_poison (c : Chip) (n : Nat) : (c.spend n).poison = c.poison := rfl
@[simp] theorem Chip.spend_host (c : Chip) (n : Nat) : (c.spend n).host = c.host := rfl
@[simp] theorem Chip.spend_pcs (c : Chip) (n : Nat) : (c.spend n).pcs = c.pcs := rfl
@[simp] theorem Chip.spend_stackTab (c : Chip) (n : Nat) : (c.spend n).stackTab = c.stackTab := rfl
@[simp] theorem Chip.spend_mem (c : Chip) (n : Nat) : (c.spend n).mem = c.mem := rfl
@[simp] theorem Chip.spend_settings (c : Chip) (n : Nat) : (c.spend n).settings = c.settings := rfl
@[simp] theorem Chip.spend_sessions (c : Chip) (n : Nat) : (c.spend n).sessions = c.sessions := rfl
@[simp] theorem Chip.spend_mailbox (c : Chip) (n : Nat) : (c.spend n).mailbox = c.mailbox := rfl
@[simp] theorem Chip.spend_queues (c : Chip) (n : Nat) : (c.spend n).queues = c.queues := rfl
@[simp] theorem Chip.spend_jobs (c : Chip) (n : Nat) : (c.spend n).jobs = c.jobs := rfl
@[simp] theorem Chip.spend_transfers (c : Chip) (n : Nat) : (c.spend n).transfers = c.transfers := rfl
@[simp] theorem Chip.spend_tableLoads (c : Chip) (n : Nat) : (c.spend n).tableLoads = c.tableLoads := rfl
@[simp] theorem Chip.spend_walks (c : Chip) (n : Nat) : (c.spend n).walks = c.walks := rfl
@[simp] theorem Chip.spend_edits (c : Chip) (n : Nat) : (c.spend n).edits = c.edits := rfl
@[simp] theorem Chip.spend_reports (c : Chip) (n : Nat) : (c.spend n).reports = c.reports := rfl
@[simp] theorem Chip.spend_contribs (c : Chip) (n : Nat) : (c.spend n).contribs = c.contribs := rfl
@[simp] theorem Chip.spend_ringIn (c : Chip) (n : Nat) : (c.spend n).ringIn = c.ringIn := rfl
@[simp] theorem Chip.spend_sched (c : Chip) (n : Nat) : (c.spend n).sched = c.sched := rfl
@[simp] theorem Chip.spend_pairs (c : Chip) (n : Nat) : (c.spend n).pairs = c.pairs := rfl
@[simp] theorem Chip.spend_streams (c : Chip) (n : Nat) : (c.spend n).streams = c.streams := rfl
@[simp] theorem Chip.spend_heads (c : Chip) (n : Nat) : (c.spend n).heads = c.heads := rfl
@[simp] theorem Chip.spend_held (c : Chip) (n : Nat) : (c.spend n).held = c.held := rfl
@[simp] theorem Chip.spend_ports (c : Chip) (n : Nat) : (c.spend n).ports = c.ports := rfl
@[simp] theorem Chip.spend_rings (c : Chip) (n : Nat) : (c.spend n).rings = c.rings := rfl
@[simp] theorem Chip.spend_ringRuns (c : Chip) (n : Nat) : (c.spend n).ringRuns = c.ringRuns := rfl
@[simp] theorem Chip.spend_strand (c : Chip) (n : Nat) : (c.spend n).strand = c.strand := rfl
@[simp] theorem Chip.spend_mgmt (c : Chip) (n : Nat) : (c.spend n).mgmt = c.mgmt := rfl
@[simp] theorem Chip.spend_telem (c : Chip) (n : Nat) : (c.spend n).telem = c.telem := rfl
@[simp] theorem Chip.spend_flog (c : Chip) (n : Nat) : (c.spend n).flog = c.flog := rfl
@[simp] theorem Chip.spend_raised (c : Chip) (n : Nat) : (c.spend n).raised = c.raised := rfl

/-! ## updPath -/

@[simp] theorem Chip.updPath_freeCtr (c : Chip) (n : Nat) (g : PathSt → PathSt) : (c.updPath n g).freeCtr = c.freeCtr := rfl
@[simp] theorem Chip.updPath_sent (c : Chip) (n : Nat) (g : PathSt → PathSt) : (c.updPath n g).sent = c.sent := rfl
@[simp] theorem Chip.updPath_tick (c : Chip) (n : Nat) (g : PathSt → PathSt) : (c.updPath n g).tick = c.tick := rfl
@[simp] theorem Chip.updPath_pkg (c : Chip) (n : Nat) (g : PathSt → PathSt) : (c.updPath n g).pkg = c.pkg := rfl
@[simp] theorem Chip.updPath_clasps (c : Chip) (n : Nat) (g : PathSt → PathSt) : (c.updPath n g).clasps = c.clasps := rfl
@[simp] theorem Chip.updPath_edgesOut (c : Chip) (n : Nat) (g : PathSt → PathSt) : (c.updPath n g).edgesOut = c.edgesOut := rfl
@[simp] theorem Chip.updPath_facets (c : Chip) (n : Nat) (g : PathSt → PathSt) : (c.updPath n g).facets = c.facets := rfl
@[simp] theorem Chip.updPath_beads (c : Chip) (n : Nat) (g : PathSt → PathSt) : (c.updPath n g).beads = c.beads := rfl
@[simp] theorem Chip.updPath_locket (c : Chip) (n : Nat) (g : PathSt → PathSt) : (c.updPath n g).locket = c.locket := rfl
@[simp] theorem Chip.updPath_tables (c : Chip) (n : Nat) (g : PathSt → PathSt) : (c.updPath n g).tables = c.tables := rfl
@[simp] theorem Chip.updPath_scratch (c : Chip) (n : Nat) (g : PathSt → PathSt) : (c.updPath n g).scratch = c.scratch := rfl
@[simp] theorem Chip.updPath_hbm (c : Chip) (n : Nat) (g : PathSt → PathSt) : (c.updPath n g).hbm = c.hbm := rfl
@[simp] theorem Chip.updPath_poison (c : Chip) (n : Nat) (g : PathSt → PathSt) : (c.updPath n g).poison = c.poison := rfl
@[simp] theorem Chip.updPath_host (c : Chip) (n : Nat) (g : PathSt → PathSt) : (c.updPath n g).host = c.host := rfl
@[simp] theorem Chip.updPath_pcs (c : Chip) (n : Nat) (g : PathSt → PathSt) : (c.updPath n g).pcs = c.pcs := rfl
@[simp] theorem Chip.updPath_stackTab (c : Chip) (n : Nat) (g : PathSt → PathSt) : (c.updPath n g).stackTab = c.stackTab := rfl
@[simp] theorem Chip.updPath_mem (c : Chip) (n : Nat) (g : PathSt → PathSt) : (c.updPath n g).mem = c.mem := rfl
@[simp] theorem Chip.updPath_settings (c : Chip) (n : Nat) (g : PathSt → PathSt) : (c.updPath n g).settings = c.settings := rfl
@[simp] theorem Chip.updPath_sessions (c : Chip) (n : Nat) (g : PathSt → PathSt) : (c.updPath n g).sessions = c.sessions := rfl
@[simp] theorem Chip.updPath_mailbox (c : Chip) (n : Nat) (g : PathSt → PathSt) : (c.updPath n g).mailbox = c.mailbox := rfl
@[simp] theorem Chip.updPath_queues (c : Chip) (n : Nat) (g : PathSt → PathSt) : (c.updPath n g).queues = c.queues := rfl
@[simp] theorem Chip.updPath_jobs (c : Chip) (n : Nat) (g : PathSt → PathSt) : (c.updPath n g).jobs = c.jobs := rfl
@[simp] theorem Chip.updPath_transfers (c : Chip) (n : Nat) (g : PathSt → PathSt) : (c.updPath n g).transfers = c.transfers := rfl
@[simp] theorem Chip.updPath_tableLoads (c : Chip) (n : Nat) (g : PathSt → PathSt) : (c.updPath n g).tableLoads = c.tableLoads := rfl
@[simp] theorem Chip.updPath_walks (c : Chip) (n : Nat) (g : PathSt → PathSt) : (c.updPath n g).walks = c.walks := rfl
@[simp] theorem Chip.updPath_edits (c : Chip) (n : Nat) (g : PathSt → PathSt) : (c.updPath n g).edits = c.edits := rfl
@[simp] theorem Chip.updPath_reports (c : Chip) (n : Nat) (g : PathSt → PathSt) : (c.updPath n g).reports = c.reports := rfl
@[simp] theorem Chip.updPath_contribs (c : Chip) (n : Nat) (g : PathSt → PathSt) : (c.updPath n g).contribs = c.contribs := rfl
@[simp] theorem Chip.updPath_ringIn (c : Chip) (n : Nat) (g : PathSt → PathSt) : (c.updPath n g).ringIn = c.ringIn := rfl
@[simp] theorem Chip.updPath_sched (c : Chip) (n : Nat) (g : PathSt → PathSt) : (c.updPath n g).sched = c.sched := rfl
@[simp] theorem Chip.updPath_pairs (c : Chip) (n : Nat) (g : PathSt → PathSt) : (c.updPath n g).pairs = c.pairs := rfl
@[simp] theorem Chip.updPath_streams (c : Chip) (n : Nat) (g : PathSt → PathSt) : (c.updPath n g).streams = c.streams := rfl
@[simp] theorem Chip.updPath_heads (c : Chip) (n : Nat) (g : PathSt → PathSt) : (c.updPath n g).heads = c.heads := rfl
@[simp] theorem Chip.updPath_held (c : Chip) (n : Nat) (g : PathSt → PathSt) : (c.updPath n g).held = c.held := rfl
@[simp] theorem Chip.updPath_ports (c : Chip) (n : Nat) (g : PathSt → PathSt) : (c.updPath n g).ports = c.ports := rfl
@[simp] theorem Chip.updPath_rings (c : Chip) (n : Nat) (g : PathSt → PathSt) : (c.updPath n g).rings = c.rings := rfl
@[simp] theorem Chip.updPath_ringRuns (c : Chip) (n : Nat) (g : PathSt → PathSt) : (c.updPath n g).ringRuns = c.ringRuns := rfl
@[simp] theorem Chip.updPath_strand (c : Chip) (n : Nat) (g : PathSt → PathSt) : (c.updPath n g).strand = c.strand := rfl
@[simp] theorem Chip.updPath_mgmt (c : Chip) (n : Nat) (g : PathSt → PathSt) : (c.updPath n g).mgmt = { c.mgmt with paths := modAt c.mgmt.paths n g } := rfl
@[simp] theorem Chip.updPath_telem (c : Chip) (n : Nat) (g : PathSt → PathSt) : (c.updPath n g).telem = c.telem := rfl
@[simp] theorem Chip.updPath_flog (c : Chip) (n : Nat) (g : PathSt → PathSt) : (c.updPath n g).flog = c.flog := rfl
@[simp] theorem Chip.updPath_raised (c : Chip) (n : Nat) (g : PathSt → PathSt) : (c.updPath n g).raised = c.raised := rfl

/-! ## Reading back a unit that was set -/

@[simp] theorem Chip.setBead_bead (c : Chip) (p : Nat) (b : BeadSt) (i : Nat) :
    (c.setBead p b).bead i = if i = p then b else c.bead i := Tbl.get_put _ _ _ _ _
@[simp] theorem Chip.setFacet_facet (c : Chip) (f : Nat) (x : FacetSt) (i : Nat) :
    (c.setFacet f x).facet i = if i = f then x else c.facet i := Tbl.get_put _ _ _ _ _
@[simp] theorem Chip.setPc_pcSt (c : Chip) (pc : Nat) (x : PcSt) (i : Nat) :
    (c.setPc pc x).pcSt i = if i = pc then x else c.pcSt i := Tbl.get_put _ _ _ _ _
@[simp] theorem Chip.setStack_stack (c : Chip) (n : Nat) (x : StackSt) (i : Nat) :
    (c.setStack n x).stack i = if i = n then x else c.stack i := Tbl.get_put _ _ _ _ _
@[simp] theorem Chip.setSession_session (c : Chip) (n : Nat) (x : SessionSt) (i : Nat) :
    (c.setSession n x).session i = if i = n then x else c.session i := Tbl.get_put _ _ _ _ _
@[simp] theorem Chip.setQueue_queue (c : Chip) (q : Nat) (x : QueueSt) (i : Nat) :
    (c.setQueue q x).queue i = if i = q then x else c.queue i := Tbl.get_put _ _ _ _ _
@[simp] theorem Chip.setJob_job? (c : Chip) (j : Nat) (x : Job) (i : Nat) :
    (c.setJob j x).job? i = if i = j then some x else c.job? i := Tbl.find?_put _ _ _ _
@[simp] theorem Chip.setPair_pair (c : Chip) (e : Nat) (x : PairSt) (i : Nat) :
    (c.setPair e x).pair i = if i = e then x else c.pair i := Tbl.get_put _ _ _ _ _
@[simp] theorem Chip.setPort_port (c : Chip) (n : Nat) (x : PortSt) (i : Nat) :
    (c.setPort n x).port i = if i = n then x else c.port i := Tbl.get_put _ _ _ _ _
@[simp] theorem Chip.setRing_ring (c : Chip) (r : Nat) (x : RingEntry) (i : Nat) :
    (c.setRing r x).ring i = if i = r then x else c.ring i := Tbl.get_put _ _ _ _ _
@[simp] theorem Chip.setRingRun_ringRun (c : Chip) (r : Nat) (x : RingRun) (i : Nat) :
    (c.setRingRun r x).ringRun i = if i = r then x else c.ringRun i := Tbl.get_put _ _ _ _ _

/-! ## A change to a unit sets it -/

@[simp] theorem Chip.updBead_eq (c : Chip) (k : Nat) (g : BeadSt → BeadSt) : c.updBead k g = c.setBead k (g (c.bead k)) := rfl
@[simp] theorem Chip.updFacet_eq (c : Chip) (k : Nat) (g : FacetSt → FacetSt) : c.updFacet k g = c.setFacet k (g (c.facet k)) := rfl
@[simp] theorem Chip.updPc_eq (c : Chip) (k : Nat) (g : PcSt → PcSt) : c.updPc k g = c.setPc k (g (c.pcSt k)) := rfl
@[simp] theorem Chip.updStack_eq (c : Chip) (k : Nat) (g : StackSt → StackSt) : c.updStack k g = c.setStack k (g (c.stack k)) := rfl
@[simp] theorem Chip.updSession_eq (c : Chip) (k : Nat) (g : SessionSt → SessionSt) : c.updSession k g = c.setSession k (g (c.session k)) := rfl
@[simp] theorem Chip.updQueue_eq (c : Chip) (k : Nat) (g : QueueSt → QueueSt) : c.updQueue k g = c.setQueue k (g (c.queue k)) := rfl
@[simp] theorem Chip.updPair_eq (c : Chip) (k : Nat) (g : PairSt → PairSt) : c.updPair k g = c.setPair k (g (c.pair k)) := rfl
@[simp] theorem Chip.updPort_eq (c : Chip) (k : Nat) (g : PortSt → PortSt) : c.updPort k g = c.setPort k (g (c.port k)) := rfl
@[simp] theorem Chip.updRingRun_eq (c : Chip) (k : Nat) (g : RingRun → RingRun) : c.updRingRun k g = c.setRingRun k (g (c.ringRun k)) := rfl

end Sys2Proof.Machine
end

