-- ==== Sys2Proof/Laws/Memory.lean ====
section
/-! SUPPORT. What the operations over stacked and host memory can change: the bytes, the poison, the written detour granules,
the lines that the host holds and the messages that tell it, the dirty lines, the queues of pseudo-channels and the writes that
wait. -/
namespace Sys2Proof.Machine

/-- `d` is `c` with other memory contents. -/
def Chip.OnlyMemory (c d : Chip) : Prop :=
  ∃ (hbm host : Mem) (poison : List Nat) (st : Tbl StackSt) (sent : List Output) (held : List (Nat × Nat)) (fs : Tbl FacetSt)
    (pcs : Tbl PcSt) (hw : List HostWrite) (nw : Nat) (bw : List BiWrite),
    d = { c with hbm := hbm, host := host, poison := poison, stackTab := st, sent := sent, held := held, facets := fs, pcs := pcs,
                 mem := { c.mem with hostWrites := hw, nextWrite := nw, biWrites := bw } }

theorem Chip.OnlyMemory.refl (c : Chip) : c.OnlyMemory c := ⟨_, _, _, _, _, _, _, _, _, _, _, rfl⟩

theorem Chip.OnlyMemory.trans {c d e : Chip} (h1 : c.OnlyMemory d) (h2 : d.OnlyMemory e) : c.OnlyMemory e := by
  obtain ⟨_, _, _, _, _, _, _, _, _, _, _, rfl⟩ := h1
  obtain ⟨_, _, _, _, _, _, _, _, _, _, _, rfl⟩ := h2
  exact ⟨_, _, _, _, _, _, _, _, _, _, _, rfl⟩

/-- Whatever each pass of a loop keeps, the loop keeps. -/
theorem foldl_keeps {α β : Type} (R : β → β → Prop) (hr : ∀ b, R b b) (ht : ∀ a b c, R a b → R b c → R a c)
    (f : β → α → β) (hf : ∀ b a, R b (f b a)) (l : List α) (b : β) : R b (l.foldl f b) := by
  induction l generalizing b with
  | nil => exact hr b
  | cons a l ih => exact ht _ _ _ (hf b a) (ih _)

theorem iter_keeps {β : Type} (R : β → β → Prop) (hr : ∀ b, R b b) (ht : ∀ a b c, R a b → R b c → R a c)
    (n : Nat) (f : Nat → β → β) (hf : ∀ i b, R b (f i b)) (b : β) : R b (iter n f b) :=
  foldl_keeps R hr ht _ (fun b i => hf i b) _ b

theorem Chip.OnlyMemory.foldl {α : Type} (f : Chip → α → Chip) (hf : ∀ (c : Chip) (a : α), c.OnlyMemory (f c a)) (l : List α) (c : Chip) :
    c.OnlyMemory (l.foldl f c) :=
  foldl_keeps _ Chip.OnlyMemory.refl (fun _ _ _ => Chip.OnlyMemory.trans) f hf l c

theorem Chip.OnlyMemory.loop (n : Nat) (f : Nat → Chip → Chip) (hf : ∀ (i : Nat) (c : Chip), c.OnlyMemory (f i c)) (c : Chip) :
    c.OnlyMemory (iter n f c) :=
  iter_keeps _ Chip.OnlyMemory.refl (fun _ _ _ => Chip.OnlyMemory.trans) n f hf c

theorem Chip.poisonBurst_only (c : Chip) (b : Nat) : c.OnlyMemory (c.poisonBurst b) := by
  unfold Chip.poisonBurst; split
  · exact .refl c
  · exact ⟨_, _, _, _, _, _, _, _, _, _, _, rfl⟩

theorem Chip.cureBurst_only (c : Chip) (b : Nat) : c.OnlyMemory (c.cureBurst b) := by
  unfold Chip.cureBurst
  dsimp only
  split
  · exact ⟨_, _, _, _, _, _, _, _, _, _, _, rfl⟩
  · split <;> exact ⟨_, _, _, _, _, _, _, _, _, _, _, rfl⟩

theorem Chip.storeByte_only (c : Chip) (p : Place) (b : Byte) : c.OnlyMemory (c.storeByte p b) :=
  ⟨_, _, _, _, _, _, _, _, _, _, _, rfl⟩

theorem Chip.setStack_only (c : Chip) (n : Nat) (x : StackSt) : c.OnlyMemory (c.setStack n x) := ⟨_, _, _, _, _, _, _, _, _, _, _, rfl⟩

theorem Chip.setFacet_only (c : Chip) (f : Nat) (x : FacetSt) : c.OnlyMemory (c.setFacet f x) := ⟨_, _, _, _, _, _, _, _, _, _, _, rfl⟩

theorem Chip.send_only (c : Chip) (o : Output) : c.OnlyMemory (c.send o) := ⟨_, _, _, _, _, _, _, _, _, _, _, rfl⟩

theorem Chip.openDetour_only (c : Chip) (p : Place) : c.OnlyMemory (c.openDetour p) := by
  unfold Chip.openDetour
  split
  · exact .refl c
  · split
    · exact .refl c
    · exact (Chip.OnlyMemory.loop _ _ (fun _ c => c.poisonBurst_only _) c).trans (Chip.setStack_only _ _ _)

theorem Chip.storeRun_only (c : Chip) (f : Nat → Place) (x : Nat) (bs : List Byte) : c.OnlyMemory (c.storeRun f x bs) := by
  unfold Chip.storeRun
  refine ((Chip.OnlyMemory.loop _ _ (fun _ c => c.openDetour_only _) c).trans
    (Chip.OnlyMemory.foldl _ (fun c e => c.storeByte_only _ _) _ _)).trans
    (Chip.OnlyMemory.loop _ _ (fun i c => ?_) _)
  split
  · exact c.cureBurst_only _
  · exact .refl c

theorem Chip.setPc_only (c : Chip) (n : Nat) (x : PcSt) : c.OnlyMemory (c.setPc n x) := ⟨_, _, _, _, _, _, _, _, _, _, _, rfl⟩

/-- A write stores its parts, or puts them into queues. -/
theorem Chip.writeAt_only (c : Chip) (f : Nat → Place) (x : Nat) (bs : List Byte) (tell : Option (Nat × Nat)) :
    c.OnlyMemory (c.writeAt f x bs tell) := by
  unfold Chip.writeAt
  refine Chip.OnlyMemory.foldl _ (fun c e => ?_) _ _
  dsimp only
  split
  · exact c.setPc_only _ _
  · exact c.storeRun_only _ _ _

theorem Chip.storeAt_only (c : Chip) (f : Nat → Place) (x : Nat) (bs : List Byte) : c.OnlyMemory (c.storeAt f x bs) :=
  c.writeAt_only f x bs none

theorem Chip.markDirty_only (c : Chip) (slot : Nat) (ps : List Place) : c.OnlyMemory (c.markDirty slot ps) := by
  unfold Chip.markDirty
  refine Chip.OnlyMemory.foldl _ (fun c p => ?_) _ _
  dsimp only
  split
  · exact .refl c
  · exact c.setFacet_only _ _

theorem Chip.allocWrite_only (c : Chip) (slot : Nat) (a : Alloc) (x : Nat) (bs : List Byte) :
    c.OnlyMemory (c.allocWrite slot a x bs) := by
  unfold Chip.allocWrite
  split
  · exact (Chip.storeAt_only _ _ _ _).trans (Chip.storeAt_only _ _ _ _)
  · exact (c.markDirty_only _ _).trans (Chip.storeAt_only _ _ _ _)

theorem Chip.zeroAlloc_only (c : Chip) (a : Alloc) : c.OnlyMemory (c.zeroAlloc a) := by
  unfold Chip.zeroAlloc
  dsimp only
  split
  · exact (Chip.storeAt_only _ _ _ _).trans (Chip.storeAt_only _ _ _ _)
  · exact Chip.storeAt_only _ _ _ _

theorem Chip.windowCopyWrite_only (c : Chip) (k x : Nat) (bs : List Byte) (tell : Option Nat) :
    c.OnlyMemory (c.windowCopyWrite k x bs tell) := c.writeAt_only _ _ _ _

theorem Chip.windowWrite_only (c : Chip) (x : Nat) (bs : List Byte) : c.OnlyMemory (c.windowWrite x bs) :=
  (Chip.windowCopyWrite_only _ _ _ _ _).trans (Chip.windowCopyWrite_only _ _ _ _ _)

/-- What waits, once served, is in memory. -/
theorem Chip.settled_only (c : Chip) (pc : Nat) : c.OnlyMemory (c.settled pc) := by
  unfold Chip.settled
  split
  · exact .refl c
  · exact (c.setPc_only pc _).trans (Chip.OnlyMemory.foldl _ (fun c r => c.storeRun_only _ _ _) _ _)

/-- A part of a host write that ends changes the record of that write, and tells its head. -/
theorem Chip.partDone_only (c : Chip) (gone : Bool) (r : MemReq) : c.OnlyMemory (c.partDone gone r) := by
  unfold Chip.partDone
  split
  · exact .refl c
  · split
    · exact .refl c
    · extract_lets w rest
      split <;> exact ⟨_, _, _, _, _, _, _, _, _, _, _, rfl⟩

/-- Serving a queue changes memory contents alone. -/
theorem Chip.drainQueue_only (c : Chip) (pc : Nat) : c.OnlyMemory (c.drainQueue pc) :=
  (c.settled_only pc).trans (Chip.OnlyMemory.foldl _ (fun c r => c.partDone_only false r) _ _)

/-- Cancelling a queue empties it and tells those who wait. -/
theorem Chip.cancelQueue_only (c : Chip) (pc : Nat) : c.OnlyMemory (c.cancelQueue pc) :=
  (c.setPc_only pc _).trans (Chip.OnlyMemory.foldl _ (fun c r => c.partDone_only true r) _ _)

theorem Chip.backInvalidate_only (c : Chip) (e : Option Nat) (x n : Nat) : c.OnlyMemory (c.backInvalidate e x n) := by
  unfold Chip.backInvalidate
  extract_lets hit d
  have h1 : c.OnlyMemory d :=
    Chip.OnlyMemory.foldl (fun (c : Chip) (h : Nat × Nat) => c.send (.backInvalidate h.2 h.1)) (fun c h => c.send_only _) _ c
  exact h1.trans ⟨_, _, _, _, _, _, _, _, _, _, _, rfl⟩

/-- A write behind its back-invalidates waits, or does what it does. -/
theorem Chip.afterBi_only (c : Chip) (w : BiWrite) (f : Chip → Chip) (hf : ∀ c : Chip, c.OnlyMemory (f c)) :
    c.OnlyMemory (c.afterBi w f) := by
  unfold Chip.afterBi
  dsimp only
  split
  · exact (c.backInvalidate_only _ _ _).trans ⟨_, _, _, _, _, _, _, _, _, _, _, rfl⟩
  · exact (c.backInvalidate_only _ _ _).trans (hf _)

theorem Chip.hostWindowStore_only (c : Chip) (h x : Nat) (bs : List Byte) : c.OnlyMemory (c.hostWindowStore h x bs) := by
  unfold Chip.hostWindowStore
  dsimp only
  split
  · exact (c.windowWrite_only _ _).trans (Chip.send_only _ _)
  · exact (show c.OnlyMemory { c with mem := _ } from ⟨_, _, _, _, _, _, _, _, _, _, _, rfl⟩).trans
      ((Chip.windowCopyWrite_only _ _ _ _ _).trans (Chip.windowCopyWrite_only _ _ _ _ _))

theorem Chip.biLand_only (c : Chip) (w : BiWrite) : c.OnlyMemory (c.biLand w) := by
  unfold Chip.biLand
  split
  · exact c.hostWindowStore_only _ _ _
  · exact c.windowWrite_only _ _

/-- The writes that waited for a back-invalidate change memory contents alone. -/
theorem Chip.releaseBi_only (c : Chip) : c.OnlyMemory c.releaseBi := by
  unfold Chip.releaseBi
  refine (show c.OnlyMemory { c with mem := _ } from ⟨_, _, _, _, _, _, _, _, _, _, _, rfl⟩).trans
    (Chip.OnlyMemory.foldl _ (fun c w => ?_) _ _)
  dsimp only
  split
  · exact ⟨_, _, _, _, _, _, _, _, _, _, _, rfl⟩
  · exact (show c.OnlyMemory { c with held := _ } from ⟨_, _, _, _, _, _, _, _, _, _, _, rfl⟩).trans (Chip.biLand_only _ _)

theorem Chip.hostWriteRun_only (c : Chip) (a : Nat) (bs : List Byte) : c.OnlyMemory (c.hostWriteRun a bs) := by
  unfold Chip.hostWriteRun
  split
  · exact c.afterBi_only _ _ (fun c => c.windowWrite_only _ _)
  · exact ⟨_, _, _, _, _, _, _, _, _, _, _, rfl⟩

/-- A write of host memory changes memory contents alone. -/
theorem Chip.hostWrite_only (c : Chip) (a : Nat) (bs : List Byte) : c.OnlyMemory (c.hostWrite a bs) := by
  unfold Chip.hostWrite
  split
  · exact Chip.hostWriteRun_only _ _ _
  · exact Chip.OnlyMemory.foldl _ (fun c e => Chip.hostWriteRun_only _ _ _) _ _

end Sys2Proof.Machine
end

