-- ==== Sys2Proof/Laws/Log.lean ====
section
/-! SUPPORT. What the fault log, the interrupts and the journal can change. -/
namespace Sys2Proof.Machine

/-- `d` is `c` with other records in its fault log, other vectors pending and more sent. -/
def Chip.OnlyLog (c d : Chip) : Prop :=
  ∃ (fl : FaultLog) (sent : List Output), d = { c with flog := fl, sent := sent }

theorem Chip.OnlyLog.refl (c : Chip) : c.OnlyLog c := ⟨_, _, rfl⟩

theorem Chip.OnlyLog.trans {c d e : Chip} (h1 : c.OnlyLog d) (h2 : d.OnlyLog e) : c.OnlyLog e := by
  obtain ⟨_, _, rfl⟩ := h1
  obtain ⟨_, _, rfl⟩ := h2
  exact ⟨_, _, rfl⟩

/-- Vector 128 is signalled: nothing but what the part sends changes. -/
theorem Chip.msixAll_eq (c : Chip) : ∃ sent, c.msixAll = { c with sent := sent } := by
  unfold Chip.msixAll
  refine iter_keeps (fun c d : Chip => ∃ sent, d = { c with sent := sent }) (fun c => ⟨_, rfl⟩) ?_ 2 _ ?_ c
  · rintro a b d ⟨_, rfl⟩ ⟨_, rfl⟩; exact ⟨_, rfl⟩
  · intro i c; split
    · exact ⟨_, rfl⟩
    · exact ⟨_, rfl⟩

/-- A record written: the log has one more, stamped now, at its place, and nothing else changes but what the part sends. -/
theorem Chip.log_eq (c : Chip) (r : FaultRec) : ∃ sent, c.log r =
    { c with sent := sent,
             flog := { c.flog with written := (c.flog.written + 1) % 2 ^ 32,
                                   recs := c.flog.recs.put (c.flog.written % 4096) { r with stamp := c.now } } } := by
  unfold Chip.log
  exact Chip.msixAll_eq _

theorem Chip.log_only (c : Chip) (r : FaultRec) : c.OnlyLog (c.log r) := by
  obtain ⟨_, h⟩ := c.log_eq r; rw [h]; exact ⟨_, _, rfl⟩

/-- One more fault folded into a record: only the log changes. -/
theorem Chip.foldFault_only (c : Chip) (n : Option Nat) : c.OnlyLog (c.foldFault n) := by
  unfold Chip.foldFault
  split
  · exact .refl c
  · split
    · split
      · exact ⟨_, _, rfl⟩
      · exact .refl c
    · exact .refl c

/-- Noting that the heads have changed sends at most vector 128. -/
theorem Chip.noteHeads_eq (o c : Chip) : ∃ sent, o.noteHeads c = { c with sent := sent } := by
  unfold Chip.noteHeads
  split
  · exact ⟨_, rfl⟩
  · exact Chip.msixAll_eq c

/-! ## One lemma per field of a written record -/

@[simp] theorem Chip.log_freeCtr (c : Chip) (r : FaultRec) : (c.log r).freeCtr = c.freeCtr := by obtain ⟨_, h⟩ := c.log_eq r; rw [h]
@[simp] theorem Chip.log_tick (c : Chip) (r : FaultRec) : (c.log r).tick = c.tick := by obtain ⟨_, h⟩ := c.log_eq r; rw [h]
@[simp] theorem Chip.log_pkg (c : Chip) (r : FaultRec) : (c.log r).pkg = c.pkg := by obtain ⟨_, h⟩ := c.log_eq r; rw [h]
@[simp] theorem Chip.log_clasps (c : Chip) (r : FaultRec) : (c.log r).clasps = c.clasps := by obtain ⟨_, h⟩ := c.log_eq r; rw [h]
@[simp] theorem Chip.log_edgesOut (c : Chip) (r : FaultRec) : (c.log r).edgesOut = c.edgesOut := by obtain ⟨_, h⟩ := c.log_eq r; rw [h]
@[simp] theorem Chip.log_facets (c : Chip) (r : FaultRec) : (c.log r).facets = c.facets := by obtain ⟨_, h⟩ := c.log_eq r; rw [h]
@[simp] theorem Chip.log_beads (c : Chip) (r : FaultRec) : (c.log r).beads = c.beads := by obtain ⟨_, h⟩ := c.log_eq r; rw [h]
@[simp] theorem Chip.log_locket (c : Chip) (r : FaultRec) : (c.log r).locket = c.locket := by obtain ⟨_, h⟩ := c.log_eq r; rw [h]
@[simp] theorem Chip.log_tables (c : Chip) (r : FaultRec) : (c.log r).tables = c.tables := by obtain ⟨_, h⟩ := c.log_eq r; rw [h]
@[simp] theorem Chip.log_scratch (c : Chip) (r : FaultRec) : (c.log r).scratch = c.scratch := by obtain ⟨_, h⟩ := c.log_eq r; rw [h]
@[simp] theorem Chip.log_hbm (c : Chip) (r : FaultRec) : (c.log r).hbm = c.hbm := by obtain ⟨_, h⟩ := c.log_eq r; rw [h]
@[simp] theorem Chip.log_poison (c : Chip) (r : FaultRec) : (c.log r).poison = c.poison := by obtain ⟨_, h⟩ := c.log_eq r; rw [h]
@[simp] theorem Chip.log_host (c : Chip) (r : FaultRec) : (c.log r).host = c.host := by obtain ⟨_, h⟩ := c.log_eq r; rw [h]
@[simp] theorem Chip.log_pcs (c : Chip) (r : FaultRec) : (c.log r).pcs = c.pcs := by obtain ⟨_, h⟩ := c.log_eq r; rw [h]
@[simp] theorem Chip.log_stackTab (c : Chip) (r : FaultRec) : (c.log r).stackTab = c.stackTab := by obtain ⟨_, h⟩ := c.log_eq r; rw [h]
@[simp] theorem Chip.log_mem (c : Chip) (r : FaultRec) : (c.log r).mem = c.mem := by obtain ⟨_, h⟩ := c.log_eq r; rw [h]
@[simp] theorem Chip.log_settings (c : Chip) (r : FaultRec) : (c.log r).settings = c.settings := by obtain ⟨_, h⟩ := c.log_eq r; rw [h]
@[simp] theorem Chip.log_sessions (c : Chip) (r : FaultRec) : (c.log r).sessions = c.sessions := by obtain ⟨_, h⟩ := c.log_eq r; rw [h]
@[simp] theorem Chip.log_mailbox (c : Chip) (r : FaultRec) : (c.log r).mailbox = c.mailbox := by obtain ⟨_, h⟩ := c.log_eq r; rw [h]
@[simp] theorem Chip.log_queues (c : Chip) (r : FaultRec) : (c.log r).queues = c.queues := by obtain ⟨_, h⟩ := c.log_eq r; rw [h]
@[simp] theorem Chip.log_jobs (c : Chip) (r : FaultRec) : (c.log r).jobs = c.jobs := by obtain ⟨_, h⟩ := c.log_eq r; rw [h]
@[simp] theorem Chip.log_transfers (c : Chip) (r : FaultRec) : (c.log r).transfers = c.transfers := by obtain ⟨_, h⟩ := c.log_eq r; rw [h]
@[simp] theorem Chip.log_tableLoads (c : Chip) (r : FaultRec) : (c.log r).tableLoads = c.tableLoads := by obtain ⟨_, h⟩ := c.log_eq r; rw [h]
@[simp] theorem Chip.log_walks (c : Chip) (r : FaultRec) : (c.log r).walks = c.walks := by obtain ⟨_, h⟩ := c.log_eq r; rw [h]
@[simp] theorem Chip.log_edits (c : Chip) (r : FaultRec) : (c.log r).edits = c.edits := by obtain ⟨_, h⟩ := c.log_eq r; rw [h]
@[simp] theorem Chip.log_reports (c : Chip) (r : FaultRec) : (c.log r).reports = c.reports := by obtain ⟨_, h⟩ := c.log_eq r; rw [h]
@[simp] theorem Chip.log_contribs (c : Chip) (r : FaultRec) : (c.log r).contribs = c.contribs := by obtain ⟨_, h⟩ := c.log_eq r; rw [h]
@[simp] theorem Chip.log_ringIn (c : Chip) (r : FaultRec) : (c.log r).ringIn = c.ringIn := by obtain ⟨_, h⟩ := c.log_eq r; rw [h]
@[simp] theorem Chip.log_sched (c : Chip) (r : FaultRec) : (c.log r).sched = c.sched := by obtain ⟨_, h⟩ := c.log_eq r; rw [h]
@[simp] theorem Chip.log_pairs (c : Chip) (r : FaultRec) : (c.log r).pairs = c.pairs := by obtain ⟨_, h⟩ := c.log_eq r; rw [h]
@[simp] theorem Chip.log_streams (c : Chip) (r : FaultRec) : (c.log r).streams = c.streams := by obtain ⟨_, h⟩ := c.log_eq r; rw [h]
@[simp] theorem Chip.log_heads (c : Chip) (r : FaultRec) : (c.log r).heads = c.heads := by obtain ⟨_, h⟩ := c.log_eq r; rw [h]
@[simp] theorem Chip.log_held (c : Chip) (r : FaultRec) : (c.log r).held = c.held := by obtain ⟨_, h⟩ := c.log_eq r; rw [h]
@[simp] theorem Chip.log_ports (c : Chip) (r : FaultRec) : (c.log r).ports = c.ports := by obtain ⟨_, h⟩ := c.log_eq r; rw [h]
@[simp] theorem Chip.log_rings (c : Chip) (r : FaultRec) : (c.log r).rings = c.rings := by obtain ⟨_, h⟩ := c.log_eq r; rw [h]
@[simp] theorem Chip.log_ringRuns (c : Chip) (r : FaultRec) : (c.log r).ringRuns = c.ringRuns := by obtain ⟨_, h⟩ := c.log_eq r; rw [h]
@[simp] theorem Chip.log_strand (c : Chip) (r : FaultRec) : (c.log r).strand = c.strand := by obtain ⟨_, h⟩ := c.log_eq r; rw [h]
@[simp] theorem Chip.log_mgmt (c : Chip) (r : FaultRec) : (c.log r).mgmt = c.mgmt := by obtain ⟨_, h⟩ := c.log_eq r; rw [h]
@[simp] theorem Chip.log_telem (c : Chip) (r : FaultRec) : (c.log r).telem = c.telem := by obtain ⟨_, h⟩ := c.log_eq r; rw [h]
@[simp] theorem Chip.log_written (c : Chip) (r : FaultRec) : (c.log r).flog.written = (c.flog.written + 1) % 2 ^ 32 := by
  obtain ⟨_, h⟩ := c.log_eq r; rw [h]

end Sys2Proof.Machine
end

