-- ==== Sys2Proof/Laws/Writes.lean ====
section
/-! SUPPORT. What the form of a meaning, a sequenced write, an answer and a control command can change: a relation that every
change of the chip and every handled value keeps, they keep. -/
namespace Sys2Proof.Machine

/-- A meaning that answers has had its effect. -/
theorem meaning_next {i : Instr} {s t : State} {f : State → State} (h : meaning i s f = .next t) : i.wf = true ∧ t = f s := by
  unfold meaning at h
  split at h
  · next hw => cases h; exact ⟨hw, rfl⟩
  · cases h

/-- A command on the chip alone that answers has changed the chip alone. -/
theorem onChip_next {i : Instr} {s t : State} {f : Chip → Chip} (h : onChip i s f = .next t) :
    i.wf = true ∧ t = { s with chip := f s.chip } := meaning_next h

/-- A command whose operands the part has completes. -/
theorem onChip_wf {i : Instr} {s : State} {f : Chip → Chip} (h : i.wf = true) :
    onChip i s f = .next { s with chip := f s.chip } := by simp [onChip, meaning, h]

/-- A relation over states that is a preorder and that every change of the chip keeps. -/
structure Keeps (R : State → State → Prop) : Prop where
  refl : ∀ s, R s s
  trans : ∀ a b c, R a b → R b c → R a c
  chip : ∀ (s : State) (c : Chip), R s { s with chip := c }

theorem writeAll_keeps {R : State → State → Prop} (k : Keeps R) (put : Nat → State → Nat × State)
    (hp : ∀ i s, R s (put i s).2) (is : List Nat) (s : State) : R s (State.writeAll put is s).2.2 := by
  induction is generalizing s with
  | nil => exact k.refl s
  | cons i is ih =>
    have h1 := hp i s
    have h2 := ih (put i s).2
    have h3 : (State.writeAll put (i :: is) s).2.2 = (State.writeAll put is (put i s).2).2.2 := by
      rw [State.writeAll]
      rcases put i s with ⟨st, s1⟩
      dsimp only
      rcases State.writeAll put is s1 with ⟨took, failed, s2⟩
      dsimp only
      split <;> rfl
    rw [h3]
    exact k.trans _ _ _ h1 h2

theorem handleWrite_keeps {R : State → State → Prop} (k : Keeps R) (s : State) (r : MgmtReq) (e : Entry)
    (put : Nat → State → Nat × State) (hp : ∀ i s, R s (put i s).2) : R s (s.handleWrite r e put) := by
  unfold State.handleWrite
  extract_lets guarded
  have hg := writeAll_keeps k guarded (fun i s => by
    simp only [guarded]
    split
    · exact hp i s
    · exact k.refl s) (selected r e) s
  generalize State.writeAll guarded (selected r e) s = w at hg
  obtain ⟨took, failed, t⟩ := w
  refine k.trans _ _ _ hg ?_
  dsimp only
  by_cases h : took.isEmpty = true
  · simp only [h, if_true]; exact k.trans _ _ _ (k.chip t _) (k.chip _ _)
  · simp only [h]
    exact k.trans _ _ _ (k.trans _ _ _ (k.chip t _) (k.chip _ _)) (k.chip _ _)

theorem turnAway_keeps {R : State → State → Prop} (k : Keeps R) (s : State) (p : Nat) : R s (s.turnAway p) := by
  unfold State.turnAway
  split
  · exact k.chip s _
  · exact k.refl s

/-- A written entry changes what its handled values change, and the chip. -/
theorem writeEntry_keeps {R : State → State → Prop} (k : Keeps R) (r : MgmtReq) (put : Entry → Nat → State → Nat × State)
    (hp : ∀ e i s, R s (put e i s).2) (s : State) : R s (writeEntry r put s) := by
  unfold writeEntry
  split
  · exact turnAway_keeps k s _
  · split
    · exact k.chip s _
    · split
      · split
        · exact handleWrite_keeps k s r _ _ (hp _)
        · exact k.chip s _
      · exact k.chip s _

theorem answerNow_keeps {R : State → State → Prop} (k : Keeps R) (r : MgmtReq) (f : State → MgmtReq → Response)
    (s : State) : R s (answerNow r f s) := by
  unfold answerNow
  split
  · exact k.chip s _
  · exact turnAway_keeps k s _

theorem control_keeps {R : State → State → Prop} (k : Keeps R) (path code : Nat) (answer : State → List Byte)
    (f : State → State) (hf : ∀ s, R s (f s)) (s : State) : R s (Machine.control path code answer f s) := by
  unfold Machine.control
  split
  · exact k.trans _ _ _ (hf s) (k.chip _ _)
  · exact turnAway_keeps k s _

/-- A stored value of the dictionary changes the chip or the security registers alone. -/
theorem putEntry_keeps {R : State → State → Prop} (k : Keeps R) (ks : ∀ (s : State) (x : SecSt), x.imageSvn = s.sec.imageSvn →
    x.revokeMask = s.sec.revokeMask → R s { s with sec := x }) (r : MgmtReq) (e : Entry) (i : Nat) (s : State) :
    R s (putEntry r e i s).2 := by
  unfold putEntry State.setSched State.setQueueParam
  extract_lets v
  split
  all_goals first
    | exact k.chip s _
    | exact ks s _ rfl rfl
    | (split
       · exact k.refl s
       · exact k.chip s _)
    | (split
       · exact k.chip s _
       · exact k.refl s)

end Sys2Proof.Machine
end

