-- ==== Sys2Proof/Tests/Bench.lean ====
section
/-! SUPPORT. A small part to try commands on: one capsule of one variant, one job of fourteen Beads bound to it, and Bead 0 at
the first instruction of its stream. Words are spelled field by field from the tables of the manual. -/
namespace Sys2Proof.Tests

open Sys2Proof Sys2Proof.Machine Sys2Proof.Claims

/-- A word whose fields, given as (low bit, value), hold these values. -/
def word (fs : List (Nat × Nat)) : Nat := fs.foldl (fun w f => w + f.2 <<< f.1) 0

/-- What a small capsule holds: the instructions of stream 0, constants, DMA descriptors, tensors, extents, sync
declarations, decision points and resume entries. -/
structure Kit where
  features : Nat := 0
  /-- ticks of a step of the variant (Table 2.9) -/
  stepTicks : Nat := 0
  instrs : List Nat := []
  consts : List Nat := []
  descs : List Nat := []
  tensors : List Nat := []
  extents : List Nat := []
  decisions : List Byte := []
  loupes : List Nat := []
  resume : List Nat := []
  tables : List (Nat × List Byte) := []

def words (n : Nat) (ws : List Nat) : List Byte := ws.flatMap (leBytes n)

/-- The sections of a kit, each with its type and instance; the stream map gives stream 0 to every Bead. -/
def Kit.sections (k : Kit) : List (Nat × Nat × List Byte) :=
  ([(secStream, 0, words 16 k.instrs), (secConst, 0, words 16 k.consts), (secDma, 0, words 32 k.descs),
   (secTensors, 0, words 32 k.tensors), (secExtents, 0, words 80 k.extents), (secDecisions, 0, k.decisions),
   (secResume, 0, words 8 k.resume), (secLoupe, 0, words 32 k.loupes), (secMap, 0, List.replicate 28 0)] ++
  k.tables.map fun (t : Nat × List Byte) => (secTable, t.1, t.2)).filter fun s => !s.2.2.isEmpty

/-- The section directory from byte `off` on of sections that lie one after the other from `off`. -/
def directory : Nat → List (Nat × Nat × List Byte) → List Nat
  | _, [] => []
  | off, s :: ss => word [(120, s.1), (96, s.2.1), (64, off), (32, s.2.2.length)] :: directory (off + s.2.2.length) ss

/-- The capsule: header, one variant of fourteen Beads at bucket tuple 0, directory, sections (Tables 2.1, 2.3, 2.9). -/
def Kit.capsule (k : Kit) : Capsule :=
  let ss := k.sections
  leBytes 64 (word [(384, k.features), (336, ss.length), (320, 1), (240, 100), (192, 96), (160, 64)]) ++ leBytes 32 (word [(96, k.stepTicks)]) ++
    words 16 (directory (96 + 16 * ss.length) ss) ++ ss.flatMap (·.2.2)

/-- A job of fourteen Beads from logical Bead 0 on, bound, at the start. -/
def job0 : Job :=
  { queue := 0, seq := 7, tag := 9, descIndex := 0, session := 0, setting := 0, cls := 0, steps := 10, maxSize := 0,
    exts := [0, 0, 0, 0], seedExt := 0, inAddr := 0, inBytes := 0, outAddr := 0, outBytes := 0, bound := none,
    runLimit := 1000, tuple := [0, 0, 0, 0], stamp := 0, number := 0, ledger := .accepted, phase := .bound,
    ending := none, accIdx := 0, doneIdx := 0, flags := 0, resumes := 0, fromStep := 0, overflow := 0, invalid := 0,
    runTicks := 0, size := 0, base := 0, slot := 0, variant := 0, tensors := [], ckptAlloc := none, camAllocs := [],
    gens := [none, none], openGens := [], mid := none, cancel := false, preempt := false, resumeDue := false,
    fromFirst := false, ringWait := [], ringFrom := none, met := [], inputsIn := true, decisions := [],
    latestBucket := [], rounds := [], barriers := [], pools := [], swapped := [], stepEnds := 0, outEnd := 0,
    headerDone := false, outHeads := [], named := none, fenceRec := none }

/-- A bench: a kit and what the part holds beside it. -/
structure Bench extends Kit where
  job : Job := job0
  run : RunSt := RunSt.fresh
  objs : Tbl SyncObj := []
  locket : List (Nat × List Byte) := []
  tables_ : Mem := []
  chip : Chip → Chip := id

/-- Bead 0 of the bench: bound to ledger entry 0. -/
def Bench.bead0 (b : Bench) : BeadSt := { BeadSt.fresh with job := some 0, run := b.run, objs := b.objs }

/-- A part that runs, before a bench is put on it. -/
def running : Chip :=
  { Chip.reset with pkg := { Chip.reset.pkg with power := .running, devState := 1, bootPhase := false } }

/-- The bench's chip: `locket` lists (bank, byte offset, bytes) of Bead 0 as (key, bytes). -/
def Bench.on (b : Bench) : Chip :=
  b.chip { running with
    beads := [(0, b.bead0)], jobs := [(0, b.job)],
    settings := [(0, { capsule := b.toKit.capsule, weightAddr := 0, weights := [] })],
    locket := b.locket.foldl (fun m e => m.writeN e.1 e.2) [], tables := b.tables_ }

/-- What Bead 0 sees of its first instruction. -/
def Bench.ctx (b : Bench) : Ctx :=
  { p := 0, g := 0, j := 0, job := b.job, cap := b.toKit.capsule, v := b.job.variant, i := b.instrs.getD b.run.pos 0, run := b.run,
    ahead := b.run.parked }

def state (c : Chip) : State := { State.reset with chip := c }
def Bench.state (b : Bench) : State := Tests.state b.on

/-- The state a command answers; the same state where it answers none. -/
def after (i : Instr) (s : State) : State := match exec i s with
  | .next t => t
  | _ => s

/-- Statuses that wait for the sequencer, each with its step index. -/
def statuses (s : State) : List (Nat × Nat) := s.chip.raised.filterMap fun r => match r.what with
  | .status _ _ _ st step _ => some (st, step)
  | _ => none

/-- Bead 0 of the bench stands at its instruction. -/
def Bench.standsB (b : Bench) : Bool :=
  match b.on.canIssue 0 with
  | some x => x.i == b.ctx.i && x.g == 0 && x.j == 0 && decide (x.run = b.run)
  | none => false

/-- The rest of what `Ready` asks, of a Bead with nothing in progress. -/
def Bench.freeB (b : Bench) (f : Foot) : Bool :=
  (b.on.bead 0).run.parked.isEmpty && b.on.available 0 (iWait b.ctx.i) && !b.ctx.unitBusy && !b.on.hazard b.ctx f
    && (b.on.readStalls 0 (localFoot b.ctx f)).isEmpty && !b.on.writeStall 0 (localFoot b.ctx f) && !b.ctx.tableHeld

theorem Bench.canIssue_eq (b : Bench) (h : b.standsB = true) (h2 : b.on.job? 0 = some b.job)
    (h3 : b.on.capsule b.job.setting = b.toKit.capsule) : b.on.canIssue 0 = some b.ctx := by
  unfold Bench.standsB at h
  cases hc : b.on.canIssue 0 with
  | none => simp [hc] at h
  | some x =>
    rw [hc] at h
    simp only [Bool.and_eq_true, beq_iff_eq, decide_eq_true_eq] at h
    obtain ⟨⟨⟨hi, hg⟩, hj⟩, hr⟩ := h
    unfold Chip.canIssue at hc
    cases hq : b.on.running 0 with
    | none => simp [hq] at hc
    | some y =>
      simp only [hq] at hc
      split at hc
      · cases hc
      · obtain ⟨w, -, rfl⟩ := Option.map_eq_some_iff.mp hc
        simp only at hi hg hj hr
        unfold Chip.running at hq
        cases hb : (b.on.bead 0).job with
        | none => simp [hb] at hq
        | some k =>
          simp only [hb] at hq
          cases hk : b.on.job? k with
          | none => simp [hk] at hq
          | some z =>
            simp only [hk] at hq
            split at hq
            · cases hq
              simp only at hi hg hj hr
              subst hj
              rw [h2] at hk
              cases hk
              simp only [Bench.ctx, hi, hg, h3, hr]
            · cases hq

theorem Bench.ready (b : Bench) (sel : Ctx → Prop) (f : Foot) (h : (b.standsB && b.freeB f) = true) (hs : sel b.ctx)
    (h2 : b.on.job? 0 = some b.job := by rfl) (h3 : b.on.capsule b.job.setting = b.toKit.capsule := by rfl) :
    Ready b.on 0 b.ctx sel f := by
  simp only [Bool.and_eq_true] at h
  have hc := b.canIssue_eq h.1 h2 h3
  have hf := h.2
  simp only [Bench.freeB, Bool.and_eq_true, Bool.not_eq_true', List.isEmpty_iff] at hf
  obtain ⟨⟨⟨⟨⟨⟨hp, ha⟩, hu⟩, hz⟩, hr⟩, hw⟩, ht⟩ := hf
  refine ⟨rfl, hc, hs, fun n y k hk => ?_, ha, hu, hz, hr, hw, ht⟩
  simp [Chip.parkedCtx, hp] at hk

/-- The bench meets every hypothesis of a completion or start of the instruction it stands at. -/
def Bench.MeetsAt (b : Bench) (sel : Ctx → Prop) (foot : Chip → Ctx → Foot) (cond : Ctx → Chip → Prop) : Prop :=
  Ready b.on 0 b.ctx sel (foot b.on b.ctx) ∧ cond b.ctx (taken b.on b.ctx)

theorem Bench.meetsAt (b : Bench) (sel : Ctx → Prop) (foot : Chip → Ctx → Foot) (cond : Ctx → Chip → Prop)
    (h : (b.standsB && b.freeB (foot b.on b.ctx)) = true) (hs : sel b.ctx) (hc : cond b.ctx (taken b.on b.ctx))
    (h2 : b.on.job? 0 = some b.job := by rfl) (h3 : b.on.capsule b.job.setting = b.toKit.capsule := by rfl) :
    b.MeetsAt sel foot cond :=
  ⟨b.ready sel _ h hs h2 h3, hc⟩

/-- The same of an instruction that its word alone picks. -/
def Bench.Meets (b : Bench) (sel : Nat → Prop) (foot : Ctx → Foot) (cond : Ctx → Chip → Prop) : Prop :=
  b.MeetsAt (byWord sel) (fun _ => foot) cond

theorem Bench.meets (b : Bench) (sel : Nat → Prop) (foot : Ctx → Foot) (cond : Ctx → Chip → Prop)
    (h : (b.standsB && b.freeB (foot b.ctx)) = true) (hs : sel b.ctx.i) (hc : cond b.ctx (taken b.on b.ctx))
    (h2 : b.on.job? 0 = some b.job := by rfl) (h3 : b.on.capsule b.job.setting = b.toKit.capsule := by rfl) :
    b.Meets sel foot cond :=
  b.meetsAt (byWord sel) (fun _ => foot) cond h hs hc h2 h3

/-! ## Words -/

/-- The wait and the post field name no object. -/
def noObjs : List (Nat × Nat) := [(112, 0x3FF), (102, 0x3FF)]

/-- A LANE word (Table 2.16): operation, formats of destination and sources, rows of the destination (bank 0), source 0 (bank
1), source 1 (bank 2) and source 2 (bank 3), lanes, constant. -/
def laneWord (op count fmt const : Nat) : Nat :=
  word (noObjs ++ [(124, 2), (88, op), (84, fmt), (80, fmt), (76, fmt), (61, 5), (59, 1), (46, 6), (44, 2), (31, 7),
    (29, 3), (16, 8), (8, count), (0, const)])

/-- Bead 0 at one LANE instruction of four FP32 lanes: source 0 holds 1, 2, -3 and 0.5, source 1 four times 2, source 2 four
times 1. -/
def laneBench (op : Nat) (consts : List Nat := []) : Bench :=
  { instrs := [laneWord op 4 0 0], consts := consts,
    locket := [(lockKey 0 1 384, words 4 [0x3F800000, 0x40000000, 0xC0400000, 0x3F000000]),
               (lockKey 0 2 448, words 4 (List.replicate 4 0x40000000)),
               (lockKey 0 3 512, words 4 (List.replicate 4 0x3F800000))] }

/-- The `n` bytes at the destination of `laneBench` after a command. -/
def got (b : Bench) (i : Instr) (n : Nat) : List Byte := (after i b.state).chip.lockRead 0 0 320 n

/-- Two constant entries that spell one 32-byte descriptor. -/
def halves (w : Nat) : List Nat := [w % 2 ^ 128, w >>> 128]

/-- A CTRL word (Table 2.13). -/
def ctrlWord (op operand : Nat) : Nat := word (noObjs ++ [(88, op), (78, operand)])

end Sys2Proof.Tests
end

