-- ==== Sys2Proof/Tests/Lane.lean ====
section
/-! SUPPORT. The model's own tests: what a command does to a small part. Expected values are worked out by hand from the
manual. -/
namespace Sys2Proof.Tests

open Sys2Proof Sys2Proof.Machine Sys2Proof.Claims
set_option Elab.async false

/-! ## LANE arithmetic (Table 2.18) -/

theorem test_add : got (laneBench 0x02) (.add 0) 16 = words 4 [0x40400000, 0x40800000, 0xBF800000, 0x40200000] := by
  decide +kernel
theorem test_subtract : got (laneBench 0x03) (.subtract 0) 16 = words 4 [0xBF800000, 0, 0xC0A00000, 0xBFC00000] := by
  decide +kernel
theorem test_multiply :
    got (laneBench 0x04) (.multiply 0) 16 = words 4 [0x40000000, 0x40800000, 0xC0C00000, 0x3F800000] := by decide +kernel
theorem test_fused_multiply_add :
    got (laneBench 0x05) (.fusedMultiplyAdd 0) 16 = words 4 [0x40400000, 0x40A00000, 0xC0A00000, 0x40000000] := by
  decide +kernel
theorem test_maximum : got (laneBench 0x06) (.maximum 0) 16 = words 4 (List.replicate 4 0x40000000) := by decide +kernel
theorem test_minimum :
    got (laneBench 0x07) (.minimum 0) 16 = words 4 [0x3F800000, 0x40000000, 0xC0400000, 0x3F000000] := by decide +kernel
theorem test_absolute_value :
    got (laneBench 0x08) (.absoluteValue 0) 16 = words 4 [0x3F800000, 0x40000000, 0x40400000, 0x3F000000] := by
  decide +kernel
theorem test_negate : got (laneBench 0x09) (.negate 0) 16 = words 4 [0xBF800000, 0xC0000000, 0x40400000, 0xBF000000] := by
  decide +kernel
theorem test_relu : got (laneBench 0x0A) (.relu 0) 16 = words 4 [0x3F800000, 0x40000000, 0, 0x3F000000] := by decide +kernel
/-- Slope 0.25. -/
theorem test_leaky_relu : got (laneBench 0x0B [0x3E800000]) (.leakyRelu 0) 16 =
    words 4 [0x3F800000, 0x40000000, 0xBF400000, 0x3F000000] := by decide +kernel
/-- Scale 2, bias 1. -/
theorem test_scalar_affine :
    got (laneBench 0x0C [word [(96, 0x40000000), (64, 0x3F800000)]]) (.scalarAffine 0) 16 =
      words 4 [0x40400000, 0x40A00000, 0xC0A00000, 0x40000000] := by decide +kernel
theorem test_lane_sum : got (laneBench 0x0D) (.laneSum 0) 8 = words 4 [0x3F000000, 0] := by decide +kernel
theorem test_lane_maximum : got (laneBench 0x0E) (.laneMaximum 0) 8 = words 4 [0x40000000, 0] := by decide +kernel
theorem test_copy : got (laneBench 0x00) (.copy 0) 16 = words 4 [0x3F800000, 0x40000000, 0xC0400000, 0x3F000000] := by
  decide +kernel
/-- To BF16, rounding to nearest even: the upper halves of the codes. -/
theorem test_convert : got (laneBench 0x01 [1 <<< 28, 0]) (.convert 0) 8 = words 2 [0x3F80, 0x4000, 0xC040, 0x3F00] := by
  decide +kernel
/-- To signed INT4: 1, 2, -3 and 0.5, which rounds to the even 0. -/
theorem test_convert_integer : got (laneBench 0x01 [9 <<< 28 + 1 <<< 24, 0]) (.convert 0) 2 = [0x21, 0x0D] := by
  decide +kernel
/-- The instruction completes: the Bead stands at the next one. -/
theorem test_add_goes_on : ((after (.add 0) (laneBench 0x02).state).chip.bead 0).run.pos = 1 := by decide +kernel

/-! ## Draws (R344): the block of key 0 and counter 0 -/

theorem test_rng_context : ((after (.rngContext 0) (laneBench 0x30 [5]).state).chip.bead 0).run.ctx = some 5 := by
  decide +kernel
theorem test_rand_bits : got (laneBench 0x31 [0]) (.randBits 0) 16 =
    words 4 [0x37EBC78A, 0xFD095B52, 0x22880620, 0xCD0A06C6] := by decide +kernel
theorem test_rand_uniform : got (laneBench 0x32 [0]) (.randUniform 0) 16 =
    words 4 [0x3E5FAF1C, 0x3F7D095B, 0x3E0A2018, 0x3F4D0A06] := by decide +kernel
theorem test_rand_uniform_open : got (laneBench 0x33 [0]) (.randUniformOpen 0) 16 =
    words 4 [0x3E5FAF1C, 0x3F7D095B, 0x3E0A201C, 0x3F4D0A07] := by decide +kernel

/-! ## The special-function unit, with tables of one or a few linear segments -/

/-- A table image (Table 6.2): reduction kind, segments a sign has, symmetry, e_min, and the linear segments (c0, c1). -/
def image (red sym eCount eMin lo1 : Nat) (segs : List (Nat × Nat)) : List Byte :=
  let n := roundUp (64 + 8 * segs.length) 16
  padTo (leBytes 64 (word [(508, red), (506, 1), (504, sym), (494, eCount), (486, eMin), (469, n), (400, lo1)]) ++
    segs.flatMap fun s => leBytes 4 s.1 ++ leBytes 4 s.2) n

/-- The cells of an image at a table position of Bead 0. -/
def tableAt (pos : Nat) (img : List Byte) : Mem :=
  (img.zipIdx.filter fun (e : Byte × Nat) => e.1 != 0).map fun e => (tableKey 0 pos 0 + e.2, e.1)

/-- Segments of a table that is the identity from 1/4 to 4. -/
def id4 : List (Nat × Nat) :=
  [(0x3E800000, 0x3F800000), (0x3F000000, 0x3F800000), (0x3F800000, 0x3F800000), (0x40000000, 0x3F800000)]

/-- 1 + u at 0, 1 - u/2 at 1, 1 - u/4 at 2, u at 3, the identity from 1/4 to 4 at 4, and the same as a tail table at 5, with
x itself below 1/4. -/
def tableOf : Nat → List Byte
  | 0 => image 1 0 0 0 0 [(0x3F800000, 0x3F800000)]
  | 1 => image 3 0 0 0 0 [(0x3F800000, 0xBF000000)]
  | 2 => image 4 0 0 0 0 [(0x3F800000, 0xBE800000)]
  | 3 => image 2 0 0 0 0 [(0, 0x3F800000)]
  | 4 => image 0 1 4 254 0 id4
  | _ => image 5 1 4 254 0x3F800000 id4

/-- `laneBench` with the tables of some positions. -/
def sfuBench (op : Nat) (ps : List Nat) (consts : List Nat := []) : Bench :=
  { laneBench op consts with tables_ := ps.flatMap fun p => tableAt p (tableOf p) }

/-- 2, 4, 1/8 and 1.5. -/
theorem test_exp2 : got (sfuBench 0x40 [0]) (.exp2 0) 16 = words 4 [0x40000000, 0x40800000, 0x3E000000, 0x3FC00000] := by
  decide +kernel
/-- e^-inf = +0 and e^+inf = +inf, whatever the table. -/
theorem test_exp_specials : got { sfuBench 0x41 [] with locket := [(lockKey 0 1 384, words 4 [0xFF800000, 0x7F800000])] }
    (.exp 0) 8 = words 4 [0, 0x7F800000] := by decide +kernel
/-- 0, 1, NaN and -1. -/
theorem test_log2 : got (sfuBench 0x42 [3]) (.log2 0) 16 = words 4 [0, 0x3F800000, 0x7FC00000, 0xBF800000] := by decide +kernel
/-- 0, ln 2, NaN and -ln 2. -/
theorem test_ln : got (sfuBench 0x43 [3]) (.ln 0) 16 = words 4 [0, 0x3F317218, 0x7FC00000, 0xBF317218] := by decide +kernel
/-- 1, 1/2, -(1 - 1/4)/2 and 2. -/
theorem test_recip : got (sfuBench 0x44 [1]) (.recip 0) 16 = words 4 [0x3F800000, 0x3F000000, 0xBEC00000, 0x40000000] := by
  decide +kernel
/-- The sources by 2. -/
theorem test_div : got (sfuBench 0x45 [1]) (.div 0) 16 = words 4 [0x3F000000, 0x3F800000, 0xBFC00000, 0x3E800000] := by
  decide +kernel
/-- 1; 1 - 1/4; NaN; 2 (1 - 1/4). -/
theorem test_rsqrt : got (sfuBench 0x46 [2]) (.rsqrt 0) 16 = words 4 [0x3F800000, 0x3F400000, 0x7FC00000, 0x3FC00000] := by
  decide +kernel
theorem test_sqrt : got (sfuBench 0x47 [2]) (.sqrt 0) 16 = words 4 [0x3F800000, 0x3FC00000, 0x7FC00000, 0x3F400000] := by
  decide +kernel
theorem test_eval : got (sfuBench 0x48 [4] [4]) (.eval 0) 16 = words 4 [0x3F800000, 0x40000000, 0xC0400000, 0x3F000000] := by
  decide +kernel
/-- Bit 23 is the sign; (2 (w mod 2^23) + 1) 2^-24 is the argument (R232). -/
theorem test_gauss : got (sfuBench 0x49 [5] [5]) (.gauss 0) 16 = words 4 [0xB3800000, 0x33800000, 0x3F000001, 0x33800000] := by
  decide +kernel
/-- The draw 0x37EBC78A has bit 23 set and 0x6BC78A below it: the argument is below 1 and above 1/2, where the table is the
identity. -/
theorem test_rand_normal : got (sfuBench 0x34 [5] [5 <<< 88]) (.randNormal 0) 4 = words 4 [0xBF578F15] := by decide +kernel

/-- The kit of a table_load of image 0 of position 0. -/
def loadBench : Bench :=
  { instrs := [laneWord 0x4A 1 0 0], consts := [0], tables := [(0, image 1 0 0 0 0 [(0x3F800000, 0x3F800000)])] }
/-- The state with the image under way. -/
def loading : State := after (.tableLoad 0) loadBench.state

theorem test_table_load : loading.chip.tableLoads.map (fun t => (t.p, t.pos, t.image.length)) = [(0, 0, 80)] := by
  decide +kernel
theorem test_table_load_complete :
    let c := (after (.tableLoadComplete 0 0) loading).chip
    c.tableLoads = [] ∧ (c.bead 0).shadowFull.getD 0 false = true ∧ c.tables.readN (c.shadowKey 0 0) 80 =
      image 1 0 0 0 0 [(0x3F800000, 0x3F800000)] := by decide +kernel
/-- A full shadow bank becomes the active one. -/
def swapBench : Bench :=
  { instrs := [ctrlWord 6 0], chip := fun c => c.updBead 0 fun b => { b with shadowFull := modAt b.shadowFull 0 fun _ => true } }
theorem test_table_swap : ((after (.tableSwap 0) swapBench.state).chip.bead 0).tabSel =
    true :: List.replicate 7 false := by decide +kernel

/-! ## Witnesses: every hypothesis of LaneArithmeticCompletes and DrawsLookupsAndTablesComplete can be met -/

/-- (operation, sources) of the LANE operations whose only condition is readiness. -/
def plainLanes : List (Nat × Nat) :=
  [(0x02, 2), (0x03, 2), (0x04, 2), (0x05, 3), (0x06, 2), (0x07, 2), (0x08, 1), (0x09, 1), (0x0A, 1), (0x0B, 1), (0x0C, 1),
   (0x00, 1), (0x31, 0), (0x32, 0), (0x33, 0), (0x34, 0), (0x40, 1), (0x41, 1), (0x42, 1), (0x43, 1), (0x44, 1), (0x45, 2),
   (0x46, 1), (0x47, 1), (0x48, 1), (0x49, 1)]

theorem witness_lanes :
    ∀ e ∈ plainLanes, (laneBench e.1).Meets (lane e.1) (fun x => laneFoot e.2 x.i) always := by
  intro e he
  have h : (plainLanes.all fun e => (laneBench e.1).standsB &&
    (laneBench e.1).freeB (laneFoot e.2 (laneBench e.1).ctx.i)) = true := by decide +kernel
  have k : ∀ e ∈ plainLanes, lane e.1 (laneBench e.1).ctx.i := by unfold lane; decide +kernel
  exact Bench.meets _ _ _ _ (List.all_eq_true.mp h e he) (k e he) trivial

theorem witness_lane_reductions : ∀ op ∈ [0x0D, 0x0E], (laneBench op).Meets (lane op)
    (fun x => { laneFoot 1 x.i with writes := [⟨laneBankD x.i, 64 * laneAddrD x.i, elemBytes (laneFmtD x.i) 1⟩] })
    always := by
  intro op he
  have h : ([0x0D, 0x0E].all fun op => (laneBench op).standsB && (laneBench op).freeB
    { laneFoot 1 (laneBench op).ctx.i with
      writes := [⟨laneBankD (laneBench op).ctx.i, 64 * laneAddrD (laneBench op).ctx.i,
        elemBytes (laneFmtD (laneBench op).ctx.i) 1⟩] }) = true := by decide +kernel
  have k : ∀ op ∈ [0x0D, 0x0E], lane op (laneBench op).ctx.i := by unfold lane; decide +kernel
  exact Bench.meets _ _ _ _ (List.all_eq_true.mp h op he) (k op he) trivial

theorem witness_convert : (laneBench 0x01 [1 <<< 28, 0]).Meets (lane 0x01) convertFoot fun x _ =>
    isMx (cwTarget (fld (x.const (laneConst x.i)) 31 0)) = false ∧
      x.noContext (fld (x.const (laneConst x.i)) 31 0) = false :=
  Bench.meets _ _ _ _ (by decide +kernel) (by unfold lane; decide +kernel) (by decide +kernel)

theorem witness_convert_mx : (laneBench 0x01 [10 <<< 28, 0]).Meets (lane 0x01) convertFoot fun x _ =>
    isMx (cwTarget (fld (x.const (laneConst x.i)) 31 0)) = true ∧
      x.noContext (fld (x.const (laneConst x.i)) 31 0) = false :=
  Bench.meets _ _ _ _ (by decide +kernel) (by unfold lane; decide +kernel) (by decide +kernel)

theorem witness_rng_context : (laneBench 0x30 [5]).Meets (lane 0x30) (fun _ => Foot.none) always :=
  Bench.meets _ _ _ _ (by decide +kernel) (by unfold lane; decide +kernel) trivial

theorem witness_table_load : loadBench.Meets (lane 0x4A) (fun _ => Foot.none) fun x c =>
    tableImage x.cap (fld (x.const (laneConst x.i)) 7 0) (fld (x.const (laneConst x.i)) 31 16) = some (tableOf 0) ∧
      ∀ t ∈ c.tableLoads, ¬(t.p = x.p ∧ t.pos = fld (x.const (laneConst x.i)) 7 0) :=
  Bench.meets _ _ _ _ (by decide +kernel) (by unfold lane; decide +kernel) (by decide +kernel)

theorem witness_table_load_complete : isBead 0 = true ∧ 0 < 8 ∧
    ∃ t, loading.chip.tableLoads.find? (fun t => t.p = 0 && t.pos = 0) = some t :=
  ⟨by decide, by decide, Option.isSome_iff_exists.mp (by decide +kernel)⟩

theorem witness_table_swap : swapBench.Meets (ctrl 6) (fun _ => Foot.none) fun x c =>
    ∀ t ∈ c.tableLoads, ¬(t.p = x.p ∧ t.pos = swapTable x.i) :=
  Bench.meets _ _ _ _ (by decide +kernel) (by unfold ctrl; decide +kernel) (by decide +kernel)

end Sys2Proof.Tests
end

