-- ==== Sys2Proof/Tests/Rows.lean ====
section
/-! SUPPORT. Tests of normalisations and row operations, and states that meet the hypotheses of
NormalisationsAndRowOperationsComplete. -/
namespace Sys2Proof.Tests

open Sys2Proof Sys2Proof.Machine Sys2Proof.Claims
set_option Elab.async false

/-! ## Normalisations (Table 6.6) -/

/-- One row of `n` FP32 elements from bank 1 row 6 to bank 0 row 5, one group, statistics at bank 3 row 20, epsilon 1. -/
def normDesc (n : Nat) : Nat :=
  word [(232, 1), (215, n), (208, 1), (198, 1), (185, 6), (183, 0), (170, 5), (154, 1), (138, 1), (112, 20), (64, 0x3F800000)]

/-- The row holds 2, 2, 2, 2; the statistics region holds mean 1 and deviation 1/2. -/
def normBench (op : Nat) (n : Nat := 4) : Bench :=
  { sfuBench op [0, 1, 2] (halves (normDesc n)) with
    locket := [(lockKey 0 1 384, words 4 (List.replicate 4 0x40000000)), (lockKey 0 3 1280, words 4 [0x3F800000, 0x3F000000])] }

/-- Every element is the mean. -/
theorem test_layer_normalisation : got (normBench 0x50) (.layerNormalisation 0) 16 = words 4 [0, 0, 0, 0] := by
  decide +kernel
/-- The mean square 4 and epsilon 1 give 5 = 4 × 1.25: 2 × (1 - 0.25/4) / 2. -/
theorem test_rms_normalisation :
    got (normBench 0x51) (.rmsNormalisation 0) 16 = words 4 (List.replicate 4 0x3F700000) := by decide +kernel
theorem test_group_normalisation : got (normBench 0x52) (.groupNormalisation 0) 16 = words 4 [0, 0, 0, 0] := by
  decide +kernel
/-- Four equal elements: a quarter each. -/
theorem test_soft_maximum : got (normBench 0x53) (.softMaximum 0) 16 = words 4 (List.replicate 4 0x3E800000) := by
  decide +kernel
/-- Mean 2, squared deviations 0, count 4 (R207). -/
theorem test_statistics_only : (after (.statisticsOnly 0) (normBench 0x54).state).chip.lockLE 0 3 1280 16 =
    word [(96, 0x40000000), (48, 4)] := by decide +kernel
/-- (2 - 1) × 1/2. -/
theorem test_apply : got (normBench 0x55) (.apply 0) 16 = words 4 (List.replicate 4 0x3F000000) := by decide +kernel

/-- One record of mean 2, squared deviations 0 and count 4 for the one group. -/
def completeBench (count : Nat) : Bench :=
  { normBench 0x56 with locket := [(lockKey 0 1 384, leBytes 16 (word [(96, 0x40000000), (48, count)]))] }
/-- Mean 2 and rsqrt (0 + 1) = 1. -/
theorem test_complete : (after (.complete 0) (completeBench 4).state).chip.lockRead 0 3 1280 8 =
    words 4 [0x40000000, 0x3F800000] := by decide +kernel
/-- A merged count of 0 sets EMPTY_REDUCTION. -/
theorem test_complete_empty : ((after (.complete 0) (completeBench 0).state).chip.job? 0).map (·.flags) = some 1 := by
  decide +kernel

def norms : List Nat := [0x50, 0x51, 0x52, 0x53]

theorem witness_norms : ∀ op ∈ norms, (normBench op).Meets (lane op) (normFoot true true false false)
    fun x _ => x.noContext (nmConvert (normWord x)) = false := by
  intro op he
  have h : (norms.all fun op => (normBench op).standsB &&
    (normBench op).freeB (normFoot true true false false (normBench op).ctx)) = true := by decide +kernel
  have k : ∀ op ∈ norms, lane op (normBench op).ctx.i ∧
    (normBench op).ctx.noContext (nmConvert (normWord (normBench op).ctx))
      = false := by unfold lane; decide +kernel
  exact Bench.meets _ _ _ _ (List.all_eq_true.mp h op he) (k op he).1 (k op he).2
theorem witness_statistics_only : (normBench 0x54).Meets (lane 0x54) (normFoot true false false true) always :=
  Bench.meets _ _ _ _ (by decide +kernel) (by unfold lane; decide +kernel) trivial
theorem witness_apply : (normBench 0x55).Meets (lane 0x55) (normFoot true true true false)
    fun x _ => x.noContext (nmConvert (normWord x)) = false :=
  Bench.meets _ _ _ _ (by decide +kernel) (by unfold lane; decide +kernel) (by decide +kernel)
theorem witness_complete : (completeBench 4).Meets (lane 0x56) completeFoot always :=
  Bench.meets _ _ _ _ (by decide +kernel) (by unfold lane; decide +kernel) trivial

/-! ## Row operations (Tables 9.3, 9.4) -/

/-- A descriptor of INT8 rows: mode, source bank 1 row 6, destination bank 0 row 5, row pitch 64 bytes, and other fields. -/
def rowsDesc (mode : Nat) (fs : List (Nat × Nat)) : Nat :=
  word ([(252, mode), (248, 8), (246, 1), (233, 6), (231, 0), (218, 5), (205, 1)] ++ fs)

def rowBench (op d : Nat) (src dst : List Byte) : Bench :=
  { instrs := [laneWord op 1 0 0], consts := halves d, locket := [(lockKey 0 1 384, src), (lockKey 0 0 320, dst)] }

/-- Width 4, one pixel of padding each side, interior 10, 20: mode 2 reflects to 20, 10, 20, 10. -/
def padBench : Bench := rowBench 0x70 (rowsDesc 2 [(193, 4), (181, 1), (179, 1), (177, 1), (9, 2)]) [] [0, 10, 20, 0]
theorem test_pad_fill : got padBench (.padFill 0) 4 = [20, 10, 20, 10] := by decide +kernel

def gatherBench : Bench := rowBench 0x71 (rowsDesc 0 [(193, 4), (181, 1), (162, 1), (159, 1), (155, 2), (143, 3)]) [1, 2, 3, 4] []

/-- Maximum of pairs of 1, 5, 3, -2: 5 and 3 in FP32. -/
def poolBench (mode : Nat) : Bench :=
  rowBench 0x73 (rowsDesc mode [(193, 4), (181, 1), (162, 2), (159, 1), (155, 2), (143, 2), (106, 1), (105, 1),
    (73, 0x3F000000)]) [1, 5, 3, 0xFE] []
theorem test_resample_maximum : got (poolBench 0) (.resample 0) 8 = words 4 [0x40A00000, 0x40400000] := by decide +kernel
/-- Means, by the factor 1/2: 3 and 1/2. -/
theorem test_resample_mean : got (poolBench 1) (.resample 0) 8 = words 4 [0x40400000, 0x3F000000] := by decide +kernel

/-- Space to channel with factor 2: rows 1, 2 and 3, 4 become one pixel of four channels; and back. -/
def regroupBench (mode cpix dstCpix : Nat) (src : List Byte) : Bench :=
  rowBench 0x74 (rowsDesc mode [(193, 2), (181, cpix), (155, 2), (143, 1), (123, dstCpix), (0, 1)]) src []
theorem test_regroup : got (regroupBench 0 1 4 (padTo [1, 2] 64 ++ [3, 4])) (.regroup 0) 4 = [1, 2, 3, 4] := by
  decide +kernel
theorem test_regroup_back : (after (.regroup 0) (regroupBench 1 4 1 [1, 2, 3, 4]).state).chip.lockRead 0 0 320 66 =
    padTo [1, 2] 64 ++ [3, 4] := by decide +kernel

/-- Object 3 is a full slot of 64 bytes at bank 2 whose header says step 4, layer 7, origin 5; the Bead is in step `step`. -/
def haloBench (step : Nat) : Bench :=
  { instrs := [word [(112, 3), (102, 0x3FF), (124, 2), (88, 0x72)]], consts := halves (word [(107, 7)]),
    run := { RunSt.fresh with step := some step }, objs := [(3, { val := .slot .full false, bank := 2, off := 0, len := 64, peer := 5 })],
    locket := [(lockKey 0 2 0, leBytes 64 (word [(480, 4), (464, 7), (452, 5)]))] }
theorem test_halo_check : ((after (.haloCheck 0) (haloBench 4).state).chip.bead 0).run.pos = 1 := by decide +kernel
/-- A header of another step raises HALO_SEQ. -/
theorem test_halo_check_fence : statuses (after (.haloCheck 0) (haloBench 5).state) = [(stHaloSeq, 5)] := by decide +kernel

theorem witness_pad_fill : padBench.Meets (lane 0x70) padFoot always :=
  Bench.meets _ _ _ _ (by decide +kernel) (by unfold lane; decide +kernel) trivial
theorem witness_conv_gather : gatherBench.Meets (lane 0x71)
    (fun x => { reads := tapReads (rowDesc x),
                writes := [⟨roDstBank (rowDesc x), 64 * roDstAddr (rowDesc x),
                  elemBytes (roFmt (rowDesc x)) (128 * gatherKt (rowDesc x))⟩] }) always :=
  Bench.meets _ _ _ _ (by decide +kernel) (by unfold lane; decide +kernel) trivial
theorem witness_halo_check : ∃ o, (haloBench 4).Meets (lane 0x72) (fun _ => .none) fun x c =>
    c.obj? x.p (iWait x.i) = some o ∧
      fld (c.lockLE x.p o.bank (o.off + o.len - 64) 64) 511 480 = (c.bead x.p).run.step.getD u32max ∧
      fld (c.lockLE x.p o.bank (o.off + o.len - 64) 64) 479 464 = roLayer (rowDesc x) ∧
      fld (c.lockLE x.p o.bank (o.off + o.len - 64) 64) 463 452 = o.peer :=
  ⟨{ val := .slot .full false, bank := 2, off := 0, len := 64, peer := 5 },
    Bench.meets _ _ _ _ (by decide +kernel) (by unfold lane; decide +kernel) (by decide +kernel)⟩
theorem witness_resample_up : (poolBench 2).Meets (lane 0x73) resampleFoot fun x _ => roMode (rowDesc x) = 2 :=
  Bench.meets _ _ _ _ (by decide +kernel) (by unfold lane; decide +kernel) (by decide +kernel)
theorem witness_resample_pool : (poolBench 1).Meets (lane 0x73) resampleFoot fun x _ => roMode (rowDesc x) ≠ 2 :=
  Bench.meets _ _ _ _ (by decide +kernel) (by unfold lane; decide +kernel) (by decide +kernel)
theorem witness_regroup : (regroupBench 0 1 4 []).Meets (lane 0x74) regroupFoot fun x _ => roMode (rowDesc x) = 0 :=
  Bench.meets _ _ _ _ (by decide +kernel) (by unfold lane; decide +kernel) (by decide +kernel)
theorem witness_regroup_back : (regroupBench 1 4 1 []).Meets (lane 0x74) regroupFoot fun x _ => roMode (rowDesc x) ≠ 0 :=
  Bench.meets _ _ _ _ (by decide +kernel) (by unfold lane; decide +kernel) (by decide +kernel)

end Sys2Proof.Tests
end

