-- ==== Sys2Proof/Tests/Matrix.lean ====
section
/-! SUPPORT. Tests of matrix products and chains, and states that meet the hypotheses of ProductsAndChainsComplete. -/
namespace Sys2Proof.Tests

open Sys2Proof Sys2Proof.Machine Sys2Proof.Claims
set_option Elab.async false

/-! ## Products (Tables 2.12, 5.1, 5.5) -/

/-- Constant entries 1 and 2: an edge of one row, `n` columns and `k` positions. -/
def edge1 (n k : Nat) : List Nat := 0 :: halves (word [(192, 1), (128, n), (64, k)])

/-- A transposed BF16 operand row of 1, 2 at bank 0 row 10 and two columns 1, 1 and 3, -1 at bank 1 row 11. -/
def operands : List (Nat × List Byte) :=
  [(lockKey 0 0 640, words 2 [0x3F80, 0x4000]), (lockKey 0 1 704, words 2 [0x3F80, 0x3F80]),
   (lockKey 0 1 768, words 2 [0x4040, 0xBF80]), (lockKey 0 2 0, words 4 [0x3F800000])]

/-- One K step, edge 1, the accumulator at bank 2 row 0. -/
def mmaBench (accumulate : Nat) : Bench :=
  { instrs := [word (noObjs ++ [(124, 1), (88, 1), (84, 1), (80, 1), (76, 1), (75, 1), (74, accumulate), (57, 10), (44, 11),
      (23, 1)])], consts := edge1 2 2, locket := operands }

/-- 1 + 2 and 3 - 2. -/
theorem test_mma : (after (.mma 0) (mmaBench 0).state).chip.lockRead 0 2 0 12 = words 4 [0x40400000, 0x3F800000, 0] := by
  decide +kernel
/-- Onto an accumulator of 1 and 0. -/
theorem test_mma_accumulates : (after (.mma 0) (mmaBench 1).state).chip.lockRead 0 2 0 8 =
    words 4 [0x40800000, 0x3F800000] := by decide +kernel

/-- A kind 0 chain of the same product; its descriptor is at constant entry 3, its list or statistics at bank 3 row 20. -/
def chainBench (fs : List (Nat × Nat)) (locket : List (Nat × List Byte)) : Bench :=
  { instrs := [word (noObjs ++ [(124, 5), (88, 3), (75, 10), (62, 11), (41, 1), (20, 20)])],
    consts := edge1 2 2 ++ halves (word ([(248, 1), (244, 1), (240, 1), (239, 1), (224, 1)] ++ fs)),
    locket := operands ++ locket }
theorem test_chain_product : (after (.chainProduct 0) (chainBench [] []).state).chip.lockRead 0 2 0 8 =
    words 4 [0x40400000, 0x3F800000] := by decide +kernel
/-- The gather list names row 1, which holds 2, 0: the products are 2 and 6. -/
def gatheredBench : Bench :=
  chainBench [(222, 1), (191, 4)] [(lockKey 0 0 704, words 2 [0x4000]), (lockKey 0 3 1280, words 4 [1])]
theorem test_chain_gather : (after (.chainProduct 0) gatheredBench.state).chip.lockRead 0 2 0 8 =
    words 4 [0x40000000, 0x40C00000] := by decide +kernel
/-- FP32 elements 3, 5 with mean 1 and deviation 1/2 are the operand 1, 2. -/
def appliedBench : Bench :=
  chainBench [(222, 2), (220, 2), (207, 1)] [(lockKey 0 0 640, words 4 [0x40400000, 0x40A00000]),
    (lockKey 0 3 1280, words 4 [0x3F800000, 0x3F000000])]
theorem test_chain_apply : (after (.chainProduct 0) appliedBench.state).chip.lockRead 0 2 0 8 =
    words 4 [0x40400000, 0x3F800000] := by decide +kernel

/-! ## Chains fed by rings -/

def slot (st : SlotState) (bank off len : Nat) : SyncObj := { val := .slot st false, bank := bank, off := off, len := len, peer := 0 }

/-- One key block in slot 0 and one value block in slot 1; one query row of one element 1; keys 0 and 1 are valid, each with
score 1, their values 2 and 4. The chain descriptor is at constant entry 3, its mask at entry 5; P at bank 0 row 300. -/
def attentionBench (mask : List Nat) (maskAt : Nat) (edgeRows : Nat) (ml : List Nat) : Bench :=
  { instrs := [word (noObjs ++ [(124, 5), (88, 3), (75, 10), (41, 1), (20, 20)])],
    consts := 0 :: halves (word [(192, edgeRows), (128, 2), (64, 1)]) ++
      halves (word [(252, 1), (248, 1), (244, 1), (224, 1), (159, 0x3F800000), (143, 1), (133, 0), (123, 1), (120, 1),
        (108, 1), (95, 300), (74, maskAt)]) ++ mask,
    objs := [(0, slot .full 1 0 8256), (1, slot .full 1 16384 8192)],
    locket := [(lockKey 0 0 640, words 2 [0x3F80]), (lockKey 0 1 0, words 2 [0x3F80]), (lockKey 0 1 64, words 2 [0x3F80]),
      (lockKey 0 1 8192, leBytes 64 (word [(468, 9), (438, 1), (0, 2 ^ 128 - 1)])),
      (lockKey 0 1 16384, words 2 [0x4000]), (lockKey 0 1 16448, words 2 [0x4080]), (lockKey 0 3 1280, words 4 ml)],
    tables_ := tableAt 0 (tableOf 0) ++ tableAt 1 (tableOf 1) }

/-- A score pass with maximum 1 and sum 2: each key counts 1/2, in units of 2^-32, for record 9. -/
def scoreBench (rows : Nat) : Bench :=
  attentionBench (halves (word [(251, 1), (249, 1), (134, 40)])) 5 rows [0x3F800000, 0x40000000]
theorem test_score_pass : (after (.scorePass 0) (scoreBench 1).state).chip.lockLE 0 3 2560 16 = 9 <<< 116 + 2 ^ 32 := by
  decide +kernel

/-- One hidden chunk: X is 2, W1 gives 6 and 2, W2 weighs them by 1 and 2. The hidden epilogue is at constant entry 5. -/
def mlpBench (edgeRows : Nat) : Bench :=
  { instrs := [word (noObjs ++ [(124, 5), (88, 3), (75, 10), (41, 1)])],
    consts := 0 :: halves (word [(192, edgeRows), (128, 1), (64, 1)]) ++
      halves (word [(252, 2), (248, 1), (244, 1), (240, 1), (224, 1), (143, 1), (133, 0), (123, 1), (120, 1), (112, 5),
        (108, 1), (95, 300)]) ++ [0, 0, 0, 0],
    objs := [(0, slot .full 1 0 8192), (1, slot .full 1 16384 32768)],
    locket := [(lockKey 0 0 640, words 2 [0x4000]), (lockKey 0 1 0, words 2 [0x4040, 0x3F80]),
      (lockKey 0 1 16384, words 2 [0x3F80]), (lockKey 0 1 16640, words 2 [0x4000])] }
/-! ## Witnesses -/

theorem witness_mma : (mmaBench 1).Meets (fun i => iClass i = 1) mmaLive
    fun x _ => x.epiNoContext (mmaEpilogue x.i) true = false :=
  Bench.meets _ _ _ _ (by decide +kernel) (by decide +kernel) (by decide +kernel)

theorem witness_chain_product : (chainBench [] []).MeetsAt (fun y => iClass y.i = 5 ∧ cdKind (chainWord y) = 0) chainLive
    fun x _ => x.epiNoContext (chEpilogue x.i) (chLast x.i) = false ∧ cdPrologue (chainWord x) ≠ 1 ∧
      cdPrologue (chainWord x) ≠ 2 :=
  Bench.meetsAt _ _ _ _ (by decide +kernel) (by decide +kernel) (by decide +kernel)
theorem witness_chain_gather : gatheredBench.MeetsAt (fun y => iClass y.i = 5 ∧ cdKind (chainWord y) = 0) chainLive
    fun x c => x.epiNoContext (chEpilogue x.i) (chLast x.i) = false ∧ cdPrologue (chainWord x) = 1 ∧
      c.gatherBad x (chainProductOf x) = false :=
  Bench.meetsAt _ _ _ _ (by decide +kernel) (by decide +kernel) (by decide +kernel)
theorem witness_chain_apply : appliedBench.MeetsAt (fun y => iClass y.i = 5 ∧ cdKind (chainWord y) = 0) chainLive
    fun x _ => x.epiNoContext (chEpilogue x.i) (chLast x.i) = false ∧ cdPrologue (chainWord x) = 2 :=
  Bench.meetsAt _ _ _ _ (by decide +kernel) (by decide +kernel) (by decide +kernel)
/-- Element (0, 0) of the apply is read. -/
theorem witness_chain_apply_element : let x := appliedBench.ctx
    edgeN x (chEdge x.i) (chainProductOf x).n ≠ 0 ∧ 0 < edgeM x (chEdge x.i) (chainProductOf x).m ∧
      0 < (chainProductOf x).kA ∧ (chainProductOf x).readsA (edgeK x (chEdge x.i) (chainProductOf x).kB) 0 = true := by
  decide +kernel

/-- Whether a chain has come to its end, and with what. -/
def Act.ended? : Act → Option Chip
  | .done c => some c
  | _ => none
theorem Act.ended (a : Act) (h : (Act.ended? a).isSome = true) : ∃ d, a = .done d := by
  cases a <;> simp [Act.ended?] at h ⊢

/-- What the blocks of a bench's chain come to, each kind of chain from its start on. -/
def attentionRun (x : Ctx) (c : Chip) : Act :=
  runBlocks x (cdBlocks (chainWord x))
    (attendBlock x (chainWord x) (maskWord x (cdMask (chainWord x))) (edgeM x (chEdge x.i) 128)
      (edgeK x (chEdge x.i) (headDim (chainWord x)))) (cdBlocks (chainWord x) + 1) 0
    (c.attendStart x (chainWord x) (edgeM x (chEdge x.i) 128))
def scoreRun (x : Ctx) (c : Chip) : Act :=
  runBlocks x (cdBlocks (chainWord x))
    (scoreStep x (chainWord x) (maskWord x (cdMask (chainWord x))) (edgeM x (chEdge x.i) 128)
      (edgeK x (chEdge x.i) (headDim (chainWord x)))) (cdBlocks (chainWord x) + 1) 0
    (c.lockClear x.p 2 (scoreOff x (chainWord x)) 65536)
def mlpRun (x : Ctx) (c : Chip) : Act :=
  runBlocks x (mlpParts x (chainWord x) * cdBlocks (chainWord x))
    (mlpBlock x (chainWord x) (edgeM x (chEdge x.i) 128) (edgeN x (chEdge x.i) (shapeN (cdShape (chainWord x)))))
    (mlpParts x (chainWord x) * cdBlocks (chainWord x) + 1) 0
    (c.lockClear x.p 2 (64 * chCAddr x.i) (512 * shapeN (cdShape (chainWord x)) + 65536
      + if epGate (epiWord x (cdEpi2 (chainWord x))) then 65536 else 0))

def attentionB : Bench := attentionBench [] 0 1 []

theorem witness_chain_attention : ∃ d, attentionB.MeetsAt (kind1 false) (fun _ => attentionLive) fun x c =>
    x.epiNoContext (chEpilogue x.i) true = false ∧ attends x c d := by
  obtain ⟨d, h⟩ := Act.ended (attentionRun attentionB.ctx (taken attentionB.on attentionB.ctx)) (by decide +kernel)
  exact ⟨d, Bench.meetsAt _ _ _ _ (by decide +kernel) (by unfold kind1; decide +kernel) ⟨by decide +kernel, h⟩⟩

theorem witness_score_pass : ∃ d, (scoreBench 1).MeetsAt (kind1 true) (fun _ => attentionLive) fun x c =>
    scoreRun x c = .done d := by
  obtain ⟨d, h⟩ := Act.ended (scoreRun (scoreBench 1).ctx (taken (scoreBench 1).on (scoreBench 1).ctx)) (by decide +kernel)
  exact ⟨d, Bench.meetsAt _ _ _ _ (by decide +kernel) (by unfold kind1; decide +kernel) h⟩

theorem witness_chain_mlp : ∃ d, (mlpBench 1).MeetsAt (fun x => iClass x.i = 5 ∧ cdKind (chainWord x) = 2)
    (fun _ => mlpLive) fun x c => x.epiNoContext (chEpilogue x.i) true = false ∧
      x.epiNoContext (cdEpi2 (chainWord x)) true = false ∧ mlpRun x c = .done d := by
  obtain ⟨d, h⟩ := Act.ended (mlpRun (mlpBench 1).ctx (taken (mlpBench 1).on (mlpBench 1).ctx)) (by decide +kernel)
  exact ⟨d, Bench.meetsAt _ _ _ _ (by decide +kernel) (by decide +kernel) ⟨by decide +kernel, by decide +kernel, h⟩⟩

/-- 2^24 + 1 in an INT32 accumulator is unchanged by an absent affine step (R192). -/
theorem test_epilogue_int : (Chip.reset.epiLane { p := 0, e := 0, lens := [], rows := 1, cols := 1 } 0 0 (intVal 16777217)
    .zero .zero).1 = intVal 16777217 := by decide +kernel

end Sys2Proof.Tests
end

