-- ==== Sys2Proof/Tests/Control.lean ====
section
/-! SUPPORT. Tests of the CTRL and SYNC classes, barriers and reductions, and states that meet the hypotheses of
ControlFlowCompletes and BarriersSyncAndContributionsComplete. -/
namespace Sys2Proof.Tests

open Sys2Proof Sys2Proof.Machine Sys2Proof.Claims
set_option Elab.async false

/-! ## CTRL (Table 2.13) -/

def ctrlBench (op operand : Nat) : Bench := { instrs := [ctrlWord op operand] }
/-- Where Bead 0 stands after a command. -/
def ran (b : Bench) (i : Instr) : RunSt := ((after i b.state).chip.bead 0).run

theorem test_end : (ran (ctrlBench 0 0) (.endStream 0)).ended = true := by decide +kernel
/-- The first step_begin begins step 0 and clears the rounding context. -/
def beginBench : Bench := { ctrlBench 1 0 with run := { RunSt.fresh with ctx := some 3 } }
theorem test_step_begin : ran beginBench (.stepBegin 0) = { RunSt.fresh with step := some 0, begun := 1, pos := 1 } := by
  decide +kernel
/-- Step 0's end opens generation step 1. -/
def stepEndBench : Bench := { ctrlBench 2 0 with run := { RunSt.fresh with step := some 0, begun := 1 } }
theorem test_step_end :
    let c := (after (.stepEnd 0) stepEndBench.state).chip
    (c.bead 0).run.passed = 1 ∧ (c.job? 0).map (fun x => x.openGens.map (·.step)) = some [1] := by decide +kernel
/-- The Bead that is furthest opens another generation while the first still waits for the other Beads. -/
theorem test_step_end_ahead : ((after (.stepEnd 0) { stepEndBench with
      run := { RunSt.fresh with step := some 1, begun := 2, passed := 1 },
      job := { job0 with openGens := [{ step := 1, seq := 7, crc := 0, flags := 0, overflow := 0, invalid := 0, tensors := [], settingId := 0, version := 0 }] }
    }.state).chip.job? 0).map (fun x => x.openGens.map (·.step)) = some [1, 2] := by decide +kernel
theorem test_yield_free : (ran (ctrlBench 8 0) (.yield 0)).pos = 1 := by decide +kernel
/-- A job to be pre-empted whose steps are longer than the threshold saves its context at a yield. -/
def yieldBench : Bench :=
  { ctrlBench 8 0 with
    features := 2 ^ 12, stepTicks := 200000, job := { job0 with preempt := true } }
theorem test_yield_saves : (ran yieldBench (.yield 0)).yielded = true := by decide +kernel

/-- A loop of the step count; a loop of constant entry 0, which is 0, around one instruction; loop ends. -/
def loopBench : Bench := { instrs := [word (noObjs ++ [(88, 3)])] }
def skipBench : Bench := { instrs := [word (noObjs ++ [(88, 3), (86, 1)]), ctrlWord 8 0, ctrlWord 4 0], consts := [0] }
def loopEndBench (iter : Nat) : Bench :=
  { ctrlBench 4 0 with run := { RunSt.fresh with loops := [{ start := 5, trip := 3, iter := iter }] } }
theorem test_loop_begin : (ran loopBench (.loopBegin 0)).loops = [{ start := 1, trip := 10, iter := 0 }] := by
  decide +kernel
theorem test_loop_begin_zero : (ran skipBench (.loopBegin 0)).pos = 3 := by decide +kernel
theorem test_loop_end_again : let r := ran (loopEndBench 1) (.loopEnd 0)
    r.pos = 5 ∧ r.loops = [{ start := 5, trip := 3, iter := 2 }] := by decide +kernel
theorem test_loop_end_last : let r := ran (loopEndBench 2) (.loopEnd 0)
    r.pos = 1 ∧ r.loops = [] := by decide +kernel

/-- Decision point 0: input semaphore 2, buckets 4 and 9, region starts 5 and 6; its decision word is `w`. -/
def decideBench (w : Nat) : Bench :=
  { ctrlBench 5 0 with
    decisions := leBytes 32 (word [(232, 2), (227, 2), (176, 1)]) ++ padTo (words 4 [4, 9]) 64 ++ padTo (words 4 [5, 6]) 16,
    job := { job0 with decisions := [(0, w)] },
    objs := [(2, { val := .sem 1, bank := 0, off := 0, len := 0, peer := 0 })] }
/-- A word at a bucket's value is in that bucket; one above it is in the next. -/
theorem test_decide : (ran (decideBench 4) (.decide 0)).pos = 5 ∧ (ran (decideBench 5) (.decide 0)).pos = 6 := by
  decide +kernel
theorem test_decide_range : statuses (after (.decide 0) (decideBench 10).state) = [(stDecisionRange, u32max)] := by
  decide +kernel

theorem witness_ctrl : ∀ e ∈ [(0, ctrlBench 0 0), (8, ctrlBench 8 0), (7, ctrlBench 7 4)],
    Ready e.2.on 0 e.2.ctx (byWord (ctrl e.1)) .none := by
  intro e he
  simp only [List.mem_cons, List.not_mem_nil, or_false] at he
  rcases he with rfl | rfl | rfl <;> exact Bench.ready _ _ _ (by decide +kernel) (by unfold byWord ctrl; decide +kernel)
theorem witness_step_begin : beginBench.Meets (ctrl 1) (fun _ => .none) always :=
  Bench.meets _ _ _ _ (by decide +kernel) (by unfold ctrl; decide +kernel) trivial
/-- The first of a group to pass, and one that is behind an open generation. -/
def behindBench : Bench :=
  { stepEndBench with
    job := { job0 with openGens := [{ step := 1, seq := 7, crc := 0, flags := 0, overflow := 0, invalid := 0, tensors := [], settingId := 0, version := 0 }] },
    chip := fun c => c.updRun (c.beadOf job0 1) fun r => { r with passed := 1 } }
/-- What a Bead counts goes into the generation whose step_end it has still to pass, and not into one it has passed. -/
theorem test_count_share : let c := behindBench.on
    let seen (p : Nat) := ((c.count 0 p 3 0).job? 0).map fun x => (x.overflow, x.openGens.map (·.overflow))
    (seen 0, seen (c.beadOf job0 1)) = (some (3, [3]), some (3, [0])) := by decide +kernel
theorem witness_step_end : stepEndBench.Meets (ctrl 2) (fun _ => .none)
    fun x c => c.unposted x.p = false ∧ c.barrierOn = false ∧ c.behind x.job x.p = 0 :=
  Bench.meets _ _ _ _ (by decide +kernel) (by unfold ctrl; decide +kernel) (by decide +kernel)
theorem witness_step_end_behind : behindBench.Meets (ctrl 2) (fun _ => .none)
    fun x c => c.unposted x.p = false ∧ c.barrierOn = false ∧ c.behind x.job x.p = 1 :=
  Bench.meets _ _ _ _ (by decide +kernel) (by unfold ctrl; decide +kernel) (by decide +kernel)
theorem witness_yield : (ctrlBench 8 0).Meets (ctrl 8) (fun _ => .none) fun x c => c.yieldsMidStep x.job = false :=
  Bench.meets _ _ _ _ (by decide +kernel) (by unfold ctrl; decide +kernel) (by decide +kernel)
theorem witness_yield_saves : Ready yieldBench.on 0 yieldBench.ctx (byWord (ctrl 8)) .none ∧
    (taken yieldBench.on yieldBench.ctx).yieldsMidStep yieldBench.ctx.job = true :=
  ⟨Bench.ready _ _ _ (by decide +kernel) (by unfold byWord ctrl; decide +kernel), by decide +kernel⟩
theorem witness_loop_begin : loopBench.Meets (ctrl 3) (fun _ => .none) fun x _ => loopTrips x ≠ 0 :=
  Bench.meets _ _ _ _ (by decide +kernel) (by unfold ctrl; decide +kernel) (by decide +kernel)
theorem witness_loop_skip : skipBench.Meets (ctrl 3) (fun _ => .none) fun x _ => loopTrips x = 0 ∧
    matchEnd x.cap 0 (streamLen x.cap 0) 0 1 = some 2 :=
  Bench.meets _ _ _ _ (by decide +kernel) (by unfold ctrl; decide +kernel) (by decide +kernel)
theorem witness_loop_end : ∀ n ∈ [1, 2], (loopEndBench n).Meets (ctrl 4) (fun _ => .none)
    fun x c => (c.bead x.p).run.loops = [{ start := 5, trip := 3, iter := n }] := by
  intro n hn
  simp only [List.mem_cons, List.not_mem_nil, or_false] at hn
  rcases hn with rfl | rfl <;>
    exact Bench.meets _ _ _ _ (by decide +kernel) (by unfold ctrl; decide +kernel) (by decide +kernel)
/-- At a bucket's value, one above it, and above every bucket. -/
theorem witness_decide : ∀ w ∈ [4, 5, 10], (decideBench w).Meets (ctrl 5) (fun _ => .none) fun x c =>
    (decisionPoint x.cap x.v (ctrlOperand x.i)).2 = ([4, 9], [5, 6]) ∧
      dpInputSem (decisionPoint x.cap x.v (ctrlOperand x.i)).1 ≠ noObj ∧
      c.available x.p (dpInputSem (decisionPoint x.cap x.v (ctrlOperand x.i)).1) = true ∧
      x.job.decisions.get 0 (ctrlOperand x.i) = w := by
  intro w hw
  simp only [List.mem_cons, List.not_mem_nil, or_false] at hw
  rcases hw with rfl | rfl | rfl <;>
    exact Bench.meets _ _ _ _ (by decide +kernel) (by unfold ctrl; decide +kernel) (by decide +kernel)

/-! ## Barriers (R369) -/

theorem test_barrier : let c := (after (.barrier 0) (ctrlBench 7 4).state).chip
    (c.bead 0).run.barrier = some 4 ∧ (c.job? 0).map (·.barriers) = some [(4, [0])] := by decide +kernel
/-- Every Bead of the group has come to barrier 4, Bead 0 waits there. -/
def metBench : Bench :=
  { ctrlBench 7 4 with job := { job0 with barriers := [(4, List.range 14)] }, run := { RunSt.fresh with barrier := some 4 } }
theorem test_barrier_release : let c := (after (.barrierRelease 0 4) metBench.state).chip
    (c.bead 0).run.barrier = none ∧ (c.bead 0).run.pos = 1 ∧ (c.job? 0).map (·.barriers) = some [] := by decide +kernel
theorem witness_barrier_release : (4 : Nat) < 1024 ∧ metBench.on.job? 0 = some metBench.job ∧ metBench.job.phase = .bound ∧
    ∀ g, g < metBench.job.beads → g ∈ metBench.job.barriers.get [] 4 :=
  ⟨by decide, rfl, rfl, by decide +kernel⟩

/-! ## SYNC (Table 11.2) -/

def syncWord (op object count : Nat) : Nat := word (noObjs ++ [(124, 4), (92, op), (80, 0xFFF), (70, object), (54, count)])
def obj (v : SyncVal) : SyncObj := { val := v, bank := 1, off := 0, len := 64, peer := 0 }
def syncBench (op count : Nat) (v : SyncVal) : Bench := { instrs := [syncWord op 2 count], objs := [(2, obj v)] }
def objAfter (b : Bench) (i : Instr) : Option SyncVal := (after i b.state).chip.objVal? 0 2

theorem test_sync_post : objAfter (syncBench 0 3 (.sem 5)) (.syncPost 0) = some (.sem 8) := by decide +kernel
/-- A sum above 65,535 raises SEM_OVERFLOW and leaves the count. -/
theorem test_sync_post_overflow : let s := after (.syncPost 0) (syncBench 0 1 (.sem 65535)).state
    s.chip.objVal? 0 2 = some (.sem 65535) ∧ statuses s = [(stSemOverflow, u32max)] := by decide +kernel
theorem test_sync_fill : objAfter (syncBench 1 0 (.slot .empty false)) (.syncFill 0) = some (.slot .full false) := by
  decide +kernel
theorem test_sync_drain : objAfter (syncBench 2 0 (.slot .full false)) (.syncDrain 0) = some (.slot .empty false) := by
  decide +kernel
theorem test_sync_drain_empty : statuses (after (.syncDrain 0) (syncBench 2 0 (.slot .empty false)).state) =
    [(stSlotState, u32max)] := by decide +kernel
theorem test_sync_open : objAfter (syncBench 3 0 (.window false)) (.syncOpen 0) = some (.window true) := by decide +kernel
theorem test_sync_close : objAfter (syncBench 4 0 (.window true)) (.syncClose 0) = some (.window false) := by decide +kernel

/-- A sum of one word from each of two indices in Facet 0, its descriptor at constant entry 1; the Bead's word is 5. -/
def contributeBench (contribs : List Contrib) : Bench :=
  { instrs := [word (noObjs ++ [(124, 4), (92, 5), (38, 1), (25, 2), (5, 1)])],
    consts := 0 :: halves (word [(252, 1), (212, 2), (200, 1), (190, 0x3FF), (180, 0x3FF)]),
    locket := [(lockKey 0 3 128, words 4 [5])], chip := fun c => { c with contribs := contribs } }
def contribOf (idx : Nat) (w : Word) : Contrib := { job := 0, step := none, entry := 1, idx := idx, words := [w] }
theorem test_sync_contribute : (after (.syncContribute 0) (contributeBench []).state).chip.contribs = [contribOf 1 5] := by
  decide +kernel
/-- The first contribution waits for the second; the second publishes 5 + 7 at the area's start. -/
theorem test_contribution_arrival : let s := after (.contributionArrival 0 0) (contributeBench [contribOf 1 5, contribOf 0 7]).state
    s.chip.scratch.readLE (rdKey job0 0 0) 4 = 0 ∧
      (after (.contributionArrival 0 0) s).chip.scratch.readLE (rdKey job0 0 0) 4 = 12 := by decide +kernel
/-- A second contribution of an index raises REDUCE_DUPLICATE. -/
theorem test_contribution_twice : let s := after (.contributionArrival 0 0) (contributeBench [contribOf 1 5, contribOf 1 7]).state
    statuses (after (.contributionArrival 0 0) s) = [(stReduceDuplicate, u32max)] := by decide +kernel

theorem witness_sync_post : ∃ q o v, (syncBench 0 3 (.sem 65532)).Meets (sync 0) (fun _ => .none) fun x c =>
    q = (if syTarget x.i = 0xFFF then x.p else c.beadOf x.job (syTarget x.i)) ∧
      c.obj? q (syObject x.i) = some o ∧ o.val = .sem v ∧ v + syCount x.i ≤ 65535 :=
  ⟨0, obj (.sem 65532), 65532,
    Bench.meets _ _ _ _ (by decide +kernel) (by unfold sync; decide +kernel) (by decide +kernel)⟩
theorem witness_sync_fill : ∃ o, (syncBench 1 0 (.slot .empty false)).Meets (sync 1) (fun _ => .none) fun x c =>
    c.obj? x.p (syObject x.i) = some o ∧ o.val = .slot .empty false :=
  ⟨obj (.slot .empty false), Bench.meets _ _ _ _ (by decide +kernel) (by unfold sync; decide +kernel) (by decide +kernel)⟩
theorem witness_sync_drain : ∃ o f, (syncBench 2 0 (.slot .full true)).Meets (sync 2) (fun _ => .none) fun x c =>
    c.obj? x.p (syObject x.i) = some o ∧ o.val = .slot .full f :=
  ⟨obj (.slot .full true), true,
    Bench.meets _ _ _ _ (by decide +kernel) (by unfold sync; decide +kernel) (by decide +kernel)⟩
theorem witness_sync_open : ∃ o, (syncBench 3 0 (.window false)).Meets (sync 3) (fun _ => .none)
    fun x c => c.obj? x.p (syObject x.i) = some o :=
  ⟨obj (.window false), Bench.meets _ _ _ _ (by decide +kernel) (by unfold sync; decide +kernel) (by decide +kernel)⟩
theorem witness_sync_close : ∃ o, (syncBench 4 0 (.window true)).Meets (sync 4) (fun _ => .none) fun x c =>
    c.obj? x.p (syObject x.i) = some o ∧
      (∀ t ∈ c.transfers, t.window ≠ some (x.p, syObject x.i) ∧
        ∀ e ∈ t.dests, e.p = x.p → e.obj = syObject x.i → e.st ≠ .filling) :=
  ⟨obj (.window true), Bench.meets _ _ _ _ (by decide +kernel) (by unfold sync; decide +kernel)
    ⟨by decide +kernel, by intro t ht; exact absurd ht (by simp [show (taken (syncBench 4 0 (.window true)).on
      (syncBench 4 0 (.window true)).ctx).transfers = [] by decide +kernel])⟩⟩
theorem witness_sync_contribute : (contributeBench []).Meets (sync 5)
    (fun x => { reads := [⟨3, 64 * sySrc x.i, 4 * rdWords (x.consts (syRed x.i) 2)⟩], writes := [] }) always :=
  Bench.meets _ _ _ _ (by decide +kernel) (by unfold sync; decide +kernel) trivial

/-- The first of two contributions, the last of two, and a repeated one. -/
def contribState (done : List Contrib) (k : Contrib) : State :=
  done.foldl (fun s _ => after (.contributionArrival 0 0) s) (contributeBench (done ++ [k])).state
theorem witness_contribution : ∀ e ∈ [([], contribOf 1 5), ([contribOf 1 5], contribOf 0 7), ([contribOf 1 5], contribOf 1 7)],
    takeNth (fun k : Contrib => k.job = 0) 0 (contribState e.1 e.2).chip.contribs = some (e.2, []) ∧
      ((contribState e.1 e.2).chip.job? 0).isSome = true := by decide +kernel
theorem witness_contribution_cases :
    let d := constWords (contributeBench []).toKit.capsule 0 1 2
    let c := (contribState [contribOf 1 5] (contribOf 0 7)).chip
    c.arrived job0 d 0 = false ∧ c.arrived job0 d 1 = true ∧
      ((contribLeft c []).storeContrib job0 d (contribOf 0 7)).arrived job0 d 0 = true ∧
      ((contribLeft c []).storeContrib job0 d (contribOf 0 7)).arrived job0 d 1 = true ∧
      ((contribLeft (contributeBench []).on []).storeContrib job0 d (contribOf 1 5)).arrived job0 d 0 = false := by
  decide +kernel

end Sys2Proof.Tests
end

