-- ==== Sys2Proof/Tests/Choose.lean ====
section
/-! SUPPORT. Tests of conditional computation and collectives, and states that meet the hypotheses of RoundsComplete and
CollectivesComplete. -/
namespace Sys2Proof.Tests

open Sys2Proof Sys2Proof.Machine Sys2Proof.Claims
set_option Elab.async false

/-! ## Tensors in stacked memory -/

/-- A mirrored allocation of one q-row for each tensor (identifier, bytes), numbered as the tensor. -/
def allocsOf (ts : List (Nat × Nat)) : List Alloc :=
  ts.zipIdx.map fun e => { id := e.1.1, q0 := 210000 + e.2, rows := 1, mirrored := true, bytes := e.1.2, tag := none }
def withTensors (ts : List (Nat × Nat)) (j : Job) : Job := { j with tensors := ts.map fun t => (t.1, t.1) }
/-- The tensors placed, with the bytes that some of them hold. -/
def placeTensors (ts : List (Nat × Nat)) (hold : List (Nat × List Byte)) (c : Chip) : Chip :=
  hold.foldl (fun c e => match c.alloc? e.1 with
    | some a => c.storeAt (c.allocPlace a 0) 0 e.2
    | none => c) { c with mem := { c.mem with allocs := allocsOf ts } }
/-- Bytes of a tensor. -/
def tensorBytesOf (c : Chip) (tid n : Nat) : List Byte := match c.alloc? tid with
  | some a => c.allocBytes a 0 n
  | none => []

/-! ## The Loupe and routes (Tables 8.2, 8.3, 8.5) -/

/-- A decision point with input semaphore `sem` and one bucket `b`. -/
def decisionOf (sem b : Nat) : List Byte :=
  leBytes 32 (word [(232, sem), (227, 1), (176, 1)]) ++ padTo (words 4 [b]) 64 ++ padTo (words 4 [0]) 16

/-- An FP32 activation of `n` rows of one column (Table 2.5). -/
def tensorOf (tid n : Nat) : Nat := word [(240, tid), (236, 3), (229, 2), (192, n), (160, 1), (128, 1), (96, 1)]

/-- Block 0: tensor 1 of three FP32 tokens of one column, reference 2, state 3, list 4, decision point 0 with semaphore 2,
threshold 1. The tokens are 1, 5 and 1/2 away from their references. -/
def loupeBench (w : Nat) : Bench :=
  { instrs := [laneWord 0x60 1 0 0], consts := [word [(118, 0), (102, 0), (86, 0), (70, 1)]],
    tensors := [tensorOf 1 3, tensorOf 2 3, tensorOf 3 3, tensorOf 4 3],
    loupes := [word [(246, 0), (236, w), (220, 1), (204, 2), (188, 3), (156, 4), (64, 3), (32, 0x3F800000)]],
    decisions := decisionOf 2 3, objs := [(2, { val := .sem 0, bank := 0, off := 0, len := 0, peer := 0 })],
    job := withTensors [(1, 12), (2, 12), (3, 6), (4, 12)] job0,
    chip := placeTensors [(1, 12), (2, 12), (3, 6), (4, 12)] [(1, words 4 [0x3F800000, 0x40A00000, 0x3F000000])] }

def compared : State := after (.loupeCompare 0) (loupeBench 0).state
/-- Tokens 0 and 1 are active, token 2 ages; the report is under way. -/
theorem test_loupe_compare : tensorBytesOf compared.chip 3 6 = [3, 0, 3, 0, 1, 1] ∧
    compared.chip.reports.map (fun r => (r.tile, r.choices.map (·.row))) = [(0, [0, 1])] := by decide +kernel
/-- The one tile completes the round: two active tokens, their list, the semaphore. -/
theorem test_tile_report : let c := (after (.tileReport 0 0) compared).chip
    (c.job? 0).map (·.decisions) = some [(0, 2)] ∧ tensorBytesOf c 4 12 = words 4 [0, 1, u32max] ∧
      c.objVal? 0 2 = some (.sem 1) := by decide +kernel

/-- Two experts, top 1, capacity 1, two rows present, lists in tensor 1; logits 1, 2 and 3, NaN at bank 1 row 6. -/
def routeBench : Bench :=
  { instrs := [laneWord 0x61 1 0 0],
    consts := halves (word [(248, 1), (244, 1), (234, 0), (218, 1), (208, 0x3FF), (192, 0), (160, 1), (128, 1), (64, 2)]),
    decisions := decisionOf 0x3FF 1 ++ decisionOf 0x3FF 1,
    locket := [(lockKey 0 1 384, words 4 [0x3F800000, 0x40000000, 0x40400000, 0x7FC00000])],
    job := withTensors [(1, 16)] job0, chip := placeTensors [(1, 16)] [] }
def routed : State := after (.route 0) routeBench.state
theorem test_route : routed.chip.reports.map (·.choices) = [[{ row := 0, experts := [1] }, { row := 1, experts := [0] }]] ∧
    routed.chip.lockRead 0 0 320 8 = words 4 [0x40000000, 0x40400000] := by decide +kernel
/-- Expert 0 has row 1 and expert 1 row 0; each row's choice stands in slot 0 of its expert. -/
theorem test_route_round : let c := (after (.tileReport 0 0) routed).chip
    tensorBytesOf c 1 16 = words 4 [1, 0, 1, 0] ∧ (c.job? 0).map (·.decisions) = some [(0, 1), (1, 1)] := by decide +kernel

def Except.good? : Except ε α → Option α
  | .ok a => some a
  | .error _ => none
theorem Except.good (a : Except ε α) (h : (Except.good? a).isSome = true) : ∃ d, a = .ok d := by
  cases a <;> simp [Except.good?] at h ⊢
theorem Except.is (a : Except ε α) (d : α) (h : Except.good? a = some d) : a = .ok d := by
  cases a <;> simp_all [Except.good?]

theorem witness_loupe_compare : ∃ d, (loupeBench 0).Meets (lane 0x60) (fun _ => .none) fun x c =>
    c.loupeReady x (compareBlock x) (loupeShape x (compareBlock x)) (compareTiles x) = true ∧
      c.compareTiles x (compareBlock x) x.stepIndex (loupeShape x (compareBlock x)) (compareTiles x) = .ok d := by
  let x := (loupeBench 0).ctx
  obtain ⟨d, h⟩ := Except.good ((taken (loupeBench 0).on x).compareTiles x (compareBlock x)
    x.stepIndex (loupeShape x (compareBlock x)) (compareTiles x)) (by decide +kernel)
  exact ⟨d, Bench.meets _ _ _ _ (by decide +kernel) (by unfold lane; decide +kernel) ⟨by decide +kernel, h⟩⟩
theorem witness_route : ∃ d, routeBench.Meets (lane 0x61)
    (fun x => { reads := [⟨laneBank0 x.i, 64 * laneAddr0 x.i, 512 * rtExperts (routeWord x) * rtCount (routeWord x)⟩],
                writes := [⟨laneBankD x.i, 64 * laneAddrD x.i, 512 * rtTopK (routeWord x) * rtCount (routeWord x)⟩] })
    fun x c => (rtBlock (routeWord x) = noObj ∨ ∀ t ∈ routeTiles x,
        c.tensorReady x (lbList (loupeBlock x.cap (rtBlock (routeWord x)))) (512 * t) 512 = true) ∧
      c.routeTiles x (routeWord x) x.stepIndex (routeTiles x).zipIdx = .ok d := by
  let x := routeBench.ctx
  obtain ⟨d, h⟩ := Except.good ((taken routeBench.on x).routeTiles x (routeWord x)
    x.stepIndex (routeTiles x).zipIdx) (by decide +kernel)
  exact ⟨d, Bench.meets _ _ _ _ (by decide +kernel) (by unfold lane; decide +kernel) ⟨.inl (by decide +kernel), h⟩⟩

/-- A report of a new round whose one tile it is; the round's tensor answers. -/
theorem witness_tile_report_last :
    let c := compared.chip
    (takeNth (fun k : Report => k.job = 0) 0 c.reports).isSome = true ∧ (c.job? 0).isSome = true ∧
      ∀ k ∈ c.reports, ∀ y ∈ c.job? 0, k.tile ∉ (roundOf y.rounds k).tiles ∧ (roundOf y.rounds k).step = k.step ∧
        (∀ t, t < roundTiles (c.jobCtx 0 y) k.obj → t ∈ (roundWith y k).tiles) ∧
        c.tensorReady (c.jobCtx 0 y) (roundTensor (c.jobCtx 0 y) k.obj) 0
          ((c.tensorAlloc? y (roundTensor (c.jobCtx 0 y) k.obj)).elim 0 (·.bytes)) = true := by decide +kernel
/-- The same report when its tile has been counted already, and when another tile of a larger round is missing. -/
def reportOf (tile step : Nat) : Report := { job := 0, obj := .loupe 0, step := step, tile := tile, choices := [] }
theorem witness_tile_report_twice :
    let r : Round := { obj := .loupe 0, step := 4, tiles := [0], choices := [] }
    (reportOf 0 4).tile ∈ (roundOf [r] (reportOf 0 4)).tiles ∧ (roundOf [r] (reportOf 1 5)).step ≠ (reportOf 1 5).step ∧
      (reportOf 0 4).tile ∉ (roundOf [] (reportOf 0 4)).tiles := by decide +kernel
theorem witness_tile_report_waits :
    let b : Bench := { loupeBench 0 with tensors := [tensorOf 1 129] }
    let c := { b.on with reports := [reportOf 0 u32max] }
    ∀ y ∈ c.job? 0, 1 < roundTiles (c.jobCtx 0 y) (.loupe 0) ∧ 1 ∉ (roundWith y (reportOf 0 u32max)).tiles := by
  decide +kernel

/-! ## Collectives (Tables 16.12, 16.13) -/

/-- The part is rank 0; its next part, 1, lies behind port 0. -/
def ring3 : RingEntry := { RingEntry.fresh with enable := 1, size := 2, nextPorts := 1, nextPart := 1 }

/-- Rank 0 of a ring of two parts; the own input 1, 2 at bank 1 byte 384, the output to bank 0 byte 320. -/
def collectiveBench (op : Nat) : Bench :=
  { laneBench op (halves (word [(244, 3), (236, 1), (232, 1), (160, 2 ^ 19 + 384), (120, 320), (88, 2), (78, 0x3FF)])) with
    chip := fun c => (c.setRing 3 ring3).setPort 0 { PortSt.fresh with st := 2, peer := 1 } }
/-- What has come of rank 1 for the first collective of the ring, of code `op` and `n` elements. -/
def ins (op n : Nat) (bs : List Byte) : List RankInput := [⟨0, 0, 0, []⟩, ⟨0, op, n, bs⟩]
def theirs : List Byte := words 4 [0x3F000000, 0x40800000]
def ours : List Byte := words 4 [0x3F800000, 0x40000000]
theorem test_all_reduce_sum : collectiveOut 0x80 2 2 0 [ours, theirs] = words 4 [0x3FC00000, 0x40C00000] := by decide +kernel
theorem test_reduce_scatter_sum : collectiveOut 0x81 2 2 0 [ours, theirs] = words 4 [0x3FC00000] := by decide +kernel
/-- Two bytes of each rank. -/
theorem test_all_gather : collectiveOut 0x82 2 2 0 [[5, 6], [7, 8]] = [5, 6, 7, 8] := by decide +kernel
theorem test_all_reduce_minimum : collectiveOut 0x83 2 2 0 [ours, theirs] = words 4 [0x3F000000, 0x40000000] := by decide +kernel
/-- On a ring of one part the input is copied, and nothing is sent. -/
def aloneBench : Bench :=
  { collectiveBench 0x80 with chip := fun c => c.setRing 3 { RingEntry.fresh with enable := 1, size := 1 } }
theorem test_collective_alone : got aloneBench (.allReduceSum 0 [⟨0, 0, 0, []⟩]) 8 = ours ∧
    (after (.allReduceSum 0 [⟨0, 0, 0, []⟩]) aloneBench.state).chip.sent = [] := by decide +kernel
/-- Without the other input, or with one of another code, the collective waits, with its output unwritten; its Bead goes on. -/
theorem test_collective_waits : let b := collectiveBench 0x80
    ∀ i ∈ [[], ins 0x83 2 theirs], (ran b (.allReduceSum 0 i)).parked.length = 1 ∧ (ran b (.allReduceSum 0 i)).pos = 1 ∧
      got b (.allReduceSum 0 i) 4 = b.state.chip.lockRead 0 0 320 4 := by decide +kernel

def collectives : List (Nat × List RankInput) :=
  [(0x80, ins 0x80 2 theirs), (0x81, ins 0x81 2 theirs), (0x82, ins 0x82 2 [7, 8]), (0x83, ins 0x83 2 theirs)]
theorem witness_collectives : ∀ e ∈ collectives, ∃ own bs all,
    (collectiveBench e.1).MeetsAt (byWord (lane e.1)) Chip.collectiveFoot
    fun x c =>
    let w := x.consts (laneConst x.i) 2
    let r := coRing w
    let bytes := if e.1 = 0x82 then coCount w else 4 * coCount w
    c.ringUsable r x.job.session = true ∧ e.2.length = max 1 (c.ring r).size ∧
    (∀ k i, e.2[k]? = some i → k ≠ (c.ring r).rank →
      i.index = (c.ringRun r).collectives ∧ i.op = e.1 ∧ i.count = coCount w ∧ i.data.length = bytes) ∧
    c.endReady x (coSrc w) (coSrc w).base bytes = true ∧ c.endRead x (coSrc w) (coSrc w).base bytes = .ok own ∧
    all = (e.2.map (·.data)).set (c.ring r).rank own ∧
    bs = collectiveOut e.1 (coCount w) (max 1 (c.ring r).size) (c.ring r).rank all ∧
    c.endReady x (coDst w) (coDst w).base bs.length = true := by
  intro e he
  have h : collectives.all (fun e =>
      let b := collectiveBench e.1
      let w := b.ctx.consts (laneConst b.ctx.i) 2
      let c := taken b.on b.ctx
      let bytes := if e.1 = 0x82 then coCount w else 4 * coCount w
      let whole := e.2.zipIdx.all fun (i, k) => k == (c.ring (coRing w)).rank ||
        (i.index == (c.ringRun (coRing w)).collectives && i.op == e.1 && i.count == coCount w && i.data.length == bytes)
      b.standsB && b.freeB (b.on.collectiveFoot b.ctx) && c.ringUsable (coRing w) 0 && c.endReady b.ctx (coSrc w) (coSrc w).base bytes
        && whole && (Except.good? (c.endRead b.ctx (coSrc w) (coSrc w).base bytes)).isSome && (coDst w).space != 0
        && e.2.length == max 1 (c.ring (coRing w)).size) = true := by
    decide +kernel
  have h := List.all_eq_true.mp h e he
  simp only [Bool.and_eq_true] at h
  obtain ⟨⟨⟨⟨⟨⟨⟨h1, h2⟩, h3⟩, h4⟩, h5⟩, h6⟩, h7⟩, h8⟩ := h
  obtain ⟨own, ho⟩ := Except.good _ h6
  have k : ∀ e ∈ collectives, lane e.1 (collectiveBench e.1).ctx.i := by unfold lane; decide +kernel
  refine ⟨own, _, _, Bench.meetsAt _ _ _ _ (by rw [h1, h2]; rfl) (k e he)
    ⟨h3, eq_of_beq h8, ?_, h4, ho, rfl, rfl, by unfold Chip.endReady; rw [h7]; rfl⟩⟩
  intro n i hi hn
  have := List.all_eq_true.mp h5 (i, n) (List.mem_zipIdx_iff_getElem?.mpr hi)
  simp only [Bool.or_eq_true, Bool.and_eq_true, beq_iff_eq] at this
  rcases this with h | ⟨⟨⟨h9, h10⟩, h11⟩, h12⟩
  · exact absurd h hn
  · exact ⟨h9, h10, h11, h12⟩

end Sys2Proof.Tests
end

