-- ==== Sys2Proof/Tests/Moves.lean ====
section
/-! SUPPORT. Tests of DMA transfers, and states that meet the hypotheses of TransfersStartAndMove. -/
namespace Sys2Proof.Tests

open Sys2Proof Sys2Proof.Machine Sys2Proof.Claims
set_option Elab.async false

/-! ## DMA (Table 2.14) -/

/-- A DMA instruction of descriptor 0. -/
def dmaWord : Nat := word (noObjs ++ [(124, 3)])

/-- Two rows of four bytes from bank 1 byte 384, eight bytes apart, or from where `fs` says; done in object 5. -/
def dmaFields : List (Nat × Nat) := [(224, 0xFFFF), (208, 0xFFFF), (108, 4), (92, 2), (64, 8), (36, 4), (26, 5)]
def dmaBench (fs : List (Nat × Nat)) (consts : List Nat) (objs : Tbl SyncObj) : Bench :=
  { instrs := [dmaWord], consts := consts, descs := [word (fs ++ dmaFields.filter fun d => !fs.any (·.1 = d.1))], tensors := [tensorOf 1 4, tensorOf 2 4],
    locket := [(lockKey 0 1 384, words 4 [0x11, 0x22, 0x33, 0x44]), (lockKey 0 3 0, words 4 [2, 0xFFFFFFFF])],
    job := withTensors [(1, 16), (2, 16)] job0,
    objs := objs ++ [(5, { val := .sem 0, bank := 0, off := 0, len := 0, peer := 0 })],
    chip := fun c => { placeTensors [(1, 16), (2, 16)] [(1, words 4 [5, 6, 7, 8])] c with
      heads := [{ HeadSt.fresh with link := 2, ide := 1 }, HeadSt.fresh] } }

def copyBench : Bench := dmaBench [(248, 1), (244, 1), (168, 2 ^ 19 + 384), (128, 320)] [] []
/-- From tensor 1 by the list at the start of bank 3. -/
def listReadBench : Bench := dmaBench [(252, 1), (244, 1), (224, 1), (208, 0), (128, 320), (64, 4), (16, 1)]
  [0, word [(124, 1)]] []
/-- To tensor 2 by the same list. -/
def listWriteBench : Bench := dmaBench [(252, 2), (248, 1), (208, 2), (168, 2 ^ 19 + 384), (16, 1), (36, 4)]
  [0, word [(124, 1)]] []
/-- To slot 3 of Bead 0. -/
def multicastBench : Bench := dmaBench [(252, 5), (248, 1), (244, 2), (168, 2 ^ 19 + 384), (16, 1)]
  [0, word [(123, 1), (115, 1), (101, 1), (91, 3)]] [(3, slot .empty 2 1024 64)]
/-- To slot 3, layer 9; its header follows at byte 64. -/
def sendBench : Bench := dmaBench [(248, 1), (244, 2), (168, 2 ^ 19 + 384), (16, 1)]
  [0, word [(112, 9), (90, 3)]] [(3, slot .empty 2 1024 128)]
/-- From session input in tensor 1 to the Locket, and from tensor 1 to the output. -/
def inputBench : Bench := dmaBench [(252, 3), (244, 1), (224, 1), (128, 320), (64, 4)] [] []
def outputBench : Bench := dmaBench [(252, 4), (224, 1), (64, 4)] [] []

/-- The part after the start of the transfer and its completion. -/
def moved (b : Bench) (i : Instr) (mid : List Instr := []) : Chip :=
  ((mid ++ [Instr.transferComplete 0]).foldl (fun s k => after k s) (after i b.state)).chip

theorem test_dma_copy : (moved copyBench (.dmaCopy 0)).lockRead 0 0 320 8 = words 4 [0x11, 0x33] ∧
    (moved copyBench (.dmaCopy 0)).objVal? 0 5 = some (.sem 1) := by decide +kernel
/-- A list entry of all ones reads as zeros. -/
theorem test_gather_by_list : (moved listReadBench (.gatherByList 0)).lockRead 0 0 320 8 = words 4 [7, 0] := by
  decide +kernel
/-- A row whose entry is all ones is not written. -/
theorem test_scatter_by_list : tensorBytesOf (moved listWriteBench (.scatterByList 0)) 2 16 = words 4 [0, 0, 0x11, 0] := by
  decide +kernel
theorem test_session_input : (moved inputBench (.sessionInputDecrypt 0)).lockRead 0 0 320 8 = words 4 [5, 6] := by
  decide +kernel
/-- The chunk covers the eight bytes of the two rows. -/
theorem test_session_output : ((moved outputBench (.sessionOutputEncrypt 0)).job? 0).map (·.outEnd) = some 8 := by
  decide +kernel
def filled : Chip := moved multicastBench (.multicastCopy 0) [.fillAdmit 0 3, .fillLand 0 3]
theorem test_multicast : filled.lockRead 0 2 1024 8 = words 4 [0x11, 0x33] ∧
    filled.objVal? 0 3 = some (.slot .full false) ∧ filled.objVal? 0 5 = some (.sem 1) := by decide +kernel
/-- Until the slot has been filled the transfer does not complete. -/
theorem test_multicast_waits : (moved multicastBench (.multicastCopy 0)).transfers.map (·.id) = [0] ∧
    (moved multicastBench (.multicastCopy 0) [.fillAdmit 0 3]).objVal? 0 3 = some (.slot .filling false) := by
  decide +kernel
/-- The data, then the header: no step yet, layer 9, Bead 0. -/
theorem test_halo_send :
    (moved sendBench (.haloSend 0) [.fillAdmit 0 3, .fillLand 0 3]).lockRead 0 2 1024 128 =
      padTo (words 4 [0x11, 0x33]) 64 ++ leBytes 64 (word [(480, 0xFFFFFFFF), (464, 9)]) := by decide +kernel

/-- A read of the own window 4, which opens after the start. -/
def windowBench (opened : Bool) : Bench :=
  dmaBench [(248, 2), (244, 1), (168, 4 <<< 20), (128, 320)] []
    [(4, { val := .window opened, bank := 1, off := 384, len := 64, peer := 0 })]
def opening (s : State) : State := state (s.chip.setVal 0 4 (.window true))
def waitingRead : State := opening (after (.dmaCopy 0) (windowBench false).state)
theorem test_remote_access_admit : (after (.remoteAccessAdmit 0) waitingRead).chip.transfers.map (·.rows) =
    [[(320, words 4 [0x11]), (324, words 4 [0x33])]] := by decide +kernel

def Plan.good? : Plan → Option (List DmaRow)
  | .rows rs none => some rs
  | _ => none
theorem Plan.is (p : Plan) (rs : List DmaRow) (h : Plan.good? p = some rs) : p = .rows rs none := by
  cases p with
  | rows a b => cases b <;> simp_all [Plan.good?]
  | _ => simp [Plan.good?] at h

/-- A bench stands at a transfer that starts. -/
def startsB (b : Bench) (kind : Ctx → Nat → Bool) : Bool :=
  let x := b.ctx
  let c := taken b.on x
  b.standsB && b.freeB (dmaFoot b.on x) && iClass x.i = 3 && kind x (descOf x) && (c.closedSource x (descOf x)).isNone
    && match Plan.good? (c.dmaPlan x (descOf x) x.iteration) with
      | some rs => c.rowsReady x (descOf x) rs && (Except.good? (c.readRows x (descOf x) rs)).isSome
      | none => false
theorem startsB_meets (b : Bench) (kind : Ctx → Nat → Bool) (h : startsB b kind = true)
    (h2 : b.on.job? 0 = some b.job := by rfl) (h3 : b.on.capsule b.job.setting = b.toKit.capsule := by rfl) :
    let x := b.ctx
    let c := taken b.on x
    Ready b.on 0 x (fun y => iClass y.i = 3 ∧ kind y (descOf y) = true) (dmaFoot b.on x) ∧
      c.closedSource x (descOf x) = none ∧
      ∃ rs rows, c.dmaPlan x (descOf x) x.iteration = .rows rs none ∧ c.rowsReady x (descOf x) rs = true ∧
        c.readRows x (descOf x) rs = .ok rows := by
  simp only [startsB, Bool.and_eq_true, Option.isNone_iff_eq_none, decide_eq_true_eq] at h
  obtain ⟨⟨⟨⟨⟨h1, h4⟩, h5⟩, h6⟩, h8⟩, h9⟩ := h
  split at h9
  · rename_i rs hr
    simp only [Bool.and_eq_true] at h9
    obtain ⟨rows, ho⟩ := Except.good _ h9.2
    exact ⟨b.ready _ _ (by rw [h1, h4]; rfl) ⟨h5, h6⟩ h2 h3, h8, rs, rows, Plan.is _ _ hr, h9.1, ho⟩
  · cases h9

theorem witness_dma_copy : startsB copyBench (fun _ d => ddKind d = 0 && !isHalo d) = true := by decide +kernel
theorem witness_dma_copy_remote : startsB (windowBench true) (fun _ d => ddKind d = 0 && !isHalo d) = true := by decide +kernel
theorem witness_halo_send : startsB sendBench (fun _ d => isHalo d) = true := by decide +kernel
theorem witness_gather : startsB listReadBench (fun x d => ddKind d = 1 && !isPool x.cap x.v (ddSrcTensor d)) = true := by
  decide +kernel
theorem witness_scatter : startsB listWriteBench (fun x d => ddKind d = 2 && !isPool x.cap x.v (ddDstTensor d)) = true := by
  decide +kernel
theorem witness_session_input : startsB inputBench (fun _ d => ddKind d = 3) = true := by decide +kernel
theorem witness_session_output : startsB outputBench (fun _ d => ddKind d = 4) = true := by decide +kernel
theorem witness_multicast : startsB multicastBench (fun _ d => ddKind d = 5) = true := by decide +kernel

def offered : Chip := (after (.multicastCopy 0) multicastBench.state).chip
theorem witness_fill_admit : offered.objVal? 0 3 = some (.slot .empty false) ∧
    ∃ t ∈ offered.firstFill 0 3, ∀ n ∈ offered.arrivals 0 3, t.arrival 0 3 ≤ n := by decide +kernel
theorem witness_fill_land : let c := (after (.fillAdmit 0 3) (state offered)).chip
    c.objVal? 0 3 = some (.slot .filling false) ∧
      ∃ t ∈ c.transfers.find? (·.at_ 0 3 .filling), (c.xferCtx t).isSome = true := by decide +kernel
theorem witness_remote_access_admit : let c := waitingRead.chip
    ∃ t ∈ c.transfer? 0, ∃ x ∈ c.xferCtx t, t.remoteWait = some (0, 4) ∧ c.objVal? 0 4 = some (.window true) ∧
      ∃ rs ∈ Plan.good? (c.dmaPlan x (dmaDesc x.cap x.v t.desc) t.iter),
        (Except.good? (c.readRows x (dmaDesc x.cap x.v t.desc) rs)).isSome = true := by decide +kernel
/-- A write to the own window 4, open at the start or only later. -/
def windowWriteBench (opened : Bool) : Bench :=
  dmaBench [(248, 1), (244, 2), (168, 2 ^ 19 + 384), (128, 4 <<< 20)] []
    [(4, { val := .window opened, bank := 2, off := 1024, len := 64, peer := 0 })]
def writingWindow : State := opening (after (.dmaCopy 0) (windowWriteBench false).state)
theorem test_window_write : (after (.remoteAccessAdmit 0) writingWindow).chip.lockRead 0 2 1024 8 =
    words 4 [0x11, 0x33] := by decide +kernel
theorem witness_window_write : let c := writingWindow.chip
    ∃ y ∈ c.transfer? 0, (c.xferCtx y).isSome = true ∧ y.remoteWait = none ∧ y.dests.length = 1 ∧
      ∀ e ∈ y.dests, e.st = .waiting ∧ c.objVal? e.p e.obj = some (.window true) := by decide +kernel
/-- Admitted while open, the write is made though the window has closed since. -/
theorem witness_window_write_admitted :
    let c := (after (.dmaCopy 0) (windowWriteBench true).state).chip.setVal 0 4 (.window false)
    ∃ y ∈ c.transfer? 0, (c.xferCtx y).isSome = true ∧ y.remoteWait = none ∧ y.dests.length = 1 ∧
      ∀ e ∈ y.dests, e.st = .filling ∧ c.objVal? e.p e.obj = some (.window false) := by decide +kernel
theorem witness_transfer_complete : let c := (after (.dmaCopy 0) copyBench.state).chip
    ∃ t ∈ c.transfer? 0, ∃ x ∈ c.xferCtx t, c.transferDue x t = true := by decide +kernel

end Sys2Proof.Tests
end

