-- ==== Sys2Proof/Tests/Cache.lean ====
section
/-! SUPPORT. Tests of walks, edits, frames and swaps, and states that meet the hypotheses of WalksAndEditsRun and
FramesAndSwapsMove. -/
namespace Sys2Proof.Tests

open Sys2Proof Sys2Proof.Machine Sys2Proof.Claims
set_option Elab.async false

/-! ## A small pool (Tables 7.2 to 7.12) -/

/-- Constant entries 0 to 2 and the tensors: pool 0 of two frames of 16,384 bytes in tensor 1; sequence 5 of one head of 64
elements and a budget of two records, its state in tensor 2, decay 1. -/
def kvConsts : List Nat :=
  [word [(112, 1), (107, 1), (91, 2), (80, 1)], word [(112, 1), (108, 0)],
   word [(118, 5), (102, 2), (98, 0), (88, 1), (86, 0), (74, 2), (52, 1)]]
def kvTensors : List Nat :=
  [word [(240, 1), (236, 4), (232, fmtINT8), (229, 2), (192, 2), (160, 16384), (128, 1), (96, 1)], tensorOf 2 48]

/-- A page of four-bit elements: its entry with `fill` tokens in a frame, and its record at a base. -/
def page (fill frame : Nat) : Nat := word [(63, 1), (59, 7), (49, fill), (0, frame)]
def rec_ (pte base score : Nat) : List Byte := leBytes 32 (word [(192, pte), (160, base), (64, score)])
/-- The state tensor's bytes: header and its array 0. -/
def seqBytes (next valid tail : Nat) (recs : List (List Byte)) : List Byte :=
  leBytes 64 (word [(448, next), (436, valid), (424, tail)]) ++ recs.flatten

/-- The pool with the given free frames, the sequence's bytes and a token's bytes in frame 0; constant entries 3 and 4 hold
`w`, which the descriptor names. (The pool's allocation is listed with its first bytes only.) -/
def kvBench (d : List (Nat × Nat)) (w : Nat) (free : List Nat) (seq : List Byte) (objs : Tbl SyncObj) : Bench :=
  { features := 2 ^ 6, instrs := [dmaWord], consts := kvConsts ++ halves w, tensors := kvTensors,
    descs := [word (d ++ [(26, 5), (16, 3)])],
    job := withTensors [(1, 64), (2, 192)] { job0 with pools := [{ pool := 0, free := free, held := [] }] },
    locket := [(lockKey 0 1 384, [0x21, 0x43]), (lockKey 0 2 448, [0x65, 0x07])],
    objs := objs ++ [(5, { val := .sem 0, bank := 0, off := 0, len := 0, peer := 0 })],
    chip := placeTensors [(1, 64), (2, 192)] [(1, [0x21]), (2, seq)] }

/-- An edit of sequence 5: appending one token, its keys at bank 1 byte 384 and its values at bank 2 byte 448. -/
def editBench (op pos : Nat) (free : List Nat) (seq : List Byte) : Bench :=
  kvBench ([(252, 2), (248, 1), (224, 0xFFFF), (208, 1)] ++
      match op with
      | 0 => [(168, 2 ^ 19 + 384), (108, 32), (92, 1), (64, 32)]
      | 2 => [(168, 3 <<< 19), (92, 1)]
      | _ => [])
    (word ([(252, op), (242, 5)] ++ if op = 0 then [(238, 7), (217, 2 ^ 20 + 448)] else [(185, pos)])) free seq []

/-- What the sequence holds. -/
def seqNow (b : Bench) (c : Chip) : Option SeqSt := Except.good? (c.readSeq b.ctx (seqDecl b.ctx.cap 0 5))
def edited (b : Bench) (i : Instr) : Chip := (after (.editCommit 0) (after i b.state)).chip

def appendBench (free : List Nat) : Bench := editBench 0 0 free (seqBytes 0 0 0xFFF [])
def oneRec : List Byte := seqBytes 10 1 0 [rec_ (page 10 0) 0 4]
def twoRecs : List Byte := seqBytes 10 2 1 [rec_ (page 4 0) 0 4, rec_ (page 6 1) 4 4]
def dropBench : Bench := editBench 1 4 [] twoRecs
def truncateBench : Bench := editBench 3 7 [] twoRecs
/-- The entry list of one entry at the start of bank 3: record 0, amount 9. -/
def scoreAddBench : Bench :=
  { editBench 2 0 [1] oneRec with locket := [(lockKey 0 3 0, leBytes 16 (word [(116, 0), (0, 9)]))] }

/-- The page takes the lowest free frame; its first key bytes and its token 0. -/
theorem test_append : let c := edited (appendBench [0, 1]) (.append 0)
    seqNow (appendBench [0, 1]) c = some { gen := 1, nextPos := 1, tail := 0, recs := [⟨page 1 0, 0, 0⟩, .empty] } := by
  decide +kernel
theorem test_drop_below : (seqNow dropBench (edited dropBench (.dropBelow 0))).map (fun q => (q.nextPos, q.recs)) =
    some (10, [.empty, ⟨page 6 1, 4, 4⟩]) := by decide +kernel
theorem test_truncate_from : (seqNow truncateBench (edited truncateBench (.truncateFrom 0))).map
    (fun q => (q.nextPos, q.recs)) = some (7, [⟨page 4 0, 0, 4⟩, ⟨page 3 1, 4, 4⟩]) := by decide +kernel
theorem test_score_add : (seqNow scoreAddBench (edited scoreAddBench (.scoreAdd 0))).map (fun q => q.recs.map (·.score)) =
    some [13, 0] := by decide +kernel
/-- A walk of sequence 5's record 0 in the page's own format: keys to slots 8 and 9, no values; start_post object 5. -/
def walkBench : Bench :=
  kvBench [(252, 1), (244, 1), (224, 1), (208, 0xFFFF)]
    (word [(246, 5), (239, 1), (235, 7), (211, 1), (201, 8), (191, 0x3FF), (188, 2), (162, 5)]) [1] oneRec
    [(8, slot .empty 0 320 4160), (9, slot .empty 0 8192 4160)]
def walking : State := after (.walk 0) walkBench.state
def walkStarted : State := after (.walkStart 0) walking
theorem test_walk_start : walkStarted.chip.objVal? 0 5 = some (.sem 1) ∧
    walkStarted.chip.walks.map (fun w => (w.walker, w.snap)) = [(some 0, [(page 10 0, 0)])] := by decide +kernel
/-! ## States that meet the hypotheses -/

theorem witness_walk : walkBench.MeetsAt walkAt (fun _ _ => .none) fun _ _ => True :=
  Bench.meetsAt _ _ _ _ (by decide +kernel) (by unfold walkAt; decide +kernel) trivial (by decide +kernel) (by decide +kernel)
def editMeets (b : Bench) (op : Nat) : Prop := b.MeetsAt (editAt op) (fun _ => editFoot) fun _ _ => True
theorem witness_append : editMeets (appendBench [0, 1]) 0 :=
  Bench.meetsAt _ _ _ _ (by decide +kernel) (by unfold editAt; decide +kernel) trivial (by decide +kernel) (by decide +kernel)
theorem witness_drop_below : editMeets dropBench 1 :=
  Bench.meetsAt _ _ _ _ (by decide +kernel) (by unfold editAt; decide +kernel) trivial (by decide +kernel) (by decide +kernel)
theorem witness_score_add : editMeets scoreAddBench 2 :=
  Bench.meetsAt _ _ _ _ (by decide +kernel) (by unfold editAt; decide +kernel) trivial (by decide +kernel) (by decide +kernel)
theorem witness_truncate_from : editMeets truncateBench 3 :=
  Bench.meetsAt _ _ _ _ (by decide +kernel) (by unfold editAt; decide +kernel) trivial (by decide +kernel) (by decide +kernel)

/-- A walk can start, whose copy is the one record `r`; `p` says what its check comes to. -/
def walkStartsB (c : Chip) (r : Nat × Nat) (p : Option Nat → Bool) : Bool :=
  (c.walk? 0).any fun w => (c.kvCtx w.job w.p w.g).any fun x =>
    let wd := x.consts w.wdesc 2
    let sd := seqDecl x.cap x.v (wkSeq wd)
    w.walker.isSome && !w.started && c.tensorReady x (sqState sd) 0 (stateBytes sd) && wkFirst wd = 0 &&
      min (wkCount wd) (sqBudget sd) = 1 && ((Except.good? (c.tensorRead x (sqState sd) 0 64)).any fun h =>
        fld (getLE h 0 64) 511 480 = 0) &&
      ((Except.good? (c.tensorRead x (sqState sd) (arrayOff sd 0 + 16) 16)).any fun bs =>
        r = ((recOf (getLE bs 0 16 <<< 128)).pte, (recOf (getLE bs 0 16 <<< 128)).base)) &&
      p (recordStatus (wkFmt wd) (walkFrames x w) r.1)
theorem walkStartsB_starts (c : Chip) (r : Nat × Nat) (p : Option Nat → Bool) (h : walkStartsB c r p = true) :
    ∃ w x, c.walk? 0 = some w ∧ c.kvCtx w.job w.p w.g = some x ∧ w.walker ≠ none ∧ w.started = false ∧
      c.tensorReady x (sqState (seqDecl x.cap x.v (wkSeq (x.consts w.wdesc 2)))) 0
        (stateBytes (seqDecl x.cap x.v (wkSeq (x.consts w.wdesc 2)))) = true ∧
      Copied c x (x.consts w.wdesc 2) (seqDecl x.cap x.v (wkSeq (x.consts w.wdesc 2))) 0 [r] ∧
      p (recordStatus (wkFmt (x.consts w.wdesc 2)) (walkFrames x w) r.1) = true := by
  simp only [walkStartsB, Option.any_eq_true, Bool.and_eq_true, Bool.not_eq_true', decide_eq_true_eq] at h
  obtain ⟨w, hw, x, hx, ⟨⟨⟨⟨⟨⟨h1, h2⟩, h3⟩, h4⟩, h5⟩, a, h6, h7⟩, bs, h8, h9⟩, h10⟩ := h
  refine ⟨w, x, hw, hx, Option.isSome_iff_ne_none.mp h1, h2, h3, ⟨a, Except.is _ _ h6, h7.symm, ?_, ?_⟩, h10⟩
  · rw [h4, Nat.sub_zero, h5]; rfl
  · intro i y hy
    cases i with
    | zero => cases hy; exact ⟨bs, by rw [h4]; exact Except.is _ _ h8, h9⟩
    | succ i => cases hy
theorem witness_walk_start : walkStartsB walking.chip (page 10 0, 0) (· = none) = true := by decide +kernel
/-- Record 0 in host memory: KV_PAGE_ABSENT. -/
theorem witness_walk_bad : walkStartsB (after (.walk 0) { walkBench.state with
    chip := placeTensors [(1, 64), (2, 192)] [(2, seqBytes 10 1 0 [rec_ (page 10 0 + 2 ^ 58) 0 4])] walkBench.on }).chip
    (page 10 0 + 2 ^ 58, 0) (· = some stKvPageAbsent) = true := by decide +kernel
/-- No slot is free yet: nothing is delivered. -/
theorem witness_walk_block : let c := walkStarted.chip.setVal 0 8 (.slot .full false)
    ∃ w ∈ c.walk? 0, ∃ x ∈ c.kvCtx w.job w.p w.g, w.started = true ∧ w.ended = false ∧ wkHops (x.consts w.wdesc 2) = 0 ∧
      ∃ d ∈ Except.good? (c.deliverAll x (walkBlocks x (x.consts w.wdesc 2)) 0 (List.range w.dests.length)),
        (d.walk? 0).isSome = true := by decide +kernel

/-- A walk round ring 3 that has written its two own blocks; the next part's first key block has come, and its keys go to
slot 8 after the two local ones. -/
def relayBench : Bench :=
  { kvBench [(252, 1), (244, 1), (224, 1), (208, 0xFFFF)]
      (word [(246, 5), (239, 1), (235, 7), (211, 1), (201, 8), (191, 0x3FF), (188, 2), (162, 0x3FF), (149, 1), (137, 3)]) [1]
      oneRec [(8, slot .empty 0 320 4160), (9, slot .empty 0 8192 4160)] with
    chip := fun c => { c.setRing 3 ring3 with
      walks := [{ id := 0, job := 0, p := 0, g := 0, desc := 0, wdesc := 3, post := 0x3FF, facet := 0, walker := some 0,
                  started := true, gen := 0, blocks := [], snap := [], dests := [⟨0, 2, none, 0⟩], ended := true,
                  relayK := 0, relayV := 0, hops := [] }],
      ringIn := [{ ring := 3, job := 0, dest := 0, object := 8, data := leBytes 4160 (word [(0, 7)]), got := [],
                   msg := none, since := some 0, arr := 4 }] } }
theorem witness_ring_data : let c := relayBench.on
    ∃ e ∈ c.relayNext 0, let (b, x, w, key) := e
      key = true ∧ w.hops.length = w.relayK ∧ c.walkHops (x.consts w.wdesc 2) ≤ hopOf x w b.data + 1 ∧
      b.object = wkKeyRing (x.consts w.wdesc 2) ∧
      ringSlot b.object (wkLen (x.consts w.wdesc 2)) ((walkBlocks x (x.consts w.wdesc 2)).length + w.relayK) = 8 ∧
      b.dest = 0 ∧ b.got = [] ∧ c.slotFree w.p 8 = true ∧ ∀ k ∈ c.arrivals w.p 8, b.arr ≤ k := by decide +kernel

/-- Memory of which no part has failed, outside a barrier. -/
def cleanB (c : Chip) : Bool := c.pcs.isEmpty && c.stackTab.isEmpty && !c.barrierOn && c.poison.isEmpty
theorem clean_placeReady (c : Chip) (p : Place) (h : cleanB c = true) : c.placeReady p = true := by
  simp only [cleanB, Bool.and_eq_true, List.isEmpty_iff] at h
  unfold Chip.placeReady Chip.pcSt Chip.stack
  rw [h.1.1.1, h.1.1.2, h.1.2]
  rfl
theorem clean_tensorReady (c : Chip) (x : Ctx) (tid off n : Nat) (h : cleanB c = true) : c.tensorReady x tid off n = true := by
  unfold Chip.tensorReady Chip.allocReady
  split <;> simp [clean_placeReady c _ h]
theorem clean_allocByte (c : Chip) (a : Alloc) (x : Nat) (h : cleanB c = true) : (c.allocByte a x).isSome = true := by
  simp only [cleanB, Bool.and_eq_true, List.isEmpty_iff] at h
  have d : ∀ p, c.detourUnwritten p = false := fun p => by
    unfold Chip.detourUnwritten Chip.detourSource Chip.stack
    rw [h.1.1.2]
    rfl
  have u : ∀ b, c.burstPoisoned b = false := fun b => by
    unfold Chip.burstPoisoned Chip.stack
    rw [h.1.1.2, h.2]
    rfl
  have z : ∀ pc, c.settled pc = c := fun pc => by
    unfold Chip.settled Chip.pcSt
    rw [h.1.1.1]
    rfl
  have r : ∀ p pc, c.copyReadable p pc = true := fun p pc => by
    unfold Chip.copyReadable Chip.poisonedAt Chip.stack
    rw [z, h.1.1.2, u, d]
    rfl
  unfold Chip.allocByte Chip.mirrorByte Chip.linePoisoned
  simp [z, d, u, r]
theorem clean_tensorRead (c : Chip) (x : Ctx) (tid off n : Nat) (h : cleanB c = true) :
    (Except.good? (c.tensorRead x tid off n)).isSome = true := by
  unfold Chip.tensorRead
  split
  · rename_i a _
    have k : ∀ l : List (Option Byte), (∀ b ∈ l, b.isSome = true) → indexOf? (·.isNone) l = none := by
      intro l hl
      induction l with
      | nil => rfl
      | cons b l ih =>
        have hb := hl b (by simp)
        have := ih (fun b hb => hl b (by simp [hb]))
        cases b <;> simp_all [indexOf?]
    have e := k ((List.range n).map fun i => c.allocByte a (off + i)) (fun b hb => by
      obtain ⟨i, _, rfl⟩ := List.mem_map.mp hb
      exact clean_allocByte c a _ h)
    unfold Chip.allocRead
    simp only [e]
    rfl
  · rfl

/-- The edit of number 0 is due. -/
def editDueB (b : Bench) (i : Instr) (p : Edit → Ctx → SeqSt → Bool) : Bool :=
  let c := (after i b.state).chip
  cleanB c && (c.edits.find? (·.id = 0)).any fun e => (c.kvCtx e.job e.p e.g).any fun x =>
    (Except.good? (c.readSeq x (seqDecl x.cap x.v (edSeq (x.consts e.edesc 2))))).any fun q =>
      e.walker.isSome && c.editFirst x e && p e x q
theorem editDueB_due (b : Bench) (i : Instr) (p : Edit → Ctx → SeqSt → Bool) (h : editDueB b i p = true) :
    ∃ e x q, EditDue (after i b.state).chip 0 e x q ∧ p e x q = true ∧
      ∀ tid off n, (after i b.state).chip.tensorReady x tid off n = true := by
  simp only [editDueB, Bool.and_eq_true, Option.any_eq_true] at h
  obtain ⟨hc, e, h1, x, h2, q, h3, ⟨h4, h5⟩, h6⟩ := h
  exact ⟨e, x, q, ⟨h1, h2, Option.isSome_iff_ne_none.mp h4, h5, clean_tensorReady _ _ _ _ _ hc, Except.is _ _ h3⟩, h6,
    fun _ _ _ => clean_tensorReady _ _ _ _ _ hc⟩
theorem witness_drop_commit : editDueB dropBench (.dropBelow 0) (fun e x _ => edOp (x.consts e.edesc 2) = 1) = true := by
  decide +kernel
theorem witness_truncate_commit :
    editDueB truncateBench (.truncateFrom 0) (fun e x _ => edOp (x.consts e.edesc 2) = 3) = true := by decide +kernel
theorem witness_score_commit : editDueB scoreAddBench (.scoreAdd 0) (fun e x _ => edOp (x.consts e.edesc 2) = 2) = true := by
  decide +kernel
theorem witness_append_commit : editDueB (appendBench [0, 1]) (.append 0) (fun e x q =>
    edOp (x.consts e.edesc 2) = 0 && (x.job.pool? 0).any (fun k => newPages q 7 e.keys.length ≤ k.free.length &&
      (planAppend (seqDecl x.cap x.v 5) 7 e.keys.length q k.free).isSome) &&
    sqPool (seqDecl x.cap x.v (edSeq (x.consts e.edesc 2))) = 0 && edFmt (x.consts e.edesc 2) = 7) = true := by decide +kernel
theorem witness_drop_truncate : let q : SeqSt := { gen := 3, nextPos := 10, tail := 1, recs := [recOf 0, ⟨page 6 1, 4, 0⟩] }
    ∃ r, q.recs[1]? = some r ∧ r.valid = true ∧ r.base + pteFill r.pte ≤ 10 ∧ 4 ≤ r.base :=
  ⟨⟨page 6 1, 4, 0⟩, rfl, by decide +kernel, by decide +kernel, by decide⟩

/-! ## Frames and pages (R282, R284, R292, R610) -/

def reclaimable : Chip :=
  let c := (edited dropBench (.dropBelow 0))
  c.updJob 0 fun y => { y with stepEnds := 1 }
theorem test_frame_reclaim : ((after (.frameReclaim 0 0 0) (state reclaimable)).chip.job? 0).map
    (fun y => y.pools.map fun k => (k.free, k.held)) = some [([0], [])] := by decide +kernel
theorem witness_frame_reclaim : ∃ x ∈ reclaimable.kvCtx 0 0 0, ∃ k ∈ x.job.pool? 0,
    ∃ h ∈ k.held.find? (·.frame = 0), reclaimable.frameDue x h = true := by decide +kernel

/-- An append that found no free frame, 8,715 tk ago. -/
def starved : Chip :=
  let c := (after (.append 0) (appendBench []).state).chip
  { c with tick := { c.tick with count := 8715 } }
theorem test_pool_wait_expiry : statuses (after (.poolWaitExpiry 0) (state starved)) = [(stKvPoolEmpty, u32max)] := by
  decide +kernel
theorem witness_pool_wait : ∃ e ∈ starved.edits.find? (·.id = 0), ∃ t ∈ e.since, ∃ x ∈ starved.kvCtx e.job e.p e.g,
    t + 8715 ≤ starved.now ∧ starved.editStarved x e = true := by decide +kernel

/-- The pre-empted job, of class 1, waits, its session with room for one swap slot of 16,400 bytes; a job of class 0 waits too, and no
q-row is free. -/
def swappingBench (seq : List Byte) (swapped : List (Nat × Nat × Nat × Nat)) : Chip :=
  let c := (kvBench [] 0 [1] seq []).on
  let c := (c.updJob 0 fun y =>
    { y with cls := 1, phase := .waiting, preempt := true, resumeDue := true, swapped := swapped }).setSession 0
      { SessionSt.free with st := .opened, swapBytes := 16400 }
  let full : Alloc := { id := 9, q0 := 0, rows := totalRows, mirrored := false, bytes := 1, tag := none }
  { c with jobs := c.jobs ++ [(1, { job0 with phase := .waiting, number := 1 })],
           mem := { c.mem with allocs := full :: c.mem.allocs } }
theorem witness_swap_out : let c := swappingBench oneRec []
    c.swapNext = some 0 ∧ c.memoryWanted 1 = true ∧ c.swapSpans 0 = [] ∧
    ∃ x ∈ c.swapCtx false 0, x.job.cls = 1 ∧ x.job.session = 0 ∧
      ∃ q ∈ Except.good? (c.readSeq x (swapSeq x 5)), ∃ r ∈ q.recs[0]?, r.valid = true ∧
      pteHost r.pte = false ∧ (0 + 1) * (swapFrame x 5 + 16) ≤ (swapSession c x).swapBytes ∧
      cleanB c = true := by decide +kernel
/-- Its page is in host memory; one comes back whose pool has its q-rows still. -/
theorem witness_swap_in : let c := swappingBench (seqBytes 10 1 0 [rec_ (page 10 0 + 2 ^ 58) 0 4]) [(5, 0, 0, 0)]
    ∃ x ∈ c.swapCtx true 0, (c.regainPool x (swapPool x 5)).isSome = true ∧
      ∃ q ∈ Except.good? (c.readSeq x (swapSeq x 5)), ∃ r ∈ q.recs[0]?, r.valid = true ∧
      (x.job.swapped.find? fun k => k.1 = 5 && k.2.1 = 0).isSome = true ∧
      ∃ pl ∈ x.job.pool? (sqPool (swapSeq x 5)), pl.free.head? = some 1 := by decide +kernel

end Sys2Proof.Tests
end

