-- ==== Sys2Proof/Tests/Pictures.lean ====
section
/-! SUPPORT. Tests of Cameo streams, and states that meet the hypotheses of CameoStreamsRun. -/
namespace Sys2Proof.Tests

open Sys2Proof Sys2Proof.Machine Sys2Proof.Claims
set_option Elab.async false

/-! ## A picture of two by two (Tables 13.4, 13.5) -/

/-- Stream 0 as binding makes it: its descriptor at constant entry 2, its owner Bead 0, its one pair 0. -/
def stream0 : StreamSt :=
  { id := 0, job := 0, entry := 2, owner := 0, pairs := [0], waiting := [], frame := 0, row := 0, ctl := 0, roi := [], qp := 0,
    refs := [], recordDue := false, stats := [], sizes := [], fullness := 0, surfaces := List.replicate 4 none,
    lt := [none, none], fallback := false, recOff := 0, ended := false, units := [], inputEnd := false, output := 0,
    lastGood := none, taken := [], input := [], decoded := [], held := [], shown := [] }
/-- The area of its pair with one open slot that holds these rows. -/
def slotArea (rows : List TakenRow) : PairArea :=
  { PairArea.empty with slots := [{ frame := 0, row := 0, have_ := rows }] }

/-- One frame of two by two FP32 pixels, output in tensor 1, no regions; done in object 5, frame_post and frame_free name
nothing; the conversion takes the first element as it is for each component. The row stream entry is constant entry 1. -/
def streamBench (decode : Nat) (fs : List (Nat × Nat)) (st : StreamSt) (area : PairArea) (ctlTensor : Nat := 0xFFFF) : Bench :=
  let d := word [(510, decode), (490, 2), (477, 2), (410, 1), (394, 1), (378, 0xFFFF), (362, 0xFFFF), (346, ctlTensor),
    (239, 5), (217, 0x3FF), (207, 0x3FF), (203, 1), (187, 6)]
  { instrs := [dmaWord],
    consts := [0, word [(112, 2)]] ++ halves (d % 2 ^ 256) ++ halves (d >>> 256) ++ List.replicate 3 (word [(96, 0x3F800000)]),
    descs := [word ([(252, 6), (16, 1), (26, 0x3FF)] ++ fs)], tensors := [tensorOf 1 16, tensorOf 2 16],
    locket := [(lockKey 0 1 384, words 4 [0x40E00000, 0, 0, 0x41100000, 0, 0])],
    job := withTensors [(1, 64), (2, 64)] { job0 with camAllocs := [2] },
    objs := [(5, { val := .sem 0, bank := 0, off := 0, len := 0, peer := 0 })],
    chip := fun c => { placeTensors [(1, 64), (2, 64)] [(2, leBytes 4 (2 ^ 31))] c with
      streams := [st], pairs := [(0, { PairSt.fresh with stream := some 0, area := area })] } }

/-- Two rows of 24 bytes from bank 1 byte 384, the second 0 to start with. -/
def rowsBench : Bench :=
  streamBench 0 [(248, 1), (224, 0xFFFF), (168, 2 ^ 19 + 384), (108, 24), (92, 2), (64, 64)] stream0 (slotArea [])
def offeredRows : State := after (.rowStream 0) rowsBench.state
theorem test_row_stream : offeredRows.chip.streams.map (fun s => s.waiting.map fun w => (w.frame, w.y, w.bytes.length)) =
    [[(0, 0, 24), (0, 1, 24)]] := by decide +kernel
theorem test_row_intake : let c := (after (.rowIntake 0 0) offeredRows).chip
    c.streams.map (fun s => s.waiting.map (·.y)) = [[1]] ∧
      (c.pair 0).area.slots.map (fun k => k.have_.map fun h => (h.y, h.luma)) = [[(0, [7, 9])]] := by decide +kernel
/-- A second copy of a row fences the job. -/
def twice : StreamSt := { stream0 with waiting := [{ xfer := 0, p := 0, frame := 0, y := 0, bytes := [], since := 0 }] }
def twiceBench : Bench := streamBench 0 [] twice (slotArea [⟨0, [], .withEven⟩])
theorem test_row_intake_twice : statuses (after (.rowIntake 0 0) twiceBench.state) = [(stCameoRowDuplicate, u32max)] := by
  decide +kernel

/-- Both rows are in; the control word in tensor 2 forces a key frame. -/
def bothRows : List TakenRow := [⟨0, [7, 9], .samples [8] [8]⟩, ⟨1, [7, 9], .withEven⟩]
def fullBench : Bench := streamBench 0 [] stream0 (slotArea bothRows) 2
/-- The one CTU row of the picture is coded, and no slot opens after it. -/
theorem test_ctu_row_start : let c := (after (.ctuRowStart 0) fullBench.state).chip
    c.streams.map (fun s => (s.row, s.recordDue, s.ctl)) = [(1, true, 2 ^ 31)] ∧ (c.pair 0).area.slots = [] ∧
      (c.pair 0).area.coded.length = 1 := by decide +kernel
/-- 7 and 9 on both rows, and their mean, in whichever order the rows come (R450, R451). -/
def takenRows (y : Nat) : RowSlot :=
  let x := fullBench.ctx
  let d := streamDesc x 2
  let bs := words 4 [0x40E00000, 0, 0, 0x41100000, 0, 0]
  RowSlot.take x d (RowSlot.take x d ⟨0, 0, []⟩ y bs) (1 - y) bs
theorem test_samples : [0, 1].map (fun y => rowSamples (streamDesc fullBench.ctx 2) 0 (takenRows y).have_)
    = List.replicate 2 ([7, 9, 7, 9], [8], [8]) := by decide +kernel
/-- Tile columns of 200 samples in a gang of two: HEVC shares the four CTUs, AV1 takes two superblocks each (Table 13.2). -/
theorem test_tile_columns : tileColumns 0 200 2 = [(0, 128), (128, 72)] ∧ tileColumns 1 300 2 = [(0, 192), (192, 108)] := by
  decide +kernel
def due : StreamSt := { stream0 with row := 1, recordDue := true }

/-- The input of a decode is eight bytes of tensor 2; a transfer of no bytes ends it. -/
def inputBytes : Bench := streamBench 1 [(224, 2), (108, 4), (92, 2), (64, 4)] stream0 PairArea.empty
def noBytes : Bench := streamBench 1 [(224, 2)] stream0 PairArea.empty
theorem test_decode_input : ((after (.decodeInput 0) inputBytes.state).chip.pair 0).area.bits = leBytes 8 (2 ^ 31) := by
  decide +kernel
theorem test_end_of_input : (after (.endOfInput 0) noBytes.state).chip.streams.map (·.inputEnd) = [true] := by
  decide +kernel

/-! ## States that meet the hypotheses -/

/-- A bench stands at a kind 6 transfer of its stream, and `p` holds of it. -/
def atStream (b : Bench) (sel : Nat → Nat → Bool) (p : Ctx → Chip → StreamSt → Bool) : Bool :=
  let x := b.ctx
  let c := taken b.on x
  b.standsB && b.freeB (dmaFoot b.on x) && iClass x.i = 3 && ddKind (descOf x) = 6
    && sel (descOf x) (streamDesc x (rsStream (rowWord x))) && (c.streamOf? x.j (rsStream (rowWord x))).any (p x c)
theorem atStream_meets (b : Bench) (sel : Nat → Nat → Bool) (p : Ctx → Chip → StreamSt → Bool) (h : atStream b sel p = true)
    (h2 : b.on.job? 0 = some b.job := by rfl) (h3 : b.on.capsule b.job.setting = b.toKit.capsule := by rfl) :
    let x := b.ctx
    let c := taken b.on x
    Ready b.on 0 x (streamAt fun w d => sel w d = true) (dmaFoot b.on x) ∧
      ∃ st, c.streamOf? x.j (rsStream (rowWord x)) = some st ∧ p x c st = true := by
  simp only [atStream, Bool.and_eq_true, decide_eq_true_eq, Option.any_eq_true] at h
  obtain ⟨⟨⟨⟨⟨h1, h4⟩, h5⟩, h6⟩, h7⟩, st, h8, h9⟩ := h
  exact ⟨b.ready _ _ (by rw [h1, h4]; rfl) ⟨h5, h6, h7⟩ h2 h3, st, h8, h9⟩

/-- Both rows lie in the picture; of rows from 1 on the second does not. -/
theorem witness_row_stream : atStream rowsBench (fun _ d => !cmDecode d) (fun x _ _ =>
    (List.range (ddRows (descOf x))).all fun i =>
      rowLuma (rowWord x) x.g x.iteration i < cmHeight (streamDesc x (rsStream (rowWord x))) &&
      rowFrame (rowWord x) x.iteration < streamFrames x (streamDesc x (rsStream (rowWord x)))) = true := by
  decide +kernel
def outsideRows : Bench := { rowsBench with
  consts := rowsBench.consts.set 1 (word [(112, 2), (67, 1)]) }
theorem witness_row_stream_outside : atStream outsideRows (fun _ d => !cmDecode d) (fun x _ _ =>
    1 < ddRows (descOf x) && cmHeight (streamDesc x (rsStream (rowWord x))) ≤ rowLuma (rowWord x) x.g x.iteration 1) = true := by
  decide +kernel
theorem witness_decode_input : atStream inputBytes (fun w d => cmDecode d && ddRows w * ddRowBytes w != 0) (fun x c _ =>
    !x.inputAhead (rsStream (rowWord x)) && c.rowsReady x (descOf x) (plainRows (descOf x)) &&
      (Except.good? (c.readRows x (descOf x) (plainRows (descOf x)))).isSome) = true := by decide +kernel
theorem witness_end_of_input :
    atStream noBytes (fun w d => cmDecode d && ddRows w * ddRowBytes w = 0) (fun x _ s => !x.inputAhead s.entry) = true := by
  decide +kernel

theorem witness_row_intake : let c := offeredRows.chip
    ∃ z ∈ c.stream? 0, (c.streamCtx z).isSome = true ∧ ∃ w ∈ z.waiting[1]?,
      ∃ k ∈ (c.slotsOf z).find? (fun k => k.frame = w.frame && k.row = w.y / 64), k.have_.any (·.y = w.y) = false := by
  decide +kernel
theorem witness_row_intake_twice : let c := twiceBench.on
    ∃ z ∈ c.stream? 0, (c.streamCtx z).isSome = true ∧ ∃ w ∈ z.waiting[0]?,
      ∃ k ∈ (c.slotsOf z).find? (fun k => k.frame = w.frame && k.row = w.y / 64), k.have_.any (·.y = w.y) = true := by
  decide +kernel

/-- A CTU row whose slot is whole, its window as wanted; `p` says what the start of its frame comes to. -/
def Windows.good? : Windows → Bool
  | .ok _ => true
  | _ => false
def FrameStart.begun? : FrameStart → Option (Nat × List Nat)
  | .ok c r => some (c, r)
  | _ => none
def FrameStart.bad? : FrameStart → Bool
  | .bad => true
  | _ => false
def atRow (b : Bench) (p : Chip → Ctx → StreamSt → Bool) : Prop := let c := b.on
    ∃ z ∈ c.stream? 0, ∃ x ∈ c.streamCtx z, ∃ k ∈ (c.slotsOf z).find? (fun k => k.frame = z.frame && k.row = z.row),
      z.recordDue = false ∧ (∀ y ∈ ctuLuma (streamWord x z) z.row, ∃ h ∈ k.have_, h.y = y) ∧ p c x z = true
theorem witness_first_ctu_row : atRow fullBench (fun c x z => z.row = 0 &&
    (FrameStart.begun? (c.frameStart x (streamWord x z) z.frame)).any fun e =>
      Windows.good? (c.windowsFor x (streamWord x z) (frameBegun x z e.1 e.2) (frameBegun x z e.1 e.2).refs true)) := by
  unfold atRow; decide +kernel
/-- CTU row 1 of this picture holds no luma rows. -/
theorem witness_next_ctu_row : atRow (streamBench 0 [] { stream0 with row := 1 } { PairArea.empty with slots := [⟨0, 1, []⟩] })
    (fun c x z => z.row != 0 && Windows.good? (c.windowsFor x (streamWord x z) z z.refs false)) := by
  unfold atRow; decide +kernel
/-- Bit 0 of a control word is reserved. -/
def badControl : Bench := { fullBench with chip := fun c => { fullBench.chip c with
  hbm := ((fullBench.chip c).hbm.writeN ((fullBench.chip c).allocPlace ((allocsOf [(1, 64), (2, 64)]).getD 1
    { id := 0, q0 := 0, rows := 0, mirrored := true, bytes := 0, tag := none }) 0 0).key [1, 0, 0, 0]) } }
theorem witness_bad_control : atRow badControl (fun c x z => z.row = 0 &&
    FrameStart.bad? (c.frameStart x (streamWord x z) z.frame)) := by unfold atRow; decide +kernel
/-- Modes 1 and 2 have no part in this stream, so its QP stands. -/
theorem witness_record_assembly : let c := (streamBench 0 [] due PairArea.empty).on
    ∃ z ∈ c.stream? 0, ∃ x ∈ c.streamCtx z, cpbMode (streamWord x z) = false ∧ z.ended = false ∧
      cmDecode (streamWord x z) = false ∧ z.recordDue = true ∧ c.refsReady x (streamWord x z) z = true ∧
      c.tensorReady x (cmOut (streamWord x z)) 0 ((c.tensorAlloc? x.job (cmOut (streamWord x z))).elim 0 (·.bytes)) = true := by
  decide +kernel
theorem settleQp_mode0 (c : Chip) (x : Ctx) (d : Nat) (z : StreamSt) (h : cpbMode d = false) : c.settleQp x d z = (c, z) := by
  simp [Chip.settleQp, h]

/-- A decode at the stream `st`, its input parsed; `p` says what is asked of it. -/
def atFrame (b : Bench) (p : Chip → Ctx → Nat → StreamSt → Bool) : Prop := let c := b.on
    ∃ z ∈ c.stream? 0, ∃ x ∈ c.streamCtx z, z.ended = false ∧ cmDecode (streamWord x z) = true ∧
      ∃ y ∈ (c.parseInput (streamWord x z) z).stream? 0,
        p (c.parseInput (streamWord x z) z) x (streamWord x z) y = true
def decodes (st : StreamSt) : Bench := { streamBench 1 [] st PairArea.empty with job := withTensors [(1, 64)] job0 }

/-- With no part to decode there is no next picture. -/
theorem nextPic_none (s : StreamSt) (d : Nat) (h : (supportedUnits (cmCodec d) s.units).1 = []) : s.nextPic d = none := by
  simp [StreamSt.nextPic, h, outputOrder, picsOf]
/-- At the end of the input the one picture is the next. -/
theorem nextPic_one (s : StreamSt) (d p : Nat) (h1 : picsOf (((supportedUnits (cmCodec d) s.units).1.map (·.1)).filter (·.shows)) = [p])
    (h2 : (supportedUnits (cmCodec d) s.units).2 = false) (h3 : s.inputEnd = true) (h4 : s.shown = []) : s.nextPic d = some p := by
  simp only [StreamSt.nextPic, h2, h3, h4, outputOrder, h1]
  generalize (Config.displayOrder _ _ _).eraseDups = o
  have h : ∀ q ∈ o.filter [p].contains ++ [p].filter (fun q => !(o.filter [p].contains).contains q), q = p := by
    intro q hq
    rcases List.mem_append.1 hq with hq | hq
    · simpa using (List.mem_filter.1 hq).2
    · simpa using (List.mem_filter.1 hq).1
  have ne : o.filter [p].contains ++ [p].filter (fun q => !(o.filter [p].contains).contains q) ≠ [] := by
    by_cases hp : p ∈ o
    · exact List.append_ne_nil_of_left_ne_nil (List.ne_nil_of_mem (List.mem_filter.2 ⟨hp, by simp⟩)) _
    · simp [hp]
  revert h ne
  generalize o.filter [p].contains ++ _ = l
  intro h ne
  obtain ⟨q, r, rfl⟩ := List.exists_cons_of_ne_nil ne
  simp [h q (by simp)]

/-- A part of picture 0 that uses the tools `ts`. -/
def unit0 (ts : List Config.Tool) : Config.DecUnit :=
  { kind := .data, seq := none, tools := ts, first := true, access := true, independent := true, basePoint := true, pic := 0,
    shows := true, whole := [0], error := none, body := [] }
def ends (st : StreamSt) : StreamSt := { st with inputEnd := true }
/-- The input has ended behind the one picture, which no frame has shown. -/
theorem witness_decode_picture : atFrame (decodes (ends { stream0 with units := [unit0 []] })) (fun c x d y =>
    picsOf (((supportedUnits (cmCodec d) y.units).1.map (·.1)).filter (·.shows)) = [0] &&
      !(supportedUnits (cmCodec d) y.units).2 && y.inputEnd && y.shown.isEmpty && c.surfaceFree x d y &&
      (match Chip.decodePics x d y.id (supportedUnits (cmCodec d) y.units).1 (y.toDecode d 0) c with
       | .ok e => (((e.stream? y.id).getD y).held.find? (·.pic = 0)).isSome
       | _ => false)) := by unfold atFrame; decide +kernel
/-- The parts run to one that is not supported; there is none yet; there is none at the end, with a frame missing; none is missing. -/
theorem witness_decode_unsupported : atFrame (decodes { stream0 with units := [unit0 [.extensions]] }) (fun _ _ d y =>
    (supportedUnits (cmCodec d) y.units).1.isEmpty && (supportedUnits (cmCodec d) y.units).2) := by unfold atFrame; decide +kernel
theorem witness_decode_waits : atFrame (decodes stream0) (fun _ _ d y =>
    (supportedUnits (cmCodec d) y.units).1.isEmpty && !(supportedUnits (cmCodec d) y.units).2 && !y.inputEnd) := by
  unfold atFrame; decide +kernel
theorem witness_decode_missing : atFrame (decodes (ends stream0)) (fun c x d y =>
    (supportedUnits (cmCodec d) y.units).1.isEmpty && !(supportedUnits (cmCodec d) y.units).2 && y.inputEnd &&
      y.output < streamFrames x d && c.surfaceFree x d y) := by unfold atFrame; decide +kernel
theorem witness_decode_done : atFrame (decodes (ends { stream0 with output := 1 })) (fun _ x d y =>
    (supportedUnits (cmCodec d) y.units).1.isEmpty && !(supportedUnits (cmCodec d) y.units).2 && y.inputEnd &&
      streamFrames x d ≤ y.output) := by unfold atFrame; decide +kernel

end Sys2Proof.Tests
end

