-- ==== Sys2Proof/Tests/Work.lean ====
section
/-! SUPPORT. Tests of doorbells, loads, unloads and the life of a job, and states that meet the hypotheses of the statements from
DoorbellsAndSettingsComplete to CheckpointsCommit. -/
namespace Sys2Proof.Tests

open Sys2Proof Sys2Proof.Machine Sys2Proof.Claims
set_option Elab.async false

/-! ## A capsule that passes every check (Tables 2.1, 2.3, 2.4, 2.7, 2.9) -/

/-- CRC-32 of the nine digits, its published check value. -/
theorem test_crc : crc32 ("123456789".toList.map fun ch => BitVec.ofNat 8 ch.toNat) = 0xCBF43926 := by decide +kernel

/-- The instruction of stream 0: the end. -/
def endOnly : List Nat := [ctrlWord 0 0]
/-- Sections of a capsule: four unused extents, stream 0 with a body, one variant of fourteen Beads, and what `more` holds. -/
def wholeSections (body : List Nat) (more : List (Nat × Nat × List Byte)) : List (Nat × Nat × List Byte) :=
  [(secExtents, 0, List.replicate 320 0), (secStream, 0, words 16 (body ++ endOnly)), (secMap, 0, List.replicate 32 0),
   (secSync, 0, []), (secDma, 0, []), (secConst, 0, words 16 [0]), (secResume, 0, [])] ++ more
def wholeDirectory : Nat → List (Nat × Nat × List Byte) → List Nat
  | _, [] => []
  | off, s :: ss =>
    word [(120, s.1), (96, s.2.1), (64, off), (32, s.2.2.length), (0, crc32 s.2.2)] :: wholeDirectory (off + s.2.2.length) ss
def wholeCapsule (body : List Nat) (more : List (Nat × Nat × List Byte)) : Capsule :=
  let ss := wholeSections body more
  let start := 96 + 16 * ss.length
  leBytes 64 (word [(480, 0x50484F4C), (472, 1), (448, 64), (352, start + ss.foldl (fun n s => n + s.2.2.length) 0),
    (336, ss.length), (320, 1), (256, 77), (240, 10), (192, 96), (160, 64)]) ++ leBytes 32 0 ++
    words 16 (wholeDirectory start ss) ++ ss.flatMap (·.2.2)
def capsule0 : Capsule := wholeCapsule [] []

/-! ## A queue (Tables 14.1, 14.2) -/

/-- Memory that holds bytes from an address on. -/
def cells (k : Nat) (bs : List Byte) : Mem := (bs.zipIdx.filter (·.1 != 0)).map fun e => (k + e.2, e.1)
/-- Queue 0 of four descriptors and eight records on head A, with one descriptor `d` ready, and `bs` where its in_addr
points. -/
def queue0 : QueueSt :=
  { QueueSt.fresh with ringAddr := 0x1000, ringEntries := 4, journalAddr := 0x2000, journalEntries := 8, enable := 1,
                       tail := 1 }
def served : Chip :=
  { running with heads := [{ HeadSt.fresh with link := 2, ide := 1 }, HeadSt.fresh] }
def queueBench (d : List (Nat × Nat)) (bs : List Byte) : Chip :=
  { served with host := cells 0x1000 (leBytes 128 (word d)) ++ cells 0x3000 bs, queues := [(0, queue0)] }
/-- A load of Setting 3. -/
def loadDesc (n : Nat) : List (Nat × Nat) := [(960, 5), (932, 3), (908, 1), (672, 0x3000), (640, n)]
/-- Status and type of the record at journal entry 0. -/
def record0 (c : Chip) : Nat × Nat := let w := leNat (c.hostRead 0x2000 64); (fld w 511 508, fld w 495 480)

theorem test_load_setting : let c := (after (.loadSetting 0) (state (queueBench (loadDesc 592) capsule0))).chip
    record0 c = (4, 0) ∧ (c.settings.map (·.1), (c.queue 0).consumed) = ([3], 1) := by decide +kernel
/-- One byte of the capsule changed: CAPSULE_MALFORMED. -/
theorem test_load_refused : record0 (after (.loadSetting 0)
    (state (queueBench (loadDesc 592) (capsule0.set 200 7)))).chip = (4, stCapsuleMalformed) := by decide +kernel

/-- Setting 3 is loaded. -/
def loaded (d : List (Nat × Nat)) : Chip :=
  { queueBench d [] with settings := [(3, { capsule := capsule0, weightAddr := 0, weights := [] })] }
def unloadDesc : List (Nat × Nat) := [(960, 5), (932, 3), (908, 2)]
theorem test_unload_setting : let c := (after (.unloadSetting 0) (state (loaded unloadDesc))).chip
    (record0 c, c.settings) = ((4, 0), []) := by decide +kernel
/-- A job of Setting 3 is open: SETTING_IN_USE. -/
def inUse : Chip := { loaded unloadDesc with jobs := [(0, { job0 with setting := 3 })] }
theorem test_unload_refused : let c := (after (.unloadSetting 0) (state inUse)).chip
    (record0 c, c.settings.length) = ((4, stSettingInUse), 1) := by decide +kernel

/-! ## Doorbells -/

def bells (q : QueueSt) (jobs : Tbl Job) : State := state { served with queues := [(0, q)], jobs := jobs }
theorem test_submission_doorbell : ((after (.submissionDoorbell 0 0 4 6) (bells queue0 [])).chip.queue 0).tail = 2 := by
  decide +kernel
/-- Records 6, 7 and 0 are held; head 1 releases them, and the job whose record was 7 leaves the ledger. -/
def held3 : QueueSt := { queue0 with jHead := 6, jHeld := 3, jNext := 1 }
def doneJob : Job := { job0 with ledger := .done, doneIdx := 7 }
theorem test_journal_doorbell : let c := (after (.journalDoorbell 0 0 4 1) (bells held3 [(0, doneJob)])).chip
    ((c.queue 0).jHead, (c.queue 0).jHeld, c.jobs.length) = (1, 0, 0) := by decide +kernel
theorem test_cancel_doorbell : ((after (.cancelDoorbell 0 0 4 7) (bells queue0 [(0, { job0 with phase := .waiting })])).chip.job?
    0).map (fun x => (x.ending, x.ledger)) = some (some stCancelled, .completing) := by decide +kernel
theorem witness_doorbell : (bells queue0 []).chip.doorbell (bells queue0 []).otp.production 0 0 4 = true := by decide +kernel
/-- Records passed; the whole journal released when the head comes round to itself; more passed than are held. -/
theorem witness_journal_doorbell :
    (let q := held3; let n := (1 % q.journalEntries + q.journalEntries - q.jHead) % q.journalEntries
     0 < n ∧ n ≤ q.jHeld) ∧
    (let q := { queue0 with jHeld := 8 }; (0 % q.journalEntries + q.journalEntries - q.jHead) % q.journalEntries = 0 ∧
     q.jHeld = q.journalEntries) ∧
    (let q := held3; q.jHeld < (2 % q.journalEntries + q.journalEntries - q.jHead) % q.journalEntries) := by decide
theorem witness_cancel_doorbell : (List.find? (fun e : Nat × Job => e.2.queue = 0 && e.2.seq = 7 && e.2.ledger = .accepted)
    (bells queue0 [(0, job0)]).chip.jobs).isSome = true := by decide +kernel

def takesOp (c : Chip) (op : Nat) : Bool := c.takes 0 && djOp (c.nextDesc 0) = op
theorem witness_load : let c := queueBench (loadDesc 592) capsule0
    takesOp c 1 = true ∧ c.loadStatus (c.nextDesc 0) = stOK ∧ c.barrierOn = false ∧
      (c.placeWeights (djOutAddr (c.nextDesc 0)) (weightPlan (c.loadCapsule (c.nextDesc 0)))).isSome = true := by
  decide +kernel
theorem witness_load_refused : let c := queueBench (loadDesc 63) capsule0
    takesOp c 1 = true ∧ c.loadStatus (c.nextDesc 0) = stBufferSize := by decide +kernel
theorem witness_unload : let c := loaded unloadDesc
    takesOp c 2 = true ∧ djReservedOk (c.nextDesc 0) = true ∧ (c.settings.find? (djSetting (c.nextDesc 0))).isSome = true ∧
      c.settingBusy (djSetting (c.nextDesc 0)) = false ∧ c.loading (djSetting (c.nextDesc 0)) = false ∧ takesOp inUse 2 = true ∧
      inUse.settingBusy (djSetting (inUse.nextDesc 0)) = true := by decide +kernel
theorem witness_unload_unknown : let c := queueBench unloadDesc []
    takesOp c 2 = true ∧ djReservedOk (c.nextDesc 0) = true ∧ c.settings.find? (djSetting (c.nextDesc 0)) = none ∧
      c.loading (djSetting (c.nextDesc 0)) = false := by decide +kernel

/-- Setting 0 holds one FP32 weight of one element, tensor 1, that is marked; the host's image holds 7. -/
def weightBench : Bench :=
  { tensors := [word [(240, 1), (232, 0), (229, 1), (192, 1), (160, 1), (128, 1), (96, 1)]],
    chip := fun c => { placeTensors [(1, 4)] [] c with
      settings := c.settings.map fun e => (e.1, { e.2 with weightAddr := 0x5000, weights := [(1, 1)] }),
      heads := served.heads, host := [(0x5000, 7)],
      mem := { (placeTensors [(1, 4)] [] c).mem with weightMarks := [(0, 1)] } } }
theorem test_weight_reload : let c := (after (.weightReload 0 1) weightBench.state).chip
    (tensorBytesOf c 1 4, c.mem.weightMarks) = ([7, 0, 0, 0], []) := by decide +kernel
theorem witness_weight_reload : let c := weightBench.on
    ∃ x ∈ c.settings.find? 0, ((weightPlan x.capsule).find? (·.1 = 1)).isSome = true ∧
      ∃ a ∈ (x.weights.lookup 1).bind c.alloc?, c.serves = true ∧ c.hostUp = true ∧ c.mem.weightMarks.contains (0, 1) = true ∧
        c.barrierOn = false := by decide +kernel

/-! ## Acceptance and binding (Table 14.3) -/

/-- Session 2 is open for four jobs of class 1 and above. -/
def session2 : SessionSt := { SessionSt.free with st := .opened, ceiling := 1, jobLimit := 4, runLimit := 100, jobCtr := 6 }
def runDesc (cls : Nat) : List (Nat × Nat) := [(960, 5), (948, 2), (932, 3), (930, cls), (914, 1), (640, 64), (544, 64)]
def offers (cls : Nat) : Chip := (loaded (runDesc cls)).setSession 2 session2
theorem test_accept_job : let c := (after (.acceptJob 0) (state (offers 1))).chip
    (record0 c, (c.job? 0).map fun x => (x.seq, x.number, x.phase, x.runLimit)) =
      ((1, 0), some (0, 6, .waiting, 102400)) := by decide +kernel
/-- Class 0 lies above the session's ceiling: CLASS_DENIED. -/
theorem test_accept_refused : let c := (after (.acceptJob 0) (state (offers 0))).chip
    (record0 c, c.jobs) = ((3, stClassDenied), []) := by decide +kernel
theorem witness_accept : takesOp (offers 1) 0 = true ∧ (offers 1).acceptStatus ((offers 1).nextDesc 0) = stOK ∧
    takesOp (offers 0) 0 = true ∧ (offers 0).acceptStatus ((offers 0).nextDesc 0) = stClassDenied := by decide +kernel

/-- A waiting job of Setting 3, its inputs decrypted or not. -/
def waits (ins : Bool) : Chip :=
  let x := { job0 with setting := 3, session := 2, phase := .waiting, inputsIn := ins, inBytes := 64, outBytes := 64 }
  { loaded [] with jobs := [(0, x)], sessions := [(2, session2)] }
theorem test_bind_job : let c := (after .bindJob (state (waits true))).chip
    ((c.job? 0).map fun x => (x.phase, x.size, x.base), (c.bead 13).job, (c.bead 14).job) =
      (some (.bound, 0, 0), some 0, none) := by decide +kernel
theorem witness_bind_job : (waits true).serves = true ∧ (waits true).barrierOn = false := by decide +kernel
/-- The first place that a job gets. -/
def placed (c : Chip) : Option (Pick × Chip × Job) :=
  (c.job? 0).bind fun x => (c.pick 0 x).bind fun k => (c.place 0 x k).bind fun c1 => (c1.job? 0).map fun x1 => (k, c1, x1)
theorem witness_try_bind : let c := waits true
    ∃ x ∈ c.job? 0, c.freeSlot = some 0 ∧ c.bindable x = true ∧ x.inputsIn = true ∧ x.resumeDue = false ∧
      ∃ k ∈ placed c, ∃ c2 ∈ k.2.1.decryptInputs 0 k.2.2, (c2.job? 0).isSome = true := by decide +kernel
/-- The header in host memory names session 0 in place of 2: whatever its tag gives, the inputs are wrong. -/
theorem witness_wrong_inputs : let c := waits false
    ∃ x ∈ c.job? 0, c.bindable x = true ∧ c.inputReadable x = true ∧ x.resumeDue = false ∧ ∃ k ∈ placed c, k.2.2.inputsIn = false ∧
      fld (leNat (k.2.1.hostRead k.2.2.inAddr 64)) 479 468 ≠ k.2.2.session := by decide +kernel
theorem witness_inputs_none (c : Chip) (j : Nat) (x : Job) (t : Nat) (h : x.inputsIn = false)
    (hh : fld (leNat (c.hostRead x.inAddr 64)) 479 468 ≠ x.session) :
    c.inputPlain x t = none ∧ c.decryptInputs j x = none := by
  have k : ∀ t, c.inputPlain x t = none := fun t => by
    unfold Chip.inputPlain
    simp only []
    split
    · rfl
    · rw [if_pos (by simp [hh])]
  refine ⟨k t, ?_⟩
  unfold Chip.decryptInputs
  rw [if_neg (by simp [h])]
  simp [k]
theorem witness_not_bindable : let c := inUse
    ∃ x ∈ c.job? 0, c.bindable x = false := by decide +kernel

/-- A context of Setting identifier `n` is offered to the capsule of identifier 77: any other is refused with CONTEXT_MISMATCH and
changes nothing, the same one is bound. -/
def offersContext (n : Nat) : Chip :=
  (waits true).updJob 0 fun x =>
    { x with mid := some { size := 0, settingId := n, version := 256, beads := [], held := [], gens := [] }, resumeDue := true }
theorem test_context_mismatch : (offersContext 78).restoreStatus ((offersContext 78).jobs.get job0 0) 0 =
    some stContextMismatch ∧ (((offersContext 78).tryBind 0).job? 0).map (·.phase) = some .waiting ∧
      (((offersContext 77).tryBind 0).job? 0).map (·.phase) = some .bound := by decide +kernel
/-- The job of a refused context has no group; the other resumes, and its inputs have not been lost. -/
theorem witness_context : (∃ x ∈ (offersContext 78).job? 0, (offersContext 78).pick 0 x = none) ∧
    let c := offersContext 77
    ∃ y ∈ c.job? 0, (c.pick 0 y).isSome = true ∧ y.resumeDue = true ∧ c.inputsLost y = false := by decide +kernel
/-- Both copies of a session input are poisoned: the job that would resume has lost it. -/
def inputSetting : SettingSt :=
  let k : Kit := { tensors := [word [(240, 1), (229, 1), (236, 1), (192, 1), (160, 1), (128, 1), (96, 1)]] }
  { capsule := k.capsule, weightAddr := 0, weights := [] }
def lostInputs : Chip :=
  let c := placeTensors [(1, 64)] [] { offersContext 77 with settings := [(3, inputSetting)] }
  let c := c.updJob 0 fun x => withTensors [(1, 64)] { x with mid := none }
  match c.alloc? 1 with
  | some a => (c.poisonBurst (c.allocPlace a 0 0).burst).poisonBurst (c.allocPlace a 1 0).burst
  | none => c
theorem witness_inputs_lost : let c := lostInputs
    ∃ x ∈ c.job? 0, c.bindable x = true ∧ (c.pick 0 x).isSome = true ∧ x.resumeDue = true ∧ c.inputsLost x = true ∧
      c.freeSlot = some 0 := by decide +kernel

/-! ## Leaving and ending (R111, R389, R484 to R494) -/

/-- The fourteen Beads of `job0`, each in a run state. -/
def group (r : RunSt) (j : Job) (c : Chip) : Chip :=
  { c with jobs := [(0, j)], sessions := [(0, session2)],
           beads := (List.range 14).map fun p => (p, { BeadSt.fresh with job := some 0, g := p, run := r }) }
def endedRun : RunSt := { RunSt.fresh with ended := true }
def stopping : Chip := group endedRun { job0 with phase := .stopping } served
def finished : Chip := group endedRun job0 served
/-- Feature 12, a step of 125,001 ticks, and all wait at a yield. -/
def yielding : Chip :=
  group { RunSt.fresh with yielded := true, pos := 3 } { job0 with preempt := true }
    { served with settings := [(0, { capsule := ({ features := 2 ^ 12, stepTicks := 125001 } : Kit).capsule, weightAddr := 0, weights := [] })] }
def leaves (c : Chip) : Option (JobPhase × LedgerState × Option Nat × Bool) :=
  ((after (.unbind 0) (state c)).chip.job? 0).map fun x => (x.phase, x.ledger, x.ending, x.mid.isSome)
theorem test_unbind_stopping : leaves stopping = some (.waiting, .accepted, none, false) := by decide +kernel
theorem test_unbind_finished : leaves finished = some (.ended, .completing, some 0, false) := by decide +kernel
theorem test_unbind_saves : leaves yielding = some (.waiting, .accepted, none, true) := by decide +kernel
theorem witness_unbind : (∃ x ∈ stopping.job? 0, x.phase = .stopping ∧ stopping.pkg.deviceFault = false) ∧ (∃ x ∈ finished.job? 0, finished.finished 0 x = true) ∧
    ∃ x ∈ yielding.job? 0, yielding.finished 0 x = false ∧ yielding.savable 0 x = true ∧
      ((yielding.endYields 0 x).job? 0).map (·.phase) = some .bound := by decide +kernel

def overdue : Chip := group RunSt.fresh { job0 with runTicks := 1000 } served
theorem test_run_limit : ((after (.runLimitExpiry 0) (state overdue)).chip.job? 0).map (·.ending) =
    some (some stJobLimit) := by decide +kernel
theorem witness_run_limit : ∃ x ∈ overdue.job? 0, x.phase = .bound ∧ x.runLimit ≤ x.runTicks ∧
    x.ledger = .accepted ∧ x.ending = none := by decide +kernel

/-- Bead 0 at its end instruction has waited since 0, on a fill's slot or on a decide's semaphore, or on nothing. -/
def waitBench (ws : List Wait) : Bench :=
  { instrs := [ctrlWord 0 0], objs := [(2, { val := .sem 0, bank := 0, off := 0, len := 0, peer := 0 }), (3, slot .empty 0 64 64)],
    chip := fun c => { c.updBead 0 fun b => { b with waits := ws } with tick := { c.tick with count := 8715 } } }
def slotWait : Chip := (waitBench [⟨.localRead, 0, 3, 0⟩]).on
def decideWait : Chip := (waitBench [⟨.decide, 0, 2, 0⟩]).on
theorem test_slot_watchdog : statuses (after (.slotWatchdogExpiry 0) (state slotWait)) = [(stSlotTimeout, u32max)] := by
  decide +kernel
theorem test_round_wait : statuses (after (.roundWaitExpiry 0) (state decideWait)) = [(stRoundIncomplete, u32max)] := by
  decide +kernel
/-- It has stood there for 139,439 tk. -/
def stoodBench : Bench := { waitBench [] with chip := fun c => { (waitBench []).chip c with tick := { c.tick with count := 139439 } } }
theorem test_bead_progress : ((after (.beadProgressExpiry 0) stoodBench.state).chip.bead 0).svc = .fenced ∧
    ((after (.beadProgressExpiry 0) (waitBench []).state).chip.bead 0).svc = .inService := by decide +kernel
theorem witness_watchdogs : (∃ x ∈ slotWait.job? 0, x.phase = .bound ∧ slotWait.expiredWaits 0 x ≠ []) ∧
    ((decideWait.canIssue 0).isSome = true ∧ ∃ w ∈ (decideWait.bead 0).waits, w.kind = .decide ∧
      w.since + watchTicks ≤ decideWait.now ∧ decideWait.available 0 w.obj = false) ∧
    ((stoodBench.on.bead 0).waits = [] ∧ ∃ x ∈ stoodBench.on.canIssue 0, stoodBench.on.available 0 (iWait x.i) = true ∧
      x.unitBusy = false ∧ (stoodBench.on.bead 0).stoodSince + progressTicks ≤ stoodBench.on.now) := by decide +kernel

/-- A job that ended with JOB_LIMIT, ten ticks after its stamp, its bound five ticks: the margin counts the tick of the record (R486). -/
def atEnd : Chip :=
  { served with jobs := [(0, { job0 with ledger := .completing, phase := .ended, ending := some stJobLimit, bound := some 5 })],
                queues := [(0, queue0)], tick := { served.tick with count := 10 } }
theorem test_job_complete : let c := (after (.jobComplete 0) (state atEnd)).chip
    record0 c = (2, stJobLimit) ∧
      (fld (leNat (c.hostRead 0x2000 64)) 191 160, (c.job? 0).map (·.ledger), c.telem.boundMissed) =
        (6, some .done, [1, 0, 0, 0]) := by decide +kernel
theorem witness_job_complete : ∃ x ∈ atEnd.job? 0, x.ledger = .completing ∧ atEnd.records x = true ∧
    atEnd.barrierOn = false ∧
    (∀ h ∈ atEnd.outputHeads x, atEnd.flushable h = true) ∧ atEnd.headOpen (atEnd.queue x.queue).active = true ∧ ¬ ((atEnd.queue x.queue).inOrder = 1 ∧ atEnd.earlierOpen x = true) := by
  decide +kernel

/-! ## Retention (R399 to R401) and checkpoints (R491) -/

def idle : Chip := { served with tick := { served.tick with count := 125000 } }
def waking : Chip :=
  { served with facets := [(1, { FacetSt.fresh with retention := 3, wakeStamp := some 5 })], tick := { served.tick with count := 1505 } }
theorem test_idle_delay : ((after (.idleDelayExpiry 1) (state idle)).chip.facet 1).retention = 2 := by decide +kernel
theorem test_wake : ((after (.wakeComplete 1) (state waking)).chip.facet 1).retention = 0 := by decide +kernel
theorem witness_retention : (idle.serves = true ∧ (idle.facet 1).retention = 0 ∧ idle.pkg.power = .running ∧ (idle.facet 1).idleDelay ≠ u32max ∧ idle.facetIdle 1 = true ∧
      (idle.facet 1).idleSince + (idle.facet 1).idleDelay ≤ idle.now) ∧
    ∃ w ∈ (waking.facet 1).wakeStamp, (waking.facet 1).retention = 3 ∧ w + 1500 ≤ waking.now := by decide +kernel
/-- A Casket wakes alone: its Facet holds no wake, and its own has lasted 1,500 tk, or not yet. -/
def casketWaking (w : Nat) : Chip := { waking with facets := [(1, { FacetSt.fresh with casketWake := some w })] }
theorem witness_casket_awake : [5, 6].map (fun w => let c := casketWaking w
    ((c.facet 1).wakeStamp.isNone, (c.facet 1).casketWake.any fun w => w + 1500 ≤ c.now)) = [(true, true), (true, false)] := by
  decide +kernel

/-- Every Bead has passed the end of step 0 and generation 1 is open. -/
def opened : Chip :=
  group { RunSt.fresh with begun := 1, passed := 1 }
    { job0 with openGens := [{ step := 1, seq := 0, crc := 0, flags := 0, overflow := 0, invalid := 0, tensors := [], settingId := 0, version := 0 }] } served
theorem test_checkpoint_commit : ((after (.checkpointCommit 0) (state opened)).chip.job? 0).map
    (fun x => (x.openGens, x.gens.map fun g => g.map (·.step), x.stepEnds)) = some ([], [none, some 1], 1) := by decide +kernel
theorem witness_checkpoint_commit : ∃ x ∈ opened.job? 0, ∃ k ∈ x.openGens.head?, x.openGens = k :: x.openGens.tail ∧ x.phase = .bound ∧ opened.allPassed x = true ∧ opened.ckptReady x = true ∧
    ∀ r ∈ opened.jobRings x, k.step - 1 ≤ (opened.ringRun r).all := by decide +kernel

end Sys2Proof.Tests
end

