-- ==== Sys2Proof/Tests/Faults.lean ====
section
/-! SUPPORT. Tests of the tick, of faults, thermal readings and stacked memory, and states that meet the hypotheses of the
statements from TickRisesAndAligns to StackedMemoryIsLostAndReturns. -/
namespace Sys2Proof.Tests

open Sys2Proof Sys2Proof.Machine Sys2Proof.Claims
set_option Elab.async false

/-! ## The tick (R26, R49 to R53) -/

def ticking (t : TickSt) (strap : Nat := 1) : Chip :=
  { served with pkg := { served.pkg with straps := { served.pkg.straps with tick := strap } }, tick := t }
def tick0 : TickSt := served.tick
theorem test_tick_wraps : (match step (state (ticking { tick0 with count := 2 ^ 64 - 1 })) with
    | .next t => some t.chip.tick.count
    | _ => none) = some 0 := by decide +kernel
theorem witness_tick : let s := state served
    s.pending = [] ∧ s.ripe = none ∧ s.chip.tick.lag = 0 ∧ s.chip.pkg.power ≠ .off ∧ s.chip.pkg.power ≠ .stopped ∧ s.chip.pkg.power ≠ .inReset ∧
      s.chip.pkg.tripLatch = false := by decide +kernel
/-- Five ticks ahead of the edge: stepped back before the first acceptance, not after it. -/
theorem test_tick_sync : let t := { tick0 with count := 131077 }
    ((after (.tickSyncPulse 0) (state (ticking t))).chip.tick.count,
     (after (.tickSyncPulse 0) (state (ticking { t with firstAccept := true }))).chip.tick.count) = (131072, 131077) := by
  decide +kernel
theorem witness_tick_sync : let t := { tick0 with count := 131077 }
    (ticking t).pkg.straps.tick ≠ 0 ∧ (ticking t).pkg.power = .running ∧ t.count < 2 ^ 64 ∧ t.firstAccept = false ∧
      t.stepped = false ∧ (ticking t).upperDue = false ∧ (syncOffset t.count 0).tdiv 256 + t.upper.getD 0 ≠ 0 ∧
      { t with firstAccept := true }.firstAccept = true := by decide +kernel
def aligned : Chip := ticking { tick0 with count := 131072, unaligned := true, inRange := some 0, refRange := some 0 }
theorem test_tick_aligned : (after .tickAlignedClear (state aligned)).chip.tick.unaligned = false := by decide +kernel
theorem witness_tick_aligned : aligned.tick.unaligned = true ∧ aligned.tick.inRange = some 0 ∧ aligned.tick.refRange = some 0 ∧ 0 + 131072 ≤ aligned.now := by
  decide +kernel

/-! ## Faults (Tables 15.1, 15.2) -/

def hit (c : Chip) (cause unit_ : Nat) : Chip := (after (.fault ⟨cause, unit_, 0, 9⟩) (state c)).chip
/-- Bead 5 is fenced and its fault logged; a second fault counts in the record. -/
theorem test_bead_fault : let c := hit served 0x02 5
    ((c.bead 5).svc, c.flog.written, (c.flog.recs.find? 0).map fun r => (r.cause, r.unit, r.count)) =
      (.fenced, 1, some (2, 5, 1)) ∧
    (((hit c 0x02 5).flog.recs.find? 0).map (·.count), (hit c 0x02 5).flog.written) = (some 2, 1) := by decide +kernel
/-- The job bound to a faulty Bead stops. -/
theorem test_bead_fault_job : ((hit (group RunSt.fresh job0 served) 0x05 3).job? 0).map (·.phase) = some .stopping := by
  decide +kernel
theorem test_segment_fault : (((hit served 0x06 9).facet 1).segs.getD 1 SegSt.fresh).svc = .fenced := by decide +kernel
theorem test_facet_fault : ((hit served 0x07 4).facet 4).svc = .fenced := by decide +kernel
theorem test_pair_fault : ((hit served 0x0E 7).pair 7).svc = .fenced := by decide +kernel
/-- Clasp A carried the tick; its ports leave service and a takeover is due. -/
theorem test_clasp_fault : let c := hit served 0x11 0
    ((c.clasp 0).svc, c.tick.primary, (c.port 5).st, (c.port 6).st, (c.clasp 0).takeoverDue) =
      (.fenced, 1, 6, 0, some 0) := by decide +kernel
/-- Each cause at the highest unit of its domain. -/
theorem witness_causes : causeFits ⟨0x14, 599, 3, 65535⟩ ∧ served.alive = true := by unfold causeFits; decide +kernel
/-- Every domain in service, a port that works included, and no job. -/
def domains : Chip := served.setPort 11 { PortSt.fresh with st := 2 }
theorem witness_domains : let c := domains
    c.alive = true ∧ (c.facet 4).svc = .inService ∧ 7 < (c.facet 4).segs.length ∧
      ((c.facet 4).segs.getD 7 SegSt.fresh).svc = .inService ∧ (c.stack 19).st < 2 ∧ (c.pcSt 639).st < 2 ∧
      (c.pair 7).svc = .inService ∧ (c.port 11).working = true ∧ c.jobs = [] ∧ 1 < c.clasps.length ∧
      (c.clasp 1).svc = .inService ∧ c.edgesOut.contains 17 = false := by decide +kernel
theorem witness_bead_fault : (served.facet (physFacet 5)).svc = .inService ∧
    ((served.facet (physFacet 5)).segs.getD (physRow 5) SegSt.fresh).svc = .inService ∧ (served.bead 5).svc = .inService ∧
    (served.bead 5).job = none ∧ ((hit served 0x02 5).bead 5).svc ≠ .inService ∧
    ((hit served 0x02 5).facet (physFacet 5)).svc = .inService ∧
    (((hit served 0x02 5).facet (physFacet 5)).segs.getD (physRow 5) SegSt.fresh).svc = .inService := by decide +kernel

theorem test_self_test : let s := state (hit served 0x02 5)
    (((after (.selfTestComplete 5 true) s).chip.bead 5).svc, ((after (.selfTestComplete 5 false) s).chip.bead 5).svc) =
      (.inService, .out) := by decide +kernel
theorem test_domain_return : let s (cause u : Nat) := state (hit served cause u)
    (((after (.domainReturn (.facet 4) true) (s 7 4)).chip.facet 4).svc,
     (((after (.domainReturn (.segment 1 1) false) (s 6 9)).chip.facet 1).segs.getD 1 SegSt.fresh).svc,
     ((after (.domainReturn (.pair 7) true) (s 14 7)).chip.pair 7).svc) = (.inService, .out, .inService) := by decide +kernel
theorem witness_returns :
    (let c := hit served 0x02 5; (c.bead 5).svc = .fenced ∧ (c.bead 5).job = none) ∧
    (let c := hit served 0x07 4; (c.facet 4).svc = .fenced ∧ c.facetIdle 4 = true) ∧
    (let c := hit served 0x06 9; 1 < (c.facet 1).segs.length ∧ ((c.facet 1).segs.getD 1 SegSt.fresh).svc = .fenced ∧
      ∀ p ∈ rowBeads 1 1, (c.bead p).job = none) ∧
    (let c := hit served 0x0E 7; (c.pair 7).svc = .fenced ∧ (c.pair 7).stream = none) := by decide +kernel

/-- A second edge out of service is a fault of the device. -/
theorem test_edges : let s := after (.edgeRetryExhausted 3) (state served)
    (s.chip.edgesOut, s.chip.pkg.deviceFault, (after (.edgeRetryExhausted 17) s).chip.pkg.devState) = ([3], false, 3) := by
  decide +kernel
def takeover : Chip := hit { served with queues := [(0, queue0)] } 0x11 0
theorem test_pave_takeover : ((after .paveTakeover (state takeover)).chip.queue 0).active = 1 := by decide +kernel
theorem witness_edges_and_clasps : served.edgesOut = [] ∧ (hit served 0x15 3).edgesOut = [3] ∧
    (takeover.clasp (takeover.queue 0).head).takeoverDue.isSome = true := by decide +kernel

/-! ## Readings (R416, R528, R529) -/

/-- Every junction of every Facet at `j`, every stack at `k`, in degrees. -/
def readings (j k : Int) : ThermalReading :=
  { facet := List.replicate 40 (16 * j), clasp := [0, 0], cameo := 0, stack := List.replicate 20 (16 * k) }
def readAt (r : ThermalReading) : Chip := (after (.thermalReading r) (state served)).chip
theorem test_reading_limits : let c := readAt (readings 100 86)
    ((c.facet 0).limiting, (c.facet 0).fclk, (c.stack 3).band, c.pkg.power) = (true, 1, 1, .running) := by decide +kernel
/-- The latch is set at once and the clocks stop with the next edge. -/
theorem test_reading_trips : let c := readAt (readings 115 0)
    (c.pkg.tripLatch, c.pkg.power, (tickEdge c).pkg.power, (readAt (readings 99 105)).pkg.tripLatch) =
      (true, .running, .stopped, true) := by decide +kernel
theorem witness_readings : (readings 100 86).wf = true ∧ served.now % 125000 = 0 ∧ served.pkg.power = .running ∧
    tripOf (readings 100 86) = none ∧ tripOf (readings 115 0) ≠ none ∧ (readings 115 0).wf = true := by decide +kernel
theorem witness_tripped : let s := state (readAt (readings 115 0))
    s.pending = [] ∧ s.ripe = none ∧ s.chip.clocked = true ∧ s.chip.pkg.tripLatch = true := by decide +kernel
def powers : PowerReading := { package := 900, die := List.replicate 8 100 }
def atInterval : Chip := { served with tick := { tick0 with count := 125000 } }
theorem test_telemetry : let t := (after (.telemetryIntervalEnd powers) (state atInterval)).chip.telem
    (t.start, t.lastPower) = (125000, 900) := by decide +kernel
theorem witness_telemetry : powers.wf = true ∧ atInterval.pkg.power = .running ∧ atInterval.telem.start < atInterval.now ∧
    atInterval.now % atInterval.telem.nextInterval = 0 := by decide +kernel

/-! ## On-chip memories (R361 to R365, R397, R398) -/

theorem test_locket_scrub : ((after (.locketPatrolScrub (.locketRow 21 8191) .corrected) (state served)).chip.bead
    5).locketCorrected = 1 := by decide +kernel
/-- A request of engine `who` of row 3: a read, or a write of bytes. -/
def lockReq (who : Nat) (w : Option (List (Nat × BitVec 8))) : LockReq := { who := who, row := 3, wide := false, write := w }
/-- Bank 1 of Bead 5: its owner writes through port 0 and another through port 1; both writes land, port 1's last. -/
def meet (reqs : List LockReq) : Chip := (after (.bankCollisionReplay 5 1 reqs) (state served)).chip
/-- A write of the owner on port 0 and one of another on port 1 both land, port 1's last. -/
theorem test_collision : (meet [lockReq 1 (some [(0, 1), (1, 2)]), lockReq 4 (some [(1, 3)])]).lockRead 5 1 192 2 = [1, 3] := by
  decide +kernel
/-- The read sees the row as the write leaves it; on the main path a busy warning counts. -/
theorem test_collision_read : let c := meet [lockReq 1 none, lockReq 4 (some [(0, 7)])]
    (((c.bead 5).replay.map fun r => (r.port, r.data.take 2)), (c.bead 5).busyWarnings) = (some (0, [7, 0]), [0, 1, 0, 0]) := by
  decide +kernel
/-- Of three the highest that is no owner loses and retries. -/
theorem test_retry : ((meet [lockReq 6 none, lockReq 1 none, lockReq 4 none]).bead 5).retry = [(1, lockReq 6 none)] := by
  decide +kernel
/-- A row and the two that it begins; the second of them meets a write of row 3. -/
theorem witness_rows_meet : let two : LockReq := { lockReq 4 none with row := 2, wide := true }
    two.wf = true ∧ rowsMeet (lockReq 1 (some [(0, 1)])) two = true ∧ rowsMeet (lockReq 1 none) { lockReq 4 none with row := 4 } = false ∧
      LockReq.wf { two with row := 8190, write := some [(127, 1)] } = true := by decide +kernel
theorem witness_retry : served.pkg.power = .running ∧ (served.bead 5).retry = [] ∧
    ([6, 1, 4].map fun w => LockReq.wf (lockReq w none)) = [true, true, true] := by decide +kernel
theorem witness_collision : served.pkg.power = .running ∧ (served.facet (physFacet 5)).retention = 0 ∧
    (served.bead 5).retry = [] ∧ LockReq.wf (lockReq 4 (some [(63, 1)])) = true ∧ locketGrant 1 [1, 4] = (some 1, some 4) := by
  decide +kernel
theorem witness_scrubbable : served.scrubbable (.locketRow 21 8191) = true ∧ served.scrubbable (.casketClean 4) = true ∧
    served.scrubbable (.casketDirty 4 95) = true ∧ served.scrubbable (.tableStore 599 7) = true ∧
    waking.scrubbable (.locketRow 480 0) = false := by decide +kernel

/-! ## Stacked memory (R413 to R438) -/

def warm (c : Chip) (n : Nat) : Chip := { c with tick := { c.tick with count := n } }
def refreshable (pcst : Nat) : Chip := warm (served.updPc 639 fun x => { x with st := pcst }) 488
theorem test_refresh : let c := (after (.refresh 639 63) (state (refreshable 1))).chip
    ((c.pcSt 639).refreshed, (c.pcSt 639).owed) = ([(63, 488)], [(63, 1)]) := by decide +kernel
theorem witness_refresh : let c := refreshable 1
    refreshQuarters (c.stack (pcStack 639)).band ≤ 4 * (c.now - (c.pcSt 639).refreshed.get 0 63) ∧ (c.pcSt 639).st ≠ 3 ∧
      (c.stack (pcStack 639)).st < 2 ∧ c.pkg.power = .running := by decide +kernel
/-- Stack 19 is eight degrees away from its last retrain. -/
def warmer : Chip := warm (served.updStack 19 fun s => { s with temp := -128 }) 5000
def retraining : Chip := (after (.retrainStart 19 false) (state warmer)).chip
def sliced : Chip := (after (.sliceBegin 608 .retrain) (state retraining)).chip
theorem test_retrain : ((retraining.stack 19).st, (retraining.stack 19).baseTemp) = (1, -128) := by decide +kernel
theorem test_slice : ((sliced.pcSt 608).st, ((after (.sliceEnd 608 true) (state sliced)).chip.stack 19).retrain) =
    (1, some (0, 1)) := by decide +kernel
theorem witness_slices : ((warmer.stack 19).st = 0 ∧ (warmer.stack 19).retrain = none ∧
      128 ≤ ((warmer.stack 19).temp - (warmer.stack 19).baseTemp).natAbs) ∧
    (retraining.sliceFree 608 = true ∧ retraining.sliceWanted 608 .retrain = true) ∧
    ∃ k ∈ (sliced.stack (pcStack 608)).slice, k.pc = 608 := by decide +kernel

/-- Row 5 of bank 2 of pseudo-channel 600 needs repair, and its slice is on. -/
def repairing : Chip :=
  served.updStack 18 fun s => { s with needRepair := [⟨24, 2, 5⟩], slice := some { pc := 600, start := 0, kind := .repair 2 5 } }
theorem test_soft_repair : let s := (after (.softRepair 600 ⟨2, 5⟩ []) (state repairing)).chip.stack 18
    (s.repairList, s.needRepair, s.used ⟨24, 2, 5⟩) = ([⟨24, 2, 5⟩], [], 1) := by decide +kernel
theorem witness_soft_repair : let s := repairing.stack (pcStack 600)
    (∃ k ∈ s.slice, k.pc = 600 ∧ k.kind = .repair 2 5) ∧ ⟨600 % 32, 2, 5⟩ ∈ s.needRepair ∧
      s.repairable (state repairing).unit ⟨600 % 32, 2, 5⟩ = true := by decide +kernel
/-- No slice of this row is on. -/
theorem witness_no_repair : (served.stack (pcStack 600)).slice = none := by decide +kernel
/-- Errors of a burst: on one pin all beats, on two pins, on one pin of each of its first two bursts. -/
def onePin : List PinError := [⟨35, 255⟩]
def twoPins : List PinError := [⟨0, 1⟩, ⟨35, 128⟩]
/-- The fourth corrected error of a row makes it need repair. -/
theorem test_scrub : let four := (List.range 4).foldl (fun s _ => after (.hbmPatrolScrub 600 1288 [⟨7, ⟨35, 255⟩⟩]) s) (state served)
    ((four.chip.pcSt 600).corrected, (four.chip.pcSt 600).scrubbed, (four.chip.stack 18).needRepair) =
      (4, 4, [⟨24, 2, 5⟩]) := by decide +kernel
/-- Errors on two pins of one burst, and none. -/
theorem test_scrub_kinds :
    (((after (.hbmPatrolScrub 600 1288 [⟨7, ⟨0, 1⟩⟩, ⟨7, ⟨35, 128⟩⟩]) (state served)).chip.pcSt 600).uncorrectable,
     ((after (.hbmPatrolScrub 600 1288 []) (state served)).chip.pcSt 600).corrected) = (1, 0) := by decide +kernel
theorem witness_scrub : served.readsNow 600 = true ∧ BurstError.wf 8 ⟨7, ⟨35, 255⟩⟩ = true ∧
    ∀ i, i < 8 → served.poisonedAt ⟨600, 1288, 32 * i⟩ = false := by decide +kernel
theorem witness_clean_row : ∀ i, i < 32 → served.poisonedAt ⟨600, 5 * 256 + 2 * 4 + i / 8, 32 * (i % 8)⟩ = false := by
  decide +kernel
def Burst.kind : BurstRead → Nat
  | .clean => 0
  | .corrected _ => 1
  | .bad => 2
theorem witness_code : let c := served
    c.poisonedAt ⟨0, 0, 0⟩ = false ∧ (c.poisonBurst 0).poisonedAt ⟨0, 0, 0⟩ = true ∧
      ([[], onePin, twoPins, twoPins ++ [⟨9, 16⟩]].map fun es => Burst.kind (c.readBurst ⟨0, 0, 0⟩ es)) = [0, 1, 2, 2] ∧
      (onePin ++ twoPins).all PinError.wf = true := by decide +kernel

/-- Granule 0 of pseudo-channel 0 is a position of the window; its other copy is clean. -/
theorem test_uncorrectable_window : let c := (after (.uncorrectableRead 0 0 0 ⟨twoPins, []⟩ .scrub) (state served)).chip
    ((c.pcSt 0).uncorrectable, c.poison) = (1, []) := by decide +kernel
/-- Both copies of granule 0 of the window, at pseudo-channels 0 and 320, are poisoned (Table 12.5). -/
theorem test_uncorrectable_both : let c := (after (.uncorrectableRead 0 0 0 ⟨twoPins, twoPins⟩ .scrub) (state served)).chip
    ((c.pcSt 0).uncorrectable, (c.pcSt 320).uncorrectable, c.poison.length) = (1, 1, 2) := by decide +kernel
/-- A host read that the code corrects is counted. -/
theorem test_corrected_read : ((after (.uncorrectableRead 0 0 0 ⟨onePin, []⟩ (.host 1)) (state served)).chip.pcSt 0).corrected =
    1 := by decide +kernel
/-- The position of q-row 210000 at hand lies in a plain allocation, or in a mirrored one. -/
def inAlloc (mirrored : Bool) : Chip :=
  { served with mem := { served.mem with allocs := [{ id := 1, q0 := 210000, rows := 1, mirrored := mirrored, bytes := 81920, tag := none }] } }
theorem test_uncorrectable_plain : ∀ a ∈ (inAlloc false).mem.allocs, let p := (inAlloc false).allocPlace a 0 0
    (after (.uncorrectableRead p.pc p.granule 0 ⟨twoPins, []⟩ .scrub) (state (inAlloc false))).chip.poison = [p.burst] := by
  decide +kernel
/-- A bad burst of the window, of a plain allocation and of a mirrored one. -/
def badAt (c : Chip) (p : Place) : Bool := Burst.kind (c.readBurst p twoPins) = 2
theorem witness_uncorrectable :
    (served.readsNow 0 = true ∧ badAt served ⟨0, 0, 0⟩ = true ∧ ∃ e ∈ served.positionOf 0 0, served.useOf e.1 e.2 = .window) ∧
    (let c := inAlloc false; ∃ a ∈ c.mem.allocs, let p := c.allocPlace a 0 0
      c.readsNow p.pc = true ∧ badAt c ⟨p.pc, p.granule, 0⟩ = true ∧
        ∃ e ∈ c.positionOf p.pc p.granule, c.useOf e.1 e.2 = .plain a) ∧
    (let c := inAlloc true; ∃ a ∈ c.mem.allocs, let p := c.allocPlace a 0 0
      c.readsNow p.pc = true ∧ badAt c ⟨p.pc, p.granule, 0⟩ = true ∧
        ∃ e ∈ c.positionOf p.pc p.granule, c.useOf e.1 e.2 = .mirrored a) := by decide +kernel

/-- Three retrains of pseudo-channel 600 in a row have failed. -/
def failing : Chip := served.updPc 600 fun x => { x with badTrains := 3 }
def lost : Chip := warm (after (.pcLoss 600 0) (state failing)).chip 16
theorem test_pc_loss : ((lost.pcSt 600).st, lost.mem.epochDue) = (2, [(600, 16)]) := by decide +kernel
def detoured : Chip := (after .mapEpochBarrier (state lost)).chip
theorem test_map_epoch : ((detoured.stack 18).detour, (detoured.pcSt 600).st, detoured.mem.mapEpoch, detoured.mem.epochDue) =
    (some 600, 3, 1, []) := by decide +kernel
theorem witness_losses : failing.lossDue (state failing).unit 600 0 = true ∧ (failing.stack 18).st < 2 ∧
    (failing.pcSt 600).st < 2 ∧ (failing.stack 18).detour = none ∧ failing.mem.epochDue = [] ∧
    lost.mem.epochDue = (600, 16) :: [] ∧ 16 ≤ lost.now ∧ (∀ e ∈ lost.stackTab, e.2.slice = none) ∧
    (detoured.stack 18).detour = some 600 ∧ (detoured.stack 18).remirrored = false ∧ detoured.remirrorReady 18 = true := by decide +kernel
def fencedStack : Chip := (after (.stackFault 18 4) (state served)).chip
theorem witness_scrub_waits : fencedStack.readsNow 600 = false := by decide +kernel
theorem test_stack_fault : ((fencedStack.stack 18).st, ((after (.stackReturn 18) (state fencedStack)).chip.stack 18).st,
    (after (.stackReturnTimeout 18) (state (warm fencedStack 31250))).chip.pkg.devState) = (2, 0, 3) := by decide +kernel
theorem witness_stacks : (served.stack 18).st < 2 ∧ (fencedStack.stack 18).st = 2 ∧
    (warm fencedStack 31249).now < ((warm fencedStack 31249).stack 18).fenceStamp + 31250 ∧
    (∀ i, i < 32 → ((warm fencedStack 31249).pcSt (32 * 18 + i)).queue = []) ∧
    ((warm fencedStack 31250).stack 18).fenceStamp + 31250 ≤ (warm fencedStack 31250).now ∧
    ((warm fencedStack 31250).stack 18).st = 2 := by decide +kernel

end Sys2Proof.Tests
end

