-- ==== Sys2Proof/Tests/Outside.lean ====
section
/-! SUPPORT. Tests of the heads, the resets, the boot, the responder and a tamper, and states that meet the hypotheses of the
statements from HeadsCarryTheirTraffic to TamperErases. -/
namespace Sys2Proof.Tests

open Sys2Proof Sys2Proof.Machine Sys2Proof.Claims
set_option Elab.async false

/-! ## Heads (R411, R412, R532 to R543) -/

/-- Head A's decoder is committed at 2^35. -/
def decoded : Chip := served.updHead 0 fun h => { h with hdmBase := 2 ^ 35, hdmCommitted := true }
/-- Three bytes from byte 62 of the window on are written, then four are read: the read comes line by line. -/
theorem test_window : let t := after (.hostWindowRead 0 (2 ^ 35 + 62) 4) (after (.hostWindowWrite 0 (2 ^ 35 + 62) [1, 2, 3]) (state decoded))
    (t.chip.sent, t.chip.held) =
      ([.windowDone 0, .windowData 0 [1, 2] false, .windowData 0 [3, 0] false], [(0, 0), (1, 0)]) := by decide +kernel
def inReset2 : Chip := { decoded with pkg := { decoded.pkg with devState := 2 } }
theorem test_window_reset : let t := after (.hostWindowWrite 0 (2 ^ 35) [1]) (state inReset2)
    (t.chip.sent, t.chip.hbm) = ([.windowDone 0], []) := by decide +kernel
theorem witness_window : decoded.takesMem (state decoded).otp.production 0 = true ∧ decoded.windowAt 0 (2 ^ 35 + 62) = some 62 ∧
    inReset2.takesMem (state inReset2).otp.production 0 = true ∧ decoded.pkg.devState < 2 ∧ 2 ≤ inReset2.pkg.devState ∧
    (∀ i, i < 4 → (decoded.windowByte (2 ^ 34 - 4 + i)).isSome = true) ∧
    ∀ k, k < 2 → (decoded.backInvalidate (some 0) 62 3).windowWaits k 62 3 0 = [] := by decide +kernel

/-- Head B, closed by a failed check, holds line 0 of the window: a write by head A waits for its answer, until its link goes down. -/
def deafHolder : Chip := { decoded with heads := decoded.heads.set 1 { HeadSt.fresh with link := 2, ide := 2 }, held := [(0, 1)] }
theorem test_window_waits : let t := after (.hostWindowWrite 0 (2 ^ 35) [5]) (state deafHolder)
    (t.chip.mem.biWrites.length, t.chip.hbm, (after (.headReset 1) t).chip.mem.biWrites.length,
      ((after (.headReset 1) t).chip.windowByte 0)) = (1, [], 0, some 5) := by decide +kernel
theorem witness_window_waits : deafHolder.takesMem (state deafHolder).otp.production 0 = true ∧
    deafHolder.windowAt 0 (2 ^ 35) = some 0 ∧ deafHolder.pkg.devState < 2 ∧ deafHolder.biWaits (some 0) 0 1 = true ∧
    decoded.biWaits (some 0) 62 3 = false := by decide +kernel

/-- The identity page of head A: device_state 1 and the partner head not up; another page in a warm reset. -/
theorem test_bar : (state served).barRead 0 55 1 = .data [0x11#8] ∧ (state inReset2).barRead 0 0x3000 1 = .abort ∧
    (state deafHolder).barRead 1 0 64 = .unsupported := by decide +kernel
theorem witness_bar : served.headUp 0 = true ∧ served.ioClosed (state served).otp.production 0 = false ∧
    deafHolder.headUp 1 = true ∧ deafHolder.ioClosed (state deafHolder).otp.production 1 = true ∧
    deafHolder.pkg.bootPhase = false ∧ (state served).unit.hallmark < 2 ^ 64 ∧ served.partner 0 < 4 ∧ served.pkg.joinCookie < 2 ^ 32 := by
  decide +kernel

/-- The device cache of head A holds line 5. -/
def caching : Chip := served.updHead 0 fun h => { h with cache := [(5, [7, 8])] }
theorem test_snoop : let t := after (.hostSnoop 0 5) (state caching)
    (t.chip.host, t.chip.sent, (t.chip.head 0).cache) = ([(320, 7), (321, 8)], [.snoop 0 5 (some [7, 8])], []) := by decide +kernel
theorem test_ide : let t := after (.ideCheckFail 0) (state served)
    ((t.chip.head 0).ide, (t.chip.head 0).ideFail, t.chip.sent) = (2, 1, [.aer 0 false]) := by decide +kernel
theorem test_join_cookie : ((after (.joinCookieWrite 0 4 9) (state served)).chip.pkg.joinCookie,
    (after (.joinCookieWrite 0 2 9) (state served)).chip.pkg.joinCookie) = (9, 0) := by decide +kernel
theorem test_hdm : let h := (after (.hdmDecoderCommit 0 (2 ^ 36)) (state served)).chip.head 0
    (h.hdmBase, h.hdmCommitted) = (2 ^ 36, true) := by decide +kernel
/-- A part whose Bezel can sign, in DEVELOPMENT. -/
def signing (c : Chip) : State :=
  { state c with otp := { (state c).otp with lcCount := 1 }, sec := { SecSt.fresh with identityState := 0, treesReady := 1 } }
/-- In a warm reset both are answered with Completer Abort, and change nothing else. -/
theorem test_aborts : [Instr.hdmDecoderCommit 0 (2 ^ 36), .ideKmExchange 0].map (fun i => (after i (state inReset2)).chip.sent) =
    List.replicate 2 [.completerAbort 0] := by decide +kernel
theorem test_ide_km : ((after (.ideKmExchange 0) (signing (served.updHead 0 fun h => { h with ide := 0 }))).chip.head 0).ide = 1 := by
  decide +kernel
theorem witness_heads : served.headUp 0 = true ∧ served.ioClosed (state served).otp.production 0 = false ∧
    caching.headUp 0 = true ∧ caching.ioClosed (state caching).otp.production 0 = false ∧
    (served.head 0).cache.lookup 5 = none ∧ (caching.head 0).cache.lookup 5 = some [7, 8] ∧ caching.pkg.devState < 2 ∧
    (Instr.hdmDecoderCommit 0 (2 ^ 36)).wf = true ∧ (signing served).canSign = true ∧ (served.head 0).ide = 1 := by decide +kernel

/-- Head A's link has to come up; vector 3 waits for it. -/
def linking : Chip := served.updHead 0 fun h => { h with link := 1, msixPending := [3] }
theorem test_link_up : let c := (after (.linkUp 0 8 2) (state linking)).chip
    ((c.head 0).link, (c.head 0).width, c.sent) = (2, 8, [.msix 0 128, .msix 0 3]) := by decide +kernel
/-- The second head waits for the first one, or for 20 ms. -/
theorem test_link_order : ((after (.linkUp 1 8 2) (state linking)).chip.head 1).link = 0 := by decide +kernel
theorem test_i3c : (after (.i3cDynamicAddressAssignment 1 9) (state served)).chip.pkg.i3cDynamic = [none, some 9] := by decide +kernel
theorem witness_links : (Instr.linkUp 0 8 2).wf = true ∧ linking.alive = true ∧ (linking.clasp 0).svc = .inService ∧
    (linking.head 0).link < 2 ∧ linking.mayTrain 0 = true := by decide +kernel

/-! ## Resets (R502, R529, R547, R548, R587, R665 to R674) -/

def cold : State := after .coldReset (state queueJob)
  where queueJob : Chip := { served with queues := [(0, queue0)], jobs := [(0, job0)], host := [(5, 1)], locket := [(1, 1)] }
theorem test_cold_reset : (cold.chip.jobs, cold.chip.queues, cold.chip.locket, cold.chip.host, cold.chip.pkg.power) =
    ([], [], [], [(5, 1)], .inReset) := by decide +kernel
/-- A tamper that the sequencer still holds burns its fuse. -/
def tampered : State := { state served with inbox := [⟨0, 2, [0], .tamper 1⟩] }
theorem test_cold_tamper : ((after .coldReset tampered).otp.tamperCount, (after .coldReset tampered).inbox) = (1, []) := by
  decide +kernel
def straps0 : Straps := { addr := 0, head := 1, tick := 0, boot := 0 }
theorem test_release : let t := after (.pkgResetDeassert straps0) cold
    (t.chip.pkg.power, t.chip.tick.primary) = (.rom, 1) := by decide +kernel
theorem test_power_down : let t := after .powerDown (state { served with pkg := { served.pkg with tripLatch := true, power := .stopped } })
    (t.chip.pkg.power, t.chip.pkg.tripLatch) = (.off, false) := by decide +kernel
theorem witness_cold : served.pkg.power ≠ .stopped ∧ cold.chip.pkg.power = .inReset ∧ straps0.wf = true ∧
    { served with pkg := { served.pkg with power := .stopped } }.pkg.power = .stopped ∧ served.pkg.tripLatch = false := by decide +kernel

def asked : State := after (.warmResetRequest (.bar 0 4 1)) (state { served with tables := [(1, 1)], scratch := [(2, 2)] })
theorem test_warm_request : asked.chip.pkg.warmAsked = true := by decide +kernel
theorem witness_warm : asked.chip.pkg.warmAsked = true ∧ asked.chip.pkg.power = .running ∧ isHead 0 = true := by decide +kernel
/-- A fenced Clasp comes back with a warm reset, unless it fails its self-test. -/
theorem test_clasp_back : let back (u : UnitFacts) := (takeover.claspBack u 0).clasp 0
    ((back (state takeover).unit).svc, (back { (state takeover).unit with badClasps := [0] }).svc) = (.inService, .fenced) := by
  decide +kernel
theorem witness_clasp_back : 0 < takeover.clasps.length ∧ (takeover.clasp 0).svc ≠ .inService := by decide +kernel

/-- One Locket byte of Bead 119, the last of Facet 0, and one of Bead 120. -/
def twoFacets : Chip := { served with locket := [(lockKey 119 3 0, 1), (lockKey 120 0 0, 2)] }
theorem test_facet_reset : let c := (after (.facetReset 0) (state twoFacets)).chip
    (c.locket, (c.facet 0).inReset) = ([(lockKey 120 0 0, 2)], true) := by decide +kernel
theorem test_head_reset : let h := (after (.headReset 0) (state caching)).chip.head 0
    (h.link, h.ide, h.cache) = (0, 0, []) := by decide +kernel
theorem witness_resets : (served.facet 0).svc = .inService ∧ (served.facet 0).inReset = false ∧ 0 < served.heads.length ∧
    (served.clasp 0).svc = .inService ∧ served.alive = true := by decide +kernel

/-! ## Boot and identity (R585, R586, R596 to R602, R648) -/

/-- The boot has come to Pave; its image asks for version 3 and the revocation of slots 1 and 2, from slot 2. -/
def booting : State :=
  { state { served with pkg := { served.pkg with power := .booting, devState := 0, bootPhase := true } } with
    sec := { SecSt.fresh with identityState := 0, commitSvn := true, imageSvn := 3, revokeMask := 6, keySlot := 2 } }
theorem test_pave_ready : let t := after .paveReady booting
    (t.chip.pkg.power, t.chip.pkg.devState, t.otp.svn, t.otp.revoked) = (.running, 1, 3, 2) := by decide +kernel
theorem witness_boot : booting.chip.pkg.power = .booting ∧ booting.sec.identityState ≠ 1 ∧ booting.sec.svnDone = false ∧
    booting.unit.deadPcs = [] := by decide +kernel
def halfUsed : State := { signing served with sec := { (signing served).sec with lmsNext := 16384 } }
theorem test_alias_tree : (after .aliasTreeGenerate halfUsed).sec.treesReady = 2 ∧
    (after .aliasTreeGenerate (signing served)).sec.treesReady = 1 := by decide +kernel
def standing : Chip :=
  { served with mailbox := { Mailbox.fresh with request := [1], offer := [2], offered := some 0 }, tick := { served.tick with count := 125000000 } }
theorem test_offer_expiry : let m := (after .sessionOfferExpiry (state standing)).chip.mailbox
    (m.request, m.offered, m.offer) = ([], none, [2]) := by decide +kernel
theorem witness_identity : halfUsed.chip.pkg.power = .running ∧ halfUsed.sec.identityState = 0 ∧ halfUsed.sec.keysErased = false ∧
    halfUsed.otp.signs = true ∧ halfUsed.sec.treesReady = 1 ∧ 16384 ≤ halfUsed.sec.lmsNext ∧
    standing.mailbox.offered = some 0 ∧ 0 + 125000000 ≤ standing.now := by decide +kernel

theorem test_spdm_version : (after (.spdmRequest 2 .getVersion) (state served)).chip.sent = [.spdm 2 0x04 [0x12, 0x13]] := by
  decide +kernel
theorem test_spdm_slot : (after (.spdmRequest 2 (.getCertificate 1)) (state served)).chip.sent = [.spdm 2 0x7F [1]] := by
  decide +kernel
def awaiting : State := { signing served with sec := { (signing served).sec with identityState := 1 } }
theorem test_spdm_waits : (after (.spdmRequest 2 (.challenge 0 [])) awaiting).sec.waiting = [.spdm 2 (.challenge 0 [])] := by
  decide +kernel
/-- A signature uses one index of the tree. -/
theorem test_spdm_signs : (after (.spdmRequest 2 (.challenge 0 [])) (signing served)).sec.lmsNext = 1 := by decide +kernel
theorem witness_spdm : (signing served).spdmUp 2 = true ∧ awaiting.spdmUp 2 = true ∧ spdmSlot (.challenge 0 []) = 0 ∧
    spdmSlot (.getCertificate 1) ≠ 0 ∧ (signing served).spdmSigned .getVersion = none ∧ awaiting.sec.identityState = 1 ∧
    ((signing served).spdmSigned (.challenge 0 [])).isSome = true ∧ (awaiting.spdmSigned (.challenge 0 [])).isSome = true ∧
    (signing served).canSign = true ∧ awaiting.sec.keysErased = false ∧ awaiting.otp.signs = true ∧ (signing served).sec.keysErased = false ∧
    (signing served).otp.signs = true := by decide +kernel

/-- The filter that the boot programs stops an access to the keys and counts it; the window is Pave's to reach. -/
def filtered : Chip := served.programFilters
theorem test_filter : let a := filtered.paveAccess 1 .keys 2 fun c => ([1, 2], c)
    (a.1, (a.2.clasp 1).filterDenied, (filtered.paveAccess 1 .hostWindow 2 fun c => ([1, 2], c)).1) = ([0, 0], 1, [1, 2]) := by
  decide +kernel
theorem witness_filter : (filtered.clasp 1).filterOn = true ∧ paveReaches .keys = false ∧ paveReaches .hostWindow = true := by
  decide +kernel

/-! ## Tamper (R591, R592) -/

/-- Sensors 1 and 4 fire. -/
theorem test_tamper : let t := after (.tamper 18) (signing { served with sessions := [(2, session2)] })
    (t.sec.keysErased, t.chip.sessions, t.otp.tamperCount, (t.chip.flog.recs.map fun r => (r.2.detail, r.2.count))) =
      (true, [], 1, [(1, 2)]) := by decide +kernel
theorem witness_tamper : (List.range 14).filter (bit 18) = [1, 4] ∧ (signing served).chip.alive = true := by decide +kernel

end Sys2Proof.Tests
end

