-- ==== Sys2Proof/Tests/Links.lean ====
section
/-! SUPPORT. Tests of Strand, rings, the parameter dictionary and MCTP control, and states that meet the hypotheses of the
statements from StrandBlocksAndMessagesAreTaken to the last. -/
namespace Sys2Proof.Tests

open Sys2Proof Sys2Proof.Machine Sys2Proof.Claims
set_option Elab.async false

/-! ## Blocks and messages (R550 to R557, R567) -/

/-- Port 3 works; blocks 5 and 6 are not acknowledged, and block 9 is awaited. -/
def port3 : PortSt :=
  { PortSt.fresh with st := 2, peer := 40, rxNext := 9, unacked := [⟨5, [1], 0, []⟩, ⟨6, [2], 0, []⟩], credits := [1, 2, 3, 4] }
def linked (x : PortSt) : Chip := { served with ports := [(3, x)] }
def block (type seq : Nat) (intact : Bool) : StrandBlock :=
  { type := type, seq := seq, ack := 5, creditVc := 1, credit := 7, resv := 0, intact := intact, payload := List.replicate 2560 0 }
def taken9 : PortSt := (after (.strandBlockReceive 3 (block 0 9 true)) (state (linked port3))).chip.port 3
theorem test_block : (taken9.rxNext, taken9.unacked, taken9.credits) = (10, [⟨6, [2], 0, []⟩], [1, 9, 3, 4]) := by decide +kernel
theorem test_block_bad : let t := after (.strandBlockReceive 3 (block 0 9 false)) (state (linked port3))
    ((t.chip.port 3).discarding, t.chip.sent) = (true, [.strand 3 (blockBytes 3 0 8 0 0 (padTo [] 2560))]) := by decide +kernel
theorem test_strand_retry : let t := after (.strandRetryRequest 3 5) (state (linked port3))
    (t.chip.sent, (t.chip.port 3).retries) = ([.strand 3 (blockBytes 0 6 8 0 0 [2])], 1) := by decide +kernel
/-- Block 6 has been resent fifteen times and is not acknowledged with block 5: its sixteenth is a fault of the port. -/
def tried : PortSt := { port3 with unacked := [⟨5, [1], 0, []⟩, ⟨6, [2], 15, []⟩] }
theorem test_retries_end : (after (.strandRetryRequest 3 5) (state (linked tried))).chip.raised.map (·.what) =
    [.hw ⟨0x10, 3, 0, 0⟩] := by decide +kernel
theorem witness_blocks : (block 0 9 true).wf = true ∧ (block 0 9 false).wf = true ∧ (block 5 9 true).wf = true ∧
    ((linked port3).port 3).working = true ∧ ((linked port3).port 3).txQueue = [] ∧
    (((linked port3).port 3).acked 5).unacked ≠ [] ∧ (((linked tried).port 3).acked 5).unacked ≠ [] ∧
    ((linked tried).port 3).working = true := by decide +kernel

/-- Ring 2 of three parts, between part 40 behind port 3 and part 41. -/
def ring2 (rank : Nat) : RingEntry :=
  { enable := 1, size := 3, rank := rank, session := 2, nextPart := 40, prevPart := 41, nextPorts := 8, prevPorts := 8, epoch := 4 }
/-- A first message waits at the port for credits, so that others wait behind it. -/
def fullPort : PortSt := { port3 with unacked := [], credits := [0, 0], txQueue := [⟨0, 0, true, 0, [1], none, []⟩] }
/-- A job of session 2 whose capsule has a collective on ring 2. -/
def ringed (rank : Nat) (j : Job) : Chip :=
  { linked fullPort with
    rings := [(2, ring2 rank)], jobs := [(0, j)], strand := { served.strand with partNumber := 39 },
    settings := [(0, { capsule := Kit.capsule { instrs := [laneWord 0x80 4 0 0], consts := halves (word [(244, 2)]) },
                       weightAddr := 0, weights := [] })] }
def ringJob0 : Job := { job0 with session := 2 }
def message (cls : Nat) (ring src : Nat) : StrandMessage :=
  { cls := cls, ring := ring, src := src, dst := 0, dest := 0, object := 0, length := 16, resv := 0, cipher := List.replicate 16 0,
    tag := List.replicate 16 0 }
/-- Data of a ring from another part than the previous one are not taken. -/
theorem test_message_source : (after (.strandMessageReceive 3 (message 0 2 40)) (state (ringed 1 ringJob0))).chip.ringRuns = [] := by
  decide +kernel
theorem witness_messages : (message 2 2 40).wf = true ∧ (message 0 2 41).wf = true ∧ (message 2 2 40).cls = clsControl ∧
    (message 0 2 41).cls = clsRingData ∧ ((ringed 1 ringJob0).port 3).working = true ∧
    ((ringed 1 ringJob0).ring 2).enable = 1 ∧ (message 0 2 41).src = ((ringed 1 ringJob0).ring 2).prevPart ∧
    (ringed 1 ringJob0).ringJob 2 = some 0 := by decide +kernel

/-! ## Time and training (R558 to R564, R576, R577) -/

/-- A sync block that left 1,000 and came 1,500; ours left 100 and came 400: half the difference of 500 and 300. -/
def sync : TimeSync := { tTx := 1000, echoTx := 100, echoRx := 400, refPart := 6, depth := 3, arrival := 1500 }
def synced : Chip := (after (.timeSyncReceive 3 sync) (state (linked port3))).chip
theorem test_sync : (synced.strand.parent, synced.strand.depth, synced.tick.measured, synced.refPart) = (3, 4, 100, 6) := by
  decide +kernel
/-- The tick is 2 x 131072 and the block carries it in 1/256 tk, with what the peer said. -/
theorem test_sync_send : (after (.timeSyncSend 3 5) (state (warm synced 262144))).chip.sent =
    [.strand 3 (blockBytes 2 0 8 0 0 (padTo (timeSyncBytes (67108864 + 5) 1000 1500 6 4) 2560))] := by decide +kernel
def silent : Chip := warm synced 600000
theorem test_parent_timeout : let s := (after .parentTimeout (state silent)).chip.strand
    (s.parent, s.depth) = (0xFF, 63) := by decide +kernel
theorem witness_time : sync.wf = true ∧ (warm synced 262144).now % 131072 = 0 ∧ ((warm synced 262144).port 3).working = true ∧
    synced.strand.parent = 3 ∧ sync.echoTx ≠ 0 ∧ silent.strand.parent < 12 ∧ silent.parentable silent.strand.parent = false ∧
    synced.strand.timeRef ≠ 1 ∧ synced.chooseParent.strand.parent = 3 := by decide +kernel
/-- Without an echo the block gives no offset. -/
theorem witness_no_echo : let b := { sync with echoTx := 0 }
    b.wf = true ∧ b.echoTx = 0 := by decide +kernel

def down : Chip := { served with ports := [] }
theorem test_training : let c := (after (.linkTraining 3 40 0xF0) (state down)).chip.port 3
    (c.st, c.peer) = (4, 40) := by decide +kernel
theorem test_training_fails : ((after (.linkTraining 3 40 0x7E) (state down)).chip.port 3).st = 1 := by decide +kernel
def faulted (n : Nat) : Chip := (after (.strandPortFault 3 0x0F) (state (linked { port3 with faults := n }))).chip
theorem test_port_fault : (((faulted 0).port 3).st, ((faulted 0).port 3).faults, ((faulted 1).port 3).st) = (5, 1, 6) := by
  decide +kernel
def drained : Chip := (after (.strandPortFault 3 0x0F) (state (linked { port3 with unacked := [] }))).chip
theorem test_retrained : (((after (.portRetrainComplete 3 0x0F) (state drained)).chip.port 3).st,
    ((after (.portRetrainComplete 3 0x0E) (state drained)).chip.port 3).st) = (3, 6) := by decide +kernel
theorem witness_ports : down.pkg.power = .running ∧ (down.clasp (portClasp 3)).svc = .inService ∧ (down.port 3).st < 2 ∧
    down.pkg.tampered = false ∧ laneState 0x7E = none ∧ laneState 0xF0 = some 4 ∧ (down.port 3).unacked = [] ∧
    (down.port 3).txQueue = [] ∧ down.ringRuns = [] ∧ drained.ringRuns = [] ∧ (linked port3).jobs = [] ∧ (drained.port 3).st = 5 ∧ laneState 0x0F = some 3 ∧
    laneState 0x0E = none ∧ (drained.port 3).unacked = [] ∧ (drained.port 3).txQueue = [] := by decide +kernel

/-! ## Ring control (R573 to R575) -/

def told (i : Instr) (c : Chip) : Nat × RingRun := let d := (after i (state c)).chip
  ((d.port 3).txQueue.length, d.ringRun 2)
theorem test_committed_back : told (.ringCommitted ⟨2, 3⟩ 6) (ringed 0 ringJob0) = (2, { RingRun.fresh with back := 6, all := 6, controls := 1 }) := by
  decide +kernel
theorem test_committed_kept : told (.ringCommitted ⟨2, 3⟩ 6) (ringed 1 ringJob0) = (1, { RingRun.fresh with owed := some 6 }) := by
  decide +kernel
def committed6 : Chip := (ringed 1 ringJob0).updRingRun 2 fun x => { x with committed := 6 }
theorem test_committed_on : (told (.ringCommitted ⟨2, 3⟩ 6) committed6).1 = 2 := by decide +kernel
/-- Rank 1 of three passes ALL on, rank 2 does not. -/
theorem test_all : (told (.ringAll ⟨2, 3⟩ 6) (ringed 1 ringJob0), told (.ringAll ⟨2, 3⟩ 6) (ringed 2 ringJob0)) =
    ((2, { RingRun.fresh with all := 6, controls := 1 }), (1, { RingRun.fresh with all := 6 })) := by decide +kernel
theorem witness_commits : (ringed 0 ringJob0).ringLive 2 = true ∧ (ringed 1 ringJob0).ringLive 2 = true ∧
    ((ringed 0 ringJob0).ring 2).rank = 0 ∧ ((ringed 1 ringJob0).ring 2).rank ≠ 0 ∧ ((ringed 0 ringJob0).ringRun 2).back < 6 ∧
    6 ≤ (committed6.ringRun 2).committed ∧ ((ringed 1 ringJob0).ringRun 2).committed < 6 := by decide +kernel

/-- A newer FENCE fences the job of the ring, which then waits for RESUME. -/
def ringFenced : Chip := (after (.ringFence 2 5 3) (state (ringed 1 ringJob0))).chip
theorem test_ring_fence : ((ringFenced.ring 2).epoch, (ringFenced.job? 0).map fun x => (x.phase, x.ringWait)) =
    (5, some (.stopping, [2])) := by decide +kernel
theorem test_ring_fence_old : (after (.ringFence 2 4 3) (state (ringed 1 ringJob0))).chip.jobs = [(0, ringJob0)] := by decide +kernel
def resumable : Chip := ringed 2 { ringJob0 with phase := .waiting, ringWait := [2] }
theorem test_ring_resume : let c := (after (.ringResume ⟨2, 3⟩ 6 4) (state resumable)).chip
    ((c.job? 0).map fun x => (x.ringWait, x.ringFrom)) = some ([], some 6) ∧ (c.ringRun 2).all = 6 := by decide +kernel
def unresumed : Chip := warm (resumable.updRingRun 2 fun x => { x with fenceStamp := some 1 }) 125000001
theorem test_ring_expiry : ((after (.ringResumeExpiry 2) (state unresumed)).chip.job? 0).map (fun x => x.ending) =
    some (some stResumeLimit) := by decide +kernel
theorem witness_fences : ((ringed 1 job0).ring 2).epoch < 5 ∧ 4 ≤ ((ringed 1 ringJob0).ring 2).epoch ∧
    (ringed 1 job0).jobsOnRing 2 = [] ∧ (ringed 1 job0).ringLive 2 = true ∧ resumable.ringLive 2 = true ∧
    (resumable.ring 2).rank ≠ 0 ∧ (resumable.ring 2).size = (resumable.ring 2).rank + 1 ∧ (resumable.ring 2).epoch < 2 ^ 32 ∧
    resumable.jobsOnRing 2 = [0] ∧ (resumable.job? 0).map (·.ringFrom) = some none ∧ (resumable.job? 0).map (·.ringWait) = some [2] ∧
    (unresumed.ringRun 2).fenceStamp = some 1 ∧ (unresumed.ring 2).rank ≠ 0 ∧ 1 + 125000000 ≤ unresumed.now := by decide +kernel

/-! ## The parameter dictionary (Tables 18.2 to 18.6, 19.2 to 19.13) -/

/-- A request on I3C port 0. -/
def req (op index sub : Nat) (value : List Byte := []) (inst : Nat := 0) (path : Nat := 0) : MgmtReq :=
  { path := path, tag := 1, op := op, select := 0, reqId := 9, index := index, sub := sub, inst := inst, mask := 0, offset := 0, length := 0, resv := 0, value := value }
def reply (op status typ count : Nat) (firstFail : Nat := 0x1FFF) : List Byte :=
  leBytes 24 (word [(188, op), (176, 9), (160, status), (156, typ), (143, count), (130, firstFail)])
def answers (i : Instr) (c : Chip := served) (path : Nat := 0) (bs : List Byte) : Prop :=
  (after i (state c)).chip.sent = [.mgmt path 1 bs]
/-- The device identifier, as u16. -/
theorem test_dict_read : answers (.dictRead (req 0 0x1000 2)) (bs := reply 0 0 2 1 ++ [0x20, 0xE8]) := by unfold answers; decide +kernel
theorem test_dict_read_absent : answers (.dictRead (req 0 0x1000 8)) (bs := reply 0 stNoSuchEntry 0 0) := by unfold answers; decide +kernel
/-- The repair threshold: u8, kept, at handling, both sets H and M, one instance of one byte, default 4. -/
theorem test_dict_describe : answers (.dictDescribe (req 2 0x4000 2)) (bs := reply 2 0 1 0 ++
    leBytes 32 (word [(252, 1), (245, 3), (242, 3), (229, 1), (218, 1), (0, 4)])) := by unfold answers; decide +kernel
theorem test_dict_next : answers (.dictNext (req 3 0x1000 7)) (bs := reply 3 0 4 0 ++ [0x01, 0x10, 1, 0]) := by unfold answers; decide +kernel
theorem test_dict_write : let t := after (.dictWrite (req 1 0x4000 2 [9])) (state served)
    (t.chip.mem.repairThreshold, t.chip.mgmt.configCount, t.chip.sent) = (9, 1, [.mgmt 0 1 (reply 1 0 1 1)]) := by decide +kernel
theorem test_dict_write_read_only : answers (.dictWrite (req 1 0x1000 2 [0, 0])) (bs := reply 1 stReadOnly 2 0) := by
  unfold answers; decide +kernel
theorem test_dict_write_range : answers (.dictWrite (req 1 0x4000 2 [0])) (bs := reply 1 stValueRange 1 0) := by unfold answers; decide +kernel
/-- The same message twice is handled once. -/
theorem test_dict_repeat : let r := req 1 0x4000 2 [9]
    (after (.dictWrite r) (after (.dictWrite r) (state served))).chip.mgmt.configCount = 1 := by decide +kernel
theorem test_strand_identity : let t := after (.strandIdentityWrite (req 1 0x6000 1 (leBytes 2 77))) (state (linked port3))
    (t.chip.strand.partNumber, (t.chip.port 3).st) = (77, 1) := by decide +kernel
theorem test_telemetry_interval : (after (.telemetryIntervalWrite (req 1 0xA000 1 (leBytes 4 1250))) (state served)).chip.telem.nextInterval = 1250 := by
  decide +kernel
/-- A ring entry keeps its fence epoch; bits of Table 16.11. -/
theorem test_ring_entry : (after (.ringEntryWrite (req 1 0x6001 1 (leBytes 32 (word [(255, 1), (241, 3), (228, 1), (216, 2), (203, 40),
    (190, 41), (178, 8), (166, 4)])) 2 2)) (state { served with rings := [(2, ring2 0)] })).chip.ring 2 =
    { ring2 1 with prevPorts := 4 } := by decide +kernel
def configured : Chip := { served with queues := [(0, { queue0 with enable := 0, tail := 3, consumed := 3 })] }
theorem test_queue_enable : let q := (after (.queueEnable (req 1 0xB000 7 [1] 0 2)) (state configured)).chip.queue 0
    (q.enable, q.tail, q.consumed, q.phase) = (1, 0, 0, true) := by decide +kernel
def logged : Chip := { served with flog := { served.flog with written := 5 } }
theorem test_log_ack : ((after (.faultLogAck (req 1 0x9000 2 (leBytes 4 5))) (state logged)).chip.flog.acked,
    (after (.faultLogAck (req 1 0x9000 2 (leBytes 4 6))) (state logged)).chip.flog.acked) = (5, 0) := by decide +kernel
def openSession : Chip := { served with sessions := [(2, session2)] }
theorem test_session_close : (after (.sessionClose (req 1 0x8010 6 (leBytes 2 2) 0 2)) (state openSession)).chip.session 2 =
    SessionSt.free := by decide +kernel
/-- Until Bezel can sign the offer waits. -/
theorem test_session_request : let r := req 1 0x8010 1 (leBytes 32 (word [(244, 2), (242, 1), (224, 4), (192, 100)])) 0 2
    (after (.sessionRequest r) awaiting).sec.waiting = [.offer] := by decide +kernel
theorem test_session_accept : let t := after (.sessionAccept { req 1 0x8010 3 [1] 0 2 with length := 1 }) (state served)
    t.chip.mailbox.status = stSessionKeyInvalid := by decide +kernel
theorem test_warm_by_entry : (after (.warmResetRequest (.dict (req 1 0x2001 2 [1, 0, 0, 0]))) (state served)).chip.pkg.warmAsked = true := by
  decide +kernel
/-- The life cycle does not go back; the nonce is drawn anew all the same. -/
theorem test_life_cycle : (after (.lcRequest (req 1 0x8003 2 [1])) (signing served)).otp.lcCount = 1 := by decide +kernel
/-- Outside the ROM phase boot_go is refused. -/
theorem test_boot_go : answers (.bootGo (req 1 0x8001 3 [1])) (bs := reply 1 stAccessDenied 0 0 0) := by unfold answers; decide +kernel
theorem test_bundle_commit : answers (.bundleCommit (req 1 0x8002 4 [1])) (bs := reply 1 stValueRange 0 0 0) := by unfold answers; decide +kernel

theorem witness_handled : [(req 1 0x4000 2 [9]), (req 1 0x2001 2 [1, 0, 0, 0]), (req 1 0x8001 3 [1]), (req 1 0x8002 4 [1]),
    (req 1 0x8003 2 [1]), (req 1 0x8010 6 [2, 0] 0 2), (req 1 0x3002 9 [1] 7), (req 1 0xB000 7 [1] 0 2), (req 1 0x9000 2 [0, 0, 0, 0]),
    (req 1 0x6000 1 [0, 0]), (req 1 0x6000 2 [0]), (req 1 0xA000 1 (leBytes 4 1250)), (req 1 0x6001 1 (List.replicate 32 0) 0 2),
    (req 1 0x8010 1 (leBytes 32 (word [(244, 2), (242, 1), (224, 4), (192, 100)])) 0 2),
    { req 1 0x8010 3 [1] 0 2 with length := 1 }].all (fun r =>
      let s := state served
      r.wf && r.op = 1 && s.takesRequest r && (s.chip.path r.path).replay.isEmpty && s.precheck r = 0 &&
        (findEntry r.index r.sub).isSome && s.handles r) = true := by decide +kernel
/-- The staged image goes to the shadow bank of position 0 of Bead 7. -/
def staged : Chip := { served with mgmt := { served.mgmt with stage := image 1 0 0 0 0 [(0x3F800000, 0x3F800000)] } }
theorem test_table_commit : let c := (after (.tableCommit (req 1 0x3002 9 [0] 7)) (state staged)).chip
    c.tables.readN (c.shadowKey 7 0) 80 = staged.mgmt.stage ∧ (c.bead 7).shadowFull.getD 0 false = true := by decide +kernel
theorem witness_rows : let img := (padTo staged.mgmt.stage 12288).take (thBytes (getLE (padTo staged.mgmt.stage 12288) 0 64))
    imageOk img = true ∧ kindOk 0 (thReduction (getLE (padTo staged.mgmt.stage 12288) 0 64)) = true ∧
    (staged.bead 7).job = none ∧ (ringed 1 ringJob0).ringInUse 2 = true ∧ (ringed 1 job0).ringInUse 3 = false ∧
    (ringOf (word [(255, 1), (241, 3), (228, 1)]) 4).valid = true ∧ (configured.queue 0).valid = true ∧
    (configured.queue 0).enable ≠ 1 ∧ (served.rings.any fun x => x.2.enable = 1) = false ∧
    (openSession.session 2).st = .opened ∧ openSession.sessionJobs 2 = 0 ∧ logged.flog.acked ≤ 5 ∧ 5 ≤ logged.flog.written ∧
    logged.flog.written < 6 := by decide +kernel
theorem witness_rows_bound : 0 < ({ configured with jobs := [(0, job0)] } : Chip).openJobs 0 ∧
    ((group RunSt.fresh job0 served).bead 0).job = some 0 := by decide +kernel
/-- A write that is handled at instance `i` alone, whose domain takes it. -/
def takenAt (s : State) (r : MgmtReq) (i : Nat) : Bool :=
  r.wf && r.op = 1 && s.takesRequest r && (s.chip.path r.path).replay.isEmpty && s.precheck r = 0 && s.handles r &&
    (findEntry r.index r.sub).any fun e => selected r e = [i] && s.chip.domainStatus e i = stOK
theorem takenAt_handled (s : State) (r : MgmtReq) (i : Nat) (h : takenAt s r i = true) :
    ∃ e, Handled s r e ∧ selected r e = [i] ∧ s.chip.domainStatus e i = stOK := by
  simp only [takenAt, Bool.and_eq_true, decide_eq_true_eq, Option.any_eq_true, List.isEmpty_iff] at h
  obtain ⟨⟨⟨⟨⟨⟨h1, h2⟩, h3⟩, h4⟩, h5⟩, h6⟩, e, h7, h8, h9⟩ := h
  exact ⟨e, ⟨h1, h2, h3, by rw [h4]; rfl, h5, h7, h6⟩, h8, h9⟩

/-- The ROM waits for an image, in DEVELOPMENT; the one that the entries name has no bytes. That an image passes is the answer of
Config's verifications, which have no body: the clauses of a passed one hold whatever they answer. -/
def romPhase : State :=
  let s := signing { served with pkg := { served.pkg with power := .rom, devState := 0, bootPhase := true } }
  { s with sec := { s.sec with identityState := 1 } }
theorem witness_boot_writes : takenAt romPhase (req 1 0x8001 3 [1]) 0 = true ∧ romPhase.imageReadable = true ∧
    romPhase.imageStatus romPhase.image = stSignatureInvalid ∧ romPhase.otp.signs = true ∧ romPhase.otp.blocks < 8192 ∧
    takenAt awaiting (req 1 0x8002 4 [1]) 0 = true ∧ awaiting.sec.identityState = 1 ∧ awaiting.sec.waiting = [] := by
  decide +kernel
/-- A bundle for another identity block is wrong; one for its own is right when Config's two checks say so. -/
theorem witness_bundle_wrong : ({ awaiting with sec := { awaiting.sec with block := 5 } } : State).bundleRight = false := by
  decide +kernel
theorem witness_bundle_right (h : Config.pathCarries 0 (sliceBytes (padTo [] 2047) 4 288) = true)
    (k : Config.certNames (sliceBytes (padTo [] 2047) 292 0) (Config.publicKey awaiting.deviceKey) = true) :
    ({ awaiting with sec := { awaiting.sec with block := 0, bundle := [] } } : State).bundleRight = true := by
  have e : getLE (padTo [] 2047) 0 2 = 0 ∧ getLE (padTo [] 2047) 2 2 = 0 ∧
      anyNonzero ((padTo [] 2047).drop 292) = false := by decide +kernel
  unfold State.bundleRight
  rw [show ({ awaiting with sec := { awaiting.sec with block := 0, bundle := [] } } : State).deviceKey = awaiting.deviceKey from rfl]
  simp [h, k, e.1, e.2.1, e.2.2]
/-- The end of life needs no token. -/
theorem witness_life_cycle : takenAt (signing served) (req 1 0x8003 2 [4]) 0 = true ∧
    (signing served).transitionRight 4 = true ∧ (∀ x ∈ served.sessions, x.2.st = .free) ∧ served.jobsOpen = false ∧
    (signing served).transitionRight 1 = false ∧ takenAt (state served) (req 1 0x2001 2 [1, 0, 0, 0]) 0 = true := by decide +kernel

def askSession : MgmtReq := req 1 0x8010 1 (leBytes 32 (word [(244, 2), (242, 1), (224, 4), (192, 100)])) 0 2
/-- A free slot asked for by a part that can sign, by one that cannot yet, and by one at the end of its identity. -/
theorem witness_session_request : (signing served).canSign = true ∧ awaiting.canSign = false ∧
    ∀ s ∈ [signing served, awaiting, { signing served with sec := { (signing served).sec with identityState := 2 } }],
      takenAt s askSession 0 = true ∧ (s.chip.session (sqSlot (leNat askSession.value))).st = .free ∧
        s.chip.mailbox.busy = false ∧
        (lifeCycle s.otp.lcCount).sessions ≠ .none := by decide +kernel
/-- An accept in time of the offer that stands; its keys and its body are Config's answers. -/
def offering : Chip := { standing with tick := { standing.tick with count := 5 } }
theorem witness_session_accept : takenAt (state offering) { req 1 0x8010 3 [1] 0 2 with length := 1 } 0 = true ∧
    ∃ k ∈ offering.mailbox.offered, offering.now < k + 125000000 := by decide +kernel
theorem witness_session_close : takenAt (state openSession) (req 1 0x8010 6 [2, 0] 0 2) 0 = true ∧
    (openSession.session 2).st = .opened ∧ openSession.sessionJobs 2 = 0 ∧
    ({ openSession with jobs := [(0, { job0 with session := 2 })] } : Chip).sessionJobs 2 ≠ 0 := by decide +kernel

/-- Each other row of its own, at an instance that takes it. -/
theorem witness_entry_writes : takenAt (state configured) (req 1 0xB000 7 [1] 0 2) 0 = true ∧
    takenAt (state configured) (req 1 0xB000 7 [0] 0 2) 0 = true ∧ configured.openJobs 0 = 0 ∧
    takenAt (state logged) (req 1 0x9000 2 (leBytes 4 5)) 0 = true ∧
    takenAt (state served) (req 1 0x6001 1 (leBytes 32 (word [(255, 1), (241, 3), (228, 1)])) 3 2) 3 = true ∧
    served.ringInUse 3 = false ∧ takenAt (state served) (req 1 0x6000 1 [7, 0]) 0 = true ∧
    takenAt (state served) (req 1 0x6000 2 [1]) 0 = true ∧ takenAt (state staged) (req 1 0x3002 9 [0] 7) 7 = true ∧
    takenAt (state served) (req 1 0xA000 1 (leBytes 4 1250)) 0 = true ∧
    takenAt (state served) (req 1 0x3001 1 [0] 4) 4 = true ∧ takenAt (state served) (req 1 0x3001 3 (leBytes 4 500) 4) 4 = true ∧
    takenAt (state served) (req 1 0x4000 2 [9]) 0 = true ∧
    takenAt (state configured) (req 1 0xB000 1 (leBytes 8 4096) 0 2) 0 = true := by decide +kernel

/-- The write of the repair threshold, its entry, and the state after it. -/
def write9 : MgmtReq := req 1 0x4000 2 [9]
def entry9 : Entry := keptE 0x4000 2 tyU8 3 4 1
theorem witness_counts : findEntry 0x4000 2 = some entry9 ∧ selected write9 entry9 = [0] ∧
    served.domainStatus entry9 0 = stOK ∧ (putEntry write9 entry9 0 (state served)).1 = stOK ∧ isPath write9.path = true ∧
    (putEntry write9 entry9 0 (state served)).2.chip.mgmt.paths.length = 4 ∧
    ((after (.dictWrite write9) (state served)).chip.path 0).replay.find? (fun x => x.req = reqMessage write9) =
      some ⟨reqMessage write9, reply 1 0 1 1⟩ ∧
    took (state served) write9 entry9 (putEntry write9 entry9) ≠ [] ∧
    took ((state served).handleWrite write9 entry9 (putEntry write9 entry9)) write9 entry9 (putEntry write9 entry9) ≠ [] ∧
    took (state { served with queues := [(0, queue0)] }) (req 1 0xB000 1 (leBytes 8 4096) 0 2) (keptE 0xB000 1 tyU64 1 0 128)
      (putEntry (req 1 0xB000 1 (leBytes 8 4096) 0 2) (keptE 0xB000 1 tyU64 1 0 128)) = [] := by unfold took; decide +kernel
theorem witness_next : headerOk (req 3 0x1000 7) = true ∧ (∃ e ∈ dictionary, entryKey 0x1000 7 < e.key) ∧
    ∀ e ∈ dictionary, e.key ≤ entryKey 0xB003 1 := by decide +kernel
theorem test_dict_next_none : answers (.dictNext (req 3 0xB003 1)) (bs := reply 3 stNoSuchEntry 2 0) := by unfold answers; decide +kernel
/-- A write to an enabled queue: QUEUE_ACTIVE, counted nowhere. -/
theorem test_queue_active : let t := after (.dictWrite (req 1 0xB000 1 (leBytes 8 4096) 0 2)) (state { served with queues := [(0, queue0)] })
    (t.chip.mgmt.configCount, t.chip.sent) = (0, [.mgmt 2 1 (reply 1 stQueueActive 4 0 0)]) := by decide +kernel
/-- The dictionary is in ascending order, which R624 and the search for an entry rely on. -/
theorem test_dictionary_ascends : (dictionary.zip (dictionary.drop 1)).all (fun e => e.1.key < e.2.key) = true := by decide +kernel
theorem witness_queries : (req 0 0x1000 2).wf = true ∧ (state served).takesRequest (req 0 0x1000 2) = true ∧
    (req 0 0x1000 2).op = 0 := by decide +kernel
/-- In the ROM phase entries from 0x2000 on do not answer yet. -/
theorem witness_queries_in_rom : let r := req 3 0x2000 0
    r.wf = true ∧ r.op = 3 ∧ romPhase.takesRequest r = true ∧ romPhase.chip.romPhase = true ∧ r.index / 4096 = 2 ∧
      (nextResponse r).status ≠ stValueRange := by decide +kernel

/-! ## MCTP control (R612, R613) -/

theorem test_set_eid : let t := after (.setEndpointId 0 33) (state served)
    ((t.chip.path 0).eid, t.chip.sent) = (33, [.control 0 1 [0, 0, 33, 0]]) := by decide +kernel
theorem test_get_eid : (after (.getEndpointId 0) (state served)).chip.sent = [.control 0 2 [0, 0, 0, 0]] := by decide +kernel
theorem test_unsupported : (after (.unsupportedControlCommand 0 9) (state served)).chip.sent = [.control 0 9 [5]] := by decide +kernel
theorem witness_control : (state served).takesControl 0 = true ∧ 0 < served.mgmt.paths.length ∧ (33 : Nat) ≠ 0 ∧ 33 < 255 ∧
    (9 : Nat) ∉ [1, 2, 4, 5, 6] := by decide +kernel

/-! ## The sequencer (R29, R33 to R35) -/

/-- Two events of stamp 4, of which that with the lower rank goes first whichever came first; they are handled from tick 7 on. -/
def event (rank : Nat) (i : Instr) : Stamped := { stamp := 4, rank := rank, source := [0], event := i }
def seqState (n : Nat) : State :=
  { state (warm served n) with inbox := [event 2 (.fault ⟨2, 5, 0, 9⟩), event 5 (.fault ⟨2, 6, 0, 9⟩)] }
theorem test_events_wait : (match step (seqState 6) with
    | .next t => some (t.chip.tick.count, t.inbox.length, (t.chip.bead 5).svc)
    | _ => none) = some (7, 2, .inService) := by decide +kernel
theorem test_event_handled : (match step (seqState 7) with
    | .next t => some (t.inbox.length, (t.chip.bead 5).svc, (t.chip.flog.recs.find? 0).map (·.stamp))
    | _ => none) = some (1, .fenced, some 4) := by decide +kernel
theorem witness_events : (seqState 7).pending = [] ∧ (seqState 7).chip.clocked = true ∧ 4 + 3 ≤ (seqState 7).chip.tick.count ∧
    (seqState 6).chip.tick.count < 4 + 3 ∧ (seqState 7).inbox.Pairwise (fun a b => a.key.le b.key = true) ∧
    (Instr.fault ⟨2, 7, 0, 9⟩).wf = true ∧ (eventOf (.fault ⟨2, 7, 0, 9⟩)).isSome = true ∧
    eventOf (.add 5) = none := by decide +kernel
/-- A fault found inside the part stands before an event of the same stamp and a lower rank, and behind none. -/
def foundState : State :=
  let s := seqState 7
  { s with chip := { s.chip with raised := [{ stamp := 4, source := [0, 6], what := .hw ⟨2, 7, 0, 9⟩ }] },
           inbox := [event 5 (.fault ⟨2, 6, 0, 9⟩)] }
theorem test_found_handled : (match step foundState with
    | .next t => some (t.inbox.length, t.chip.raised.length, (t.chip.bead 7).svc)
    | _ => none) = some (1, 0, .fenced) := by decide +kernel
theorem witness_found : foundState.pending = [] ∧ foundState.chip.clocked = true ∧ 4 + 3 ≤ foundState.chip.tick.count ∧
    (∀ r ∈ foundState.chip.raised.head?, ∀ e ∈ foundState.inbox.head?, r.key.le e.key = true) ∧
    (∀ r ∈ foundState.chip.raised.head?, r.key.le (event 0 (.fault ⟨2, 6, 0, 9⟩)).key = false) ∧
    foundState.chip.raised.Pairwise (fun a b => a.key.le b.key = true) := by decide +kernel

end Sys2Proof.Tests
end

