-- ==== Sys2Proof/Tests/Slice0.lean ====
section
/-! SUPPORT. Smoke tests of WellFormed with an ill-formed term for each check, the tests of the step and of the table's words,
and states that meet the hypotheses of the statements about the whole machine and about numbers. The other tests of the model
stand in the files beside this one. -/
namespace Sys2Proof.Tests

open Sys2Proof Sys2Proof.Machine Sys2Proof.Claims
set_option Elab.async false

/-! ## WellFormed: an ill-formed term for each check -/

/-- The commands whose one operand is a Bead. -/
def beadCommands1 : List (Nat → Instr) :=
  [.endStream, .stepBegin, .stepEnd, .loopBegin, .loopEnd, .decide, .tableSwap, .barrier, .yield, .mma, .chainProduct,
   .chainAttention, .scorePass, .chainMlp, .copy, .convert, .add, .subtract, .multiply, .fusedMultiplyAdd, .maximum,
   .minimum, .absoluteValue, .negate, .relu, .leakyRelu, .scalarAffine, .laneSum, .laneMaximum, .rngContext, .randBits,
   .randUniform, .randUniformOpen, .randNormal, .exp2, .exp, .log2, .ln, .recip, .div, .rsqrt]
def beadCommands2 : List (Nat → Instr) :=
  [.sqrt, .eval, .gauss, .tableLoad, .layerNormalisation, .rmsNormalisation, .groupNormalisation, .softMaximum,
   .statisticsOnly, .apply, .complete, .loupeCompare, .route, .roundWaitExpiry, .padFill, .convGather, .haloCheck,
   .resample, .regroup, .dmaCopy, .gatherByList, .scatterByList, .sessionInputDecrypt, .sessionOutputEncrypt,
   .multicastCopy, .haloSend, .rowStream, .walk, .append, .dropBelow, .scoreAdd, .truncateFrom, .syncPost, .syncFill,
   .syncDrain, .syncOpen, .syncClose, .syncContribute, .decodeInput, .endOfInput, .beadProgressExpiry]
theorem test_wf_beads : (beadCommands1 ++ beadCommands2).all (fun i => !(i 600).wf && (i 599).wf) = true := by decide +kernel

/-- Commands of which each breaks one check on the number of a unit. -/
def badUnits : List Instr :=
  [.loadSetting 128, .unloadSetting 128, .acceptJob 128, .wakeComplete 5, .idleDelayExpiry 5, .facetReset 5, .remirror 20,
   .stackReturn 20, .stackReturnTimeout 20, .stackFault 20 0, .retrainStart 20 false, .sliceEnd 640 true, .pcLoss 640 0,
   .ideCheckFail 2, .headReset 2, .ideKmExchange 2, .ringResumeExpiry 4096, .getEndpointId 4, .getMessageTypeSupport 4,
   .getVendorDefinedMessageSupport 4, .spdmRequest 6 .getVersion, .spdmVendorRequest 6 0, .allReduceSum 600 [],
   .reduceScatterSum 600 [], .allGather 600 [], .allReduceMinimum 600 [], .selfTestComplete 600 true, .edgeRetryExhausted 18]
/-- Commands of which each breaks one check on a field beside a unit. -/
def badFields : List Instr :=
  [.tickSyncPulse 256, .bankCollisionReplay 600 0 [], .bankCollisionReplay 0 4 [], .bankCollisionReplay 0 0 [⟨7, 0, false, none⟩],
   .bankCollisionReplay 0 0 [⟨0, 8192, false, none⟩], .bankCollisionReplay 0 0 [⟨0, 8191, true, none⟩], .bankCollisionReplay 0 0 [⟨0, 0, false, some [(64, 1)]⟩], .bankCollisionReplay 0 0 [⟨0, 0, true, some [(128, 1)]⟩],
   .submissionDoorbell 2 0 4 0, .submissionDoorbell 0 0 4 (2 ^ 32), .journalDoorbell 2 0 4 0, .journalDoorbell 0 0 4 (2 ^ 32),
   .cancelDoorbell 2 0 4 0, .cancelDoorbell 0 0 4 (2 ^ 32), .barrierRelease 0 1024, .tableLoadComplete 600 0,
   .tableLoadComplete 0 8, .fillAdmit 600 0, .fillAdmit 0 1024, .fillLand 600 0, .fillLand 0 1024, .refresh 640 0, .refresh 0 64,
   .tamper 65536]
def badFaults : List Instr :=
  [.fault ⟨256, 0, 0, 0⟩, .fault ⟨1, 65536, 0, 0⟩, .fault ⟨1, 0, 256, 0⟩, .fault ⟨1, 0, 0, 2 ^ 32⟩, .stackFault 0 (2 ^ 32),
   .domainReturn (.segment 5 0) true, .domainReturn (.segment 0 8) true, .domainReturn (.facet 5) true, .domainReturn (.pair 8) true,
   .thermalReading ⟨[], [0, 0], 0, List.replicate 20 0⟩, .thermalReading ⟨List.replicate 40 0, [0], 0, List.replicate 20 0⟩,
   .thermalReading ⟨List.replicate 40 0, [0, 0], 0, []⟩, .telemetryIntervalEnd ⟨2 ^ 32, List.replicate 8 0⟩,
   .telemetryIntervalEnd ⟨0, []⟩, .telemetryIntervalEnd ⟨0, List.replicate 8 (2 ^ 32)⟩]
def badMemory : List Instr :=
  [.sliceBegin 640 .retrain, .sliceBegin 0 (.repair 64 0), .sliceBegin 0 (.repair 0 32768), .softRepair 640 ⟨0, 0⟩ [], .softRepair 0 ⟨64, 0⟩ [],
   .softRepair 0 ⟨0, 32768⟩ [], .softRepair 0 ⟨0, 0⟩ [⟨32, 0, 1⟩], .uncorrectableRead 640 0 0 ⟨[], []⟩ .scrub,
   .uncorrectableRead 0 8388608 0 ⟨[], []⟩ .scrub, .uncorrectableRead 0 0 8 ⟨[], []⟩ .scrub,
   .uncorrectableRead 0 0 0 ⟨[⟨36, 1⟩], []⟩ .scrub, .uncorrectableRead 0 0 0 ⟨[], [⟨0, 256⟩]⟩ .scrub,
   .uncorrectableRead 0 0 0 ⟨[], []⟩ (.host 2), .uncorrectableRead 0 0 0 ⟨[], []⟩ (.bead 600), .hbmPatrolScrub 640 0 [],
   .hbmPatrolScrub 0 8388608 [], .hbmPatrolScrub 0 0 [⟨8, 0, 1⟩], .locketPatrolScrub (.locketRow 2400 0) .corrected,
   .locketPatrolScrub (.locketRow 0 8192) .corrected, .locketPatrolScrub (.casketClean 5) .corrected,
   .locketPatrolScrub (.casketDirty 5 0) .corrected, .locketPatrolScrub (.casketDirty 0 96) .corrected,
   .locketPatrolScrub (.tableStore 600 0) .corrected, .locketPatrolScrub (.tableStore 0 8) .corrected,
   .locketPatrolScrub (.syncStore 600 0) .corrected, .locketPatrolScrub (.syncStore 0 1023) .corrected]
def badHeads : List Instr :=
  [.hostWindowRead 2 0 0, .hostWindowRead 0 (2 ^ 64) 0, .hostWindowWrite 2 0 [], .hostWindowWrite 0 (2 ^ 64) [], .hostSnoop 2 0,
   .hostSnoop 0 (2 ^ 58), .joinCookieWrite 2 4 0, .joinCookieWrite 0 4 (2 ^ 32), .warmResetRequest (.bar 2 4 1),
   .warmResetRequest (.bar 0 4 (2 ^ 32)), .warmResetRequest (.dict (req 1 0x2001 3)),
   .pkgResetDeassert ⟨8, 0, 0, 0⟩, .pkgResetDeassert ⟨0, 2, 0, 0⟩, .pkgResetDeassert ⟨0, 0, 2, 0⟩, .pkgResetDeassert ⟨0, 0, 0, 2⟩,
   .linkUp 2 16 1, .linkUp 0 2 1, .linkUp 0 16 0, .linkUp 0 16 5, .hdmDecoderCommit 2 0, .hdmDecoderCommit 0 (2 ^ 64),
   .i3cDynamicAddressAssignment 2 0, .i3cDynamicAddressAssignment 0 128]
def badStrand : List Instr :=
  let b := block 0 0 true
  let m := message 0 0 0
  [.strandBlockReceive 12 b, .strandBlockReceive 0 { b with type := 16 }, .strandBlockReceive 0 { b with seq := 4096 },
   .strandBlockReceive 0 { b with ack := 4096 }, .strandBlockReceive 0 { b with creditVc := 4 },
   .strandBlockReceive 0 { b with credit := 16384 }, .strandBlockReceive 0 { b with resv := 16 }, .strandRetryRequest 12 0,
   .strandRetryRequest 0 4096, .strandMessageReceive 12 m, .strandMessageReceive 0 { m with cls := 16 },
   .strandMessageReceive 0 { m with ring := 4096 }, .strandMessageReceive 0 { m with src := 8192 },
   .strandMessageReceive 0 { m with dst := 8192 }, .strandMessageReceive 0 { m with dest := 256 },
   .strandMessageReceive 0 { m with object := 1024 }, .strandMessageReceive 0 { m with length := 131072 },
   .strandMessageReceive 0 { m with resv := 2 ^ 51 }, .strandMessageReceive 0 { m with cipher := [] },
   .strandMessageReceive 0 { m with tag := [] }]
def badTimes : List Instr :=
  [.timeSyncSend 12 0, .timeSyncSend 0 256, .timeSyncReceive 12 sync, .timeSyncReceive 0 { sync with tTx := 2 ^ 72 },
   .timeSyncReceive 0 { sync with echoTx := 2 ^ 72 }, .timeSyncReceive 0 { sync with echoRx := 2 ^ 72 },
   .timeSyncReceive 0 { sync with arrival := 2 ^ 72 }, .timeSyncReceive 0 { sync with refPart := 8192 },
   .timeSyncReceive 0 { sync with depth := 64 }, .linkTraining 12 0 0, .linkTraining 0 8192 0, .linkTraining 0 0 256,
   .strandPortFault 12 0, .strandPortFault 0 256, .portRetrainComplete 12 0, .portRetrainComplete 0 256, .ringCommitted ⟨4096, 0⟩ 0,
   .ringCommitted ⟨0, 12⟩ 0, .ringCommitted ⟨0, 0⟩ (2 ^ 32), .ringAll ⟨4096, 0⟩ 0, .ringAll ⟨0, 12⟩ 0, .ringAll ⟨0, 0⟩ (2 ^ 32), .ringFence 4096 0 0, .ringFence 0 (2 ^ 32) 0, .ringFence 0 0 12,
   .ringResume ⟨4096, 0⟩ 0 0, .ringResume ⟨0, 12⟩ 0 0, .ringResume ⟨0, 0⟩ (2 ^ 32) 0,
   .ringResume ⟨0, 0⟩ 0 (2 ^ 32)]
/-- Requests of which each breaks one field of Table 18.2, and requests for a command that is not theirs. -/
def badRequests : List Instr :=
  let r := req 0 0x1000 2
  [.dictRead { r with path := 4 }, .dictRead { r with tag := 8 }, .dictRead { r with op := 16 }, .dictRead { r with select := 4 },
   .dictRead { r with reqId := 256 }, .dictRead { r with index := 65536 }, .dictRead { r with sub := 256 },
   .dictRead { r with inst := 4096 }, .dictRead { r with mask := 2 ^ 64 }, .dictRead { r with offset := 2 ^ 32 },
   .dictRead { r with length := 65536 }, .dictRead { r with op := 1 }, .dictWrite r, .dictWrite (req 1 0x2001 2), .dictDescribe r,
   .dictNext r, .bootGo (req 1 0x8001 2), .bundleCommit (req 1 0x8002 3), .lcRequest (req 1 0x8003 1),
   .sessionRequest (req 1 0x8010 2), .sessionAccept (req 1 0x8010 4), .sessionClose (req 0 0x8010 6), .tableCommit (req 1 0x3002 8),
   .queueEnable (req 1 0xB000 6), .faultLogAck (req 1 0x9000 1), .strandIdentityWrite (req 1 0x6000 3),
   .telemetryIntervalWrite (req 1 0xA000 2), .ringEntryWrite (req 1 0x6001 2)]
def badCodes : List Instr :=
  [.setEndpointId 4 1, .setEndpointId 0 256, .getMctpVersionSupport 4 0, .getMctpVersionSupport 0 256,
   .unsupportedControlCommand 4 9, .unsupportedControlCommand 0 256, .unsupportedControlCommand 0 5]
def illFormed : List Instr :=
  badUnits ++ badFields ++ badFaults ++ badMemory ++ badHeads ++ badStrand ++ badTimes ++ badRequests ++ badCodes

/-- A write of another width, or beyond the doorbell pages, is a write that the part discards (R542, Table 16.2). -/
theorem test_pages : (match exec (.submissionDoorbell 0 128 4 1) (state served) with
    | .next t => t.chip.queues == served.queues
    | _ => false) = true ∧ (match exec (.joinCookieWrite 0 5 7) (state served) with
    | .next t => t.chip.pkg.joinCookie
    | _ => 1) = 0 := by decide +kernel

theorem test_wf_refuses : illFormed.all (fun i => !i.wf) = true := by decide +kernel
/-- The refusal has its name. -/
theorem test_exec_refuses : ∀ i ∈ illFormed, (match exec i State.reset with
    | .refused .noSuchOperand => true
    | _ => false) = true := by decide +kernel

/-! ## The step and the table's words -/

theorem test_reset_otp : State.reset.otp.legal = true := by decide
/-- No row of the table gives bits. -/
theorem test_no_words : decodeTableWord 64 5 = none ∧ State.reset.withFetchWord 64 5 = State.reset := ⟨rfl, rfl⟩
/-- The command at the front runs, and the next one stays. -/
theorem test_step : (match step { state served with pending := [.joinCookieWrite 0 4 9, .warmReset] } with
    | .next t => some (t.chip.pkg.joinCookie, t.pending)
    | _ => none) = some (9, [.warmReset]) := by decide +kernel
/-- With nothing to do a tick passes. -/
theorem test_idle : (match step (state served) with
    | .next t => some t.chip.now
    | _ => none) = some 1 := by decide +kernel

/-! ## Witnesses: the whole machine -/

theorem witness_wf : (Instr.warmReset).wf = true ∧ (Instr.copy 600).wf = false ∧ burns (.copy 0) = false := by decide
theorem witness_fuses : booting.fusesSound = true ∧ (match step { booting with pending := [.paveReady] } with
    | .next t => some t.otp.svn
    | _ => none) = some 3 := by decide +kernel
/-- A copy of the bench answers a next state, from memories in their form. -/
theorem witness_computes : Instr.copy 0 ∈ computes 0 ∧ (match exec (.copy 0) (laneBench 0x00).state with
    | .next _ => true
    | _ => false) = true ∧ Mem.wf (laneBench 0x00).state.chip.locket = true := by unfold computes; decide +kernel
theorem witness_vector_frame : (Instr.add 0, 2, 0x02) ∈ vectorOps 0 ∧ Mem.wf (laneBench 0x02).state.chip.locket = true ∧
    (match exec (.add 0) (laneBench 0x02).state with
    | .next _ => true
    | _ => false) = true := by unfold vectorOps; decide +kernel
theorem witness_packed : Mem.wf (cells 5 [1, 2]) = true ∧ (6 : Nat) ∈ [4, 6, 8, 16, 32] := by decide +kernel
/-- Six-bit elements 0 and 1 share byte 0. -/
theorem test_packed : packedPut [] 0 6 1 0x3F = [(0, 0xC0), (1, 0x0F)] := by decide +kernel
theorem witness_forms : Mem.wf served.hbm = true ∧ Mem.wf (queueBench (loadDesc 592) []).host = true ∧ Mem.wf served.locket = true := by
  decide +kernel
/-- A job at its end is not fenced; a bound one and a waiting one are; a cancelled one ends. -/
theorem witness_fenced : doneJob.fenceable = false ∧ job0.ledger = .accepted ∧ job0.phase = .bound ∧
    fenceEnd 8 { job0 with phase := .waiting } none = none ∧
    fenceEnd 8 { job0 with phase := .waiting, cancel := true } none = some stCancelled := by decide +kernel

/-! ## Witnesses: numbers, the dictionary's order and queues -/

theorem witness_exact : fpVal (fpFmt 0) 0x3FC00000 ≠ .nan ∧ 0x3FC00000 < 2 ^ fmtBits 0 := by decide +kernel
/-- -129 saturates to -128 and counts; -128 does not. -/
theorem test_saturates : (narrow 8 0 0 false true (.fin true 129 0), narrow 8 0 0 false true (.fin true 128 0)) =
    (⟨0x80, 1, 0⟩, ⟨0x80, 0, 0⟩) := by decide +kernel
/-- 3/2 to nearest even is 2, 5/2 is 2; to odd 3/2 is 1; with r = 7 half a unit is not enough, with 8 it is. -/
theorem test_rounding : (roundUnits 0 0 3 1, roundUnits 0 0 5 1, roundUnits 1 0 3 1, roundUnits 2 7 3 1, roundUnits 2 8 3 1) =
    (2, 2, 1, 1, 2) := by decide +kernel
theorem witness_rounding : (7 : Nat) < 16 ∧ (8 : Nat) = 16 * (3 % 2 ^ 1) / 2 ^ 1 ∧ 3 % 2 ^ 1 ≠ 0 ∧ 4 % 2 ^ 1 = 0 ∧
    roundUnits 1 0 3 1 * 2 ^ 1 ≠ 3 := by decide +kernel
theorem witness_queues : (configured.queue 0).enable = 0 ∧ reqNum (req 1 0xB000 7 [1]) = 1 ∧
    (putQueueEnable (req 1 0xB000 7 [1]) entry9 0 (state configured)).1 = stOK ∧
    (putQueueEnable (req 1 0xB000 7 [0]) entry9 0 (state configured)).1 = stOK ∧ reqNum (req 1 0xB000 7 [0]) = 0 ∧
    ((bells queue0 []).chip.queue 0).enable = 1 ∧ (bells queue0 []).chip.pkg.power = .running ∧ (bells queue0 []).chip.pkg.devState = 1 ∧
    ((bells queue0 []).chip.queue 0).active = 0 ∧ (bells queue0 []).chip.headOpen 0 = true ∧
    (bells queue0 []).chip.ioClosed (bells queue0 []).otp.production 0 = false := by decide +kernel

end Sys2Proof.Tests
end

section
/-!
Number formats (R113 to R142): packed elements read and written bit by bit, the three rounding modes as distances, exact sums,
products and comparisons counted in a common unit, and the codes of exact values.
-/
namespace Sys2Proof.Machine

/-! ## Bytes and their bits -/

/-- Bit `j` of a little-endian number is bit `j % 8` of its byte `j / 8`. -/
theorem testBit_leNat (bs : List Byte) (j : Nat) : (leNat bs).testBit j = (bs.getD (j / 8) 0).getLsbD (j % 8) := by
  induction bs generalizing j with
  | nil => simp [leNat]
  | cons b bs ih =>
    have hsplit : leNat (b :: bs) = 2 ^ 8 * leNat bs + b.toNat := by rw [leNat]; omega
    rw [hsplit, Nat.testBit_two_pow_mul_add _ b.isLt]
    by_cases hj : j < 8
    · rw [if_pos hj, Nat.div_eq_of_lt hj, Nat.mod_eq_of_lt hj, List.getD_cons_zero, BitVec.testBit_toNat]
    · have hq : j / 8 = (j - 8) / 8 + 1 := by omega
      have hr : j % 8 = (j - 8) % 8 := by omega
      rw [if_neg hj, ih, hq, hr, List.getD_cons_succ]

theorem length_leBytes (n v : Nat) : (leBytes n v).length = n := by
  induction n generalizing v with
  | zero => rfl
  | succ n ih => rw [leBytes, List.length_cons, ih]

/-- Bit `b` of byte `a` of a number is its bit `8 * a + b`. -/
theorem getLsbD_leBytes {n a b : Nat} (v : Nat) (ha : a < n) (hb : b < 8) :
    ((leBytes n v).getD a 0).getLsbD b = v.testBit (8 * a + b) := by
  induction n generalizing a v with
  | zero => omega
  | succ n ih =>
    cases a with
    | zero =>
      rw [leBytes, List.getD_cons_zero, BitVec.getLsbD_ofNat, decide_eq_true hb, Bool.true_and, Nat.mul_zero, Nat.zero_add]
    | succ a =>
      have hshift : v / 256 = v / 2 ^ 8 := rfl
      rw [leBytes, List.getD_cons_succ, ih _ (by omega), hshift, Nat.testBit_div_two_pow]
      congr 1; omega

theorem Mem.getD_readN (m : Mem) (k n i : Nat) : (m.readN k n).getD i 0 = if i < n then m.read (k + i) else 0 := by
  induction n generalizing k i with
  | zero => simp [Mem.readN]
  | succ n ih =>
    cases i with
    | zero => simp [Mem.readN]
    | succ i =>
      have hk : k + 1 + i = k + (i + 1) := by omega
      rw [Mem.readN, List.getD_cons_succ, ih, hk]; simp only [Nat.add_lt_add_iff_right]

/-- Bit `b` of the memory counted from byte `base` up, the least significant bit of a byte first (R119). -/
def Mem.bitAt (m : Mem) (base b : Nat) : Bool := (m.read (base + b / 8)).getLsbD (b % 8)

theorem Mem.bitAt_add (m : Mem) (base q j : Nat) : m.bitAt (base + q) j = m.bitAt base (8 * q + j) := by
  have hq : base + (8 * q + j) / 8 = base + q + j / 8 := by omega
  have hr : (8 * q + j) % 8 = j % 8 := by omega
  rw [Mem.bitAt, Mem.bitAt, hq, hr]

theorem Mem.testBit_readLE (m : Mem) {k n j : Nat} (hj : j < 8 * n) : (m.readLE k n).testBit j = m.bitAt k j := by
  rw [Mem.readLE, testBit_leNat, Mem.getD_readN, if_pos (by omega), Mem.bitAt]

/-- The bits of a number stored at byte `k` are the number's; every other bit of the memory stays. -/
theorem Mem.bitAt_writeN_leBytes (m : Mem) (base q n v b : Nat) (h : Mem.wf m = true) :
    (m.writeN (base + q) (leBytes n v)).bitAt base b =
      if 8 * q ≤ b ∧ b < 8 * (q + n) then v.testBit (b - 8 * q) else m.bitAt base b := by
  rw [Mem.bitAt, Mem.read_writeN m _ _ _ h, length_leBytes]
  by_cases hb : 8 * q ≤ b ∧ b < 8 * (q + n)
  · have hbit : 8 * (base + b / 8 - (base + q)) + b % 8 = b - 8 * q := by omega
    rw [if_pos hb, if_pos (by omega), getLsbD_leBytes v (by omega) (by omega), hbit]
  · rw [if_neg hb, if_neg (by omega), Mem.bitAt]

/-! ## Packed elements (R119, R360) -/

/-- A field of `bits` bits replaced in a number: its bits are the new field's, every other bit stays. -/
theorem testBit_replaceField (w s bits c j : Nat) (hc : c < 2 ^ bits) :
    (w - ((w >>> s) % 2 ^ bits) <<< s + c <<< s).testBit j =
      if s ≤ j ∧ j < s + bits then c.testBit (j - s) else w.testBit j := by
  have hlow : w % 2 ^ s < 2 ^ s := Nat.mod_lt _ (Nat.two_pow_pos s)
  have hold : (w >>> s) % 2 ^ bits < 2 ^ bits := Nat.mod_lt _ (Nat.two_pow_pos bits)
  have hw : w = 2 ^ s * (2 ^ bits * (w >>> s / 2 ^ bits) + (w >>> s) % 2 ^ bits) + w % 2 ^ s := by
    rw [Nat.div_add_mod, Nat.shiftRight_eq_div_pow, Nat.div_add_mod]
  generalize hhi : w >>> s / 2 ^ bits = hi at hw
  generalize (w >>> s) % 2 ^ bits = old at hw hold ⊢
  generalize w % 2 ^ s = low at hw hlow
  have hnew : w - old <<< s + c <<< s = 2 ^ s * (2 ^ bits * hi + c) + low := by
    rw [Nat.shiftLeft_eq, Nat.shiftLeft_eq, hw, Nat.mul_add, Nat.mul_add, Nat.mul_comm old, Nat.mul_comm c]; omega
  rw [hnew, Nat.testBit_two_pow_mul_add _ hlow, Nat.testBit_two_pow_mul_add _ hc, hw,
    Nat.testBit_two_pow_mul_add _ hlow, Nat.testBit_two_pow_mul_add _ hold]
  by_cases hj : j < s
  · rw [if_pos hj, if_pos hj, if_neg (by omega)]
  · by_cases hf : j - s < bits
    · rw [if_neg hj, if_pos hf, if_pos (by omega)]
    · rw [if_neg hj, if_neg hf, if_neg (by omega), if_neg hj, if_neg hf]

/-- The bytes from the one in which bit `o` stands hold the whole field of `bits` bits at `o`. -/
theorem field_le_bytes (o bits : Nat) : o % 8 + bits ≤ 8 * ceilDiv (o % 8 + bits) 8 := by
  rw [ceilDiv]; omega

theorem testBit_packedGet (m : Mem) (base bits i j : Nat) :
    (packedGet m base bits i).testBit j = (decide (j < bits) && m.bitAt base (bits * i + j)) := by
  rw [packedGet, Nat.testBit_mod_two_pow, Nat.testBit_shiftRight]
  by_cases hj : j < bits
  · have hfit := field_le_bytes (bits * i) bits
    have hbit : 8 * (bits * i / 8) + (bits * i % 8 + j) = bits * i + j := by omega
    rw [Mem.testBit_readLE m (by omega), Mem.bitAt_add, hbit]
  · simp [hj]

/-- Writing an element changes the bits of its own field alone. -/
theorem bitAt_packedPut (m : Mem) (base bits i code b : Nat) (h : Mem.wf m = true) :
    (packedPut m base bits i code).bitAt base b =
      if bits * i ≤ b ∧ b < bits * i + bits then (code % 2 ^ bits).testBit (b - bits * i) else m.bitAt base b := by
  have hfit := field_le_bytes (bits * i) bits
  rw [packedPut, Mem.bitAt_writeN_leBytes m _ _ _ _ _ h,
    testBit_replaceField _ _ _ _ _ (Nat.mod_lt _ (Nat.two_pow_pos bits))]
  by_cases hb : bits * i ≤ b ∧ b < bits * i + bits
  · have hpos : b - 8 * (bits * i / 8) - bits * i % 8 = b - bits * i := by omega
    rw [if_pos (by omega), if_pos (by omega), if_pos hb, hpos]
  · rw [if_neg hb]
    split
    · next hin =>
      have hpos : 8 * (bits * i / 8) + (b - 8 * (bits * i / 8)) = b := by omega
      rw [if_neg (by omega), Mem.testBit_readLE m (by omega), Mem.bitAt_add, hpos]
    · rfl

theorem wf_packedPut (m : Mem) (base bits i code : Nat) (h : Mem.wf m = true) :
    Mem.wf (packedPut m base bits i code) = true := by
  rw [packedPut]; exact Mem.wf_writeN _ _ _ h

theorem packedGet_packedPut_same (m : Mem) (base bits i code : Nat) (h : Mem.wf m = true) :
    packedGet (packedPut m base bits i code) base bits i = code % 2 ^ bits := by
  refine Nat.eq_of_testBit_eq fun j => ?_
  rw [testBit_packedGet, bitAt_packedPut m _ _ _ _ _ h]
  by_cases hj : j < bits
  · rw [if_pos (by omega), Nat.add_sub_cancel_left, decide_eq_true hj, Bool.true_and]
  · rw [decide_eq_false hj, Bool.false_and, Nat.testBit_mod_two_pow, decide_eq_false hj, Bool.false_and]

/-- The fields of two elements of one packing have no bit in common. -/
theorem fields_disjoint {bits i k j : Nat} (hk : k ≠ i) (hj : j < bits) :
    ¬ (bits * i ≤ bits * k + j ∧ bits * k + j < bits * i + bits) := by
  rcases Nat.lt_or_gt_of_ne hk with hlt | hgt
  · have hle : bits * (k + 1) ≤ bits * i := Nat.mul_le_mul_left bits hlt
    rw [Nat.mul_succ] at hle; omega
  · have hle : bits * (i + 1) ≤ bits * k := Nat.mul_le_mul_left bits hgt
    rw [Nat.mul_succ] at hle; omega

theorem packedGet_packedPut_ne (m : Mem) (base bits i code : Nat) {k : Nat} (h : Mem.wf m = true) (hk : k ≠ i) :
    packedGet (packedPut m base bits i code) base bits k = packedGet m base bits k := by
  refine Nat.eq_of_testBit_eq fun j => ?_
  rw [testBit_packedGet, testBit_packedGet, bitAt_packedPut m _ _ _ _ _ h]
  by_cases hj : j < bits
  · rw [if_neg (fields_disjoint hk hj)]
  · rw [decide_eq_false hj, Bool.false_and, Bool.false_and]

theorem read_packedPut_outside (m : Mem) (base bits i code : Nat) {a : Nat} (h : Mem.wf m = true)
    (ha : a < base + bits * i / 8 ∨ base + (bits * i + bits + 7) / 8 ≤ a) :
    (packedPut m base bits i code).read a = m.read a := by
  have hend : bits * i / 8 + ceilDiv (bits * i % 8 + bits) 8 = (bits * i + bits + 7) / 8 := by rw [ceilDiv]; omega
  rw [packedPut, Mem.read_writeN m _ _ _ h, length_leBytes, if_neg (by omega)]

/-- Settles O50: the bits of an element are its own, at every width. -/
theorem packedElementsReadBack : Obligations.PackedElementsReadBack := by
  unfold Obligations.PackedElementsReadBack
  intro m base bits i code h _
  exact ⟨wf_packedPut m base bits i code h, packedGet_packedPut_same m base bits i code h,
    fun k hk => packedGet_packedPut_ne m base bits i code h hk, fun a ha => read_packedPut_outside m base bits i code h ha⟩

/-! ## The rounding unit (R137 to R139) -/

theorem roundUnits_exact (mode r : Nat) {m k : Nat} (h : m % 2 ^ k = 0) : roundUnits mode r m k = m / 2 ^ k := by
  simp only [roundUnits, h, if_true, Nat.shiftRight_eq_div_pow]

theorem roundUnits_nearestEven (r : Nat) {m k : Nat} (h : m % 2 ^ k ≠ 0) :
    roundUnits 0 r m k =
      if 2 ^ k < 2 * (m % 2 ^ k) ∨ 2 * (m % 2 ^ k) = 2 ^ k ∧ m / 2 ^ k % 2 = 1 then m / 2 ^ k + 1 else m / 2 ^ k := by
  simp [roundUnits, h, Nat.shiftRight_eq_div_pow]

theorem roundUnits_odd (r : Nat) {m k : Nat} (h : m % 2 ^ k ≠ 0) :
    roundUnits 1 r m k = if m / 2 ^ k % 2 = 1 then m / 2 ^ k else m / 2 ^ k + 1 := by
  simp [roundUnits, h, Nat.shiftRight_eq_div_pow]

theorem roundUnits_stochastic (r : Nat) {m k : Nat} (h : m % 2 ^ k ≠ 0) :
    roundUnits 2 r m k = if 16 ≤ 16 * (m % 2 ^ k) / 2 ^ k + r then m / 2 ^ k + 1 else m / 2 ^ k := by
  simp [roundUnits, h, Nat.shiftRight_eq_div_pow]

/-- A magnitude is its whole units and a rest below one unit. -/
theorem units_add_rest (m k : Nat) : m = m / 2 ^ k * 2 ^ k + m % 2 ^ k ∧ m % 2 ^ k < 2 ^ k :=
  ⟨(Nat.div_add_mod' m (2 ^ k)).symm, Nat.mod_lt m (Nat.two_pow_pos k)⟩

/-- Nearest even is off by half a unit at most, and by exactly half only onto an even number (R137). -/
theorem roundUnits_nearestEven_distance (m k r : Nat) :
    2 * (roundUnits 0 r m k * 2 ^ k) ≤ 2 * m + 2 ^ k ∧ 2 * m ≤ 2 * (roundUnits 0 r m k * 2 ^ k) + 2 ^ k ∧
    (2 * (roundUnits 0 r m k * 2 ^ k) = 2 * m + 2 ^ k ∨ 2 * m = 2 * (roundUnits 0 r m k * 2 ^ k) + 2 ^ k →
      roundUnits 0 r m k % 2 = 0) := by
  obtain ⟨hm, hrest⟩ := units_add_rest m k
  by_cases hexact : m % 2 ^ k = 0
  · rw [roundUnits_exact 0 r hexact]; omega
  · rw [roundUnits_nearestEven r hexact]
    split
    · next hup => rw [Nat.add_mul, Nat.one_mul]; omega
    · next hdown => omega

/-- The first four bits below the unit are at most 15 (R139). -/
theorem firstFourBits_le (m k : Nat) : 16 * (m % 2 ^ k) / 2 ^ k ≤ 15 := by
  have hlt : 16 * (m % 2 ^ k) / 2 ^ k < 16 := by
    rw [Nat.div_lt_iff_lt_mul (Nat.two_pow_pos k)]
    have hrest := (units_add_rest m k).2
    omega
  omega

/-- Rounding to odd is within one unit, and odd wherever it is not exact (R138). -/
theorem roundUnits_odd_distance (m k r : Nat) :
    roundUnits 1 r m k * 2 ^ k < m + 2 ^ k ∧ m < roundUnits 1 r m k * 2 ^ k + 2 ^ k ∧
    (roundUnits 1 r m k * 2 ^ k ≠ m → roundUnits 1 r m k % 2 = 1) := by
  obtain ⟨hm, hrest⟩ := units_add_rest m k
  by_cases hexact : m % 2 ^ k = 0
  · rw [roundUnits_exact 1 r hexact]; omega
  · rw [roundUnits_odd r hexact]
    split
    · next hodd => omega
    · next heven => rw [Nat.add_mul, Nat.one_mul]; omega

/-- Settles O56: whole units and a rest, mode by mode. -/
theorem roundingFollowsItsModes : Obligations.RoundingFollowsItsModes := by
  unfold Obligations.RoundingFollowsItsModes
  refine ⟨fun m k r => roundUnits_nearestEven_distance m k r, fun m k r t _ ht => ?_,
    fun m k r => roundUnits_odd_distance m k r⟩
  subst ht
  exact ⟨firstFourBits_le m k, fun h => roundUnits_stochastic r h, fun h => roundUnits_exact 2 r h⟩

/-! ## Finite values counted in a common unit (R126, R131) -/

/-- At a unit at or below its own, a finite value is a whole number of units. -/
theorem scaledInt_eq (s : Bool) (m : Nat) (e x : Int) :
    scaledInt s m e x = (if s then -1 else 1) * ((m * 2 ^ (e - x).toNat : Nat) : Int) := by
  rw [scaledInt, Nat.shiftLeft_eq]
  cases s
  · exact (Int.one_mul _).symm
  · exact Int.neg_eq_neg_one_mul _

/-- A positive magnitude `d` binary places above the unit. -/
theorem scaledInt_false (m d : Nat) (x : Int) : scaledInt false m (x + d) x = (m * 2 ^ d : Nat) := by
  have hexp : (x + d - x).toNat = d := by omega
  rw [scaledInt_eq, hexp]; exact Int.one_mul _

theorem scaledInt_zero (s : Bool) (e x : Int) : scaledInt s 0 e x = 0 := by
  rw [scaledInt_eq, Nat.zero_mul]; exact Int.mul_zero _

/-- An integer, split in sign and magnitude, is itself at its own unit. -/
theorem scaledInt_natAbs (v x : Int) : scaledInt (decide (v < 0)) v.natAbs x x = v := by
  rw [scaledInt_eq, Int.sub_self, Int.toNat_zero, Nat.pow_zero, Nat.mul_one]
  by_cases hv : v < 0
  · simp only [hv, decide_true, if_true]; omega
  · simp only [hv, decide_false, Bool.false_eq_true, if_false]; omega

/-- A finer unit multiplies the count by a power of two. -/
theorem scaledInt_finer (s : Bool) (m : Nat) {e x y : Int} (hxy : x ≤ y) (hye : y ≤ e) :
    scaledInt s m e x = scaledInt s m e y * (2 ^ (y - x).toNat : Nat) := by
  have hexp : (e - x).toNat = (e - y).toNat + (y - x).toNat := by omega
  rw [scaledInt_eq, scaledInt_eq, hexp, Nat.pow_add, ← Nat.mul_assoc, Int.natCast_mul, Int.mul_assoc]

/-- The sign of a product, as a factor. -/
theorem signFactor_bne (s t : Bool) : (if s != t then (-1 : Int) else 1) = (if s then -1 else 1) * (if t then -1 else 1) := by
  cases s <;> cases t <;> rfl

theorem scaledInt_mul (s t : Bool) (m n : Nat) {e k x y : Int} (hx : x ≤ e) (hy : y ≤ k) :
    scaledInt (s != t) (m * n) (e + k) (x + y) = scaledInt s m e x * scaledInt t n k y := by
  have hexp : (e + k - (x + y)).toNat = (e - x).toNat + (k - y).toNat := by omega
  have hcount : m * n * 2 ^ ((e - x).toNat + (k - y).toNat) = m * 2 ^ (e - x).toNat * (n * 2 ^ (k - y).toNat) := by
    rw [Nat.pow_add, Nat.mul_mul_mul_comm]
  rw [scaledInt_eq, scaledInt_eq, scaledInt_eq, signFactor_bne, hexp, hcount, Int.natCast_mul]; ac_rfl

theorem fin_mul_fin (s t : Bool) (m n : Nat) (e k : Int) :
    (Val.fin s m e).mul (.fin t n k) = .fin (s != t) (m * n) (e + k) := rfl

/-- The sum of two finite values, in the coarsest unit that both are whole in. -/
def sumUnits (s t : Bool) (m n : Nat) (e k : Int) : Int := scaledInt s m e (min e k) + scaledInt t n k (min e k)

theorem sumUnits_finer (s t : Bool) (m n : Nat) {e k x : Int} (he : x ≤ e) (hk : x ≤ k) :
    scaledInt s m e x + scaledInt t n k x = sumUnits s t m n e k * (2 ^ (min e k - x).toNat : Nat) := by
  have hx : x ≤ min e k := Int.le_min.2 ⟨he, hk⟩
  rw [sumUnits, scaledInt_finer s m hx (Int.min_le_left e k), scaledInt_finer t n hx (Int.min_le_right e k), Int.add_mul]

/-- A sum of finite values is a zero when they cancel, and otherwise the signed count of units. -/
theorem fin_add_fin (s t : Bool) (m n : Nat) (e k : Int) :
    (∃ u, (Val.fin s m e).add (.fin t n k) = .fin u 0 0 ∧ sumUnits s t m n e k = 0) ∨
      (Val.fin s m e).add (.fin t n k) =
        .fin (decide (sumUnits s t m n e k < 0)) (sumUnits s t m n e k).natAbs (min e k) := by
  by_cases hzero : m = 0 ∧ n = 0
  · obtain ⟨rfl, rfl⟩ := hzero
    exact .inl ⟨s && t, by simp [Val.add], by simp [sumUnits, scaledInt_zero]⟩
  · have hif : (decide (m = 0) && decide (n = 0)) = false := by simpa using hzero
    by_cases hv : sumUnits s t m n e k = 0
    · exact .inl ⟨false, by rw [sumUnits] at hv; simp [Val.add, hif, hv, Val.zero], hv⟩
    · rw [sumUnits] at hv ⊢
      exact .inr (by simp only [Val.add, hif, hv, Bool.false_eq_true, if_false])

theorem fin_add_exact (s t : Bool) (m n : Nat) (e k x : Int) (he : x ≤ e) (hk : x ≤ k) :
    ∃ (u : Bool) (j : Nat) (z : Int), (Val.fin s m e).add (.fin t n k) = .fin u j z ∧
      ((j = 0 ∧ scaledInt s m e x + scaledInt t n k x = 0) ∨
        (x ≤ z ∧ scaledInt u j z x = scaledInt s m e x + scaledInt t n k x)) := by
  have hsum := sumUnits_finer s t m n he hk
  rcases fin_add_fin s t m n e k with ⟨u, hadd, hcancel⟩ | hadd
  · exact ⟨u, 0, 0, hadd, .inl ⟨rfl, by rw [hsum, hcancel, Int.zero_mul]⟩⟩
  · have hx : x ≤ min e k := Int.le_min.2 ⟨he, hk⟩
    refine ⟨_, _, _, hadd, .inr ⟨hx, ?_⟩⟩
    rw [scaledInt_finer _ _ hx (Int.le_refl _), scaledInt_natAbs, hsum]

theorem fin_lt_fin (s t : Bool) (m n : Nat) {e k x : Int} (he : x ≤ e) (hk : x ≤ k) :
    (Val.fin s m e).lt (.fin t n k) = true ↔ scaledInt s m e x < scaledInt t n k x := by
  have hx : x ≤ min e k := Int.le_min.2 ⟨he, hk⟩
  rw [scaledInt_finer s m hx (Int.min_le_left e k), scaledInt_finer t n hx (Int.min_le_right e k)]
  have hpos : (0 : Int) < (2 ^ (min e k - x).toNat : Nat) := Int.natCast_pos.2 (Nat.two_pow_pos _)
  exact decide_eq_true_iff.trans (Int.mul_lt_mul_right hpos).symm

/-- Settles O55: each operation keeps the count of units. -/
theorem arithmeticIsExact : Obligations.ArithmeticIsExact := by
  unfold Obligations.ArithmeticIsExact
  exact ⟨fun s t m n e k x he hk => fin_add_exact s t m n e k x he hk,
    fun s t m n e k x y he hk => ⟨s != t, m * n, fin_mul_fin s t m n e k, scaledInt_mul s t m n he hk⟩,
    fun s t m n e k x he hk => fin_lt_fin s t m n he hk⟩

/-! ## The fields of a floating-point code (R114) -/

/-- The mantissa field of a code. -/
def FpFmt.mantOf (f : FpFmt) (code : Nat) : Nat := code % 2 ^ f.mant

/-- The exponent field of a code. -/
def FpFmt.expOf (f : FpFmt) (code : Nat) : Nat := code / 2 ^ f.mant % 2 ^ f.expBits

/-- The sign of a code. -/
def FpFmt.signOf (f : FpFmt) (code : Nat) : Bool := bit code (f.mant + f.expBits)

/-- What a sign adds to a code. -/
def FpFmt.signBit (f : FpFmt) (neg : Bool) : Nat := if neg then 2 ^ (f.mant + f.expBits) else 0

/-- A code without its sign. -/
def FpFmt.magOf (f : FpFmt) (code : Nat) : Nat := f.expOf code * 2 ^ f.mant + f.mantOf code

/-- The exponent of the finest unit of a layout, that of its subnormal numbers. -/
def FpFmt.finest (f : FpFmt) : Int := 1 - (f.bias : Int) - f.mant

/-- The significand of a finite code: the mantissa field, under a leading 1 unless the code is subnormal. -/
def FpFmt.sigOf (f : FpFmt) (code : Nat) : Nat :=
  if f.expOf code = 0 then f.mantOf code else 2 ^ f.mant + f.mantOf code

/-- The finite value that the fields of a code give. -/
def FpFmt.finiteVal (f : FpFmt) (code : Nat) : Val :=
  .fin (f.signOf code) (f.sigOf code) (f.finest + (f.expOf code - 1 : Nat))

/-- What the model's layouts have in common: no field is empty; `maxCode` is a positive finite code, the last one below the
infinity, below E4M3's NaN, or below the sign bit; and IEEE's layouts have infinities. -/
def FpFmt.Sound (f : FpFmt) : Prop :=
  1 ≤ f.mant ∧ 1 ≤ f.expBits ∧ f.signOf f.maxCode = false ∧ fpVal f f.maxCode = f.finiteVal f.maxCode ∧
    ((f.nanKind = 2 ∧ f.hasInf = true ∧ f.magOf f.maxCode + 1 = (2 ^ f.expBits - 1) * 2 ^ f.mant) ∨
      (f.nanKind = 1 ∧ f.expBits = 4 ∧ f.mant = 3 ∧ f.magOf f.maxCode = 126) ∨
      (f.nanKind = 0 ∧ f.magOf f.maxCode + 1 = 2 ^ f.expBits * 2 ^ f.mant))

theorem fpFmt_sound : ∀ f < 8, (fpFmt f).Sound := by unfold FpFmt.Sound; decide

theorem fmtBits_eq : ∀ f < 8, fmtBits f = (fpFmt f).mant + (fpFmt f).expBits + 1 := by decide

section
variable {f : FpFmt} {code : Nat}

theorem mantOf_lt (f : FpFmt) (code : Nat) : f.mantOf code < 2 ^ f.mant := Nat.mod_lt _ (Nat.two_pow_pos _)

theorem expOf_lt (f : FpFmt) (code : Nat) : f.expOf code < 2 ^ f.expBits := Nat.mod_lt _ (Nat.two_pow_pos _)

/-- A code is its sign over its magnitude. -/
theorem signBit_add_magOf (h : code < 2 ^ (f.mant + f.expBits + 1)) : f.signBit (f.signOf code) + f.magOf code = code := by
  have hmag : f.magOf code = code % 2 ^ (f.mant + f.expBits) := by
    rw [FpFmt.magOf, FpFmt.expOf, FpFmt.mantOf, Nat.pow_add, Nat.mod_mul, Nat.mul_comm, Nat.add_comm]
  have hsign : f.signBit (f.signOf code) = 2 ^ (f.mant + f.expBits) * (code / 2 ^ (f.mant + f.expBits)) := by
    have hq : code / 2 ^ (f.mant + f.expBits) < 2 := Nat.div_lt_of_lt_mul (by rwa [Nat.pow_succ] at h)
    rw [FpFmt.signBit, FpFmt.signOf, bit, Nat.testBit_eq_decide_div_mod_eq, Nat.mod_eq_of_lt hq]
    rcases Nat.le_one_iff_eq_zero_or_eq_one.1 (Nat.lt_succ_iff.1 hq) with h0 | h1
    · rw [h0]; rfl
    · rw [h1, Nat.mul_one]; rfl
  rw [hmag, hsign, Nat.div_add_mod]

/-- The value of a code by its fields (Table 3.6). -/
theorem fpVal_eq (hf : f.Sound) (code : Nat) :
    fpVal f code =
      if f.nanKind = 2 ∧ f.expOf code = 2 ^ f.expBits - 1 then
        if f.mantOf code = 0 then .inf (f.signOf code) else .nan
      else if f.nanKind = 1 ∧ f.expOf code = 15 ∧ f.mantOf code = 7 then .nan
      else f.finiteVal code := by
  obtain ⟨hmant, hexp, -⟩ := hf
  have hm : fld code (f.mant - 1) 0 = f.mantOf code := by
    rw [fld, FpFmt.mantOf, Nat.shiftRight_zero, Nat.sub_zero, Nat.sub_add_cancel hmant]
  have he : fld code (f.mant + f.expBits - 1) f.mant = f.expOf code := by
    have hwidth : f.mant + f.expBits - 1 + 1 - f.mant = f.expBits := by omega
    rw [fld, FpFmt.expOf, Nat.shiftRight_eq_div_pow, hwidth]
  have hfin : (if f.expOf code = 0 then Val.fin (f.signOf code) (f.mantOf code) (1 - (f.bias : Int) - f.mant)
      else .fin (f.signOf code) (2 ^ f.mant + f.mantOf code) ((f.expOf code : Int) - f.bias - f.mant)) =
      f.finiteVal code := by
    rw [FpFmt.finiteVal, FpFmt.sigOf, FpFmt.finest]
    split
    · next h0 => rw [h0]; congr 1; omega
    · next h0 => congr 1; omega
  rw [← hfin]
  simp only [fpVal, hm, he, FpFmt.signOf, Bool.and_eq_true, decide_eq_true_eq, and_assoc]

/-- What a code of a layout can stand for: no number, an infinity, or a finite magnitude up to the largest. -/
theorem fpVal_cases (hf : f.Sound) (code : Nat) :
    fpVal f code = .nan ∨
    (f.hasInf = true ∧ f.magOf code = (2 ^ f.expBits - 1) * 2 ^ f.mant ∧ fpVal f code = .inf (f.signOf code)) ∨
    (f.magOf code ≤ f.magOf f.maxCode ∧ fpVal f code = f.finiteVal code) := by
  rw [fpVal_eq hf]
  obtain ⟨-, -, -, -, hkind⟩ := hf
  have hm := mantOf_lt f code
  have he := expOf_lt f code
  rcases hkind with ⟨hkind, hinf, hmax⟩ | ⟨hkind, hbits, hmant, hmax⟩ | ⟨hkind, hmax⟩
  · by_cases htop : f.expOf code = 2 ^ f.expBits - 1
    · by_cases h0 : f.mantOf code = 0
      · exact .inr (.inl ⟨hinf, by rw [FpFmt.magOf, h0, htop, Nat.add_zero], by simp [hkind, htop, h0]⟩)
      · exact .inl (by simp [hkind, htop, h0])
    · have hle : (f.expOf code + 1) * 2 ^ f.mant ≤ (2 ^ f.expBits - 1) * 2 ^ f.mant :=
        Nat.mul_le_mul_right _ (by omega)
      rw [Nat.add_mul, Nat.one_mul] at hle
      exact .inr (.inr ⟨by rw [FpFmt.magOf]; omega, by simp [hkind, htop]⟩)
  · by_cases hnan : f.expOf code = 15 ∧ f.mantOf code = 7
    · exact .inl (by simp [hkind, hnan])
    · refine .inr (.inr ⟨?_, by simp [hkind, hnan]⟩)
      rw [hbits] at he
      rw [hmax, FpFmt.magOf, hmant]; rw [hmant] at hm; omega
  · have hle : (f.expOf code + 1) * 2 ^ f.mant ≤ 2 ^ f.expBits * 2 ^ f.mant := Nat.mul_le_mul_right _ he
    rw [Nat.add_mul, Nat.one_mul] at hle
    exact .inr (.inr ⟨by rw [FpFmt.magOf]; omega, by simp [hkind]⟩)

/-! ## The order of codes is the order of values -/

theorem sigOf_lt (f : FpFmt) (code : Nat) : f.sigOf code < 2 ^ (f.mant + 1) := by
  have hm := mantOf_lt f code
  rw [FpFmt.sigOf, Nat.pow_succ]; split <;> omega

/-- A larger magnitude code is no smaller a number of the finest units. -/
theorem sigOf_mul_le {a b : Nat} (h : f.magOf a ≤ f.magOf b) :
    f.sigOf a * 2 ^ (f.expOf a - 1) ≤ f.sigOf b * 2 ^ (f.expOf b - 1) := by
  have ha := mantOf_lt f a
  have hb := mantOf_lt f b
  rw [FpFmt.magOf, FpFmt.magOf] at h
  rcases Nat.lt_trichotomy (f.expOf a) (f.expOf b) with hlt | heq | hgt
  · calc f.sigOf a * 2 ^ (f.expOf a - 1) ≤ 2 ^ f.mant * 2 ^ f.expOf a := by
          by_cases h0 : f.expOf a = 0
          · rw [FpFmt.sigOf, if_pos h0, h0]; omega
          · have hexp : 2 ^ f.mant * 2 ^ f.expOf a = 2 ^ (f.mant + 1) * 2 ^ (f.expOf a - 1) := by
              rw [← Nat.pow_add, ← Nat.pow_add]; congr 1; omega
            rw [hexp]; exact Nat.mul_le_mul_right _ (Nat.le_of_lt (sigOf_lt f a))
      _ ≤ f.sigOf b * 2 ^ (f.expOf b - 1) := by
          refine Nat.mul_le_mul ?_ (Nat.pow_le_pow_right (by omega) (by omega))
          rw [FpFmt.sigOf, if_neg (by omega)]; omega
  · rw [heq] at h ⊢
    refine Nat.mul_le_mul_right _ ?_
    rw [FpFmt.sigOf, FpFmt.sigOf, heq]; split <;> omega
  · have hle : (f.expOf b + 1) * 2 ^ f.mant ≤ f.expOf a * 2 ^ f.mant := Nat.mul_le_mul_right _ hgt
    rw [Nat.add_mul, Nat.one_mul] at hle; omega

/-! ## Narrowing an exact value (R137, R141) -/

theorem beyondMax_exact (hf : f.Sound) (h : f.magOf code ≤ f.magOf f.maxCode) :
    beyondMax f (f.sigOf code) (f.finest + (f.expOf code - 1 : Nat)) = false := by
  obtain ⟨-, -, hsign, hmax, -⟩ := hf
  rw [beyondMax, hmax, FpFmt.finiteVal, hsign, ← Bool.not_eq_true,
    fin_lt_fin false false _ _ (x := f.finest) (by omega) (by omega), scaledInt_false, scaledInt_false, Int.not_lt]
  exact Int.ofNat_le.2 (sigOf_mul_le h)

/-- A finite code's own unit is the one in which its value is rounded. -/
theorem unitExp_exact (h : f.sigOf code ≠ 0) :
    unitExp f.mant f.finest (f.sigOf code) (f.finest + (f.expOf code - 1 : Nat)) =
      f.finest + (f.expOf code - 1 : Nat) := by
  have hlt := sigOf_lt f code
  rw [unitExp, log2]
  by_cases h0 : f.expOf code = 0
  · have hlog : (f.sigOf code).log2 ≤ f.mant := Nat.lt_succ_iff.1 ((Nat.log2_lt h).2 hlt)
    rw [h0]; omega
  · have hlog : (f.sigOf code).log2 = f.mant := by
      refine (Nat.log2_eq_iff h).2 ⟨?_, hlt⟩
      rw [FpFmt.sigOf, if_neg h0]; omega
    rw [hlog]; omega

/-- A whole number of units is not rounded. -/
theorem unitsOf_self (mode r m : Nat) (e : Int) : unitsOf mode r m e e = m := by simp [unitsOf]

theorem fpCode_exact (neg : Bool) :
    fpCode f neg (f.sigOf code) (f.finest + (f.expOf code - 1 : Nat)) = f.signBit neg + f.magOf code := by
  have hm := mantOf_lt f code
  have hlt := sigOf_lt f code
  simp only [fpCode, if_neg (Nat.ne_of_lt hlt), FpFmt.signBit, FpFmt.magOf]
  by_cases h0 : f.expOf code = 0
  · rw [FpFmt.sigOf, if_pos h0, if_pos hm, h0]; omega
  · have hexp : (f.finest + (f.expOf code - 1 : Nat) + f.mant + f.bias).toNat = f.expOf code := by rw [FpFmt.finest]; omega
    rw [FpFmt.sigOf, if_neg h0, if_neg (by omega), hexp]; omega

theorem narrowFp_zero (f : FpFmt) (mode r : Nat) (infOnOvf neg : Bool) (e : Int) :
    narrowFp f mode r infOnOvf (.fin neg 0 e) = ⟨fpCode f neg 0 f.finest, 0, 0⟩ := rfl

/-- A value that is whole in the unit of its rounding, and not above the largest, keeps its units. -/
theorem narrowFp_whole (mode r : Nat) (infOnOvf neg : Bool) {m : Nat} {e : Int} (hm : m ≠ 0)
    (hunit : unitExp f.mant f.finest m e = e) (hmax : beyondMax f m e = false) :
    narrowFp f mode r infOnOvf (.fin neg m e) = ⟨fpCode f neg m e, 0, 0⟩ := by
  rw [FpFmt.finest] at hunit
  simp only [narrowFp, if_neg hm, hunit, unitsOf_self, hmax, Bool.false_eq_true, if_false]

theorem narrowFp_finiteVal (hf : f.Sound) (mode r : Nat) (infOnOvf : Bool) (h : f.magOf code ≤ f.magOf f.maxCode) :
    narrowFp f mode r infOnOvf (f.finiteVal code) = ⟨f.signBit (f.signOf code) + f.magOf code, 0, 0⟩ := by
  rw [← fpCode_exact, FpFmt.finiteVal]
  by_cases hsig : f.sigOf code = 0
  · have hexp : f.expOf code = 0 := by
      have hlead := Nat.two_pow_pos f.mant
      rw [FpFmt.sigOf] at hsig
      split at hsig
      · next h0 => exact h0
      · next => omega
    rw [hsig, narrowFp_zero, hexp, Nat.zero_sub, Int.natCast_zero, Int.add_zero]
  · exact narrowFp_whole mode r infOnOvf _ hsig (unitExp_exact hsig) (beyondMax_exact hf h)

theorem narrowFp_fpVal (hf : f.Sound) (mode r : Nat) (infOnOvf : Bool) (hcode : code < 2 ^ (f.mant + f.expBits + 1))
    (hnan : fpVal f code ≠ .nan) : narrowFp f mode r infOnOvf (fpVal f code) = ⟨code, 0, 0⟩ := by
  have hfields := signBit_add_magOf hcode
  rcases fpVal_cases hf code with hv | ⟨hinf, hmag, hv⟩ | ⟨hle, hv⟩
  · exact absurd hv hnan
  · have hcode : fpInfCode f (f.signOf code) = code := by rw [fpInfCode, ← hmag]; exact hfields
    simp only [hv, narrowFp, hinf, if_true, hcode]
  · rw [hv, narrowFp_finiteVal hf mode r infOnOvf hle, hfields]

end

/-- Settles O53: a code's value is a whole number of its own unit, up to the largest magnitude. -/
theorem exactValuesKeepTheirCodes : Obligations.ExactValuesKeepTheirCodes := by
  unfold Obligations.ExactValuesKeepTheirCodes
  intro f mode r code infOnOvf hf hcode hnan
  rw [fmtBits_eq f hf] at hcode
  exact narrowFp_fpVal (fpFmt_sound f hf) mode r infOnOvf hcode hnan

end Sys2Proof.Machine
end

section
/-!
Ready instructions (R89, R90, R368, R372): what a wait field takes changes no slot, so an instruction that is ready runs at once;
and what an instruction that completes leaves. Matrix products and chains follow (R160 to R216, R288).
-/
namespace Sys2Proof.Machine
open Sys2Proof Sys2Proof.Claims

/-! ## What a wait field takes (R368, R372) -/

/-- An entry that a search skips, replaced by another that it skips, changes nothing that the search finds. -/
theorem Tbl.filterMap_put {f : Nat × α → Option β} {t : Tbl α} {k : Nat} {old new : α} (hfind : t.find? k = some old)
    (hold : f (k, old) = none) (hnew : f (k, new) = none) : (t.put k new).filterMap f = t.filterMap f := by
  induction t with
  | nil => cases hfind
  | cons e t ih =>
    obtain ⟨i, a⟩ := e
    rw [Tbl.put]
    by_cases hlt : k < i
    · rw [if_pos hlt, List.filterMap_cons_none hnew]
    · rw [if_neg hlt]
      by_cases hik : i = k
      · subst hik
        rw [Tbl.find?, if_pos rfl] at hfind
        cases hfind
        rw [if_pos rfl, List.filterMap_cons_none hnew, List.filterMap_cons_none hold]
      · rw [Tbl.find?, if_neg hik] at hfind
        rw [if_neg hik, List.filterMap_cons, List.filterMap_cons, ih hfind]

@[simp] theorem Chip.bead_updBead_same (c : Chip) (p : Nat) (f : BeadSt → BeadSt) : (c.updBead p f).bead p = f (c.bead p) := by
  rw [Chip.updBead, Chip.bead, Chip.setBead_beads, Tbl.get_put, if_pos rfl]

/-- A wait field takes nothing, or one count of a semaphore (R368, R681). -/
theorem Chip.take_cases (c : Chip) (p n : Nat) :
    c.take p n = c ∨
      ∃ o v, c.obj? p n = some o ∧ o.val = .sem v ∧ c.take p n = c.setObj p n { o with val := .sem (v - 1) } := by
  unfold Chip.take
  split
  · exact .inl rfl
  · split
    · next o ho =>
      split
      · next v hv => exact .inr ⟨o, v, ho, hv, by rw [Chip.setVal, ho]⟩
      · exact .inl rfl
    · exact .inl rfl

/-- No slot is taken from. -/
theorem Chip.slotsUnder_take (c : Chip) (p n : Nat) (rs : List LockRange) :
    (c.take p n).slotsUnder p rs = c.slotsUnder p rs := by
  rcases c.take_cases p n with htake | ⟨o, v, ho, hv, htake⟩
  · rw [htake]
  · rw [htake, Chip.setObj, Chip.slotsUnder, Chip.bead_updBead_same]
    exact Tbl.filterMap_put ho (by simp only [hv]) rfl

@[simp] theorem Chip.readStalls_take (c : Chip) (p n : Nat) (f : Foot) : (c.take p n).readStalls p f = c.readStalls p f := by
  rw [Chip.readStalls, Chip.slotsUnder_take, Chip.readStalls]

@[simp] theorem Chip.writeStall_take (c : Chip) (p n : Nat) (f : Foot) : (c.take p n).writeStall p f = c.writeStall p f := by
  rw [Chip.writeStall, Chip.slotsUnder_take, Chip.writeStall]

/-! ## What a Bead issues under (R88, R89) -/

theorem Chip.running_ctx {c : Chip} {p : Nat} {x : Ctx} (h : c.running p = some x) :
    x.p = p ∧ x.run = (c.bead p).run ∧ x.chain = none := by
  simp only [Chip.running] at h
  split at h
  · cases h
  · split at h
    · cases h
    · split at h
      · cases h; exact ⟨rfl, rfl, rfl⟩
      · cases h

/-- The next instruction of a Bead is that of its run, and has done no block yet. -/
theorem Chip.canIssue_ctx {c : Chip} {p : Nat} {x : Ctx} (h : c.canIssue p = some x) :
    x.p = p ∧ x.run = (c.bead p).run ∧ x.chain = none := by
  unfold Chip.canIssue at h
  split at h
  · cases h
  · next y hy =>
    split at h
    · cases h
    · obtain ⟨i, -, rfl⟩ := Option.map_eq_some_iff.1 h
      obtain ⟨hp, hrun, hchain⟩ := Chip.running_ctx hy
      exact ⟨hp, hrun, hchain⟩

section
variable {c : Chip} {sel : Ctx → Bool} {foot : Chip → Ctx → Foot} {p : Nat} {act : Ctx → Chip → Act}

theorem Chip.goOn_unpicked {n : Nat} (h : ∀ y k, c.parkedCtx p n = some (y, k) → sel y = false) :
    c.goOn sel foot act p n = (c, false) := by
  unfold Chip.goOn
  split
  · rfl
  · next y k hk => rw [h y k hk]; rfl

/-- Where the command picks no instruction in progress, none goes on. -/
theorem Chip.goOnAny_unpicked (h : ∀ n y k, c.parkedCtx p n = some (y, k) → sel y = false) :
    c.goOnAny sel foot act p = (c, false) := by
  have hfold : ∀ ns : List Nat, ns.foldl (fun (r : Chip × Bool) n => if r.2 then r else r.1.goOn sel foot act p n) (c, false) =
      (c, false) := by
    intro ns
    induction ns with
    | nil => rfl
    | cons n ns ih => rw [List.foldl_cons, if_neg Bool.false_ne_true, Chip.goOn_unpicked (h n), ih]
  exact hfold _

/-- An instruction that nothing stalls runs once it has issued. -/
theorem Chip.attempt_clear {x : Ctx} {f : Foot} (hread : c.readStalls x.p (localFoot x f) = [])
    (hwrite : c.writeStall x.p (localFoot x f) = false) (htable : x.tableHeld = false) : c.attempt x f act = act x c := by
  simp [Chip.attempt, hread, hwrite, htable]

end

end Sys2Proof.Machine

namespace Sys2Proof.Claims
open Sys2Proof Sys2Proof.Machine

/-! ## Ready instructions (R89, R90) -/

section
variable {c : Chip} {p : Nat} {x : Ctx} {picks : Ctx → Prop} {f : Foot}

theorem Ready.ctx (h : Ready c p x picks f) : x.p = p ∧ x.run = (c.bead p).run ∧ x.chain = none := by
  obtain ⟨-, hissue, -⟩ := h
  exact Chip.canIssue_ctx hissue

/-- A ready instruction issues and runs in one command; it has no block done, and its Bead goes on from where it stood. -/
theorem Ready.issueAt_eq {sel : Ctx → Bool} {foot : Chip → Ctx → Foot} {act : Ctx → Chip → Act} {d : Chip}
    (h : Ready c p x picks (foot c x)) (hsel : ∀ y, sel y = true ↔ picks y) (hact : act x (taken c x) = .done d) :
    issueAt sel foot p act c = completed c x d := by
  obtain ⟨rfl, hrun, -⟩ := h.ctx
  obtain ⟨-, hissue, hpick, hpark, havail, hunit, hhazard, hread, hwrite, htable⟩ := h
  have hnone : c.goOnAny sel foot act x.p = (c, false) :=
    Chip.goOnAny_unpicked fun n y k hk => Bool.eq_false_iff.2 fun hy => hpark n y k hk ((hsel y).1 hy)
  have hattempt : (taken c x).attempt x (foot c x) act = .done d := by
    rw [← hact]
    exact Chip.attempt_clear (by rw [taken, Chip.readStalls_take, hread]) (by rw [taken, Chip.writeStall_take, hwrite]) htable
  rw [taken] at hattempt
  simp only [issueAt, hnone, Chip.issueNext, hissue, (hsel x).2 hpick, havail, hunit, hhazard, hattempt, Chip.finish,
    Bool.not_true, Bool.or_self, Bool.false_eq_true, if_false, completed, wentOn, hrun]

/-- The command of a ready instruction that has its results within it answers the state in which it has completed. -/
theorem Ready.completes {i : Instr} {s : State} {sel : Ctx → Bool} {foot : Chip → Ctx → Foot} {act : Ctx → Chip → Act} {d : Chip}
    (h : Ready s.chip p x picks (foot s.chip x)) (hexec : exec i s = onChip i s (issueAt sel foot p act))
    (hwf : i.wf = isBead p) (hsel : ∀ y, sel y = true ↔ picks y) (hact : act x (taken s.chip x) = .done d) :
    exec i s = .next (inState s (completed s.chip x d)) := by
  have hbead : isBead p = true := h.1
  rw [hexec, onChip_wf (hwf.trans hbead), h.issueAt_eq hsel hact, inState]

end

end Sys2Proof.Claims

namespace Sys2Proof.Machine
open Sys2Proof Sys2Proof.Claims

/-! ## Products (R160, R163, R185, R200 to R204) -/

theorem isChain_iff (kind : Nat) (x : Ctx) : isChain kind x = true ↔ iClass x.i = 5 ∧ cdKind (chainWord x) = kind := by
  simp [isChain]

/-- What a list of rows counts in all, summed row by row. -/
theorem foldl_rows_eq (as : List (List Conv)) (f : Conv → Nat) :
    as.foldl (fun s r => r.foldl (fun s a => s + f a) s) 0 = (as.flatten.map f).foldl (· + ·) 0 := by
  rw [List.foldl_map, List.foldl_flatten]

/-- Operand A of an apply as the product takes it: its elements by row and stored K position, read back from their codes. -/
def Chip.appliedA (c : Chip) (x : Ctx) (q : Product) (m k : Nat) : Val :=
  elemVal q.fmtA true (((c.applied x q).getD m []).getD k ⟨0, 0, 0⟩).code

/-- An element of operand A that is read is the one that the apply makes of its source. -/
theorem Chip.appliedA_eq (c : Chip) (x : Ctx) (q : Product) {m k : Nat} (hn : edgeN x q.edge q.n ≠ 0)
    (hm : m < edgeM x q.edge q.m) (hk : k < q.kA) (hreads : q.readsA (edgeK x q.edge q.kB) k = true) :
    c.appliedA x q m k = elemVal q.fmtA true (c.applyA x (chainWord x) q m k).code := by
  simp [Chip.appliedA, Chip.applied, hn, hm, hk, hreads]

theorem productsComplete : ProductsComplete := by
  refine ⟨fun s p x hready hctx => ?mma, fun s p x hready hctx => ?chain⟩
  case mma =>
    obtain ⟨rfl, -⟩ := hready.ctx
    exact hready.completes rfl rfl (fun _ => decide_eq_true_iff) (if_neg (Bool.eq_false_iff.1 hctx))
  case chain =>
    obtain ⟨rfl, -⟩ := hready.ctx
    have hcontext := Bool.eq_false_iff.1 hctx
    refine ⟨fun hgather happly => ?plain, fun hgather hrows => ?gather, fun happly => ?apply⟩
    case plain =>
      exact hready.completes rfl rfl (isChain_iff 0)
        ((if_neg hcontext).trans ((if_neg hgather).trans (if_neg happly)))
    case gather =>
      exact hready.completes rfl rfl (isChain_iff 0)
        ((if_neg hcontext).trans ((if_pos hgather).trans (if_neg (Bool.eq_false_iff.1 hrows))))
    case apply =>
      have hgather : cdPrologue (chainWord x) ≠ 1 := by rw [happly]; decide
      refine ⟨_, Chip.appliedA _ x (chainProductOf x), rfl, ?_, fun m k hn hm hk hreads =>
        Chip.appliedA_eq _ x _ hn hm hk hreads⟩
      rw [← foldl_rows_eq, ← foldl_rows_eq]
      exact hready.completes rfl rfl (isChain_iff 0)
        ((if_neg hcontext).trans ((if_neg hgather).trans (if_pos happly)))

/-! ## Chains fed by rings (R213, R214, R216, R288) -/

theorem isScorePass_iff (x : Ctx) : isScorePass x = true ↔ kind1 true x := by
  simp [isScorePass, kind1, isChain_iff, and_assoc]

/-- A chain of kind 1 is an attention chain or a score pass, by its mask. -/
theorem isAttention_iff (x : Ctx) : (isChain 1 x && !isScorePass x) = true ↔ kind1 false x := by
  cases hscore : mkScore (maskWord x (cdMask (chainWord x))) <;>
    simp [isScorePass, kind1, isChain, hscore]

/-- U alone, or U and G where the hidden epilogue has a gate, stand after Y (R217). -/
theorem hiddenBytes_eq (x : Ctx) (d : Nat) :
    (if mlpParts x d = 3 then 131072 else 65536) = 65536 + if epGate (epiWord x (cdEpi2 d)) then 65536 else 0 := by
  unfold mlpParts
  split <;> rfl

/-- A chain that is ready has done no block, so it begins at block 0 and, with all its blocks there, ends in the same command. -/
theorem ringFedChainsComplete : RingFedChainsComplete := by
  refine ⟨fun d s p x hready ⟨hctx, hblocks⟩ => ?attention, fun d s p x hready hblocks => ?score,
    fun d s p x hready ⟨hctx, hctx2, hblocks⟩ => ?mlp⟩
  case attention =>
    obtain ⟨rfl, -, hchain⟩ := hready.ctx
    rw [attends] at hblocks
    refine hready.completes rfl rfl isAttention_iff ?_
    simp only [hctx, hchain, Bool.false_eq_true, if_false, Option.isNone_none, if_true, Option.getD_none, hblocks]
  case score =>
    obtain ⟨rfl, -, hchain⟩ := hready.ctx
    refine hready.completes rfl rfl isScorePass_iff ?_
    simp only [hchain, Option.isNone_none, if_true, Option.getD_none, hblocks]
  case mlp =>
    obtain ⟨rfl, -, hchain⟩ := hready.ctx
    rw [Nat.add_assoc, ← hiddenBytes_eq] at hblocks
    refine hready.completes rfl rfl (isChain_iff 2) ?_
    simp only [hctx, hctx2, hchain, Bool.or_self, Bool.false_eq_true, if_false, Option.isNone_none, if_true, Option.getD_none,
      hblocks]

/-- Settles O4: what a wait field takes stalls no ready instruction, so each runs in its one command; a ring-fed chain begins
with no block done. -/
theorem productsAndChainsComplete : Obligations.ProductsAndChainsComplete := by
  unfold Obligations.ProductsAndChainsComplete
  exact ⟨productsComplete, ringFedChainsComplete⟩

end Sys2Proof.Machine
end

section
/-!
Writes that one unit takes (R618, R620, R627, R634): what a command of the dictionary's write rows does is what its row puts into
the entry. Then what each row puts, and what it refuses (R470, R472, R526, R566, R584 to R590, R596, R603, R641 to R650).
-/
namespace Sys2Proof.Machine
open Sys2Proof Sys2Proof.Claims

/-! ## A handled write at one unit (R618, R627) -/

theorem meaning_of_wf {i : Instr} {s : State} {f : State → State} (h : i.wf = true) : meaning i s f = .next (f s) := if_pos h

theorem writeEntry_of_handled {s : State} {r : MgmtReq} {e : Entry} (h : Handled s r e)
    (put : Entry → Nat → State → Nat × State) : writeEntry r put s = s.handleWrite r e (put e) := by
  obtain ⟨-, -, htakes, hreplay, hcheck, hentry, hhandles⟩ := h
  simp only [writeEntry, htakes, hreplay, hcheck, hentry, hhandles, Bool.not_true, Bool.false_eq_true, if_false, if_true]

theorem handleWrite_single {s t : State} {r : MgmtReq} {e : Entry} {put : Nat → State → Nat × State} {i : Nat}
    (hsel : selected r e = [i]) (hdom : s.chip.domainStatus e i = stOK) (hput : put i s = (stOK, t)) :
    s.handleWrite r e put = answered s r e i t := by
  simp [State.handleWrite, hsel, State.writeAll, hdom, hput, answered]

/-- The commands `cmd` write by `put`: every write that `own` picks is one of them. -/
structure WritesBy (cmd : MgmtReq → Instr) (own : MgmtReq → Bool) (put : MgmtReq → Entry → Nat → State → Nat × State) : Prop where
  wf : ∀ r : MgmtReq, r.wf = true → own r = true → (cmd r).wf = true
  exec_eq : ∀ (r : MgmtReq) (s : State), exec (cmd r) s = meaning (cmd r) s (writeEntry r (put r))

section
variable {cmd : MgmtReq → Instr} {own : MgmtReq → Bool} {put : MgmtReq → Entry → Nat → State → Nat × State}
  {cond : State → MgmtReq → Nat → Prop} {eff : State → MgmtReq → Nat → State → Prop}

theorem WritesBy.ofRow (hwf : ∀ r, (cmd r).wf = (r.wf && own r))
    (hexec : ∀ r s, exec (cmd r) s = meaning (cmd r) s (writeEntry r (put r))) : WritesBy cmd own put :=
  ⟨fun r hr hown => by rw [hwf, hr, hown]; rfl, hexec⟩

/-- What `put` does to the entry is what the command does, beside its answer. -/
theorem WritesBy.takes (h : WritesBy cmd own put)
    (hput : ∀ s r e i, own r = true → findEntry r.index r.sub = some e → cond s r i →
      ∃ t, put r e i s = (stOK, t) ∧ eff s r i t) : Takes cmd own cond eff := by
  intro s r e i hhandled hown hsel hdom hcond
  obtain ⟨hr, -, -, -, -, hentry, -⟩ := id hhandled
  obtain ⟨t, ht, heff⟩ := hput s r e i hown hentry hcond
  refine ⟨t, ?_, heff⟩
  rw [h.exec_eq, meaning_of_wf (h.wf r hr hown), writeEntry_of_handled hhandled, handleWrite_single hsel hdom ht]

theorem WritesBy.or {own' : MgmtReq → Bool} (h : WritesBy cmd own put) (h' : WritesBy cmd own' put) :
    WritesBy cmd (fun r => own r || own' r) put where
  wf r hr hown := (Bool.or_eq_true_iff.1 hown).elim (h.wf r hr) (h'.wf r hr)
  exec_eq := h.exec_eq

end

/-! ## The commands of the write rows -/

theorem bootGo_writesBy : WritesBy .bootGo (·.writes 0x8001 3) putBootGo := .ofRow (fun _ => rfl) fun _ _ => rfl
theorem bundleCommit_writesBy : WritesBy .bundleCommit (·.writes 0x8002 4) putBundleCommit := .ofRow (fun _ => rfl) fun _ _ => rfl
theorem lcRequest_writesBy : WritesBy .lcRequest (·.writes 0x8003 2) putLcRequest := .ofRow (fun _ => rfl) fun _ _ => rfl
theorem warmReset_writesBy : WritesBy (fun r => .warmResetRequest (.dict r)) (·.writes 0x2001 2) (fun _ => putWarmReset) :=
  .ofRow (fun _ => rfl) fun _ _ => rfl
theorem sessionRequest_writesBy : WritesBy .sessionRequest (·.writes 0x8010 1) putSessionRequest :=
  .ofRow (fun _ => rfl) fun _ _ => rfl
theorem sessionAccept_writesBy : WritesBy .sessionAccept (·.writes 0x8010 3) putSessionAccept :=
  .ofRow (fun _ => rfl) fun _ _ => rfl
theorem sessionClose_writesBy : WritesBy .sessionClose (·.writes 0x8010 6) putSessionClose := .ofRow (fun _ => rfl) fun _ _ => rfl
theorem queueEnable_writesBy : WritesBy .queueEnable (·.writes 0xB000 7) putQueueEnable := .ofRow (fun _ => rfl) fun _ _ => rfl
theorem faultLogAck_writesBy : WritesBy .faultLogAck (·.writes 0x9000 2) putFaultLogAck := .ofRow (fun _ => rfl) fun _ _ => rfl
theorem ringEntryWrite_writesBy : WritesBy .ringEntryWrite (·.writes 0x6001 1) putRingEntry := .ofRow (fun _ => rfl) fun _ _ => rfl
theorem strandIdentityWrite_writesBy :
    WritesBy .strandIdentityWrite (fun r => r.writes 0x6000 1 || r.writes 0x6000 2) putStrandIdentity :=
  .ofRow (fun _ => rfl) fun _ _ => rfl
theorem tableCommit_writesBy : WritesBy .tableCommit (·.writes 0x3002 9) putTableCommit := .ofRow (fun _ => rfl) fun _ _ => rfl
theorem telemetryIntervalWrite_writesBy : WritesBy .telemetryIntervalWrite (·.writes 0xA000 1) putTelemetryInterval :=
  .ofRow (fun _ => rfl) fun _ _ => rfl

theorem writes_iff {r : MgmtReq} {index sub : Nat} : r.writes index sub = true ↔ r.op = 1 ∧ r.index = index ∧ r.sub = sub := by
  simp [MgmtReq.writes, and_assoc]

/-- A write of an entry with no row of its own is a plain one. -/
theorem dictWrite_writesBy {index sub : Nat} (hplain : ownWrites.contains (index, sub) = false) :
    WritesBy .dictWrite (·.writes index sub) putEntry where
  wf r hr hown := by
    obtain ⟨hop, rfl, rfl⟩ := writes_iff.1 hown
    show (r.wf && r.op == 1 && !ownWrites.contains (r.index, r.sub)) = true
    rw [hr, hop, hplain]
    rfl
  exec_eq _ _ := rfl

theorem findEntry_index_sub {index sub : Nat} {e : Entry} (h : findEntry index sub = some e) : e.index = index ∧ e.sub = sub := by
  simpa using List.find?_some h

theorem key_of_writes {r : MgmtReq} {e : Entry} {index sub : Nat} (h : r.writes index sub = true)
    (he : findEntry r.index r.sub = some e) : e.key = entryKey index sub := by
  obtain ⟨-, hindex, hsub⟩ := writes_iff.1 h
  obtain ⟨hi, hs⟩ := findEntry_index_sub he
  rw [Entry.key, hi, hs, hindex, hsub]

/-! ## Free bytes, signatures and identity blocks (R595 to R598) -/

@[simp] theorem length_freeBytesAt (k n : Nat) : (freeBytesAt k n).length = n := by
  induction n generalizing k with
  | zero => rfl
  | succ n ih => rw [freeBytesAt, List.length_cons, ih]

theorem State.freeBytes_eq (s : State) (n : Nat) :
    s.freeBytes n = (freeBytesAt s.chip.freeCtr n, s.onChip fun c => c.spend n) := rfl

theorem State.claimBlock_of_left {s : State} (h : s.otp.blocks < 8192) :
    s.claimBlock = { s with otp := { s.otp with blocks := s.otp.blocks + 1 },
                            sec := { s.sec with block := s.otp.blocks, alias_ := 0, lmsNext := 0, treesReady := 0,
                                                identityState := 1 } } :=
  if_neg (Nat.not_le.2 h)

@[simp] theorem State.claimBlock_chip (s : State) : s.claimBlock.chip = s.chip := by
  unfold State.claimBlock
  split <;> rfl

@[simp] theorem State.useIndex_chip (s : State) : s.useIndex.chip = s.chip := by
  unfold State.useIndex
  split
  · rfl
  · split
    · rfl
    · exact s.claimBlock_chip

theorem State.useIndex_lmsNext {s : State} (h : s.sec.lmsNext + 1 < aliasIndices) :
    s.useIndex.sec.lmsNext = s.sec.lmsNext + 1 := by rw [State.useIndex, if_pos h]; rfl

/-! ## The boot (R584, R586, R596) -/

/-- A passed image: its digests, its version and the layer keys `l` that the ROM derives (R584, R586). -/
def State.imageTaken (s : State) (l : Option LayerKeys) : State :=
  ((s.onSec fun x => { x with bootStatus := stOK }).takeImage s.image).onSec fun x => { x with layers := l }

theorem State.bootCheck_passed {s : State} (hread : s.imageReadable = true) (himage : s.imageStatus s.image = stOK)
    (hsigns : s.otp.signs = true) :
    ∃ l : Option LayerKeys, s.bootCheck = (s.imageTaken l).claimBlock.onChip
      fun c => Chip.programFilters { c with pkg := { c.pkg with power := .booting } } := by
  refine ⟨((s.onSec fun x => { x with bootStatus := stOK }).takeImage s.image).deriveLayers, ?_⟩
  simp [State.bootCheck, hread, himage, State.imageTaken, State.onSec, State.takeImage, hsigns]

theorem State.bootCheck_failed {s : State} (hread : s.imageReadable = true) (himage : s.imageStatus s.image ≠ stOK) :
    s.bootCheck = s.onSec fun x => { x with bootStatus := s.imageStatus s.image } := by
  simp [State.bootCheck, hread, himage]

theorem putBootGo_asked {r : MgmtReq} {s : State} (e : Entry) (i : Nat) (hrom : s.chip.pkg.power = .rom) (hgo : reqNum r = 1) :
    putBootGo r e i s = (stOK, s.bootCheck) := by simp [putBootGo, hrom, hgo]

theorem putBundleCommit_asked {r : MgmtReq} {s : State} (e : Entry) (i : Nat) (hwait : s.sec.identityState = 1)
    (hgo : reqNum r = 1) : putBundleCommit r e i s = (stOK, s.commitBundle) := by simp [putBundleCommit, hwait, hgo]

/-- The first certificate of the identity block is there, and Bezel can sign (R596). -/
def State.certified (s : State) : State := s.onSec fun x => { x with identityState := 0, treesReady := 1, lmsNext := 0 }

theorem State.commitBundle_right {s : State} (h : s.bundleRight = true) : s.commitBundle = s.certified.serveWaiting := if_pos h

theorem State.commitBundle_wrong {s : State} (h : s.bundleRight = false) : s.commitBundle = s := by
  rw [State.commitBundle, h]; rfl

theorem State.serveWaiting_nil {s : State} (h : s.sec.waiting = []) : s.serveWaiting = s.onSec fun x => { x with waiting := [] } := by
  rw [State.serveWaiting, h]; rfl

/-! ## The life cycle (R588 to R590) -/

@[simp] theorem Otp.transition_lcCount (o : Otp) (target : Nat) (seed : List Byte) : (o.transition target seed).lcCount = target := by
  unfold Otp.transition
  split <;> rfl

theorem State.exportIdentity_frame (s : State) :
    s.exportIdentity.otp = s.otp ∧ s.exportIdentity.sec = s.sec ∧ s.exportIdentity.chip.pkg = s.chip.pkg := by
  unfold State.exportIdentity
  split <;> exact ⟨rfl, rfl, rfl⟩

theorem State.wipeStore_frame (s : State) :
    s.wipeStore.otp = s.otp ∧ s.wipeStore.sec.nonce = s.sec.nonce ∧ s.wipeStore.chip.pkg = s.chip.pkg := ⟨rfl, rfl, rfl⟩

theorem State.wipeStore_erases (s : State) : s.wipeStore.sec.keysErased = true ∧ s.wipeStore.chip.sessions = [] := ⟨rfl, rfl⟩

/-- The state before a request's decision: a fresh nonce, whatever is decided (R589). -/
def State.renonced (s : State) : State :=
  (s.onChip fun c => c.spend 32).onSec fun x => { x with nonce := freeBytesAt s.chip.freeCtr 32 }

theorem State.changeLifeCycle_refused {s : State} {target : Nat} (h : s.transitionRight target = false) :
    s.changeLifeCycle target = (stLifecycleDenied, s.renonced) := by
  simp [State.changeLifeCycle, h, State.freeBytes_eq, State.renonced]

/-- What a committed request leaves behind the fresh nonce: the burned bits, and a wiped store where the target asks for it. -/
def State.moved (s : State) (target : Nat) (seed : List Byte) : State :=
  let s := { s with otp := s.otp.transition target seed }
  let s := if target = 1 then s.exportIdentity else s
  if target = 3 ∨ target = 4 then s.wipeStore else s

theorem State.changeLifeCycle_committed {s : State} {target : Nat} (hright : s.transitionRight target = true)
    (hfree : ∀ x ∈ s.chip.sessions, x.2.st = .free) (hjobs : s.chip.jobsOpen = false) :
    ∃ (k : Nat) (seed : List Byte), s.changeLifeCycle target = (stOK,
      ((s.renonced.onChip fun c => c.spend k).moved target seed).onChip fun c =>
        { c with pkg := { c.pkg with lcLocked := true, production := (lifeCycle target).ide } }) := by
  have hall : s.chip.sessions.all (fun x => x.2.st = .free) = true := by simpa using hfree
  by_cases htest : target = 1
  · subst htest
    refine ⟨48, freeBytesAt s.renonced.chip.freeCtr 48, ?_⟩
    simp [State.changeLifeCycle, hright, hall, hjobs, State.freeBytes_eq, State.renonced, State.moved]
  · refine ⟨0, [], ?_⟩
    rw [show s.renonced.onChip (fun c => c.spend 0) = s.renonced from rfl]
    simp [State.changeLifeCycle, hright, hall, hjobs, htest, State.freeBytes_eq, State.renonced, State.moved]

theorem State.moved_frame (s : State) (target : Nat) (seed : List Byte) :
    (s.moved target seed).otp = s.otp.transition target seed ∧ (s.moved target seed).sec.nonce = s.sec.nonce ∧
      (s.moved target seed).chip.pkg = s.chip.pkg := by
  unfold State.moved
  extract_lets s1 s2
  have h2 : s2.otp = s.otp.transition target seed ∧ s2.sec = s.sec ∧ s2.chip.pkg = s.chip.pkg := by
    by_cases h : target = 1
    · rw [show s2 = s1.exportIdentity from if_pos h]; exact s1.exportIdentity_frame
    · rw [show s2 = s1 from if_neg h]; exact ⟨rfl, rfl, rfl⟩
  obtain ⟨hotp, hsec, hpkg⟩ := h2
  split
  · obtain ⟨hotp', hnonce, hpkg'⟩ := s2.wipeStore_frame
    exact ⟨hotp'.trans hotp, hnonce.trans (congrArg _ hsec), hpkg'.trans hpkg⟩
  · exact ⟨hotp, congrArg _ hsec, hpkg⟩

/-- In the targets that wipe the store, no key and no session is left (Table 17.5). -/
theorem State.moved_erases {target : Nat} (h : target = 3 ∨ target = 4) (s : State) (seed : List Byte) :
    (s.moved target seed).sec.keysErased = true ∧ (s.moved target seed).chip.sessions = [] := by
  rw [State.moved, if_pos h]
  exact State.wipeStore_erases _

/-! ## The session mailbox (R470, R596, R599, R603, R604, R648) -/

/-- A request has come: it stands in a fresh mailbox. -/
def State.asked (s : State) (req : List Byte) : State :=
  s.onChip fun c => { c with mailbox := { Mailbox.fresh with request := req } }

theorem State.requestSession_free {s : State} {req : List Byte} (hfree : (s.chip.session (sqSlot (leNat req))).st = .free)
    (hidle : s.chip.mailbox.busy = false) (hlife : (lifeCycle s.otp.lcCount).sessions ≠ .none) :
    s.requestSession req = (stOK, (s.asked req).offer) := by
  simp [State.requestSession, hfree, hidle, hlife, State.asked]

theorem State.offer_ended {s : State} (h : s.sec.identityState = 2) :
    s.offer = s.onChip fun c => { c with mailbox := { c.mailbox with request := [], status := stEndOfIdentity } } := if_pos h

theorem State.canSign_identity {s : State} (h : s.canSign = true) : s.sec.identityState ≠ 2 := by
  intro h2
  simp [State.canSign, h2] at h

theorem State.offer_signed {s : State} (h : s.canSign = true) : s.offer = s.makeOffer := by
  rw [State.offer, if_neg (State.canSign_identity h), if_pos h]

theorem State.offer_waits {s : State} (hid : s.sec.identityState ≠ 2) (h : s.canSign = false) :
    s.offer = s.onSec fun x => { x with waiting := x.waiting ++ [.offer] } := by
  rw [State.offer, if_neg hid, h]; rfl

/-- The offer begins with the request; making it takes free bytes and an index of the tree (R598, R603). -/
theorem State.makeOffer_eq (s : State) : ∃ rest secret : List Byte,
    s.makeOffer = (s.onChip fun c => c.spend 80).useIndex.onChip fun c => { c with mailbox := { c.mailbox with
      offer := s.chip.mailbox.request ++ rest, offerSecret := secret, offered := some c.now, confirm := [], status := stOK } } := by
  simp only [State.makeOffer, State.freeBytes_eq, State.aliasSign, List.append_assoc]
  exact ⟨_, _, rfl⟩

theorem State.makeOffer_mailbox (s : State) : ∃ rest secret : List Byte, s.makeOffer.chip.mailbox =
    { s.chip.mailbox with offer := s.chip.mailbox.request ++ rest, offerSecret := secret, offered := some s.chip.now,
                          confirm := [], status := stOK } := by
  obtain ⟨rest, secret, hoffer⟩ := s.makeOffer_eq
  refine ⟨rest, secret, ?_⟩
  rw [hoffer, State.onChip, State.useIndex_chip]
  rfl

theorem State.makeOffer_lmsNext {s : State} (h : s.sec.lmsNext + 1 < aliasIndices) :
    s.makeOffer.sec.lmsNext = s.sec.lmsNext + 1 := by
  obtain ⟨_, _, hoffer⟩ := s.makeOffer_eq
  rw [hoffer]
  exact State.useIndex_lmsNext (s := s.onChip fun c => c.spend 80) h

theorem Chip.acceptSession_taken {c : Chip} {acc body : List Byte} {key : String → Nat → List Byte} {k : Nat}
    (hoffer : c.mailbox.offered = some k) (htime : c.now < k + 125000000) (hkeys : c.acceptKeys acc = some (body, key)) :
    ∃ (confirm : List Byte) (runs : Tbl RingRun), c.acceptSession acc = (stOK,
      { c.setSession (sqSlot (leNat c.mailbox.request)) (openedSession (leNat c.mailbox.request) body key) with
        ringRuns := runs, mailbox := { c.mailbox.closed with confirm := confirm, status := stOK } }) := by
  have hopen : ¬ k + offerTicks ≤ c.now := Nat.not_le.2 htime
  simp only [Chip.acceptSession, hoffer, hopen, hkeys, if_false]
  exact ⟨_, _, rfl⟩

theorem Chip.closeSession_opened {c : Chip} {n : Nat} (h : (c.session n).st = .opened) :
    c.closeSession n = (stOK, (c.setSession n { c.session n with st := .closing }).settleSession n) := by
  simp [Chip.closeSession, h]

/-- A session that closes is free at once, or once its jobs have ended (R470). -/
theorem Chip.settleSession_closing {c : Chip} {n : Nat} (h : (c.session n).st = .closing) :
    (c.settleSession n).session n = if c.sessionJobs n = 0 then SessionSt.free else c.session n := by
  simp only [Chip.settleSession, h, decide_true, Bool.true_and, decide_eq_true_eq]
  split
  · rw [Chip.setSession_session, if_pos rfl]
  · rfl

/-! ## The other rows (R240, R472, R526, R566, R641, R643, R645, R649, R650) -/

section
variable {r : MgmtReq} {s : State}

theorem putQueueEnable_enables {q : Nat} (e : Entry) (hask : reqNum r = 1) (hvalid : (s.chip.queue q).valid = true)
    (hoff : (s.chip.queue q).enable ≠ 1) :
    putQueueEnable r e q s = (stOK, s.onChip fun c => c.setQueue q
      ((s.chip.queue q).started ((c.clasp (s.chip.queue q).head).svc != .inService))) := by
  simp [putQueueEnable, hask, hvalid, hoff]

theorem putQueueEnable_disables {q : Nat} (e : Entry) (hask : reqNum r ≠ 1) (hdone : s.chip.openJobs q = 0) :
    putQueueEnable r e q s = (stOK, s.onChip fun c => c.setQueue q { s.chip.queue q with enable := 0 }) := by
  simp [putQueueEnable, hask, hdone]

theorem putFaultLogAck_moves (e : Entry) (i : Nat) (hlow : s.chip.flog.acked ≤ reqNum r) (hhigh : reqNum r ≤ s.chip.flog.written) :
    putFaultLogAck r e i s = (stOK, s.onChip fun c => { c with flog := { c.flog with acked := reqNum r } }) := by
  simp [putFaultLogAck, Nat.not_lt.2 hlow, Nat.not_lt.2 hhigh]

theorem putRingEntry_writes {n : Nat} (e : Entry) (hidle : s.chip.ringInUse n = false)
    (hvalid : (ringOf (reqNum r) (s.chip.ring n).epoch).valid = true) :
    ∃ c : Chip, putRingEntry r e n s = (stOK, s.onChip fun _ => c.setRing n (ringOf (reqNum r) (s.chip.ring n).epoch)) := by
  simp only [putRingEntry, hidle, hvalid, Bool.false_eq_true, Bool.not_true, if_false]
  exact ⟨_, rfl⟩

/-- A working port trains again: it does not work from then on (R645). -/
theorem PortSt.not_working_retrained (x : PortSt) : (if x.working then { x with st := 1 } else x).working = false := by
  by_cases h : x.working = true
  · rw [if_pos h]; rfl
  · rw [if_neg h, Bool.eq_false_iff.2 h]

theorem putStrandIdentity_writes {e : Entry} (i : Nat) (hoff : ∀ x ∈ s.chip.rings, x.2.enable ≠ 1) :
    putStrandIdentity r e i s = (stOK, s.onChip fun c => { c with
      strand := if e.sub = 1 then { c.strand with partNumber := reqNum r } else { c.strand with timeRef := reqNum r }
      ports := c.ports.mapVals fun x => if x.working then { x with st := 1 } else x }) := by
  have hany : (s.chip.rings.any fun x => x.2.enable = 1) = false := by simpa using hoff
  simp [putStrandIdentity, hany]

theorem Tbl.forall_mapVals {t : Tbl α} {f : α → α} {P : α → Prop} (h : ∀ a, P (f a)) : ∀ x ∈ t.mapVals f, P x.2 := by
  intro x hx
  obtain ⟨y, -, rfl⟩ := List.mem_map.1 hx
  exact h y.2

/-- The image that is staged for a table, as long as its header says (R643). -/
def Chip.stagedImage (c : Chip) : List Byte := (padTo c.mgmt.stage 12288).take (thBytes (getLE (padTo c.mgmt.stage 12288) 0 64))

theorem putTableCommit_loads {p : Nat} (e : Entry) (hfree : (s.chip.bead p).job = none) (himage : imageOk s.chip.stagedImage = true)
    (hkind : kindOk (reqNum r) (thReduction (getLE (padTo s.chip.mgmt.stage 12288) 0 64)) = true) :
    putTableCommit r e p s = (stOK, s.onChip fun c => (c.writeTable (c.shadowKey p (reqNum r)) s.chip.stagedImage).updBead p
      fun b => { b with shadowFull := modAt b.shadowFull (reqNum r) fun _ => true }) := by
  rw [Chip.stagedImage] at himage ⊢
  simp [putTableCommit, hfree, himage, hkind]

theorem State.setQueueParam_off {q : Nat} {f : QueueSt → QueueSt} (h : (s.chip.queue q).enable ≠ 1) :
    s.setQueueParam q f = (stOK, s.onChip fun c => c.setQueue q (f (c.queue q))) := if_neg h

end

/-! ## Plain entries (R423, R472) -/

section
variable {r : MgmtReq} {e : Entry} {s : State} (i : Nat)

theorem putEntry_locketMode (h : e.key = 0x300101) :
    putEntry r e i s = (stOK, s.onChip fun c => c.setFacet i { c.facet i with locketMode := reqNum r }) := by
  simp only [putEntry, h]; rfl

theorem putEntry_idleDelay (h : e.key = 0x300103) :
    putEntry r e i s = (stOK, s.onChip fun c => c.setFacet i { c.facet i with idleDelay := reqNum r }) := by
  simp only [putEntry, h]; rfl

theorem putEntry_threshold (h : e.key = 0x400002) : putEntry r e i s = (stOK, s.onChip fun c => c.setThreshold (reqNum r)) := by
  simp only [putEntry, h]

theorem putEntry_ringAddr (h : e.key = 0xB00001) :
    putEntry r e i s = s.setQueueParam i fun q => { q with ringAddr := reqNum r } := by
  simp only [putEntry, h]

end

/-! ## The four families of writes -/

theorem bootWritesTakeEffect : BootWritesTakeEffect := by
  refine ⟨bootGo_writesBy.takes ?passed, bootGo_writesBy.takes ?failed, bundleCommit_writesBy.takes ?right,
    bundleCommit_writesBy.takes ?wrong, lcRequest_writesBy.takes ?lifeCycle, warmReset_writesBy.takes ?warm⟩
  case passed =>
    intro s r e i _ _ ⟨hrom, hgo, hread, himage, hsigns, hblocks⟩
    obtain ⟨l, hboot⟩ := State.bootCheck_passed hread himage hsigns
    rw [State.claimBlock_of_left (s := s.imageTaken l) hblocks] at hboot
    refine ⟨_, putBootGo_asked e i hrom hgo, ?_⟩
    rw [hboot]
    exact ⟨rfl, rfl, rfl, rfl, rfl, rfl, rfl, rfl⟩
  case failed =>
    intro s r e i _ _ ⟨hrom, hgo, hread, himage⟩
    refine ⟨_, putBootGo_asked e i hrom hgo, ?_⟩
    rw [State.bootCheck_failed hread himage]
    exact ⟨rfl, rfl, rfl⟩
  case right =>
    intro s r e i _ _ ⟨hwait, hgo, hright⟩
    refine ⟨_, putBundleCommit_asked e i hwait hgo, State.commitBundle_right hright, fun hnone => ?_⟩
    rw [State.commitBundle_right hright, State.serveWaiting_nil (s := s.certified) hnone]
    exact ⟨rfl, rfl, rfl⟩
  case wrong =>
    intro s r e i _ _ ⟨hwait, hgo, hwrong⟩
    exact ⟨_, putBundleCommit_asked e i hwait hgo, State.commitBundle_wrong hwrong⟩
  case lifeCycle =>
    intro s r e i _ _ ⟨hright, hfree, hjobs⟩
    obtain ⟨k, seed, hcommit⟩ := State.changeLifeCycle_committed hright hfree hjobs
    obtain ⟨hotp, hnonce, hpkg⟩ := (s.renonced.onChip fun c => c.spend k).moved_frame (reqNum r) seed
    refine ⟨_, hcommit, ⟨seed, hotp⟩, (congrArg _ hotp).trans (Otp.transition_lcCount ..),
      congrArg (fun p : PkgSt => { p with lcLocked := true, production := (lifeCycle (reqNum r)).ide }) hpkg,
      (congrArg List.length hnonce).trans (length_freeBytesAt ..), fun hwipe => State.moved_erases hwipe _ seed⟩
  case warm => exact fun s r e i _ _ _ => ⟨_, rfl, rfl⟩

theorem sessionWritesTakeEffect : SessionWritesTakeEffect := by
  refine ⟨sessionRequest_writesBy.takes ?request, fun body key => sessionAccept_writesBy.takes ?accept,
    sessionClose_writesBy.takes ?close⟩
  case request =>
    intro s r e i _ _ ⟨hfree, hidle, hlife⟩
    refine ⟨_, State.requestSession_free hfree hidle hlife, fun hended => ?ended, fun hsign => ?signed, fun hid hsign => ?waits⟩
    case ended =>
      rw [State.offer_ended (s := s.asked r.value) hended]
      exact ⟨rfl, rfl⟩
    case signed =>
      rw [State.offer_signed (s := s.asked r.value) hsign]
      obtain ⟨rest, secret, hmail⟩ := (s.asked r.value).makeOffer_mailbox
      rw [hmail]
      exact ⟨rfl, rfl, rfl, List.take_left, fun hindex => State.makeOffer_lmsNext (s := s.asked r.value) hindex⟩
    case waits =>
      rw [State.offer_waits (s := s.asked r.value) hid hsign]
      exact ⟨rfl, rfl, rfl⟩
  case accept =>
    intro s r e i _ _ ⟨⟨k, hoffer, htime⟩, hkeys⟩
    obtain ⟨confirm, runs, haccept⟩ := Chip.acceptSession_taken hoffer htime hkeys
    refine ⟨inState s _, by rw [putSessionAccept, haccept]; rfl, ?_, rfl, rfl, rfl⟩
    exact (Chip.setSession_session ..).trans (if_pos rfl)
  case close =>
    intro s r e i _ _ hopen
    refine ⟨inState s _, by rw [putSessionClose, Chip.closeSession_opened hopen]; rfl, ?_⟩
    have hclosing := Chip.settleSession_closing
      (c := s.chip.setSession (reqNum r) { s.chip.session (reqNum r) with st := .closing }) (n := reqNum r)
      (by rw [Chip.setSession_session, if_pos rfl])
    exact ⟨fun hnone => hclosing.trans (if_pos hnone),
      fun hjobs => hclosing.trans ((if_neg hjobs).trans (by rw [Chip.setSession_session, if_pos rfl]))⟩

theorem entryWritesTakeEffect : EntryWritesTakeEffect := by
  refine ⟨queueEnable_writesBy.takes ?enable, queueEnable_writesBy.takes ?disable, faultLogAck_writesBy.takes ?ack,
    ringEntryWrite_writesBy.takes ?ring, strandIdentityWrite_writesBy.takes ?strand,
    fun img => tableCommit_writesBy.takes ?table, telemetryIntervalWrite_writesBy.takes ?interval,
    ((dictWrite_writesBy (by decide)).or (dictWrite_writesBy (by decide))).takes ?facet,
    (dictWrite_writesBy (by decide)).takes ?threshold, (dictWrite_writesBy (by decide)).takes ?queue⟩
  case enable =>
    intro s r e q _ _ ⟨hask, hvalid, hoff⟩
    refine ⟨_, putQueueEnable_enables e hask hvalid hoff, ?_⟩
    simp [State.onChip, QueueSt.started]
  case disable =>
    intro s r e q _ _ ⟨hask, hdone⟩
    exact ⟨_, putQueueEnable_disables e hask hdone, rfl⟩
  case ack =>
    intro s r e i _ _ ⟨hlow, hhigh⟩
    exact ⟨_, putFaultLogAck_moves e i hlow hhigh, rfl⟩
  case ring =>
    intro s r e n _ _ ⟨hidle, hvalid⟩
    obtain ⟨c, hput⟩ := putRingEntry_writes e hidle hvalid
    have hring := (c.setRing_ring n (ringOf (reqNum r) (s.chip.ring n).epoch) n).trans (if_pos rfl)
    have hepoch := congrArg RingEntry.epoch hring
    exact ⟨_, hput, hring, hepoch⟩
  case strand =>
    intro s r e i _ hentry hoff
    obtain ⟨-, hsub⟩ := findEntry_index_sub hentry
    have hports := Tbl.forall_mapVals (t := s.chip.ports) (P := fun x : PortSt => x.working = false) PortSt.not_working_retrained
    refine ⟨_, putStrandIdentity_writes i hoff, hports, fun hpart => ?_, fun href => ?_⟩
    · simp [State.onChip, hsub, hpart]
    · simp [State.onChip, hsub, href]
  case table =>
    rintro s r e p _ _ ⟨hfree, rfl, himage, hkind⟩
    refine ⟨_, putTableCommit_loads e hfree himage hkind, rfl, ?_⟩
    exact congrArg _ (Chip.bead_updBead_same ..)
  case interval => exact fun s r e i _ _ _ => ⟨_, rfl, rfl⟩
  case facet =>
    intro s r e f hown hentry _
    obtain hmode | hdelay := Bool.or_eq_true_iff.1 hown
    · obtain ⟨-, -, hsub⟩ := writes_iff.1 hmode
      refine ⟨_, putEntry_locketMode f (key_of_writes hmode hentry), ?_⟩
      rw [if_pos hsub]
      rfl
    · obtain ⟨-, -, hsub⟩ := writes_iff.1 hdelay
      refine ⟨_, putEntry_idleDelay f (key_of_writes hdelay hentry), ?_⟩
      rw [if_neg (by rw [hsub]; decide)]
      rfl
  case threshold =>
    intro s r e i hown hentry _
    exact ⟨_, putEntry_threshold i (key_of_writes hown hentry), rfl, rfl⟩
  case queue =>
    intro s r e q hown hentry hoff
    exact ⟨_, (putEntry_ringAddr q (key_of_writes hown hentry)).trans (State.setQueueParam_off hoff), rfl⟩

theorem writesAreRefused : WritesAreRefused := by
  refine ⟨fun s r e q hask hopen => ?queue, fun s r e i hout => ?ack, fun s r e p j hbound => ?table,
    fun s r e n hused => ?ring, fun s r e q hkey hon => ?param, fun s r e i hphase => ?boot, fun s r e i hid => ?bundle,
    fun s r e i hdenied => ?lifeCycle⟩
  case queue => simp [putQueueEnable, hask, Nat.ne_of_gt hopen]
  case ack => simp [putFaultLogAck, hout]
  case table => simp [putTableCommit, hbound]
  case ring => simp [putRingEntry, hused]
  case param => exact (putEntry_ringAddr q hkey).trans (if_pos hon)
  case boot => simp [putBootGo, hphase]
  case bundle => simp [putBundleCommit, hid]
  case lifeCycle => exact ⟨_, State.changeLifeCycle_refused hdenied, rfl, length_freeBytesAt .., rfl⟩

/-- Settles O38: each command of a write row is the write of its `put`, which takes the value or refuses it. -/
theorem rowsOfTheirOwnTakeEffect : Obligations.RowsOfTheirOwnTakeEffect := by
  unfold Obligations.RowsOfTheirOwnTakeEffect
  exact ⟨bootWritesTakeEffect, sessionWritesTakeEffect, entryWritesTakeEffect, writesAreRefused⟩

end Sys2Proof.Machine
end

section
/-!
Edits that remove (R274, R275): what drop_below and truncate_from make of each record, and the frames that they release.
-/
namespace Sys2Proof.Machine
open Sys2Proof Sys2Proof.Claims

/-! ## Records that an edit removes (R274, R275) -/

/-- The last token of a record lies below `pos`. -/
def KvRec.below (pos : Nat) (r : KvRec) : Bool := r.valid && r.base + pteFill r.pte ≤ pos

/-- The first token of a record is `pos` or a later one. -/
def KvRec.atOrAbove (pos : Nat) (r : KvRec) : Bool := r.valid && pos ≤ r.base

/-- What truncate_from leaves of a record: nothing, its tokens below `pos`, or all of it. -/
def KvRec.truncated (pos : Nat) (r : KvRec) : KvRec :=
  if r.atOrAbove pos then .empty
  else if r.valid && pos < r.base + pteFill r.pte then { r with pte := pteRefill r.pte (pos - r.base) } else r

section
variable {pos : Nat} {r : KvRec}

theorem KvRec.below_iff : r.below pos = true ↔ r.valid = true ∧ r.base + pteFill r.pte ≤ pos := by simp [KvRec.below]

theorem KvRec.atOrAbove_iff : r.atOrAbove pos = true ↔ r.valid = true ∧ pos ≤ r.base := by simp [KvRec.atOrAbove]

end

theorem planDrop_recs (pos : Nat) (q : SeqSt) :
    (planDrop pos q).seq.recs = q.recs.map fun r => if r.below pos then .empty else r := rfl

theorem planDrop_released (pos : Nat) (q : SeqSt) :
    (planDrop pos q).released = (q.recs.filter (·.below pos)).map fun r => pteFrame r.pte := rfl

theorem planTruncate_recs (pos : Nat) (q : SeqSt) : (planTruncate pos q).seq.recs = q.recs.map (·.truncated pos) := rfl

theorem planTruncate_released (pos : Nat) (q : SeqSt) :
    (planTruncate pos q).released = (q.recs.filter (·.atOrAbove pos)).map fun r => pteFrame r.pte := rfl

/-- The frames of the records that a test picks hold the frame of each record that it picks. -/
theorem pteFrame_mem_released {rs : List KvRec} {gone : KvRec → Bool} {r : KvRec} (hr : r ∈ rs) (hgone : gone r = true) :
    pteFrame r.pte ∈ (rs.filter gone).map fun r => pteFrame r.pte :=
  List.mem_map_of_mem (List.mem_filter.2 ⟨hr, hgone⟩)

/-- Settles O11: both edits go record by record. -/
theorem dropAndTruncateKeepTheRest : Obligations.DropAndTruncateKeepTheRest := by
  unfold Obligations.DropAndTruncateKeepTheRest
  intro pos i q r hr
  have hmem : r ∈ q.recs := List.mem_of_getElem? hr
  refine ⟨rfl, rfl, rfl, rfl, ?dropped, ?truncated, fun hvalid hbelow => ?dropFrame, fun hvalid hfrom => ?truncateFrame⟩
  case dropped =>
    rw [planDrop_recs, List.getElem?_map, hr, Option.map_some]
    simp only [KvRec.below_iff]
  case truncated =>
    rw [planTruncate_recs, List.getElem?_map, hr, Option.map_some]
    simp only [KvRec.truncated, KvRec.atOrAbove_iff, Bool.and_eq_true, decide_eq_true_eq]
  case dropFrame => exact pteFrame_mem_released hmem (KvRec.below_iff.2 ⟨hvalid, hbelow⟩)
  case truncateFrame => exact pteFrame_mem_released hmem (KvRec.atOrAbove_iff.2 ⟨hvalid, hfrom⟩)

end Sys2Proof.Machine
end

section
/-!
Walks and edits of a key-value pool (R251 to R280, R294 to R296): how they start, what a walk copies and checks, its blocks and
those of its ring, and the commits of edits.
-/
namespace Sys2Proof.Claims
open Sys2Proof Sys2Proof.Machine

/-! ## What starts and ends by another command (R89, R90) -/

section
variable {c : Chip} {p : Nat} {x : Ctx} {sel : Ctx → Bool} {foot : Chip → Ctx → Foot} {act : Ctx → Chip → Act}
  {picks : Ctx → Prop}

/-- A ready instruction runs in the command that issues it, and what it does becomes of it at once. -/
theorem Ready.issueAt_finish (h : Ready c p x picks (foot c x)) (hsel : ∀ y, sel y = true ↔ picks y)
    (hhold : ∀ d, act x (taken c x) ≠ .hold d) : issueAt sel foot p act c = Chip.finish x (foot c x) (act x (taken c x)) := by
  obtain ⟨rfl, -, -⟩ := h.ctx
  obtain ⟨-, hissue, hpick, hpark, havail, hunit, hhazard, hread, hwrite, htable⟩ := h
  have hnone : c.goOnAny sel foot act x.p = (c, false) :=
    Chip.goOnAny_unpicked fun n y k hk => Bool.eq_false_iff.2 fun hy => hpark n y k hk ((hsel y).1 hy)
  have hattempt : (c.take x.p (iWait x.i)).attempt x (foot c x) act = act x (taken c x) :=
    Chip.attempt_clear (by rw [Chip.readStalls_take, hread]) (by rw [Chip.writeStall_take, hwrite]) htable
  simp only [issueAt, hnone, Chip.issueNext, hissue, (hsel x).2 hpick, havail, hunit, hhazard, hattempt, Bool.not_true,
    Bool.or_self, Bool.false_eq_true, if_false]

/-- The command of a ready instruction that starts something answers the state in which it has, its Bead gone on. -/
theorem Ready.starts {i : Instr} {s : State} {d : Chip} (h : Ready s.chip p x picks (foot s.chip x))
    (hexec : exec i s = onChip i s (issueAt sel foot p act)) (hwf : i.wf = isBead p) (hsel : ∀ y, sel y = true ↔ picks y)
    (hact : act x (taken s.chip x) = .started d) : exec i s = .next (inState s (wentOn s.chip x d)) := by
  have hbead : isBead p = true := h.1
  obtain ⟨rfl, hrun, -⟩ := h.ctx
  have hissue := h.issueAt_finish (act := act) hsel (by simp [hact])
  rw [hact, Chip.finish, hrun] at hissue
  rw [hexec, onChip_wf (hwf.trans hbead), hissue, inState, wentOn]

end

end Sys2Proof.Claims

namespace Sys2Proof.Machine
open Sys2Proof Sys2Proof.Claims

/-- A command that acts on the chip alone, whatever its operands, answers the state with the chip that it makes. -/
theorem exec_onChip {i : Instr} {s : State} {f : Chip → Chip} {d : Chip} (hexec : exec i s = onChip i s f)
    (hwf : i.wf = true) (hchip : f s.chip = d) : exec i s = .next (inState s d) := by
  rw [hexec, onChip_wf hwf, hchip, inState]

/-! ## Walks and edits start (R261, R270) -/

/-- A DMA instruction of a list kind that is no list transfer is one on a pool. -/
theorem isDma_onPool_iff (kind : Nat) (x : Ctx) :
    (isDma (fun d => ddKind d = kind) x && !isListDma kind x) = true ↔ iClass x.i = 3 ∧ ddKind (descOf x) = kind ∧
      (if kind = 1 then ddSrcSpace (descOf x) = 0 && isPool x.cap x.v (ddSrcTensor (descOf x))
        else ddDstSpace (descOf x) = 0 && isPool x.cap x.v (ddDstTensor (descOf x))) = true := by
  simp only [isListDma, isDma, descOf, Bool.and_eq_true, Bool.not_eq_true', Bool.and_eq_false_iff, decide_eq_true_eq,
    decide_eq_false_iff_not, Bool.not_eq_false']
  exact ⟨fun ⟨⟨hclass, hkind⟩, hrest⟩ => ⟨hclass, hkind, (hrest.resolve_left (· hclass)).resolve_left (· hkind)⟩,
    fun ⟨hclass, hkind, hpool⟩ => ⟨⟨hclass, hkind⟩, .inr (.inr hpool)⟩⟩

theorem selects_walk_iff (x : Ctx) : (isDma (fun d => ddKind d = 1) x && !isListDma 1 x) = true ↔ walkAt x := by
  rw [isDma_onPool_iff, if_pos rfl, Bool.and_eq_true, decide_eq_true_eq, walkAt]

theorem selects_edit_iff (op : Nat) (x : Ctx) :
    (isDma (fun d => ddKind d = 2) x && !isListDma 2 x
      && edOp (x.consts (ddList (dmaDesc x.cap x.v (iDesc x.i))) 2) = op) = true ↔ editAt op x := by
  rw [Bool.and_eq_true, isDma_onPool_iff, if_neg (by decide), Bool.and_eq_true, decide_eq_true_eq, decide_eq_true_eq, editAt,
    listWord, descOf]
  simp only [and_assoc]

theorem walksAndEditsStart : WalksAndEditsStart :=
  ⟨fun _ _ _ hready => hready.starts rfl rfl selects_walk_iff rfl,
    fun _ _ _ hready => hready.starts rfl rfl (selects_edit_iff 0) rfl,
    fun _ _ _ hready => hready.starts rfl rfl (selects_edit_iff 1) rfl,
    fun _ _ _ hready => hready.starts rfl rfl (selects_edit_iff 2) rfl,
    fun _ _ _ hready => hready.starts rfl rfl (selects_edit_iff 3) rfl⟩

/-! ## What a walk copies, and the check of its records (R258, R266, R278) -/

/-- A list whose entries all answer gives the list of their answers. -/
theorem mapM_except_ok {α β ε : Type} {f : α → Except ε β} {l : List α} {bs : List β} (hlen : bs.length = l.length)
    (hall : ∀ (i : Nat) (b : β), bs[i]? = some b → ∃ a : α, l[i]? = some a ∧ f a = .ok b) : l.mapM f = .ok bs := by
  induction l generalizing bs with
  | nil => rw [List.length_eq_zero_iff.1 hlen]; rfl
  | cons a l ih =>
    obtain _ | ⟨b, bs⟩ := bs
    · cases hlen
    · obtain ⟨a', ha, hfirst⟩ := hall 0 b rfl
      cases ha
      have hrest : l.mapM f = .ok bs := ih (Nat.succ.inj hlen) fun i b hb => hall (i + 1) b hb
      rw [List.mapM_cons, hfirst, hrest]; rfl

/-- The records that a walk goes over: `count` from the first on, within the budget. -/
theorem walkedRecords_getElem? {budget first count i : Nat} (h : i < min count (budget - first)) :
    (((List.range budget).drop first).take count)[i]? = some (first + i) := by
  rw [List.getElem?_take_of_lt (by omega), List.getElem?_drop, List.getElem?_range (by omega)]

/-- A walk whose state tensor answers takes the copy that R278 describes. -/
theorem Chip.walkSnap_copied {c : Chip} {x : Ctx} {wd sd gen : Nat} {snap : List (Nat × Nat)} (h : Copied c x wd sd gen snap) :
    c.walkSnap x wd sd = .ok (gen, snap) := by
  obtain ⟨header, hheader, rfl, hlen, hrecs⟩ := h
  rw [Chip.walkSnap, hheader]
  dsimp only
  rw [mapM_except_ok (bs := snap) (by simpa using hlen) fun i r hr => ?_]
  · rfl
  · obtain ⟨bs, hread, rfl⟩ := hrecs i r hr
    have hi : i < snap.length := (List.getElem?_eq_some_iff.1 hr).1
    exact ⟨_, walkedRecords_getElem? (hlen ▸ hi), by rw [hread]⟩

section
variable {qfmt frames : Nat} {snap : List (Nat × Nat)}

theorem badRecord_none (hgood : ∀ r ∈ snap, recordStatus qfmt frames r.1 = none) : badRecord qfmt frames snap = none := by
  refine List.findSome?_eq_none_iff.2 fun e he => ?_
  dsimp only
  rw [hgood e.1 (List.fst_mem_of_mem_zipIdx he)]; rfl

/-- The record that fails the check first is the one found. -/
theorem badRecord_first {st i : Nat} {r : Nat × Nat} (hr : snap[i]? = some r) (hbad : recordStatus qfmt frames r.1 = some st)
    (hgood : ∀ k r', k < i → snap[k]? = some r' → recordStatus qfmt frames r'.1 = none) :
    badRecord qfmt frames snap = some (st, i) := by
  obtain ⟨hi, rfl⟩ := List.getElem?_eq_some_iff.1 hr
  have hsplit : snap.zipIdx = (snap.take i).zipIdx ++ (snap[i], i) :: (snap.drop (i + 1)).zipIdx (i + 1) := by
    have hcut := List.zipIdx_append (xs := snap.take i) (ys := snap.drop i) (k := 0)
    rw [List.take_append_drop, List.drop_eq_getElem_cons hi, List.zipIdx_cons, List.length_take_of_le (Nat.le_of_lt hi),
      Nat.zero_add] at hcut
    exact hcut
  refine List.findSome?_eq_some_iff.2 ⟨_, _, _, hsplit, ?_, fun e he => ?_⟩
  · dsimp only
    rw [hbad]; rfl
  · have hget := List.mem_zipIdx_iff_getElem?.1 he
    obtain ⟨hlt, -⟩ := List.getElem?_eq_some_iff.1 hget
    rw [List.length_take] at hlt
    rw [List.getElem?_take_of_lt (by omega)] at hget
    dsimp only
    rw [hgood e.2 e.1 (by omega) hget]; rfl

end

/-! ## Walks run (R252, R262, R265, R294 to R296) -/

section
variable {c : Chip} {n gen : Nat} {snap : List (Nat × Nat)} {w : Walk} {x : Ctx} (hwalk : c.walk? n = some w)
  (hctx : c.kvCtx w.job w.p w.g = some x)
include hwalk hctx

section
variable (hwalker : w.walker.isNone = false) (hnew : w.started = false)
  (hmem : c.tensorReady x (sqState (seqDecl x.cap x.v (wkSeq (x.consts w.wdesc 2)))) 0
    (stateBytes (seqDecl x.cap x.v (wkSeq (x.consts w.wdesc 2)))) = true)
  (hcopy : Copied c x (x.consts w.wdesc 2) (seqDecl x.cap x.v (wkSeq (x.consts w.wdesc 2))) gen snap)
include hwalker hnew hmem hcopy

theorem walkStart_good (hgood : badRecord (wkFmt (x.consts w.wdesc 2)) (walkFrames x w) snap = none) :
    walkStart n c = (((c.updWalk n fun _ => startedWalk c w gen snap).bumpId).postObj x.j x.p
      (wkStart (x.consts w.wdesc 2))).endWalk x (startedWalk c w gen snap) := by
  rw [walkFrames] at hgood
  simp only [walkStart, hwalk, hctx, hwalker, hnew, hmem, Chip.walkSnap_copied hcopy, hgood, Bool.not_true, Bool.or_self,
    Bool.false_eq_true, if_false, startedWalk]

theorem walkStart_bad {st i : Nat} (hbad : badRecord (wkFmt (x.consts w.wdesc 2)) (walkFrames x w) snap = some (st, i)) :
    walkStart n c = c.raiseNamed x.j x.p st (c.bead x.p).run.step (.record x.g (wkFirst (x.consts w.wdesc 2) + i)) := by
  rw [walkFrames] at hbad
  simp only [walkStart, hwalk, hctx, hwalker, hnew, hmem, Chip.walkSnap_copied hcopy, hbad, Bool.not_true, Bool.or_self,
    Bool.false_eq_true, if_false]

end

theorem walkBlockDelivery_delivers {d : Chip} {w' : Walk} (hstarted : w.started = true) (hended : w.ended = false)
    (hring : wkHops (x.consts w.wdesc 2) = 0 ∨ c.ringUsable (wkRing (x.consts w.wdesc 2)) x.job.session = true)
    (hall : c.deliverAll x (walkBlocks x (x.consts w.wdesc 2)) n (List.range w.dests.length) = .ok d)
    (hwalk' : d.walk? n = some w') : walkBlockDelivery n c = d.endWalk x w' := by
  have hwaits : (wkHops (x.consts w.wdesc 2) != 0 && !c.ringUsable (wkRing (x.consts w.wdesc 2)) x.job.session) = false := by
    rcases hring with hnone | husable
    · rw [hnone]; rfl
    · rw [husable, Bool.not_true, Bool.and_false]
  simp only [walkBlockDelivery, hwalk, hctx, hstarted, hended, hwaits, hall, hwalk', Bool.not_true, Bool.or_self,
    Bool.false_eq_true, if_false]

end

theorem RingBlock.sameRing_self (b : RingBlock) : b.sameRing b = true := by simp [RingBlock.sameRing]

/-- A relayed block that is next is the first of those that fill the same slots (R295). -/
theorem Chip.relayNext_first {c : Chip} {n : Nat} {b : RingBlock} {x : Ctx} {w : Walk} {key : Bool}
    (h : c.relayNext n = some (b, x, w, key)) : c.ringIn.find? b.sameRing = some b := by
  rw [Chip.relayNext] at h
  split at h
  · cases h
  · next b' hb =>
    split at h
    · cases h
    · split at h
      · cases h
      · next hearlier =>
        obtain ⟨⟨w', key'⟩, -, heq⟩ := Option.map_eq_some_iff.1 h
        cases heq
        obtain ⟨hn, hget⟩ := List.getElem?_eq_some_iff.1 hb
        refine List.find?_eq_some_iff_getElem.2 ⟨b.sameRing_self, n, hn, hget, fun k hk => ?_⟩
        have hmem : c.ringIn[k] ∈ c.ringIn.take n := List.mem_take_iff_getElem.2 ⟨k, by omega, rfl⟩
        simpa using fun hsame => hearlier (List.any_eq_true.2 ⟨_, hmem, hsame⟩)

/-- The hop of a key block that is next, with every earlier one filled, is the one in its own header (R294). -/
theorem Chip.relayHops_next {c : Chip} {n : Nat} {b : RingBlock} {x : Ctx} {w : Walk} (h : c.relayNext n = some (b, x, w, true))
    (hkey : b.object = wkKeyRing (x.consts w.wdesc 2)) : (c.relayHops x w b)[w.hops.length]? = some (hopOf x w b.data) := by
  rw [Chip.relayHops, ← hkey, List.getElem?_append_right (Nat.le_refl _), Nat.sub_self, ← List.head?_eq_getElem?,
    List.head?_map, List.head?_filter, Chip.relayNext_first h]
  rfl

theorem ringDataReceive_last {c : Chip} {n slot : Nat} {b : RingBlock} {x : Ctx} {w : Walk}
    (hnext : c.relayNext n = some (b, x, w, true)) (hhops : w.hops.length = w.relayK)
    (hlast : c.walkHops (x.consts w.wdesc 2) ≤ hopOf x w b.data + 1) (hkey : b.object = wkKeyRing (x.consts w.wdesc 2))
    (hslot : slot = ringSlot b.object (wkLen (x.consts w.wdesc 2)) ((walkBlocks x (x.consts w.wdesc 2)).length + w.relayK))
    (hdest : b.dest = 0) (hgot : b.got = []) (hfree : c.slotFree w.p slot = true)
    (hfirst : ∀ k ∈ c.arrivals w.p slot, b.arr ≤ k) :
    ringDataReceive n c =
      (c.fillFrom b.ring b.msg w.p slot (hopUp (keyHeaderAt x w) b.data)).relayDone x n w true (hopOf x w b.data) := by
  have hhop := Chip.relayHops_next hnext hkey
  rw [hhops] at hhop
  have hplace : relaySlot x w b true = slot := by rw [hslot, relaySlot, if_pos rfl]
  have hdests : c.relayDests x w b = [w.p] := if_pos hdest
  have hturn : c.firstArrival w.p slot b.arr = true := List.all_eq_true.2 fun k hk => decide_eq_true (hfirst k hk)
  have honward : decide (hopOf x w b.data + 1 < c.walkHops (x.consts w.wdesc 2)) = false := decide_eq_false (by omega)
  simp [ringDataReceive, hnext, hhop, hplace, hdests, hgot, hfree, hturn, honward]

theorem walksRun : WalksRun := by
  refine ⟨fun s n gen snap w x hwalk hctx hwalker hnew hmem hcopy => ?start,
    fun s n w w' x d hwalk hctx hstarted hended hring hall hwalk' => ?blocks,
    fun s n slot b x w hnext hhops hlast hkey hslot hdest hgot hfree hfirst => ?relayed⟩
  case start =>
    have hhas : w.walker.isNone = false := Option.isNone_eq_false_iff.2 (Option.isSome_iff_ne_none.2 hwalker)
    exact ⟨fun hgood => exec_onChip rfl rfl (walkStart_good hwalk hctx hhas hnew hmem hcopy (badRecord_none hgood)),
      fun st i r hr hbad hgood =>
        exec_onChip rfl rfl (walkStart_bad hwalk hctx hhas hnew hmem hcopy (badRecord_first hr hbad hgood))⟩
  case blocks => exact exec_onChip rfl rfl (walkBlockDelivery_delivers hwalk hctx hstarted hended hring hall hwalk')
  case relayed => exact exec_onChip rfl rfl (ringDataReceive_last hnext hhops hlast hkey hslot hdest hgot hfree hfirst)

/-! ## Edits commit (R271 to R277, R280) -/

section
variable {c : Chip} {n : Nat} {e : Edit} {x : Ctx} {q : SeqSt} (h : EditDue c n e x q)
include h

theorem editDue_walker : e.walker.isNone = false := by
  obtain ⟨-, -, hwalker, -⟩ := h
  exact Option.isNone_eq_false_iff.2 (Option.isSome_iff_ne_none.2 hwalker)

/-- Every edit but an append commits at once when it is due. -/
theorem editCommit_due (hop : edOp (x.consts e.edesc 2) ≠ 0) :
    editCommit n c =
      let sd := seqDecl x.cap x.v (edSeq (x.consts e.edesc 2))
      if edOp (x.consts e.edesc 2) = 1 then c.commitEdit x e sd (planDrop (edPos (x.consts e.edesc 2)) q)
      else if edOp (x.consts e.edesc 2) = 3 then c.commitEdit x e sd (planTruncate (edPos (x.consts e.edesc 2)) q)
      else (c.writeSeq x sd { q with recs := addScores e.keys q.recs }).endEdit x e := by
  have hwalker := editDue_walker h
  obtain ⟨hfind, hctx, -, hfirst, hmem, hseq⟩ := h
  simp only [editCommit, hfind, hctx, hwalker, hfirst, hmem, hseq, decide_eq_false hop, Bool.not_true, Bool.false_and,
    Bool.or_self, Bool.false_eq_true, if_false]
  split
  · next h0 => exact absurd h0 hop
  · next h1 => rw [if_pos h1]
  · next h3 => rw [if_neg (by omega), if_pos h3]
  · next h1 h3 => rw [if_neg h1, if_neg h3]

/-- An append commits when its pool answers too and has a frame for each new page, and its plan finds records to evict. -/
theorem editCommit_append {k : PoolSt} {r : EditResult} (hop : edOp (x.consts e.edesc 2) = 0)
    (hpool : x.job.pool? (sqPool (seqDecl x.cap x.v (edSeq (x.consts e.edesc 2)))) = some k)
    (hpages : c.tensorReady x (pdTensor (poolDecl x.cap x.v (sqPool (seqDecl x.cap x.v (edSeq (x.consts e.edesc 2)))))) 0
      ((c.tensorAlloc? x.job (pdTensor (poolDecl x.cap x.v
        (sqPool (seqDecl x.cap x.v (edSeq (x.consts e.edesc 2))))))).elim 0 (·.bytes)) = true)
    (hplan : planAppend (seqDecl x.cap x.v (edSeq (x.consts e.edesc 2))) (edFmt (x.consts e.edesc 2)) e.keys.length q k.free =
      some r)
    (hframes : newPages q (edFmt (x.consts e.edesc 2)) e.keys.length ≤ k.free.length) :
    editCommit n c = c.commitEdit x e (seqDecl x.cap x.v (edSeq (x.consts e.edesc 2))) r := by
  have hwalker := editDue_walker h
  obtain ⟨hfind, hctx, -, hfirst, hmem, hseq⟩ := h
  simp only [editCommit, hfind, hctx, hwalker, hfirst, hmem, hseq, hop, hpages, hpool, Option.elim_some, hplan,
    if_neg (Nat.not_lt.2 hframes), Bool.not_true, Bool.and_false, Bool.or_self, Bool.false_eq_true, if_false]

end

theorem editsCommit : EditsCommit := by
  refine ⟨fun s n e x q h hop => ?drop, fun s n e x q h hop => ?truncate, fun s n e x q h hop => ?score,
    fun s n e x q k r h hop hpool hpages hplan hframes => ?append⟩
  case drop => exact exec_onChip rfl rfl ((editCommit_due h (by omega)).trans (if_pos hop))
  case truncate => exact exec_onChip rfl rfl ((editCommit_due h (by omega)).trans ((if_neg (by omega)).trans (if_pos hop)))
  case score => exact exec_onChip rfl rfl ((editCommit_due h (by omega)).trans ((if_neg (by omega)).trans (if_neg (by omega))))
  case append => exact exec_onChip rfl rfl (editCommit_append h hop hpool hpages hplan hframes)

/-- Settles O10: a ready instruction starts its walk or edit in its one command; the first record that fails the check of a walk's
copy is the one named; a relayed block that is next is the first of its ring; an edit that is due is applied. -/
theorem walksAndEditsRun : Obligations.WalksAndEditsRun := by
  unfold Obligations.WalksAndEditsRun
  exact ⟨walksAndEditsStart, walksRun, editsCommit⟩

end Sys2Proof.Machine
end

section
/-!
Frames and pages of a key-value pool (R282, R284, R290, R292, R495, R610): a released frame, a starved append, and the pages of a
pre-empted job that go to host memory and come back.
-/
namespace Sys2Proof.Machine
open Sys2Proof Sys2Proof.Claims

/-! ## Frames (R282, R284) -/

theorem frameReclaim_due {c : Chip} {j pool frame : Nat} {x : Ctx} {k : PoolSt} {h : HeldFrame} (hctx : c.kvCtx j 0 0 = some x)
    (hpool : x.job.pool? pool = some k) (hheld : k.held.find? (·.frame = frame) = some h) (hdue : c.frameDue x h = true) :
    frameReclaim j pool frame c = (c.updPool j pool fun k =>
      { k with free := insertBy (· ≤ ·) frame k.free, held := k.held.filter (· != h) }).notePools j := by
  simp only [frameReclaim, hctx, hpool, Option.bind_some, hheld, hdue, if_true]

theorem poolWaitExpiry_starved {c : Chip} {n t : Nat} {e : Edit} {x : Ctx} (hfind : c.edits.find? (·.id = n) = some e)
    (hsince : e.since = some t) (hctx : c.kvCtx e.job e.p e.g = some x) (hlong : t + 8715 ≤ c.now)
    (hstarved : c.editStarved x e = true) :
    poolWaitExpiry n c = c.raiseAt x.j x.p stKvPoolEmpty (c.bead x.p).run.step := by
  simp only [poolWaitExpiry, hfind, hsince, hctx, watchTicks, hlong, decide_true, hstarved, Bool.and_self, if_true]

/-! ## Pages in host memory (R292, R495, R610) -/

/-- A slot that lies clear of every span of a region meets none of them. -/
theorem spans_clear {spans : List (Nat × Nat)} {lo hi : Nat} (h : ∀ k ∈ spans, k.2 ≤ lo ∨ hi ≤ k.1) :
    spans.any (fun k => k.1 < hi && lo < k.2) = false := by
  refine List.any_eq_false.2 fun k hk => ?_
  have hclear := h k hk
  simp only [Bool.and_eq_true, decide_eq_true_eq]
  omega

/-- Settles O12: each command's guard follows from the conditions named, the swap region's from the slot's lying clear of every
page there. -/
theorem framesAndSwapsMove : Obligations.FramesAndSwapsMove := by
  unfold Obligations.FramesAndSwapsMove
  refine ⟨fun s j pool frame x k h hctx hpool hheld hdue => ?reclaim, fun s n t e x hfind hsince hctx hlong hstarved => ?expiry,
    fun s j seq rec_ slot x q r page hctx hwanted hnext hseq hrec hvalid hhere hroom hclear hpage => ?out,
    fun s j seq rec_ frame x q r k pl hctx hseq hrec hswapped hpool hframe =>
      ⟨fun hwrong => ?wrongTag, fun page c hright hregain => ?back⟩⟩
  case reclaim => exact exec_onChip rfl rfl (frameReclaim_due hctx hpool hheld hdue)
  case expiry => exact exec_onChip rfl rfl (poolWaitExpiry_starved hfind hsince hctx hlong hstarved)
  case out =>
    simp only [swapSession, swapPool, swapFrame, swapSeq] at hseq hroom hclear hpage ⊢
    have hfits := decide_eq_false (Nat.not_lt.2 hroom)
    have hapart := spans_clear hclear
    refine exec_onChip rfl rfl ?_
    simp only [swapOut, hctx, hwanted, hnext, hseq, hrec, hvalid, hhere, hfits, hapart, hpage, Bool.not_true,
      bne_self_eq_false, Bool.or_self, Bool.false_eq_true, if_false]
  case wrongTag =>
    simp only [swappedPage, swapSession, swapPool, swapFrame, swapSeq] at hseq hpool hwrong ⊢
    refine exec_onChip rfl rfl ?_
    simp only [swapIn, hctx, hseq, hswapped, hrec, hpool, Option.bind_some, hframe, hwrong]
  case back =>
    simp only [swappedPage, swapSession, swapPool, swapFrame, swapSeq] at hseq hpool hright hregain ⊢
    refine exec_onChip rfl rfl ?_
    simp only [swapIn, hctx, hseq, hswapped, hrec, hpool, Option.bind_some, hframe, hright, hregain]
    rfl

end Sys2Proof.Machine
end

section
/-!
Compares on a busy Loupe (R304): the Loupe of a Facet takes compares in the order it receives them, so one that is ready at its own
Bead is in progress, and reports no tile yet, while an earlier one of another Bead of the Facet is not done.
-/
namespace Sys2Proof.Claims
open Sys2Proof Sys2Proof.Machine

/-- The command of a ready instruction that cannot have its results yet answers the state in which it is in progress. -/
theorem Ready.parks {i : Instr} {s : State} {d : Chip} {p : Nat} {x : Ctx} {sel : Ctx → Bool} {foot : Chip → Ctx → Foot}
    {act : Ctx → Chip → Act} {picks : Ctx → Prop} {chain : Option Nat} {waits : List (WaitKind × Nat × Nat)}
    (h : Ready s.chip p x picks (foot s.chip x)) (hexec : exec i s = onChip i s (issueAt sel foot p act))
    (hwf : i.wf = isBead p) (hsel : ∀ y, sel y = true ↔ picks y) (hact : act x (taken s.chip x) = .park chain waits d) :
    exec i s = .next (inState s (d.park x (foot s.chip x) chain waits)) := by
  have hbead : isBead p = true := h.1
  rw [hexec, onChip_wf (hwf.trans hbead), h.issueAt_finish hsel (by simp [hact]), hact, Chip.finish, inState]

/-- A compare that is ready while the Loupe of its Facet is not done with an earlier one is in progress (R304). -/
theorem Ready.loupeCompare_parks {s : State} {p : Nat} {x : Ctx} (h : Ready s.chip p x (byWord (lane 0x60)) .none)
    (hbusy : (taken s.chip x).loupeBusy x = true) :
    exec (.loupeCompare p) s = .next (inState s ((taken s.chip x).park x .none none [])) :=
  h.parks (foot := fun _ _ => .none) rfl rfl (fun y => by simp [byWord, lane]) (by simp only [hbusy, Bool.true_or, if_true])

end Sys2Proof.Claims

namespace Sys2Proof.Machine
open Sys2Proof Sys2Proof.Claims Sys2Proof.Tests

/-! ## Two Beads of one Facet at the same compare -/

/-- Bead 1 of the job has issued the compare at which Bead 0 stands, and it is in progress. -/
def withEarlierCompare (c : Chip) : Chip :=
  (c.setBead 1 { BeadSt.fresh with job := some 0, g := 1 }).park { (loupeBench 0).ctx with p := 1, g := 1 } .none none []

/-- Bead 0 at a compare of one tile, with an earlier compare of Bead 1 in progress on the Loupe of their Facet. -/
def busyLoupeBench : Bench := { loupeBench 0 with chip := fun c => withEarlierCompare ((loupeBench 0).chip c) }

/-- The chip in which the command of Bead 0 finds its compare. -/
def busyLoupe : Chip := taken busyLoupeBench.on busyLoupeBench.ctx

/-- The compare's one tile, compared. -/
def busyLoupeCompared : Except (Nat × Place) Chip :=
  busyLoupe.compareTiles busyLoupeBench.ctx (compareBlock busyLoupeBench.ctx) busyLoupeBench.ctx.stepIndex
    (loupeShape busyLoupeBench.ctx (compareBlock busyLoupeBench.ctx)) (compareTiles busyLoupeBench.ctx)

theorem busyLoupeBench_ready : Ready busyLoupeBench.on 0 busyLoupeBench.ctx (byWord (lane 0x60)) .none :=
  busyLoupeBench.ready _ _ (by decide +kernel) (by unfold byWord lane; decide +kernel)

theorem busyLoupe_busy : busyLoupe.loupeBusy busyLoupeBench.ctx = true := by decide +kernel

theorem busyLoupe_tensorsReady :
    busyLoupe.loupeReady busyLoupeBench.ctx (compareBlock busyLoupeBench.ctx)
      (loupeShape busyLoupeBench.ctx (compareBlock busyLoupeBench.ctx)) (compareTiles busyLoupeBench.ctx) = true := by
  decide +kernel

theorem busyLoupe_park_reports : (busyLoupe.park busyLoupeBench.ctx .none none []).reports = [] := by decide +kernel

/-- No tile holds poisoned data, and the completed compare would have a report under way. -/
theorem busyLoupeCompared_reports :
    ∃ d, busyLoupeCompared = .ok d ∧ (completed busyLoupeBench.on busyLoupeBench.ctx d).reports ≠ [] := by
  have hreports : ∀ d ∈ Except.good? busyLoupeCompared,
      (completed busyLoupeBench.on busyLoupeBench.ctx d).reports ≠ [] := by decide +kernel
  obtain ⟨d, hd⟩ := Except.good busyLoupeCompared (by decide +kernel)
  exact ⟨d, hd, hreports d (by rw [hd]; rfl)⟩

/-- Refutes O7: the statement says that a ready compare whose tensors answer completes, and leaves out that the Loupe of its Facet takes
compares in the order it receives them (R304). With an earlier compare of Bead 1 in progress, that of Bead 0 is in progress
too and has no report under way. -/
theorem not_roundsComplete : ¬ Obligations.RoundsComplete := by
  unfold Obligations.RoundsComplete
  rintro ⟨⟨hcompares, -⟩, -⟩
  obtain ⟨d, hcompared, hreports⟩ := busyLoupeCompared_reports
  have hcompletes := hcompares d busyLoupeBench.state 0 busyLoupeBench.ctx busyLoupeBench_ready
    ⟨busyLoupe_tensorsReady, hcompared⟩
  have hparks := busyLoupeBench_ready.loupeCompare_parks (s := busyLoupeBench.state) busyLoupe_busy
  rw [hparks] at hcompletes
  have hchips := congrArg (·.chip.reports) (Host.Outcome.next.inj hcompletes)
  exact hreports (hchips.symm.trans busyLoupe_park_reports)

end Sys2Proof.Machine
end

section
/-!
The canonical form of the memories (assumption 5): what each operation over stacked and host memory (R409, R412, R419, R427, R434,
R535, R536) and over a Locket (R358) does to it, and a Locket's bytes read back.
-/
namespace Sys2Proof.Machine
open Sys2Proof Sys2Proof.Claims

/-! ## Stacked and host memory -/

/-- The stacked and the host memory of `d` are in their form where those of `c` are. -/
structure Chip.KeepsForm (c d : Chip) : Prop where
  hbm : Mem.wf c.hbm = true → Mem.wf d.hbm = true
  host : Mem.wf c.host = true → Mem.wf d.host = true

theorem Chip.KeepsForm.of_eq {c d : Chip} (hhbm : d.hbm = c.hbm) (hhost : d.host = c.host) : c.KeepsForm d :=
  ⟨fun h => by rw [hhbm, h], fun h => by rw [hhost, h]⟩

theorem Chip.KeepsForm.refl (c : Chip) : c.KeepsForm c := .of_eq rfl rfl

theorem Chip.KeepsForm.trans {c d e : Chip} (h1 : c.KeepsForm d) (h2 : d.KeepsForm e) : c.KeepsForm e :=
  ⟨fun h => h2.hbm (h1.hbm h), fun h => h2.host (h1.host h)⟩

theorem Chip.KeepsForm.foldl {α : Type} (f : Chip → α → Chip) (hf : ∀ (c : Chip) (a : α), c.KeepsForm (f c a)) (l : List α)
    (c : Chip) : c.KeepsForm (l.foldl f c) :=
  foldl_keeps _ Chip.KeepsForm.refl (fun _ _ _ => Chip.KeepsForm.trans) f hf l c

theorem Chip.KeepsForm.loop (n : Nat) (f : Nat → Chip → Chip) (hf : ∀ (i : Nat) (c : Chip), c.KeepsForm (f i c)) (c : Chip) :
    c.KeepsForm (iter n f c) :=
  iter_keeps _ Chip.KeepsForm.refl (fun _ _ _ => Chip.KeepsForm.trans) n f hf c

theorem Chip.poisonBurst_keepsForm (c : Chip) (b : Nat) : c.KeepsForm (c.poisonBurst b) := by
  unfold Chip.poisonBurst
  split
  · exact .refl c
  · exact .of_eq rfl rfl

theorem Chip.cureBurst_keepsForm (c : Chip) (b : Nat) : c.KeepsForm (c.cureBurst b) := by
  unfold Chip.cureBurst
  dsimp only
  split
  · exact .of_eq rfl rfl
  · split <;> exact .of_eq rfl rfl

theorem Chip.storeByte_keepsForm (c : Chip) (p : Place) (b : Byte) : c.KeepsForm (c.storeByte p b) :=
  ⟨fun h => Mem.wf_write _ _ _ h, id⟩

theorem Chip.setStack_keepsForm (c : Chip) (n : Nat) (x : StackSt) : c.KeepsForm (c.setStack n x) := .of_eq rfl rfl

theorem Chip.openDetour_keepsForm (c : Chip) (p : Place) : c.KeepsForm (c.openDetour p) := by
  unfold Chip.openDetour
  split
  · exact .refl c
  · split
    · exact .refl c
    · exact (Chip.KeepsForm.loop _ _ (fun _ c => c.poisonBurst_keepsForm _) c).trans (Chip.setStack_keepsForm _ _ _)

/-- Of what a store does, opening detours and curing bursts write no byte (R419, R434). -/
theorem Chip.storeRun_keepsForm (c : Chip) (at_ : Nat → Place) (x : Nat) (bs : List Byte) : c.KeepsForm (c.storeRun at_ x bs) := by
  have hcure : ∀ (i : Nat) (c : Chip),
      c.KeepsForm (if (x + i) % 32 = 0 && i + 32 ≤ bs.length then c.cureBurst (at_ (x + i)).burst else c) := by
    intro i c
    split
    · exact c.cureBurst_keepsForm _
    · exact .refl c
  exact ((Chip.KeepsForm.loop _ _ (fun _ c => c.openDetour_keepsForm _) c).trans
    (Chip.KeepsForm.foldl _ (fun c _ => c.storeByte_keepsForm _ _) _ _)).trans (Chip.KeepsForm.loop _ _ hcure _)

/-- A part of a write is stored, or waits in its queue (R427). -/
theorem Chip.writeAt_keepsForm (c : Chip) (at_ : Nat → Place) (x : Nat) (bs : List Byte) (tell : Option (Nat × Nat)) :
    c.KeepsForm (c.writeAt at_ x bs tell) := by
  unfold Chip.writeAt
  refine Chip.KeepsForm.foldl _ (fun c e => ?_) _ _
  dsimp only
  split
  · exact .of_eq rfl rfl
  · exact c.storeRun_keepsForm _ _ _

theorem Chip.storeAt_keepsForm (c : Chip) (at_ : Nat → Place) (x : Nat) (bs : List Byte) : c.KeepsForm (c.storeAt at_ x bs) :=
  c.writeAt_keepsForm at_ x bs none

theorem Chip.storeAt_locket (c : Chip) (at_ : Nat → Place) (x : Nat) (bs : List Byte) : (c.storeAt at_ x bs).locket = c.locket := by
  obtain ⟨hbm, host, poison, st, sent, held, fs, pcs, hw, nw, bw, heq⟩ := c.storeAt_only at_ x bs
  rw [heq]

/-! ## Allocations (R409, R512, R581) -/

theorem Chip.markDirty_keepsForm (c : Chip) (slot : Nat) (ps : List Place) : c.KeepsForm (c.markDirty slot ps) := by
  unfold Chip.markDirty
  refine Chip.KeepsForm.foldl _ (fun c p => ?_) _ _
  dsimp only
  split
  · exact .refl c
  · exact .of_eq rfl rfl

theorem Chip.allocWrite_keepsForm (c : Chip) (slot : Nat) (a : Alloc) (x : Nat) (bs : List Byte) :
    c.KeepsForm (c.allocWrite slot a x bs) := by
  unfold Chip.allocWrite
  split
  · exact (Chip.storeAt_keepsForm _ _ _ _).trans (Chip.storeAt_keepsForm _ _ _ _)
  · exact (c.markDirty_keepsForm _ _).trans (Chip.storeAt_keepsForm _ _ _ _)

theorem Chip.zeroAlloc_keepsForm (c : Chip) (a : Alloc) : c.KeepsForm (c.zeroAlloc a) := by
  unfold Chip.zeroAlloc
  dsimp only
  split
  · exact (Chip.storeAt_keepsForm _ _ _ _).trans (Chip.storeAt_keepsForm _ _ _ _)
  · exact Chip.storeAt_keepsForm _ _ _ _

/-! ## Host addresses (R412, R535, R536) -/

theorem Chip.windowWrite_keepsForm (c : Chip) (x : Nat) (bs : List Byte) : c.KeepsForm (c.windowWrite x bs) :=
  (Chip.writeAt_keepsForm _ _ _ _ _).trans (Chip.writeAt_keepsForm _ _ _ _ _)

theorem Chip.backInvalidate_keepsForm (c : Chip) (e : Option Nat) (x n : Nat) : c.KeepsForm (c.backInvalidate e x n) := by
  unfold Chip.backInvalidate
  extract_lets hit d
  have hsent : c.KeepsForm d :=
    Chip.KeepsForm.foldl (fun (c : Chip) (h : Nat × Nat) => c.send (.backInvalidate h.2 h.1)) (fun _ _ => .of_eq rfl rfl) _ c
  exact hsent.trans (.of_eq rfl rfl)

theorem Chip.afterBi_keepsForm (c : Chip) (w : BiWrite) (f : Chip → Chip) (hf : ∀ c : Chip, c.KeepsForm (f c)) :
    c.KeepsForm (c.afterBi w f) := by
  unfold Chip.afterBi
  dsimp only
  split
  · exact (c.backInvalidate_keepsForm _ _ _).trans (.of_eq rfl rfl)
  · exact (c.backInvalidate_keepsForm _ _ _).trans (hf _)

/-- Bytes at host addresses go into the window, or outside the part. -/
theorem Chip.hostWriteRun_keepsForm (c : Chip) (a : Nat) (bs : List Byte) : c.KeepsForm (c.hostWriteRun a bs) := by
  unfold Chip.hostWriteRun
  split
  · exact c.afterBi_keepsForm _ _ fun c => c.windowWrite_keepsForm _ _
  · exact ⟨id, fun h => Mem.wf_writeN _ _ _ h⟩

theorem Chip.hostWrite_keepsForm (c : Chip) (a : Nat) (bs : List Byte) : c.KeepsForm (c.hostWrite a bs) := by
  unfold Chip.hostWrite
  split
  · exact Chip.hostWriteRun_keepsForm _ _ _
  · exact Chip.KeepsForm.foldl _ (fun c e => c.hostWriteRun_keepsForm _ _) _ _

/-! ## A Bead's Locket (R358) -/

/-- A run of bytes reads back as written. -/
theorem Mem.readN_writeN_same (m : Mem) (k : Nat) (bs : List Byte) (h : Mem.wf m = true) :
    (m.writeN k bs).readN k bs.length = bs := by
  induction bs generalizing m k with
  | nil => rfl
  | cons b bs ih =>
    have hm := Mem.wf_write m k b h
    have hfirst : Mem.read ((m.write k b).writeN (k + 1) bs) k = b := by
      rw [Mem.read_writeN _ _ _ _ hm, if_neg (by omega), Mem.read_write m k b k h, if_pos rfl]
    rw [Mem.writeN, List.length_cons, Mem.readN, hfirst, ih _ _ hm]

/-- Settles O51: every operation over a memory comes down to bytes written one by one. -/
theorem storesKeepTheForm : Obligations.StoresKeepTheForm := by
  unfold Obligations.StoresKeepTheForm
  refine ⟨fun c at_ x bs h => ?stored, fun c a bs hhbm hhost => ?host, fun c p bank off bs h => ?locket,
    fun c slot a x bs h => ?alloc⟩
  case stored => exact ⟨(c.storeAt_keepsForm at_ x bs).hbm h, c.storeAt_locket at_ x bs⟩
  case host => exact ⟨(c.hostWrite_keepsForm a bs).hbm hhbm, (c.hostWrite_keepsForm a bs).host hhost⟩
  case locket => exact ⟨Mem.wf_writeN _ _ _ h, Mem.readN_writeN_same _ _ _ h⟩
  case alloc => exact ⟨(c.allocWrite_keepsForm slot a x bs).hbm h, (c.zeroAlloc_keepsForm a).hbm h⟩

end Sys2Proof.Machine
end

section
/-!
Colliding accesses of a Locket bank (R39, R361 to R365): what the writes of one port leave in its row, what both ports of a bank do in
one fc, and which bytes two writes of one row leave.
-/
namespace Sys2Proof.Machine
open Sys2Proof Sys2Proof.Claims

/-! ## The writes of one port (R358) -/

theorem lockKey_row (p bank row : Nat) {off : Nat} (hoff : off < 64) :
    lockKey p bank (64 * row + off) = lockKey p bank (64 * row) + off := by
  simp only [lockKey]; omega

/-- Of several writes the later ones come before the first. -/
theorem given_cons (e : Nat × Byte) (w : RowWrite) (off : Nat) :
    given (e :: w) off = (given w off).or (if e.1 = off then some e.2 else none) := by
  simp only [given, List.reverse_cons, List.find?_append, List.find?_cons, List.find?_nil, Option.map_or]
  by_cases h : e.1 = off <;> simp [h]

theorem Chip.rowWrite_cons (c : Chip) (p bank row : Nat) (e : Nat × Byte) (w : RowWrite) :
    c.rowWrite p bank row (e :: w) = (c.lockWrite p bank (64 * row + e.1) [e.2]).rowWrite p bank row w := rfl

@[simp] theorem Chip.lockWrite_locket (c : Chip) (p bank off : Nat) (bs : List Byte) :
    (c.lockWrite p bank off bs).locket = c.locket.writeN (lockKey p bank off) bs := rfl

theorem Chip.wf_rowWrite {c : Chip} (p bank row : Nat) (w : RowWrite) (h : Mem.wf c.locket = true) :
    Mem.wf (c.rowWrite p bank row w).locket = true := by
  induction w generalizing c with
  | nil => exact h
  | cons e w ih => exact ih (Mem.wf_writeN _ _ _ h)

/-- A byte of the row is the one that the writes give it, and any other byte of a Locket reads as before. -/
theorem Chip.read_rowWrite {c : Chip} {w : RowWrite} (p bank row : Nat) (hw : RowWrite.wf 1 w = true) (h : Mem.wf c.locket = true)
    (a : Nat) :
    Mem.read (c.rowWrite p bank row w).locket a =
      if lockKey p bank (64 * row) ≤ a ∧ a < lockKey p bank (64 * row) + 64
      then (given w (a - lockKey p bank (64 * row))).getD (Mem.read c.locket a) else Mem.read c.locket a := by
  induction w generalizing c with
  | nil => exact (ite_self _).symm
  | cons e w ih =>
    simp only [RowWrite.wf, List.all_cons, Bool.and_eq_true, decide_eq_true_eq] at hw
    obtain ⟨hfirst, hrest⟩ := hw
    have hbyte : Mem.read (c.locket.writeN (lockKey p bank (64 * row) + e.1) [e.2]) a =
        if a = lockKey p bank (64 * row) + e.1 then e.2 else Mem.read c.locket a := Mem.read_write _ _ _ a h
    rw [Chip.rowWrite_cons, ih hrest (Mem.wf_writeN _ _ _ h), Chip.lockWrite_locket, lockKey_row p bank row (by omega), hbyte,
      given_cons]
    generalize lockKey p bank (64 * row) = k
    by_cases hin : k ≤ a ∧ a < k + 64
    · rw [if_pos hin, if_pos hin]
      cases given w (a - k) with
      | some b => rfl
      | none =>
        by_cases ha : a = k + e.1
        · rw [if_pos ha, if_pos (by omega)]; rfl
        · rw [if_neg ha, if_neg (by omega)]; rfl
    · rw [if_neg hin, if_neg hin, if_neg (by omega)]

/-! ## Both ports of a bank in one fc (R39, R361 to R365) -/

theorem Chip.replayed_locket (c : Chip) (p bank port : Nat) (r : LockReq) : (c.replayed p bank port r).locket = c.locket := rfl

theorem Chip.busyWarning_locket (c : Chip) (p bank : Nat) : (c.busyWarning p bank).locket = c.locket := rfl

/-- Replays and warnings write no Locket: port 1's access lands on what port 0's has left. -/
theorem Chip.portPair_locket (c : Chip) (u : UnitFacts) (p bank : Nat) (r0 r1 : LockReq) :
    (c.portPair u p bank r0 r1).locket = ((c.portAccess p bank r0).portAccess p bank r1).locket := by
  have hwarned : ∀ d : Chip, (if writeFirst u c p bank then d else d.busyWarning p bank).locket = d.locket := by
    intro d
    split
    · rfl
    · exact d.busyWarning_locket p bank
  unfold Chip.portPair
  dsimp only
  split
  · rfl
  · cases r0.write with
    | none =>
      cases r1.write with
      | none => rfl
      | some w1 => exact (Chip.replayed_locket _ _ _ _ _).trans (hwarned _)
    | some w0 =>
      cases r1.write with
      | none => exact (Chip.replayed_locket _ _ _ _ _).trans (hwarned _)
      | some w1 => exact Chip.replayed_locket _ _ _ _ _

/-- The requests of two requesters that each get a port, where none of the bank retries: both are carried out, and none retries. -/
theorem bankCollisionReplay_pair {c : Chip} {p bank : Nat} {r0 r1 : LockReq} (u : UnitFacts) (hpower : c.pkg.power = .running)
    (hawake : (c.facet (physFacet p)).retention = 0) (hretry : ∀ e ∈ (c.bead p).retry, e.1 ≠ bank) (hwho : r0.who ≠ r1.who)
    (hgrant : locketGrant bank [r0.who, r1.who] = (some r0.who, some r1.who)) :
    bankCollisionReplay p bank [r0, r1] u c = (c.setBead p (c.bead p)).portPair u p bank r0 r1 := by
  have hmine : (c.bead p).retry.filter (·.1 = bank) = [] :=
    List.filter_eq_nil_iff.2 fun e he => by simpa using hretry e he
  have hothers : (c.bead p).retry.filter (·.1 != bank) = (c.bead p).retry :=
    List.filter_eq_self.2 fun e he => by simpa using hretry e he
  have hheads : lockHeads [r0, r1] = [r0, r1] := by simp [lockHeads, hwho]
  simp [bankCollisionReplay, hpower, hawake, hmine, hothers, hheads, hgrant, hwho]

/-- Of two writes of one row, a byte of it is the one that port 1 gives it, else the one that port 0 does, and any other byte of a
Locket reads as before (R363). -/
theorem Chip.read_portPair {c : Chip} {a b row : Nat} {w0 w1 : RowWrite} (u : UnitFacts) (p bank : Nat) (h : Mem.wf c.locket = true)
    (hw0 : RowWrite.wf 1 w0 = true) (hw1 : RowWrite.wf 1 w1 = true) (k : Nat) :
    Mem.read (c.portPair u p bank ⟨a, row, false, some w0⟩ ⟨b, row, false, some w1⟩).locket k =
      if lockKey p bank (64 * row) ≤ k ∧ k < lockKey p bank (64 * row) + 64
      then (given w1 (k - lockKey p bank (64 * row))).getD
        ((given w0 (k - lockKey p bank (64 * row))).getD (Mem.read c.locket k))
      else Mem.read c.locket k := by
  have hboth : (c.portPair u p bank ⟨a, row, false, some w0⟩ ⟨b, row, false, some w1⟩).locket =
      ((c.rowWrite p bank row w0).rowWrite p bank row w1).locket := Chip.portPair_locket _ _ _ _ _ _
  rw [hboth, Chip.read_rowWrite p bank row hw1 (Chip.wf_rowWrite p bank row w0 h), Chip.read_rowWrite p bank row hw0 h]
  split <;> rfl

/-- Settles O60: the write on port 1 lands on the row that the one on port 0 has left. -/
theorem collidingWritesKeepPortOne : Obligations.CollidingWritesKeepPortOne := by
  unfold Obligations.CollidingWritesKeepPortOne
  intro s p bank row a b w0 w1 hbead hbank hrow ha hb hab hw0 hw1 hpower hawake hretry hgrant hform
  have hwf : (Instr.bankCollisionReplay p bank [⟨a, row, false, some w0⟩, ⟨b, row, false, some w1⟩]).wf = true := by
    have hlast : row + 1 ≤ 8192 := hrow
    simp [Instr.wf, LockReq.wf, LockReq.rows, hbead, hbank, ha, hb, hlast, hw0, hw1]
  have hrun := bankCollisionReplay_pair (r0 := ⟨a, row, false, some w0⟩) (r1 := ⟨b, row, false, some w1⟩) s.unit
    hpower hawake (by simp [hretry]) hab hgrant
  have hbytes := Chip.read_portPair (c := s.chip.setBead p (s.chip.bead p)) (a := a) (b := b) (row := row) s.unit p bank hform hw0 hw1
  refine ⟨_, exec_onChip rfl hwf hrun, fun off hoff => ?row, fun k hk => ?others⟩
  case row =>
    refine (hbytes _).trans ?_
    rw [lockKey_row p bank row hoff, if_pos (by omega), Nat.add_sub_cancel_left]
    cases given w1 off with
    | some b1 => rfl
    | none => cases given w0 off <;> rfl
  case others => exact (hbytes k).trans (if_neg (by omega))

end Sys2Proof.Machine
end

section
/-!
Barriers, the SYNC class and reductions (R366 to R373, R377, R380, R392 to R395): what a post, a drain and a close leave of an
object in the state that they need, and what a contribution does to its round.
-/
namespace Sys2Proof.Claims
open Sys2Proof Sys2Proof.Machine

theorem Ready.picked {c : Chip} {p : Nat} {x : Ctx} {picks : Ctx → Prop} {f : Foot} (h : Ready c p x picks f) : picks x := by
  obtain ⟨-, -, hpick, -⟩ := h
  exact hpick

/-- The command of a ready instruction that stays where it stands answers the state in which it has had its effect. -/
theorem Ready.stays {i : Instr} {s : State} {d : Chip} {p : Nat} {x : Ctx} {sel : Ctx → Bool} {foot : Chip → Ctx → Foot}
    {act : Ctx → Chip → Act} {picks : Ctx → Prop} (h : Ready s.chip p x picks (foot s.chip x))
    (hexec : exec i s = onChip i s (issueAt sel foot p act)) (hwf : i.wf = isBead p) (hsel : ∀ y, sel y = true ↔ picks y)
    (hact : act x (taken s.chip x) = .more d) : exec i s = .next (inState s d) := by
  have hbead : isBead p = true := h.1
  rw [hexec, onChip_wf (hwf.trans hbead), h.issueAt_finish hsel (by simp [hact]), hact]
  rfl

/-- A SYNC instruction is picked by its class and its operation (Table 11.2). -/
theorem byWord_sync_iff (op : Nat) (y : Ctx) : (iClass y.i = 4 && syOp y.i = op) = true ↔ byWord (sync op) y := by
  simp [byWord, sync]

theorem byWord_ctrl_iff (op : Nat) (y : Ctx) : isCtrl y.i op = true ↔ byWord (ctrl op) y := by
  simp [byWord, ctrl, isCtrl]

end Sys2Proof.Claims

namespace Sys2Proof.Machine
open Sys2Proof Sys2Proof.Claims

/-! ## Barriers (R369) -/

theorem barriersComplete : BarriersComplete := by
  refine ⟨fun s p x hready => ?arrive, fun s j obj x hobj hjob hphase hmet => ?release⟩
  case arrive =>
    obtain ⟨rfl, -⟩ := hready.ctx
    exact hready.stays (foot := fun _ _ => .none) rfl rfl (byWord_ctrl_iff 7) rfl
  case release =>
    have hall : (List.range x.beads).all (x.barriers.get [] obj).contains = true := by
      simpa [List.all_eq_true] using hmet
    have hwf : (Instr.barrierRelease j obj).wf = true := decide_eq_true hobj
    refine exec_onChip rfl hwf ?_
    simp only [barrierRelease, hjob, hphase, hall, decide_true, Bool.and_self, if_true]

/-! ## Sync objects (R368, R370, R373, R380) -/

section
variable {c : Chip} {q n : Nat} {o : SyncObj}

theorem Chip.setVal_of_obj (h : c.obj? q n = some o) (v : SyncVal) : c.setVal q n v = c.setObj q n { o with val := v } := by
  rw [Chip.setVal, h]

theorem Chip.objVal?_of_obj (h : c.obj? q n = some o) : c.objVal? q n = some o.val := by rw [Chip.objVal?, h]; rfl

/-- A post that keeps a semaphore at most 65,535 adds its count (R368). -/
theorem Chip.postSem_fits {v k : Nat} (j : Nat) (h : c.obj? q n = some o) (hval : o.val = .sem v) (hfits : v + k ≤ 65535) :
    c.postSem j q n k = c.setObj q n { o with val := .sem (v + k) } := by
  have hmax : ¬ u16max < v + k := Nat.not_lt.2 hfits
  simp only [Chip.postSem, h, hval, hmax, if_false, Chip.setVal]

/-- A drain of a FULL slot makes it EMPTY (R373). -/
theorem Chip.drainSlot_full {f : Bool} (j : Nat) (h : c.obj? q n = some o) (hval : o.val = .slot .full f) :
    c.drainSlot j q n = c.setObj q n { o with val := .slot .empty f } := by
  simp only [Chip.drainSlot, h, hval, Chip.setVal]

/-- A window that no transfer in flight has been admitted to has no access under way (R380). -/
theorem Chip.windowBusy_idle (h : ∀ t ∈ c.transfers, t.window ≠ some (q, n) ∧ ∀ e ∈ t.dests, e.p = q → e.obj = n → e.st ≠ .filling) :
    c.windowBusy q n = false := by
  rw [Chip.windowBusy, List.any_eq_false]
  intro t ht
  obtain ⟨hwindow, hdests⟩ := h t ht
  simpa [hwindow] using hdests

theorem Chip.setObj_windowBusy (o : SyncObj) (m : Nat) : (c.setObj q m o).windowBusy q n = c.windowBusy q n := rfl

end

theorem syncInstructionsComplete : SyncInstructionsComplete := by
  refine ⟨fun q o v s p x hready ⟨htarget, hobj, hval, hfits⟩ => ?post, fun o s p x hready ⟨hobj, hval⟩ => ?fill,
    fun o f s p x hready ⟨hobj, hval⟩ => ?drain, fun o s p x hready hobj => ?opens, fun o s p x hready ⟨hobj, hidle⟩ => ?close,
    fun s p x hready _ => ?contribute⟩
  case post =>
    refine hready.completes (foot := fun _ _ => .none) rfl rfl (byWord_sync_iff 0) ?_
    dsimp only
    rw [← htarget, Chip.postSem_fits x.j hobj hval hfits]
  case fill =>
    refine hready.completes (foot := fun _ _ => .none) rfl rfl (byWord_sync_iff 1) ?_
    rw [Chip.objVal?_of_obj hobj, hval, Chip.setVal_of_obj hobj]
  case drain =>
    refine hready.completes (foot := fun _ _ => .none) rfl rfl (byWord_sync_iff 2) ?_
    rw [Chip.objVal?_of_obj hobj, hval, Chip.drainSlot_full x.j hobj hval]
  case opens =>
    refine hready.completes (foot := fun _ _ => .none) rfl rfl (byWord_sync_iff 3) ?_
    rw [Chip.setVal_of_obj hobj]
  case close =>
    obtain ⟨rfl, -, hchain⟩ := hready.ctx
    refine hready.completes (foot := fun _ _ => .none) rfl rfl (byWord_sync_iff 4) ?_
    simp only [hchain, Option.isNone_none, if_true, Chip.setVal_of_obj hobj, Chip.setObj_windowBusy, Chip.windowBusy_idle hidle,
      Bool.false_eq_true, if_false]
  case contribute =>
    obtain ⟨-, hop⟩ := hready.picked
    have hfoot : Ready s.chip p x (byWord (sync 5)) (contributeFoot x) := by rw [contributeFoot, if_pos hop]; exact hready
    exact hfoot.completes (foot := fun _ => contributeFoot) rfl rfl (byWord_sync_iff 5) rfl

/-! ## Reductions (R394, R395) -/

/-- A contribution that is under way is a second one of its index, the last of its round, or one of those before it. -/
theorem contributionArrival_due {c : Chip} {j n d : Nat} {k : Contrib} {rest : List Contrib} {x : Job}
    (htake : takeNth (fun k : Contrib => k.job = j) n c.contribs = some (k, rest)) (hjob : c.job? j = some x)
    (hd : d = constWords (c.capsule x.setting) x.variant k.entry 2) :
    contributionArrival j n c =
      if c.arrived x d k.idx then
        (contribLeft c rest).raiseDie j (dieFacet ((groupFacets x.size x.base).getD (rdHome d) 0)) stReduceDuplicate k.step
          (.contributor k.entry k.idx)
      else if (List.range (rdN d)).all (((contribLeft c rest).storeContrib x d k).arrived x d) then
        ((contribLeft c rest).storeContrib x d k).completeReduction j x d
      else (contribLeft c rest).storeContrib x d k := by
  rw [contributionArrival, htake, hjob, hd]
  rfl

theorem contributionsArrive : ContributionsArrive := by
  intro s j n d k rest x htake hjob hd
  have hdue := contributionArrival_due htake hjob hd
  refine ⟨fun hnew ⟨i, hi, hmissing⟩ => ?waits, fun hnew hall => ?last, fun hsecond => ?again⟩
  case waits =>
    have hsome : ¬ (List.range (rdN d)).all (((contribLeft s.chip rest).storeContrib x d k).arrived x d) = true := by
      intro hall
      rw [List.all_eq_true.1 hall i (List.mem_range.2 hi)] at hmissing
      cases hmissing
    rw [hnew, if_neg Bool.false_ne_true, if_neg hsome] at hdue
    exact exec_onChip rfl rfl hdue
  case last =>
    have hevery : (List.range (rdN d)).all (((contribLeft s.chip rest).storeContrib x d k).arrived x d) = true :=
      List.all_eq_true.2 fun i hi => hall i (List.mem_range.1 hi)
    rw [hnew, if_neg Bool.false_ne_true, if_pos hevery] at hdue
    exact exec_onChip rfl rfl hdue
  case again =>
    rw [hsecond, if_pos rfl] at hdue
    exact exec_onChip rfl rfl hdue

/-- Settles O6: each object is in the state that its instruction needs, and a contribution is the second one of its index, the last of
its round or an earlier one. -/
theorem barriersSyncAndContributionsComplete : Obligations.BarriersSyncAndContributionsComplete := by
  unfold Obligations.BarriersSyncAndContributionsComplete
  exact ⟨barriersComplete, syncInstructionsComplete, contributionsArrive⟩

end Sys2Proof.Machine
end

section
/-!
Slices of stacked memory (R413, R415, R426 to R428): what serving a queue and a step of training leave of the slices.
-/
namespace Sys2Proof.Machine
open Sys2Proof Sys2Proof.Claims

/-! ## What leaves the slices as they are -/

/-- Pseudo-channels stand in `d` as in `c`, with the same refreshes owed, and so do the slices in progress and the last ends. -/
structure Chip.SlicesStand (c d : Chip) : Prop where
  st : ∀ i, (d.pcSt i).st = (c.pcSt i).st
  owed : ∀ i, (d.pcSt i).owed = (c.pcSt i).owed
  slice : ∀ n, (d.stack n).slice = (c.stack n).slice
  ended : ∀ n, (d.stack n).lastSliceEnd = (c.stack n).lastSliceEnd

theorem Chip.SlicesStand.of_eq {c d : Chip} (hpcs : d.pcs = c.pcs) (hstacks : d.stackTab = c.stackTab) : c.SlicesStand d where
  st _ := by rw [Chip.pcSt, hpcs, Chip.pcSt]
  owed _ := by rw [Chip.pcSt, hpcs, Chip.pcSt]
  slice _ := by rw [Chip.stack, hstacks, Chip.stack]
  ended _ := by rw [Chip.stack, hstacks, Chip.stack]

theorem Chip.SlicesStand.refl (c : Chip) : c.SlicesStand c := .of_eq rfl rfl

theorem Chip.SlicesStand.trans {c d e : Chip} (h1 : c.SlicesStand d) (h2 : d.SlicesStand e) : c.SlicesStand e where
  st i := (h2.st i).trans (h1.st i)
  owed i := (h2.owed i).trans (h1.owed i)
  slice n := (h2.slice n).trans (h1.slice n)
  ended n := (h2.ended n).trans (h1.ended n)

theorem Chip.SlicesStand.foldl {α : Type} (f : Chip → α → Chip) (hf : ∀ (c : Chip) (a : α), c.SlicesStand (f c a)) (l : List α)
    (c : Chip) : c.SlicesStand (l.foldl f c) :=
  foldl_keeps _ Chip.SlicesStand.refl (fun _ _ _ => Chip.SlicesStand.trans) f hf l c

theorem Chip.SlicesStand.loop (n : Nat) (f : Nat → Chip → Chip) (hf : ∀ (i : Nat) (c : Chip), c.SlicesStand (f i c)) (c : Chip) :
    c.SlicesStand (iter n f c) :=
  iter_keeps _ Chip.SlicesStand.refl (fun _ _ _ => Chip.SlicesStand.trans) n f hf c

theorem Chip.setPc_slicesStand {c : Chip} {pc : Nat} {x : PcSt} (hst : x.st = (c.pcSt pc).st) (howed : x.owed = (c.pcSt pc).owed) :
    c.SlicesStand (c.setPc pc x) where
  st i := by
    rw [Chip.setPc_pcSt]
    split
    · next hi => rw [hi, hst]
    · rfl
  owed i := by
    rw [Chip.setPc_pcSt]
    split
    · next hi => rw [hi, howed]
    · rfl
  slice _ := rfl
  ended _ := rfl

theorem Chip.setStack_slicesStand {c : Chip} {n : Nat} {x : StackSt} (hslice : x.slice = (c.stack n).slice)
    (hended : x.lastSliceEnd = (c.stack n).lastSliceEnd) : c.SlicesStand (c.setStack n x) where
  st _ := rfl
  owed _ := rfl
  slice m := by
    rw [Chip.setStack_stack]
    split
    · next hm => rw [hm, hslice]
    · rfl
  ended m := by
    rw [Chip.setStack_stack]
    split
    · next hm => rw [hm, hended]
    · rfl

/-! ## Serving a queue (R427) -/

theorem Chip.poisonBurst_slicesStand (c : Chip) (b : Nat) : c.SlicesStand (c.poisonBurst b) := by
  unfold Chip.poisonBurst
  split
  · exact .refl c
  · exact .of_eq rfl rfl

theorem Chip.cureBurst_slicesStand (c : Chip) (b : Nat) : c.SlicesStand (c.cureBurst b) := by
  unfold Chip.cureBurst
  extract_lets d
  have hpoison : c.SlicesStand d := .of_eq rfl rfl
  split
  · exact hpoison
  · split
    · exact hpoison
    · exact hpoison.trans (Chip.setStack_slicesStand rfl rfl)

theorem Chip.storeByte_slicesStand (c : Chip) (p : Place) (b : Byte) : c.SlicesStand (c.storeByte p b) := .of_eq rfl rfl

theorem Chip.openDetour_slicesStand (c : Chip) (p : Place) : c.SlicesStand (c.openDetour p) := by
  unfold Chip.openDetour
  split
  · exact .refl c
  · split
    · exact .refl c
    · extract_lets poisoned
      have hpoisoned : c.SlicesStand poisoned := Chip.SlicesStand.loop _ _ (fun _ c => c.poisonBurst_slicesStand _) c
      clear_value poisoned
      exact hpoisoned.trans (Chip.setStack_slicesStand rfl rfl)

theorem Chip.storeRun_slicesStand (c : Chip) (at_ : Nat → Place) (x : Nat) (bs : List Byte) :
    c.SlicesStand (c.storeRun at_ x bs) := by
  unfold Chip.storeRun
  extract_lets n opened stored
  have hopened : c.SlicesStand opened := Chip.SlicesStand.loop _ _ (fun _ c => c.openDetour_slicesStand _) c
  have hstored : opened.SlicesStand stored := by
    refine Chip.SlicesStand.foldl _ (fun c e => ?_) _ _
    exact c.storeByte_slicesStand _ _
  refine (hopened.trans hstored).trans (Chip.SlicesStand.loop _ _ (fun i c => ?_) _)
  split
  · exact c.cureBurst_slicesStand _
  · exact .refl c

theorem Chip.partDone_slicesStand (c : Chip) (gone : Bool) (r : MemReq) : c.SlicesStand (c.partDone gone r) := by
  unfold Chip.partDone
  split
  · exact .refl c
  · split
    · exact .refl c
    · extract_lets w rest
      split <;> exact .of_eq rfl rfl

theorem Chip.settled_slicesStand (c : Chip) (pc : Nat) : c.SlicesStand (c.settled pc) := by
  unfold Chip.settled
  split
  · exact .refl c
  · refine .trans ?_ (Chip.SlicesStand.foldl _ (fun c _ => c.storeRun_slicesStand _ _ _) _ _)
    exact Chip.setPc_slicesStand rfl rfl

theorem Chip.drainQueue_slicesStand (c : Chip) (pc : Nat) : c.SlicesStand (c.drainQueue pc) :=
  (c.settled_slicesStand pc).trans (Chip.SlicesStand.foldl _ (fun c _ => c.partDone_slicesStand _ _) _ _)

/-! ## Training (R428, R429) -/

theorem Chip.trainFrom_slicesStand (c : Chip) (st i : Nat) : c.SlicesStand (c.trainFrom st i) := by
  unfold Chip.trainFrom
  split <;> exact Chip.setStack_slicesStand rfl rfl

/-- A slice that is one of an attempt, ends a good one, or ends a bad one, changes how far the retrain is alone. -/
theorem Chip.trainStep_slicesStand (c : Chip) (st i n : Nat) (ok : Bool) : c.SlicesStand (c.trainStep st i n ok) := by
  unfold Chip.trainStep
  dsimp only
  split
  · exact Chip.setStack_slicesStand rfl rfl
  · split
    · refine .trans ?_ (Chip.trainFrom_slicesStand _ _ _)
      exact Chip.setPc_slicesStand rfl rfl
    · have hbad : c.SlicesStand (c.updPc (32 * st + i) fun x => { x with badTrains := (c.pcSt (32 * st + i)).badTrains + 1 }) :=
        Chip.setPc_slicesStand rfl rfl
      split
      · exact hbad.trans (Chip.setStack_slicesStand rfl rfl)
      · exact hbad.trans (Chip.trainFrom_slicesStand _ _ _)

/-! ## Refreshes and slices -/

/-- The pseudo-channel runs again, and its slice is over. -/
def Chip.sliceOver (c : Chip) (pc : Nat) : Chip :=
  (c.updPc pc fun x => { x with st := 0, owed := [] }).updStack (pcStack pc) fun s =>
    { s with slice := none, lastSliceEnd := some c.now }

/-- What the end of a slice does after that, draining the queue and training, leaves the slices as they are. -/
theorem sliceEnd_slicesStand {c : Chip} {pc : Nat} {k : Slice} (ok : Bool) (hslice : (c.stack (pcStack pc)).slice = some k)
    (hpc : k.pc = pc) : (c.sliceOver pc).SlicesStand (sliceEnd pc ok c) := by
  have hdrained : (c.sliceOver pc).SlicesStand ((c.sliceOver pc).drainQueue pc) := Chip.drainQueue_slicesStand _ _
  simp only [sliceEnd, hslice, hpc, bne_self_eq_false, Bool.false_eq_true, if_false]
  split
  · exact hdrained.trans (Chip.trainStep_slicesStand _ _ _ _ _)
  · exact hdrained

/-- Settles O25: each command does its one change of its pseudo-channel and its stack, and a queue that drains or a retrain that goes on
takes nothing of it back. -/
theorem refreshAndSlicesRun : Obligations.RefreshAndSlicesRun := by
  unfold Obligations.RefreshAndSlicesRun
  refine ⟨fun s pc bank hpc hbank hdue hlost hstack hpower => ?refresh, fun s st low hst hruns hidle hcause => ?retrain,
    fun s pc k hpc hk hfree hwanted => ?begins, fun s pc ok k hpc hslice hk => ?ends⟩
  case refresh =>
    refine ⟨_, exec_onChip rfl (by simp [Instr.wf, hpc, hbank]) rfl, ?_⟩
    by_cases hheld : (s.chip.pcSt pc).st = 1 <;> simp [refresh, hdue, hlost, hstack, hpower, hheld, inState, Tbl.get_put]
  case retrain =>
    refine ⟨_, exec_onChip rfl hst rfl, ?_⟩
    simp [retrainStart, hruns, hidle, hcause, inState]
  case begins =>
    refine ⟨_, exec_onChip rfl (by simp [Instr.wf, hpc, hk]) rfl, ?_⟩
    rw [sliceBegin, hfree, hwanted]
    exact ⟨congrArg PcSt.st ((Chip.setPc_pcSt ..).trans (if_pos rfl)),
      congrArg StackSt.slice ((Chip.setStack_stack ..).trans (if_pos rfl))⟩
  case ends =>
    have hstand := sliceEnd_slicesStand ok hslice hk
    refine ⟨_, exec_onChip rfl hpc rfl, ?_⟩
    have hrun : (s.chip.sliceOver pc).pcSt pc = { s.chip.pcSt pc with st := 0, owed := [] } :=
      (Chip.setPc_pcSt ..).trans (if_pos rfl)
    have hover : (s.chip.sliceOver pc).stack (pcStack pc) =
        { s.chip.stack (pcStack pc) with slice := none, lastSliceEnd := some s.chip.now } :=
      (Chip.setStack_stack ..).trans (if_pos rfl)
    exact ⟨(hstand.st pc).trans (congrArg PcSt.st hrun), (hstand.owed pc).trans (congrArg PcSt.owed hrun),
      (hstand.slice _).trans (congrArg StackSt.slice hover), (hstand.ended _).trans (congrArg StackSt.lastSliceEnd hover)⟩

end Sys2Proof.Machine
end

section
/-!
Reads of stacked memory that meet errors (R414, R417 to R420, R678): the pins that the code sees, and what a read leaves.
-/
namespace Sys2Proof.Machine
open Sys2Proof Sys2Proof.Claims

/-! ## The code of a burst (R417, R419) -/

/-- Of errors on pins that differ, one is on the pin of each. -/
theorem filter_pin_of_distinct {errs : List PinError} {e : PinError} (hpins : (errs.map (·.pin)).Nodup) (he : e ∈ errs) :
    errs.filter (·.pin = e.pin) = [e] := by
  induction errs with
  | nil => cases he
  | cons f errs ih =>
    obtain ⟨hfirst, hrest⟩ := List.nodup_cons.1 hpins
    have hother : ∀ g ∈ errs, g.pin ≠ f.pin := fun g hg heq => hfirst (List.mem_map.2 ⟨g, hg, heq⟩)
    obtain rfl | he := List.mem_cons.1 he
    · have hnone : errs.filter (·.pin = e.pin) = [] := List.filter_eq_nil_iff.2 fun g hg => by simpa using hother g hg
      rw [List.filter_cons_of_pos (by simp), hnone]
    · rw [List.filter_cons_of_neg (by simpa using (hother e he).symm), ih hrest he]

/-- Errors on pins that differ, each with some beat in error, are as many wrong pins. -/
theorem wrongPins_of_distinct {errs : List PinError} (hpins : (errs.map (·.pin)).Nodup)
    (herrs : ∀ e ∈ errs, e.wf = true ∧ e.beats ≠ 0) : wrongPins errs = errs.length := by
  have hmem : ∀ p, p ∈ (List.range 36).filter (fun p => (errs.filter (·.pin = p)).foldl (fun b e => b ^^^ e.beats) 0 != 0) ↔
      p ∈ errs.map (·.pin) := by
    intro p
    rw [List.mem_filter, List.mem_range, List.mem_map]
    constructor
    · rintro ⟨-, hwrong⟩
      have hsome : errs.filter (·.pin = p) ≠ [] := fun hnone => by rw [hnone] at hwrong; cases hwrong
      obtain ⟨e, he⟩ := List.exists_mem_of_ne_nil _ hsome
      obtain ⟨he, hpin⟩ := List.mem_filter.1 he
      exact ⟨e, he, of_decide_eq_true hpin⟩
    · rintro ⟨e, he, rfl⟩
      obtain ⟨hwf, hbeats⟩ := herrs e he
      simp only [PinError.wf, Bool.and_eq_true, decide_eq_true_eq] at hwf
      exact ⟨hwf.1, by simpa [filter_pin_of_distinct hpins he] using hbeats⟩
  rw [wrongPins, ((List.perm_ext_iff_of_nodup (List.nodup_range.filter _) hpins).2 hmem).length_eq, List.length_map]

section
variable {c : Chip} {p : Place} {errs : List PinError}

theorem Chip.readBurst_poisoned (h : c.poisonedAt p = true) (errs : List PinError) : c.readBurst p errs = .bad := if_pos h

theorem Chip.readBurst_pins (h : c.poisonedAt p = false) (hpins : (errs.map (·.pin)).Nodup)
    (herrs : ∀ e ∈ errs, e.wf = true ∧ e.beats ≠ 0) (hfew : errs.length ≤ 3) :
    c.readBurst p errs = if errs.length = 0 then .clean else if errs.length = 1 then .corrected (c.burstBytes p) else .bad := by
  rw [Chip.readBurst, h, if_neg Bool.false_ne_true, wrongPins_of_distinct hpins herrs]
  generalize errs.length = n at hfew
  obtain rfl | rfl | rfl | rfl : n = 0 ∨ n = 1 ∨ n = 2 ∨ n = 3 := by omega
  all_goals rfl

end

theorem codeCorrects : CodeCorrects := by
  refine fun c p => ⟨Chip.readBurst_poisoned, fun hclean => ⟨?none, fun e he hbe => ?one, fun e f he hf hbe hbf hef => ?two,
    fun e f g he hf hg hbe hbf hbg hef heg hfg => ?three⟩⟩
  case none => exact Chip.readBurst_pins hclean List.nodup_nil (by simp) (by simp)
  case one => exact Chip.readBurst_pins (errs := [e]) hclean (by simp) (by simp [he, hbe]) (by simp)
  case two => exact Chip.readBurst_pins (errs := [e, f]) hclean (by simp [hef]) (by simp [he, hbe, hf, hbf]) (by simp)
  case three =>
    exact Chip.readBurst_pins (errs := [e, f, g]) hclean (by simp [hef, heg, hfg]) (by simp [he, hbe, hf, hbf, hg, hbg]) (by simp)

/-! ## What a read leaves (R414, R418 to R420, R678) -/

section
variable {c : Chip} {p : Place} {errs other : List PinError} {rd : Reader} {q r : Nat}

theorem Chip.meetErrors_clean (h : c.readBurst p errs = .clean) : c.meetErrors p errs other rd = c := by
  simp [Chip.meetErrors, Chip.noteRead, h]

theorem Chip.meetErrors_corrected {bs : List Byte} (h : c.readBurst p errs = .corrected bs) :
    c.meetErrors p errs other rd = (c.corrected p.pc p.granule).putBurst p bs := by
  simp [Chip.meetErrors, Chip.noteRead, h]

section
variable (hbad : c.readBurst p errs = .bad) (hpos : c.positionOf p.pc p.granule = some (q, r))
include hbad hpos

theorem Chip.meetErrors_window (huse : c.useOf q r = .window) :
    c.meetErrors p errs other rd = ((c.noteRead p errs).healBurst other p q r).2 := by
  simp only [Chip.meetErrors, hbad, hpos, huse, bne_self_eq_false, Bool.false_eq_true, if_false]

theorem Chip.meetErrors_mirrored {a : Alloc} (huse : c.useOf q r = .mirrored a) :
    c.meetErrors p errs other rd =
      if ((c.noteRead p errs).healBurst other p q r).1 then ((c.noteRead p errs).healBurst other p q r).2
      else ((c.noteRead p errs).healBurst other p q r).2.deliverPoison p a rd := by
  simp only [Chip.meetErrors, hbad, hpos, huse, bne_self_eq_false, Bool.false_eq_true, if_false]

theorem Chip.meetErrors_plain {a : Alloc} (huse : c.useOf q r = .plain a) :
    c.meetErrors p errs other rd =
      (((c.noteRead p errs).poisonBurst p.burst).markWeights fun b => b.id = a.id).deliverPoison p a rd := by
  simp only [Chip.meetErrors, hbad, hpos, huse, bne_self_eq_false, Bool.false_eq_true, if_false]

end

end

theorem uncorrectableRead_readsNow {c : Chip} {pc : Nat} (h : c.readsNow pc = true) (granule burst : Nat) (errs : ReadErrors)
    (rd : Reader) :
    uncorrectableRead pc granule burst errs rd c = c.meetErrors ⟨pc, granule, 32 * burst⟩ errs.own errs.other rd := by
  rw [uncorrectableRead, h]; rfl

theorem readsHealOrPoison : ReadsHealOrPoison := by
  rintro s pc granule burst errs other rd p c hpc hgranule hburst herrs hother hrd hnow rfl rfl
  have hwf : (Instr.uncorrectableRead pc granule burst ⟨errs, other⟩ rd).wf = true := by
    simp only [Instr.wf, ReadErrors.wf, hpc, hgranule, hburst, herrs, hother, hrd, decide_true, Bool.and_self]
  have hread : ∀ d, s.chip.meetErrors ⟨pc, granule, 32 * burst⟩ errs other rd = d →
      exec (.uncorrectableRead pc granule burst ⟨errs, other⟩ rd) s = .next (inState s d) :=
    fun d hd => exec_onChip rfl hwf ((uncorrectableRead_readsNow hnow ..).trans hd)
  exact ⟨fun hclean => hread _ (Chip.meetErrors_clean hclean), fun bs hfixed => hread _ (Chip.meetErrors_corrected hfixed),
    fun q r hbad hpos => ⟨fun huse => hread _ (Chip.meetErrors_window hbad hpos huse),
      fun a huse => hread _ (Chip.meetErrors_mirrored hbad hpos huse),
      fun a huse => hread _ (Chip.meetErrors_plain hbad hpos huse)⟩⟩

/-- Settles O27: the code counts the wrong pins, and a read goes by what it says and by what the burst's position holds. -/
theorem uncorrectableReadsHealOrPoison : Obligations.UncorrectableReadsHealOrPoison := by
  unfold Obligations.UncorrectableReadsHealOrPoison
  exact ⟨codeCorrects, readsHealOrPoison⟩

end Sys2Proof.Machine
end

section
/-!
What the heads carry (R411, R412, R427, R531 to R547, R611, R666): window accesses, snoops and requests, BAR0, and links that come
up.
-/
namespace Sys2Proof.Machine
open Sys2Proof Sys2Proof.Claims

/-! ## The window (R411, R412, R427, R536, R547) -/

section
variable {c : Chip} {production : Bool} {h addr x : Nat} (htakes : c.takesMem production h = true)
  (hat : c.windowAt h addr = some x)
include htakes hat

theorem hostWindowRead_inside {len : Nat} (hin : x + len ≤ 2 ^ 34) :
    hostWindowRead h addr len production c = (linePieces x len).foldl (fun c e => c.serveLine h e.1 e.2) c := by
  simp only [hostWindowRead, htakes, hat]
  exact if_pos hin

theorem hostWindowWrite_inside {bs : List Byte} (hin : x + bs.length ≤ 2 ^ 34) :
    hostWindowWrite h addr bs production c =
      if 2 ≤ c.pkg.devState then c.send (.windowDone h)
      else c.afterBi { head := some h, x := x, bytes := bs } (·.hostWindowStore h x bs) := by
  simp only [hostWindowWrite, htakes, hat]
  exact if_pos hin

end

/-- A host write with no part that has to wait is written to both copies at once, and answered (R412). -/
theorem Chip.hostWindowStore_now {c : Chip} {x : Nat} {bs : List Byte} (h : Nat)
    (hnow : ∀ k, k < 2 → c.windowWaits k x bs.length 0 = []) :
    c.hostWindowStore h x bs = (c.windowWrite x bs).send (.windowDone h) := by
  simp [Chip.hostWindowStore, HostWrite.done, hnow 0 (by decide), hnow 1 (by decide)]

/-- A line all of whose bytes have a readable copy goes to the host as it is (R411). -/
theorem Chip.serveLine_readable {c : Chip} {x n : Nat} (h : Nat) (hread : ∀ i, i < n → (c.windowByte (x + i)).isSome = true) :
    c.serveLine h x n = ((c.hold (x / 64) h).healWindow x n).send
      (.windowData h ((List.range n).map fun i => (c.windowByte (x + i)).getD 0) false) := by
  have hsome : (List.range n).map (fun i => c.windowByte (x + i)) =
      ((List.range n).map fun i => (c.windowByte (x + i)).getD 0).map some := by
    rw [List.map_map]
    refine List.map_congr_left fun i hi => ?_
    obtain ⟨b, hb⟩ := Option.isSome_iff_exists.1 (hread i (List.mem_range.1 hi))
    rw [Function.comp_apply, hb, Option.getD_some]
  simp only [Chip.serveLine, hsome, List.all_map, List.filterMap_map]
  simp

theorem windowAccessesComplete : WindowAccessesComplete := by
  refine ⟨fun s h addr len x hh haddr htakes hat hin => ?reads, fun s h addr x bs hh haddr htakes hat hin => ?writes,
    fun c h x n hread => ?line⟩
  case reads =>
    exact exec_onChip rfl (Bool.and_eq_true_iff.2 ⟨hh, decide_eq_true haddr⟩) (hostWindowRead_inside htakes hat hin)
  case writes =>
    have hwrite : ∀ d, hostWindowWrite h addr bs s.otp.production s.chip = d →
        exec (.hostWindowWrite h addr bs) s = .next (inState s d) :=
      fun d hd => exec_onChip rfl (Bool.and_eq_true_iff.2 ⟨hh, decide_eq_true haddr⟩) hd
    have hinside := hostWindowWrite_inside htakes hat hin
    refine ⟨fun hup hwaits => ⟨_, rfl, hwrite _ ?_⟩, fun hup hclear => ?_, fun hdown => hwrite _ ?_⟩
    · rw [hinside, if_neg (Nat.not_le.2 hup), Chip.afterBi, if_pos hwaits]
    · rw [if_neg (Nat.not_le.2 hup), Chip.afterBi, if_neg (by simp [hclear])] at hinside
      exact ⟨hwrite _ hinside, fun hnow => hwrite _ (hinside.trans (Chip.hostWindowStore_now h hnow))⟩
    · rw [hinside, if_pos hdown]
  case line =>
    refine ⟨_, _, Chip.serveLine_readable h hread, rfl, by simp, fun i hi => ?_⟩
    obtain ⟨b, hb⟩ := Option.isSome_iff_exists.1 (hread i hi)
    simp [hi, hb]

/-! ## Events of a head (R532, R535, R537, R539, R543, R547, R611) -/

theorem Chip.head_updHead_same {c : Chip} {h : Nat} (g : HeadSt → HeadSt) (hlt : h < c.heads.length) :
    (c.updHead h g).head h = g (c.head h) := by
  simp [Chip.head, modAt, List.getD_eq_getElem?_getD, List.getElem?_eq_getElem hlt]

/-- A line that is filtered out of the device cache is not found there. -/
theorem lookup_filter_ne (cache : List (Nat × List Byte)) (line : Nat) : (cache.filter (·.1 != line)).lookup line = none := by
  rw [List.lookup_eq_none_iff]
  intro e he
  exact bne_comm.trans (List.mem_filter.1 he).2

section
variable {c : Chip} {h : Nat} {production : Bool} (hup : c.headUp h = true)
include hup

section
variable (hopen : c.ioClosed production h = false)
include hopen

section
variable {line : Nat} (hpower : c.pkg.power = .running)
include hpower

theorem hostSnoop_miss (hmiss : (c.head h).cache.lookup line = none) :
    hostSnoop h line production c = c.send (.snoop h line none) := by
  simp only [hostSnoop, hpower, hup, hopen, hmiss, decide_true, Bool.not_false, Bool.and_self, if_true]

/-- A line that the device cache holds goes back to the host, and the answer carries it in a device that runs (R543). -/
theorem hostSnoop_hit {bs : List Byte} (hhit : (c.head h).cache.lookup line = some bs) (hstate : c.pkg.devState < 2) :
    hostSnoop h line production c = (({ c with host := c.host.writeN (64 * line) bs } : Chip).updHead h fun x =>
      { x with cache := x.cache.filter (·.1 != line) }).send (.snoop h line (some bs)) := by
  have hruns : ¬ 2 ≤ c.pkg.devState := Nat.not_le.2 hstate
  simp only [hostSnoop, hpower, hup, hopen, hhit, decide_true, Bool.not_false, Bool.and_self, if_true, Chip.updHead_pkg, hruns,
    if_false]

end

theorem joinCookieWrite_open (v : Nat) :
    joinCookieWrite h 4 v production c = { c with pkg := { c.pkg with joinCookie := v } } := by
  simp [joinCookieWrite, hup, hopen]

end

theorem hdmDecoderCommit_up (base : Nat) :
    hdmDecoderCommit h base c = if 2 ≤ c.pkg.devState then c.send (.completerAbort h)
      else c.updHead h fun x => { x with hdmBase := base, hdmCommitted := true } := by
  simp only [hdmDecoderCommit, Chip.aborts, hup, Bool.true_and, decide_eq_true_eq, if_true]

theorem ideKmExchange_up (sign : Bool) :
    ideKmExchange h sign c = if 2 ≤ c.pkg.devState then c.send (.completerAbort h)
      else if sign then (c.updHead h fun x => { x with ide := 1 }).releaseBi else c := by
  simp only [ideKmExchange, Chip.aborts, hup, Bool.true_and, decide_eq_true_eq]

theorem ideCheckFail_established (hide : (c.head h).ide = 1) :
    ideCheckFail h c = (c.updHead h fun x => { x with ide := 2, ideFail := satAdd u32max x.ideFail 1,
                                                      aerNonFatal := x.aerNonFatal + 1 }).send (.aer h false) := by
  simp only [ideCheckFail, hup, hide, decide_true, Bool.and_self, if_true]

end

theorem headEventsComplete : HeadEventsComplete := by
  refine ⟨fun s h line hh hline hpower hup hopen => ?snoop, fun s h v hh hv hup hopen => ?cookie,
    fun s h base hwf hup => ?commit, fun s h hh hup => ?ide⟩
  case snoop =>
    have hwf : (Instr.hostSnoop h line).wf = true := by
      have hlt : line < 288230376151711744 := hline
      simp [Instr.wf, hh, hlt]
    refine ⟨fun hmiss => exec_onChip rfl hwf (hostSnoop_miss hup hopen hpower hmiss), fun bs hhit hstate hlt => ?_⟩
    refine ⟨_, exec_onChip rfl hwf (hostSnoop_hit hup hopen hpower hhit hstate), rfl, rfl, ?_⟩
    have hdropped := Chip.head_updHead_same (c := { s.chip with host := s.chip.host.writeN (64 * line) bs })
      (fun x => { x with cache := x.cache.filter (·.1 != line) }) hlt
    exact (congrArg (fun x : HeadSt => x.cache.lookup line) hdropped).trans (lookup_filter_ne _ _)
  case cookie =>
    have hwf : (Instr.joinCookieWrite h 4 v).wf = true := by
      simp only [Instr.wf, hh, isPageWrite, fits, Bool.true_and]
      simpa using hv
    exact ⟨_, exec_onChip rfl hwf (joinCookieWrite_open hup hopen v), rfl, rfl⟩
  case commit => exact exec_onChip rfl hwf (hdmDecoderCommit_up hup base)
  case ide =>
    have hexchange := ideKmExchange_up hup s.canSign
    refine ⟨fun hdown => ?_, fun hsign hstate => ?_, fun hide => exec_onChip rfl hh (ideCheckFail_established hup hide)⟩
    · rw [if_pos hdown] at hexchange
      exact exec_onChip rfl hh hexchange
    · rw [if_neg (Nat.not_le.2 hstate), if_pos hsign] at hexchange
      exact exec_onChip rfl hh hexchange

/-! ## BAR0 (R531, R532, R538, R547) -/

theorem leNat_leBytes {n v : Nat} (hv : v < 256 ^ n) : leNat (leBytes n v) = v := by
  induction n generalizing v with
  | zero => rw [Nat.pow_zero, Nat.lt_one_iff] at hv; rw [hv]; rfl
  | succ n ih =>
    have hquot : v / 256 < 256 ^ n := Nat.div_lt_of_lt_mul (by rwa [Nat.pow_succ'] at hv)
    rw [leBytes, leNat, ih hquot, BitVec.toNat_ofNat]
    omega

theorem length_padTo (bs : List Byte) (n : Nat) : (padTo bs n).length = n := by
  rw [padTo, List.length_append, List.length_take, List.length_replicate]
  omega

theorem take_padTo_leBytes {k n : Nat} (v : Nat) (hk : k ≤ n) : (padTo (leBytes k v) n).take k = leBytes k v := by
  have hlen := length_leBytes k v
  rw [padTo, List.take_of_length_le (Nat.le_trans (Nat.le_of_eq hlen) hk), List.take_append_of_le_length (Nat.le_of_eq hlen.symm),
    List.take_of_length_le (Nat.le_of_eq hlen)]

/-- The first 64 bytes of the identity page as a number (Table 16.3). -/
def State.identityWord (s : State) (h : Nat) : Nat :=
  s.unit.hallmark <<< 448 + h <<< 446 + s.chip.partner h <<< 444 + s.chip.pkg.devState <<< 440 + s.chip.pkg.joinCookie <<< 384

theorem State.identityPage_take (s : State) (h : Nat) : (s.identityPage h).take 64 = leBytes 64 (s.identityWord h) :=
  take_padTo_leBytes _ (by decide)

theorem State.length_identityPage (s : State) (h : Nat) : (s.identityPage h).length = 4096 := length_padTo _ _

/-- A field of a number that is moved up is the field of the number that much lower. -/
theorem fld_shiftLeft (u k hi lo : Nat) : fld (u <<< k) (hi + k) (lo + k) = fld u hi lo := by
  have hwidth : hi + k + 1 - (lo + k) = hi + 1 - lo := by omega
  rw [fld, fld, hwidth, Nat.add_comm lo k, Nat.shiftRight_add, Nat.shiftLeft_shiftRight]

/-- A number of `m` bits that is moved up by `k` fits the bytes that the sum of both fills. -/
theorem shiftLeft_lt_bytes {u m k n : Nat} (hu : u < 2 ^ m) (hsum : m + k = 8 * n) : u <<< k < 256 ^ n := by
  have hbytes : 256 ^ n = 2 ^ m * 2 ^ k := by rw [← Nat.pow_add, hsum, Nat.pow_mul]
  rw [Nat.shiftLeft_eq, hbytes]
  exact Nat.mul_lt_mul_of_pos_right hu (Nat.two_pow_pos k)

/-- Fields that lie one below the other, each in its own bits, read back. -/
theorem identity_fields {a b c d e w : Nat} (ha : a < 2 ^ 64) (hb : b < 2) (hc : c < 4) (hd : d < 16) (he : e < 2 ^ 32)
    (hw : w = a <<< 448 + b <<< 446 + c <<< 444 + d <<< 440 + e <<< 384) :
    w < 256 ^ 64 ∧ fld w 511 448 = a ∧ fld w 447 446 = b ∧ fld w 445 444 = c ∧ fld w 443 440 = d ∧ fld w 415 384 = e := by
  obtain ⟨u, hu⟩ : ∃ u, u = a * 2 ^ 64 + b * 2 ^ 62 + c * 2 ^ 60 + d * 2 ^ 56 + e := ⟨_, rfl⟩
  have hshift : w = u <<< 384 := by
    rw [hw, hu]
    simp only [Nat.shiftLeft_eq, Nat.add_mul, Nat.mul_assoc, ← Nat.pow_add, Nat.reduceAdd]
  have hbound : u < 2 ^ 128 := by omega
  have hfld : ∀ hi lo, fld w (hi + 384) (lo + 384) = u / 2 ^ lo % 2 ^ (hi + 1 - lo) := fun hi lo => by
    rw [hshift, fld_shiftLeft, fld, Nat.shiftRight_eq_div_pow]
  refine ⟨?_, (hfld 127 64).trans ?_, (hfld 63 62).trans ?_, (hfld 61 60).trans ?_, (hfld 59 56).trans ?_, (hfld 31 0).trans ?_⟩
  case refine_1 => exact hshift ▸ shiftLeft_lt_bytes hbound rfl
  all_goals
    simp only [Nat.reduceAdd, Nat.reduceSub, Nat.reducePow] at *
    omega

theorem State.barByte_identity {s : State} {off : Nat} (h : Nat) (hoff : off < 4096) : s.barByte h off = (s.identityPage h).getD off 0 :=
  if_pos hoff

theorem State.barByte_reserved {s : State} {off : Nat} (h : Nat)
    (hoff : (0x4000 ≤ off ∧ off < 0x100000) ∨ (0x180000 ≤ off ∧ off < barBytes)) : s.barByte h off = 0 := by
  have hpage : ¬ off < 0x1000 := by omega
  have hpending : ¬ (0x3000 ≤ off ∧ off < 0x4000) := by omega
  have hother : ¬ ((0x2000 ≤ off ∧ off < 0x3000) ∨ (0x100000 ≤ off ∧ off < 0x180000)) := by omega
  simp only [State.barByte, hpage, Bool.and_eq_true, Bool.or_eq_true, decide_eq_true_eq, hpending, hother, if_false]

theorem barsAreRead : BarsAreRead := by
  refine ⟨fun s h off n hup hin hopen => ?identity, fun s h off n hup hopen hout => ?other, fun s h off n hup hclosed hout => ?closed,
    fun s h w hhall hh hpartner hstate hcookie hw => ?fields, fun s h off hoff => State.barByte_reserved h hoff⟩
  case identity =>
    have hallowed : (s.chip.ioClosed s.otp.production h && !s.chip.pkg.bootPhase) = false := by
      obtain hio | hboot := hopen
      · rw [hio, Bool.false_and]
      · rw [hboot, Bool.not_true, Bool.and_false]
    have hbytes : (List.range n).map (fun i => s.barByte h (off + i)) =
        (List.range n).map fun i => (s.identityPage h).getD (off + i) 0 :=
      List.map_congr_left fun i hi => State.barByte_identity h (by have := List.mem_range.1 hi; omega)
    simp [State.barRead, hup, hin, hallowed, hbytes]
  case other => simp [State.barRead, hup, hopen, Nat.not_le.2 hout]
  case closed =>
    have hshut : (decide (off + n ≤ 0x1000) && s.chip.pkg.bootPhase) = false := by
      obtain hboot | hlong := hout
      · rw [hboot, Bool.and_false]
      · rw [decide_eq_false (Nat.not_le.2 hlong), Bool.false_and]
    simp only [State.barRead, hup, hclosed, hshut, Bool.not_true, Bool.not_false, Bool.and_self, Bool.false_eq_true, if_false, if_true]
  case fields =>
    obtain ⟨hlt, hfields⟩ := identity_fields hhall hh hpartner hstate hcookie (w := s.identityWord h) rfl
    rw [hw, State.identityPage_take, leNat_leBytes hlt]
    exact ⟨s.length_identityPage h, hfields⟩

/-! ## Links (R534, R666, R667) -/

/-- Vectors that are signalled are sent one by one, and nothing else changes. -/
theorem Chip.sendVectors_eq (c : Chip) (h : Nat) (vs : List Nat) :
    vs.foldl (fun c v => c.send (.msix h v)) c = { c with sent := c.sent ++ vs.map (.msix h ·) } := by
  induction vs generalizing c with
  | nil => simp
  | cons v vs ih => rw [List.foldl_cons, ih]; simp [Chip.send]

theorem Chip.flushMsix_eq (c : Chip) (h : Nat) :
    c.flushMsix h = { c.updHead h fun x => { x with msixPending := [] } with
                      sent := c.sent ++ (c.head h).msixPending.map (.msix h ·) } := Chip.sendVectors_eq _ _ _

/-- The head is in L0 at its width and rate, and its PERST_N is released. -/
def Chip.linkedUp (c : Chip) (h width rate : Nat) : Chip :=
  let new := c.updHead h fun x => { x with link := 2, width := width, rate := rate }
  { new with pkg := { new.pkg with perstLow := new.pkg.perstLow.set h false } }

theorem linkUp_trains {c : Chip} {h : Nat} (width rate : Nat) (halive : c.alive = true) (hclasp : (c.clasp h).svc = .inService)
    (hlink : (c.head h).link < 2) (hturn : c.mayTrain h = true) :
    linkUp h width rate c = (c.noteHeads (c.linkedUp h width rate)).flushMsix h := by
  simp only [linkUp, halive, hclasp, hlink, hturn, decide_true, Bool.and_self, if_true]
  rfl

theorem i3cDynamicAddressAssignment_inService {c : Chip} {port : Nat} (addr : Nat) (halive : c.alive = true)
    (hclasp : (c.clasp port).svc = .inService) :
    i3cDynamicAddressAssignment port addr c =
      { c with pkg := { c.pkg with i3cDynamic := c.pkg.i3cDynamic.set port (some addr) } } := by
  simp only [i3cDynamicAddressAssignment, halive, hclasp, decide_true, Bool.and_self, if_true]

theorem linksComeUp : LinksComeUp := by
  refine ⟨fun s h width rate hwf hlt halive hclasp hlink hturn => ?link, fun s port addr hwf halive hclasp =>
    ⟨_, exec_onChip rfl hwf (i3cDynamicAddressAssignment_inService addr halive hclasp), rfl⟩⟩
  refine ⟨_, exec_onChip rfl hwf (linkUp_trains width rate halive hclasp hlink hturn), ?_⟩
  obtain ⟨sent, hnoted⟩ := s.chip.noteHeads_eq (s.chip.linkedUp h width rate)
  have hhead : (s.chip.linkedUp h width rate).head h = { s.chip.head h with link := 2, width := width, rate := rate } :=
    Chip.head_updHead_same _ hlt
  have hflushed : (({ s.chip.linkedUp h width rate with sent := sent } : Chip).updHead h fun x => { x with msixPending := [] }).head h =
      { s.chip.head h with link := 2, width := width, rate := rate, msixPending := [] } := by
    rw [Chip.head_updHead_same]
    · exact congrArg (fun x : HeadSt => { x with msixPending := [] }) hhead
    · simpa [Chip.linkedUp, modAt] using hlt
  rw [hnoted, Chip.flushMsix_eq]
  refine ⟨congrArg HeadSt.link hflushed, congrArg HeadSt.width hflushed, congrArg HeadSt.rate hflushed,
    congrArg HeadSt.msixPending hflushed, rfl, fun v hv => List.mem_append_right _ (List.mem_map_of_mem ?_)⟩
  exact (congrArg HeadSt.msixPending hhead).symm ▸ hv

/-- Settles O29: each request is taken by the branch of its command that the head's link, its stream and the state of the device
pick. -/
theorem headsCarryTheirTraffic : Obligations.HeadsCarryTheirTraffic := by
  unfold Obligations.HeadsCarryTheirTraffic
  exact ⟨windowAccessesComplete, headEventsComplete, barsAreRead, linksComeUp⟩

end Sys2Proof.Machine
end

section
/-!
The end of the boot, the identity, the responder and Pave's access filter (R429, R431, R578, R579, R585, R586, R596 to R602, R648,
R659): what fencing jobs and losing stacks leave of the package's conditions, then the four commands.
-/
namespace Sys2Proof.Machine
open Sys2Proof Sys2Proof.Claims

/-! ## Messages of a ring leave the package's conditions (R551 to R555, R574, R575) -/

theorem foldl_pkg {α : Type} {f : Chip → α → Chip} (hf : ∀ c a, (f c a).pkg = c.pkg) (l : List α) (c : Chip) :
    (l.foldl f c).pkg = c.pkg :=
  foldl_keeps (fun c d : Chip => d.pkg = c.pkg) (fun _ => rfl) (fun _ _ _ h1 h2 => h2.trans h1) f hf l c

theorem iter_pkg {f : Nat → Chip → Chip} (hf : ∀ i c, (f i c).pkg = c.pkg) (n : Nat) (c : Chip) : (iter n f c).pkg = c.pkg :=
  foldl_pkg (fun c i => hf i c) _ c

theorem Chip.OnlyMemory.pkg_eq {c d : Chip} (h : c.OnlyMemory d) : d.pkg = c.pkg := by
  obtain ⟨_, _, _, _, _, _, _, _, _, _, _, rfl⟩ := h
  rfl

@[simp] theorem Chip.sealOut_pkg (c : Chip) (port : Nat) (m : TxMsg) : (c.sealOut port m).2.pkg = c.pkg := by
  unfold Chip.sealOut
  split <;> rfl

@[simp] theorem Chip.pump_pkg (c : Chip) (port : Nat) : (c.pump port).pkg = c.pkg := by
  unfold Chip.pump
  extract_lets x
  split
  · rfl
  · generalize startable x.credits (retryDepth - x.unacked.length) 0 [] x.txQueue = w
    obtain ⟨go, stay⟩ := w
    dsimp only
    rw [foldl_pkg (fun _ _ => by rfl), foldl_pkg (fun _ _ => by rfl)]
    exact foldl_keeps (fun s t : List Byte × List (Nat × TxMsg) × Chip => t.2.2.pkg = s.2.2.pkg) (fun _ => rfl)
      (fun _ _ _ h1 h2 => h2.trans h1) _ (fun s m => s.2.2.sealOut_pkg port m) go _

@[simp] theorem Chip.route_pkg (c : Chip) (m : TxMsg) : (c.route m).pkg = c.pkg := by
  unfold Chip.route
  split
  · exact Chip.pump_pkg _ _
  · rfl

@[simp] theorem Chip.sendControl_pkg (c : Chip) (r : Nat) (next : Bool) (op step epoch : Nat) :
    (c.sendControl r next op step epoch).pkg = c.pkg := Chip.route_pkg _ _

@[simp] theorem Chip.ringFenceOut_pkg (c : Chip) (r session : Nat) : (c.ringFenceOut r session).pkg = c.pkg := by
  unfold Chip.ringFenceOut
  split
  · rfl
  · dsimp only
    split
    · rfl
    · exact (Chip.sendControl_pkg ..).trans (Chip.sendControl_pkg ..)

@[simp] theorem Chip.ringResumeOut_pkg (c : Chip) (r : Nat) : (c.ringResumeOut r).pkg = c.pkg := by
  unfold Chip.ringResumeOut
  split
  · exact Chip.sendControl_pkg ..
  · rfl

/-! ## So do fenced jobs (R505 to R507, R574) -/

@[simp] theorem Chip.updJob_pkg (c : Chip) (j : Nat) (g : Job → Job) : (c.updJob j g).pkg = c.pkg := by
  unfold Chip.updJob
  split <;> rfl

@[simp] theorem Chip.ringHold_pkg (c : Chip) (j r : Nat) : (c.ringHold j r).pkg = c.pkg := by
  unfold Chip.ringHold
  split
  · rfl
  · split
    · rfl
    · split
      · rw [Chip.ringResumeOut_pkg, Chip.updJob_pkg]
      · exact Chip.updJob_pkg ..

@[simp] theorem Chip.ringTell_pkg (c : Chip) (j r : Nat) : (c.ringTell j r).pkg = c.pkg := by
  unfold Chip.ringTell
  split
  · rfl
  · rw [Chip.ringHold_pkg, Chip.ringFenceOut_pkg]

@[simp] theorem Chip.assignWalker_pkg (c : Chip) (f : Nat) : (c.assignWalker f).pkg = c.pkg := by
  unfold Chip.assignWalker
  split <;> rfl

@[simp] theorem Chip.dropInFlight_pkg (c : Chip) (j : Nat) : (c.dropInFlight j).pkg = c.pkg :=
  iter_pkg (fun f c => iter_pkg (fun _ c => c.assignWalker_pkg f) _ c) 5 _

@[simp] theorem Chip.stopJob_pkg (c : Chip) (j : Nat) (x : Job) : (c.stopJob j x).pkg = c.pkg :=
  (foldl_pkg (fun _ _ => by rfl) _ _).trans (c.dropInFlight_pkg j)

@[simp] theorem Chip.fenceCore_pkg (c : Chip) (j : Nat) (o : Origin) (raised : Option (Nat × Nat)) (force : Option Nat) :
    (c.fenceCore j o raised force).pkg = c.pkg := by
  unfold Chip.fenceCore
  split
  · rfl
  · split
    · rfl
    · dsimp only
      rw [Chip.log_pkg, Chip.updJob_pkg]
      split
      · exact Chip.stopJob_pkg ..
      · rfl

@[simp] theorem Chip.fenceJob_pkg (c : Chip) (j : Nat) (o : Origin) (raised : Option (Nat × Nat)) :
    (c.fenceJob j o raised).pkg = c.pkg := by
  unfold Chip.fenceJob Chip.fenceJobWith
  split
  · rfl
  · split
    · rfl
    · rw [foldl_pkg (fun c r => c.ringTell_pkg j r), Chip.fenceCore_pkg]

@[simp] theorem Chip.fenceJobs_pkg (c : Chip) (f : Job → Bool) (o : Origin) : (c.fenceJobs f o).pkg = c.pkg :=
  foldl_pkg (fun c j => c.fenceJob_pkg j o none) _ c

/-! ## The first training (R429, R431, R436) -/

@[simp] theorem Chip.noteHeads_pkg (o c : Chip) : (o.noteHeads c).pkg = c.pkg := by
  obtain ⟨sent, h⟩ := o.noteHeads_eq c
  rw [h]

/-- `d` has the power state, the boot phase and the voltages of `c`; its device_state may be another one. -/
structure Chip.KeepsBoot (c d : Chip) : Prop where
  power : d.pkg.power = c.pkg.power
  bootPhase : d.pkg.bootPhase = c.pkg.bootPhase
  avs : d.pkg.avs = c.pkg.avs

theorem Chip.KeepsBoot.of_pkg {c d : Chip} (h : d.pkg = c.pkg) : c.KeepsBoot d := ⟨by rw [h], by rw [h], by rw [h]⟩

theorem Chip.KeepsBoot.trans {c d e : Chip} (h1 : c.KeepsBoot d) (h2 : d.KeepsBoot e) : c.KeepsBoot e :=
  ⟨h2.power.trans h1.power, h2.bootPhase.trans h1.bootPhase, h2.avs.trans h1.avs⟩

theorem Chip.announceFault_pkg (c : Chip) : c.announceFault.pkg = { c.pkg with devState := 3 } := by
  unfold Chip.announceFault
  rw [Chip.noteHeads_pkg, iter_pkg fun h c => ?_]
  split <;> rfl

@[simp] theorem Chip.markWeights_pkg (c : Chip) (f : Alloc → Bool) : (c.markWeights f).pkg = c.pkg := rfl
@[simp] theorem Chip.poolsLost_pkg (c : Chip) : c.poolsLost.pkg = c.pkg := rfl
@[simp] theorem Chip.installDetour_pkg (c : Chip) (pc : Nat) : (c.installDetour pc).pkg = c.pkg := rfl

section
variable {c d : Chip} (h : d.pkg = c.pkg)
include h

theorem Chip.KeepsBoot.deviceFault (cause : Nat) : c.KeepsBoot (d.deviceFault cause) := by
  unfold Chip.deviceFault
  split
  · exact .of_pkg h
  · constructor <;> simp [Chip.announceFault_pkg, h]

theorem Chip.KeepsBoot.stackLost (st cause : Nat) : c.KeepsBoot (d.stackLost st cause) := by
  refine .deviceFault ?_ cause
  rw [Chip.poolsLost_pkg, Chip.markWeights_pkg, Chip.updStack_eq, Chip.setStack_pkg,
    iter_pkg fun i c => (c.cancelQueue_only _).pkg_eq, h]

theorem Chip.KeepsBoot.stackOut (st n : Nat) : c.KeepsBoot (d.stackOut st n) := by
  refine .stackLost ?_ st 0x0C
  rw [Chip.updStack_eq, Chip.setStack_pkg, Chip.log_pkg, h]

end

theorem Chip.firstTraining_keepsBoot (c : Chip) (u : UnitFacts) : c.KeepsBoot (c.firstTraining u) := by
  refine foldl_keeps Chip.KeepsBoot (fun _ => .of_pkg rfl) (fun _ _ _ => Chip.KeepsBoot.trans) _ (fun c pc => ?_) _ c
  split
  · exact .of_pkg rfl
  · extract_lets n logged failed
    have hfailed : failed.pkg = c.pkg := by simp only [failed, logged, Chip.updPc_eq, Chip.setPc_pkg, Chip.log_pkg]
    clear_value failed
    split
    · exact .stackOut hfailed _ n
    · exact .of_pkg ((failed.installDetour_pkg pc).trans hfailed)

theorem Chip.firstTraining_nil {c : Chip} {u : UnitFacts} (h : u.deadPcs = []) : c.firstTraining u = c := by
  rw [Chip.firstTraining, h]
  rfl

/-! ## The end of the boot (R585, R586, R659) -/

/-- The dies have their fused voltages, and the part runs; its memory is trained after that. -/
def State.readied (s : State) : Chip :=
  let c := (s.unit.fusedMv.zipIdx).foldl (fun c (mv, d) => c.send (.voltage d mv)) s.chip
  c.noteHeads { c with pkg := { c.pkg with power := .running, devState := 1, bootPhase := false, avs := s.unit.fusedMv } }

theorem State.readied_pkg (s : State) :
    s.readied.pkg = { s.chip.pkg with power := .running, devState := 1, bootPhase := false, avs := s.unit.fusedMv } := by
  have hsent : ((s.unit.fusedMv.zipIdx).foldl (fun c (mv, d) => c.send (.voltage d mv)) s.chip).pkg = s.chip.pkg :=
    foldl_pkg (fun _ _ => by rfl) _ _
  rw [State.readied, Chip.noteHeads_pkg, hsent]

theorem paveReady_booting {s : State} (hpower : s.chip.pkg.power = .booting) (hid : s.sec.identityState ≠ 1) :
    paveReady s = (inState s (s.readied.firstTraining s.unit)).commitSvn := by
  rw [paveReady, if_pos (by simp [hpower, hid])]
  rfl

/-- A bit taken out of a number: every other bit stays. -/
theorem testBit_clearBit (m k i : Nat) :
    (m - (if bit m k then 2 ^ k else 0)).testBit i = (m.testBit i && decide (i ≠ k)) := by
  have hbit : (if bit m k then 2 ^ k else 0) = ((m >>> k) % 2 ^ 1) <<< k := by
    rw [bit, Nat.testBit_eq_decide_div_mod_eq, Nat.shiftRight_eq_div_pow, Nat.shiftLeft_eq]
    obtain h | h := Nat.mod_two_eq_zero_or_one (m / 2 ^ k) <;> simp [h]
  have hcleared := testBit_replaceField m k 1 0 i (by decide)
  rw [Nat.zero_shiftLeft, Nat.add_zero, Nat.zero_testBit] at hcleared
  rw [hbit, hcleared]
  by_cases hi : i = k
  · rw [if_pos (by omega), decide_eq_false (by simpa using hi), Bool.and_false]
  · rw [if_neg (by omega), decide_eq_true hi, Bool.and_true]

theorem State.commitSvn_due {s : State} (h : s.sec.svnDone = false) :
    s.commitSvn.chip = s.chip ∧ s.commitSvn.sec.svnDone = true ∧
      s.commitSvn.otp.svn = (if s.sec.commitSvn then max s.otp.svn s.sec.imageSvn else s.otp.svn) ∧
      ∀ i, s.commitSvn.otp.revoked.testBit i =
        (s.otp.revoked.testBit i || (s.sec.revokeMask.testBit i && decide (i ≠ s.sec.keySlot))) := by
  rw [State.commitSvn, if_neg (by simp [h])]
  refine ⟨rfl, rfl, ?_, fun i => ?_⟩
  · dsimp only
    split <;> rfl
  · rw [← testBit_clearBit, ← Nat.testBit_or]
    dsimp only
    split <;> rfl

theorem bootEndsInService : BootEndsInService := by
  intro s hpower hid hdue
  refine ⟨_, congrArg Host.Outcome.next (paveReady_booting hpower hid), ?_⟩
  have hboot := s.readied.firstTraining_keepsBoot s.unit
  have hpkg := s.readied_pkg
  obtain ⟨hchip, hdone, hsvn, hrevoked⟩ := State.commitSvn_due (s := inState s (s.readied.firstTraining s.unit)) hdue
  rw [hchip]
  refine ⟨hboot.power.trans (by rw [hpkg]), fun hlive => ?_, hboot.bootPhase.trans (by rw [hpkg]),
    hboot.avs.trans (by rw [hpkg]), hdone, hsvn, hrevoked⟩
  show (s.readied.firstTraining s.unit).pkg.devState = 1
  rw [Chip.firstTraining_nil hlive, hpkg]

/-! ## The identity (R596 to R598, R648) -/

theorem aliasTreeGenerate_due {s : State} (hpower : s.chip.pkg.power = .running) (hid : s.sec.identityState = 0)
    (hkeys : s.sec.keysErased = false) (hsigns : s.otp.signs = true)
    (hspent : s.sec.treesReady = 0 ∨ (s.sec.treesReady = 1 ∧ 16384 ≤ s.sec.lmsNext)) :
    aliasTreeGenerate s = (s.onSec fun x => { x with treesReady := x.treesReady + 1 }).serveWaiting := by
  have hspent : s.sec.treesReady = 0 ∨ (s.sec.treesReady = 1 ∧ aliasHalf ≤ s.sec.lmsNext) := hspent
  rw [aliasTreeGenerate, if_pos (by simp [Chip.alive, hpower, hid, hkeys, hsigns, hspent])]

theorem sessionOfferExpiry_due {c : Chip} {n : Nat} (hoffer : c.mailbox.offered = some n) (hdue : n + 125000000 ≤ c.now) :
    sessionOfferExpiry c = { c with mailbox := c.mailbox.closed } := by
  simp only [sessionOfferExpiry, hoffer]
  exact if_pos hdue

theorem identityGoesOn : IdentityGoesOn :=
  ⟨fun _ hpower hid hkeys hsigns hspent => congrArg Host.Outcome.next (aliasTreeGenerate_due hpower hid hkeys hsigns hspent),
    fun _ _ hoffer hdue => ⟨_, exec_onChip rfl rfl (sessionOfferExpiry_due hoffer hdue), rfl, rfl, rfl, rfl⟩⟩

/-! ## The responder (R596, R600 to R602) -/

theorem exec_spdmRequest_up {s : State} {path : Nat} (r : SpdmRequest) (hpath : isSpdmPath path = true)
    (hup : s.spdmUp path = true) : exec (.spdmRequest path r) s = .next (s.spdmServe path r) :=
  (meaning_of_wf (i := .spdmRequest path r) hpath).trans (congrArg Host.Outcome.next (if_pos hup))

section
variable {s : State} {path : Nat} {r : SpdmRequest}

theorem State.spdmServe_otherSlot (h : spdmSlot r ≠ 0) : s.spdmServe path r = s.spdmError path 0x01 := if_pos (by simpa using h)

section
variable (hslot : spdmSlot r = 0)
include hslot

theorem State.spdmServe_plain (hplain : s.spdmSigned r = none) : s.spdmServe path r = s.spdmPlain path r := by
  simp [State.spdmServe, hslot, hplain]

variable {code : Nat} {body : List Byte} (hsigned : s.spdmSigned r = some (code, body))
include hsigned

theorem State.spdmServe_signs (hsign : s.canSign = true) : s.spdmServe path r = s.spdmSign path code body := by
  simp [State.spdmServe, hslot, hsigned, hsign]

/-- A request that needs a signature waits for the bundle (R596). -/
theorem State.spdmServe_waits (hid : s.sec.identityState = 1) (hkeys : s.sec.keysErased = false) (hlife : s.otp.signs = true) :
    s.spdmServe path r = s.onSec fun x => { x with waiting := x.waiting ++ [.spdm path r] } := by
  simp [State.spdmServe, hslot, hsigned, State.canSign, hid, hkeys, hlife]

end

theorem spdmVendorRequest_creord {registry : Nat} (hup : s.spdmUp path = true) (hreg : registry = s.unit.vendorId)
    (hid : s.sec.identityState = 0) (hkeys : s.sec.keysErased = false) (hlife : s.otp.signs = true) :
    spdmVendorRequest path registry s = s.spdmOut path 0x7E (creordHss ++ s.aliasRecord) := by
  simp [spdmVendorRequest, hup, hreg, hid, hkeys, hlife]

end

/-- The life cycle allows identity signing in PROVISIONED and PRODUCTION (Table 17.4). -/
theorem Otp.signs_iff (o : Otp) : o.signs = true ↔ o.lcCount = 1 ∨ o.lcCount = 2 := by
  unfold Otp.signs lifeCycle
  split <;> simp_all

theorem spdmRequestsAreServed : SpdmRequestsAreServed := by
  refine ⟨fun s path r hpath hup => ?requests, fun s path registry hpath hup hreg hid hkeys hlife => ?vendor, Otp.signs_iff⟩
  case requests =>
    rw [exec_spdmRequest_up r hpath hup]
    exact ⟨fun hother => congrArg _ (State.spdmServe_otherSlot hother),
      fun hslot hplain => congrArg _ (State.spdmServe_plain hslot hplain),
      fun code body hslot hsigned hsign => congrArg _ (State.spdmServe_signs hslot hsigned hsign),
      fun code body hslot hsigned hid hkeys hlife => congrArg _ (State.spdmServe_waits hslot hsigned hid hkeys hlife)⟩
  case vendor =>
    exact (meaning_of_wf (i := .spdmVendorRequest path registry) hpath).trans
      (congrArg Host.Outcome.next (spdmVendorRequest_creord hup hreg hid hkeys hlife))

/-! ## Pave's accesses (R578, R579) -/

theorem paveIsFiltered : PaveIsFiltered := by
  refine ⟨fun c n len r f hon hdenied => ?denied, fun c n len r f hallowed => ?allowed, fun c x hx => ?programmed⟩
  case denied => exact if_pos (by simp [hon, hdenied])
  case allowed => exact if_neg (by simp [hallowed])
  case programmed =>
    obtain ⟨y, -, rfl⟩ := List.mem_map.1 hx
    rfl

/-- Settles O31: what the first training loses may change device_state, but not that the boot is over, and every request is
served by the branch that its slot, its signature and the identity pick. -/
theorem bootAndResponderComplete : Obligations.BootAndResponderComplete := by
  unfold Obligations.BootAndResponderComplete
  exact ⟨bootEndsInService, identityGoesOn, spdmRequestsAreServed, paveIsFiltered⟩

end Sys2Proof.Machine
end

section
/-!
Streams of Cameo (R439 to R467): the transfers that feed them, the rows that an intake takes, the CTU rows that the engines code,
and the frames that a stream completes.
-/
namespace Sys2Proof.Claims
open Sys2Proof Sys2Proof.Machine

/-- The command of a ready instruction that raises a status answers the state in which it has fenced its job and its Bead goes no
further. -/
theorem Ready.raises {i : Instr} {s : State} {d : Chip} {p st : Nat} {x : Ctx} {sel : Ctx → Bool} {foot : Chip → Ctx → Foot}
    {act : Ctx → Chip → Act} {picks : Ctx → Prop} (h : Ready s.chip p x picks (foot s.chip x))
    (hexec : exec i s = onChip i s (issueAt sel foot p act)) (hwf : i.wf = isBead p) (hsel : ∀ y, sel y = true ↔ picks y)
    (hact : act x (taken s.chip x) = .raise st d) :
    exec i s = .next (inState s ((d.raiseAt x.j x.p st x.run.step).halt x.p)) := by
  have hbead : isBead p = true := h.1
  rw [hexec, onChip_wf (hwf.trans hbead), h.issueAt_finish hsel (by simp [hact]), hact]
  rfl

end Sys2Proof.Claims

namespace Sys2Proof.Machine
open Sys2Proof Sys2Proof.Claims

/-! ## Transfers that feed a stream (R448, R449, R451, R467) -/

theorem isStreamDma_iff {f : Nat → Nat → Bool} {sel : Nat → Nat → Prop} (hsel : ∀ w d, f w d = true ↔ sel w d) (x : Ctx) :
    isStreamDma f x = true ↔ streamAt sel x := by
  simp [isStreamDma, isDma, streamAt, hsel, descOf, rowWord]

/-- A list of images of `0, 1, …`, each with its place. -/
theorem zipIdx_map_range {α : Type} (f : Nat → α) (n : Nat) :
    ((List.range n).map f).zipIdx = (List.range n).map fun i => (f i, i) :=
  List.ext_getElem (by simp) fun i _ _ => by simp

/-- Row `i` of an encode transfer lies beyond the picture or the frames of its stream (R449). -/
def rowOutside (x : Ctx) (i : Nat) : Prop :=
  cmHeight (streamDesc x (rsStream (rowWord x))) ≤ rowLuma (rowWord x) x.g x.iteration i ∨
    streamFrames x (streamDesc x (rsStream (rowWord x))) ≤ rowFrame (rowWord x) x.iteration

/-- The rows of an encode transfer of stream `z` wait at its intake (R451). -/
def Chip.offerRows (c : Chip) (x : Ctx) (z : StreamSt) : Chip :=
  c.updStream z.id fun s => { s with waiting := s.waiting ++ rowsOffered c x }

@[simp] theorem Chip.updStream_areaOf (c : Chip) (st : Nat) (f : StreamSt → StreamSt) (z : StreamSt) (i : Nat) :
    (c.updStream st f).areaOf z i = c.areaOf z i := rfl

@[simp] theorem Chip.updArea_areaOf_same (c : Chip) (z : StreamSt) (i : Nat) (f : PairArea → PairArea) :
    (c.updArea z i f).areaOf z i = f (c.areaOf z i) := by
  simp [Chip.updArea, Chip.areaOf]

/-- Of the bytes that await parsing, the bitstream buffer holds as many as it takes (R440, Table 13.1). -/
theorem Chip.setInput_areaOf (c : Chip) (z : StreamSt) (bs : List Byte) :
    (c.setInput z bs).areaOf z 0 = { c.areaOf z 0 with bits := bs.take bitstreamBytes } := by
  rw [Chip.setInput, Chip.updStream_areaOf, Chip.updArea_areaOf_same]

section
variable {c : Chip} {x : Ctx} {z : StreamSt} (hstream : c.streamOf? x.j (rsStream (rowWord x)) = some z)
include hstream

/-- An encode transfer raises CAMEO_ROW_RANGE when one of its rows lies outside, and else offers them all. -/
theorem rowStart_stream :
    rowStart x c = if (List.range (ddRows (descOf x))).any (fun i =>
        cmHeight (streamDesc x (rsStream (rowWord x))) ≤ rowLuma (rowWord x) x.g x.iteration i ||
          streamFrames x (streamDesc x (rsStream (rowWord x))) ≤ rowFrame (rowWord x) x.iteration)
      then .raise stCameoRowRange c
      else .started ((c.offerRows x z).addTransfer ((c.offerRows x z).newTransfer x (descOf x) x.iteration [])) := by
  rw [rowWord, descOf] at hstream
  simp only [rowStart, hstream, List.any_map, zipIdx_map_range, List.map_map]
  rfl

theorem rowStart_inside (hin : ∀ i < ddRows (descOf x), ¬rowOutside x i) :
    rowStart x c =
      .started ((c.offerRows x z).addTransfer ((c.offerRows x z).newTransfer x (descOf x) x.iteration [])) := by
  rw [rowStart_stream hstream, if_neg]
  simpa [rowOutside] using hin

theorem rowStart_outside {i : Nat} (hi : i < ddRows (descOf x)) (hout : rowOutside x i) :
    rowStart x c = .raise stCameoRowRange c := by
  rw [rowStart_stream hstream, if_pos]
  exact List.any_eq_true.2 ⟨i, List.mem_range.2 hi, by simpa [rowOutside] using hout⟩

/-- The bytes of a decode transfer that nothing of its stream is ahead of join those that await parsing (R448). -/
theorem decodeStart_reads {rows : List (Nat × List Byte)} (hahead : x.inputAhead (rsStream (rowWord x)) = false)
    (hready : c.rowsReady x (descOf x) (plainRows (descOf x)) = true)
    (hread : c.readRows x (descOf x) (plainRows (descOf x)) = .ok rows) :
    decodeStart x c = .started ((c.setInput z (c.inputOf z ++ rows.flatMap (·.2))).addTransfer
      ((c.setInput z (c.inputOf z ++ rows.flatMap (·.2))).newTransfer x (descOf x) 0 [])) := by
  rw [rowWord, descOf] at hstream hahead
  rw [descOf] at hready hread
  simp only [decodeStart, hstream, hahead, hready, hread, Bool.not_true, Bool.or_self, Bool.false_eq_true, if_false, descOf]

theorem endStart_ends (hahead : x.inputAhead z.entry = false) :
    endStart x c = .started ((c.updStream z.id fun s => { s with inputEnd := true }).addTransfer
      ((c.updStream z.id fun s => { s with inputEnd := true }).newTransfer x (descOf x) 0 [])) := by
  rw [rowWord, descOf] at hstream
  simp only [endStart, hstream, hahead, Bool.false_eq_true, if_false, descOf]

end

/-- An encode transfer offers its rows or raises; a decode transfer gives its bytes, or ends the input. -/
theorem streamTransfersStart : StreamTransfersStart := by
  refine ⟨fun s p x z hready hstream hin => ?offered, fun s p x z i hready hstream hi hout => ?outside,
    fun s p x z rows hready hstream hahead hrows hread => ?input, fun s p x z hready hstream hahead => ?inputEnd⟩
  case offered =>
    exact ⟨_, _, hready.starts rfl rfl (isStreamDma_iff fun w d => by simp)
      (rowStart_inside hstream fun i hi => by simpa [rowOutside] using hin i hi), rfl, rfl⟩
  case outside =>
    exact hready.raises rfl rfl (isStreamDma_iff fun w d => by simp) (rowStart_outside hstream hi hout)
  case input =>
    exact ⟨_, hready.starts rfl rfl (isStreamDma_iff fun w d => by simp) (decodeStart_reads hstream hahead hrows hread), rfl,
      Chip.setInput_areaOf _ _ _⟩
  case inputEnd =>
    exact ⟨_, hready.starts rfl rfl (isStreamDma_iff fun w d => by simp) (endStart_ends hstream hahead), rfl⟩

/-! ## Rows and CTU rows (R441, R451, R452, R455, R456) -/

/-- Nothing holds the CTU row of a stream whose slot is whole back (R452). -/
theorem ctuRow_whole {z : StreamSt} {x : Ctx} {k : RowSlot} (hdue : z.recordDue = false)
    (hwhole : ∀ y ∈ ctuLuma (streamWord x z) z.row, ∃ h ∈ k.have_, h.y = y) :
    (z.recordDue || !(ctuLuma (streamDesc x z.entry) z.row).all fun y => k.have_.any (·.y = y)) = false := by
  simpa [hdue, streamWord] using hwhole

section
variable {c : Chip} {st : Nat} {z : StreamSt} {x : Ctx} {k : RowSlot} (hstream : c.stream? st = some z)
  (hctx : c.streamCtx z = some x)
include hstream hctx

/-- A row that waits and whose slot is open leaves the intake, into the slot unless the slot has it. -/
theorem rowIntake_slot {n : Nat} {w : WaitRow} (hw : z.waiting[n]? = some w)
    (hslot : (c.slotsOf z).find? (fun k => k.frame = w.frame && k.row = w.y / 64) = some k) :
    rowIntake st n c =
      if k.have_.any (·.y = w.y) then
        (c.updStream st fun z => { z with waiting := dropAt z.waiting n }).raiseNamed z.job w.p stCameoRowDuplicate
          (c.bead w.p).run.step (.row (c.bead w.p).g w.frame w.y)
      else (c.updStream st fun z => { z with waiting := dropAt z.waiting n }).updAreas z fun i a =>
        { a with slots := a.slots.map fun o =>
          if o.frame = k.frame && o.row = k.row then o.take x (streamWord x z) w.y (rowTile x z w i) else o } := by
  simp only [rowIntake, hstream, hctx, hw, hslot]
  rfl

section
variable (hslot : (c.slotsOf z).find? (fun k => k.frame = z.frame && k.row = z.row) = some k) (hdue : z.recordDue = false)
  (hwhole : ∀ y ∈ ctuLuma (streamWord x z) z.row, ∃ h ∈ k.have_, h.y = y)
include hslot hdue hwhole

/-- A CTU row after the first of its frame is coded once its slot is whole and its windows are full (R452, R454). -/
theorem ctuRowStart_next {ws : List (List Band)} (hrow : z.row ≠ 0)
    (hws : c.windowsFor x (streamWord x z) z z.refs false = .ok ws) :
    ctuRowStart st c = c.codeCtuRow x (streamWord x z) z k ws := by
  rw [streamWord] at hws
  simp only [ctuRowStart, hstream, hctx, hslot, ctuRow_whole hdue hwhole, bne_iff_ne.2 hrow, decide_eq_false hrow, hws,
    streamWord, Bool.false_eq_true, if_false, if_true]

/-- The first CTU row of a frame is coded as the start of the frame leaves the stream (R454 to R456). -/
theorem ctuRowStart_first {ctl : Nat} {roi : List Nat} {ws : List (List Band)} (hrow : z.row = 0)
    (hstart : c.frameStart x (streamWord x z) z.frame = .ok ctl roi)
    (hws : c.windowsFor x (streamWord x z) (frameBegun x z ctl roi) (frameBegun x z ctl roi).refs true = .ok ws) :
    ctuRowStart st c = c.codeCtuRow x (streamWord x z) (frameBegun x z ctl roi) k ws := by
  simp only [streamWord, frameBegun] at hstart hws
  simp only [ctuRowStart, hstream, hctx, hslot, ctuRow_whole hdue hwhole, bne_eq_false_iff_eq.2 hrow, decide_eq_true hrow, hstart,
    hws, streamWord, frameBegun, Bool.false_eq_true, if_false]

/-- Reserved bits in the control word or the regions of a frame raise CAMEO_CONTROL (R455, R456). -/
theorem ctuRowStart_bad (hrow : z.row = 0) (hstart : c.frameStart x (streamWord x z) z.frame = .bad) :
    ctuRowStart st c = c.raiseCameo z stCameoControl z.frame := by
  rw [streamWord] at hstart
  simp only [ctuRowStart, hstream, hctx, hslot, ctuRow_whole hdue hwhole, bne_eq_false_iff_eq.2 hrow, hstart, Bool.false_eq_true,
    if_false]

end

end

theorem rowsAreTaken : RowsAreTaken := by
  refine ⟨fun s st n z x w k hstream hctx hw hslot => ?intake, fun s st z x k hstream hctx hslot hdue hwhole =>
    ⟨fun ws hrow hws => ?next, fun ctl roi ws hrow hstart hws => ?first, fun hrow hstart => ?bad⟩⟩
  case intake => exact exec_onChip rfl rfl (rowIntake_slot hstream hctx hw hslot)
  case next => exact exec_onChip rfl rfl (ctuRowStart_next hstream hctx hslot hdue hwhole hrow hws)
  case first => exact exec_onChip rfl rfl (ctuRowStart_first hstream hctx hslot hdue hwhole hrow hstart hws)
  case bad => exact exec_onChip rfl rfl (ctuRowStart_bad hstream hctx hslot hdue hwhole hrow hstart)

/-! ## Records (R454, R455, R458, R460, R461) -/

/-- A frame that would exceed the buffer model below qp_max has been coded at qp_max (R458). -/
theorem settleQp_withinBuffer {c e : Chip} {x : Ctx} {d : Nat} {z y : StreamSt} (h : c.settleQp x d z = (e, y)) :
    withinBuffer d y (e.codedPayload x d y) := by
  intro hmode hqp
  unfold Chip.settleQp at h
  split at h
  · obtain ⟨-, rfl⟩ := Prod.mk.inj h
    exact absurd hqp (Nat.lt_irrefl _)
  · next hwithin =>
    obtain ⟨rfl, rfl⟩ := Prod.mk.inj h
    simpa [hmode, hqp] using hwithin

/-- What follows the record of a frame with `n` payload bytes: its reconstruction is kept, the next frame begins and frame_post is posted;
the stream ends after its last frame (R454, R455, R458, R460, R461). -/
def Chip.frameDone (c : Chip) (x : Ctx) (d st : Nat) (y : StreamSt) (n : Nat) : Chip :=
  ((((c.keepPicture x d y).updStream st fun w =>
    { w with frame := w.frame + 1, row := 0, recordDue := false, taken := [], sizes := w.sizes ++ [n],
             fullness := cpbBefore d (cpbAfter d w.fullness n),
             lt := if fcMark w.ctl then w.lt.set (fcSlot w.ctl) (some w.frame) else w.lt }).postObj x.j y.owner
    (cmFramePost d)).endStream x d st)

/-- A coded frame's record is written at the QP that rate control settles on, or does not fit (R458, R461). -/
theorem recordAssembly_due {c e : Chip} {st : Nat} {z y : StreamSt} {x : Ctx} (hstream : c.stream? st = some z)
    (hctx : c.streamCtx z = some x) (hsettle : c.settleQp x (streamWord x z) z = (e, y)) (hended : z.ended = false)
    (hdecode : cmDecode (streamWord x z) = false) (hdue : z.recordDue = true) (hrefs : c.refsReady x (streamWord x z) z = true)
    (hout : c.tensorReady x (cmOut (streamWord x z)) 0
      ((c.tensorAlloc? x.job (cmOut (streamWord x z))).elim 0 (·.bytes)) = true) :
    recordAssembly st c =
      match e.putRecord x (streamWord x z) y (frameRecord (streamWord x z) y (e.codedPayload x (streamWord x z) y)) with
      | none => e.raiseCameo y stCameoOutputFull y.frame
      | some f => f.frameDone x (streamWord x z) st y (e.codedPayload x (streamWord x z) y).length := by
  rw [streamWord] at hsettle hdecode hrefs hout
  simp only [recordAssembly, hstream, hctx, hended, hdecode, hdue, hrefs, hout, hsettle, streamWord, Bool.not_true, Bool.or_self,
    Bool.false_eq_true, if_false]
  rfl

/-! ## Decoded frames (R462, R463, R467) -/

/-- A decode that has not ended parses its input and goes on with what it has. -/
theorem decodeFrameOutput_running {c : Chip} {st : Nat} {z y : StreamSt} {x : Ctx} (hstream : c.stream? st = some z)
    (hctx : c.streamCtx z = some x) (hended : z.ended = false) (hdecode : cmDecode (streamWord x z) = true)
    (hparsed : (c.parseInput (streamWord x z) z).stream? st = some y) :
    decodeFrameOutput st c = (c.parseInput (streamWord x z) z).decodeNext x (streamWord x z) y := by
  rw [streamWord] at hdecode hparsed
  simp [decodeFrameOutput, hstream, hctx, hended, hdecode, hparsed, streamWord]

section
variable {c : Chip} {x : Ctx} {d : Nat} {y : StreamSt} {good : List (Config.DecUnit × Bool)} {cut : Bool}
  (hunits : supportedUnits (cmCodec d) y.units = (good, cut))
include hunits

theorem decodeNext_picture {p : Nat} {e : Chip} {v : Shown} (hnext : y.nextPic d = some p) (hfree : c.surfaceFree x d y = true)
    (hpics : Chip.decodePics x d y.id good (y.toDecode d p) c = .ok e)
    (hheld : ((e.stream? y.id).getD y).held.find? (·.pic = p) = some v) :
    c.decodeNext x d y = (e.take y.owner (cmFrameFree d)).putSurface x d y v := by
  simp [Chip.decodeNext, hunits, hnext, hfree, hpics, hheld]

section
variable (hnext : y.nextPic d = none)
include hnext

theorem decodeNext_unsupported (hcut : cut = true) : c.decodeNext x d y = c.raiseCameo y stCameoUnsupported y.output := by
  simp [Chip.decodeNext, hunits, hnext, hcut]

theorem decodeNext_waits (hcut : cut = false) (hend : y.inputEnd = false) : c.decodeNext x d y = c := by
  simp [Chip.decodeNext, hunits, hnext, hcut, hend]

theorem decodeNext_missing (hcut : cut = false) (hend : y.inputEnd = true) (hframes : y.output < streamFrames x d)
    (hfree : c.surfaceFree x d y = true) :
    c.decodeNext x d y = (c.take y.owner (cmFrameFree d)).putSurface x d y (missingFrame d y) := by
  simp [Chip.decodeNext, hunits, hnext, hcut, hend, hframes, hfree]

theorem decodeNext_ends (hcut : cut = false) (hend : y.inputEnd = true) (hframes : streamFrames x d ≤ y.output) :
    c.decodeNext x d y = (c.updStream y.id fun w => { w with ended := true }).postObj x.j y.owner (cmDone d) := by
  simp [Chip.decodeNext, hunits, hnext, hcut, hend, Nat.not_lt.2 hframes]

end

end

theorem framesComplete : FramesComplete := by
  refine ⟨fun s st z y x d e pay hstream hctx hd hsettle hpay hended hdecode hdue hrefs hout => ?record,
    fun s st z y x d c good cut hstream hctx hd hended hdecode hc hparsed hunits => ?decode⟩
  case record =>
    subst hd hpay
    exact ⟨settleQp_withinBuffer hsettle.symm,
      exec_onChip rfl rfl (recordAssembly_due hstream hctx hsettle.symm hended hdecode hdue hrefs hout)⟩
  case decode =>
    subst hd hc
    have hrun := decodeFrameOutput_running hstream hctx hended hdecode hparsed
    refine ⟨fun p e v hnext hfree hpics hheld => ?picture, fun hnext hcut => ?unsupported, fun hnext hcut hend => ?waits,
      fun hnext hcut hend hframes hfree => ?missing, fun hnext hcut hend hframes => ?ends⟩
    case picture => exact exec_onChip rfl rfl (hrun.trans (decodeNext_picture hunits.symm hnext hfree hpics hheld))
    case unsupported => exact exec_onChip rfl rfl (hrun.trans (decodeNext_unsupported hunits.symm hnext hcut))
    case waits => exact exec_onChip rfl rfl (hrun.trans (decodeNext_waits hunits.symm hnext hcut hend))
    case missing => exact exec_onChip rfl rfl (hrun.trans (decodeNext_missing hunits.symm hnext hcut hend hframes hfree))
    case ends => exact exec_onChip rfl rfl (hrun.trans (decodeNext_ends hunits.symm hnext hcut hend hframes))

/-- Settles O13: each command does the one thing that the stream, its descriptor and what it has taken so far pick. -/
theorem cameoStreamsRun : Obligations.CameoStreamsRun := by
  unfold Obligations.CameoStreamsRun
  exact ⟨streamTransfersStart, rowsAreTaken, framesComplete⟩

end Sys2Proof.Machine
end

section
/-!
Fences (R490, R498, R505 to R507, R521, R574): what stopping a job and telling its rings leave of the part beside its jobs, and the
job that a fence leaves.
-/
namespace Sys2Proof.Machine
open Sys2Proof Sys2Proof.Claims

/-! ## What a fence can change -/

/-- The part beside its jobs: all but the jobs, the Beads, what is in flight, the rings and their ports, the fault log and what has
been sent. -/
def Chip.besideJobs (c : Chip) : Chip :=
  { c with sent := [], beads := [], jobs := [], transfers := [], tableLoads := [], walks := [], edits := [], reports := [],
           contribs := [], ringIn := [], ports := [], rings := [], ringRuns := [], flog := { written := 0, acked := 0, recs := [] } }

theorem foldl_besideJobs {α : Type} {f : Chip → α → Chip} (hf : ∀ c a, (f c a).besideJobs = c.besideJobs) (l : List α) (c : Chip) :
    (l.foldl f c).besideJobs = c.besideJobs :=
  foldl_keeps (fun c d : Chip => d.besideJobs = c.besideJobs) (fun _ => rfl) (fun _ _ _ h1 h2 => h2.trans h1) f hf l c

theorem iter_besideJobs {f : Nat → Chip → Chip} (hf : ∀ i c, (f i c).besideJobs = c.besideJobs) (n : Nat) (c : Chip) :
    (iter n f c).besideJobs = c.besideJobs :=
  foldl_besideJobs (fun c i => hf i c) _ c

/-! ## Messages of a ring (R551 to R555, R574, R575) -/

@[simp] theorem Chip.sealOut_besideJobs (c : Chip) (port : Nat) (m : TxMsg) : (c.sealOut port m).2.besideJobs = c.besideJobs := by
  unfold Chip.sealOut
  split <;> rfl

@[simp] theorem Chip.pump_besideJobs (c : Chip) (port : Nat) : (c.pump port).besideJobs = c.besideJobs := by
  unfold Chip.pump
  extract_lets x
  split
  · rfl
  · generalize startable x.credits (retryDepth - x.unacked.length) 0 [] x.txQueue = w
    obtain ⟨go, stay⟩ := w
    dsimp only
    rw [foldl_besideJobs (fun _ _ => by rfl), foldl_besideJobs (fun _ _ => by rfl)]
    exact foldl_keeps (fun s t : List Byte × List (Nat × TxMsg) × Chip => t.2.2.besideJobs = s.2.2.besideJobs) (fun _ => rfl)
      (fun _ _ _ h1 h2 => h2.trans h1) _ (fun s m => s.2.2.sealOut_besideJobs port m) go _

@[simp] theorem Chip.route_besideJobs (c : Chip) (m : TxMsg) : (c.route m).besideJobs = c.besideJobs := by
  unfold Chip.route
  split
  · exact Chip.pump_besideJobs _ _
  · rfl

@[simp] theorem Chip.sendControl_besideJobs (c : Chip) (r : Nat) (next : Bool) (op step epoch : Nat) :
    (c.sendControl r next op step epoch).besideJobs = c.besideJobs := Chip.route_besideJobs _ _

@[simp] theorem Chip.ringFenceOut_besideJobs (c : Chip) (r session : Nat) :
    (c.ringFenceOut r session).besideJobs = c.besideJobs := by
  unfold Chip.ringFenceOut
  split
  · rfl
  · dsimp only
    split
    · rfl
    · exact (Chip.sendControl_besideJobs ..).trans (Chip.sendControl_besideJobs ..)

@[simp] theorem Chip.ringResumeOut_besideJobs (c : Chip) (r : Nat) : (c.ringResumeOut r).besideJobs = c.besideJobs := by
  unfold Chip.ringResumeOut
  split
  · exact Chip.sendControl_besideJobs ..
  · rfl

@[simp] theorem Chip.updJob_besideJobs (c : Chip) (j : Nat) (g : Job → Job) : (c.updJob j g).besideJobs = c.besideJobs := by
  unfold Chip.updJob
  split <;> rfl

@[simp] theorem Chip.ringHold_besideJobs (c : Chip) (j r : Nat) : (c.ringHold j r).besideJobs = c.besideJobs := by
  unfold Chip.ringHold
  split
  · rfl
  · split
    · rfl
    · split
      · rw [Chip.ringResumeOut_besideJobs, Chip.updJob_besideJobs]
      · exact Chip.updJob_besideJobs ..

@[simp] theorem Chip.ringTell_besideJobs (c : Chip) (j r : Nat) : (c.ringTell j r).besideJobs = c.besideJobs := by
  unfold Chip.ringTell
  split
  · rfl
  · rw [Chip.ringHold_besideJobs, Chip.ringFenceOut_besideJobs]

/-! ## Stopping a job (R507) -/

/-- `d` is `c` with its walks and edits at other walkers. -/
def Chip.SameButWalkers (c d : Chip) : Prop :=
  ∃ (ws : List Walk) (es : List Edit), d = { c with walks := ws, edits := es } ∧
    ws.map (·.job) = c.walks.map (·.job) ∧ es.map (·.job) = c.edits.map (·.job)

theorem Chip.SameButWalkers.refl (c : Chip) : c.SameButWalkers c := ⟨_, _, rfl, rfl, rfl⟩

theorem Chip.SameButWalkers.trans {c d e : Chip} (h1 : c.SameButWalkers d) (h2 : d.SameButWalkers e) : c.SameButWalkers e := by
  obtain ⟨_, _, rfl, hwalks1, hedits1⟩ := h1
  obtain ⟨_, _, rfl, hwalks2, hedits2⟩ := h2
  exact ⟨_, _, rfl, hwalks2.trans hwalks1, hedits2.trans hedits1⟩

theorem Chip.assignWalker_sameButWalkers (c : Chip) (f : Nat) : c.SameButWalkers (c.assignWalker f) := by
  unfold Chip.assignWalker
  split
  · refine ⟨_, _, rfl, ?_, ?_⟩ <;>
      exact List.map_map.trans (List.map_congr_left fun v _ => by dsimp only [Function.comp_apply]; split <;> rfl)
  · exact .refl c

theorem Chip.assignWalkers_sameButWalkers (c : Chip) (f : Nat) : c.SameButWalkers (c.assignWalkers f) :=
  iter_keeps _ .refl (fun _ _ _ => .trans) _ _ (fun _ c => c.assignWalker_sameButWalkers f) c

/-- Nothing of job `j` moves by itself. -/
structure Chip.NoneInFlight (c : Chip) (j : Nat) : Prop where
  transfers : ∀ v ∈ c.transfers, v.job ≠ j
  walks : ∀ v ∈ c.walks, v.job ≠ j
  edits : ∀ v ∈ c.edits, v.job ≠ j
  reports : ∀ v ∈ c.reports, v.job ≠ j
  contribs : ∀ v ∈ c.contribs, v.job ≠ j

theorem Chip.NoneInFlight.sameButWalkers {c d : Chip} {j : Nat} (h : c.NoneInFlight j) (hsame : c.SameButWalkers d) :
    d.NoneInFlight j := by
  obtain ⟨ws, es, rfl, hwalks, hedits⟩ := hsame
  refine ⟨h.transfers, fun v hv => ?walks, fun v hv => ?edits, h.reports, h.contribs⟩
  case walks =>
    obtain ⟨u, hu, hjob⟩ := List.mem_map.1 (hwalks ▸ List.mem_map_of_mem hv : v.job ∈ c.walks.map (·.job))
    exact hjob ▸ h.walks u hu
  case edits =>
    obtain ⟨u, hu, hjob⟩ := List.mem_map.1 (hedits ▸ List.mem_map_of_mem hv : v.job ∈ c.edits.map (·.job))
    exact hjob ▸ h.edits u hu

/-- The chip with everything in flight of a job dropped, before the walkers' free contexts are taken. -/
def Chip.cutInFlight (c : Chip) (j : Nat) : Chip :=
  { c.mapMessages fun m => { m with slots := m.slots.filter fun o => !decide ((c.bead o.1).job = some j) } with
    transfers := c.transfers.filter (·.job != j), tableLoads := c.tableLoads.filter (·.job != j),
    walks := c.walks.filter (·.job != j), edits := c.edits.filter (·.job != j), reports := c.reports.filter (·.job != j),
    contribs := c.contribs.filter (·.job != j), ringIn := c.ringIn.filter (·.job != j) }

theorem Chip.cutInFlight_noneInFlight (c : Chip) (j : Nat) : (c.cutInFlight j).NoneInFlight j := by
  constructor <;> exact fun v hv => by simpa using (List.mem_filter.1 hv).2

theorem Chip.dropInFlight_sameButWalkers (c : Chip) (j : Nat) : (c.cutInFlight j).SameButWalkers (c.dropInFlight j) :=
  iter_keeps _ .refl (fun _ _ _ => .trans) 5 _ (fun f c => c.assignWalkers_sameButWalkers f) _

/-- A change to the Beads of a group is one to Beads alone. -/
theorem Chip.updGroup_eq (c : Chip) (x : Job) (f : BeadSt → BeadSt) : ∃ beads, c.updGroup x f = { c with beads := beads } :=
  foldl_keeps (fun c d : Chip => ∃ beads, d = { c with beads := beads }) (fun _ => ⟨_, rfl⟩)
    (fun _ _ _ ⟨_, h1⟩ ⟨_, h2⟩ => ⟨_, h1 ▸ h2⟩) _ (fun _ _ => ⟨_, rfl⟩) _ c

/-- A stopped job's Beads and what it had in flight change, and it stops; some walks and edits of others take walkers. -/
theorem Chip.stopJob_eq (c : Chip) (j : Nat) (x : Job) :
    ∃ (d : Chip) (beads : Tbl BeadSt), (c.cutInFlight j).SameButWalkers d ∧
      c.stopJob j x = ({ d with beads := beads }).setJob j { x with openGens := [], phase := .stopping } := by
  obtain ⟨beads, h⟩ := (c.dropInFlight j).updGroup_eq x fun b =>
    { b with waits := [], run := { b.run with stopped := true, parked := [] } }
  exact ⟨_, beads, c.dropInFlight_sameButWalkers j, by rw [← h]; rfl⟩

@[simp] theorem Chip.stopJob_besideJobs (c : Chip) (j : Nat) (x : Job) : (c.stopJob j x).besideJobs = c.besideJobs := by
  obtain ⟨_, _, ⟨_, _, rfl, -, -⟩, h⟩ := c.stopJob_eq j x
  rw [h]
  rfl

@[simp] theorem Chip.stopJob_flog (c : Chip) (j : Nat) (x : Job) : (c.stopJob j x).flog = c.flog := by
  obtain ⟨_, _, ⟨_, _, rfl, -, -⟩, h⟩ := c.stopJob_eq j x
  rw [h]
  rfl

@[simp] theorem Chip.stopJob_job? (c : Chip) (j : Nat) (x : Job) :
    (c.stopJob j x).job? j = some { x with openGens := [], phase := .stopping } := by
  rw [Chip.stopJob, Chip.setJob_job?, if_pos rfl]

theorem Chip.stopJob_noneInFlight (c : Chip) (j : Nat) (x : Job) : (c.stopJob j x).NoneInFlight j := by
  obtain ⟨d, _, hsame, h⟩ := c.stopJob_eq j x
  obtain ⟨htransfers, hwalks, hedits, hreports, hcontribs⟩ := (c.cutInFlight_noneInFlight j).sameButWalkers hsame
  exact h ▸ ⟨htransfers, hwalks, hedits, hreports, hcontribs⟩

/-! ## Fencing a job (R490, R498, R505, R521) -/

theorem Chip.updJob_of_job {c : Chip} {j : Nat} {x : Job} (h : c.job? j = some x) (g : Job → Job) :
    c.updJob j g = c.setJob j (g x) := by
  rw [Chip.updJob, h]

@[simp] theorem Chip.log_besideJobs (c : Chip) (r : FaultRec) : (c.log r).besideJobs = c.besideJobs := by
  obtain ⟨_, h⟩ := c.log_eq r
  rw [h]
  rfl

/-- The part with a job of its that a fence has halted: a bound one has stopped, and any has lost its uncommitted generations. -/
def Chip.halted (c : Chip) (j : Nat) (x : Job) : Chip :=
  if x.phase = .bound then c.stopJob j x else c.setJob j { x with openGens := [] }

/-- The job that is halted. -/
def Job.halted (x : Job) : Job := { x with openGens := [], phase := if x.phase = .bound then .stopping else x.phase }

@[simp] theorem Chip.halted_besideJobs (c : Chip) (j : Nat) (x : Job) : (c.halted j x).besideJobs = c.besideJobs := by
  unfold Chip.halted
  split
  · exact Chip.stopJob_besideJobs ..
  · rfl

@[simp] theorem Chip.halted_flog (c : Chip) (j : Nat) (x : Job) : (c.halted j x).flog = c.flog := by
  unfold Chip.halted
  split
  · exact Chip.stopJob_flog ..
  · rfl

@[simp] theorem Chip.halted_job? (c : Chip) (j : Nat) (x : Job) : (c.halted j x).job? j = some x.halted := by
  unfold Chip.halted Job.halted
  split
  · exact Chip.stopJob_job? ..
  · exact (Chip.setJob_job? ..).trans (if_pos rfl)

/-- The halted job once its fence, with record `n`, has ended it with `e` or makes it resume; `met` are the statuses that it has met. -/
def Job.fenced (x : Job) (e : Option Nat) (met : List (Nat × Nat)) (n : Nat) : Job :=
  let y := { x with ending := e, met := met, mid := none, resumeDue := true, preempt := false, ringWait := [], ringFrom := none,
                    fenceRec := some n }
  match x.phase, e with
  | .waiting, some st => y.close st
  | _, _ => y

/-- The end of a fenced job: the one that it has, the one forced on it, or that of R490 and R498. -/
def fencedEnd (limit : Nat) (x : Job) (raised : Option (Nat × Nat)) (force : Option Nat) : Option Nat :=
  (x.ending.orElse fun _ => force).orElse fun _ => fenceEnd limit x raised

/-- The statuses that a job has met once one more has fenced it. -/
def Job.metWith (x : Job) : Option (Nat × Nat) → List (Nat × Nat)
  | some k => if x.met.contains k then x.met else x.met ++ [k]
  | none => x.met

/-- A fence halts its job, ends it or makes it resume, and writes its record. -/
theorem Chip.fenceCore_fenceable {c : Chip} {j : Nat} {x : Job} (hjob : c.job? j = some x) (hfence : x.fenceable = true) (o : Origin)
    (raised : Option (Nat × Nat)) (force : Option Nat) :
    c.fenceCore j o raised force =
      ((c.halted j x).setJob j (x.halted.fenced (fencedEnd c.sched.resumeLimit x raised force) (x.metWith raised)
        c.flog.written)).log (fencedRec o x ((fencedEnd c.sched.resumeLimit x raised force).getD stOK)) := by
  rw [← Chip.updJob_of_job (c.halted_job? j x) (·.fenced _ _ _), ← c.halted_flog j x, Chip.fenceCore, hjob]
  simp only [hfence]
  rfl

theorem Chip.fenceCore_not_fenceable {c : Chip} {j : Nat} {x : Job} (hjob : c.job? j = some x) (hfence : x.fenceable = false)
    (o : Origin) (raised : Option (Nat × Nat)) (force : Option Nat) : c.fenceCore j o raised force = c := by
  simp [Chip.fenceCore, hjob, hfence]

@[simp] theorem Chip.fenceCore_besideJobs (c : Chip) (j : Nat) (o : Origin) (raised : Option (Nat × Nat)) (force : Option Nat) :
    (c.fenceCore j o raised force).besideJobs = c.besideJobs := by
  cases hjob : c.job? j with
  | none => simp [Chip.fenceCore, hjob]
  | some x =>
    cases hfence : x.fenceable with
    | false => rw [Chip.fenceCore_not_fenceable hjob hfence]
    | true =>
      rw [Chip.fenceCore_fenceable hjob hfence, Chip.log_besideJobs]
      exact c.halted_besideJobs j x

theorem Chip.fenceJobWith_not_fenceable {c : Chip} {j : Nat} {x : Job} (hjob : c.job? j = some x) (hfence : x.fenceable = false)
    (o : Origin) (raised : Option (Nat × Nat)) (force : Option Nat) : c.fenceJobWith j o raised force = c := by
  simp [Chip.fenceJobWith, hjob, hfence]

/-- A fence leaves the part beside its jobs as it is. -/
@[simp] theorem Chip.fenceJobWith_besideJobs (c : Chip) (j : Nat) (o : Origin) (raised : Option (Nat × Nat)) (force : Option Nat) :
    (c.fenceJobWith j o raised force).besideJobs = c.besideJobs := by
  unfold Chip.fenceJobWith
  split
  · rfl
  · split
    · rfl
    · rw [foldl_besideJobs (fun c r => c.ringTell_besideJobs j r), Chip.fenceCore_besideJobs]

theorem fencesTouchOnlyJobs : FencesTouchOnlyJobs := by
  refine ⟨fun c d j o raised force hd => ?beside, fun c j x o raised force hjob hfence =>
    Chip.fenceJobWith_not_fenceable hjob hfence o raised force⟩
  subst hd
  have h := c.fenceJobWith_besideJobs j o raised force
  exact ⟨(congrArg Chip.tick h :), (congrArg Chip.pkg h :), (congrArg Chip.clasps h :), (congrArg Chip.facets h :),
    (congrArg Chip.locket h :), (congrArg Chip.tables h :), (congrArg Chip.scratch h :), (congrArg Chip.hbm h :),
    (congrArg Chip.host h :), (congrArg Chip.mem h :), (congrArg Chip.pcs h :), (congrArg Chip.stackTab h :),
    (congrArg Chip.settings h :), (congrArg Chip.sessions h :), (congrArg Chip.queues h :), (congrArg Chip.pairs h :),
    (congrArg Chip.streams h :), (congrArg Chip.heads h :), (congrArg Chip.mgmt h :), (congrArg Chip.telem h :)⟩

/-! ## The job that a fence leaves (R490, R498, R507, R521) -/

/-- What a fence sets of its job, whatever becomes of it. -/
theorem Job.fenced_sets (x : Job) (e : Option Nat) (met : List (Nat × Nat)) (n : Nat) :
    (x.fenced e met n).fenceRec = some n ∧ (x.fenced e met n).ending = e ∧ (x.fenced e met n).mid = none ∧
      (x.fenced e met n).resumeDue = true ∧ (x.fenced e met n).preempt = false := by
  unfold Job.fenced
  split <;> exact ⟨rfl, rfl, rfl, rfl, rfl⟩

theorem Job.fenced_keeps (x : Job) (e : Option Nat) (met : List (Nat × Nat)) (n : Nat) :
    (x.fenced e met n).openGens = x.openGens ∧ (x.fenced e met n).seq = x.seq ∧ (x.fenced e met n).gens = x.gens := by
  unfold Job.fenced
  split <;> exact ⟨rfl, rfl, rfl⟩

/-- A fenced job that holds a group or will resume stays where it is. -/
theorem Job.fenced_stays {x : Job} {e : Option Nat} {met : List (Nat × Nat)} {n : Nat} (h : x.phase ≠ .waiting ∨ e = none) :
    (x.fenced e met n).phase = x.phase ∧ (x.fenced e met n).ledger = x.ledger := by
  unfold Job.fenced
  split
  · next hphase => exact absurd h (by simp [hphase])
  · exact ⟨rfl, rfl⟩

/-- A waiting job that a fence ends is at its end. -/
theorem Job.fenced_closes {x : Job} {met : List (Nat × Nat)} {n st : Nat} (hphase : x.phase = .waiting) :
    (x.fenced (some st) met n).phase = .ended ∧ (x.fenced (some st) met n).ledger = .completing := by
  simp [Job.fenced, hphase, Job.close]

theorem Job.halted_phase_bound {x : Job} (h : x.phase = .bound) : x.halted.phase = .stopping := if_pos h

theorem Job.halted_phase_of_ne {x : Job} (h : x.phase ≠ .bound) : x.halted.phase = x.phase := if_neg h

/-- With no status forced, a job that has no end of its own ends as R490 and R498 say. -/
theorem fencedEnd_of_none {x : Job} (h : x.ending = none) (limit : Nat) (raised : Option (Nat × Nat)) :
    fencedEnd limit x raised none = fenceEnd limit x raised := by
  simp [fencedEnd, h]

theorem fencedEnd_unforced (limit : Nat) (x : Job) (raised : Option (Nat × Nat)) :
    fencedEnd limit x raised none = x.ending.orElse fun _ => fenceEnd limit x raised := by
  cases h : x.ending <;> simp [fencedEnd, h]

theorem fenceEnd_cancelled {x : Job} (h : x.cancel = true) (limit : Nat) (raised : Option (Nat × Nat)) :
    fenceEnd limit x raised = some stCancelled := by
  simp [fenceEnd, h]

theorem Job.fenceable_iff (x : Job) : x.fenceable = true ↔ x.ledger = .accepted ∧ x.phase ≠ .ended := by
  simp [Job.fenceable]

theorem fencedJobsStop : FencedJobsStop := by
  intro c d j x o raised hjob hledger hphase hd hend
  rw [Chip.fenceCore_fenceable hjob (x.fenceable_iff.2 ⟨hledger, hphase⟩)] at hd
  generalize he : fencedEnd c.sched.resumeLimit x raised none = e at hd
  obtain ⟨hrec, hending, hmid, hresume, hpreempt⟩ := x.halted.fenced_sets e (x.metWith raised) c.flog.written
  obtain ⟨hgens, hseq, hkept⟩ := x.halted.fenced_keeps e (x.metWith raised) c.flog.written
  have hstays := Job.fenced_stays (x := x.halted) (e := e) (met := x.metWith raised) (n := c.flog.written)
  have hown : x.phase ≠ .stopping → e = fenceEnd c.sched.resumeLimit x raised := fun hne =>
    he ▸ fencedEnd_of_none (hend.resolve_left hne) _ _
  subst hd
  refine ⟨x.halted.fenced e (x.metWith raised) c.flog.written, ?job, ?written, hrec, fun hstop => ?stopping, hgens, hmid, hresume,
    hpreempt, hseq, hkept, fun hbound => ?bound, fun hwait hnone => ?resumes, fun st hwait hst => ?ends,
    fun hcancel _ => fenceEnd_cancelled hcancel _ _⟩
  case job => simp [Chip.job?, Tbl.find?_put]
  case written => simp
  case stopping =>
    have hhalted : x.halted.phase = .stopping := (Job.halted_phase_of_ne (by simp [hstop])).trans hstop
    obtain ⟨hph, hled⟩ := hstays (.inl (by simp [hhalted]))
    exact ⟨hph.trans hhalted, hled.trans hledger, hending.trans (he ▸ fencedEnd_unforced _ _ _)⟩
  case bound =>
    have hhalted : x.halted.phase = .stopping := Job.halted_phase_bound hbound
    obtain ⟨hph, hled⟩ := hstays (.inl (by simp [hhalted]))
    have hnone : (c.halted j x).NoneInFlight j := by
      rw [Chip.halted, if_pos hbound]
      exact c.stopJob_noneInFlight j x
    refine ⟨hph.trans hhalted, hled.trans hledger, hending.trans (hown (by simp [hbound])), ?_⟩
    simpa using ⟨hnone.transfers, hnone.walks, hnone.edits, hnone.reports, hnone.contribs⟩
  case resumes =>
    have hhalted : x.halted.phase = .waiting := (Job.halted_phase_of_ne (by simp [hwait])).trans hwait
    obtain ⟨hph, hled⟩ := hstays (.inr ((hown (by simp [hwait])).trans hnone))
    exact ⟨hph.trans hhalted, hled.trans hledger⟩
  case ends =>
    have hhalted : x.halted.phase = .waiting := (Job.halted_phase_of_ne (by simp [hwait])).trans hwait
    have hsome : e = some st := (hown (by simp [hwait])).trans hst
    subst hsome
    obtain ⟨hph, hled⟩ := Job.fenced_closes (met := x.metWith raised) (n := c.flog.written) (st := st) hhalted
    exact ⟨hph, hled, hending⟩

/-- Settles O52: a fence halts its job, sets its end, writes its record and tells its rings, none of which reaches beyond the jobs,
the Beads, what is in flight, the rings with their ports and the fault log. -/
theorem fencesStopJobsAlone : Obligations.FencesStopJobsAlone := by
  unfold Obligations.FencesStopJobsAlone
  exact ⟨fencesTouchOnlyJobs, fencedJobsStop⟩

end Sys2Proof.Machine
end

section
/-!
Queues and the ends of jobs (R470, R478 to R486, R491, R499, R541, R573, R605, R609): acceptance and refusal, completion and its record,
and the commit of a generation.
-/
namespace Sys2Proof.Machine
open Sys2Proof Sys2Proof.Claims

/-! ## The lowest free index of a table (R480) -/

theorem Tbl.find?_eq_none_of_lt {α : Type} {t : Tbl α} {k : Nat} (h : ∀ e ∈ t, k < e.1) : t.find? k = none := by
  induction t with
  | nil => rfl
  | cons e t ih =>
    obtain ⟨hhead, htail⟩ := List.forall_mem_cons.1 h
    rw [Tbl.find?, if_neg (Nat.ne_of_gt hhead), ih htail]

/-- In a table whose numbers rise, all from `k` on, no unit has the number of the first gap. -/
theorem find?_firstGap {α : Type} {t : Tbl α} {k : Nat} (hrise : t.Pairwise fun a b => a.1 < b.1) (hfrom : ∀ e ∈ t, k ≤ e.1) :
    k ≤ firstGap k t ∧ t.find? (firstGap k t) = none := by
  induction t generalizing k with
  | nil => exact ⟨Nat.le_refl k, rfl⟩
  | cons e t ih =>
    obtain ⟨i, a⟩ := e
    obtain ⟨hafter, hrest⟩ := List.pairwise_cons.1 hrise
    have hik : k ≤ i := hfrom _ List.mem_cons_self
    rw [firstGap]
    split
    · next heq =>
      obtain ⟨hle, hnone⟩ := ih (k := k + 1) hrest fun e he => heq ▸ hafter e he
      have hpast : i ≠ firstGap (k + 1) t := by omega
      exact ⟨by omega, by rw [Tbl.find?, if_neg hpast, hnone]⟩
    · next hne =>
      have hlt : k < i := by omega
      exact ⟨Nat.le_refl k, Tbl.find?_eq_none_of_lt (List.forall_mem_cons.2 ⟨hlt, fun e he => Nat.lt_trans hlt (hafter e he)⟩)⟩

/-! ## A record in a journal (R483, R534) -/

/-- The queue once one more record stands in its journal. -/
def QueueSt.recorded (x : QueueSt) : QueueSt :=
  { x with jNext := if x.jNext + 1 = x.journalEntries then 0 else x.jNext + 1,
           phase := if x.jNext + 1 = x.journalEntries then !x.phase else x.phase, jHeld := x.jHeld + 1 }

theorem Chip.msix_eq (c : Chip) (head vector : Nat) : ∃ sent heads, c.msix head vector = { c with sent := sent, heads := heads } := by
  unfold Chip.msix
  split <;> exact ⟨_, _, rfl⟩

/-- A record written changes host memory, its queue, and what is sent or waits at a head. -/
theorem Chip.writeRecord_eq (c : Chip) (q : Nat) (r : Record) :
    ∃ d sent heads, c.OnlyMemory d ∧
      c.writeRecord q r = { d.setQueue q (c.queue q).recorded with sent := sent, heads := heads } := by
  obtain ⟨sent, heads, h⟩ := ((c.hostWrite ((c.queue q).journalAddr + 64 * (c.queue q).jNext)
    (leBytes 64 (r.word (c.queue q).phase))).setQueue q (c.queue q).recorded).msix_eq (c.queue q).active q
  exact ⟨_, sent, heads, c.hostWrite_only _ _, by rw [← h]; simp [Chip.writeRecord, QueueSt.recorded]⟩

@[simp] theorem Chip.writeRecord_queues (c : Chip) (q : Nat) (r : Record) :
    (c.writeRecord q r).queues = c.queues.put q (c.queue q).recorded := by
  obtain ⟨_, _, _, ⟨_, _, _, _, _, _, _, _, _, _, _, rfl⟩, h⟩ := c.writeRecord_eq q r
  rw [h]
  rfl

@[simp] theorem Chip.writeRecord_queue (c : Chip) (q : Nat) (r : Record) :
    (c.writeRecord q r).queue q = (c.queue q).recorded := by
  rw [Chip.queue, Chip.writeRecord_queues, Tbl.get_put, if_pos rfl]

@[simp] theorem Chip.writeRecord_jobs (c : Chip) (q : Nat) (r : Record) : (c.writeRecord q r).jobs = c.jobs := by
  obtain ⟨_, _, _, ⟨_, _, _, _, _, _, _, _, _, _, _, rfl⟩, h⟩ := c.writeRecord_eq q r
  rw [h]
  rfl

@[simp] theorem Chip.writeRecord_sessions (c : Chip) (q : Nat) (r : Record) : (c.writeRecord q r).sessions = c.sessions := by
  obtain ⟨_, _, _, ⟨_, _, _, _, _, _, _, _, _, _, _, rfl⟩, h⟩ := c.writeRecord_eq q r
  rw [h]
  rfl

@[simp] theorem Chip.writeRecord_tick (c : Chip) (q : Nat) (r : Record) : (c.writeRecord q r).tick = c.tick := by
  obtain ⟨_, _, _, ⟨_, _, _, _, _, _, _, _, _, _, _, rfl⟩, h⟩ := c.writeRecord_eq q r
  rw [h]
  rfl

/-! ## Acceptance (R478 to R482, R605) -/

/-- The part once a job of the queue has its ledger entry and the counters have gone on, its acceptance record still to be written. -/
def Chip.entered (c : Chip) (q d : Nat) : Chip :=
  { c with
    jobs := c.jobs.put (firstGap 0 c.jobs) (c.newJob q d),
    sessions := c.sessions.put (djSession d) { c.session (djSession d) with jobCtr := (c.session (djSession d)).jobCtr + 1 },
    queues := c.queues.put q { c.queue q with nextSeq := seqAfter (c.queue q).nextSeq },
    tick := { c.tick with firstAccept := true },
    telem := { c.telem with accepted := modAt c.telem.accepted q (satAdd u64max · 1) } }

/-- Acceptance enters the job, writes its record and consumes the descriptor. -/
theorem Chip.accept_eq (c : Chip) (q d : Nat) : ∃ r, c.accept q d = ((c.entered q d).writeRecord q r).consume q := ⟨_, rfl⟩

theorem Chip.accept_jobs (c : Chip) (q d : Nat) : (c.accept q d).jobs = c.jobs.put (firstGap 0 c.jobs) (c.newJob q d) := by
  obtain ⟨r, h⟩ := c.accept_eq q d
  exact h ▸ (c.entered q d).writeRecord_jobs q r

theorem Chip.accept_sessions (c : Chip) (q d : Nat) : (c.accept q d).sessions =
    c.sessions.put (djSession d) { c.session (djSession d) with jobCtr := (c.session (djSession d)).jobCtr + 1 } := by
  obtain ⟨r, h⟩ := c.accept_eq q d
  exact h ▸ (c.entered q d).writeRecord_sessions q r

theorem Chip.accept_tick (c : Chip) (q d : Nat) : (c.accept q d).tick = { c.tick with firstAccept := true } := by
  obtain ⟨r, h⟩ := c.accept_eq q d
  exact h ▸ (c.entered q d).writeRecord_tick q r

theorem Chip.accept_queue (c : Chip) (q d : Nat) : (c.accept q d).queue q =
    { { c.queue q with nextSeq := seqAfter (c.queue q).nextSeq }.recorded with
      consumed := ((c.queue q).consumed + 1) % (c.queue q).ringEntries } := by
  obtain ⟨r, h⟩ := c.accept_eq q d
  have hentered : (c.entered q d).queue q = { c.queue q with nextSeq := seqAfter (c.queue q).nextSeq } :=
    (Tbl.get_put ..).trans (if_pos rfl)
  rw [h, Chip.consume, Chip.updQueue_eq, Chip.setQueue_queue, if_pos rfl, Chip.writeRecord_queue, hentered]
  rfl

/-- A descriptor that is no load and no unload is accepted, waits for its handle, or is refused. -/
theorem acceptJob_taken {c : Chip} {q : Nat} (htakes : c.takes q = true) (hload : djOp (c.nextDesc q) ≠ 1)
    (hunload : djOp (c.nextDesc q) ≠ 2) :
    acceptJob q c =
      if c.acceptStatus (c.nextDesc q) = stOK then c.accept q (c.nextDesc q)
      else if c.acceptStatus (c.nextDesc q) = stSettingUnknown ∧ c.loading (djSetting (c.nextDesc q)) = true then c
      else c.answer q 3 (c.acceptStatus (c.nextDesc q)) (c.nextDesc q) := by
  simp [acceptJob, htakes, hload, hunload]

/-- Settles O15: a descriptor at hand that passes makes the ledger entry and moves the counters; one that fails waits or has its refusal
record. -/
theorem jobsAreAcceptedOrRefused : Obligations.JobsAreAcceptedOrRefused := by
  unfold Obligations.JobsAreAcceptedOrRefused
  refine ⟨fun s q hq htakes hrun hok => ?accepted, fun s q hq htakes hload hunload hfails => ?refused⟩
  case accepted =>
    have hchip := (acceptJob_taken htakes (by simp [hrun]) (by simp [hrun])).trans (if_pos hok)
    have hqueue := s.chip.accept_queue q (s.chip.nextDesc q)
    refine ⟨_, s.chip.newJob q (s.chip.nextDesc q), exec_onChip rfl hq hchip,
      fun hrise => (find?_firstGap hrise fun e _ => Nat.zero_le e.1).2, ?entry, rfl, rfl, rfl, rfl, rfl, rfl, ?session,
      congrArg QueueSt.nextSeq hqueue, congrArg QueueSt.consumed hqueue, congrArg QueueSt.jHeld hqueue,
      congrArg TickSt.firstAccept (s.chip.accept_tick q _)⟩
    case entry => simp [inState, Chip.accept_jobs, Tbl.find?_put]
    case session => simp [inState, Chip.session, Chip.newJob, Chip.accept_sessions, Tbl.get_put]
  case refused => exact exec_onChip rfl hq ((acceptJob_taken htakes hload hunload).trans (if_neg hfails))

/-! ## Completion (R470, R484 to R486, R491, R541, R609) -/

/-- The flag of a missed bound is bit 3 of a record's flags (Table 14.8). -/
theorem testBit_missedFlag (missed : Bool) (i : Nat) :
    (if missed then flBoundMissed else 0).testBit i = (missed && decide (3 = i)) := by
  have hflag : flBoundMissed = 2 ^ 3 := rfl
  cases missed
  · simp
  · rw [hflag, if_pos rfl, Nat.testBit_two_pow, Bool.true_and]

theorem completionRecordsHold : CompletionRecordsHold := by
  refine fun x st now => ⟨rfl, rfl, rfl, rfl, rfl, ?missed, fun i hi => ?others⟩
  case missed => rw [completionRec, Nat.testBit_or, testBit_missedFlag, decide_eq_true rfl, Bool.and_true]
  case others =>
    rw [completionRec, Nat.testBit_or, testBit_missedFlag, decide_eq_false (Ne.symm hi), Bool.and_false, Bool.or_false]

theorem jobsComplete : JobsComplete := by
  intro s j x hjob hledger hrecords hbarrier hhead horder hflush
  refine ⟨_, _, _, _, _, exec_onChip rfl rfl ?_, rfl, rfl, rfl, rfl, rfl⟩
  have hturn : ((s.chip.queue x.queue).inOrder = 1 && s.chip.earlierOpen x) = false := by simpa using horder
  simp only [jobComplete, hjob]
  exact if_pos (by simp only [hledger, hrecords, hbarrier, hhead, List.all_eq_true.2 hflush, hturn, decide_true, Bool.not_false,
    Bool.and_self])

/-- Settles O18: a job at its end whose record can be written completes step by step, and its record has the fields of R486. -/
theorem jobsCompleteWithTheirRecords : Obligations.JobsCompleteWithTheirRecords := by
  unfold Obligations.JobsCompleteWithTheirRecords
  exact ⟨jobsComplete, completionRecordsHold⟩

/-! ## The commit of a generation (R491, R573) -/

/-- The oldest open generation of a bound job commits. -/
theorem checkpointCommit_due {c : Chip} {j : Nat} {x : Job} {k : Ckpt} {later : List Ckpt} (hjob : c.job? j = some x)
    (hopen : x.openGens = k :: later) (hphase : x.phase = .bound) (hpassed : c.allPassed x = true) (hready : c.ckptReady x = true)
    (hrings : ∀ r ∈ c.jobRings x, k.step - 1 ≤ (c.ringRun r).all) {y : Job} (hy : y = withGen x (sealed k) later) {d : Chip}
    (hd : d = (c.setJob j y).storeCkpt y (sealed k)) :
    checkpointCommit j c = ((d.jobRings y).foldl (fun c r => c.ringCommit r y.session k.step) d).atStepEnd j y := by
  have hall : (c.jobRings x).all (fun r => k.step - 1 ≤ (c.ringRun r).all) = true := by simpa using hrings
  subst hy hd
  simp only [checkpointCommit, hjob, hopen]
  exact if_pos (by simp only [hphase, hpassed, hready, hall, decide_true, Bool.and_self])

/-- Settles O20: once all have passed the step and every ring has sent ALL for the one before, nothing is left that holds the oldest
generation. -/
theorem checkpointsCommit : Obligations.CheckpointsCommit := by
  unfold Obligations.CheckpointsCommit
  intro s j x y k later hjob hopen hphase hpassed hready hrings hy
  exact ⟨_, _, exec_onChip rfl rfl (checkpointCommit_due hjob hopen hphase hpassed hready hrings hy rfl), rfl, rfl⟩

end Sys2Proof.Machine
end

section
/-!
The one-time programmable bits (R585, R588, R591, R595): a command that does not burn them keeps them, and one that does moves every
fuse only up and inside its field. Both are relations that every change of the chip keeps, so a step keeps them.
-/
namespace Sys2Proof.Machine
open Sys2Proof Sys2Proof.Claims

/-! ## Two relations on the fuses -/

/-- The burned bits are the same, and no version or revocation has come to wait. -/
structure FusesKept (s t : State) : Prop where
  otp : t.otp = s.otp
  svn : t.sec.imageSvn ≤ s.sec.imageSvn
  revoke : t.sec.revokeMask ≤ s.sec.revokeMask

/-- Every fuse that is burned in `o` is burned in `n`. -/
structure Otp.Below (o n : Otp) : Prop where
  svn : o.svn ≤ n.svn
  lcCount : o.lcCount ≤ n.lcCount
  tamperCount : o.tamperCount ≤ n.tamperCount
  blocks : o.blocks ≤ n.blocks
  revoked : ∀ i, o.revoked.testBit i = true → n.revoked.testBit i = true
  udsPresent : o.udsPresent = true → n.udsPresent = true
  udsLocked : o.udsLocked = true → n.udsLocked = true

theorem Otp.Below.refl (o : Otp) : o.Below o := ⟨le_rfl, le_rfl, le_rfl, le_rfl, fun _ => id, id, id⟩

theorem Otp.Below.trans {o n m : Otp} (h1 : o.Below n) (h2 : n.Below m) : o.Below m where
  svn := h1.svn.trans h2.svn
  lcCount := h1.lcCount.trans h2.lcCount
  tamperCount := h1.tamperCount.trans h2.tamperCount
  blocks := h1.blocks.trans h2.blocks
  revoked i := h2.revoked i ∘ h1.revoked i
  udsPresent := h2.udsPresent ∘ h1.udsPresent
  udsLocked := h2.udsLocked ∘ h1.udsLocked

/-- From sound fuses, every fuse has moved up at most, and all are sound again. -/
def FusesRise (s t : State) : Prop := s.fusesSound = true → t.fusesSound = true ∧ s.otp.Below t.otp

theorem Otp.legal_iff (o : Otp) :
    o.legal = true ↔ o.svn ≤ 128 ∧ o.revoked < 16 ∧ o.lcCount ≤ 4 ∧ o.tamperCount ≤ 32 ∧ o.blocks ≤ 8192 := by
  simp [Otp.legal, and_assoc]

theorem State.fusesSound_iff (s : State) :
    s.fusesSound = true ↔ s.otp.legal = true ∧ s.sec.imageSvn ≤ 128 ∧ s.sec.revokeMask < 16 := by
  simp [State.fusesSound, and_assoc]

theorem FusesKept.rise {s t : State} (h : FusesKept s t) : FusesRise s t := by
  intro hs
  obtain ⟨hotp, hsvn, hrev⟩ := s.fusesSound_iff.1 hs
  rw [State.fusesSound_iff, h.otp]
  exact ⟨⟨hotp, h.svn.trans hsvn, h.revoke.trans_lt hrev⟩, .refl _⟩

theorem keeps_fusesKept : Keeps FusesKept where
  refl _ := ⟨rfl, le_rfl, le_rfl⟩
  trans _ _ _ h1 h2 := ⟨h2.otp.trans h1.otp, h2.svn.trans h1.svn, h2.revoke.trans h1.revoke⟩
  chip _ _ := ⟨rfl, le_rfl, le_rfl⟩

theorem keeps_fusesRise : Keeps FusesRise where
  refl s := (keeps_fusesKept.refl s).rise
  trans _ _ _ h1 h2 hs := by
    obtain ⟨hb, h1⟩ := h1 hs
    obtain ⟨hc, h2⟩ := h2 hb
    exact ⟨hc, h1.trans h2⟩
  chip s c := (keeps_fusesKept.chip s c).rise

theorem FusesKept.trans {s t u : State} (h1 : FusesKept s t) (h2 : FusesKept t u) : FusesKept s u :=
  keeps_fusesKept.trans s t u h1 h2

theorem FusesRise.trans {s t u : State} (h1 : FusesRise s t) (h2 : FusesRise t u) : FusesRise s u :=
  keeps_fusesRise.trans s t u h1 h2

theorem fusesKept_onChip (s : State) (f : Chip → Chip) : FusesKept s (s.onChip f) := keeps_fusesKept.chip s _

/-- The security registers may change beside what waits to be burned. -/
theorem fusesKept_sec (s : State) (x : SecSt) (hsvn : x.imageSvn = s.sec.imageSvn) (hrev : x.revokeMask = s.sec.revokeMask) :
    FusesKept s { s with sec := x } := ⟨rfl, hsvn.le, hrev.le⟩

theorem fusesKept_onSec (s : State) (f : SecSt → SecSt) (hsvn : (f s.sec).imageSvn = s.sec.imageSvn)
    (hrev : (f s.sec).revokeMask = s.sec.revokeMask) : FusesKept s (s.onSec f) := fusesKept_sec s _ hsvn hrev

/-- Burned bits that are the old ones but for higher ones, with nothing new that waits. -/
theorem fusesRise_otp (s : State) (o : Otp) (hlegal : s.otp.legal = true → o.legal = true)
    (hbelow : s.otp.legal = true → s.otp.Below o) : FusesRise s { s with otp := o } := by
  intro hs
  obtain ⟨hotp, hwait⟩ := s.fusesSound_iff.1 hs
  exact ⟨(State.fusesSound_iff _).2 ⟨hlegal hotp, hwait⟩, hbelow hotp⟩

/-! ## Commands that burn nothing -/

/-- Commands whose meaning reaches beyond the chip: resets, the boot, Bezel, and the messages of the management paths. -/
def beyondChip : Instr → Bool
  | .warmReset | .coldReset | .powerDown | .pkgResetDeassert _ | .warmResetRequest _ | .paveReady | .aliasTreeGenerate | .tamper _
  | .spdmRequest _ _ | .spdmVendorRequest _ _ | .dictRead _ | .dictDescribe _ | .dictNext _ | .dictWrite _ | .bootGo _
  | .bundleCommit _ | .lcRequest _ | .sessionRequest _ | .sessionAccept _ | .sessionClose _ | .tableCommit _ | .queueEnable _
  | .faultLogAck _ | .strandIdentityWrite _ | .telemetryIntervalWrite _ | .ringEntryWrite _ | .setEndpointId _ _
  | .getEndpointId _ | .getMctpVersionSupport _ _ | .getMessageTypeSupport _ | .getVendorDefinedMessageSupport _
  | .unsupportedControlCommand _ _ => true
  | _ => false

theorem exec_eq_onChip {i : Instr} (s : State) (h : beyondChip i = false) : ∃ f : Chip → Chip, exec i s = onChip i s f := by
  cases i
  case strandPortFault port lanes => exact ⟨fun c => c.portFault port lanes, rfl⟩
  all_goals first
    | exact ⟨_, rfl⟩
    | exact Bool.noConfusion h

theorem putSessionAccept_fusesKept (r : MgmtReq) (e : Entry) (i : Nat) (s : State) : FusesKept s (putSessionAccept r e i s).2 :=
  keeps_fusesKept.chip s _

theorem putSessionClose_fusesKept (r : MgmtReq) (e : Entry) (i : Nat) (s : State) : FusesKept s (putSessionClose r e i s).2 :=
  keeps_fusesKept.chip s _

theorem putTableCommit_fusesKept (r : MgmtReq) (e : Entry) (i : Nat) (s : State) : FusesKept s (putTableCommit r e i s).2 := by
  unfold putTableCommit
  dsimp only
  split
  · exact keeps_fusesKept.refl s
  · split
    · exact keeps_fusesKept.refl s
    · exact keeps_fusesKept.chip s _

theorem putQueueEnable_fusesKept (r : MgmtReq) (e : Entry) (i : Nat) (s : State) : FusesKept s (putQueueEnable r e i s).2 := by
  unfold putQueueEnable
  dsimp only
  split
  · split
    · exact keeps_fusesKept.refl s
    · split
      · exact keeps_fusesKept.refl s
      · exact keeps_fusesKept.chip s _
  · split
    · exact keeps_fusesKept.refl s
    · exact keeps_fusesKept.chip s _

theorem putFaultLogAck_fusesKept (r : MgmtReq) (e : Entry) (i : Nat) (s : State) : FusesKept s (putFaultLogAck r e i s).2 := by
  unfold putFaultLogAck
  dsimp only
  split
  · exact keeps_fusesKept.refl s
  · exact keeps_fusesKept.chip s _

theorem putStrandIdentity_fusesKept (r : MgmtReq) (e : Entry) (i : Nat) (s : State) : FusesKept s (putStrandIdentity r e i s).2 := by
  unfold putStrandIdentity
  dsimp only
  split
  · exact keeps_fusesKept.refl s
  · exact keeps_fusesKept.chip s _

theorem putRingEntry_fusesKept (r : MgmtReq) (e : Entry) (i : Nat) (s : State) : FusesKept s (putRingEntry r e i s).2 := by
  unfold putRingEntry
  dsimp only
  split
  · exact keeps_fusesKept.refl s
  · split
    · exact keeps_fusesKept.refl s
    · exact keeps_fusesKept.chip s _

theorem spdmVendorRequest_fusesKept (path registry : Nat) (s : State) : FusesKept s (spdmVendorRequest path registry s) := by
  unfold spdmVendorRequest
  split
  · split
    · exact turnAway_keeps keeps_fusesKept s path
    · exact keeps_fusesKept.refl s
  · split
    · exact keeps_fusesKept.chip s _
    · exact keeps_fusesKept.chip s _

theorem warmResetRequest_fusesKept (src : WarmResetSource) (s : State) : FusesKept s (warmResetRequest src s) := by
  cases src with
  | bar head width v => exact keeps_fusesKept.chip s _
  | dict r => exact writeEntry_keeps keeps_fusesKept r putWarmReset (fun _ _ s => keeps_fusesKept.chip s _) s

/-- A warm reset loads the image's digests again, but neither its version nor its revocations (R587). -/
theorem State.warmLoad_fusesKept (s : State) : FusesKept s s.warmLoad := by
  unfold State.warmLoad
  extract_lets img st st' t u
  have ht : FusesKept s t := fusesKept_onSec s _ rfl rfl
  have hu : FusesKept t u := fusesKept_onSec t _ rfl rfl
  split
  · exact ht
  · exact ht.trans (hu.trans (fusesKept_onChip u _))

theorem warmReset_fusesKept (s : State) : FusesKept s (warmReset s) := by
  unfold warmReset
  split
  · exact (fusesKept_onChip s _).trans (State.warmLoad_fusesKept _)
  · exact keeps_fusesKept.refl s

theorem pkgResetDeassert_fusesKept (straps : Straps) (s : State) : FusesKept s (pkgResetDeassert straps s) := by
  unfold pkgResetDeassert
  split
  · exact keeps_fusesKept.refl s
  · rw [State.freeBytes_eq]
    exact (fusesKept_onChip s _).trans ((fusesKept_onSec _ _ rfl rfl).trans (fusesKept_onChip _ _))

/-- With the rails gone nothing waits to be burned. -/
theorem powerDown_fusesKept (s : State) : FusesKept s (powerDown s) := ⟨rfl, Nat.zero_le _, Nat.zero_le _⟩

theorem setEndpointId_fusesKept (path eid : Nat) (s : State) : FusesKept s (setEndpointId path eid s) := by
  refine control_keeps keeps_fusesKept path 0x01 _ _ (fun s => ?_) s
  split
  · exact keeps_fusesKept.chip s _
  · exact keeps_fusesKept.refl s

/-- A command of the opcode table that is none of those of Bezel, the boot and the life cycle keeps every fuse. -/
theorem exec_fusesKept {i : Instr} {s t : State} (hburns : burns i = false) (h : exec i s = .next t) : FusesKept s t := by
  have written {i : Instr} {r : MgmtReq} {put : Entry → Nat → State → Nat × State} (hput : ∀ e i s, FusesKept s (put e i s).2)
      (h : meaning i s (writeEntry r put) = .next t) : FusesKept s t :=
    (meaning_next h).2 ▸ writeEntry_keeps keeps_fusesKept r put hput s
  have plain {i : Instr} {f : State → State} (hf : FusesKept s (f s)) (h : meaning i s f = .next t) : FusesKept s t :=
    (meaning_next h).2 ▸ hf
  by_cases hchip : beyondChip i = false
  · obtain ⟨f, hf⟩ := exec_eq_onChip s hchip
    exact (onChip_next (hf ▸ h)).2 ▸ keeps_fusesKept.chip s _
  · cases i <;> try exact absurd rfl hchip
    case bootGo | paveReady | bundleCommit | aliasTreeGenerate | lcRequest | sessionRequest | spdmRequest | tamper | coldReset =>
      exact Bool.noConfusion hburns
    case warmReset => exact plain (i := .warmReset) (warmReset_fusesKept s) h
    case powerDown => exact plain (i := .powerDown) (powerDown_fusesKept s) h
    case pkgResetDeassert straps => exact plain (pkgResetDeassert_fusesKept straps s) h
    case warmResetRequest src => exact plain (warmResetRequest_fusesKept src s) h
    case spdmVendorRequest path registry => exact plain (spdmVendorRequest_fusesKept path registry s) h
    case dictRead r | dictDescribe r | dictNext r => exact plain (answerNow_keeps keeps_fusesKept r _ s) h
    case dictWrite r => exact written (putEntry_keeps keeps_fusesKept fusesKept_sec r) h
    case sessionAccept r => exact written (putSessionAccept_fusesKept r) h
    case sessionClose r => exact written (putSessionClose_fusesKept r) h
    case tableCommit r => exact written (putTableCommit_fusesKept r) h
    case queueEnable r => exact written (putQueueEnable_fusesKept r) h
    case faultLogAck r => exact written (putFaultLogAck_fusesKept r) h
    case strandIdentityWrite r => exact written (putStrandIdentity_fusesKept r) h
    case telemetryIntervalWrite r => exact written (fun _ _ s => keeps_fusesKept.chip s _) h
    case ringEntryWrite r => exact written (putRingEntry_fusesKept r) h
    case setEndpointId path eid => exact plain (setEndpointId_fusesKept path eid s) h
    case getEndpointId path | getMctpVersionSupport path msgType | getMessageTypeSupport path
        | getVendorDefinedMessageSupport path | unsupportedControlCommand path code =>
      exact plain (control_keeps keeps_fusesKept path _ _ id keeps_fusesKept.refl s) h

/-- Settles O47: by the commands' families, each of which changes the chip, or security registers beside the fuses. -/
theorem onlyTheseCommandsBurnFuses : Obligations.OnlyTheseCommandsBurnFuses := by
  unfold Obligations.OnlyTheseCommandsBurnFuses
  exact fun s t c hburns h => (exec_fusesKept hburns h).otp

/-! ## Identity blocks (R595 to R598) -/

theorem Otp.Below.burnBlock {o : Otp} {n : Nat} (h : o.blocks ≤ n) : o.Below { o with blocks := n } :=
  ⟨le_rfl, le_rfl, le_rfl, h, fun _ => id, id, id⟩

/-- One more block is burned while one of the 8,192 is left. -/
theorem State.claimBlock_rise (s : State) : FusesRise s s.claimBlock := by
  by_cases hleft : s.otp.blocks < 8192
  · rw [State.claimBlock_of_left hleft]
    refine (fusesRise_otp s { s.otp with blocks := s.otp.blocks + 1 } (fun h => ?_) fun _ => .burnBlock (Nat.le_succ _)).trans
      (fusesKept_sec _ _ rfl rfl).rise
    obtain ⟨hsvn, hrev, hlc, htamper, -⟩ := s.otp.legal_iff.1 h
    exact (Otp.legal_iff _).2 ⟨hsvn, hrev, hlc, htamper, hleft⟩
  · rw [State.claimBlock, if_pos (Nat.not_lt.1 hleft)]
    exact (fusesKept_onSec s _ rfl rfl).rise

theorem State.useIndex_rise (s : State) : FusesRise s s.useIndex := by
  unfold State.useIndex
  split
  · exact (fusesKept_onSec s _ rfl rfl).rise
  · split
    · exact (fusesKept_onSec s _ rfl rfl).rise
    · exact s.claimBlock_rise

theorem State.makeOffer_rise (s : State) : FusesRise s s.makeOffer := by
  obtain ⟨_, _, hoffer⟩ := s.makeOffer_eq
  rw [hoffer]
  exact (fusesKept_onChip s _).rise.trans ((State.useIndex_rise _).trans (fusesKept_onChip _ _).rise)

theorem State.offer_rise (s : State) : FusesRise s s.offer := by
  unfold State.offer
  split
  · exact (fusesKept_onChip s _).rise
  · split
    · exact s.makeOffer_rise
    · exact (fusesKept_onSec s _ rfl rfl).rise

theorem State.spdmSign_rise (s : State) (path code : Nat) (body : List Byte) : FusesRise s (s.spdmSign path code body) := by
  simp only [State.spdmSign, State.freeBytes_eq, State.aliasSign]
  exact (fusesKept_onChip s _).rise.trans ((State.useIndex_rise _).trans (fusesKept_onChip _ _).rise)

theorem State.spdmPlain_kept (s : State) (path : Nat) (r : SpdmRequest) : FusesKept s (s.spdmPlain path r) := by
  cases r <;> exact keeps_fusesKept.chip s _

theorem State.spdmServe_rise (s : State) (path : Nat) (r : SpdmRequest) : FusesRise s (s.spdmServe path r) := by
  unfold State.spdmServe
  split
  · exact (fusesKept_onChip s _).rise
  · split
    · exact (s.spdmPlain_kept path r).rise
    · split
      · exact s.spdmSign_rise path _ _
      · split
        · exact (fusesKept_onChip s _).rise
        · exact (fusesKept_onSec s _ rfl rfl).rise

theorem spdmRequest_rise (path : Nat) (r : SpdmRequest) (s : State) : FusesRise s (spdmRequest path r s) := by
  unfold spdmRequest
  split
  · exact s.spdmServe_rise path r
  · split
    · exact turnAway_keeps keeps_fusesRise s path
    · exact keeps_fusesRise.refl s

theorem State.serveWaiting_rise (s : State) : FusesRise s s.serveWaiting := by
  refine (fusesKept_onSec s _ rfl rfl).rise.trans
    (foldl_keeps FusesRise keeps_fusesRise.refl keeps_fusesRise.trans _ (fun s w => ?_) _ _)
  cases w with
  | offer => exact s.offer_rise
  | spdm path r => exact s.spdmServe_rise path r

theorem aliasTreeGenerate_rise (s : State) : FusesRise s (aliasTreeGenerate s) := by
  unfold aliasTreeGenerate
  dsimp only
  split
  · exact (fusesKept_onSec s _ rfl rfl).rise.trans (State.serveWaiting_rise _)
  · exact keeps_fusesRise.refl s

theorem putBundleCommit_rise (r : MgmtReq) (e : Entry) (i : Nat) (s : State) : FusesRise s (putBundleCommit r e i s).2 := by
  unfold putBundleCommit State.commitBundle
  split
  · exact keeps_fusesRise.refl s
  · split
    · dsimp only
      split
      · exact (fusesKept_onSec s _ rfl rfl).rise.trans (State.serveWaiting_rise _)
      · exact keeps_fusesRise.refl s
    · exact keeps_fusesRise.refl s

theorem putSessionRequest_rise (r : MgmtReq) (e : Entry) (i : Nat) (s : State) : FusesRise s (putSessionRequest r e i s).2 := by
  unfold putSessionRequest State.requestSession
  split
  · exact (fusesKept_onChip s _).rise
  · exact (fusesKept_onChip s _).rise.trans (State.offer_rise _)

/-! ## The boot (R584, R585) -/

theorem fld_lt (w hi lo : Nat) : fld w hi lo < 2 ^ (hi + 1 - lo) := Nat.mod_lt _ (Nat.two_pow_pos _)

theorem imSvn_le_of_imageForm {img : List Byte} {len : Nat} (h : imageForm img len = true) : imSvn (imageHeader img) ≤ 128 := by
  by_contra hsvn
  rw [imageForm] at h
  simp only [decide_eq_false hsvn, Bool.and_false, Bool.false_and, Bool.false_eq_true] at h

/-- An image that passes names a version that the fuses can hold. -/
theorem State.imSvn_le_of_passed {s : State} {img : List Byte} (h : s.imageStatus img = stOK) : imSvn (imageHeader img) ≤ 128 := by
  by_cases hform : imageForm img s.sec.imageLen = true
  · exact imSvn_le_of_imageForm hform
  · rw [State.imageStatus, if_pos (by simpa using hform)] at h
    exact absurd h (by decide)

theorem State.takeImage_rise {s : State} {img : List Byte} (h : imSvn (imageHeader img) ≤ 128) : FusesRise s (s.takeImage img) := by
  intro hs
  obtain ⟨hotp, -, -⟩ := s.fusesSound_iff.1 hs
  exact ⟨(State.fusesSound_iff _).2 ⟨hotp, h, fld_lt _ 951 948⟩, .refl _⟩

theorem State.bootCheck_rise (s : State) : FusesRise s s.bootCheck := by
  unfold State.bootCheck
  split
  · exact keeps_fusesRise.refl s
  · extract_lets st t t1 t2 t3
    have ht : FusesRise s t := (fusesKept_onSec s _ rfl rfl).rise
    split
    · exact ht
    · next hpassed =>
      have hsvn : imSvn (imageHeader s.image) ≤ 128 := State.imSvn_le_of_passed (by simpa using hpassed)
      have ht1 : FusesRise t t1 := State.takeImage_rise hsvn
      have ht2 : FusesRise t1 t2 := (fusesKept_onSec t1 _ rfl rfl).rise
      have ht3 : FusesRise t2 t3 := by
        simp only [t3]
        split
        · exact t2.claimBlock_rise
        · exact keeps_fusesRise.refl t2
      exact ht.trans (ht1.trans (ht2.trans (ht3.trans (fusesKept_onChip t3 _).rise)))

theorem putBootGo_rise (r : MgmtReq) (e : Entry) (i : Nat) (s : State) : FusesRise s (putBootGo r e i s).2 := by
  unfold putBootGo
  split
  · exact keeps_fusesRise.refl s
  · split
    · exact s.bootCheck_rise
    · exact keeps_fusesRise.refl s

/-- The waiting version and revocations, each in its field, are burned beside those there. -/
theorem State.commitSvn_rise (s : State) : FusesRise s s.commitSvn := by
  unfold State.commitSvn
  split
  · exact keeps_fusesRise.refl s
  · extract_lets o o' own mask
    intro hs
    obtain ⟨hotp, hsvn, hrev⟩ := s.fusesSound_iff.1 hs
    obtain ⟨hsvn0, hrev0, hlc, htamper, hblocks⟩ := s.otp.legal_iff.1 hotp
    have ho' : o' = { o with svn := o'.svn } ∧ o.svn ≤ o'.svn ∧ o'.svn ≤ 128 := by
      simp only [o']
      split
      · exact ⟨rfl, le_max_left _ _, max_le hsvn0 hsvn⟩
      · exact ⟨rfl, le_rfl, hsvn0⟩
    obtain ⟨heq, hup, hlegal⟩ := ho'
    have hmask : mask < 2 ^ 4 := (Nat.sub_le _ _).trans_lt hrev
    rw [heq]
    have hlegal' : ({ o with svn := o'.svn, revoked := o.revoked ||| mask } : Otp).legal = true :=
      (Otp.legal_iff _).2 ⟨hlegal, Nat.or_lt_two_pow hrev0 hmask, hlc, htamper, hblocks⟩
    refine ⟨(State.fusesSound_iff _).2 ⟨hlegal', hsvn, hrev⟩, ⟨hup, le_rfl, le_rfl, le_rfl, fun i hi => ?_, id, id⟩⟩
    rw [Nat.testBit_or, Bool.or_eq_true]
    exact .inl hi

theorem paveReady_rise (s : State) : FusesRise s (paveReady s) := by
  unfold paveReady
  split
  · exact (fusesKept_onChip s _).rise.trans (State.commitSvn_rise _)
  · exact keeps_fusesRise.refl s

/-! ## The life cycle and tampers (R588, R591, R670) -/

/-- A transition to a later state of the life cycle burns what Table 17.5 says, and unburns nothing. -/
theorem Otp.transition_legal {o : Otp} {target : Nat} (h : o.legal = true) (hle : target ≤ 4) (seed : List Byte) :
    (o.transition target seed).legal = true := by
  obtain ⟨hsvn, hrev, -, htamper, hblocks⟩ := o.legal_iff.1 h
  unfold Otp.transition
  split
  · exact (Otp.legal_iff _).2 ⟨hsvn, hrev, hle, htamper, hblocks⟩
  · exact (Otp.legal_iff _).2 ⟨hsvn, hrev, hle, htamper, hblocks⟩
  · exact (Otp.legal_iff _).2 ⟨hsvn, hrev, hle, htamper, le_rfl⟩
  · exact (Otp.legal_iff _).2 ⟨hsvn, hrev, hle, htamper, hblocks⟩

theorem Otp.transition_above {o : Otp} {target : Nat} (h : o.legal = true) (hlater : o.lcCount < target) (seed : List Byte) :
    o.Below (o.transition target seed) := by
  obtain ⟨-, -, -, -, hblocks⟩ := o.legal_iff.1 h
  unfold Otp.transition
  split
  · exact ⟨le_rfl, hlater.le, le_rfl, le_rfl, fun _ => id, fun _ => rfl, id⟩
  · exact ⟨le_rfl, hlater.le, le_rfl, le_rfl, fun _ => id, id, fun _ => rfl⟩
  · exact ⟨le_rfl, hlater.le, le_rfl, hblocks, fun _ => id, id, fun _ => rfl⟩
  · exact ⟨le_rfl, hlater.le, le_rfl, le_rfl, fun _ => id, id, id⟩

theorem State.exportIdentity_kept (s : State) : FusesKept s s.exportIdentity := by
  unfold State.exportIdentity
  split
  · exact fusesKept_onChip s _
  · exact keeps_fusesKept.refl s

theorem State.wipeStore_kept (s : State) : FusesKept s s.wipeStore := ⟨rfl, le_rfl, le_rfl⟩

theorem State.moved_rise {s : State} {target : Nat} (hlater : s.otp.lcCount < target) (hle : target ≤ 4) (seed : List Byte) :
    FusesRise s (s.moved target seed) := by
  unfold State.moved
  extract_lets s1 s2
  have h1 : FusesRise s s1 := fusesRise_otp s _ (fun h => Otp.transition_legal h hle seed) fun h => Otp.transition_above h hlater seed
  have h2 : FusesRise s1 s2 := by
    simp only [s2]
    split
    · exact s1.exportIdentity_kept.rise
    · exact keeps_fusesRise.refl s1
  split
  · exact h1.trans (h2.trans s2.wipeStore_kept.rise)
  · exact h1.trans h2

theorem State.renonced_kept (s : State) : FusesKept s s.renonced := (fusesKept_onChip s _).trans (fusesKept_onSec _ _ rfl rfl)

/-- A request that is refused changes the nonce alone; one that is committed makes a transition to a later state (R588, R589). -/
theorem State.changeLifeCycle_rise (s : State) {target : Nat} (hle : target ≤ 4) : FusesRise s (s.changeLifeCycle target).2 := by
  by_cases hok : (s.transitionRight target && s.chip.sessions.all (fun x => x.2.st = .free) && !s.chip.jobsOpen) = true
  · simp only [Bool.and_eq_true, List.all_eq_true, decide_eq_true_eq, Bool.not_eq_true'] at hok
    obtain ⟨⟨hright, hfree⟩, hjobs⟩ := hok
    obtain ⟨k, seed, hcommit⟩ := State.changeLifeCycle_committed hright hfree hjobs
    have hlater : s.otp.lcCount < target := by
      rw [State.transitionRight, Bool.and_eq_true] at hright
      exact of_decide_eq_true hright.1
    rw [hcommit]
    exact s.renonced_kept.rise.trans ((fusesKept_onChip _ _).rise.trans
      ((State.moved_rise (s := s.renonced.onChip _) hlater hle seed).trans (fusesKept_onChip _ _).rise))
  · rw [State.changeLifeCycle, Bool.eq_false_iff.2 hok]
    exact s.renonced_kept.rise

/-- The request's number is checked against its entry's range before the write is handled (R589, R618). -/
theorem putLcRequest_rise {r : MgmtReq} (hle : reqNum r ≤ 4) (e : Entry) (i : Nat) (s : State) :
    FusesRise s (putLcRequest r e i s).2 := s.changeLifeCycle_rise hle

/-- A value that the checks pass lies in its entry's range (Table 18.4). -/
theorem State.rangeOk_of_precheck {s : State} {r : MgmtReq} {e : Entry} (hop : r.op = 1) (hentry : findEntry r.index r.sub = some e)
    (htyp : e.typ ≠ tyOctets) (h : s.precheck r = 0) : rangeOk e (reqNum r) = true := by
  by_contra hrange
  have hwrong : (!(decide (e.typ = tyOctets) || rangeOk e (reqNum r))) = true := by
    rw [decide_eq_false htyp, Bool.eq_false_iff.2 hrange]; rfl
  cases hhead : headerOk r <;>
    simp only [State.precheck, hhead, hentry, hop, hwrong, OfNat.one_ne_ofNat, one_ne_zero, if_false, if_true] at h
  · exact absurd h (by decide)
  · split_ifs at h <;> exact absurd h (by decide)

theorem rangeOk_lifeCycle {e : Entry} (h : e.key = 0x800302) (v : Nat) : rangeOk e v = (decide (1 ≤ v) && decide (v ≤ 4)) := by
  simp only [rangeOk, h]

theorem State.lifeCycle_of_precheck {s : State} {r : MgmtReq} {e : Entry} (hown : r.writes 0x8003 2 = true)
    (hentry : findEntry r.index r.sub = some e) (h : s.precheck r = 0) : reqNum r ≤ 4 := by
  obtain ⟨hop, hindex, hsub⟩ := writes_iff.1 hown
  have htyp : e.typ ≠ tyOctets := by
    rw [hindex, hsub, show findEntry 0x8003 2 = some (trigE 0x8003 2 tyU8 1) from by decide] at hentry
    exact Option.some.inj hentry ▸ by decide
  have hrange := State.rangeOk_of_precheck hop hentry htyp h
  rw [rangeOk_lifeCycle (key_of_writes hown hentry), Bool.and_eq_true] at hrange
  exact of_decide_eq_true hrange.2

/-- A written entry keeps a relation that its values keep once the checks have passed. -/
theorem writeEntry_keeps_passed {R : State → State → Prop} (k : Keeps R) {r : MgmtReq}
    {put : Entry → Nat → State → Nat × State} {s : State}
    (hput : ∀ e, findEntry r.index r.sub = some e → s.precheck r = 0 → ∀ i t, R t (put e i t).2) : R s (writeEntry r put s) := by
  unfold writeEntry
  split
  · exact turnAway_keeps k s _
  · split
    · exact k.chip s _
    · split
      · next hcheck hentry =>
        split
        · exact handleWrite_keeps k s r _ _ (hput _ hentry hcheck)
        · exact k.chip s _
      · exact k.chip s _

theorem lcRequest_rise {r : MgmtReq} (hown : r.writes 0x8003 2 = true) (s : State) : FusesRise s (writeEntry r (putLcRequest r) s) :=
  writeEntry_keeps_passed keeps_fusesRise fun e hentry hcheck i t =>
    putLcRequest_rise (State.lifeCycle_of_precheck hown hentry hcheck) e i t

/-- A counted tamper burns one bit more, up to 32. -/
theorem Otp.Below.burnTampers {o : Otp} {n : Nat} (h : o.tamperCount ≤ n) : o.Below { o with tamperCount := n } :=
  ⟨le_rfl, le_rfl, h, le_rfl, fun _ => id, id, id⟩

theorem fusesRise_tampers (s : State) (n : Nat) :
    FusesRise s { s with otp := { s.otp with tamperCount := min 32 (s.otp.tamperCount + n) } } := by
  refine fusesRise_otp s _ (fun h => ?_) fun h => ?_
  all_goals obtain ⟨hsvn, hrev, hlc, htamper, hblocks⟩ := s.otp.legal_iff.1 h
  · exact (Otp.legal_iff _).2 ⟨hsvn, hrev, hlc, min_le_left _ _, hblocks⟩
  · exact .burnTampers (le_min htamper (Nat.le_add_right _ _))

theorem tamper_rise (sensors : Nat) (s : State) : FusesRise s (tamper sensors s) := by
  unfold tamper
  split
  · exact keeps_fusesRise.refl s
  · split
    · exact keeps_fusesRise.refl s
    · extract_lets t u
      have hu : FusesRise s u := ((fusesKept_onSec s _ rfl rfl).trans (fusesKept_onChip t _)).rise
      split
      · exact hu.trans (fusesRise_tampers u 1)
      · exact hu

theorem coldReset_rise (s : State) : FusesRise s (coldReset s) := by
  unfold coldReset
  split
  · exact keeps_fusesRise.refl s
  · have hsec : FusesKept s { s with chip := (s.chip.cold .inReset).seeLife s.otp, sec := SecSt.fresh, inbox := [] } :=
      ⟨rfl, Nat.zero_le _, Nat.zero_le _⟩
    exact hsec.rise.trans (fusesRise_tampers _ _)

/-! ## Every command and every step (R585, R588, R591, R595, R670) -/

theorem exec_fusesRise {i : Instr} {s t : State} (h : exec i s = .next t) : FusesRise s t := by
  have written {i : Instr} {r : MgmtReq} {put : Entry → Nat → State → Nat × State} (hput : ∀ e i s, FusesRise s (put e i s).2)
      (h : meaning i s (writeEntry r put) = .next t) : FusesRise s t :=
    (meaning_next h).2 ▸ writeEntry_keeps keeps_fusesRise r put hput s
  have plain {i : Instr} {f : State → State} (hf : FusesRise s (f s)) (h : meaning i s f = .next t) : FusesRise s t :=
    (meaning_next h).2 ▸ hf
  by_cases hburns : burns i = false
  · exact (exec_fusesKept hburns h).rise
  · cases i <;> try exact absurd rfl hburns
    case bootGo r => exact written (putBootGo_rise r) h
    case bundleCommit r => exact written (putBundleCommit_rise r) h
    case sessionRequest r => exact written (putSessionRequest_rise r) h
    case lcRequest r =>
      obtain ⟨hwf, ht⟩ := meaning_next (f := writeEntry r (putLcRequest r)) h
      exact ht ▸ lcRequest_rise (Bool.and_eq_true_iff.1 hwf).2 s
    case paveReady => exact plain (i := .paveReady) (paveReady_rise s) h
    case aliasTreeGenerate => exact plain (i := .aliasTreeGenerate) (aliasTreeGenerate_rise s) h
    case spdmRequest path r => exact plain (spdmRequest_rise path r s) h
    case tamper sensors => exact plain (tamper_rise sensors s) h
    case coldReset => exact plain (i := .coldReset) (coldReset_rise s) h

theorem State.shadowCheck_kept (s : State) : FusesKept s s.shadowCheck := by
  unfold State.shadowCheck
  dsimp only
  split
  · exact keeps_fusesKept.chip s _
  · exact keeps_fusesKept.refl s

/-- An outcome that the sequencer has settled is that outcome with another chip. -/
theorem settled_next {o : Out} {t : State} (h : settled o = .next t) : ∃ u, o = .next u ∧ FusesKept u t := by
  unfold settled at h
  split at h
  · next u =>
    cases h
    exact ⟨u, rfl, u.shadowCheck_kept.trans (keeps_fusesKept.chip _ _)⟩
  · cases h
  · cases h

/-- What the sequencer takes out of its hold leaves the fuses. -/
theorem State.first_kept {s t : State} {n : Nat} {r : Ripe} (h : s.first = some (n, r, t)) : FusesKept s t := by
  have taken {α : Type} {o : Option α} {f : α → Nat × Ripe × State} (hf : ∀ a, FusesKept s (f a).2.2)
      (h : o.map f = some (n, r, t)) : FusesKept s t := by
    obtain ⟨a, -, ha⟩ := Option.map_eq_some_iff.1 h
    simpa only [ha] using hf a
  unfold State.first at h
  dsimp only at h
  split at h
  · split at h
    · exact taken (fun _ => keeps_fusesKept.chip s _) h
    · exact taken (fun _ => ⟨rfl, le_rfl, le_rfl⟩) h
  · exact taken (fun _ => keeps_fusesKept.chip s _) h
  · exact taken (fun _ => ⟨rfl, le_rfl, le_rfl⟩) h

theorem State.ripe_kept {s t : State} {r : Ripe} (h : s.ripe = some (r, t)) : FusesKept s t := by
  unfold State.ripe at h
  split at h
  · next n r u hu =>
    split at h
    · cases h
      exact (State.first_kept hu).trans (keeps_fusesKept.chip u _)
    · cases h
  · cases h

theorem step_fusesRise {s t : State} (h : step s = .next t) : FusesRise s t := by
  unfold step at h
  split at h
  · have hqueue (rest : List Instr) : FusesKept s { s with pending := rest } := ⟨rfl, le_rfl, le_rfl⟩
    exact (hqueue _).rise.trans (exec_fusesRise h)
  · split at h
    · next hripe =>
      obtain ⟨u, hexec, hsettled⟩ := settled_next h
      exact (State.ripe_kept hripe).rise.trans ((exec_fusesRise hexec).trans hsettled.rise)
    · next hripe =>
      obtain ⟨u, hhandled, hsettled⟩ := settled_next h
      cases hhandled
      exact (State.ripe_kept hripe).rise.trans ((keeps_fusesRise.chip _ _).trans hsettled.rise)
    · cases h
      exact keeps_fusesRise.chip s _

/-- Settles O44: the fuses of the reset state are those of the unit that the model names. -/
theorem resetFusesAreSound : Obligations.ResetFusesAreSound := by
  unfold Obligations.ResetFusesAreSound
  decide

/-- Settles O45: from sound fuses every step leaves sound fuses. -/
theorem fusesStaySound : Obligations.FusesStaySound := by
  unfold Obligations.FusesStaySound
  exact fun s t hs h => (step_fusesRise h hs).1

/-- Settles O46: from sound fuses every step leaves every burned fuse burned. -/
theorem fusesNeverFall : Obligations.FusesNeverFall := by
  unfold Obligations.FusesNeverFall
  intro s t hs h
  have habove := (step_fusesRise h hs).2
  exact ⟨habove.svn, habove.lcCount, habove.tamperCount, habove.blocks, habove.revoked, habove.udsPresent, habove.udsLocked⟩

end Sys2Proof.Machine
end

section
/-!
Collectives (R567, R570 to R572): with every rank's input there, a ready instruction of the class writes its output and completes.
-/
namespace Sys2Proof.Machine
open Sys2Proof Sys2Proof.Claims

@[simp] theorem Chip.updJob_rings (c : Chip) (j : Nat) (g : Job → Job) : (c.updJob j g).rings = c.rings := by
  unfold Chip.updJob
  split <;> rfl

theorem Chip.OnlyMemory.rings_eq {c d : Chip} (h : c.OnlyMemory d) : d.rings = c.rings := by
  obtain ⟨_, _, _, _, _, _, _, _, _, _, _, rfl⟩ := h
  rfl

/-- A write at an end leaves the ring table. -/
@[simp] theorem Chip.endWrite_rings (c : Chip) (x : Ctx) (e : DmaEnd) (off : Nat) (bs : List Byte) :
    (c.endWrite x e off bs).rings = c.rings := by
  unfold Chip.endWrite
  split
  · unfold Chip.tensorWrite Chip.updShare
    split
    · split
      · rfl
      · rw [Chip.updJob_rings, (Chip.allocWrite_only _ _ _ _ _).rings_eq]
    · rfl
  · rfl
  · rfl
  · rfl

/-- The output and the ring's count are beside the ring table. -/
theorem Chip.ring_afterCollective (c : Chip) (x : Ctx) (e : DmaEnd) (off : Nat) (bs : List Byte) (r : Nat) (f : RingRun → RingRun)
    (n : Nat) : ((c.endWrite x e off bs).updRingRun r f).ring n = c.ring n := by
  rw [Chip.ring, Chip.updRingRun, Chip.setRingRun_rings, Chip.endWrite_rings, Chip.ring]

theorem selects_collective_iff (op : Nat) (x : Ctx) : (iClass x.i = 2 && iOp x.i = op) = true ↔ byWord (lane op) x := by
  simp [byWord, lane]

/-- The own input is read here; what has come of any other rank is of the collective at hand (R572). -/
theorem inputsWhole_of_each {P rank k op n : Nat} {inputs : List RankInput} (hlength : inputs.length = P)
    (heach : ∀ r i, inputs[r]? = some i → r ≠ rank →
      i.index = k ∧ i.op = op ∧ i.count = n ∧ i.data.length = inputBytes op n) :
    inputsWhole P rank k op n inputs = true := by
  simp only [inputsWhole, hlength, decide_true, Bool.true_and, List.all_eq_true, Prod.forall, Bool.or_eq_true, decide_eq_true_eq]
  intro i r hmem
  by_cases hr : r = rank
  · exact .inl hr
  · obtain ⟨hindex, hop, hcount, hdata⟩ := heach r i (List.mem_zipIdx_iff_getElem?.1 hmem) hr
    refine .inr ?_
    simp only [RankInput.matches, hindex, hop, hcount, hdata, decide_true, Bool.and_self]

/-- What a collective sends, read on the chip to which its output has been written: a ring of one part has nowhere to send (R570). -/
theorem collectiveSent_of_ring {c d : Chip} {r : Nat} (h : d.ring r = c.ring r) (op n : Nat) (inputs : List (List Byte)) :
    collectiveSent d op n r inputs = if max 1 (c.ring r).size ≤ 1 then d
      else (Config.collectiveMessages op n (max 1 (c.ring r).size) (c.ring r).rank inputs).foldl (fun c m =>
        c.sendRing r clsCollective 0 headerNoObject (m.take 65536)) d := by
  by_cases hone : (c.ring r).size ≤ 1
  · rw [collectiveSent, h, if_pos hone, if_pos (max_le le_rfl hone)]
  · have hmax : max 1 (c.ring r).size = (c.ring r).size := max_eq_right (Nat.le_of_not_le hone)
    rw [collectiveSent, h, hmax, if_neg hone]

theorem collectiveCompletes {cmd : Nat → List RankInput → Instr} {op : Nat} (hwf : ∀ p inputs, (cmd p inputs).wf = isBead p)
    (hexec : ∀ p inputs s, exec (cmd p inputs) s = onChip (cmd p inputs) s (collective op p inputs)) :
    CollectiveCompletes cmd op := by
  intro inputs own bs all s p x hready hcond
  refine hready.completes (hexec p inputs s) (hwf p inputs) (selects_collective_iff op) ?_
  obtain ⟨husable, hlength, hinputs, hsrc, hown, rfl, rfl, hdst⟩ := hcond
  have hwhole := inputsWhole_of_each hlength hinputs
  rw [← inputBytes] at hsrc hown
  dsimp only
  rw [collectiveSent_of_ring (Chip.ring_afterCollective _ _ _ _ _ _ _ _)]
  simp only [husable, hwhole, hsrc, hown, hdst, Chip.ring_afterCollective, Bool.not_true, Bool.or_self, Bool.false_eq_true, if_false]

/-- Settles O8: the four codes are one meaning at four operations. -/
theorem collectivesComplete : Obligations.CollectivesComplete := by
  unfold Obligations.CollectivesComplete
  exact ⟨collectiveCompletes (fun _ _ => rfl) fun _ _ _ => rfl, collectiveCompletes (fun _ _ => rfl) fun _ _ _ => rfl,
    collectiveCompletes (fun _ _ => rfl) fun _ _ _ => rfl, collectiveCompletes (fun _ _ => rfl) fun _ _ _ => rfl⟩

end Sys2Proof.Machine
end

section
/-!
The parameter dictionary as its paths see it (R612 to R618, R620, R623, R624, R627, R634, R650): queries and control commands
answered from the state, writes handled once, counted and remembered, and what a queue's enable leaves.
-/
namespace Sys2Proof.Machine
open Sys2Proof Sys2Proof.Claims

/-! ## Queries and control commands (R582, R612 to R618, R623, R624) -/

theorem answerNow_taken {s : State} {r : MgmtReq} (h : s.takesRequest r = true) (f : State → MgmtReq → Response) :
    answerNow r f s = inState s (s.chip.send (.mgmt r.path r.tag ((f s r).bytes r s.finished))) := if_pos h

theorem State.nextResponse_served {s : State} {r : MgmtReq}
    (h : s.chip.romPhase = false ∨ r.index / 4096 = 1 ∨ r.index / 4096 = 8) :
    s.nextResponse r = Machine.nextResponse r := by
  refine if_neg ?_
  rcases h with h | h | h <;> simp [h]

theorem State.nextResponse_rom {s : State} {r : MgmtReq} (hrom : s.chip.romPhase = true) (h1 : r.index / 4096 ≠ 1)
    (h8 : r.index / 4096 ≠ 8) (hok : (Machine.nextResponse r).status ≠ stValueRange) :
    (s.nextResponse r).status = stTargetReset := by
  rw [State.nextResponse]
  simp [hrom, h1, h8, hok, Response.refuse]

theorem queriesAreAnswered : QueriesAreAnswered := by
  intro s r hwf htakes
  refine ⟨fun hop => ?read, fun hop => ?describe, fun hop => ?next, State.nextResponse_served, State.nextResponse_rom⟩
  case read =>
    exact (meaning_of_wf (i := .dictRead r) (by rw [Instr.wf, hwf, hop]; rfl)).trans (congrArg _ (answerNow_taken htakes _))
  case describe =>
    exact (meaning_of_wf (i := .dictDescribe r) (by rw [Instr.wf, hwf, hop]; rfl)).trans (congrArg _ (answerNow_taken htakes _))
  case next =>
    exact (meaning_of_wf (i := .dictNext r) (by rw [Instr.wf, hwf, hop]; rfl)).trans (congrArg _ (answerNow_taken htakes _))

theorem control_taken {s : State} {path : Nat} (h : s.takesControl path = true) (code : Nat) (answer : State → List Byte)
    (f : State → State) :
    Machine.control path code answer f s = inState (f s) ((f s).chip.send (.control path code (answer (f s)))) := if_pos h

/-- A path's registers read as they were last changed. -/
theorem Chip.path_updPath_same {c : Chip} {n : Nat} (hn : n < c.mgmt.paths.length) (g : PathSt → PathSt) :
    (c.updPath n g).path n = g (c.path n) := by
  simp [Chip.path, Chip.updPath, modAt, List.getD_eq_getElem?_getD, hn]

theorem controlCommandsAreAnswered : ControlCommandsAreAnswered := by
  refine ⟨fun s path eid hpath hne hlt htakes hlen => ?assign, fun s path hpath htakes => ⟨?eid, ?version, ?types, ?vendor⟩,
    fun s path code hpath hcode hother htakes => ?unsupported⟩
  case assign =>
    have hok : eidOk eid = true := by simp [eidOk, hne, Nat.ne_of_lt hlt]
    have hassigned : ((s.chip.updPath path fun x => { x with eid := eid }).path path).eid = eid := by
      rw [Chip.path_updPath_same hlen]
    refine ⟨_, (meaning_of_wf (i := .setEndpointId path eid) ?_).trans (congrArg _ (control_taken htakes 0x01 _ _)), ?_, ?_⟩
    · rw [Instr.wf, hpath, decide_eq_true (by omega : eid < 256)]; rfl
    · simp only [hok, if_true]
      exact hassigned
    · simp only [hok, if_true]
      show s.chip.sent ++ [Output.control path 0x01
        [0x00, 0, BitVec.ofNat 8 ((s.chip.updPath path fun x => { x with eid := eid }).path path).eid, 0]] = _
      rw [hassigned]
  case eid => exact (meaning_of_wf (i := .getEndpointId path) hpath).trans (congrArg _ (control_taken htakes 0x02 _ id))
  case version =>
    exact (meaning_of_wf (i := .getMctpVersionSupport path 0) (by rw [Instr.wf, hpath]; rfl)).trans
      (congrArg _ (control_taken htakes 0x04 _ id))
  case types => exact (meaning_of_wf (i := .getMessageTypeSupport path) hpath).trans (congrArg _ (control_taken htakes 0x05 _ id))
  case vendor =>
    exact (meaning_of_wf (i := .getVendorDefinedMessageSupport path) hpath).trans (congrArg _ (control_taken htakes 0x06 _ id))
  case unsupported =>
    have hwf : (Instr.unsupportedControlCommand path code).wf = true := by simp [Instr.wf, hpath, hcode, hother]
    exact (meaning_of_wf hwf).trans (congrArg _ (control_taken htakes code _ id))

/-- Settles O39: each command is its answer made of the state, which leaves when the path takes the request. -/
theorem requestsAndControlAreAnswered : Obligations.RequestsAndControlAreAnswered := by
  unfold Obligations.RequestsAndControlAreAnswered
  exact ⟨queriesAreAnswered, controlCommandsAreAnswered⟩

/-! ## Writes (R618, R620, R627, R634) -/

theorem WritesBy.handled {cmd : MgmtReq → Instr} {own : MgmtReq → Bool}
    {put : MgmtReq → Entry → Nat → State → Nat × State} (h : WritesBy cmd own put) {s : State} {r : MgmtReq} {e : Entry}
    (hhandled : Handled s r e) (hown : own r = true) : exec (cmd r) s = .next (s.handleWrite r e (put r e)) := by
  rw [h.exec_eq, meaning_of_wf (h.wf r hhandled.1 hown), writeEntry_of_handled hhandled]

theorem writesAreHandled : WritesAreHandled := by
  intro s r e h
  have handled {cmd own put} (w : WritesBy cmd own put) : own r = true → exec (cmd r) s = .next (s.handleWrite r e (put r e)) :=
    w.handled h
  refine ⟨fun hplain => ?_, handled warmReset_writesBy, handled bootGo_writesBy, handled bundleCommit_writesBy,
    handled lcRequest_writesBy, handled sessionRequest_writesBy, handled sessionAccept_writesBy, handled sessionClose_writesBy,
    handled tableCommit_writesBy, handled queueEnable_writesBy, handled faultLogAck_writesBy,
    fun hsub => handled strandIdentityWrite_writesBy (Bool.or_eq_true_iff.2 hsub), handled telemetryIntervalWrite_writesBy,
    handled ringEntryWrite_writesBy⟩
  obtain ⟨-, hop, -⟩ := id h
  exact handled (dictWrite_writesBy hplain) (writes_iff.2 ⟨hop, rfl, rfl⟩)

/-- The value that a write offers to one unit: its domain lets the entry take it, or refuses it. -/
def guardedPut (e : Entry) (put : Nat → State → Nat × State) (i : Nat) (s : State) : Nat × State :=
  if s.chip.domainStatus e i = stOK then put i s else (s.chip.domainStatus e i, s)

/-- A write that at least one unit has taken is counted (R634). -/
def State.countWrite (t : State) (taken : Bool) : State :=
  if taken then t.onChip fun c => { c with mgmt := { c.mgmt with configCount := (c.mgmt.configCount + 1) % 2 ^ 64 } } else t

theorem State.countWrite_count (t : State) (taken : Bool) : (t.countWrite taken).chip.mgmt.configCount =
    if taken then (t.chip.mgmt.configCount + 1) % 2 ^ 64 else t.chip.mgmt.configCount := by
  cases taken <;> rfl

theorem State.countWrite_sent (t : State) (taken : Bool) : (t.countWrite taken).chip.sent = t.chip.sent := by
  cases taken <;> rfl

theorem State.countWrite_paths (t : State) (taken : Bool) : (t.countWrite taken).chip.mgmt.paths = t.chip.mgmt.paths := by
  cases taken <;> rfl

/-- A handled write offers its value to its instances in turn, is counted if one takes it, and its response is remembered and
leaves (R618, R620, R634). -/
theorem State.handleWrite_eq (s : State) (r : MgmtReq) (e : Entry) (put : Nat → State → Nat × State) :
    ∃ bs, s.handleWrite r e put = ((((State.writeAll (guardedPut e put) (selected r e) s).2.2.countWrite
      !(took s r e put).isEmpty).onChip fun c => c.remember r bs).respond r bs) := by
  let w := State.writeAll (guardedPut e put) (selected r e) s
  refine ⟨(writeResponse r e.typ w.1 w.2.1).bytes r s.chip.now,
    congrArg (fun t : State => (t.onChip fun c => c.remember r _).respond r _)
    (?_ : (if w.1.isEmpty then w.2.2 else _) = w.2.2.countWrite !w.1.isEmpty)⟩
  cases w.1.isEmpty <;> rfl

theorem handledWritesCountAndRepeat : HandledWritesCountAndRepeat := by
  refine ⟨fun s t r e put i st hsel hdom hput hpath hlen => ?once, fun s r put x htakes hreplay => ?again⟩
  case once =>
    have hall : State.writeAll (guardedPut e put) (selected r e) s = if st = stOK then ([i], [], t) else ([], [(i, st)], t) := by
      simp [hsel, State.writeAll, guardedPut, hdom, hput]
    have htook : took s r e put = if st = stOK then [i] else [] := by
      refine (congrArg Prod.fst hall).trans ?_
      split <;> rfl
    have hafter : (State.writeAll (guardedPut e put) (selected r e) s).2.2 = t := by
      rw [hall]
      split <;> rfl
    obtain ⟨bs, heq⟩ := s.handleWrite_eq r e put
    rw [hafter, htook] at heq
    refine ⟨bs, ?_, ?_, ?_⟩
    · rw [heq]
      exact congrArg (· ++ _) (t.countWrite_sent _)
    · rw [heq]
      refine (t.countWrite_count _).trans ?_
      by_cases hst : st = stOK <;> simp [hst]
    · have hin : r.path < (t.countWrite !(if st = stOK then [i] else []).isEmpty).chip.mgmt.paths.length := by
        rw [t.countWrite_paths, hlen]
        exact of_decide_eq_true hpath
      rw [heq]
      exact congrArg (fun x => x.replay.head?) (Chip.path_updPath_same hin _)
  case again => simp [writeEntry, htakes, hreplay, State.respond, inState]

/-- Settles O37: a row's command is its effect at every selected unit; with one unit, whose status decides the count. -/
theorem writesAreHandledOnce : Obligations.WritesAreHandledOnce := by
  unfold Obligations.WritesAreHandledOnce
  exact ⟨writesAreHandled, handledWritesCountAndRepeat⟩

/-! ## A next (R624) -/

theorem dictionary_ascends : dictionary.Pairwise fun e f => e.key < f.key := by
  decide +kernel

/-- The next entry is the least above the key. -/
theorem nextEntry_least {key : Nat} {e : Entry} (h : nextEntry key = some e) :
    e ∈ dictionary ∧ key < e.key ∧ ∀ f ∈ dictionary, key < f.key → e.key ≤ f.key := by
  obtain ⟨habove, before, after, hsplit, hbelow⟩ := List.find?_eq_some_iff_append.1 h
  refine ⟨List.mem_of_find?_eq_some h, of_decide_eq_true habove, fun f hf hkey => ?_⟩
  have hascends := dictionary_ascends
  rw [hsplit] at hf hascends
  rcases List.mem_append.1 hf with hf | hf
  · simpa [hkey] using hbelow f hf
  · rcases List.mem_cons.1 hf with rfl | hf
    · exact le_rfl
    · exact ((List.pairwise_cons.1 (List.pairwise_append.1 hascends).2.1).1 f hf).le

theorem nextEntry_eq_none {key : Nat} (h : ∀ e ∈ dictionary, e.key ≤ key) : nextEntry key = none :=
  List.find?_eq_none.2 fun e he => by simpa using h e he

theorem nextEntry_isSome {key : Nat} (h : ∃ e ∈ dictionary, key < e.key) : ∃ e, nextEntry key = some e := by
  obtain ⟨e, he, hkey⟩ := h
  exact Option.isSome_iff_exists.1 (List.find?_isSome.2 ⟨e, he, decide_eq_true hkey⟩)

section
variable {r : MgmtReq} (hheader : headerOk r = true) (hoffset : r.offset = 0) (hlength : r.length = 0) (hvalue : r.value = [])
include hheader hoffset hlength hvalue

theorem nextResponse_of_some {e : Entry} (h : nextEntry (entryKey r.index r.sub) = some e) : Machine.nextResponse r =
    { Response.refuse stOK (typeOf r) with data := leBytes 2 e.index ++ leBytes 1 e.sub ++ [0] } := by
  simp [Machine.nextResponse, hheader, hoffset, hlength, hvalue, h]

theorem nextResponse_of_none (h : nextEntry (entryKey r.index r.sub) = none) :
    Machine.nextResponse r = Response.refuse stNoSuchEntry (typeOf r) := by
  simp [Machine.nextResponse, hheader, hoffset, hlength, hvalue, h]

end

/-- The header of a next does not look at the mask, nor at the unit named unless it selects all. -/
theorem headerOk_next {r : MgmtReq} (hop : r.op = 3) (hsel : r.select ≠ 2) (inst mask : Nat) :
    headerOk { r with inst := inst, mask := mask } = headerOk r := by
  have hall (n : Nat) : (r.select != 2 || decide (n = 0)) = true := by simp [hsel]
  simp [headerOk, hop, hall]

/-- Settles O57: the dictionary ascends, so the first entry above a key is the least above it. -/
theorem nextGivesTheEntryAbove : Obligations.NextGivesTheEntryAbove := by
  unfold Obligations.NextGivesTheEntryAbove
  refine ⟨fun r hheader _ hoffset hlength hvalue hsome => ?above, fun r hheader _ hoffset hlength hvalue hnone => ?last,
    fun r inst mask hop hsel => ?ignored⟩
  case above =>
    obtain ⟨e, he⟩ := nextEntry_isSome hsome
    obtain ⟨hmem, hkey, hleast⟩ := nextEntry_least he
    refine ⟨e, hmem, hkey, hleast, ?_⟩
    rw [nextResponse_of_some hheader hoffset hlength hvalue he]
    exact ⟨rfl, rfl⟩
  case last =>
    rw [nextResponse_of_none hheader hoffset hlength hvalue (nextEntry_eq_none hnone)]
    exact ⟨rfl, rfl⟩
  case ignored =>
    have htype : typeOf { r with inst := inst, mask := mask } = typeOf r := by rw [typeOf, typeOf]
    simp only [Machine.nextResponse, headerOk_next hop hsel inst mask, htype]

/-! ## The configuration count (R634) -/

theorem writeAll_count {put : Nat → State → Nat × State}
    (h : ∀ i t, (put i t).2.chip.mgmt.configCount = t.chip.mgmt.configCount) (is : List Nat) (s : State) :
    (State.writeAll put is s).2.2.chip.mgmt.configCount = s.chip.mgmt.configCount := by
  induction is generalizing s with
  | nil => rfl
  | cons i is ih =>
    rw [State.writeAll]
    refine Eq.trans ?_ ((ih (put i s).2).trans (h i s))
    dsimp only
    split <;> rfl

theorem guardedPut_count {e : Entry} {put : Nat → State → Nat × State}
    (h : ∀ i t, (put i t).2.chip.mgmt.configCount = t.chip.mgmt.configCount) (i : Nat) (t : State) :
    (guardedPut e put i t).2.chip.mgmt.configCount = t.chip.mgmt.configCount := by
  unfold guardedPut
  split
  · exact h i t
  · rfl

theorem handleWrite_count (s : State) (r : MgmtReq) (e : Entry) {put : Nat → State → Nat × State}
    (h : ∀ i t, (put i t).2.chip.mgmt.configCount = t.chip.mgmt.configCount) :
    (s.handleWrite r e put).chip.mgmt.configCount =
      if (took s r e put).isEmpty then s.chip.mgmt.configCount else (s.chip.mgmt.configCount + 1) % 2 ^ 64 := by
  obtain ⟨bs, heq⟩ := s.handleWrite_eq r e put
  rw [heq]
  refine (State.countWrite_count _ _).trans ?_
  rw [writeAll_count (guardedPut_count h)]
  cases (took s r e put).isEmpty <;> rfl

theorem State.setQueueParam_count (s : State) (q : Nat) (f : QueueSt → QueueSt) :
    (s.setQueueParam q f).2.chip.mgmt.configCount = s.chip.mgmt.configCount := by
  unfold State.setQueueParam
  split <;> rfl

theorem State.stage_count (s : State) (f : Chip → List Byte) :
    (s.onChip fun c => { c with mgmt := { c.mgmt with stage := f c } }).chip.mgmt.configCount = s.chip.mgmt.configCount := rfl

theorem putEntry_count (r : MgmtReq) (e : Entry) (i : Nat) (t : State) :
    (putEntry r e i t).2.chip.mgmt.configCount = t.chip.mgmt.configCount := by
  unfold putEntry
  extract_lets v
  split
  case h_21 =>
    split
    · exact State.stage_count t fun c => setBytes c.mgmt.stage 12288 _ _
    · rfl
  case h_9 | h_10 | h_11 | h_12 | h_13 | h_14 => exact State.setQueueParam_count _ _ _
  all_goals rfl

/-- Settles O58: a handled write counts once when a unit takes it, and no entry's own effect touches the count. -/
theorem configurationCountRises : Obligations.ConfigurationCountRises := by
  unfold Obligations.ConfigurationCountRises
  refine ⟨fun s r e put h => ⟨fun htook => ?once, fun htook => ?never⟩, fun s r q e f put get hput hget htook htook' => ?twice,
    putEntry_count, fun s t hpower htrip h => ?cold⟩
  case once => rw [handleWrite_count s r e h, if_neg (by simpa using htook)]
  case never => rw [handleWrite_count s r e h, if_pos (by simpa using htook)]
  case twice =>
    rw [handleWrite_count _ q f hget, if_neg (by simpa using htook'), handleWrite_count s r e hput, if_neg (by simpa using htook)]
    omega
  case cold =>
    obtain ⟨-, rfl⟩ := meaning_next (i := .coldReset) h
    rw [coldReset, if_neg (by simp [hpower, htrip])]
    exact (rfl : Chip.reset.mgmt.configCount = 0)

/-! ## A queue's enable (R472, R473, R650) -/

theorem putQueueEnable_disabled {s t : State} {r : MgmtReq} {e : Entry} {q : Nat} (hnum : reqNum r ≠ 1)
    (h : putQueueEnable r e q s = (stOK, t)) : t.chip.queue q = { s.chip.queue q with enable := 0 } := by
  unfold putQueueEnable at h
  rw [if_neg hnum] at h
  split at h
  · cases h
  · cases h
    exact (Chip.setQueue_queue ..).trans (if_pos rfl)

theorem putQueueEnable_enabled {s t : State} {r : MgmtReq} {e : Entry} {q : Nat} (hoff : (s.chip.queue q).enable = 0)
    (hnum : reqNum r = 1) (h : putQueueEnable r e q s = (stOK, t)) :
    t.chip.queue q = (s.chip.queue q).started ((s.chip.clasp (s.chip.queue q).head).svc != .inService) := by
  unfold putQueueEnable at h
  rw [if_pos hnum] at h
  split at h
  · cases h
  · rw [if_neg (by rw [hoff]; decide)] at h
    cases h
    exact (Chip.setQueue_queue ..).trans (if_pos rfl)

/-- Settles O59: an enable that succeeds starts the queue, a disable keeps all but the flag, and a doorbell of an enabled queue sets
its tail. -/
theorem queuesEnableAsStated : Obligations.QueuesEnableAsStated := by
  unfold Obligations.QueuesEnableAsStated
  refine ⟨fun s t r e q hoff hnum h => ?enabled,
    fun s q head v hon hqueue hhead hv hpower hdev hactive hopen hio => ?doorbell, fun s t r e q hnum h => ?disabled⟩
  case enabled =>
    rw [putQueueEnable_enabled hoff hnum h]
    exact ⟨rfl, rfl, rfl, rfl, rfl⟩
  case doorbell =>
    have htaken : s.chip.doorbell s.otp.production head q 4 = true := by
      simp [Chip.doorbell, hqueue, hpower, hdev, hon, hactive, hopen, hio]
    have hwf : (Instr.submissionDoorbell head q 4 v).wf = true := by
      simpa [Instr.wf, hhead, isPageWrite, fits] using hv
    refine ⟨_, onChip_wf hwf, ?_⟩
    simp [submissionDoorbell, htaken]
  case disabled =>
    rw [putQueueEnable_disabled (by omega) h]
    exact ⟨rfl, rfl, rfl, rfl, rfl, rfl, rfl⟩

end Sys2Proof.Machine
end

section
/-!
Strand (R551 to R577): what sending a message leaves of the part, then blocks, messages, time, ports and ring control as their commands
handle them.
-/
namespace Sys2Proof.Machine
open Sys2Proof Sys2Proof.Claims

/-! ## What sending can change (R551 to R555, R568) -/

/-- A port beside what it sends. -/
def PortSt.standing (x : PortSt) : PortSt := { x with txSeq := 0, unacked := [], txQueue := [], credits := [], ivTx := [] }

/-- A Bead beside its program, its waits and its synchronization objects. -/
def BeadSt.standing (b : BeadSt) : BeadSt := { b with run := RunSt.fresh, objs := [], waits := [] }

/-- What a part knows of its ring's job, beside the control messages that it sends. -/
def RingRun.progress (x : RingRun) : RingRun := { x with controls := 0, held := [] }

/-- The part beside what it sends, its ports and its Beads. -/
def Chip.besidePorts (c : Chip) : Chip := { c with sent := [], beads := [], ports := [] }

/-- `d` is `c` once port `n` has sent. -/
structure Chip.SendsAt (n : Nat) (c d : Chip) : Prop where
  rest : d.besidePorts = c.besidePorts
  bead : ∀ p, (d.bead p).standing = (c.bead p).standing
  port : (d.port n).standing = (c.port n).standing
  other : ∀ k, k ≠ n → d.port k = c.port k

namespace Chip.SendsAt
variable {n : Nat} {c d e : Chip}

theorem refl (c : Chip) : c.SendsAt n c := ⟨rfl, fun _ => rfl, rfl, fun _ _ => rfl⟩

theorem trans (h1 : c.SendsAt n d) (h2 : d.SendsAt n e) : c.SendsAt n e :=
  ⟨h2.rest.trans h1.rest, fun p => (h2.bead p).trans (h1.bead p), h2.port.trans h1.port,
    fun k hk => (h2.other k hk).trans (h1.other k hk)⟩

theorem send (o : Output) : c.SendsAt n (c.send o) := ⟨rfl, fun _ => rfl, rfl, fun _ _ => rfl⟩

theorem setPort {x : PortSt} (h : x.standing = (c.port n).standing) : c.SendsAt n (c.setPort n x) :=
  ⟨rfl, fun _ => rfl, by rw [Chip.setPort_port, if_pos rfl, h], fun k hk => by rw [Chip.setPort_port, if_neg hk]⟩

theorem foldl {α : Type} {f : Chip → α → Chip} (hf : ∀ (c : Chip) (a : α), c.SendsAt n (f c a)) (l : List α) (c : Chip) :
    c.SendsAt n (l.foldl f c) := foldl_keeps _ refl (fun _ _ _ => trans) f hf l c

theorem forwarded (c : Chip) (o : Nat × Nat) : c.SendsAt n (c.forwarded o) where
  rest := rfl
  bead p := by
    simp only [Chip.forwarded, Chip.updBead_eq, Chip.setBead_bead]
    split
    · next h => rw [h]; rfl
    · rfl
  port := rfl
  other _ _ := rfl

theorem sealOut (c : Chip) (m : TxMsg) : c.SendsAt n (c.sealOut n m).2 := by
  unfold Chip.sealOut
  split
  · exact refl c
  · exact setPort rfl

theorem sendBlock (c : Chip) (bs : List Byte) (ends : List TxMsg) : c.SendsAt n (c.sendBlock n bs ends) := by
  refine trans (d := c.setPort n _) ?_ (send _)
  exact setPort rfl

/-- A port that sends changes in what it sends alone, and no other port changes. -/
theorem pump (c : Chip) : c.SendsAt n (c.pump n) := by
  unfold Chip.pump
  extract_lets x
  split
  · exact refl c
  · generalize startable x.credits (retryDepth - x.unacked.length) 0 [] x.txQueue = w
    obtain ⟨go, stay⟩ := w
    refine trans (trans (trans (d := c.setPort n _) ?_ (foldl_keeps (fun s t : List Byte × List (Nat × TxMsg) × Chip =>
      s.2.2.SendsAt n t.2.2) (fun _ => refl _) (fun _ _ _ => trans) _ ?_ go ([], [], c.setPort n _)))
      (foldl (fun c _ => sendBlock c _ _) _ _)) (foldl forwarded _ _)
    · exact setPort rfl
    · exact fun s m => sealOut s.2.2 m

theorem enqueue (c : Chip) (m : TxMsg) : c.SendsAt n (c.enqueue n m) := by
  refine trans (d := c.setPort n _) ?_ (pump _)
  exact setPort rfl

end Chip.SendsAt

/-- The part beside what it sends, its ports, its Beads and its rings' runs. -/
def Chip.besideMessages (c : Chip) : Chip := { c with sent := [], beads := [], ports := [], ringRuns := [] }

/-- `d` is `c` once it has sent messages of rings: ports that do not work stay as they are. -/
structure Chip.Sends (c d : Chip) : Prop where
  rest : d.besideMessages = c.besideMessages
  bead : ∀ p, (d.bead p).standing = (c.bead p).standing
  port : ∀ n, (d.port n).standing = (c.port n).standing
  idle : ∀ n, (c.port n).working = false → d.port n = c.port n
  run : ∀ r, (d.ringRun r).progress = (c.ringRun r).progress

namespace Chip.Sends
variable {c d e : Chip}

theorem refl (c : Chip) : c.Sends c := ⟨rfl, fun _ => rfl, fun _ => rfl, fun _ _ => rfl, fun _ => rfl⟩

theorem trans (h1 : c.Sends d) (h2 : d.Sends e) : c.Sends e :=
  ⟨h2.rest.trans h1.rest, fun p => (h2.bead p).trans (h1.bead p), fun n => (h2.port n).trans (h1.port n),
    fun n hn => (h2.idle n (by rw [h1.idle n hn, hn])).trans (h1.idle n hn), fun r => (h2.run r).trans (h1.run r)⟩

theorem foldl {α : Type} {f : Chip → α → Chip} (hf : ∀ (c : Chip) (a : α), c.Sends (f c a)) (l : List α) (c : Chip) :
    c.Sends (l.foldl f c) := foldl_keeps _ refl (fun _ _ _ => trans) f hf l c

/-- A port that works may send. -/
theorem ofPort {n : Nat} (hn : (c.port n).working = true) (h : c.SendsAt n d) : c.Sends d where
  rest := congrArg (fun c : Chip => { c with ringRuns := [] }) h.rest
  bead := h.bead
  port k := by
    by_cases hk : k = n
    · exact hk ▸ h.port
    · rw [h.other k hk]
  idle k hk := h.other k fun h => by rw [← h, hk] at hn; cases hn
  run r := (congrArg (fun c : Chip => (c.ringRun r).progress) h.rest :)

/-- A ring's run changes in what it has sent and holds. -/
theorem setRingRun {r : Nat} {x : RingRun} (h : x.progress = (c.ringRun r).progress) : c.Sends (c.setRingRun r x) where
  rest := rfl
  bead _ := rfl
  port _ := rfl
  idle _ _ := rfl
  run q := by
    rw [Chip.setRingRun_ringRun]
    split
    · next hq => rw [h, hq]
    · rfl

theorem working_of_mem_portsTo {mask part n : Nat} (h : n ∈ c.portsTo mask part) : (c.port n).working = true := by
  have h := (List.mem_filter.1 h).2
  simp only [Bool.and_eq_true] at h
  exact h.1.2

/-- A message goes to a working port of its neighbour set, or is held. -/
theorem route (c : Chip) (m : TxMsg) : c.Sends (c.route m) := by
  unfold Chip.route
  split
  case h_1 n hpick =>
    refine ofPort ?_ (.enqueue c m)
    have hmem := List.mem_of_getElem? hpick
    split at hmem <;> exact working_of_mem_portsTo hmem
  case h_2 => exact setRingRun rfl

theorem sendControl (c : Chip) (r : Nat) (next : Bool) (op step epoch : Nat) : c.Sends (c.sendControl r next op step epoch) := by
  refine trans (d := c.setRingRun r _) ?_ (route _ _)
  exact setRingRun rfl

theorem sendNext (c : Chip) (r op step epoch : Nat) : c.Sends (c.sendNext r op step epoch) := sendControl ..

theorem sendPrev (c : Chip) (r op step epoch : Nat) : c.Sends (c.sendPrev r op step epoch) := sendControl ..

theorem rings (h : c.Sends d) : d.rings = c.rings := (congrArg Chip.rings h.rest :)
theorem jobs (h : c.Sends d) : d.jobs = c.jobs := (congrArg Chip.jobs h.rest :)

theorem ring (h : c.Sends d) (r : Nat) : d.ring r = c.ring r := by rw [Chip.ring, h.rings, Chip.ring]
theorem job? (h : c.Sends d) (j : Nat) : d.job? j = c.job? j := by rw [Chip.job?, h.jobs, Chip.job?]

theorem back (h : c.Sends d) (r : Nat) : (d.ringRun r).back = (c.ringRun r).back := (congrArg RingRun.back (h.run r) :)
theorem all (h : c.Sends d) (r : Nat) : (d.ringRun r).all = (c.ringRun r).all := (congrArg RingRun.all (h.run r) :)
theorem fenceStamp (h : c.Sends d) (r : Nat) : (d.ringRun r).fenceStamp = (c.ringRun r).fenceStamp :=
  (congrArg RingRun.fenceStamp (h.run r) :)

end Chip.Sends

/-! ## Ring control (R573 to R575) -/

theorem fits_u32 {v : Nat} (h : v < 2 ^ 32) : fits 4 v = true := by
  simpa [fits] using h

/-- A change to a ring's run is beside the ring table. -/
theorem Chip.updRingRun_ring (c : Chip) (r : Nat) (f : RingRun → RingRun) (q : Nat) : (c.updRingRun r f).ring q = c.ring q := rfl

theorem Chip.ringBack_run (c : Chip) (r k : Nat) : ((c.ringBack r k).ringRun r).back = max (c.ringRun r).back k ∧
    ((c.ringBack r k).ringRun r).all = max (c.ringRun r).all k := by
  unfold Chip.ringBack
  dsimp only
  split
  · simp
  · rw [(Chip.Sends.sendNext ..).back, (Chip.Sends.sendNext ..).all]
    simp

theorem ringCommitsGoRound : RingCommitsGoRound := by
  refine ⟨fun s a k ha hk => ?committed, fun s a k ha hk => ?all, Chip.ringBack_run⟩
  case committed =>
    refine exec_onChip rfl (by simp [Instr.wf, ha, fits_u32 hk]) ?_
    cases hlive : s.chip.ringLive a.ring <;> simp [ringCommitted, hlive]
  case all =>
    refine exec_onChip rfl (by simp [Instr.wf, ha, fits_u32 hk]) ?_
    cases hlive : s.chip.ringLive a.ring
    · simp [ringAll, hlive]
    · by_cases hrank : (s.chip.ring a.ring).rank = 0
      · simp [ringAll, hlive, hrank]
      · rw [if_neg (by simp [hrank]), ringAll, if_neg (by simp [hlive, hrank])]
        rfl

/-! ## Fences of a ring (R574, R575) -/

/-- A ring's fence epoch says nothing of which jobs the ring carries. -/
theorem Chip.jobsOnRing_setEpoch (c : Chip) (r epoch : Nat) (f : RingRun → RingRun) :
    ((c.setRing r { c.ring r with epoch := epoch }).updRingRun r f).jobsOnRing r = c.jobsOnRing r := by
  have hcarries (session : Nat) :
      ((c.setRing r { c.ring r with epoch := epoch }).updRingRun r f).ringCarries r session = c.ringCarries r session := by
    simp [Chip.ringCarries, Chip.updRingRun_ring, -Chip.updRingRun_eq]
  simp only [Chip.jobsOnRing, hcarries]
  rfl

theorem ringFence_old {c : Chip} {r epoch port : Nat} (h : c.ringLive r = false ∨ epoch ≤ (c.ring r).epoch) :
    ringFence r epoch port c = c := by
  rw [ringFence, if_pos (by simpa using h)]

theorem ringResume_stays {c : Chip} {r m epoch : Nat}
    (h : c.ringLive r = false ∨ (c.ring r).rank = 0 ∨ epoch ≠ (c.ring r).epoch) : ringResume r m epoch c = c := by
  rw [ringResume, if_pos (by simpa [or_assoc] using h)]

/-- The ring's jobs that waited for it resume, from no later step index than `m`. -/
def Chip.resumeJobs (c : Chip) (r m : Nat) : Chip :=
  (c.jobsOnRing r).foldl (fun c j => c.updJob j fun x =>
    if x.ringWait.contains r then { x with ringWait := x.ringWait.filter (· != r) }.from m else x) c

theorem Chip.resumeJobs_rings (c : Chip) (r m : Nat) : (c.resumeJobs r m).rings = c.rings :=
  foldl_keeps (fun c d : Chip => d.rings = c.rings) (fun _ => rfl) (fun _ _ _ h1 h2 => h2.trans h1) _
    (fun c j => c.updJob_rings j _) _ c

theorem Chip.resumeJobs_ring (c : Chip) (r m q : Nat) : (c.resumeJobs r m).ring q = c.ring q := by
  rw [Chip.ring, Chip.resumeJobs_rings, Chip.ring]

/-- The ring's run once its jobs resume from step index `m`. -/
def RingRun.resumed (m : Nat) (x : RingRun) : RingRun :=
  { x with committed := m, owed := none, back := m, all := m, fenceStamp := none }

theorem ringResume_live {c : Chip} {r m epoch : Nat} (hlive : c.ringLive r = true) (hrank : (c.ring r).rank ≠ 0)
    (hsame : epoch = (c.ring r).epoch) : ringResume r m epoch c =
      if (c.ring r).rank + 1 < (c.ring r).size then ((c.resumeJobs r m).updRingRun r (.resumed m)).sendNext r opResume m epoch
      else (c.resumeJobs r m).updRingRun r (.resumed m) := by
  rw [ringResume, if_neg (by simp [hlive, hrank, hsame]), ← Chip.resumeJobs_ring c r m r]
  rfl

theorem ringResume_sends {c : Chip} {r m epoch : Nat} (hlive : c.ringLive r = true) (hrank : (c.ring r).rank ≠ 0)
    (hsame : epoch = (c.ring r).epoch) :
    ((c.resumeJobs r m).updRingRun r (.resumed m)).Sends (ringResume r m epoch c) := by
  rw [ringResume_live hlive hrank hsame]
  split
  · exact .sendNext ..
  · exact .refl _

theorem ringFencesGoRound : RingFencesGoRound := by
  refine ⟨fun s r epoch port hr hepoch hport => ⟨fun hold => ?old, fun hlive hnew => ?fence⟩,
    fun s a m epoch ha hm hepoch => ⟨fun hstays => ?stays, fun hlive hrank hsame => ?resume⟩,
    fun s a m j x ha hm hepoch hlive hrank hjobs hjob hwait hfrom => ?job, fun s r hr => ?expiry⟩
  case old =>
    exact exec_onChip rfl (by simp [Instr.wf, hr, fits_u32 hepoch, hport]) (ringFence_old hold)
  case fence =>
    refine ⟨_, _, rfl, rfl, ?_, exec_onChip rfl (by simp [Instr.wf, hr, fits_u32 hepoch, hport]) ?_⟩
    · split
      · rw [(Chip.Sends.sendNext ..).ring, Chip.updRingRun_ring, Chip.setRing_ring, if_pos rfl]
      · rw [(Chip.Sends.sendPrev ..).ring, Chip.updRingRun_ring, Chip.setRing_ring, if_pos rfl]
    · rw [ringFence, if_neg (by simp [hlive, hnew])]
      dsimp only
      rw [Chip.jobsOnRing_setEpoch, Chip.updRingRun_ring, Chip.setRing_ring, if_pos rfl]
      rfl
  case stays =>
    exact exec_onChip rfl (by simp [Instr.wf, ha, fits_u32 hm, fits_u32 hepoch]) (ringResume_stays hstays)
  case resume =>
    refine ⟨_, rfl, exec_onChip rfl (by simp [Instr.wf, ha, fits_u32 hm, fits_u32 hepoch]) ?_⟩
    rw [ringResume_live hlive hrank hsame]
    rfl
  case job =>
    have hsends := ringResume_sends (m := m) hlive hrank rfl
    have hresumed : s.chip.resumeJobs a.ring m = s.chip.setJob j { x with ringWait := [], ringFrom := some m } := by
      rw [Chip.resumeJobs, hjobs, List.foldl_cons, List.foldl_nil, Chip.updJob_of_job hjob]
      simp [hwait, hfrom, Job.from]
    refine ⟨_, exec_onChip rfl (by simp [Instr.wf, ha, fits_u32 hm, fits_u32 hepoch]) rfl, ?_, ?_, ?_⟩
    · exact (hsends.job? j).trans (by rw [hresumed]; exact (Chip.setJob_job? ..).trans (if_pos rfl))
    · exact (hsends.back _).trans (by simp [RingRun.resumed])
    · exact (hsends.fenceStamp _).trans (by simp [RingRun.resumed])
  case expiry =>
    refine exec_onChip rfl hr ?_
    rw [ringResumeExpiry]
    cases hstamp : (s.chip.ringRun r).fenceStamp with
    | none => rfl
    | some n =>
      by_cases hwait : (s.chip.ring r).rank = 0 ∨ s.chip.now < n + 125000000 <;> simp [hwait]

/-- Settles O36: a message that a ring sends leaves the ring table, the jobs and what is known of the ring's job. -/
theorem ringControlGoesRound : Obligations.RingControlGoesRound := by
  unfold Obligations.RingControlGoesRound
  exact ⟨ringCommitsGoRound, ringFencesGoRound⟩

/-! ## Ports train, fault and return (R564, R568, R576, R577, R611) -/

@[simp] theorem Chip.log_port (c : Chip) (r : FaultRec) (n : Nat) : (c.log r).port n = c.port n := by
  rw [Chip.port, Chip.log_ports, Chip.port]

@[simp] theorem Chip.send_port (c : Chip) (o : Output) (n : Nat) : (c.send o).port n = c.port n := rfl

/-- What a port has not got through goes to other ports or is held: the port itself is left empty if it does not work. -/
theorem Chip.moveMessages_port {c : Chip} {n : Nat} (h : (c.port n).working = false) :
    (c.moveMessages n).port n = { c.port n with unacked := [], txQueue := [] } := by
  have hsends := Chip.Sends.foldl Chip.Sends.route ((c.port n).unacked.flatMap (·.ends) ++ (c.port n).txQueue)
    (c.setPort n { c.port n with unacked := [], txQueue := [] })
  have hempty : (c.setPort n { c.port n with unacked := [], txQueue := [] }).port n =
      { c.port n with unacked := [], txQueue := [] } := by rw [Chip.setPort_port, if_pos rfl]
  exact (hsends.idle n (by rw [hempty]; exact h)).trans hempty

/-- A port that holds nothing moves nothing. -/
theorem Chip.moveMessages_empty {c : Chip} {n : Nat} (hunacked : (c.port n).unacked = []) (hqueue : (c.port n).txQueue = []) :
    c.moveMessages n = c.setPort n { c.port n with unacked := [], txQueue := [] } := by
  rw [Chip.moveMessages, hunacked, hqueue]
  rfl

theorem Chip.releaseHeld_none {c : Chip} (h : ∀ x ∈ c.ringRuns, x.2.held = []) : c.releaseHeld = c := by
  have hnone : c.ringRuns.filter (fun e => !e.2.held.isEmpty) = [] :=
    List.filter_eq_nil_iff.2 fun x hx => by simp [h x hx]
  rw [Chip.releaseHeld, hnone]
  rfl

/-- A port that comes back with nothing to send counts anew. -/
theorem Chip.restartPort_port {c : Chip} {n : Nat} (st : Nat) (hunacked : (c.port n).unacked = [])
    (hqueue : (c.port n).txQueue = []) (hheld : ∀ x ∈ c.ringRuns, x.2.held = []) : (c.restartPort n st).port n =
      { c.port n with st := st, txSeq := 0, rxNext := 0, discarding := false, credits := PortSt.fresh.credits, fenceRec := none,
                      unacked := [], txQueue := [] } := by
  rw [Chip.restartPort, Chip.moveMessages_empty (by simpa using hunacked) (by simpa using hqueue)]
  dsimp only
  rw [Chip.releaseHeld_none (by exact hheld)]
  simp

theorem Chip.jobsWith_none {c : Chip} (h : c.jobs = []) (f : Nat → Job → Bool) : c.jobsWith f = [] := by
  simp [Chip.jobsWith, Chip.jobsBy, h, sortBy]

theorem PortSt.not_fenced_of_working {x : PortSt} (h : x.working = true) : x.st ≠ 5 ∧ x.st ≠ 6 := by
  simp only [PortSt.working, Bool.and_eq_true, decide_eq_true_eq] at h
  omega

/-- A working port that is faulted while no job runs. -/
theorem Chip.portFault_port {c : Chip} {n : Nat} (hworks : (c.port n).working = true) (hjobs : c.jobs = []) (detail : Nat) :
    (c.portFault n detail).port n = { c.port n with
      st := if 1 ≤ (c.port n).faults then 6 else 5, faults := (c.port n).faults + 1, fenceRec := some c.flog.written,
      unacked := [], txQueue := [] } := by
  obtain ⟨h5, h6⟩ := PortSt.not_fenced_of_working hworks
  rw [Chip.portFault, if_neg (by simp [h5, h6]), if_neg (by simp [hworks])]
  dsimp only
  rw [Chip.jobsWith_none hjobs, List.foldl_nil, Chip.moveMessages_port]
  · by_cases hout : 1 ≤ (c.port n).faults <;> simp [hout]
  · by_cases hout : 1 ≤ (c.port n).faults <;> simp [hout, PortSt.working]

/-- Settles O35: a port that does not work sends nothing, so that what it holds moves to other ports and its own counts stand. -/
theorem portsTrainAndFault : Obligations.PortsTrainAndFault := by
  unfold Obligations.PortsTrainAndFault
  refine ⟨fun s n peer lanes st hn hpeer hlanes hpower hclasp hst htamper hheld =>
      ⟨fun hfew => ?few, fun hlane hunacked hqueue => ?trained⟩,
    fun s n lanes hn hlanes => ?command, fun s n lanes hn hlanes hworks hjobs => ?fault,
    fun s n intact hn hintact hst hheld => ⟨fun st hlane hunacked hqueue => ?back, fun hfew => ?out⟩⟩
  case command => exact exec_onChip (f := fun c => c.portFault n lanes) rfl (by simp [Instr.wf, hn, hlanes]) rfl
  case few =>
    refine ⟨_, exec_onChip rfl (by simp [Instr.wf, hn, hpeer, hlanes]) rfl, ?_⟩
    simp [linkTraining, hpower, hclasp, hst, htamper, hfew, inState]
  case trained =>
    refine ⟨_, exec_onChip rfl (by simp [Instr.wf, hn, hpeer, hlanes]) rfl, ?_⟩
    rw [linkTraining, if_pos (by simp [hpower, hclasp, hst, htamper]), hlane]
    dsimp only [Chip.freeBytes, Chip.sendOther, inState]
    rw [Chip.restartPort_port]
    · simp
    · simpa using hunacked
    · simpa using hqueue
    · exact hheld
  case fault =>
    refine ⟨_, exec_onChip (f := fun c => c.portFault n lanes) rfl (by simp [Instr.wf, hn, hlanes]) rfl, ?_⟩
    simp [inState, Chip.portFault_port hworks hjobs]
  case back =>
    refine ⟨_, exec_onChip rfl (by simp [Instr.wf, hn, hintact]) rfl, ?_⟩
    rw [portRetrainComplete, if_neg (by simp [hst]), hlane]
    dsimp only [inState]
    rw [Chip.restartPort_port st]
    · exact ⟨rfl, rfl, rfl⟩
    · simpa using hunacked
    · simpa using hqueue
    · simpa using hheld
  case out =>
    refine ⟨_, exec_onChip rfl (by simp [Instr.wf, hn, hintact]) rfl, ?_⟩
    rw [portRetrainComplete, if_neg (by simp [hst]), hfew]
    simp [inState, Chip.moveMessages_port, PortSt.working]

/-! ## Time across parts (R558 to R562) -/

theorem padTo_take (bs : List Byte) (n : Nat) : padTo (bs.take n) n = padTo bs n := by
  rw [padTo, padTo, List.take_take, Nat.min_self, List.length_take]
  congr 2
  omega

theorem mem_insertFront {α : Type} {le : α → α → Bool} {x y : α} {xs : List α} :
    y ∈ sortBy.insertFront le x xs ↔ y = x ∨ y ∈ xs := by
  induction xs with
  | nil => simp [sortBy.insertFront]
  | cons z zs ih =>
    rw [sortBy.insertFront]
    split
    · exact List.mem_cons
    · rw [List.mem_cons, ih, List.mem_cons, or_left_comm]

theorem mem_sortBy {α : Type} {le : α → α → Bool} {y : α} {xs : List α} : y ∈ sortBy le xs ↔ y ∈ xs := by
  induction xs with
  | nil => rfl
  | cons x xs ih => rw [sortBy, mem_insertFront, ih, List.mem_cons]

/-- The head of a sorted list is the least of its elements. -/
theorem sortBy_head_least {α : Type} {le : α → α → Bool} (htotal : ∀ a b, le a b = false → le b a = true)
    (htrans : ∀ a b c, le a b = true → le b c = true → le a c = true) {xs ys : List α} {a : α} (h : sortBy le xs = a :: ys) :
    ∀ b ∈ xs, le a b = true := by
  have hrefl (x : α) : le x x = true := Bool.of_not_eq_false fun hx => by simpa [hx] using htotal x x hx
  induction xs generalizing a ys with
  | nil => cases h
  | cons x xs ih =>
    rw [sortBy] at h
    cases hrest : sortBy le xs with
    | nil =>
      rw [hrest, sortBy.insertFront] at h
      cases h
      exact List.forall_mem_cons.2 ⟨hrefl x, fun y hy => by simpa [hrest] using mem_sortBy (le := le).2 hy⟩
    | cons b bs =>
      have hleast := ih hrest
      rw [hrest, sortBy.insertFront] at h
      split at h
      · next hxb =>
        cases h
        exact List.forall_mem_cons.2 ⟨hrefl x, fun y hy => htrans _ _ _ hxb (hleast y hy)⟩
      · next hxb =>
        cases h
        exact List.forall_mem_cons.2 ⟨htotal _ _ (by simpa using hxb), hleast⟩

/-- The order in which ports are asked to be the parent: the least depth, the lower port on a tie (R559). -/
def Chip.parentLe (c : Chip) (a b : Nat) : Bool :=
  (c.port a).peerDepth < (c.port b).peerDepth || ((c.port a).peerDepth = (c.port b).peerDepth && a ≤ b)

theorem Chip.parentLe_iff {c : Chip} {a b : Nat} : c.parentLe a b = true ↔ (c.port a).peerDepth < (c.port b).peerDepth ∨
    ((c.port a).peerDepth = (c.port b).peerDepth ∧ a ≤ b) := by
  simp [Chip.parentLe]

/-- The ports that may be the parent, in that order. -/
def Chip.parents (c : Chip) : List Nat := sortBy c.parentLe ((List.range 12).filter c.parentable)

theorem Chip.chooseParent_of_nil {c : Chip} (href : c.strand.timeRef ≠ 1) (h : c.parents = []) :
    c.chooseParent = { c with strand := { c.strand with parent := 0xFF, depth := 63 } } := by
  unfold Chip.chooseParent
  rw [if_neg href]
  dsimp only
  split
  · rfl
  · next h' => cases h'.symm.trans h

theorem Chip.chooseParent_of_cons {c : Chip} {n : Nat} {ns : List Nat} (href : c.strand.timeRef ≠ 1) (h : c.parents = n :: ns) :
    c.chooseParent = { c with strand := { c.strand with parent := n, depth := (c.port n).peerDepth + 1 } } := by
  unfold Chip.chooseParent
  rw [if_neg href]
  dsimp only
  split
  · next h' => cases h'.symm.trans h
  · next h' =>
      cases h'.symm.trans h
      rfl

theorem Chip.parents_least {c : Chip} {n : Nat} {ns : List Nat} (h : c.parents = n :: ns) :
    c.parentable n = true ∧ ∀ k, k < 12 → c.parentable k = true → (c.port n).peerDepth ≤ (c.port k).peerDepth := by
  have hmem : n ∈ (List.range 12).filter c.parentable := mem_sortBy.1 (show n ∈ c.parents from h ▸ List.mem_cons_self)
  have hleast := sortBy_head_least (fun a b hab => ?total) (fun a b d hab hbd => ?trans) h
  · refine ⟨(List.mem_filter.1 hmem).2, fun k hk hparent => ?_⟩
    have := Chip.parentLe_iff.1 (hleast k (List.mem_filter.2 ⟨List.mem_range.2 hk, hparent⟩))
    omega
  case total =>
    rw [← Bool.not_eq_true, Chip.parentLe_iff] at hab
    rw [Chip.parentLe_iff]
    omega
  case trans =>
    rw [Chip.parentLe_iff] at hab hbd ⊢
    omega

/-- A parent that is chosen is the least of the ports that may be it. -/
theorem Chip.chooseParent_least {c : Chip} {n : Nat} (href : c.strand.timeRef ≠ 1) (hn : c.chooseParent.strand.parent = n)
    (hlt : n < 12) : c.parentable n = true ∧ c.chooseParent.strand.depth = (c.port n).peerDepth + 1 ∧
      ∀ k, k < 12 → c.parentable k = true → (c.port n).peerDepth ≤ (c.port k).peerDepth := by
  cases h : c.parents with
  | nil =>
    rw [Chip.chooseParent_of_nil href h] at hn
    dsimp only at hn
    omega
  | cons m ms =>
    rw [Chip.chooseParent_of_cons href h] at hn ⊢
    obtain rfl : m = n := hn
    obtain ⟨hparent, hleast⟩ := Chip.parents_least h
    exact ⟨hparent, rfl, hleast⟩

@[simp] theorem TickSt.withResidual_measured (t : TickSt) (r : Int) : (t.withResidual r).measured = t.measured := rfl

@[simp] theorem TickSt.refBy_measured (t : TickSt) (d : Int) : (t.refBy d).measured = t.measured := by
  unfold TickSt.refBy
  split <;> rfl

@[simp] theorem Chip.alignBy_measured (c : Chip) (off whole up : Int) : (c.alignBy off whole up).tick.measured = c.tick.measured := by
  unfold Chip.alignBy
  split
  · simp [Chip.stepTick]
  · rfl

@[simp] theorem Chip.monitorTick_measured (c : Chip) (off : Int) : (c.monitorTick off).tick.measured = c.tick.measured := by
  unfold Chip.monitorTick
  split
  · rw [Chip.log_tick]
  · rfl

theorem Chip.followParent_measured (c : Chip) (off : Int) : (c.followParent off).tick.measured = off := by
  unfold Chip.followParent
  dsimp only
  split
  · rw [Chip.monitorTick_measured, Chip.alignBy_measured]
  · rw [Chip.monitorTick_measured]
    rfl

/-- A port's peer has been heard: what it says is kept, and the parent is chosen anew. -/
def Chip.heardSync (c : Chip) (n : Nat) (b : TimeSync) : Chip :=
  (c.updPort n fun x =>
    { x with echoTx := b.tTx, echoRx := b.arrival, peerRef := b.refPart, peerDepth := b.depth, lastSync := c.now }).chooseParent

theorem timeSyncReceive_eq {c : Chip} {n : Nat} (b : TimeSync) (hworks : (c.port n).working = true) :
    timeSyncReceive n b c = if (c.heardSync n b).strand.parent = n ∧ b.echoTx ≠ 0
      then (c.heardSync n b).followParent (parentOffset b) else c.heardSync n b := by
  rw [timeSyncReceive, if_neg (by simp [hworks])]
  simp only [Bool.and_eq_true, decide_eq_true_eq, bne_iff_ne]
  rfl

/-- Settles O34: the parent is the head of the ports in the order of R559, and following it keeps what was measured. -/
theorem strandTimeIsKept : Obligations.StrandTimeIsKept := by
  unfold Obligations.StrandTimeIsKept
  refine ⟨fun s n frac hn hfrac halive hworks hdue => exec_onChip rfl (by simp [Instr.wf, hn, hfrac]) ?send,
    fun s n b hn hb hworks => ⟨_, _, exec_onChip rfl (by simp [Instr.wf, hn, hb]) (timeSyncReceive_eq b hworks), rfl,
      fun hother => if_neg ?other, fun hparent hecho => ?parent⟩,
    fun s hset hlost => exec_onChip rfl rfl ?timeout, fun c n href hparent hlt => Chip.chooseParent_least href hparent hlt⟩
  case send =>
    rw [timeSyncSend, if_pos (by simp [halive, hworks, hdue]), Chip.sendOther, blockPayload, padTo_take]
  case other => exact fun ⟨hparent, hecho⟩ => hother.elim (· hparent) (hecho ·)
  case parent =>
    rw [if_pos ⟨hparent, hecho⟩]
    exact ⟨rfl, Chip.followParent_measured _ _⟩
  case timeout => rw [parentTimeout, if_pos (by simp [hset, hlost])]

/-! ## Blocks (R551, R552, R576) -/

theorem Chip.pump_port_of_empty {c : Chip} {n : Nat} (hqueue : (c.port n).txQueue = []) (k : Nat) :
    (c.pump n).port k = c.port k := by
  unfold Chip.pump
  extract_lets x
  split
  · rfl
  · have hnone : startable x.credits (retryDepth - x.unacked.length) 0 [] x.txQueue = ([], []) := by rw [hqueue]; rfl
    rw [hnone]
    refine (Chip.setPort_port ..).trans ?_
    split
    · next hk =>
      subst hk
      show { c.port k with txQueue := [] } = c.port k
      rw [← hqueue]
    · rfl

theorem PortSt.mem_of_mem_acked {x : PortSt} {ack : Nat} {b : TxBlock} (h : b ∈ (x.acked ack).unacked) : b ∈ x.unacked := by
  unfold PortSt.acked at h
  split at h
  · exact h
  · dsimp only at h
    split at h
    · exact List.mem_of_mem_drop h
    · exact h

theorem PortSt.acked_rx (x : PortSt) (ack : Nat) :
    (x.acked ack).rxNext = x.rxNext ∧ (x.acked ack).txQueue = x.txQueue := by
  unfold PortSt.acked
  split
  · exact ⟨rfl, rfl⟩
  · dsimp only
    split <;> exact ⟨rfl, rfl⟩

theorem strandBlocksAreTaken : StrandBlocksAreTaken := by
  refine ⟨fun s n b hn hb hworks => ⟨fun hbad => ?bad, fun hintact htype => ?reserved, fun hintact htype hseq hqueue => ?data⟩,
    fun s n ack hn hack hworks hunacked => ?retry, fun x ack b => PortSt.mem_of_mem_acked⟩
  case bad =>
    refine exec_onChip rfl (by simp [Instr.wf, hn, hb]) ?_
    rw [strandBlockReceive, if_neg (by simp [hworks]), if_pos (by simp [hbad])]
    simp [Chip.sendOther, PortSt.ackSeq, blockPayload]
  case reserved =>
    refine exec_onChip rfl (by simp [Instr.wf, hn, hb]) ?_
    rw [strandBlockReceive, if_neg (by simp [hworks]), if_neg (by simp [hintact]), if_pos htype]
  case data =>
    obtain ⟨hrx, htx⟩ := (s.chip.port n).acked_rx b.ack
    refine ⟨_, exec_onChip rfl (by simp [Instr.wf, hn, hb]) rfl, ?_⟩
    rw [strandBlockReceive, if_neg (by simp [hworks]), if_neg (by simp [hintact]), if_neg (by omega)]
    dsimp only [inState]
    rw [Chip.pump_port_of_empty (by simp [hrx, htx, hqueue, htype, hseq])]
    simp [hrx, htype, hseq]
  case retry =>
    refine ⟨_, _, _, rfl, rfl, rfl, exec_onChip rfl (by simp [Instr.wf, hn, hack]) ?_⟩
    rw [strandRetryRequest, if_neg (by simp [hworks])]
    dsimp only
    rw [if_neg (by simpa using hunacked)]
    exact if_congr (by simp [retryLimit]) rfl rfl

/-! ## Messages (R552, R555 to R557, R567) -/

theorem Chip.returnCredits_ring (c : Chip) (n : Nat) (m : StrandMessage) (r : Nat) : (c.returnCredits n m).ring r = c.ring r := rfl
theorem Chip.returnCredits_ringRun (c : Chip) (n : Nat) (m : StrandMessage) (r : Nat) :
    (c.returnCredits n m).ringRun r = c.ringRun r := rfl
theorem Chip.returnCredits_ringKey (c : Chip) (n : Nat) (m : StrandMessage) (r : Nat) :
    (c.returnCredits n m).ringKey r = c.ringKey r := rfl

theorem strandMessagesAreDelivered : StrandMessagesAreDelivered := by
  refine ⟨fun s n m hn hm hworks hcls => ?control, fun s n j m hn hm hworks hcls henable hsrc hjob => ?data⟩
  case control =>
    refine ⟨_, _, exec_onChip rfl (by simp [Instr.wf, hn, hm]) rfl, rfl, ?_⟩
    rw [strandMessageReceive, if_neg (by simp [hworks])]
    dsimp only
    rw [if_pos hcls]
    rfl
  case data =>
    refine ⟨_, _, exec_onChip rfl (by simp [Instr.wf, hn, hm]) rfl, rfl, ?_⟩
    rw [strandMessageReceive, if_neg (by simp [hworks])]
    have hjob' (f : RingRun → RingRun) : ((s.chip.returnCredits n m).updRingRun m.ring f).ringJob m.ring = some j := hjob
    dsimp only
    simp only [Chip.returnCredits_ring, Chip.returnCredits_ringRun, Chip.returnCredits_ringKey, hjob']
    rw [if_neg (by rw [hcls]; decide), if_neg (by simp [hcls, henable, hsrc, clsRingData])]
    split
    · next h => rw [h]
    · next h hj =>
      cases hj
      rw [h, if_pos hcls]
    · next hj => cases hj

/-- Settles O33: each command is a chain of the conditions that its rules name, with one outcome for each. -/
theorem strandBlocksAndMessagesAreTaken : Obligations.StrandBlocksAndMessagesAreTaken := by
  unfold Obligations.StrandBlocksAndMessagesAreTaken
  exact ⟨strandBlocksAreTaken, strandMessagesAreDelivered⟩

end Sys2Proof.Machine
end

section
/-!
The tamper response (R591, R592): ending the accepted jobs leaves the fault log, in which the response has its one record.
-/
namespace Sys2Proof.Machine
open Sys2Proof Sys2Proof.Claims

theorem foldl_flog {α : Type} {f : Chip → α → Chip} (hf : ∀ c a, (f c a).flog = c.flog) (l : List α) (c : Chip) :
    (l.foldl f c).flog = c.flog :=
  foldl_keeps (fun c d : Chip => d.flog = c.flog) (fun _ => rfl) (fun _ _ _ h1 h2 => h2.trans h1) f hf l c

theorem iter_flog {f : Nat → Chip → Chip} (hf : ∀ i c, (f i c).flog = c.flog) (n : Nat) (c : Chip) :
    (iter n f c).flog = c.flog :=
  foldl_flog (fun c i => hf i c) _ c

theorem Chip.OnlyMemory.flog_eq {c d : Chip} (h : c.OnlyMemory d) : d.flog = c.flog := by
  obtain ⟨_, _, _, _, _, _, _, _, _, _, _, rfl⟩ := h
  rfl

/-! ## Ending a job leaves the fault log (R491, R492, R507, R592) -/

@[simp] theorem Chip.updJob_flog (c : Chip) (j : Nat) (g : Job → Job) : (c.updJob j g).flog = c.flog := by
  unfold Chip.updJob
  split <;> rfl

@[simp] theorem Chip.dropInFlight_flog (c : Chip) (j : Nat) : (c.dropInFlight j).flog = c.flog := by
  obtain ⟨_, _, h, -, -⟩ := c.dropInFlight_sameButWalkers j
  rw [h]
  rfl

@[simp] theorem Chip.leaveGroup_flog (c : Chip) (j : Nat) (x : Job) : (c.leaveGroup j x).flog = c.flog := by
  unfold Chip.leaveGroup
  dsimp only
  rw [iter_flog (fun _ _ => by rfl)]
  refine (foldl_flog (fun c s => foldl_flog (fun _ _ => by rfl) _ c) _ _).trans ?_
  refine (foldl_flog (fun _ _ => by rfl) _ _).trans ?_
  exact c.dropInFlight_flog j

@[simp] theorem Chip.flushAlloc_flog (c : Chip) (id : Nat) : (c.flushAlloc id).flog = c.flog :=
  iter_flog (fun f c => by
    dsimp only
    split <;> rfl) 5 c

@[simp] theorem Chip.freeAlloc_flog (c : Chip) (id : Nat) : (c.freeAlloc id).flog = c.flog := by
  unfold Chip.freeAlloc
  split
  · rfl
  · dsimp only
    split
    · exact (Chip.zeroAlloc_only _ _).flog_eq.trans (c.flushAlloc_flog id)
    · exact c.flushAlloc_flog id

@[simp] theorem Chip.freeJob_flog (c : Chip) (j : Nat) (x : Job) : (c.freeJob j x).flog = c.flog := by
  unfold Chip.freeJob
  dsimp only
  rw [Chip.updJob_flog, foldl_flog Chip.freeAlloc_flog, foldl_flog (fun _ _ => by rfl)]

@[simp] theorem Chip.flushOutputs_flog (c : Chip) (hs : List Nat) : (c.flushOutputs hs).flog = c.flog :=
  foldl_flog (fun _ _ => by rfl) _ c

@[simp] theorem Chip.writeRecord_flog (c : Chip) (q : Nat) (r : Record) : (c.writeRecord q r).flog = c.flog := by
  obtain ⟨_, _, _, ⟨_, _, _, _, _, _, _, _, _, _, _, rfl⟩, h⟩ := c.writeRecord_eq q r
  rw [h]
  rfl

theorem Chip.tamperJob_flog (c : Chip) (j : Nat) : (c.tamperJob j).flog = c.flog := by
  unfold Chip.tamperJob
  split
  · rfl
  · next x _ =>
    split
    · rfl
    · extract_lets left q d
      have hleft : left.flog = c.flog := by
        simp only [left]
        split
        · exact c.leaveGroup_flog j x
        · rfl
      have hended : d.flog = c.flog := (Chip.updJob_flog ..).trans ((Chip.freeJob_flog ..).trans hleft)
      split
      · rw [Chip.writeRecord_flog, Chip.updJob_flog, Chip.flushOutputs_flog, hended]
      · exact hended

/-! ## The response (R591, R592) -/

theorem Chip.log_find (c : Chip) (r : FaultRec) :
    (c.log r).flog.recs.find? (c.flog.written % 4096) = some { r with stamp := c.now } := by
  obtain ⟨_, h⟩ := c.log_eq r
  rw [h]
  exact (Tbl.find?_put ..).trans (if_pos rfl)

/-- The record of a tamper: the lowest sensor, and the number of sensors that have fired at once. -/
def Chip.tamperRec (c : Chip) (n count : Nat) : FaultRec :=
  { faultRec 0 domDevice (c.freeNat.1 % 256) dieDevice 0 with detail := n, count := count }

/-- The response as R592 gives it, before a counted sensor burns its bit. -/
def State.tampered (s : State) (n count : Nat) : State :=
  let s := s.onSec fun x => { x with imageAddr := 0, imageLen := 0, bundle := [], token := [], lmsNext := 0, layers := none,
                                     treesReady := 0, waiting := [], keysErased := true, linkKeysErased := true }
  s.onChip fun c =>
    let (cause, c) := c.freeNat
    let rec0 := faultRec 0 domDevice (cause % 256) dieDevice 0
    let c := c.log { rec0 with detail := n, count := count }
    let c := (c.jobsBy fun _ => true).foldl Chip.tamperJob c
    let c := { c with sessions := [], mailbox := Mailbox.fresh, ports := c.ports.mapVals eraseKeys,
                      heads := c.heads.map endIde }
    { c with pkg := { c.pkg with tampered := true } }

/-- A counted sensor burns a bit (Table 17.7). -/
def State.sensed (s : State) (n : Nat) : State :=
  if counted n then { s with otp := { s.otp with tamperCount := min 32 (s.otp.tamperCount + 1) } } else s

theorem tamper_eq {s : State} {sensors n : Nat} {rest : List Nat} (hfired : (List.range 14).filter (bit sensors) = n :: rest)
    (halive : s.chip.alive = true) : tamper sensors s = (s.tampered n (rest.length + 1)).sensed n := by
  rw [tamper, hfired]
  exact if_neg (by simp [halive])

theorem State.sensed_chip (s : State) (n : Nat) : (s.sensed n).chip = s.chip ∧ (s.sensed n).sec = s.sec ∧
    (s.sensed n).otp.tamperCount = if counted n then min 32 (s.otp.tamperCount + 1) else s.otp.tamperCount := by
  unfold State.sensed
  split <;> exact ⟨rfl, rfl, rfl⟩

/-- Its record is the only one that the response writes. -/
theorem State.tampered_flog (s : State) (n count : Nat) :
    (s.tampered n count).chip.flog = ((s.chip.spend 1).log (s.chip.tamperRec n count)).flog := by
  unfold State.tampered
  dsimp only [State.onChip, State.onSec, Chip.freeNat]
  exact foldl_flog Chip.tamperJob_flog _ _

/-- Settles O32: ending the jobs writes no record, so the log holds the response's one, and what is erased is erased after it. -/
theorem tamperErases : Obligations.TamperErases := by
  unfold Obligations.TamperErases
  intro s sensors n rest hlt hfired halive
  obtain ⟨hchip, hsec, hcount⟩ := (s.tampered n (rest.length + 1)).sensed_chip n
  refine ⟨_, (meaning_of_wf (i := .tamper sensors) (decide_eq_true hlt)).trans (congrArg _ (tamper_eq hfired halive)), ?_⟩
  rw [hchip, hsec, hcount, State.tampered_flog]
  refine ⟨rfl, rfl, rfl, rfl, rfl, rfl, rfl, rfl, rfl, ?keys, fun h hh => ?ide, Chip.log_written _ _,
    ⟨_, Chip.log_find _ _, rfl, rfl, rfl⟩, rfl⟩
  case keys =>
    exact Tbl.forall_mapVals (f := eraseKeys) (P := fun x => x.linkKey = [] ∧ x.linkSalt = []) fun _ => ⟨rfl, rfl⟩
  case ide =>
    obtain ⟨_, -, rfl⟩ := List.mem_map.1 hh
    rfl

end Sys2Proof.Machine
end

section
/-!
Faults (R504 to R518, R525, R546, R576): what a fence of jobs leaves of the Beads, and what the device fault leaves of the part; then
the causes, the domains that they fence, and the ways in which those return or leave service.
-/
namespace Sys2Proof.Machine
open Sys2Proof Sys2Proof.Claims

/-! ## Fences of jobs leave the Beads' standing (R505 to R507, R574) -/

/-- Every Bead stands in `d` as in `c`, beside its program, its waits and its synchronization objects. -/
structure Chip.BeadsStand (c d : Chip) : Prop where
  bead : ∀ p, (d.bead p).standing = (c.bead p).standing

namespace Chip.BeadsStand
variable {c d e : Chip}

theorem of_beads (h : d.beads = c.beads) : c.BeadsStand d := ⟨fun p => by rw [Chip.bead, h, Chip.bead]⟩

theorem refl (c : Chip) : c.BeadsStand c := of_beads rfl

theorem trans (h1 : c.BeadsStand d) (h2 : d.BeadsStand e) : c.BeadsStand e :=
  ⟨fun p => (h2.bead p).trans (h1.bead p)⟩

theorem foldl {α : Type} {f : Chip → α → Chip} (hf : ∀ (c : Chip) (a : α), c.BeadsStand (f c a)) (l : List α) (c : Chip) :
    c.BeadsStand (l.foldl f c) := foldl_keeps _ refl (fun _ _ _ => trans) f hf l c

theorem setBead {p : Nat} {b : BeadSt} (h : b.standing = (c.bead p).standing) : c.BeadsStand (c.setBead p b) where
  bead q := by
    rw [Chip.setBead_bead]
    split
    · next hq => rw [h, hq]
    · rfl

theorem ofSends (h : c.Sends d) : c.BeadsStand d := ⟨h.bead⟩

theorem updJob (c : Chip) (j : Nat) (g : Job → Job) : c.BeadsStand (c.updJob j g) := by
  unfold Chip.updJob
  split <;> exact of_beads rfl

theorem ringFenceOut (c : Chip) (r session : Nat) : c.BeadsStand (c.ringFenceOut r session) := by
  unfold Chip.ringFenceOut
  split
  · exact refl c
  · dsimp only
    split
    · exact of_beads rfl
    · exact trans (trans (d := (c.setRing r _).updRingRun r _) (of_beads rfl) (ofSends (.sendNext ..))) (ofSends (.sendPrev ..))

theorem ringResumeOut (c : Chip) (r : Nat) : c.BeadsStand (c.ringResumeOut r) := by
  unfold Chip.ringResumeOut
  split
  · exact ofSends (.sendNext ..)
  · exact refl c

theorem ringHold (c : Chip) (j r : Nat) : c.BeadsStand (c.ringHold j r) := by
  unfold Chip.ringHold
  split
  · exact refl c
  · split
    · exact refl c
    · split
      · exact trans (updJob ..) (ringResumeOut ..)
      · exact updJob ..

theorem ringTell (c : Chip) (j r : Nat) : c.BeadsStand (c.ringTell j r) := by
  unfold Chip.ringTell
  split
  · exact refl c
  · exact trans (ringFenceOut ..) (ringHold ..)

/-- A stopped Bead keeps its standing. -/
theorem stopJob (c : Chip) (j : Nat) (x : Job) : c.BeadsStand (c.stopJob j x) := by
  obtain ⟨_, _, hdropped, -, -⟩ := c.dropInFlight_sameButWalkers j
  refine trans (d := c.dropInFlight j) (of_beads (by rw [hdropped]; rfl)) ?_
  refine trans (d := (c.dropInFlight j).updGroup x _) (foldl (fun _ _ => ?_) _ _) (of_beads rfl)
  exact setBead rfl

theorem halted (c : Chip) (j : Nat) (x : Job) : c.BeadsStand (c.halted j x) := by
  unfold Chip.halted
  split
  · exact stopJob ..
  · exact of_beads rfl

theorem log (c : Chip) (r : FaultRec) : c.BeadsStand (c.log r) := of_beads (c.log_beads r)

theorem fenceCore (c : Chip) (j : Nat) (o : Origin) (raised : Option (Nat × Nat)) (force : Option Nat) :
    c.BeadsStand (c.fenceCore j o raised force) := by
  cases hjob : c.job? j with
  | none => simpa [Chip.fenceCore, hjob] using refl c
  | some x =>
    cases hfence : x.fenceable with
    | false => exact (Chip.fenceCore_not_fenceable hjob hfence o raised force).symm ▸ refl c
    | true =>
      rw [Chip.fenceCore_fenceable hjob hfence]
      exact trans (d := (c.halted j x).setJob j _) (trans (halted c j x) (of_beads rfl)) (log _ _)

theorem fenceJob (c : Chip) (j : Nat) (o : Origin) (raised : Option (Nat × Nat)) : c.BeadsStand (c.fenceJob j o raised) := by
  unfold Chip.fenceJob Chip.fenceJobWith
  split
  · exact refl c
  · split
    · exact refl c
    · exact trans (fenceCore ..) (foldl (fun c r => ringTell c j r) _ _)

end Chip.BeadsStand

@[simp] theorem Chip.fenceJob_besideJobs (c : Chip) (j : Nat) (o : Origin) (raised : Option (Nat × Nat)) :
    (c.fenceJob j o raised).besideJobs = c.besideJobs := c.fenceJobWith_besideJobs j o raised none

@[simp] theorem Chip.fenceJobs_besideJobs (c : Chip) (f : Job → Bool) (o : Origin) : (c.fenceJobs f o).besideJobs = c.besideJobs :=
  foldl_besideJobs (fun c j => c.fenceJob_besideJobs j o none) _ c

/-! ## The device fault (R517, R547) -/

/-- The part beside its jobs, its heads and the conditions of its package. -/
def Chip.besideService (c : Chip) : Chip := { c.besideJobs with heads := [], pkg := Chip.reset.pkg }

theorem Chip.besideService_of_jobs {c d : Chip} (h : d.besideJobs = c.besideJobs) : d.besideService = c.besideService :=
  congrArg (fun c : Chip => { c with heads := [], pkg := Chip.reset.pkg }) h

theorem Chip.setPkg_besideService (c : Chip) (p : PkgSt) : { c with pkg := p }.besideService = c.besideService := rfl

@[simp] theorem Chip.noteHeads_besideService (o c : Chip) : (o.noteHeads c).besideService = c.besideService := by
  obtain ⟨_, h⟩ := o.noteHeads_eq c
  rw [h]
  rfl

theorem iter_besideService {f : Nat → Chip → Chip} (hf : ∀ i c, (f i c).besideService = c.besideService) (n : Nat) (c : Chip) :
    (iter n f c).besideService = c.besideService :=
  iter_keeps (fun c d : Chip => d.besideService = c.besideService) (fun _ => rfl) (fun _ _ _ h1 h2 => h2.trans h1) n f hf c

@[simp] theorem Chip.announceFault_besideService (c : Chip) : c.announceFault.besideService = c.besideService := by
  unfold Chip.announceFault
  rw [Chip.noteHeads_besideService, iter_besideService fun h c => ?_]
  · rfl
  · split <;> rfl

/-- The device fault leaves all units as they are. -/
@[simp] theorem Chip.deviceFault_besideService (c : Chip) (cause : Nat) : (c.deviceFault cause).besideService = c.besideService := by
  unfold Chip.deviceFault
  split
  · rfl
  · rw [Chip.announceFault_besideService, Chip.setPkg_besideService]
    exact Chip.besideService_of_jobs ((Chip.fenceJobs_besideJobs ..).trans (Chip.log_besideJobs ..))

/-! ## The causes (R504, Table 15.1) -/

theorem causeFits.wf {f : FaultEvent} (h : causeFits f) : f.wf = true := by
  obtain ⟨hcause, hunit, hsub, hdetail⟩ := h
  simpa [FaultEvent.wf, fits] using ⟨⟨⟨hcause, hunit⟩, hsub⟩, hdetail⟩

theorem exec_fault {s : State} {f : FaultEvent} {d : Chip} (hfits : causeFits f) (halive : s.chip.alive = true)
    (h : faultOf f s.chip = d) : exec (.fault f) s = .next (inState s d) :=
  exec_onChip (f := fun c => if c.alive then faultOf f c else c) rfl (causeFits.wf hfits) ((if_pos halive).trans h)

section
variable {f : FaultEvent} {c : Chip}

theorem faultOf_bank (h : f.cause = 0x01) (hunit : f.unit < 600) (hsub : f.sub < 4) :
    faultOf f c = c.beadFault f.unit domBank f.cause f.sub f.detail := by
  simp only [faultOf, h, hunit, hsub, decide_true, Bool.and_self, if_true]

theorem faultOf_bead (hlow : 2 ≤ f.cause) (hhigh : f.cause ≤ 5) (hunit : f.unit < 600) :
    faultOf f c = c.beadFault f.unit domBead f.cause 0 f.detail := by
  obtain h | h | h | h : f.cause = 2 ∨ f.cause = 3 ∨ f.cause = 4 ∨ f.cause = 5 := by omega
  all_goals simp only [faultOf, h, hunit, if_true]

theorem faultOf_segment (h : f.cause = 0x06) (hunit : f.unit < 40) :
    faultOf f c = c.segmentFault (f.unit / 8) (f.unit % 8) f.cause f.detail := by
  simp only [faultOf, h, hunit, if_true]

theorem faultOf_facet (hlow : 7 ≤ f.cause) (hhigh : f.cause ≤ 0x0A) (hunit : f.unit < 5) :
    faultOf f c = c.facetFault f.unit f.cause f.detail := by
  obtain h | h | h | h : f.cause = 7 ∨ f.cause = 8 ∨ f.cause = 9 ∨ f.cause = 10 := by omega
  all_goals simp only [faultOf, h, hunit, if_true]

theorem faultOf_pc (h : f.cause = 0x0C) (hunit : f.unit < 640) : faultOf f c = c.losePc f.unit f.detail := by
  simp only [faultOf, h, hunit, if_true]

theorem faultOf_stack (h : f.cause = 0x0D) (hunit : f.unit < 20) : faultOf f c = c.faultStack f.unit f.detail := by
  simp only [faultOf, h, hunit, if_true]

theorem faultOf_pair (hlow : 0x0E ≤ f.cause) (hhigh : f.cause ≤ 0x0F) (hunit : f.unit < 8) :
    faultOf f c = c.pairFault f.unit f.cause f.detail := by
  obtain h | h : f.cause = 14 ∨ f.cause = 15 := by omega
  all_goals simp only [faultOf, h, hunit, if_true]

theorem faultOf_port (h : f.cause = 0x10) (hunit : f.unit < 12) : faultOf f c = c.portFault f.unit f.detail := by
  simp only [faultOf, h, hunit, if_true]

theorem faultOf_clasp (hlow : 0x11 ≤ f.cause) (hhigh : f.cause ≤ 0x14) (hunit : f.unit < 2) :
    faultOf f c = c.claspFault f.unit f.cause f.detail := by
  obtain h | h | h | h : f.cause = 17 ∨ f.cause = 18 ∨ f.cause = 19 ∨ f.cause = 20 := by omega
  all_goals simp only [faultOf, h, hunit, if_true]

theorem faultOf_edge (h : f.cause = 0x15) (hunit : f.unit < 18) : faultOf f c = c.edgeFault f.unit := by
  simp only [faultOf, h, hunit, if_true]

end

theorem causesFenceTheirDomains : CausesFenceTheirDomains := by
  intro s f hfits halive
  have hexec {d : Chip} : faultOf f s.chip = d → exec (.fault f) s = .next (inState s d) := exec_fault hfits halive
  exact ⟨fun h hunit hsub => hexec (faultOf_bank h hunit hsub), fun hlow hhigh hunit => hexec (faultOf_bead hlow hhigh hunit),
    fun h hunit => hexec (faultOf_segment h hunit), fun hlow hhigh hunit => hexec (faultOf_facet hlow hhigh hunit),
    fun h hunit => hexec (faultOf_pc h hunit), fun h hunit => hexec (faultOf_stack h hunit),
    fun hlow hhigh hunit => hexec (faultOf_pair hlow hhigh hunit), fun h hunit => hexec (faultOf_port h hunit),
    fun hlow hhigh hunit => hexec (faultOf_clasp hlow hhigh hunit), fun h hunit => hexec (faultOf_edge h hunit)⟩

/-! ## Beads (R505, R506) -/

/-- A Bead that a fault has fenced, with record `n`. -/
def BeadSt.fencedAt (b : BeadSt) (n : Nat) : BeadSt := { b with svc := .fenced, fences := b.fences + 1, fenceRec := some n }

section
variable {c : Chip} {p : Nat} (hfacet : (c.facet (physFacet p)).svc = .inService)
  (hseg : ((c.facet (physFacet p)).segs.getD (physRow p) SegSt.fresh).svc = .inService)
include hfacet hseg

theorem Chip.beadFault_again (hbead : (c.bead p).svc ≠ .inService) (dom cause sub detail : Nat) :
    c.beadFault p dom cause sub detail = c.foldFault (c.bead p).fenceRec := by
  rw [Chip.beadFault, if_neg (by simp [hfacet]), if_neg (by simp only [hseg]; decide), if_pos (by simpa using hbead)]

variable (hbead : (c.bead p).svc = .inService)
include hbead

theorem Chip.beadFault_unbound (hjob : (c.bead p).job = none) (dom cause sub detail : Nat) :
    c.beadFault p dom cause sub detail =
      (c.log (hwRec dom cause (dieFacet (physFacet p)) p sub detail)).setBead p ((c.bead p).fencedAt c.flog.written) := by
  rw [Chip.beadFault, if_neg (by simp [hfacet]), if_neg (by simp only [hseg]; decide), if_neg (by simp [hbead])]
  dsimp only
  split
  · next h => cases hjob.symm.trans h
  · rfl

theorem Chip.beadFault_bound {j : Nat} (hjob : (c.bead p).job = some j) (dom cause sub detail : Nat) :
    c.beadFault p dom cause sub detail =
      ((c.log (hwRec dom cause (dieFacet (physFacet p)) p sub detail)).setBead p ((c.bead p).fencedAt c.flog.written)).fenceJob j
        { domain := dom, cause := cause, die := dieFacet (physFacet p), unit := p, detail := 0 } none := by
  rw [Chip.beadFault, if_neg (by simp [hfacet]), if_neg (by simp only [hseg]; decide), if_neg (by simp [hbead])]
  dsimp only
  split
  · next h =>
    cases hjob.symm.trans h
    rfl
  · next h => cases hjob.symm.trans h

/-- The Bead that a first fault leaves. -/
theorem Chip.beadFault_bead (dom cause sub detail : Nat) :
    ((c.beadFault p dom cause sub detail).bead p).standing = ((c.bead p).fencedAt c.flog.written).standing := by
  have hset (r : FaultRec) : ((c.log r).setBead p ((c.bead p).fencedAt c.flog.written)).bead p =
      (c.bead p).fencedAt c.flog.written := (Chip.setBead_bead ..).trans (if_pos rfl)
  cases hjob : (c.bead p).job with
  | none => rw [Chip.beadFault_unbound hfacet hseg hbead hjob, hset]
  | some j => rw [Chip.beadFault_bound hfacet hseg hbead hjob, (Chip.BeadsStand.fenceJob ..).bead, hset]

end

@[simp] theorem Chip.log_bead (c : Chip) (r : FaultRec) (p : Nat) : (c.log r).bead p = c.bead p := by
  rw [Chip.bead, Chip.log_beads, Chip.bead]

theorem Chip.foldFault_beads (c : Chip) (n : Option Nat) : (c.foldFault n).beads = c.beads := by
  unfold Chip.foldFault
  split
  · rfl
  · split
    · split <;> rfl
    · rfl

theorem beadFaultsFence : BeadFaultsFence := by
  intro c p dom cause sub detail hfacet hseg
  refine ⟨fun hbead hjob => ⟨_, rfl, ?_⟩, fun hbead => ?_⟩
  · rw [Chip.beadFault_unbound hfacet hseg hbead hjob]
    refine ⟨?_, ?_, ?_, Chip.log_written _ _, fun q hq => ?_, Chip.log_jobs _ _, Chip.log_find _ _⟩
    · simp [BeadSt.fencedAt]
    · simp [BeadSt.fencedAt]
    · simp [BeadSt.fencedAt]
    · simp [hq]
  · rw [Chip.beadFault_again hfacet hseg hbead]
    exact ⟨rfl, Chip.foldFault_beads _ _⟩

/-! ## The other domains (R505, R510, R512, R515, R576) -/

section
variable {c d : Chip} (h : d.besideJobs = c.besideJobs)
include h

theorem Chip.facet_of_besideJobs (f : Nat) : d.facet f = c.facet f := (congrArg (fun c : Chip => c.facet f) h :)
theorem Chip.pair_of_besideJobs (e : Nat) : d.pair e = c.pair e := (congrArg (fun c : Chip => c.pair e) h :)

end

/-- A row's segment of a faulted mesh. -/
theorem Chip.segmentFault_segs {c : Chip} {f row : Nat} (hfacet : (c.facet f).svc = .inService)
    (hseg : ((c.facet f).segs.getD row SegSt.fresh).svc = .inService) (cause detail : Nat) :
    ((c.segmentFault f row cause detail).facet f).segs = (c.facet f).segs.set row
      { svc := .fenced, fences := ((c.facet f).segs.getD row SegSt.fresh).fences + 1, fenceRec := some c.flog.written } := by
  rw [Chip.segmentFault, if_neg (by simp [hfacet]), if_neg (by simp only [hseg]; decide)]
  dsimp only
  rw [Chip.facet_of_besideJobs (Chip.fenceJobs_besideJobs ..), Chip.setFacet_facet, if_pos rfl]

theorem Chip.poisonBurst_facets (c : Chip) (b : Nat) : (c.poisonBurst b).facets = c.facets := by
  unfold Chip.poisonBurst
  split <;> rfl

theorem Chip.dropLine_facets (c : Chip) (l : DirtyLine) : (c.dropLine l).facets = c.facets :=
  foldl_keeps (fun c d : Chip => d.facets = c.facets) (fun _ => rfl) (fun _ _ _ h1 h2 => h2.trans h1) _
    (fun c _ => c.poisonBurst_facets _) _ { c with hbm := _ }

/-- A Casket whose dirty lines are dropped has none. -/
theorem Chip.dropLines_facet (c : Chip) (f : Nat) : (c.dropLines f).facet f = { c.facet f with dirty := [] } := by
  have hlines : ((c.facet f).dirty.foldl Chip.dropLine c).facets = c.facets :=
    foldl_keeps (fun c d : Chip => d.facets = c.facets) (fun _ => rfl) (fun _ _ _ h1 h2 => h2.trans h1) _ Chip.dropLine_facets _ c
  rw [Chip.dropLines, Chip.updFacet_eq, Chip.setFacet_facet, if_pos rfl, Chip.facet, hlines, Chip.facet]

theorem Chip.fenceJobList_besideJobs (c : Chip) (js : List Nat) (o : Origin) :
    (js.foldl (fun c j => c.fenceJob j o none) c).besideJobs = c.besideJobs :=
  foldl_besideJobs (fun c j => c.fenceJob_besideJobs j o none) js c

theorem Chip.facetFault_facet {c : Chip} {f : Nat} (hfacet : (c.facet f).svc = .inService) (cause detail : Nat) :
    (c.facetFault f cause detail).facet f = { c.facet f with svc := .fenced, fenceRec := some c.flog.written, dirty := [] } := by
  rw [Chip.facetFault, if_neg (by simp [hfacet])]
  dsimp only
  rw [Chip.facet_of_besideJobs (Chip.fenceJobList_besideJobs ..), Chip.updFacet_eq, Chip.setFacet_facet, if_pos rfl,
    Chip.dropLines_facet, Chip.poolLinesLost]
  simp [Chip.facet]

theorem Chip.pairFault_pair {c : Chip} {e : Nat} (hpair : (c.pair e).svc = .inService) (cause detail : Nat) :
    (c.pairFault e cause detail).pair e =
      { c.pair e with svc := .fenced, fences := (c.pair e).fences + 1, fenceRec := some c.flog.written } := by
  rw [Chip.pairFault, if_neg (by simp [hpair])]
  dsimp only
  split
  · rw [Chip.pair_of_besideJobs (Chip.fenceJob_besideJobs ..), Chip.setPair_pair, if_pos rfl]
  · rw [Chip.setPair_pair, if_pos rfl]

@[simp] theorem Chip.log_stack (c : Chip) (r : FaultRec) (n : Nat) : (c.log r).stack n = c.stack n := by
  rw [Chip.stack, Chip.log_stackTab, Chip.stack]

theorem Chip.faultStack_first {c : Chip} {st : Nat} (hstack : (c.stack st).st < 2) (detail : Nat) :
    ((c.faultStack st detail).stack st).st = 2 ∧ ((c.faultStack st detail).stack st).fenceStamp = c.now ∧
      (c.faultStack st detail).flog.written = (c.flog.written + 1) % 2 ^ 32 := by
  rw [Chip.faultStack, if_neg (by omega)]
  dsimp only
  refine ⟨?_, ?_, ?_⟩
  · rw [Chip.log_stack, Chip.setStack_stack, if_pos rfl]
  · rw [Chip.log_stack, Chip.setStack_stack, if_pos rfl]
    split <;> rfl
  · rw [Chip.log_written]
    split <;> rfl

theorem Chip.deviceFault_edgesOut (c : Chip) (cause : Nat) : (c.deviceFault cause).edgesOut = c.edgesOut :=
  (congrArg Chip.edgesOut (c.deviceFault_besideService cause) :)

theorem Chip.edgeFault_edgesOut {c : Chip} {e : Nat} (h : c.edgesOut.contains e = false) :
    (c.edgeFault e).edgesOut = c.edgesOut ++ [e] := by
  rw [Chip.edgeFault, if_neg (by rw [h]; decide)]
  dsimp only
  split
  · rw [Chip.deviceFault_edgesOut, Chip.log_edgesOut, Chip.log_edgesOut]
  · rw [Chip.log_edgesOut, Chip.log_edgesOut]

/-! ## A pseudo-channel (R429, R431 to R433) -/

/-- Every pseudo-channel is in `d` in the condition that it has in `c`. -/
structure Chip.PcsHold (c d : Chip) : Prop where
  st : ∀ i, (d.pcSt i).st = (c.pcSt i).st
  fenceRec : ∀ i, (d.pcSt i).fenceRec = (c.pcSt i).fenceRec

namespace Chip.PcsHold
variable {c d e : Chip}

theorem of_pcs (h : d.pcs = c.pcs) : c.PcsHold d :=
  ⟨fun i => by rw [Chip.pcSt, h, Chip.pcSt], fun i => by rw [Chip.pcSt, h, Chip.pcSt]⟩

theorem refl (c : Chip) : c.PcsHold c := of_pcs rfl

theorem trans (h1 : c.PcsHold d) (h2 : d.PcsHold e) : c.PcsHold e :=
  ⟨fun i => (h2.st i).trans (h1.st i), fun i => (h2.fenceRec i).trans (h1.fenceRec i)⟩

theorem setPc {pc : Nat} {x : PcSt} (hst : x.st = (c.pcSt pc).st) (hrec : x.fenceRec = (c.pcSt pc).fenceRec) :
    c.PcsHold (c.setPc pc x) where
  st i := by
    rw [Chip.setPc_pcSt]
    split
    · next hi => rw [hi, hst]
    · rfl
  fenceRec i := by
    rw [Chip.setPc_pcSt]
    split
    · next hi => rw [hi, hrec]
    · rfl

theorem partDone (c : Chip) (gone : Bool) (r : MemReq) : c.PcsHold (c.partDone gone r) := by
  unfold Chip.partDone
  split
  · exact refl c
  · split
    · exact refl c
    · extract_lets w rest
      split <;> exact of_pcs rfl

theorem cancelQueue (c : Chip) (pc : Nat) : c.PcsHold (c.cancelQueue pc) := by
  refine trans (d := c.setPc pc _) ?_ (foldl_keeps _ refl (fun _ _ _ => trans) _ (fun c r => partDone c true r) _ _)
  exact setPc rfl rfl

theorem deviceFault (c : Chip) (cause : Nat) : c.PcsHold (c.deviceFault cause) :=
  of_pcs (congrArg Chip.pcs (c.deviceFault_besideService cause) :)

theorem stackLost (c : Chip) (st cause : Nat) : c.PcsHold (c.stackLost st cause) := by
  have hqueues := iter_keeps _ refl (fun _ _ _ => trans) 32 _ (fun i c => cancelQueue c (32 * st + i)) c
  unfold Chip.stackLost
  generalize iter 32 _ c = d at hqueues ⊢
  refine trans hqueues (trans (of_pcs ?_) (deviceFault _ cause))
  rfl

theorem stackOut (c : Chip) (st n : Nat) : c.PcsHold (c.stackOut st n) := by
  refine trans (d := (c.log _).updStack st _) (of_pcs ?_) (stackLost _ st 0x0C)
  exact Chip.log_pcs _ _

theorem trainFrom (c : Chip) (st i : Nat) : c.PcsHold (c.trainFrom st i) := by
  unfold Chip.trainFrom
  split <;> exact of_pcs rfl

end Chip.PcsHold

/-- A lost pseudo-channel, whether its stack is lost with it or not. -/
theorem Chip.losePc_pcSt {c : Chip} {pc : Nat} (hstack : (c.stack (pcStack pc)).st < 2) (hpc : (c.pcSt pc).st < 2) (reason : Nat) :
    ((c.losePc pc reason).pcSt pc).st = 2 ∧ ((c.losePc pc reason).pcSt pc).fenceRec = some c.flog.written := by
  rw [Chip.losePc, if_neg (by omega), if_neg (by omega)]
  extract_lets n die logged lost sliced trained
  have hlost : lost.pcSt pc = { c.pcSt pc with st := 2, fenceRec := some n, owed := [] } :=
    (Chip.setPc_pcSt ..).trans (if_pos rfl)
  have htrained : lost.PcsHold trained := by
    have hsliced : sliced.pcs = lost.pcs := by simp only [sliced, Chip.updStack_eq, Chip.setStack_pcs]
    refine .trans (.of_pcs hsliced) ?_
    simp only [trained]
    split
    · exact .trainFrom ..
    · exact .refl _
  have hend {d : Chip} (h : trained.PcsHold d) : (d.pcSt pc).st = 2 ∧ (d.pcSt pc).fenceRec = some c.flog.written :=
    ⟨((htrained.trans h).st pc).trans (by rw [hlost]), ((htrained.trans h).fenceRec pc).trans (by rw [hlost])⟩
  clear_value trained
  split
  · exact hend (.stackOut ..)
  · refine hend (.of_pcs ?_)
    exact (congrArg Chip.pcs (Chip.fenceJobs_besideJobs ..) :)

/-! ## A Clasp (R515, R516, R546) -/

/-- `d` has the Clasps and the tick of `c`. -/
structure Chip.ClaspsStand (c d : Chip) : Prop where
  clasps : d.clasps = c.clasps
  tick : d.tick = c.tick

namespace Chip.ClaspsStand
variable {c d e : Chip}

theorem refl (c : Chip) : c.ClaspsStand c := ⟨rfl, rfl⟩

theorem trans (h1 : c.ClaspsStand d) (h2 : d.ClaspsStand e) : c.ClaspsStand e :=
  ⟨h2.clasps.trans h1.clasps, h2.tick.trans h1.tick⟩

theorem of_memory (h : c.OnlyMemory d) : c.ClaspsStand d := by
  obtain ⟨_, _, _, _, _, _, _, _, _, _, _, rfl⟩ := h
  exact ⟨rfl, rfl⟩

theorem of_besideService (h : d.besideService = c.besideService) : c.ClaspsStand d :=
  ⟨(congrArg Chip.clasps h :), (congrArg Chip.tick h :)⟩

theorem of_besideJobs (h : d.besideJobs = c.besideJobs) : c.ClaspsStand d := of_besideService (Chip.besideService_of_jobs h)

theorem log (c : Chip) (r : FaultRec) : c.ClaspsStand (c.log r) := ⟨Chip.log_clasps .., Chip.log_tick ..⟩

theorem linkDown (c : Chip) (h st : Nat) : c.ClaspsStand (c.linkDown h st) :=
  trans (d := { c.updHead h _ with held := _ }) ⟨rfl, rfl⟩ (of_memory (Chip.releaseBi_only _))

theorem dropPorts (c : Chip) (n k : Nat) : c.ClaspsStand (c.dropPorts n k) := by
  refine iter_keeps _ refl (fun _ _ _ => trans) 6 _ (fun i c => ?_) c
  dsimp only
  split
  · exact refl c
  · exact trans (d := c.setPort _ _) ⟨rfl, rfl⟩ (log _ _)

end Chip.ClaspsStand

/-- A Clasp reads as it was last changed. -/
theorem Chip.clasp_updClasp {c : Chip} {n : Nat} (hn : n < c.clasps.length) (g : ClaspSt → ClaspSt) :
    (c.updClasp n g).clasp n = g (c.clasp n) := by
  simp [Chip.clasp, Chip.updClasp, modAt, List.getD_eq_getElem?_getD, hn]

/-- A Clasp that is fenced waits for its takeover, and is not the primary (R25, R516). -/
theorem Chip.claspFault_clasp {c : Chip} {n : Nat} (hn : n < c.clasps.length) (hclasp : (c.clasp n).svc = .inService)
    (cause detail : Nat) : ((c.claspFault n cause detail).clasp n).svc = .fenced ∧
      ((c.claspFault n cause detail).clasp n).takeoverDue = some c.now ∧ (c.claspFault n cause detail).tick.primary ≠ n := by
  rw [Chip.claspFault, if_neg (by simp [hclasp])]
  extract_lets k logged hit o fenced dropped left tick pkg flagged passed
  have hfenced : fenced.clasp n = { c.clasp n with svc := .fenced, fenceRec := some k, takeoverDue := some c.now } := by
    have hlogged : logged.clasps = c.clasps := (Chip.log_clasps ..).trans (Chip.log_clasps ..)
    exact (Chip.clasp_updClasp (hlogged.symm ▸ hn) _).trans (by rw [Chip.clasp, hlogged, Chip.clasp])
  have hdropped : fenced.ClaspsStand dropped := .trans (.linkDown ..) (.dropPorts ..)
  have hleft : dropped.ClaspsStand left := .of_besideJobs (Chip.fenceJobList_besideJobs ..)
  have hpassed : flagged.ClaspsStand passed := .of_besideService (Chip.noteHeads_besideService ..)
  have hclasp : passed.clasp n = fenced.clasp n := by
    rw [Chip.clasp, hpassed.clasps, Chip.clasp, ← hdropped.clasps, ← hleft.clasps]
  have hprimary : passed.tick.primary ≠ n := by
    rw [hpassed.tick]
    dsimp only [flagged, tick]
    split <;> omega
  clear_value passed
  have hend {d : Chip} (h : passed.ClaspsStand d) :
      (d.clasp n).svc = .fenced ∧ (d.clasp n).takeoverDue = some c.now ∧ d.tick.primary ≠ n := by
    have hd : d.clasp n = fenced.clasp n := (congrArg (·.getD n ClaspSt.fresh) h.clasps).trans hclasp
    rw [hd, hfenced, h.tick]
    exact ⟨rfl, rfl, hprimary⟩
  split
  · exact hend (.of_besideService (Chip.deviceFault_besideService ..))
  · exact hend (.refl _)

theorem getD_set_same {α : Type} {l : List α} {i : Nat} (h : i < l.length) (a d : α) : (l.set i a).getD i d = a := by
  simp [List.getD_eq_getElem?_getD, h]

/-! ## Every domain is taken (R504 to R506, R510, R512, R515, R576) -/

theorem faultsTakeTheirDomains : FaultsTakeTheirDomains := by
  intro s f hfits halive
  have hexec {d : Chip} (h : faultOf f s.chip = d) : exec (.fault f) s = .next (inState s d) := exec_fault hfits halive h
  refine ⟨fun hlow hhigh hunit hfacet hseg hbead => ⟨_, hexec (faultOf_bead hlow hhigh hunit), ?bead⟩,
    fun hcause hunit hfacet hrow hseg => ⟨_, hexec (faultOf_segment hcause hunit), ?segment⟩,
    fun hlow hhigh hunit hfacet => ⟨_, hexec (faultOf_facet hlow hhigh hunit), Chip.facetFault_facet hfacet ..⟩,
    fun hcause hunit hstack hpc => ⟨_, hexec (faultOf_pc hcause hunit), Chip.losePc_pcSt hstack hpc _⟩,
    fun hcause hunit hstack => ⟨_, hexec (faultOf_stack hcause hunit), Chip.faultStack_first hstack _⟩,
    fun hlow hhigh hunit hpair => ⟨_, hexec (faultOf_pair hlow hhigh hunit), Chip.pairFault_pair hpair ..⟩,
    fun hcause hunit hworks hjobs => ⟨_, hexec (faultOf_port hcause hunit), ?port⟩,
    fun hlow hhigh hlen hunit hclasp => ⟨_, hexec (faultOf_clasp hlow hhigh hunit), Chip.claspFault_clasp hlen hclasp ..⟩,
    fun hcause hunit hin => ⟨_, hexec (faultOf_edge hcause hunit), Chip.edgeFault_edgesOut hin⟩⟩
  case bead =>
    have hstanding := Chip.beadFault_bead hfacet hseg hbead domBead f.cause 0 f.detail
    exact ⟨(congrArg BeadSt.svc hstanding :), (congrArg BeadSt.fences hstanding :), (congrArg BeadSt.fenceRec hstanding :)⟩
  case segment =>
    refine (congrArg (·.getD (f.unit % 8) SegSt.fresh) (Chip.segmentFault_segs hfacet hseg f.cause f.detail)).trans ?_
    exact getD_set_same hrow ..
  case port =>
    have hport := Chip.portFault_port hworks hjobs f.detail
    exact ⟨congrArg PortSt.st hport, congrArg PortSt.faults hport⟩

/-- Settles O22: a fence of jobs leaves what the fault has set of its domain. -/
theorem faultsFence : Obligations.FaultsFence := by
  unfold Obligations.FaultsFence
  exact ⟨causesFenceTheirDomains, beadFaultsFence, faultsTakeTheirDomains⟩

@[simp] theorem Chip.log_facet (c : Chip) (r : FaultRec) (f : Nat) : (c.log r).facet f = c.facet f := by
  rw [Chip.facet, Chip.log_facets, Chip.facet]

@[simp] theorem Chip.log_pair (c : Chip) (r : FaultRec) (e : Nat) : (c.log r).pair e = c.pair e := by
  rw [Chip.pair, Chip.log_pairs, Chip.pair]

/-! ## Returns (R508, Table 15.2) -/

theorem fencedDomainsReturnOrLeave : FencedDomainsReturnOrLeave := by
  refine ⟨fun s p ok hp halive hsvc hjob => ⟨_, exec_onChip rfl hp rfl, ?bead⟩,
    fun s f ok hf hsvc hidle => ⟨_, exec_onChip rfl hf rfl, ?facet⟩,
    fun s f row ok hf hrow hlen hsvc hfree => ⟨_, exec_onChip rfl (by simp [Instr.wf, Domain.wf, hf, hrow]) rfl, ?segment⟩,
    fun s e ok he hsvc hstream => ⟨_, exec_onChip rfl (by simp [Instr.wf, Domain.wf, he]) rfl, ?pair⟩⟩
  case bead =>
    rw [selfTestComplete, if_pos (by simp [halive, hsvc, hjob])]
    by_cases hback : ok = true ∧ (s.chip.bead p).fences ≤ 1 <;> simp [inState, hback]
  case facet =>
    simp only [domainReturn]
    rw [if_pos (by simp [hsvc, hidle])]
    cases ok <;> simp [inState]
  case segment =>
    have hleft : (rowBeads f row).all (fun p => (s.chip.bead p).job.isNone) = true :=
      List.all_eq_true.2 fun p hp => by simp [hfree p hp]
    simp only [domainReturn]
    rw [if_pos (by rw [hleft, hsvc]; rfl)]
    refine ⟨?_, Chip.log_written ..⟩
    show (((Chip.log _ _).facet f).segs.getD row SegSt.fresh).svc = _
    rw [Chip.log_facet, Chip.setFacet_facet, if_pos rfl, getD_set_same hlen]
    exact if_congr (by simp) rfl rfl
  case pair =>
    simp only [domainReturn]
    rw [if_pos (by simp [hsvc, hstream])]
    by_cases hback : ok = true ∧ (s.chip.pair e).fences ≤ 1 <;> simp [inState, hback]

/-! ## Edges and Clasps (R510, R516, R517, R546) -/

/-- The part once an edge has left service, with its two records, before a second one makes it a fault of the device. -/
def Chip.edgeLeft (c : Chip) (e : Nat) : Chip :=
  let ends := edgeList.getD e (0, 1)
  { (c.log (hwRec domEdge 0x15 ends.1 ends.2 0 16)).log (faultRec 3 domEdge 0x15 ends.1 ends.2) with
    edgesOut := c.edgesOut ++ [e] }

theorem Chip.edgeFault_eq {c : Chip} {e : Nat} (h : c.edgesOut.contains e = false) :
    c.edgeFault e = if c.edgesOut.isEmpty then c.edgeLeft e else (c.edgeLeft e).deviceFault 0x15 := by
  rw [Chip.edgeFault, if_neg (by rw [h]; decide)]
  dsimp only
  rw [Chip.log_edgesOut, Chip.log_edgesOut]
  cases c.edgesOut.isEmpty <;> rfl

theorem Chip.edgeLeft_written (c : Chip) (e : Nat) : (c.edgeLeft e).flog.written = (c.flog.written + 2) % 2 ^ 32 := by
  rw [Chip.edgeLeft]
  dsimp only
  rw [Chip.log_written, Chip.log_written]
  omega

theorem Chip.edgeLeft_pkg (c : Chip) (e : Nat) : (c.edgeLeft e).pkg = c.pkg := by
  rw [Chip.edgeLeft]
  dsimp only
  rw [Chip.log_pkg, Chip.log_pkg]

theorem Chip.deviceFault_pkg (c : Chip) (cause : Nat) : (c.deviceFault cause).pkg =
    if c.pkg.deviceFault then c.pkg else { c.pkg with deviceFault := true, devState := 3 } := by
  unfold Chip.deviceFault
  split
  · rfl
  · rw [Chip.announceFault_pkg, Chip.fenceJobs_pkg, Chip.log_pkg]

theorem iter_succ {α : Type} (n : Nat) (f : Nat → α → α) (a : α) : iter (n + 1) f a = f n (iter n f a) := by
  simp [iter, List.range_succ]

/-- Queue `q` goes to the surviving Clasp's head if the Clasp of its own is taken over (R546). -/
def Chip.takeQueue (q : Nat) (c : Chip) : Chip :=
  let h := (c.queue q).head
  if (c.clasp h).takeoverDue.isSome then c.updQueue q fun x => { x with active := 1 - h } else c

theorem Chip.takeQueues (c : Chip) (n : Nat) : (iter n Chip.takeQueue c).clasps = c.clasps ∧
    ∀ q, (iter n Chip.takeQueue c).queue q = if q < n ∧ (c.clasp (c.queue q).head).takeoverDue.isSome = true
      then { c.queue q with active := 1 - (c.queue q).head } else c.queue q := by
  induction n with
  | zero => exact ⟨rfl, fun q => by simp [iter]⟩
  | succ n ih =>
    obtain ⟨hclasps, hqueues⟩ := ih
    have hn : (iter n Chip.takeQueue c).queue n = c.queue n := by simp [hqueues n]
    have hclasp (h : Nat) : (iter n Chip.takeQueue c).clasp h = c.clasp h := by rw [Chip.clasp, hclasps, Chip.clasp]
    rw [iter_succ, Chip.takeQueue]
    dsimp only
    rw [hn, hclasp]
    by_cases hdue : (c.clasp (c.queue n).head).takeoverDue.isSome = true
    · rw [if_pos hdue]
      refine ⟨hclasps, fun q => ?_⟩
      rw [Chip.updQueue_eq, Chip.setQueue_queue, hn]
      by_cases hq : q = n
      · subst hq
        simp [hdue]
      · rw [if_neg hq, hqueues q]
        simp [show q < n + 1 ↔ q < n by omega]
    · rw [if_neg hdue]
      refine ⟨hclasps, fun q => ?_⟩
      by_cases hq : q = n
      · subst hq
        simp [hqueues q, hdue]
      · rw [hqueues q]
        simp [show q < n + 1 ↔ q < n by omega]

theorem Chip.all_of_clasp_due {c : Chip} {h : Nat} (hdue : (c.clasp h).takeoverDue.isSome = true) :
    c.clasps.all (·.takeoverDue.isNone) = false := by
  by_contra hall
  have hall := List.all_eq_true.1 (eq_true_of_ne_false hall)
  by_cases hh : h < c.clasps.length
  · have hnone := hall _ (List.getElem_mem hh)
    rw [Chip.clasp, List.getD_eq_getElem _ _ hh] at hdue
    simp_all
  · rw [Chip.clasp, List.getD_eq_default _ _ (by omega)] at hdue
    exact absurd hdue (by decide)

/-- A takeover that is due goes through every queue, and is over for every Clasp. -/
theorem paveTakeover_due {c : Chip} {h : Nat} (hdue : (c.clasp h).takeoverDue.isSome = true) : paveTakeover c =
    { iter 128 Chip.takeQueue c with
      clasps := (iter 128 Chip.takeQueue c).clasps.map fun x => { x with takeoverDue := none } } := by
  rw [paveTakeover, if_neg (by rw [Chip.all_of_clasp_due hdue]; decide)]
  rfl

theorem edgesAndClaspsLeave : EdgesAndClaspsLeave := by
  have hexec {s : State} {e : Nat} (he : e < 18) (halive : s.chip.alive = true) :
      exec (.edgeRetryExhausted e) s = .next (inState s (s.chip.edgeFault e)) :=
    exec_onChip (f := fun c => if c.alive then c.edgeFault e else c) rfl (decide_eq_true he) (if_pos halive)
  refine ⟨fun s e he halive hnone => ⟨_, hexec he halive, ?first⟩,
    fun s e a he hne halive hone => ⟨_, hexec he halive, ?second⟩,
    fun s q hq hdue => ⟨_, exec_onChip rfl rfl (paveTakeover_due hdue), ?takeover⟩⟩
  case first =>
    have heq := Chip.edgeFault_eq (c := s.chip) (e := e) (by simp [hnone])
    rw [if_pos (by simp [hnone])] at heq
    rw [inState, heq]
    exact ⟨by rw [Chip.edgeLeft, hnone]; rfl, Chip.edgeLeft_written .., Chip.edgeLeft_pkg ..⟩
  case second =>
    have hin : s.chip.edgesOut.contains e = false := by simpa [hone] using hne
    have heq := Chip.edgeFault_eq hin
    rw [if_neg (by simp [hone])] at heq
    refine ⟨(Chip.edgeFault_edgesOut hin).trans (by rw [hone]; rfl), ?_⟩
    rw [inState, heq, Chip.deviceFault_pkg, Chip.edgeLeft_pkg]
    by_cases hfault : s.chip.pkg.deviceFault = true
    · rw [if_pos hfault, if_pos hfault]
      exact ⟨hfault, rfl⟩
    · rw [if_neg hfault, if_neg hfault]
      exact ⟨rfl, rfl⟩
  case takeover =>
    obtain ⟨-, hqueues⟩ := s.chip.takeQueues 128
    generalize iter 128 Chip.takeQueue s.chip = d at hqueues
    refine ⟨(congrArg QueueSt.active (hqueues q)).trans ?_, ?_⟩
    · rw [if_pos ⟨of_decide_eq_true hq, hdue⟩]
    · rw [inState, List.all_map]
      exact List.all_eq_true.2 fun _ _ => rfl

/-- Settles O23: each return sets its domain and writes one record; an edge writes two, and a takeover goes through every queue. -/
theorem fencedDomainsReturnOrLeaveService : Obligations.FencedDomainsReturnOrLeaveService := by
  unfold Obligations.FencedDomainsReturnOrLeaveService
  exact ⟨fencedDomainsReturnOrLeave, edgesAndClaspsLeave⟩

end Sys2Proof.Machine
end

section
/-!
The LANE class (R95, R96, R122, R134): a ready vector operation, copy or conversion has its results in the command that runs it.
-/
namespace Sys2Proof.Claims
open Sys2Proof Sys2Proof.Machine

/-- A LANE instruction is picked by its class and its operation code (Table 2.18). -/
theorem byWord_lane_iff (op : Nat) (y : Ctx) : (iClass y.i = 2 && iOp y.i = op) = true ↔ byWord (lane op) y := by
  simp [byWord, lane]

/-- A LANE command whose act has its results at once completes whenever it is ready. -/
theorem completes_lane {cmd : Nat → Instr} {op : Nat} {foot : Ctx → Foot} {cond : Ctx → Chip → Prop} {eff : Ctx → Chip → Chip}
    {act : Nat → Ctx → Chip → Act} (hexec : ∀ p s, exec (cmd p) s = onChip (cmd p) s (issueLane op foot p (act p)))
    (hwf : ∀ p, (cmd p).wf = isBead p) (hact : ∀ x c, cond x c → act x.p x c = .done (eff x c)) :
    Completes cmd (lane op) foot cond eff := by
  intro s p x hready hcond
  obtain ⟨rfl, -⟩ := hready.ctx
  exact hready.completes (hexec _ s) (hwf _) (byWord_lane_iff op) (hact x _ hcond)

/-- A vector operation with `n` sources writes its FP32 results, narrowed (R96). -/
theorem completes_vectorOp {cmd : Nat → Instr} {op n : Nat} {f : Nat → Ctx → Chip → List Val} {g : Ctx → Chip → List Val}
    (hexec : ∀ p s, exec (cmd p) s = onChip (cmd p) s (vectorOp op n p (f p))) (hwf : ∀ p, (cmd p).wf = isBead p)
    (hf : ∀ x c, f x.p x c = g x c) :
    Completes cmd (lane op) (fun x => laneFoot n x.i) always (fun x c => c.writeLanes x (g x c)) :=
  completes_lane (act := fun p x c => .done (c.writeLanes x (f p x c))) hexec hwf fun x c _ => by rw [hf]

end Sys2Proof.Claims

namespace Sys2Proof.Machine
open Sys2Proof Sys2Proof.Claims

/-- NaN and what lies below +0 are not at or above +0 (R95). -/
theorem leakyV_eq (a v : Val) : leakyV a v = if v = .nan ∨ v.lt .zero = true then mulF v a else v := by
  have hnan : v = .nan ↔ v.isNaN = true := by cases v <;> simp [Val.isNaN]
  simp only [leakyV, hnan]
  cases v.isNaN <;> cases v.lt .zero <;> rfl

theorem vectorArithmeticCompletes : VectorArithmeticCompletes := by
  refine ⟨?add, ?subtract, ?multiply, ?fma, ?maximum, ?minimum, ?abs, ?negate, ?relu, ?leaky, ?affine, ?sum, ?max⟩
  case add => exact completes_vectorOp (fun _ _ => rfl) (fun _ => rfl) fun _ _ => rfl
  case subtract => exact completes_vectorOp (fun _ _ => rfl) (fun _ => rfl) fun _ _ => rfl
  case multiply => exact completes_vectorOp (fun _ _ => rfl) (fun _ => rfl) fun _ _ => rfl
  case fma => exact completes_vectorOp (fun _ _ => rfl) (fun _ => rfl) fun _ _ => rfl
  case maximum => exact completes_vectorOp (fun _ _ => rfl) (fun _ => rfl) fun _ _ => rfl
  case minimum => exact completes_vectorOp (fun _ _ => rfl) (fun _ => rfl) fun _ _ => rfl
  case abs => exact completes_vectorOp (fun _ _ => rfl) (fun _ => rfl) fun _ _ => rfl
  case negate => exact completes_vectorOp (fun _ _ => rfl) (fun _ => rfl) fun _ _ => rfl
  case relu => exact completes_vectorOp (fun _ _ => rfl) (fun _ => rfl) fun _ _ => rfl
  case leaky =>
    simp only [← leakyV_eq]
    exact completes_vectorOp (fun _ _ => rfl) (fun _ => rfl) fun _ _ => rfl
  case affine => exact completes_vectorOp (fun _ _ => rfl) (fun _ => rfl) fun _ _ => rfl
  case sum => exact completes_lane (fun _ _ => rfl) (fun _ => rfl) fun _ _ _ => rfl
  case max => exact completes_lane (fun _ _ => rfl) (fun _ => rfl) fun _ _ _ => rfl

theorem copyAndConvertComplete : CopyAndConvertComplete := by
  refine ⟨?copy, ?plain, ?blocks⟩
  case copy => exact completes_lane (fun _ _ => rfl) (fun _ => rfl) fun _ _ _ => rfl
  case plain =>
    refine completes_lane (fun _ _ => rfl) (fun _ => rfl) fun x c ⟨hplain, hctx⟩ => ?_
    simp only [hplain, hctx, Bool.false_eq_true, if_false]
  case blocks =>
    refine completes_lane (fun _ _ => rfl) (fun _ => rfl) fun x c ⟨hmx, hctx⟩ => ?_
    simp only [hmx, hctx, Bool.false_eq_true, if_false, if_true]

/-- Settles O1: each command issues one instruction, whose act is the statement's effect. -/
theorem laneArithmeticCompletes : Obligations.LaneArithmeticCompletes := by
  unfold Obligations.LaneArithmeticCompletes
  exact ⟨vectorArithmeticCompletes, copyAndConvertComplete⟩

end Sys2Proof.Machine
end

section
/-!
Draws, lookups and table banks (R224 to R241, R350, R354): the words and the lookups of a ready instruction, the load of an image
into the shadow bank and the swap of the banks.
-/
namespace Sys2Proof.Machine
open Sys2Proof Sys2Proof.Claims

/-! ## Draws (R350, R354) -/

theorem drawsComplete : DrawsComplete := by
  refine ⟨?context, ?bits, ?uniform, ?uniformOpen, ?normal⟩
  case context => exact completes_lane (fun _ _ => rfl) (fun _ => rfl) fun _ _ _ => rfl
  case bits => exact completes_lane (fun _ _ => rfl) (fun _ => rfl) fun _ _ _ => rfl
  case uniform => exact completes_vectorOp (fun _ _ => rfl) (fun _ => rfl) fun _ _ => rfl
  case uniformOpen => exact completes_vectorOp (fun _ _ => rfl) (fun _ => rfl) fun _ _ => rfl
  case normal =>
    exact completes_vectorOp (f := fun p x c => (laneWords x c).map (c.table p (dcTable (x.const (laneConst x.i)))).gauss)
      (fun _ _ => rfl) (fun _ => rfl) fun _ _ => rfl

/-! ## Lookups (R224 to R234) -/

/-- A lookup in a fixed position sends every lane of source 0 through its active table (R226). -/
theorem completes_lookupOp {cmd : Nat → Instr} {op pos : Nat} {f : Table → Val → Val}
    (hexec : ∀ p s, exec (cmd p) s = onChip (cmd p) s (lookupOp op pos p f)) (hwf : ∀ p, (cmd p).wf = isBead p) :
    Completes cmd (lane op) (fun x => laneFoot 1 x.i) always
      (fun x c => c.writeLanes x ((c.src0 x).map (f (c.table x.p pos)))) :=
  completes_vectorOp (f := fun p x c => (c.src0 x).map (f (c.table p pos))) hexec hwf fun _ _ => rfl

theorem lookupsComplete : LookupsComplete := by
  refine ⟨?exp2, ?exp, ?log2, ?ln, ?recip, ?div, ?rsqrt, ?sqrt, ?eval, ?gauss⟩
  case exp2 => exact completes_lookupOp (fun _ _ => rfl) fun _ => rfl
  case exp => exact completes_lookupOp (fun _ _ => rfl) fun _ => rfl
  case log2 => exact completes_lookupOp (fun _ _ => rfl) fun _ => rfl
  case ln => exact completes_lookupOp (fun _ _ => rfl) fun _ => rfl
  case recip => exact completes_lookupOp (fun _ _ => rfl) fun _ => rfl
  case div =>
    exact completes_vectorOp (f := fun p x c => map2 (fun a b => mulF a ((c.table p posRecip).recip b)) x c)
      (fun _ _ => rfl) (fun _ => rfl) fun _ _ => rfl
  case rsqrt => exact completes_lookupOp (fun _ _ => rfl) fun _ => rfl
  case sqrt => exact completes_lookupOp (fun _ _ => rfl) fun _ => rfl
  case eval =>
    exact completes_lane (act := fun p x c => .done (c.writeConvs x ((c.src0 x).map
      ((c.table p (namedPos (x.const (laneConst x.i)))).evalTo (laneFmtD x.i))))) (fun _ _ => rfl) (fun _ => rfl) fun _ _ _ => rfl
  case gauss =>
    exact completes_vectorOp (f := fun p x c => (c.elems p (laneBank0 x.i) (64 * laneAddr0 x.i) 0 (laneCount x.i)).map
      (c.table p (namedPos (x.const (laneConst x.i)))).gauss) (fun _ _ => rfl) (fun _ => rfl) fun _ _ => rfl

/-! ## Table loads and swaps (R236 to R239) -/

theorem any_tableLoads_eq_false {c : Chip} {p pos : Nat} (h : ∀ t ∈ c.tableLoads, ¬(t.p = p ∧ t.pos = pos)) :
    (c.tableLoads.any fun t => t.p = p && t.pos = pos) = false := by
  simpa [List.any_eq_false] using h

theorem tableLoadAndSwapComplete : TableLoadAndSwapComplete := by
  refine ⟨fun img s p x hready ⟨himage, hloads, hahead⟩ => ?load, fun s p pos t hbead hpos hfind => ?loaded,
    fun s p x hready ⟨hloads, hahead⟩ => ?swap⟩
  case load =>
    obtain ⟨rfl, -⟩ := hready.ctx
    refine hready.starts (foot := fun _ _ => Foot.none) rfl rfl (byWord_lane_iff 0x4A) ?_
    let pos := namedPos (x.const (laneConst x.i))
    have hload := any_tableLoads_eq_false (pos := pos) hloads
    have hheld : (x.ahead.any fun k => k.swaps = some pos || k.loads = some pos) = false := hahead
    have hfound : tableImage x.cap pos (namedImage (x.const (laneConst x.i))) = some img := himage
    simp only [pos] at hload hheld hfound
    simp only [hload, hheld, hfound, Bool.or_self, Bool.false_eq_true, if_false]
    rfl
  case loaded =>
    have hwf : (Instr.tableLoadComplete p pos).wf = true := by
      simp [Instr.wf, hbead, hpos]
    refine exec_onChip rfl hwf ?_
    simp only [tableLoadComplete, hfind]
    rfl
  case swap =>
    obtain ⟨rfl, -⟩ := hready.ctx
    refine hready.completes (foot := fun _ _ => Foot.none) rfl rfl (byWord_ctrl_iff 6) ?_
    rw [noneAhead] at hahead
    simp only [any_tableLoads_eq_false hloads, hahead, Bool.or_self, Bool.false_eq_true, if_false]
    split <;> rfl

/-- Settles O2: each draw and lookup has its values in its one command, and nothing under way holds a load or a swap back. -/
theorem drawsLookupsAndTablesComplete : Obligations.DrawsLookupsAndTablesComplete := by
  unfold Obligations.DrawsLookupsAndTablesComplete
  exact ⟨drawsComplete, lookupsComplete, tableLoadAndSwapComplete⟩

end Sys2Proof.Machine
end

section
/-!
Normalisations and row operations (R244 to R250, R332 to R340): what a ready one writes is its effect, row by row, group by group or
pixel by pixel.
-/
namespace Sys2Proof.Machine
open Sys2Proof Sys2Proof.Claims

/-! ## Normalisations (R244 to R250) -/

/-- A row normalisation whose conversion has its rounding context goes through the valid rows one by one (R248). -/
theorem completes_rowNorm {cmd : Nat → Instr} {op : Nat} {flag : Bool} {y : Ctx → Chip → Nat → List Val → List Val}
    (hexec : ∀ p s, exec (cmd p) s = onChip (cmd p) s (rowNorm op p flag y)) (hwf : ∀ p, (cmd p).wf = isBead p) :
    Completes cmd (lane op) (normLive true true false false) (fun x _ => x.noContext (nmConvert (normWord x)) = false)
      (fun x c => (List.range (normRows x (normWord x))).foldl (normRow flag y x c) c) :=
  completes_lane hexec hwf fun x c hctx => by
    simp only [hctx, Bool.false_eq_true, if_false]
    rfl

/-- An operation over groups goes through the valid rows by the statistics of their columns' groups (R248). -/
theorem completes_groupNorm {cmd : Nat → Instr} {op : Nat} {stored : Bool} {st : Ctx → Chip → Nat → Nat → MeanDev}
    (hexec : ∀ p s, exec (cmd p) s = onChip (cmd p) s (groupNorm op p stored st)) (hwf : ∀ p, (cmd p).wf = isBead p) :
    Completes cmd (lane op) (normLive true true stored false) (fun x _ => x.noContext (nmConvert (normWord x)) = false)
      (fun x c => normGroups (fun g => st x c (normWord x) g) x c) :=
  completes_lane hexec hwf fun x c hctx => by
    simp only [hctx, Bool.false_eq_true, if_false]
    rfl

theorem normalisationsComplete : NormalisationsComplete := by
  refine ⟨?layer, ?rms, ?group, ?soft, ?statistics, ?apply, ?complete⟩
  case layer => exact completes_rowNorm (y := layerRow) (fun _ _ => rfl) fun _ => rfl
  case rms => exact completes_rowNorm (y := rmsRow) (fun _ _ => rfl) fun _ => rfl
  case group =>
    exact completes_groupNorm (st := fun x c d g => c.twoPass x.p (nmEps d) (c.groupSeq x d g)) (fun _ _ => rfl) fun _ => rfl
  case soft => exact completes_rowNorm (y := softRow) (fun _ _ => rfl) fun _ => rfl
  case statistics => exact completes_lane (fun _ _ => rfl) (fun _ => rfl) fun _ _ _ => rfl
  case apply =>
    exact completes_groupNorm (st := fun x c d g => c.storedPair x d g) (fun _ _ => rfl) fun _ => rfl
  case complete => exact completes_lane (fun _ _ => rfl) (fun _ => rfl) fun _ _ _ => rfl

/-! ## Row operations (R332 to R340) -/

theorem rowOperationsComplete : RowOperationsComplete := by
  refine ⟨?pad, ?gather, fun o => ?halo, ?upsample, ?pool, ?toChannel, ?toSpace⟩
  case pad => exact completes_lane (fun _ _ => rfl) (fun _ => rfl) fun _ _ _ => rfl
  case gather =>
    refine completes_lane (fun _ _ => rfl) (fun _ => rfl) fun x c _ => ?_
    simp only [Bool.and_eq_true, decide_eq_true_eq]
    rfl
  case halo =>
    refine completes_lane (fun _ _ => rfl) (fun _ => rfl) fun x c ⟨hobj, hstep, hlayer, hpeer⟩ => ?_
    simp only [hobj, hstep, hlayer, hpeer, decide_true, Bool.and_self, if_true]
  case upsample =>
    refine completes_lane (fun _ _ => rfl) (fun _ => rfl) fun x c hmode => ?_
    simp only [hmode, if_true]
  case pool =>
    refine completes_lane (fun _ _ => rfl) (fun _ => rfl) fun x c hmode => ?_
    simp only [hmode, if_false]
    rfl
  case toChannel =>
    refine completes_lane (fun _ _ => rfl) (fun _ => rfl) fun x c hmode => ?_
    simp only [hmode, if_true]
  case toSpace =>
    refine completes_lane (fun _ _ => rfl) (fun _ => rfl) fun x c hmode => ?_
    simp only [hmode, if_false]

/-- Settles O3: each is one LANE act, whose result is the statement's effect once its conversion has the context it needs. -/
theorem normalisationsAndRowOperationsComplete : Obligations.NormalisationsAndRowOperationsComplete := by
  unfold Obligations.NormalisationsAndRowOperationsComplete
  exact ⟨normalisationsComplete, rowOperationsComplete⟩

end Sys2Proof.Machine
end

section
/-!
Steps, loops and decisions (R98, R99, R106, R311, R312): where a ready control instruction leaves its stream.
-/
namespace Sys2Proof.Machine
open Sys2Proof Sys2Proof.Claims

/-- A wait field leaves the run of its Bead as it is. -/
theorem Chip.run_take (c : Chip) (p n : Nat) : ((c.take p n).bead p).run = (c.bead p).run := by
  rcases c.take_cases p n with htake | ⟨o, v, -, -, htake⟩
  · rw [htake]
  · rw [htake, Chip.setObj, Chip.bead_updBead_same]

theorem indexOf?_eq_some {α : Type} {f : α → Bool} {l : List α} {d : α} {i : Nat} (hlen : i < l.length) (hi : f (l.getD i d) = true)
    (hbefore : ∀ k, k < i → f (l.getD k d) = false) : indexOf? f l = some i := by
  induction l generalizing i with
  | nil => cases hlen
  | cons a l ih =>
    cases i with
    | zero => exact if_pos hi
    | succ i =>
      rw [indexOf?, if_neg (by simpa using hbefore 0 (Nat.succ_pos i)),
        ih (Nat.lt_of_succ_lt_succ hlen) hi fun k hk => hbefore (k + 1) (Nat.succ_lt_succ hk)]
      rfl

theorem indexOf?_eq_none {α : Type} {f : α → Bool} {l : List α} (h : ∀ a ∈ l, f a = false) : indexOf? f l = none := by
  induction l with
  | nil => rfl
  | cons a l ih =>
    rw [indexOf?, if_neg (by simpa using h a List.mem_cons_self), ih fun b hb => h b (List.mem_cons_of_mem a hb)]
    rfl

end Sys2Proof.Machine

namespace Sys2Proof.Claims
open Sys2Proof Sys2Proof.Machine

section
variable {c : Chip} {p : Nat} {x : Ctx} {picks : Ctx → Prop} {f : Foot}

/-- A ready instruction sees the run that its Bead has once its wait field has been taken. -/
theorem Ready.run_taken (h : Ready c p x picks f) : ((taken c x).bead x.p).run = x.run := by
  obtain ⟨rfl, hrun, -⟩ := h.ctx
  rw [taken, Chip.run_take, hrun]

end

section
variable {s : State} {p op : Nat} {x : Ctx} {act : Ctx → Chip → Act} {i : Instr}
  (h : Ready s.chip p x (byWord (ctrl op)) .none) (hexec : exec i s = onChip i s (issueCtrl op p act)) (hwf : i.wf = isBead p)
include h hexec hwf

/-- The command of a ready control instruction answers what becomes of its act. -/
theorem Ready.control_finish (hhold : ∀ d, act x (taken s.chip x) ≠ .hold d) :
    exec i s = .next (inState s (Chip.finish x .none (act x (taken s.chip x)))) := by
  have hbead : isBead p = true := h.1
  rw [hexec, onChip_wf (hwf.trans hbead), ← h.issueAt_finish (foot := fun _ _ => .none) (byWord_ctrl_iff op) hhold]
  rfl

theorem Ready.control_completes {d : Chip} (hact : act x (taken s.chip x) = .done d) :
    exec i s = .next (inState s (completed s.chip x d)) :=
  h.completes (foot := fun _ _ => .none) hexec hwf (byWord_ctrl_iff op) hact

/-- One that goes to another instruction of its stream makes its post there (R89, R98). -/
theorem Ready.control_jumps {pos : Nat} {d : Chip} (hact : act x (taken s.chip x) = .jump pos d) :
    exec i s = .next (inState s ((d.goTo x.p pos).postObj x.j x.p (iPost x.i))) := by
  rw [h.control_finish hexec hwf (by simp [hact]), hact, Chip.finish]

/-- One that raises a status with a name of its own leaves its Bead where it stands (R504). -/
theorem Ready.control_raises {st : Nat} {n : Named} {d : Chip} (hact : act x (taken s.chip x) = .raiseD st n d) :
    exec i s = .next (inState s ((d.raiseDie x.j (dieFacet (physFacet x.p)) st x.run.step n).halt x.p)) := by
  rw [h.control_finish hexec hwf (by simp [hact]), hact, Chip.finish]
  · rfl
  all_goals simp

end

end Sys2Proof.Claims

namespace Sys2Proof.Machine
open Sys2Proof Sys2Proof.Claims

theorem stepsComplete : StepsComplete := by
  refine ⟨fun s p x hready _ => ?stepBegin, fun s p x hready ⟨hposted, hbarrier⟩ => ?stepEnd, fun s p x hready => ?endStream,
    fun s p x hready hstays => ?yield, fun s p x hready hsaves => ?saves⟩
  case stepBegin => exact hready.control_completes rfl rfl rfl
  case stepEnd =>
    refine hready.control_completes rfl rfl ?_
    simp only [hposted, hbarrier, Bool.or_self, Bool.false_eq_true, if_false]
  case endStream =>
    rw [hready.run_taken]
    exact hready.control_jumps rfl rfl rfl
  case yield =>
    refine hready.control_completes rfl rfl ?_
    simp only [hstays, Bool.false_eq_true, if_false]
  case saves =>
    have hact : (if (taken s.chip x).yieldsMidStep x.job then
        Act.more ((taken s.chip x).updRun x.p fun r => { r with yielded := true }) else .done (taken s.chip x)) =
      .more ((taken s.chip x).updRun x.p fun r => { r with yielded := true }) := if_pos hsaves
    exact hready.stays (foot := fun _ _ => .none) rfl rfl (byWord_ctrl_iff 8) hact

theorem loopsComplete : LoopsComplete := by
  refine ⟨fun s p x hready htrips => ?enter, fun s p e x hready htrips hend => ?skip, fun s p x hready hlast => ?leave,
    fun s p x l ls hready hloops hmore => ?again⟩
  case enter =>
    refine hready.control_completes rfl rfl ?_
    simp only [htrips, if_false, Chip.updRun, Chip.updBead, hready.run_taken]
  case skip =>
    obtain ⟨rfl, hrun, -⟩ := hready.ctx
    refine hready.control_jumps rfl rfl ?_
    simp only [htrips, if_true, hrun, hend]
  case leave =>
    refine hready.control_completes rfl rfl ?_
    simp only [hready.run_taken] at hlast ⊢
    cases hloops : x.run.loops with
    | nil => simp only [if_true]
    | cons l ls => simp only [if_neg (Nat.not_lt.2 (hlast l ls hloops)), reduceCtorEq, if_false, List.tail_cons]
  case again =>
    rw [hready.run_taken] at hloops
    refine hready.control_jumps rfl rfl ?_
    simp only [hloops, if_pos hmore]

theorem decideComplete : DecideComplete := by
  intro s p x h buckets starts hready hpoint hsem havail
  have hdecides : (decide (dpInputSem h = noObj) && decide (dpBuckets h = 1)) = false := by
    rcases hsem with hobj | hone
    · rw [decide_eq_false hobj, Bool.false_and]
    · rw [decide_eq_false hone, Bool.and_false]
  refine ⟨fun i hi hle hbefore => ?found, fun habove => ?range⟩
  case found =>
    have hindex : indexOf? (fun b => decide (x.job.decisions.get 0 (ctrlOperand x.i) ≤ b)) buckets = some i :=
      indexOf?_eq_some hi (decide_eq_true hle) fun k hk => decide_eq_false (Nat.not_le.2 (hbefore k hk))
    refine hready.control_jumps rfl rfl ?_
    simp only [hpoint, hdecides, havail, hindex, Bool.not_true, Bool.false_eq_true, if_false]
  case range =>
    have hindex : indexOf? (fun b => decide (x.job.decisions.get 0 (ctrlOperand x.i) ≤ b)) buckets = none :=
      indexOf?_eq_none fun b hb => decide_eq_false (Nat.not_le.2 (habove b hb))
    refine hready.control_raises rfl rfl ?_
    simp only [hpoint, hdecides, havail, hindex, Bool.not_true, Bool.false_eq_true, if_false]

/-- Settles O5: what each instruction does with the run of its Bead decides where the stream stands; a decision word is in the first
bucket that holds it. -/
theorem controlFlowCompletes : Obligations.ControlFlowCompletes := by
  unfold Obligations.ControlFlowCompletes
  exact ⟨stepsComplete, loopsComplete, decideComplete⟩

end Sys2Proof.Machine
end

section
/-!
The package sequencer and the step (R29 to R35, Table 1.5): what arrives takes its place in the order of the inbox, a fault that is found
its place in the order of the faults, and a step handles the first of both once it has been held for three ticks.
-/
namespace Sys2Proof.Machine
open Sys2Proof Sys2Proof.Claims

/-- Settles O40: the queue's front alone picks the meaning. -/
theorem stepRunsTheFrontCommand : Obligations.StepRunsTheFrontCommand := by
  unfold Obligations.StepRunsTheFrontCommand
  intro s c rest hpending
  rw [step, hpending]

/-! ## The order of events (R33 to R35) -/

theorem sourceLe_total (a b : List Nat) : sourceLe a b = true ∨ sourceLe b a = true := by
  induction a generalizing b with
  | nil => exact .inl rfl
  | cons x xs ih =>
    cases b with
    | nil => exact .inr rfl
    | cons y ys =>
      simp only [sourceLe, Bool.or_eq_true, decide_eq_true_eq, Bool.and_eq_true, beq_iff_eq]
      rcases Nat.lt_trichotomy x y with hlt | heq | hgt
      · exact .inl (.inl hlt)
      · exact (ih ys).imp (fun h => .inr ⟨heq, h⟩) fun h => .inr ⟨heq.symm, h⟩
      · exact .inr (.inl hgt)

theorem sourceLe_trans {a b c : List Nat} (hab : sourceLe a b = true) (hbc : sourceLe b c = true) : sourceLe a c = true := by
  induction a generalizing b c with
  | nil => rfl
  | cons x xs ih =>
    cases b with
    | nil => cases hab
    | cons y ys =>
      cases c with
      | nil => cases hbc
      | cons z zs =>
        simp only [sourceLe, Bool.or_eq_true, decide_eq_true_eq, Bool.and_eq_true, beq_iff_eq] at hab hbc ⊢
        rcases hab with hxy | ⟨rfl, hxy⟩
        · rcases hbc with hyz | ⟨rfl, -⟩
          · exact .inl (Nat.lt_trans hxy hyz)
          · exact .inl hxy
        · rcases hbc with hyz | ⟨rfl, hyz⟩
          · exact .inl hyz
          · exact .inr ⟨rfl, ih hxy hyz⟩

/-- Stamp, then rank, then source index. -/
theorem EventKey.le_iff (a b : EventKey) : a.le b = true ↔
    a.stamp < b.stamp ∨ a.stamp = b.stamp ∧ (a.rank < b.rank ∨ a.rank = b.rank ∧ sourceLe a.source b.source = true) := by
  simp [EventKey.le]

theorem EventKey.le_of_not_le {a b : EventKey} (h : ¬a.le b = true) : b.le a = true := by
  rw [EventKey.le_iff] at h ⊢
  have hsource := sourceLe_total a.source b.source
  by_cases hs : a.stamp = b.stamp
  · by_cases hr : a.rank = b.rank
    · exact .inr ⟨hs.symm, .inr ⟨hr.symm, hsource.resolve_left fun hle => h (.inr ⟨hs, .inr ⟨hr, hle⟩⟩)⟩⟩
    · exact .inr ⟨hs.symm, .inl (by omega)⟩
  · exact .inl (by omega)

theorem EventKey.le_trans {a b c : EventKey} (hab : a.le b = true) (hbc : b.le c = true) : a.le c = true := by
  rw [EventKey.le_iff] at hab hbc ⊢
  rcases hab with hs | ⟨hs, hr | ⟨hr, hle⟩⟩
  · exact .inl (by omega)
  · rcases hbc with hs' | ⟨hs', hrank⟩
    · exact .inl (by omega)
    · exact .inr ⟨by omega, .inl (by rcases hrank with h | ⟨h, -⟩ <;> omega)⟩
  · rcases hbc with hs' | ⟨hs', hr' | ⟨hr', hle'⟩⟩
    · exact .inl (by omega)
    · exact .inr ⟨by omega, .inl (by omega)⟩
    · exact .inr ⟨by omega, .inr ⟨by omega, sourceLe_trans hle hle'⟩⟩

theorem mem_insertBy {α : Type} {le : α → α → Bool} {x y : α} {l : List α} : y ∈ insertBy le x l ↔ y = x ∨ y ∈ l := by
  induction l with
  | nil => simp [insertBy]
  | cons z l ih =>
    rw [insertBy]
    split
    · rw [List.mem_cons, ih, List.mem_cons, or_left_comm]
    · rw [List.mem_cons]

/-- An insertion behind everything that is no later keeps a list in order. -/
theorem pairwise_insertBy {α : Type} (key : α → EventKey) (x : α) {l : List α}
    (h : l.Pairwise fun a b => (key a).le (key b) = true) :
    (insertBy (fun a b => (key a).le (key b)) x l).Pairwise fun a b => (key a).le (key b) = true := by
  induction l with
  | nil => exact List.pairwise_singleton _ _
  | cons y l ih =>
    obtain ⟨hfirst, hrest⟩ := List.pairwise_cons.1 h
    rw [insertBy]
    split
    · next hle =>
      refine List.pairwise_cons.2 ⟨fun z hz => ?_, ih hrest⟩
      rcases mem_insertBy.1 hz with rfl | hz
      · exact hle
      · exact hfirst z hz
    · next hnot =>
      have hxy := EventKey.le_of_not_le hnot
      refine List.pairwise_cons.2 ⟨fun z hz => ?_, h⟩
      rcases List.mem_cons.1 hz with rfl | hz
      · exact hxy
      · exact EventKey.le_trans hxy (hfirst z hz)

/-! ## What arrives (R29 to R35, R474) -/

theorem State.arrive_event {s : State} {i : Instr} {rank : Nat} {source : List Nat} (hwf : i.wf = true)
    (hevent : eventOf i = some (rank, source)) :
    s.arrive i = { s with
      inbox := insertBy (fun a b => a.key.le b.key) ⟨s.chip.tick.count, rank, source, i⟩
        (s.inbox.filter fun x => !(x.stamp = s.chip.tick.count && sameDoorbell x.event i)) } := by
  simp only [State.arrive, hwf, if_true, hevent]

theorem State.arrive_command {s : State} {i : Instr} (h : i.wf = false ∨ eventOf i = none) :
    s.arrive i = { s with pending := s.pending ++ [i] } := by
  have hnone : (if i.wf then eventOf i else none) = none := by
    rcases h with hwf | hevent
    · rw [hwf]; rfl
    · rw [hevent, ite_self]
  simp only [State.arrive, hnone]

theorem State.arrive_inOrder {s : State} {i : Instr} {rank : Nat} {source : List Nat} (hwf : i.wf = true)
    (hevent : eventOf i = some (rank, source)) (h : InOrder s.inbox) : InOrder (s.arrive i).inbox := by
  rw [State.arrive_event hwf hevent]
  exact pairwise_insertBy Stamped.key _ (h.filter _)

/-! ## What is found inside the part (R504) -/

theorem Chip.found_inOrder {c : Chip} {source : List Nat} {f : Found} (h : c.raised.Pairwise fun a b => a.key.le b.key = true) :
    (c.found source f).raised.Pairwise fun a b => a.key.le b.key = true := by
  rw [Chip.found]
  split
  · exact h
  · exact pairwise_insertBy Raised.key _ h

theorem Chip.found_mem (c : Chip) (source : List Nat) (f : Found) : ∃ r ∈ (c.found source f).raised, r.what = f := by
  rw [Chip.found]
  split
  · next hany => simpa using hany
  · exact ⟨_, mem_insertBy.2 (.inl rfl), rfl⟩

/-! ## What a step handles (R33 to R35) -/

theorem State.withLag_now {s : State} {n : Nat} (h : n ≤ s.chip.tick.count) :
    (s.withLag (s.chip.tick.count - n)).chip.now = n := by
  simp only [State.withLag, Chip.now]
  omega

/-- What the sequencer holds first is handled once three ticks have passed since its stamp. -/
theorem State.ripe_of_first {s t : State} {n : Nat} {r : Ripe} (hfirst : s.first = some (n, r, t)) (hclock : s.chip.clocked = true)
    (hheld : n + 3 ≤ s.chip.tick.count) : s.ripe = some (r, t.withLag (s.chip.tick.count - n)) := by
  simp only [State.ripe, hfirst, hclock, decide_eq_true hheld, Bool.and_self, if_true]

theorem State.first_event {s : State} {e : Stamped} {rest : List Stamped} (hinbox : s.inbox = e :: rest)
    (hbefore : ∀ r ∈ s.chip.raised.head?, r.key.le e.key = false) :
    s.first = some (e.stamp, .event e.event, { s with inbox := rest }) := by
  cases hraised : s.chip.raised with
  | nil => simp only [State.first, hinbox, hraised, List.head?_cons, Option.map_some, List.tail_cons]
  | cons r rs =>
    have hlate : r.key.le e.key = false := hbefore r (by rw [hraised]; rfl)
    simp only [State.first, hinbox, hraised, hlate, Bool.false_eq_true, if_false, List.head?_cons, Option.map_some, List.tail_cons]

theorem State.first_fault {s : State} {r : Raised} {rest : List Raised} (hraised : s.chip.raised = r :: rest)
    (hbefore : ∀ e ∈ s.inbox.head?, r.key.le e.key = true) :
    s.first = some (r.stamp, .fault r.what, inState s { s.chip with raised := rest }) := by
  cases hinbox : s.inbox with
  | nil => simp only [State.first, hinbox, hraised, List.head?_cons, Option.map_some, List.tail_cons, inState]
  | cons e es =>
    have hfirst : r.key.le e.key = true := hbefore e (by rw [hinbox]; rfl)
    simp only [State.first, hinbox, hraised, hfirst, if_true, List.head?_cons, Option.map_some, List.tail_cons, inState]

/-- What the sequencer holds first is the head of its inbox or of the faults found. -/
theorem State.first_stamp {s t : State} {n : Nat} {r : Ripe} (hfirst : s.first = some (n, r, t)) :
    (∃ e ∈ s.inbox.head?, e.stamp = n) ∨ ∃ k ∈ s.chip.raised.head?, k.stamp = n := by
  rw [State.first] at hfirst
  dsimp only at hfirst
  split at hfirst
  · next e es k ks hinbox hraised =>
    simp only [hinbox, hraised, List.head?_cons, Option.map_some] at hfirst ⊢
    split at hfirst
    · cases hfirst; exact .inr ⟨k, rfl, rfl⟩
    · cases hfirst; exact .inl ⟨e, rfl, rfl⟩
  · obtain ⟨k, hk, heq⟩ := Option.map_eq_some_iff.1 hfirst
    cases heq
    exact .inr ⟨k, hk, rfl⟩
  · obtain ⟨e, he, heq⟩ := Option.map_eq_some_iff.1 hfirst
    cases heq
    exact .inl ⟨e, he, rfl⟩

theorem State.ripe_none {s : State} (hevents : ∀ e ∈ s.inbox.head?, s.chip.tick.count < e.stamp + 3)
    (hfaults : ∀ r ∈ s.chip.raised.head?, s.chip.tick.count < r.stamp + 3) : s.ripe = none := by
  rw [State.ripe]
  split
  · next n r t hfirst =>
    have hearly : ¬n + 3 ≤ s.chip.tick.count := by
      rcases State.first_stamp hfirst with ⟨e, he, rfl⟩ | ⟨k, hk, rfl⟩
      · exact Nat.not_le.2 (hevents e he)
      · exact Nat.not_le.2 (hfaults k hk)
    rw [decide_eq_false hearly, Bool.and_false, if_neg Bool.false_ne_true]
  · rfl

/-- Settles O41: the keys are in a total order, in which both the inbox and the faults that have been found are kept, and a step takes
the earlier of their heads. -/
theorem eventsAreHandledInOrder : Obligations.EventsAreHandledInOrder := by
  unfold Obligations.EventsAreHandledInOrder
  refine ⟨fun s i rank source hwf hevent hinbox => ?arrives, fun s i h => State.arrive_command h,
    fun s e rest hidle hinbox hbefore hclock hheld => ?event, fun s r rest hidle hraised hbefore hclock hheld => ?fault,
    fun s hidle hevents hfaults => ?edge, fun c source f h => ⟨Chip.found_inOrder h, c.found_mem source f⟩⟩
  case arrives =>
    refine ⟨State.arrive_inOrder hwf hevent hinbox, ?_, fun e => ?_⟩
    · rw [State.arrive_event hwf hevent]
    · rw [State.arrive_event hwf hevent, mem_insertBy, List.mem_filter, or_comm]
      simp [imp_iff_not_or]
  case event =>
    have hripe := State.ripe_of_first (State.first_event hinbox hbefore) hclock hheld
    refine ⟨_, ?_, rfl, State.withLag_now (s := { s with inbox := rest }) (by dsimp only; omega)⟩
    simp only [step, hidle, hripe]
  case fault =>
    have hripe := State.ripe_of_first (State.first_fault hraised hbefore) hclock hheld
    refine ⟨_, ?_, rfl, State.withLag_now (s := inState s { s.chip with raised := rest }) (by simp only [inState]; omega)⟩
    simp only [step, hidle, hripe]
  case edge => simp only [step, hidle, State.ripe_none hevents hfaults]

/-! ## Reset (R28, R582, R636, R640) -/

/-- Settles O43: the reset state holds every default, and a unit that no table lists is fresh. -/
theorem resetGivesTheDefaults : Obligations.ResetGivesTheDefaults := by
  unfold Obligations.ResetGivesTheDefaults
  exact ⟨rfl, rfl, rfl, fun _ => ⟨rfl, rfl⟩, fun _ => rfl, rfl, rfl, fun _ => ⟨rfl, rfl, rfl⟩, fun _ => ⟨rfl, rfl, rfl⟩, rfl,
    rfl, rfl, rfl, rfl, rfl, fun _ => ⟨rfl, rfl, rfl, rfl⟩⟩

end Sys2Proof.Machine
end

section
/-!
Every command (assumption 13): one whose operands the part has answers a next state, any other is refused by name, and none touches the
queue or the facts of the unit.
-/
namespace Sys2Proof.Machine
open Sys2Proof Sys2Proof.Claims

/-- The commands that wait and the facts of the unit are the same. -/
structure QueueAndUnitKept (s t : State) : Prop where
  pending : t.pending = s.pending
  unit : t.unit = s.unit

theorem keeps_queueAndUnit : Keeps QueueAndUnitKept where
  refl _ := ⟨rfl, rfl⟩
  trans _ _ _ h1 h2 := ⟨h2.pending.trans h1.pending, h2.unit.trans h1.unit⟩
  chip _ _ := ⟨rfl, rfl⟩

namespace QueueAndUnitKept

theorem trans {s t u : State} (h1 : QueueAndUnitKept s t) (h2 : QueueAndUnitKept t u) : QueueAndUnitKept s u :=
  keeps_queueAndUnit.trans s t u h1 h2

/-- The chip, the burned bits, the security registers and the inbox may change. -/
theorem beside (s : State) (c : Chip) (o : Otp) (x : SecSt) (es : List Stamped) :
    QueueAndUnitKept s { s with chip := c, otp := o, sec := x, inbox := es } := ⟨rfl, rfl⟩

end QueueAndUnitKept

/-! ## Writes that chip and security registers take -/

section
variable (r : MgmtReq) (e : Entry) (i : Nat) (s : State)

theorem putTableCommit_queueAndUnit : QueueAndUnitKept s (putTableCommit r e i s).2 := by
  unfold putTableCommit
  dsimp only
  split
  · exact .beside ..
  · split <;> exact .beside ..

theorem putQueueEnable_queueAndUnit : QueueAndUnitKept s (putQueueEnable r e i s).2 := by
  unfold putQueueEnable
  dsimp only
  split
  · split
    · exact .beside ..
    · split <;> exact .beside ..
  · split <;> exact .beside ..

theorem putFaultLogAck_queueAndUnit : QueueAndUnitKept s (putFaultLogAck r e i s).2 := by
  unfold putFaultLogAck
  dsimp only
  split <;> exact .beside ..

theorem putStrandIdentity_queueAndUnit : QueueAndUnitKept s (putStrandIdentity r e i s).2 := by
  unfold putStrandIdentity
  dsimp only
  split <;> exact .beside ..

theorem putRingEntry_queueAndUnit : QueueAndUnitKept s (putRingEntry r e i s).2 := by
  unfold putRingEntry
  dsimp only
  split
  · exact .beside ..
  · split <;> exact .beside ..

end

/-! ## Bezel: offers, signatures and bundles (R595 to R602) -/

theorem State.claimBlock_queueAndUnit (s : State) : QueueAndUnitKept s s.claimBlock := by
  unfold State.claimBlock
  split <;> exact .beside ..

theorem State.useIndex_queueAndUnit (s : State) : QueueAndUnitKept s s.useIndex := by
  unfold State.useIndex
  split
  · exact .beside ..
  · split
    · exact .beside ..
    · exact s.claimBlock_queueAndUnit

theorem State.offer_queueAndUnit (s : State) : QueueAndUnitKept s s.offer := by
  unfold State.offer
  split
  · exact .beside ..
  · split
    · obtain ⟨_, _, hoffer⟩ := s.makeOffer_eq
      rw [hoffer]
      exact (keeps_queueAndUnit.chip s _).trans ((State.useIndex_queueAndUnit _).trans (.beside ..))
    · exact .beside ..

theorem State.spdmServe_queueAndUnit (s : State) (path : Nat) (r : SpdmRequest) : QueueAndUnitKept s (s.spdmServe path r) := by
  unfold State.spdmServe
  split
  · exact .beside ..
  · split
    · cases r <;> exact .beside ..
    · split
      · simp only [State.spdmSign, State.freeBytes_eq, State.aliasSign]
        exact (keeps_queueAndUnit.chip s _).trans ((State.useIndex_queueAndUnit _).trans (.beside ..))
      · split <;> exact .beside ..

theorem spdmRequest_queueAndUnit (path : Nat) (r : SpdmRequest) (s : State) : QueueAndUnitKept s (spdmRequest path r s) := by
  unfold spdmRequest
  split
  · exact s.spdmServe_queueAndUnit path r
  · split
    · exact turnAway_keeps keeps_queueAndUnit s path
    · exact .beside ..

theorem spdmVendorRequest_queueAndUnit (path registry : Nat) (s : State) :
    QueueAndUnitKept s (spdmVendorRequest path registry s) := by
  unfold spdmVendorRequest
  split
  · split
    · exact turnAway_keeps keeps_queueAndUnit s path
    · exact .beside ..
  · split <;> exact .beside ..

theorem State.serveWaiting_queueAndUnit (s : State) : QueueAndUnitKept s s.serveWaiting := by
  have hcleared : QueueAndUnitKept s (s.onSec fun x => { x with waiting := [] }) := .beside ..
  refine hcleared.trans
    (foldl_keeps QueueAndUnitKept keeps_queueAndUnit.refl keeps_queueAndUnit.trans _ (fun s w => ?_) _ _)
  cases w with
  | offer => exact s.offer_queueAndUnit
  | spdm path r => exact s.spdmServe_queueAndUnit path r

theorem aliasTreeGenerate_queueAndUnit (s : State) : QueueAndUnitKept s (aliasTreeGenerate s) := by
  unfold aliasTreeGenerate
  dsimp only
  split
  · exact QueueAndUnitKept.trans (t := State.onSec s _) (.beside ..) (State.serveWaiting_queueAndUnit _)
  · exact .beside ..

theorem putBundleCommit_queueAndUnit (r : MgmtReq) (e : Entry) (i : Nat) (s : State) :
    QueueAndUnitKept s (putBundleCommit r e i s).2 := by
  unfold putBundleCommit State.commitBundle
  split
  · exact .beside ..
  · split
    · dsimp only
      split
      · exact QueueAndUnitKept.trans (t := State.onSec s _) (.beside ..) (State.serveWaiting_queueAndUnit _)
      · exact .beside ..
    · exact .beside ..

theorem putSessionRequest_queueAndUnit (r : MgmtReq) (e : Entry) (i : Nat) (s : State) :
    QueueAndUnitKept s (putSessionRequest r e i s).2 := by
  unfold putSessionRequest State.requestSession
  split
  · exact .beside ..
  · exact (keeps_queueAndUnit.chip s _).trans (State.offer_queueAndUnit _)

/-! ## The boot, the life cycle and tampers (R584, R585, R588, R591) -/

theorem State.bootCheck_queueAndUnit (s : State) : QueueAndUnitKept s s.bootCheck := by
  unfold State.bootCheck
  split
  · exact .beside ..
  · extract_lets st t t1 t2 t3
    split
    · exact .beside ..
    · have ht2 : QueueAndUnitKept s t2 := .beside ..
      have ht3 : QueueAndUnitKept t2 t3 := by
        simp only [t3]
        split
        · exact t2.claimBlock_queueAndUnit
        · exact .beside ..
      exact ht2.trans (ht3.trans (.beside ..))

theorem putBootGo_queueAndUnit (r : MgmtReq) (e : Entry) (i : Nat) (s : State) : QueueAndUnitKept s (putBootGo r e i s).2 := by
  unfold putBootGo
  split
  · exact .beside ..
  · split
    · exact s.bootCheck_queueAndUnit
    · exact .beside ..

theorem State.commitSvn_queueAndUnit (s : State) : QueueAndUnitKept s s.commitSvn := by
  unfold State.commitSvn
  split <;> exact .beside ..

theorem paveReady_queueAndUnit (s : State) : QueueAndUnitKept s (paveReady s) := by
  unfold paveReady
  split
  · exact (keeps_queueAndUnit.chip s _).trans (State.commitSvn_queueAndUnit _)
  · exact .beside ..

theorem State.moved_queueAndUnit (s : State) (target : Nat) (seed : List Byte) : QueueAndUnitKept s (s.moved target seed) := by
  unfold State.moved State.exportIdentity
  dsimp only
  split
  · split
    · split <;> exact .beside ..
    · exact .beside ..
  · split
    · split <;> exact .beside ..
    · exact .beside ..

theorem State.changeLifeCycle_queueAndUnit (s : State) (target : Nat) : QueueAndUnitKept s (s.changeLifeCycle target).2 := by
  have hnonce : QueueAndUnitKept s s.renonced := .beside ..
  by_cases hok : (s.transitionRight target && s.chip.sessions.all (fun x => x.2.st = .free) && !s.chip.jobsOpen) = true
  · simp only [Bool.and_eq_true, List.all_eq_true, decide_eq_true_eq, Bool.not_eq_true'] at hok
    obtain ⟨⟨hright, hfree⟩, hjobs⟩ := hok
    obtain ⟨k, seed, hcommit⟩ := State.changeLifeCycle_committed hright hfree hjobs
    rw [hcommit]
    exact hnonce.trans ((keeps_queueAndUnit.chip _ _).trans ((State.moved_queueAndUnit _ target seed).trans (.beside ..)))
  · rw [State.changeLifeCycle, Bool.eq_false_iff.2 hok]
    exact hnonce

theorem tamper_queueAndUnit (sensors : Nat) (s : State) : QueueAndUnitKept s (tamper sensors s) := by
  unfold tamper
  split
  · exact .beside ..
  · split
    · exact .beside ..
    · dsimp only
      split <;> exact .beside ..

/-! ## Resets (R547, R587, R665, R670) -/

theorem State.warmLoad_queueAndUnit (s : State) : QueueAndUnitKept s s.warmLoad := by
  unfold State.warmLoad
  extract_lets img st st' t u
  split <;> exact .beside ..

theorem warmReset_queueAndUnit (s : State) : QueueAndUnitKept s (warmReset s) := by
  unfold warmReset
  split
  · exact (keeps_queueAndUnit.chip s _).trans (State.warmLoad_queueAndUnit _)
  · exact .beside ..

theorem warmResetRequest_queueAndUnit (src : WarmResetSource) (s : State) : QueueAndUnitKept s (warmResetRequest src s) := by
  cases src with
  | bar head width v => exact .beside ..
  | dict r => exact writeEntry_keeps keeps_queueAndUnit r putWarmReset (fun _ _ s => .beside ..) s

theorem pkgResetDeassert_queueAndUnit (straps : Straps) (s : State) : QueueAndUnitKept s (pkgResetDeassert straps s) := by
  unfold pkgResetDeassert
  split <;> exact .beside ..

theorem coldReset_queueAndUnit (s : State) : QueueAndUnitKept s (coldReset s) := by
  unfold coldReset
  split <;> exact .beside ..

theorem setEndpointId_queueAndUnit (path eid : Nat) (s : State) : QueueAndUnitKept s (setEndpointId path eid s) := by
  refine control_keeps keeps_queueAndUnit path 0x01 _ _ (fun s => ?_) s
  split <;> exact .beside ..

/-! ## Every command -/

/-- Whatever the command, its meaning is an effect on the state that keeps the queue and the unit, taken or refused by its operands. -/
theorem exec_eq_meaning (i : Instr) (s : State) : ∃ f : State → State, exec i s = meaning i s f ∧ QueueAndUnitKept s (f s) := by
  have written {i : Instr} {r : MgmtReq} {put : Entry → Nat → State → Nat × State}
      (hput : ∀ e i s, QueueAndUnitKept s (put e i s).2) (hexec : exec i s = meaning i s (writeEntry r put)) :
      ∃ f : State → State, exec i s = meaning i s f ∧ QueueAndUnitKept s (f s) :=
    ⟨_, hexec, writeEntry_keeps keeps_queueAndUnit r put hput s⟩
  by_cases hchip : beyondChip i = false
  · obtain ⟨f, hf⟩ := exec_eq_onChip s hchip
    exact ⟨_, hf, .beside ..⟩
  · cases i <;> try exact absurd rfl hchip
    case bootGo r => exact written (putBootGo_queueAndUnit r) rfl
    case paveReady => exact ⟨_, rfl, paveReady_queueAndUnit s⟩
    case bundleCommit r => exact written (putBundleCommit_queueAndUnit r) rfl
    case aliasTreeGenerate => exact ⟨_, rfl, aliasTreeGenerate_queueAndUnit s⟩
    case lcRequest r => exact written (fun _ _ s => s.changeLifeCycle_queueAndUnit _) rfl
    case sessionRequest r => exact written (putSessionRequest_queueAndUnit r) rfl
    case sessionAccept r | sessionClose r | telemetryIntervalWrite r => exact written (fun _ _ s => keeps_queueAndUnit.chip s _) rfl
    case spdmRequest path r => exact ⟨_, rfl, spdmRequest_queueAndUnit path r s⟩
    case spdmVendorRequest path registry => exact ⟨_, rfl, spdmVendorRequest_queueAndUnit path registry s⟩
    case tamper sensors => exact ⟨_, rfl, tamper_queueAndUnit sensors s⟩
    case coldReset => exact ⟨_, rfl, coldReset_queueAndUnit s⟩
    case warmReset => exact ⟨_, rfl, warmReset_queueAndUnit s⟩
    case powerDown => exact ⟨_, rfl, .beside ..⟩
    case pkgResetDeassert straps => exact ⟨_, rfl, pkgResetDeassert_queueAndUnit straps s⟩
    case warmResetRequest src => exact ⟨_, rfl, warmResetRequest_queueAndUnit src s⟩
    case dictRead r | dictDescribe r | dictNext r => exact ⟨_, rfl, answerNow_keeps keeps_queueAndUnit r _ s⟩
    case dictWrite r => exact written (putEntry_keeps keeps_queueAndUnit (fun _ _ _ _ => .beside ..) r) rfl
    case tableCommit r => exact written (putTableCommit_queueAndUnit r) rfl
    case queueEnable r => exact written (putQueueEnable_queueAndUnit r) rfl
    case faultLogAck r => exact written (putFaultLogAck_queueAndUnit r) rfl
    case strandIdentityWrite r => exact written (putStrandIdentity_queueAndUnit r) rfl
    case ringEntryWrite r => exact written (putRingEntry_queueAndUnit r) rfl
    case setEndpointId path eid => exact ⟨_, rfl, setEndpointId_queueAndUnit path eid s⟩
    case getEndpointId path | getMctpVersionSupport path msgType | getMessageTypeSupport path
        | getVendorDefinedMessageSupport path | unsupportedControlCommand path code =>
      exact ⟨_, rfl, control_keeps keeps_queueAndUnit path _ _ id keeps_queueAndUnit.refl s⟩

/-- Settles O42: every command is a meaning, which the operands alone take or refuse. -/
theorem everyCommandIsTakenOrRefused : Obligations.EveryCommandIsTakenOrRefused := by
  unfold Obligations.EveryCommandIsTakenOrRefused
  intro s c
  obtain ⟨f, hexec, hkept⟩ := exec_eq_meaning c s
  refine ⟨fun hwf => ⟨f s, ?_, hkept.pending, hkept.unit⟩, fun hwf => ?_⟩
  · rw [hexec, meaning, if_pos hwf]
  · rw [hexec, meaning, hwf, if_neg Bool.false_ne_true]

end Sys2Proof.Machine
end

section
/-!
What a computation of a Bead can reach (R89, R95, R507): the Beads, the Lockets, the jobs and the faults that have been found. First the
operations that a computation is made of, then an instruction's way through issue, whatever becomes of it, then the computations.
-/
namespace Sys2Proof.Machine
open Sys2Proof Sys2Proof.Claims

/-- `d` is `c` with other Beads, Lockets, jobs and faults found, and with other numbers given out. -/
def Chip.OnlyComputed (c d : Chip) : Prop :=
  ∃ (n : Nat) (beads : Tbl BeadSt) (locket : Mem) (jobs : Tbl Job) (sched : SchedSt) (raised : List Raised),
    d = { c with freeCtr := n, beads := beads, locket := locket, jobs := jobs, sched := sched, raised := raised }

namespace Chip.OnlyComputed

theorem refl (c : Chip) : c.OnlyComputed c := ⟨_, _, _, _, _, _, rfl⟩

theorem trans {c d e : Chip} (h1 : c.OnlyComputed d) (h2 : d.OnlyComputed e) : c.OnlyComputed e := by
  obtain ⟨_, _, _, _, _, _, rfl⟩ := h1
  obtain ⟨_, _, _, _, _, _, rfl⟩ := h2
  exact ⟨_, _, _, _, _, _, rfl⟩

theorem foldl {α : Type} {f : Chip → α → Chip} (hf : ∀ (c : Chip) (a : α), c.OnlyComputed (f c a)) (l : List α) (c : Chip) :
    c.OnlyComputed (l.foldl f c) :=
  foldl_keeps _ refl (fun _ _ _ => trans) f hf l c

theorem loop {n : Nat} {f : Nat → Chip → Chip} (hf : ∀ (i : Nat) (c : Chip), c.OnlyComputed (f i c)) (c : Chip) :
    c.OnlyComputed (iter n f c) :=
  iter_keeps _ refl (fun _ _ _ => trans) n f hf c

end Chip.OnlyComputed

/-! ## Beads, Lockets and jobs -/

section
variable (c : Chip)

theorem Chip.updBead_computed (p : Nat) (f : BeadSt → BeadSt) : c.OnlyComputed (c.updBead p f) := ⟨_, _, _, _, _, _, rfl⟩

theorem Chip.updRun_computed (p : Nat) (f : RunSt → RunSt) : c.OnlyComputed (c.updRun p f) := c.updBead_computed p _

theorem Chip.lockWrite_computed (p bank off : Nat) (bs : List Byte) : c.OnlyComputed (c.lockWrite p bank off bs) :=
  ⟨_, _, _, _, _, _, rfl⟩

theorem Chip.putElem_computed (p bank off f i code : Nat) : c.OnlyComputed (c.putElem p bank off f i code) :=
  ⟨_, _, _, _, _, _, rfl⟩

theorem Chip.putElems_computed (p bank off f : Nat) (codes : List Nat) : c.OnlyComputed (c.putElems p bank off f codes) :=
  .foldl (fun c _ => c.putElem_computed ..) _ c

theorem Chip.updJob_computed (j : Nat) (f : Job → Job) : c.OnlyComputed (c.updJob j f) := by
  unfold Chip.updJob
  split
  · exact .refl c
  · exact ⟨_, _, _, _, _, _, rfl⟩

theorem Chip.count_computed (j p ovf inv : Nat) : c.OnlyComputed (c.count j p ovf inv) := c.updJob_computed j _

theorem Chip.setFlag_computed (j p fl : Nat) : c.OnlyComputed (c.setFlag j p fl) := c.updJob_computed j _

theorem Chip.spend_computed (n : Nat) : c.OnlyComputed (c.spend n) := ⟨_, _, _, _, _, _, rfl⟩

/-! ## Faults that are found (R504) -/

theorem Chip.found_computed (source : List Nat) (f : Found) : c.OnlyComputed (c.found source f) := by
  unfold Chip.found
  split
  · exact .refl c
  · exact ⟨_, _, _, _, _, _, rfl⟩

theorem Chip.foundStatus_computed (j die unit st : Nat) (step : Option Nat) (n : Named) :
    c.OnlyComputed (c.foundStatus j die unit st step n) := by
  unfold Chip.foundStatus
  split
  · exact .refl c
  · exact c.found_computed _ _

theorem Chip.poisonFound_computed (j : Nat) (tid : Option Nat) (at_ : Place) : c.OnlyComputed (c.poisonFound j tid at_) := by
  unfold Chip.poisonFound
  split
  · exact .refl c
  · exact c.found_computed _ _

theorem Chip.halt_computed (p : Nat) : c.OnlyComputed (c.halt p) := c.updRun_computed p _

/-! ## Sync objects (R366 to R373) -/

theorem Chip.setVal_computed (p n : Nat) (v : SyncVal) : c.OnlyComputed (c.setVal p n v) := by
  unfold Chip.setVal
  split
  · exact c.updBead_computed p _
  · exact .refl c

theorem Chip.take_computed (p n : Nat) : c.OnlyComputed (c.take p n) := by
  rcases c.take_cases p n with htake | ⟨o, v, -, -, htake⟩
  · rw [htake]
    exact .refl c
  · rw [htake]
    exact c.updBead_computed p _

theorem Chip.postSem_computed (j p n k : Nat) : c.OnlyComputed (c.postSem j p n k) := by
  unfold Chip.postSem
  split
  · split
    · split
      · exact c.foundStatus_computed ..
      · exact c.setVal_computed ..
    · exact .refl c
  · exact .refl c

theorem Chip.drainSlot_computed (j p n : Nat) : c.OnlyComputed (c.drainSlot j p n) := by
  unfold Chip.drainSlot
  split
  · split
    · exact c.setVal_computed ..
    · exact c.foundStatus_computed ..
    · exact .refl c
  · exact .refl c

theorem Chip.postObj_computed (j p n : Nat) : c.OnlyComputed (c.postObj j p n) := by
  unfold Chip.postObj
  split
  · exact .refl c
  · split
    · split
      · exact c.postSem_computed ..
      · exact c.drainSlot_computed ..
      · exact .refl c
    · exact .refl c

end

/-! ## Issue and what becomes of an instruction (R89, R90) -/

/-- The chip in which an act leaves what it has done. -/
def Act.chip : Act → Chip
  | .done c | .started c | .jump _ c | .hold c | .more c | .park _ _ c | .raise _ c | .raiseN _ _ c | .raiseD _ _ c | .lost _ _ c => c

/-- Whatever the act of an instruction comes to, it has changed only what a computation can. -/
def ActComputes (act : Ctx → Chip → Act) : Prop := ∀ (x : Ctx) (c : Chip), c.OnlyComputed (act x c).chip

theorem Act.raised_computed (x : Ctx) (a : Act) : a.chip.OnlyComputed (a.raised x) := by
  cases a with
  | raise st c | raiseN st n c | raiseD st n c => exact (c.foundStatus_computed ..).trans (Chip.halt_computed _ _)
  | lost tid at_ c => exact (c.poisonFound_computed ..).trans (Chip.halt_computed _ _)
  | done c | started c | hold c | more c => exact .refl c
  | jump pos c => exact .refl c
  | park chain ws c => exact .refl c

theorem Chip.goTo_computed (c : Chip) (p pos : Nat) : c.OnlyComputed (c.goTo p pos) := c.updBead_computed p _

theorem Chip.park_computed (c : Chip) (x : Ctx) (f : Foot) (chain : Option Nat) (ws : List (WaitKind × Nat × Nat)) :
    c.OnlyComputed (c.park x f chain ws) := by
  have hnumber : c.OnlyComputed { c with sched := { c.sched with nextId := c.sched.nextId + 1 } } := ⟨_, _, _, _, _, _, rfl⟩
  unfold Chip.park
  exact hnumber.trans ((Chip.goTo_computed _ x.p (x.run.pos + 1)).trans (Chip.updRun_computed _ x.p _))

theorem Chip.finish_computed (x : Ctx) (f : Foot) (a : Act) : a.chip.OnlyComputed (Chip.finish x f a) := by
  unfold Chip.finish
  split
  · exact (Chip.goTo_computed _ _ _).trans (Chip.postObj_computed _ _ _ _)
  · exact Chip.goTo_computed _ _ _
  · exact (Chip.goTo_computed _ _ _).trans (Chip.postObj_computed _ _ _ _)
  · exact Chip.park_computed _ x f _ _
  · exact Act.raised_computed x _

section
variable {sel : Ctx → Bool} {foot : Chip → Ctx → Foot} {act : Ctx → Chip → Act} (hact : ActComputes act)
include hact

theorem Chip.attempt_computed (c : Chip) (x : Ctx) (f : Foot) : c.OnlyComputed (c.attempt x f act).chip := by
  unfold Chip.attempt
  split
  · exact hact x c
  · split
    · split
      · exact .refl c
      · exact hact x c
    · exact .refl c

theorem Chip.goOn_computed (c : Chip) (p n : Nat) : c.OnlyComputed (c.goOn sel foot act p n).1 := by
  unfold Chip.goOn
  split
  · exact .refl c
  · next x k hparked =>
    split
    · exact .refl c
    · have hattempt := Chip.attempt_computed hact c x (foot c x)
      dsimp only
      split
      · next d hd =>
        rw [hd] at hattempt
        exact hattempt.trans ((d.updRun_computed p _).trans (Chip.postObj_computed _ _ _ _))
      · next d hd =>
        rw [hd] at hattempt
        refine hattempt.trans ?_
        dsimp only
        exact d.updRun_computed p _
      · next d hd =>
        rw [hd] at hattempt
        refine hattempt.trans ?_
        dsimp only
        exact d.updRun_computed p _
      · exact hattempt.trans (Act.raised_computed x _)

theorem Chip.goOnAny_computed (c : Chip) (p : Nat) : c.OnlyComputed (c.goOnAny sel foot act p).1 := by
  unfold Chip.goOnAny
  refine foldl_keeps (fun a b : Chip × Bool => a.1.OnlyComputed b.1) (fun _ => .refl _) (fun _ _ _ => .trans) _ (fun r n => ?_) _
    (c, false)
  split
  · exact .refl _
  · exact Chip.goOn_computed hact _ _ _

theorem Chip.issueNext_computed (c : Chip) (p : Nat) : c.OnlyComputed (c.issueNext sel foot p act) := by
  unfold Chip.issueNext
  split
  · exact .refl c
  · next x hx =>
    split
    · exact .refl c
    · split
      · split
        · exact .refl c
        · exact c.updBead_computed _ _
      · dsimp only
        split
        · exact .refl c
        · have hattempt := (c.take_computed p (iWait x.i)).trans (Chip.attempt_computed hact _ x (foot c x))
          split
          · next d hd =>
            rw [hd] at hattempt
            exact hattempt.trans (d.updBead_computed p _)
          · exact hattempt.trans (Chip.finish_computed x _ _)

/-- An instruction of a Bead reaches no further than its act, whether it completes, waits, raises a status or meets poison. -/
theorem issueAt_computed (c : Chip) (p : Nat) : c.OnlyComputed (issueAt sel foot p act c) := by
  have hongoing := Chip.goOnAny_computed (sel := sel) (foot := foot) hact c p
  unfold issueAt
  split
  · next d hd =>
    rw [hd] at hongoing
    exact hongoing
  · next d hd =>
    rw [hd] at hongoing
    exact hongoing.trans (Chip.issueNext_computed hact d p)

end

end Sys2Proof.Machine
end

section
/-!
The computations of a Bead (R95, R160, R200, R244, R332): each is an instruction whose act writes Lockets, counts for its job or raises a
status, and so reaches nothing outside.
-/
namespace Sys2Proof.Machine
open Sys2Proof Sys2Proof.Claims

/-! ## What computations write -/

section
variable (c : Chip)

theorem Chip.putPacked_computed (j p bank off f : Nat) (codes : List Nat) (ovf inv : Nat) :
    c.OnlyComputed ((c.putElems p bank off f codes).count j p ovf inv) :=
  (c.putElems_computed ..).trans (Chip.count_computed _ j p ovf inv)

theorem Chip.writeLanes_computed (x : Ctx) (vs : List Val) : c.OnlyComputed (c.writeLanes x vs) := c.putPacked_computed ..

theorem Chip.putBlocks_computed (j p bank base f mode sOff : Nat) (nib : Nat → Nat) (vals : List Val) :
    c.OnlyComputed (c.putBlocks j p bank base f mode sOff nib vals) := by
  unfold Chip.putBlocks
  refine .foldl (fun c q => ?_) _ c
  unfold Chip.putBlockAt
  have hcodes (rs : List (Conv × Nat)) (b : Nat) :
      c.OnlyComputed (rs.foldl (fun c (r, i) => c.putElem p bank base f (b + i) r.code) c) :=
    .foldl (fun c _ => c.putElem_computed ..) _ c
  exact (hcodes _ _).trans ((Chip.lockWrite_computed _ _ _ _ _).trans (Chip.count_computed _ _ _ _ _))

theorem Chip.normWrite_computed (x : Ctx) (d m : Nat) (zs : List Val) : c.OnlyComputed (c.normWrite x d m zs) := by
  unfold Chip.normWrite
  dsimp only
  split
  · exact c.putBlocks_computed ..
  · exact c.putPacked_computed ..

theorem Chip.fillPixel_computed (q : Nat) (r : RowBuf) (n : Nat) (f : Nat → Nat) : c.OnlyComputed (c.fillPixel q r n f) :=
  .loop (fun _ c => c.putElem_computed ..) c

/-! ## Products and their epilogues (R160, R191, R206, R210) -/

theorem Chip.epiWriteRow_computed (x : Ctx) (o : Epi) (m : Nat) (vs : List Val) : c.OnlyComputed (c.epiWriteRow x o m vs) := by
  unfold Chip.epiWriteRow
  dsimp only
  split
  · exact c.putBlocks_computed ..
  · exact c.putPacked_computed ..

theorem Chip.epiRecords_computed (o : Epi) (m nv : Nat) : c.OnlyComputed (c.epiRecords o m nv) := by
  unfold Chip.epiRecords
  split
  · exact .refl c
  · exact .foldl (fun c _ => c.lockWrite_computed ..) _ c

theorem Chip.completeHeld_computed (x : Ctx) (o : Epi) (m : Nat) : c.OnlyComputed (c.completeHeld x o m) :=
  c.epiWriteRow_computed ..

/-- A row of an epilogue counts what it narrowed, and goes to its hold or to the output with its records. -/
theorem Chip.epiRow_computed (x : Ctx) (o : Epi) (m col ovf : Nat) (res : Bool) (vs : List Val) :
    c.OnlyComputed (if res then (c.count x.j x.p ovf 0).holdRow o m col vs
      else ((c.count x.j x.p ovf 0).epiWriteRow x o m vs).epiRecords o m vs.length) := by
  split
  · exact (c.count_computed ..).trans (Chip.lockWrite_computed ..)
  · exact (c.count_computed ..).trans ((Chip.epiWriteRow_computed ..).trans (Chip.epiRecords_computed ..))

theorem Chip.epilogue_computed (x : Ctx) (e m n holdCol : Nat) (last : Bool) (lanes : List (Nat × List Val)) :
    c.OnlyComputed (c.epilogue x e m n holdCol last lanes) := by
  unfold Chip.epilogue
  dsimp only
  split
  · exact Chip.OnlyComputed.trans (.foldl (fun c _ => c.epiRow_computed ..) _ c)
      (.foldl (fun c _ => c.completeHeld_computed ..) _ _)
  · exact .foldl (fun c _ => c.epiRow_computed ..) _ c

theorem Chip.writeAcc_computed (p : Nat) (forward : Bool) (cAddr rows cols : Nat) (ls : List Lane) :
    c.OnlyComputed (c.writeAcc p forward cAddr rows cols ls) := by
  unfold Chip.writeAcc
  split
  · exact c.updRun_computed p _
  · exact ⟨_, _, _, _, _, _, rfl⟩

theorem Chip.runProduct_computed (x : Ctx) (q : Product) (forward : Bool) (row : Nat → Option Nat) (a : Nat → Nat → Val)
    (holdCol : Nat) (last : Bool) : c.OnlyComputed (c.runProduct x q forward row a holdCol last) := by
  unfold Chip.runProduct
  dsimp only
  split
  · exact (c.writeAcc_computed ..).trans (Chip.count_computed ..)
  · exact (c.writeAcc_computed ..).trans ((Chip.count_computed ..).trans (Chip.epilogue_computed ..))

theorem Chip.completeStats_computed (x : Ctx) (d mv : Nat) : c.OnlyComputed (c.completeStats x d mv) := by
  unfold Chip.completeStats
  refine .foldl (fun c m => ?_) _ c
  extract_lets rs
  split
  next st empty _ =>
  split
  next mu d hmean =>
  have hfree : c.OnlyComputed d := by
    split at hmean
    · cases hmean
      exact c.spend_computed 4
    · cases hmean
      exact .refl c
  dsimp only
  split
  · exact hfree.trans ((d.lockWrite_computed ..).trans (Chip.setFlag_computed ..))
  · exact hfree.trans (d.lockWrite_computed ..)

end

/-! ## Every computation -/

/-- Whatever becomes of the command, it changes only what a computation can. -/
def ComputesOnly (i : Instr) : Prop := ∀ s : State, ∃ f : Chip → Chip, exec i s = onChip i s f ∧ ∀ c : Chip, c.OnlyComputed (f c)

theorem computesOnly_issueAt {i : Instr} {sel : Ctx → Bool} {foot : Chip → Ctx → Foot} {p : Nat} {act : Ctx → Chip → Act}
    (hexec : ∀ s, exec i s = onChip i s (issueAt sel foot p act)) (hact : ActComputes act) : ComputesOnly i :=
  fun s => ⟨_, hexec s, fun c => issueAt_computed hact c p⟩

theorem computesOnly_lane {i : Instr} {op : Nat} {foot : Ctx → Foot} {p : Nat} {act : Ctx → Chip → Act}
    (hexec : ∀ s, exec i s = onChip i s (issueLane op foot p act)) (hact : ActComputes act) : ComputesOnly i :=
  computesOnly_issueAt hexec hact

theorem computesOnly_vectorOp {i : Instr} {op n p : Nat} {f : Ctx → Chip → List Val}
    (hexec : ∀ s, exec i s = onChip i s (vectorOp op n p f)) : ComputesOnly i :=
  computesOnly_lane hexec fun x c => c.writeLanes_computed x _

theorem computesOnly_laneReduce {i : Instr} {op p : Nat} {f : List Val → Val}
    (hexec : ∀ s, exec i s = onChip i s (laneReduce op p f)) : ComputesOnly i :=
  computesOnly_lane hexec fun x c => c.writeLanes_computed x _

theorem computesOnly_rowNorm {i : Instr} {op p : Nat} {flag : Bool} {f : Ctx → Chip → Nat → List Val → List Val}
    (hexec : ∀ s, exec i s = onChip i s (rowNorm op p flag f)) : ComputesOnly i := by
  refine computesOnly_lane hexec fun x c => ?_
  dsimp only
  split
  · exact .refl c
  · refine .foldl (fun d m => ?_) _ c
    split
    · split
      · exact d.setFlag_computed ..
      · exact .refl d
    · exact d.normWrite_computed ..

theorem computesOnly_groupNorm {i : Instr} {op p : Nat} {stored : Bool} {f : Ctx → Chip → Nat → Nat → MeanDev}
    (hexec : ∀ s, exec i s = onChip i s (groupNorm op p stored f)) : ComputesOnly i := by
  refine computesOnly_lane hexec fun x c => ?_
  dsimp only
  split
  · exact .refl c
  · dsimp only [Act.chip]
    split
    · exact Chip.OnlyComputed.trans (.foldl (fun c _ => c.normWrite_computed ..) _ c) (Chip.setFlag_computed ..)
    · exact .foldl (fun c _ => c.normWrite_computed ..) _ c

section
variable (p : Nat)

theorem copy_computesOnly : ComputesOnly (.copy p) := by
  refine computesOnly_lane (fun _ => rfl) fun x c => ?_
  dsimp only [Act.chip]
  split
  · exact (c.putElems_computed ..).trans (Chip.lockWrite_computed ..)
  · exact c.putElems_computed ..

theorem convert_computesOnly : ComputesOnly (.convert p) := by
  refine computesOnly_lane (fun _ => rfl) fun x c => ?_
  dsimp only
  split
  · exact .refl c
  · split
    · exact c.putBlocks_computed ..
    · exact c.putPacked_computed ..

theorem statisticsOnly_computesOnly : ComputesOnly (.statisticsOnly p) :=
  computesOnly_lane (fun _ => rfl) fun _ c => .foldl (fun c _ => c.lockWrite_computed ..) _ c

theorem complete_computesOnly : ComputesOnly (.complete p) := by
  refine computesOnly_lane (fun _ => rfl) fun x c => .foldl (fun d g => ?_) _ c
  dsimp only
  split
  · exact (d.lockWrite_computed ..).trans (Chip.setFlag_computed ..)
  · exact d.lockWrite_computed ..

theorem padFill_computesOnly : ComputesOnly (.padFill p) := by
  refine computesOnly_lane (fun _ => rfl) fun x c => .foldl (fun d e => ?_) _ c
  dsimp only
  split <;> exact d.fillPixel_computed ..

theorem haloCheck_computesOnly : ComputesOnly (.haloCheck p) := by
  refine computesOnly_lane (fun _ => rfl) fun x c => ?_
  dsimp only
  split
  · exact .refl c
  · split <;> exact .refl c

theorem resample_computesOnly : ComputesOnly (.resample p) := by
  refine computesOnly_lane (fun _ => rfl) fun x c => ?_
  dsimp only
  split
  · exact .loop (fun _ c => c.fillPixel_computed ..) c
  · exact c.putElems_computed ..

theorem regroup_computesOnly : ComputesOnly (.regroup p) := by
  refine computesOnly_lane (fun _ => rfl) fun x c => ?_
  dsimp only
  split
  · exact .loop (fun _ c => c.fillPixel_computed ..) c
  · exact .loop (fun _ c => .loop (fun _ c => c.fillPixel_computed ..) c) c

theorem mma_computesOnly : ComputesOnly (.mma p) := by
  refine computesOnly_issueAt (fun _ => rfl) fun x c => ?_
  dsimp only
  split
  · exact .refl c
  · exact c.runProduct_computed ..

theorem chainProduct_computesOnly : ComputesOnly (.chainProduct p) := by
  refine computesOnly_issueAt (fun _ => rfl) fun x c => ?_
  dsimp only
  split
  · exact .refl c
  · split
    · split
      · exact .refl c
      · exact c.runProduct_computed ..
    · split
      · have hstats : c.OnlyComputed (if chComplete x.i then
            c.completeStats x (chainWord x) (edgeM x (chainProductOf x).edge (chainProductOf x).m) else c) := by
          split
          · exact c.completeStats_computed ..
          · exact .refl c
        exact hstats.trans ((Chip.count_computed ..).trans (Chip.runProduct_computed ..))
      · exact c.runProduct_computed ..

/-- Every command that computes reaches only what a computation can. -/
theorem computes_computesOnly : ∀ i ∈ computes p, ComputesOnly i := by
  have vector {i : Instr} {op n : Nat} {f : Ctx → Chip → List Val} (hexec : ∀ s, exec i s = onChip i s (vectorOp op n p f)) :
      ComputesOnly i := computesOnly_vectorOp hexec
  simp only [computes, List.forall_mem_cons, List.not_mem_nil, false_imp_iff, implies_true, and_true]
  refine ⟨copy_computesOnly p, convert_computesOnly p, ?add, ?subtract, ?multiply, ?fma, ?maximum, ?minimum, ?abs, ?negate, ?relu,
    ?leaky, ?affine, ?sum, ?max, ?rngContext, ?bits, ?uniform, ?uniformOpen, ?normal, ?exp2, ?exp, ?log2, ?ln, ?recip, ?div,
    ?rsqrt, ?sqrt, ?eval, ?gauss, ?layer, ?rms, ?group, ?soft, statisticsOnly_computesOnly p, ?apply, complete_computesOnly p,
    padFill_computesOnly p, ?gather, haloCheck_computesOnly p, resample_computesOnly p, regroup_computesOnly p,
    mma_computesOnly p, chainProduct_computesOnly p⟩
  case add | subtract | multiply | fma | maximum | minimum | abs | negate | relu | leaky | affine => exact vector fun _ => rfl
  case sum | max => exact computesOnly_laneReduce fun _ => rfl
  case rngContext =>
    refine computesOnly_lane (fun _ => rfl) fun _ c => ?_
    dsimp only [Act.chip]
    exact c.updRun_computed p _
  case bits | gather => exact computesOnly_lane (fun _ => rfl) fun _ c => c.putElems_computed ..
  case uniform | uniformOpen | normal => exact vector fun _ => rfl
  case exp2 | exp | log2 | ln | recip | div | rsqrt | sqrt | gauss => exact vector fun _ => rfl
  case eval => exact computesOnly_lane (fun _ => rfl) fun _ c => c.putPacked_computed ..
  case layer | rms | soft => exact computesOnly_rowNorm fun _ => rfl
  case group | apply => exact computesOnly_groupNorm fun _ => rfl

end

/-- Settles O48: a computation is an instruction whose act writes Lockets and counts for its job, and what becomes of the instruction
concerns its Bead, its post and the faults found. -/
theorem computationsKeepTheOutside : Obligations.ComputationsKeepTheOutside := by
  unfold Obligations.ComputationsKeepTheOutside
  intro s t p i hi hexec
  obtain ⟨f, hf, hcomputed⟩ := computes_computesOnly p i hi s
  obtain ⟨-, ht⟩ := onChip_next (hf ▸ hexec)
  obtain ⟨_, _, _, _, _, _, hchip⟩ := hcomputed s.chip
  rw [ht, hchip]
  exact ⟨rfl, rfl, rfl, rfl, rfl, rfl, rfl, rfl, rfl, rfl, rfl, rfl, rfl, rfl, rfl, rfl, rfl, rfl, rfl, rfl, rfl, rfl, rfl, rfl, rfl,
    rfl, rfl, rfl⟩

end Sys2Proof.Machine
end

section
/-!
What a vector operation stores (R95, R119, R360): the packed elements of its destination. Everything else that becomes of the instruction
leaves the Lockets as they are.
-/
namespace Sys2Proof.Machine
open Sys2Proof Sys2Proof.Claims

/-! ## What leaves the Lockets as they are -/

section
variable (c : Chip)

@[simp] theorem Chip.updJob_locket (j : Nat) (f : Job → Job) : (c.updJob j f).locket = c.locket := by
  unfold Chip.updJob
  split <;> rfl

@[simp] theorem Chip.count_locket (j p ovf inv : Nat) : (c.count j p ovf inv).locket = c.locket := c.updJob_locket j _

@[simp] theorem Chip.take_locket (p n : Nat) : (c.take p n).locket = c.locket := by
  rcases c.take_cases p n with htake | ⟨o, v, -, -, htake⟩
  · rw [htake]
  · rw [htake]; rfl

@[simp] theorem Chip.setVal_locket (p n : Nat) (v : SyncVal) : (c.setVal p n v).locket = c.locket := by
  unfold Chip.setVal
  split <;> rfl

@[simp] theorem Chip.foundStatus_locket (j die unit st : Nat) (step : Option Nat) (n : Named) :
    (c.foundStatus j die unit st step n).locket = c.locket := by
  unfold Chip.foundStatus Chip.found
  split
  · rfl
  · split <;> rfl

theorem Chip.postSem_locket (j p n k : Nat) : (c.postSem j p n k).locket = c.locket := by
  unfold Chip.postSem
  split
  · split
    · split
      · exact c.foundStatus_locket ..
      · exact c.setVal_locket ..
    · rfl
  · rfl

theorem Chip.drainSlot_locket (j p n : Nat) : (c.drainSlot j p n).locket = c.locket := by
  unfold Chip.drainSlot
  split
  · split
    · exact c.setVal_locket ..
    · exact c.foundStatus_locket ..
    · rfl
  · rfl

@[simp] theorem Chip.postObj_locket (j p n : Nat) : (c.postObj j p n).locket = c.locket := by
  unfold Chip.postObj
  split
  · rfl
  · split
    · split
      · exact c.postSem_locket ..
      · exact c.drainSlot_locket ..
      · rfl
    · rfl

end

theorem taken_locket (c : Chip) (x : Ctx) : (taken c x).locket = c.locket := c.take_locket ..

/-- An instruction that completes leaves the Lockets of its results. -/
theorem completed_locket (c d : Chip) (x : Ctx) : (completed c x d).locket = d.locket := by
  rw [completed, Chip.postObj_locket]
  rfl

/-! ## Packed elements of a destination (R119) -/

/-- The element at `i` of `n` packed elements lies within their bytes. -/
theorem element_end_le {f n i : Nat} (h : i < n) : (fmtBits f * i + fmtBits f + 7) / 8 ≤ elemBytes f n := by
  have hle : fmtBits f * (i + 1) ≤ n * fmtBits f := by
    rw [Nat.mul_comm n]
    exact Nat.mul_le_mul_left _ h
  rw [Nat.mul_succ] at hle
  rw [elemBytes, ceilDiv]
  omega

/-- Elements written from index `k` up change no byte outside the first `n` elements' bytes. -/
theorem Chip.putFrom_locket {c : Chip} {p bank off f n k : Nat} {codes : List Nat} (hwf : Mem.wf c.locket = true)
    (hlen : k + codes.length ≤ n) :
    Mem.wf ((codes.zipIdx k).foldl (fun c (code, i) => c.putElem p bank off f i code) c).locket = true ∧
    ∀ a, (a < lockKey p bank off ∨ lockKey p bank off + elemBytes f n ≤ a) →
      Mem.read ((codes.zipIdx k).foldl (fun c (code, i) => c.putElem p bank off f i code) c).locket a = Mem.read c.locket a := by
  induction codes generalizing c k with
  | nil => exact ⟨hwf, fun _ _ => rfl⟩
  | cons code codes ih =>
    rw [List.length_cons] at hlen
    rw [List.zipIdx_cons, List.foldl_cons]
    have hput : Mem.wf (c.putElem p bank off f k code).locket = true := wf_packedPut _ _ _ _ _ hwf
    obtain ⟨hform, hkept⟩ := ih (c := c.putElem p bank off f k code) (k := k + 1) hput (by omega)
    refine ⟨hform, fun a ha => (hkept a ha).trans (read_packedPut_outside _ _ _ _ _ hwf ?_)⟩
    have hend : (fmtBits f * k + fmtBits f + 7) / 8 ≤ elemBytes f n := element_end_le (by omega)
    omega

/-- Results for at most the instruction's lanes change only the bytes of its destination. -/
theorem Chip.writeLanes_locket {c : Chip} {x : Ctx} {vs : List Val} (hwf : Mem.wf c.locket = true) (hlen : vs.length ≤ laneCount x.i) :
    Mem.wf (c.writeLanes x vs).locket = true ∧
    ∀ a, (a < lockKey x.p (laneBankD x.i) (64 * laneAddrD x.i) ∨
        lockKey x.p (laneBankD x.i) (64 * laneAddrD x.i) + elemBytes (laneFmtD x.i) (laneCount x.i) ≤ a) →
      Mem.read (c.writeLanes x vs).locket a = Mem.read c.locket a := by
  rw [Chip.writeLanes, Chip.count_locket]
  exact Chip.putFrom_locket hwf (by simpa using hlen)

/-! ## The vector operations -/

theorem values_length (c : Chip) (p bank off f : Nat) (signed : Bool) (n : Nat) : (c.values p bank off f signed n).length = n := by
  unfold Chip.values Chip.elems
  dsimp only
  split <;> simp

theorem map1_length (f : Val → Val) (x : Ctx) (c : Chip) : (map1 f x c).length ≤ laneCount x.i := by
  simp [map1, Chip.src0, values_length]

theorem map2_length (f : Val → Val → Val) (x : Ctx) (c : Chip) : (map2 f x c).length ≤ laneCount x.i := by
  simp [map2, Chip.src0, Chip.src1, values_length]

theorem map3_length (f : Val → Val → Val → Val) (x : Ctx) (c : Chip) : (map3 f x c).length ≤ laneCount x.i := by
  simp [map3, Chip.src0, Chip.src1, Chip.src2, values_length]

/-- A ready instruction of the operation at Bead `p` completes with results for at most its lanes. -/
def WritesLanes (i : Instr) (p n op : Nat) : Prop :=
  ∀ (s : State) (x : Ctx), Ready s.chip p x (byWord (lane op)) (laneFoot n x.i) →
    ∃ vs : List Val, vs.length ≤ laneCount x.i ∧
      exec i s = .next (inState s (completed s.chip x ((taken s.chip x).writeLanes x vs)))

theorem writesLanes_vectorOp {cmd : Nat → Instr} {p n op : Nat} {f : Ctx → Chip → List Val}
    (hlen : ∀ x c, (f x c).length ≤ laneCount x.i) (hexec : ∀ p s, exec (cmd p) s = onChip (cmd p) s (vectorOp op n p f))
    (hwf : ∀ p, (cmd p).wf = isBead p) : WritesLanes (cmd p) p n op :=
  fun s x hready => ⟨f x (taken s.chip x), hlen _ _,
    completes_vectorOp (f := fun _ => f) hexec hwf (fun _ _ => rfl) s p x hready trivial⟩

theorem vectorOps_writeLanes (p : Nat) : ∀ e ∈ vectorOps p, WritesLanes e.1 p e.2.1 e.2.2 := by
  simp only [vectorOps, List.forall_mem_cons, List.not_mem_nil, false_imp_iff, implies_true, and_true]
  refine ⟨?add, ?subtract, ?multiply, ?fma, ?maximum, ?minimum, ?abs, ?negate, ?relu, ?leaky, ?affine⟩
  case add => exact writesLanes_vectorOp (cmd := .add) (map2_length _) (fun _ _ => rfl) fun _ => rfl
  case subtract => exact writesLanes_vectorOp (cmd := .subtract) (map2_length _) (fun _ _ => rfl) fun _ => rfl
  case multiply => exact writesLanes_vectorOp (cmd := .multiply) (map2_length _) (fun _ _ => rfl) fun _ => rfl
  case fma => exact writesLanes_vectorOp (cmd := .fusedMultiplyAdd) (map3_length _) (fun _ _ => rfl) fun _ => rfl
  case maximum => exact writesLanes_vectorOp (cmd := .maximum) (map2_length _) (fun _ _ => rfl) fun _ => rfl
  case minimum => exact writesLanes_vectorOp (cmd := .minimum) (map2_length _) (fun _ _ => rfl) fun _ => rfl
  case abs => exact writesLanes_vectorOp (cmd := .absoluteValue) (map1_length _) (fun _ _ => rfl) fun _ => rfl
  case negate => exact writesLanes_vectorOp (cmd := .negate) (map1_length _) (fun _ _ => rfl) fun _ => rfl
  case relu => exact writesLanes_vectorOp (cmd := .relu) (map1_length _) (fun _ _ => rfl) fun _ => rfl
  case leaky => exact writesLanes_vectorOp (cmd := .leakyRelu) (fun _ => map1_length _ _) (fun _ _ => rfl) fun _ => rfl
  case affine => exact writesLanes_vectorOp (cmd := .scalarAffine) (fun _ => map1_length _ _) (fun _ _ => rfl) fun _ => rfl

/-- Settles O49: a vector operation completes with at most one result a lane, and each result changes only the bytes of its element. -/
theorem vectorOperationsStoreOnlyTheirDestination : Obligations.VectorOperationsStoreOnlyTheirDestination := by
  unfold Obligations.VectorOperationsStoreOnlyTheirDestination
  intro s t p x i n op hop hwf hready hexec
  obtain ⟨vs, hlen, hcompletes⟩ := vectorOps_writeLanes p _ hop s x hready
  obtain ⟨rfl, -⟩ := hready.ctx
  cases hcompletes.symm.trans hexec
  have hstored := Chip.writeLanes_locket (c := taken s.chip x) (x := x) (by rwa [taken_locket]) hlen
  rw [taken_locket] at hstored
  rw [inState, completed_locket]
  exact hstored

end Sys2Proof.Machine
end

section
/-!
DMA transfers (R97, R100, R313, R370, R371, R379, R382): a ready instruction puts its transfer in flight with the rows it has read, and
what a transfer waits for comes in the state that the command's rule names.
-/
namespace Sys2Proof.Machine
open Sys2Proof Sys2Proof.Claims

/-! ## Transfers start (R97, R100, R313) -/

theorem isDma_iff (f : Nat → Bool) (x : Ctx) : isDma f x = true ↔ iClass x.i = 3 ∧ f (descOf x) = true := by
  simp [isDma, descOf]

/-- A list transfer is one whose indexed side is not a pool. -/
theorem isListDma_iff (kind : Nat) (x : Ctx) : isListDma kind x = true ↔ iClass x.i = 3 ∧ ddKind (descOf x) = kind ∧
    (if kind = 1 then ddSrcSpace (descOf x) = 0 → isPool x.cap x.v (ddSrcTensor (descOf x)) = false
      else ddDstSpace (descOf x) = 0 → isPool x.cap x.v (ddDstTensor (descOf x)) = false) := by
  rw [isListDma, isDma_iff]
  split <;> simp [imp_iff_not_or]

/-- A transfer whose plan, windows and rows answer is in flight with the rows that it has read. -/
theorem dmaStart_flies {x : Ctx} {c : Chip} {rs : List DmaRow} {rows : List (Nat × List Byte)}
    (hplan : c.dmaPlan x (descOf x) x.iteration = .rows rs none) (hopen : c.closedSource x (descOf x) = none)
    (hready : c.rowsReady x (descOf x) rs = true) (hrows : c.readRows x (descOf x) rs = .ok rows) :
    dmaStart x c = .started (c.addTransfer (c.newTransfer x (descOf x) x.iteration rows)) := by
  rw [descOf] at hplan hopen hready hrows
  simp only [dmaStart, hplan, hopen, hready, hrows, Bool.not_true, Bool.false_eq_true, if_false, descOf]

theorem startsTransfer_of {cmd : Nat → Instr} {kind : Ctx → Nat → Prop} {sel : Ctx → Bool}
    (hexec : ∀ p s, exec (cmd p) s = onChip (cmd p) s (issueDma sel p dmaStart)) (hwf : ∀ p, (cmd p).wf = isBead p)
    (hsel : ∀ y, sel y = true ↔ iClass y.i = 3 ∧ kind y (descOf y)) : StartsTransfer cmd kind :=
  fun s p _ _ _ hready hplan hopen hanswer hrows =>
    hready.starts (hexec p s) (hwf p) hsel (dmaStart_flies hplan hopen hanswer hrows)

theorem transfersStart : TransfersStart := by
  refine ⟨?copy, ?halo, ?gather, ?scatter, ?input, ?output, ?multicast⟩
  case copy => exact startsTransfer_of (fun _ _ => rfl) (fun _ => rfl) fun y => by rw [isDma_iff]; simp
  case halo => exact startsTransfer_of (fun _ _ => rfl) (fun _ => rfl) fun y => isDma_iff isHalo y
  case gather =>
    exact startsTransfer_of (fun _ _ => rfl) (fun _ => rfl) fun y => by rw [isListDma_iff, if_pos rfl]
  case scatter =>
    exact startsTransfer_of (fun _ _ => rfl) (fun _ => rfl) fun y => by rw [isListDma_iff, if_neg (by decide)]
  case input => exact startsTransfer_of (fun _ _ => rfl) (fun _ => rfl) fun y => by rw [isDma_iff, decide_eq_true_eq]
  case output => exact startsTransfer_of (fun _ _ => rfl) (fun _ => rfl) fun y => by rw [isDma_iff, decide_eq_true_eq]
  case multicast => exact startsTransfer_of (fun _ _ => rfl) (fun _ => rfl) fun y => by rw [isDma_iff, decide_eq_true_eq]

/-! ## Transfers move (R370, R371, R379, R382) -/

section
variable {c : Chip}

/-- The fill that reached an EMPTY slot before every other makes it FILLING (R371). -/
theorem fillAdmit_first {p obj : Nat} {t : Transfer} (hslot : c.objVal? p obj = some (.slot .empty false))
    (hfill : c.firstFill p obj = some t) (hfirst : ∀ n ∈ c.arrivals p obj, t.arrival p obj ≤ n) :
    fillAdmit p obj c = (c.setVal p obj (.slot .filling false)).updTransfer t.id (·.setDest p obj .filling) := by
  have hturn : c.firstArrival p obj (t.arrival p obj) = true :=
    List.all_eq_true.2 fun n hn => decide_eq_true (hfirst n hn)
  simp only [fillAdmit, hslot, hfill, hturn, if_true]

theorem fillLand_filling {p obj : Nat} {t : Transfer} {o : SyncObj} {f : Bool} {x : Ctx} (hobj : c.obj? p obj = some o)
    (hval : o.val = .slot .filling f) (hfill : c.transfers.find? (·.at_ p obj .filling) = some t) (hctx : c.xferCtx t = some x) :
    fillLand p obj c = ((c.writeObject x (dmaDesc x.cap x.v t.desc) p o t.rows).setVal p obj (.slot .full f)).updTransfer t.id
      (·.setDest p obj .landed) := by
  simp only [fillLand, hobj, hfill, hval, hctx]

theorem transfer?_id {t : Nat} {y : Transfer} (h : c.transfer? t = some y) : y.id = t := by
  simpa using List.find?_some h

variable {t : Nat} {y : Transfer} {x : Ctx} (hxfer : c.transfer? t = some y) (hctx : c.xferCtx y = some x)
include hxfer hctx

/-- A remote read whose window has opened takes its rows (R379). -/
theorem remoteAccessAdmit_read {o : Nat × Nat} {rs : List DmaRow} {rows : List (Nat × List Byte)} (hwait : y.remoteWait = some o)
    (hopen : c.objVal? o.1 o.2 = some (.window true)) (hplan : c.dmaPlan x (dmaDesc x.cap x.v y.desc) y.iter = .rows rs none)
    (hrows : c.readRows x (dmaDesc x.cap x.v y.desc) rs = .ok rows) :
    remoteAccessAdmit t c = { c.updTransfer t (fun z =>
      { z with rows := c.withHalo x (dmaDesc x.cap x.v y.desc) rows, remoteWait := none, remoteSince := none,
               window := some o,
               dests := (c.dmaObjects x (dmaDesc x.cap x.v y.desc)
                 (c.withHalo x (dmaDesc x.cap x.v y.desc) rows)).map (c.newDest c.sched.nextId) }) with
      sched := { c.sched with nextId := c.sched.nextId + 1 } } := by
  have hid := transfer?_id hxfer
  subst hid
  have hwindow : c.windowOpen o.1 o.2 = true := decide_eq_true hopen
  simp only [remoteAccessAdmit, hxfer, hctx, hwait, hwindow, if_true, Chip.openSource, hplan, hrows]

/-- A remote write that its window admits, or has admitted, is made (R379, R380). -/
theorem remoteAccessAdmit_write {e : Dest} {o : SyncObj} {w : Bool} (hwait : y.remoteWait = none) (hdests : y.dests = [e])
    (hobj : c.obj? e.p e.obj = some o) (hval : o.val = .window w) (hadmits : (w = true ∧ e.st = .waiting) ∨ e.st = .filling) :
    remoteAccessAdmit t c = (c.writeObject x (dmaDesc x.cap x.v y.desc) e.p o y.rows).updTransfer t
      (·.setDest e.p e.obj .landed) := by
  have hid := transfer?_id hxfer
  subst hid
  have htakes : ((w && decide (e.st = .waiting)) || decide (e.st = .filling)) = true := by simpa using hadmits
  simp only [remoteAccessAdmit, hxfer, hctx, hwait, Chip.landWindows, hdests, List.foldl_cons, List.foldl_nil, Chip.landWindow,
    hobj, hval, htakes, if_true]

theorem transferComplete_due (hdue : c.transferDue x y = true) :
    transferComplete t c = (({ c.writeRows x y with transfers := (c.writeRows x y).transfers.filter (·.id != t) } : Chip).postObj x.j
      x.p (ddDone (dmaDesc x.cap x.v y.desc))).postObj x.j x.p y.post := by
  simp only [transferComplete, hxfer, hctx, hdue, if_true]

end

theorem transfersMove : TransfersMove := by
  refine ⟨fun s p obj t hp hobj hslot hfill hfirst => ?admits, fun s p obj t o f x hp hn hobj hval hfill hctx => ?land,
    fun s t y x o rs rows hxfer hctx hwait hopen hplan hrows => ?read,
    fun s t y x e o w hxfer hctx hwait hdests hobj hval hadmits => ?write, fun s t y x hxfer hctx hdue => ?complete⟩
  case admits => exact exec_onChip rfl (by simp [Instr.wf, hp, hobj]) (fillAdmit_first hslot hfill hfirst)
  case land => exact exec_onChip rfl (by simp [Instr.wf, hp, hn]) (fillLand_filling hobj hval hfill hctx)
  case read => exact exec_onChip rfl rfl (remoteAccessAdmit_read hxfer hctx hwait hopen hplan hrows)
  case write => exact exec_onChip rfl rfl (remoteAccessAdmit_write hxfer hctx hwait hdests hobj hval hadmits)
  case complete => exact exec_onChip rfl rfl (transferComplete_due hxfer hctx hdue)

/-- Settles O9: a transfer starts in the command of its ready instruction, and each later command finds it in the state that it
needs. -/
theorem transfersStartAndMove : Obligations.TransfersStartAndMove := by
  unfold Obligations.TransfersStartAndMove
  exact ⟨transfersStart, transfersMove⟩

end Sys2Proof.Machine
end

section
/-!
The common tick (R26, R48 to R53): one edge, the alignment of a TICK_SYNC edge by a step or by slewing, and the end of the
tick-unaligned condition.
-/
namespace Sys2Proof.Machine
open Sys2Proof Sys2Proof.Claims

/-! ## One edge (R26) -/

/-- A tick's run time and standing waits leave the counter alone. -/
@[simp] theorem Chip.runTick_tick (c : Chip) : c.runTick.tick = c.tick := by
  unfold Chip.runTick
  split <;> rfl

@[simp] theorem TickSt.refBy_count (t : TickSt) (d : Int) : (t.refBy d).count = t.count := by
  unfold TickSt.refBy
  split <;> rfl

@[simp] theorem TickSt.refBy_lag (t : TickSt) (d : Int) : (t.refBy d).lag = t.lag := by
  unfold TickSt.refBy
  split <;> rfl

@[simp] theorem TickSt.slew_count (t : TickSt) : t.slew.count = t.count := by
  unfold TickSt.slew
  split
  · rfl
  · split
    · rfl
    · exact TickSt.refBy_count _ _

@[simp] theorem TickSt.slew_lag (t : TickSt) : t.slew.lag = t.lag := by
  unfold TickSt.slew
  split
  · rfl
  · split
    · rfl
    · exact TickSt.refBy_lag _ _

/-- A part whose clocks run: its rails are on, nothing has stopped it and no reset holds it. -/
theorem tickEdge_running {c : Chip} (hoff : c.pkg.power ≠ .off) (hstopped : c.pkg.power ≠ .stopped) (hreset : c.pkg.power ≠ .inReset)
    (htrip : c.pkg.tripLatch = false) :
    tickEdge c = { c.runTick with tick := { c.tick with count := (c.tick.count + 1) % 2 ^ 64 }.slew } := by
  unfold tickEdge
  split
  · next h => exact absurd h hoff
  · next h => exact absurd h hstopped
  · next h => exact absurd h hreset
  · simp only [htrip, Bool.false_eq_true, if_false, Chip.runTick_tick]

theorem tickRisesByOne : TickRisesByOne := by
  intro s hpending hripe hoff hstopped hreset htrip
  refine ⟨{ s with chip := tickEdge s.chip }, ?_, ?_, hpending, fun hlag => ?_⟩
  · rw [step, hpending]
    simp only [hripe]
  · simp only [tickEdge_running hoff hstopped hreset htrip, TickSt.slew_count]
  · simp only [tickEdge_running hoff hstopped hreset htrip, Chip.now, TickSt.slew_count, TickSt.slew_lag, hlag, Nat.sub_zero]

/-! ## Alignment (R49, R51, R53) -/

@[simp] theorem TickSt.withResidual_count (t : TickSt) (r : Int) : (t.withResidual r).count = t.count := rfl
@[simp] theorem TickSt.withResidual_stepped (t : TickSt) (r : Int) : (t.withResidual r).stepped = t.stepped := rfl

theorem Chip.stepTick_tick (c : Chip) (whole : Int) : (c.stepTick whole).tick =
    { c.tick.refBy (256 * whole) with
      count := codeOf 64 ((c.tick.count : Int) - whole), stepped := true, upper := (c.tick.refBy (256 * whole)).upper.map fun _ => 0 } := by
  simp only [Chip.stepTick, Chip.log_tick]

theorem Chip.mayStep_iff (c : Chip) : c.mayStep = true ↔ c.tick.firstAccept = false ∧ c.tick.stepped = false := by
  simp [Chip.mayStep]

theorem Chip.alignBy_step {c : Chip} {off whole up : Int} (hmay : c.mayStep = true) (hwhole : whole ≠ 0) :
    c.alignBy off whole up =
      { c.stepTick whole with tick := (c.stepTick whole).tick.withResidual (off - 256 * (whole - up)) } := by
  simp [Chip.alignBy, hmay, hwhole]

theorem Chip.alignBy_slew {c : Chip} {off whole up : Int} (h : c.mayStep = false ∨ whole = 0) :
    c.alignBy off whole up = { c with tick := c.tick.withResidual off } := by
  unfold Chip.alignBy
  rcases h with h | h <;> simp [h]

/-- The record of an offset beyond 2 tk is all that the monitor adds. -/
@[simp] theorem Chip.monitorTick_tick (c : Chip) (off : Int) :
    (c.monitorTick off).tick = { c.tick with unaligned := c.tick.unaligned || beyond2 off } := by
  unfold Chip.monitorTick
  split
  · next h =>
    obtain ⟨hbeyond, -⟩ := Bool.and_eq_true_iff.1 h
    simp [hbeyond]
  · next h =>
    have hsame : (c.tick.unaligned || beyond2 off) = c.tick.unaligned := by
      cases hu : c.tick.unaligned
      · simpa [hu] using h
      · rfl
    rw [hsame]

/-- A TICK_SYNC edge that a running part does not ignore (R50). -/
theorem tickSyncPulse_running {c : Chip} {frac : Nat} (hstrap : c.pkg.straps.tick ≠ 0) (hpower : c.pkg.power = .running) :
    ∃ d : Chip, d = { c with tick := { c.tick with measured := syncOffset c.tick.count frac } }.alignBy (syncOffset c.tick.count frac)
        (if c.upperDue then 0 else (syncOffset c.tick.count frac).tdiv 256 + c.tick.upper.getD 0) (c.tick.upper.getD 0) ∧
      tickSyncPulse frac c = d.monitorTick d.tick.residual := by
  refine ⟨_, rfl, ?_⟩
  unfold tickSyncPulse
  rw [if_neg (by simp [hstrap, hpower])]
  rfl

theorem exec_tickAlignedClear {s : State} (hdue : tickClearDue s.chip = true) :
    exec .tickAlignedClear s = .next (inState s ({ s.chip with tick := { s.chip.tick with unaligned := false } }.log
      (tickRec 6 0x31 (s.chip.tick.residual.tdiv 256)))) :=
  exec_onChip rfl rfl (by unfold tickAlignedClear; rw [if_pos hdue])

theorem tickAligns : TickAligns := by
  refine ⟨fun s frac off hfrac hstrap hpower hoff _ => ?_, fun s n m hset hin hn href hm => ?_⟩
  · obtain ⟨d, hd, hpulse⟩ := tickSyncPulse_running (frac := frac) hstrap hpower
    refine ⟨inState s (d.monitorTick d.tick.residual), exec_onChip rfl (decide_eq_true hfrac) hpulse, ?_, fun hkept => ?_,
      fun haccept hstepped hdue hwhole => ?_⟩
    · simp [inState, hd, hoff]
    · have hslew := Chip.alignBy_slew (c := { s.chip with tick := { s.chip.tick with measured := syncOffset s.chip.tick.count frac } })
        (off := syncOffset s.chip.tick.count frac) (up := s.chip.tick.upper.getD 0)
        (whole := if s.chip.upperDue then 0 else (syncOffset s.chip.tick.count frac).tdiv 256 + s.chip.tick.upper.getD 0)
        (hkept.imp (fun h => by simp [Chip.mayStep, h]) fun h => if_pos h)
      simp [inState, hd, hslew]
    · have hstep := Chip.alignBy_step (c := { s.chip with tick := { s.chip.tick with measured := off } }) (off := off)
        (up := s.chip.tick.upper.getD 0) ((Chip.mayStep_iff _).2 ⟨haccept, hstepped⟩) hwhole
      rw [hdue, ← hoff, if_neg (by decide), hstep] at hd
      simp [inState, hd, Chip.stepTick_tick]
  · refine ⟨_, exec_tickAlignedClear ?_, ?_, ?_⟩
    · simp [tickClearDue, Chip.pulseLong, hset, hin, href, hn, hm]
    · simp [inState]
    · simp [inState]

end Sys2Proof.Machine

namespace Sys2Proof.Claims
open Sys2Proof Sys2Proof.Machine

/-- Settles O21. -/
theorem tickRisesAndAligns : Obligations.TickRisesAndAligns := ⟨tickRisesByOne, tickAligns⟩

end Sys2Proof.Claims
end

section
/-!
Thermal readings, the thermal trip and the telemetry intervals (R47, R416, R528, R529, R649): what a reading sets on the stacks, and that
nothing of it but a trip reaches the package.
-/
namespace Sys2Proof.Machine
open Sys2Proof Sys2Proof.Claims

/-- A reading's temperature and band at stack `n` (R416, Table 12.4). -/
def Chip.readStack (r : ThermalReading) (n : Nat) (c : Chip) : Chip :=
  c.updStack n fun x => { x with temp := r.stack.getD n 0, band := tempBand (r.stack.getD n 0) }

theorem Chip.readStacks_pkg (r : ThermalReading) (n : Nat) (c : Chip) : (iter n (Chip.readStack r) c).pkg = c.pkg :=
  iter_pkg (f := Chip.readStack r) (fun _ _ => rfl) n c

theorem Chip.readStacks_stack (r : ThermalReading) {n i : Nat} (hi : i < n) (c : Chip) :
    ((iter n (Chip.readStack r) c).stack i).temp = r.stack.getD i 0 ∧
      ((iter n (Chip.readStack r) c).stack i).band = tempBand (r.stack.getD i 0) := by
  induction n with
  | zero => exact absurd hi (Nat.not_lt_zero i)
  | succ n ih =>
    rw [iter_succ, Chip.readStack, Chip.updStack, Chip.setStack_stack]
    by_cases hn : i = n
    · rw [if_pos hn, hn]
      exact ⟨rfl, rfl⟩
    · rw [if_neg hn]
      exact ih (by omega)

/-- What limiting and the maxima leave alone: the package and the stacks. -/
def Chip.SamePkgStacks (c d : Chip) : Prop := d.pkg = c.pkg ∧ d.stackTab = c.stackTab

theorem Chip.SamePkgStacks.trans {a b c : Chip} (h1 : a.SamePkgStacks b) (h2 : b.SamePkgStacks c) : a.SamePkgStacks c :=
  ⟨h2.1.trans h1.1, h2.2.trans h1.2⟩

theorem Chip.noteMax_keeps (c : Chip) (ts : List Int) : c.SamePkgStacks (c.noteMax ts) := by
  unfold Chip.noteMax
  split <;> exact ⟨rfl, rfl⟩

theorem Chip.limitFacet_keeps (c : Chip) (r : ThermalReading) (f : Nat) : c.SamePkgStacks (c.limitFacet r f) := by
  unfold Chip.limitFacet Chip.SamePkgStacks
  extract_lets
  split
  · split
    · simp
    · split <;> simp
  · split <;> simp

theorem Chip.limitFacets_keep (c : Chip) (r : ThermalReading) (n : Nat) :
    c.SamePkgStacks (iter n (fun f c => c.limitFacet r f) c) :=
  iter_keeps Chip.SamePkgStacks (fun _ => ⟨rfl, rfl⟩) (fun _ _ _ => Chip.SamePkgStacks.trans) n _ (fun f c => c.limitFacet_keeps r f) c

/-- The part before a reading's trip: stacks, the interval's maxima and limiting. -/
def Chip.afterReading (r : ThermalReading) (c : Chip) : Chip :=
  iter 5 (fun f c => c.limitFacet r f) ((iter 20 (Chip.readStack r) c).noteMax (dieReadings r))

theorem Chip.afterReading_keeps (r : ThermalReading) (c : Chip) :
    (c.afterReading r).pkg = c.pkg ∧ (c.afterReading r).stackTab = (iter 20 (Chip.readStack r) c).stackTab := by
  obtain ⟨hpkg, hstacks⟩ := (Chip.noteMax_keeps _ _).trans
    (Chip.limitFacets_keep ((iter 20 (Chip.readStack r) c).noteMax (dieReadings r)) r 5)
  exact ⟨hpkg.trans (Chip.readStacks_pkg r 20 c), hstacks⟩

theorem Chip.afterReading_stack (r : ThermalReading) (c : Chip) {i : Nat} (hi : i < 20) :
    ((c.afterReading r).stack i).temp = r.stack.getD i 0 ∧ ((c.afterReading r).stack i).band = tempBand (r.stack.getD i 0) := by
  have h := Chip.readStacks_stack r hi c
  rw [Chip.stack] at h ⊢
  rwa [(c.afterReading_keeps r).2]

/-- The part once something has tripped: its record is written and the latch is set. -/
def Chip.tripped (c : Chip) (t : Trip) : Chip :=
  let d := c.log (thermalRec 5 0x21 t.dom t.die t.unit t.temp)
  { d with pkg := { d.pkg with tripLatch := true } }

theorem Chip.tripped_stackTab (c : Chip) (t : Trip) : (c.tripped t).stackTab = c.stackTab := Chip.log_stackTab ..

theorem Chip.tripped_pkg (c : Chip) (t : Trip) : (c.tripped t).pkg = { c.pkg with tripLatch := true } := by
  simp only [Chip.tripped, Chip.log_pkg]

/-- A reading of a running part at a multiple of 125,000 tk. -/
theorem thermalReading_running {c : Chip} (r : ThermalReading) (hnow : c.now % 125000 = 0) (hpower : c.pkg.power = .running) :
    thermalReading r c = (tripOf r).elim (c.afterReading r) (c.afterReading r).tripped := by
  have hstacks : (fun n (d : Chip) => d.updStack n fun x => { x with temp := r.stack.getD n 0, band := tempBand (r.stack.getD n 0) }) =
      Chip.readStack r := rfl
  have hguard : ¬(c.now % 125000 != 0 || c.pkg.power = .off || c.pkg.power = .inReset || c.pkg.power = .stopped) = true := by
    simp [hnow, hpower]
  unfold thermalReading
  rw [if_neg hguard]
  dsimp only
  rw [hstacks, ← Chip.afterReading]
  generalize c.afterReading r = d
  cases tripOf r <;> rfl

theorem exec_thermalReading {s : State} {r : ThermalReading} (hwf : r.wf = true) (hnow : s.chip.now % 125000 = 0)
    (hpower : s.chip.pkg.power = .running) : ∃ t : State, exec (.thermalReading r) s = .next t ∧
      t.chip.stackTab = (s.chip.afterReading r).stackTab ∧ (tripOf r = none → t.chip.pkg = s.chip.pkg) ∧
      (tripOf r ≠ none → t.chip.pkg = { s.chip.pkg with tripLatch := true }) := by
  have hpkg := (s.chip.afterReading_keeps r).1
  have hreading := thermalReading_running r hnow hpower
  generalize s.chip.afterReading r = d at hpkg hreading ⊢
  refine ⟨_, exec_onChip rfl hwf hreading, ?_⟩
  cases tripOf r with
  | none => exact ⟨rfl, fun _ => hpkg, fun h => absurd rfl h⟩
  | some t => exact ⟨d.tripped_stackTab t, nofun, fun _ => (d.tripped_pkg t).trans (by rw [hpkg])⟩

/-- The tick edge after a trip stops every clock (R529). -/
theorem tickEdge_tripped {c : Chip} (hclocked : c.clocked = true) (htrip : c.pkg.tripLatch = true) :
    tickEdge c = { c with pkg := { c.pkg with power := .stopped } } := by
  unfold tickEdge
  unfold Chip.clocked at hclocked
  split
  · next h => rw [h] at hclocked; cases hclocked
  · next h => rw [h] at hclocked; cases hclocked
  · next h => rw [h] at hclocked; cases hclocked
  · rw [if_pos htrip]

/-- The end of the telemetry interval that is in progress in a running part (R47, R649). -/
theorem telemetryIntervalEnd_running {c : Chip} (r : PowerReading) (hpower : c.pkg.power = .running) (hstart : c.telem.start < c.now)
    (hend : c.now % c.telem.nextInterval = 0) : telemetryIntervalEnd r c = { c with
      telem := { c.telem with
        interval := c.telem.nextInterval, start := c.now, lastPower := r.package, lastDie := r.die,
        lastMax := List.zipWith (fun a b => if a = -32768 then b else a) c.telem.runMax c.telem.lastMax,
        runMax := c.telem.nextMax, nextMax := List.replicate 8 (-32768) } } := by
  unfold telemetryIntervalEnd
  exact if_pos (by simp [hpower, Chip.intervalEnds, hstart, hend])

end Sys2Proof.Machine

namespace Sys2Proof.Claims
open Sys2Proof Sys2Proof.Machine

/-- Settles O24: limiting and the maxima touch neither the stacks nor the package, so that a reading leaves there what it has read, and
a trip its latch alone. -/
theorem readingsAct : Obligations.ReadingsAct := by
  refine ⟨fun s r hwf hnow hpower => ?_, fun s hpending hripe hclocked htrip => ?_, fun s r hwf hpower hstart hend => ?_⟩
  · obtain ⟨t, hexec, hstacks, hcold, htrip⟩ := exec_thermalReading hwf hnow hpower
    refine ⟨t, hexec, fun i hi => ?_, hcold, htrip⟩
    have h := s.chip.afterReading_stack r hi
    rw [Chip.stack] at h ⊢
    rwa [hstacks]
  · rw [step, hpending]
    simp only [hripe, tickEdge_tripped hclocked htrip, inState, hpending]
  · exact ⟨_, exec_onChip rfl hwf (telemetryIntervalEnd_running r hpower hstart hend), rfl, rfl, rfl, rfl, rfl, rfl⟩

end Sys2Proof.Claims
end

section
/-!
Jobs that leave their groups, limits, watchdogs and retention (R45, R98, R111, R309, R375, R376, R389, R399 to R401, R489, R490, R494): the
meaning of each command in the case in which it acts.
-/
namespace Sys2Proof.Machine
open Sys2Proof Sys2Proof.Claims

/-! ## UNBIND (R111, R389, R490, R494) -/

theorem Chip.finished_bound {c : Chip} {j : Nat} {x : Job} (h : c.finished j x = true) : x.phase = .bound := by
  simp only [Chip.finished, Bool.and_eq_true, decide_eq_true_eq] at h
  exact h.1.1

theorem Chip.savable_bound {c : Chip} {j : Nat} {x : Job} (h : c.savable j x = true) : x.phase = .bound := by
  simp only [Chip.savable, Bool.and_eq_true, decide_eq_true_eq] at h
  exact h.1.1.1.1.1.1.1.1.1.1

/-- The job leaves its group as `y`, where it stood as `x`, and the Caskets go into retention when nothing is bound. -/
def Chip.unbound (c : Chip) (j : Nat) (y x : Job) : Chip := ((c.setJob j y.left).leaveGroup j x).casketRetention

theorem unbind_stopping {c : Chip} {j : Nat} {x : Job} (hjob : c.job? j = some x) (hphase : x.phase = .stopping)
    (hdevice : c.pkg.deviceFault = false) : unbind j c = c.unbound j x x := by
  simp only [unbind, hjob, hphase, if_true, hdevice, Bool.false_eq_true, if_false, Chip.unbound]

theorem unbind_finished {c : Chip} {j : Nat} {x : Job} (hjob : c.job? j = some x) (hfinished : c.finished j x = true) :
    unbind j c = c.unbound j { x with ending := some (if x.cancel then stCancelled else stOK) }
      { x with ending := some (if x.cancel then stCancelled else stOK) } := by
  have hphase : x.phase ≠ .stopping := by simp [Chip.finished_bound hfinished]
  simp only [unbind, hjob, if_neg hphase, hfinished, if_true, Chip.unbound]

theorem unbind_savable {c : Chip} {j : Nat} {x z : Job} (hjob : c.job? j = some x) (hfinished : c.finished j x = false)
    (hsavable : c.savable j x = true) (hafter : (c.endYields j x).job? j = some z) (hbound : z.phase = .bound) :
    unbind j c = (c.endYields j x).unbound j { z with mid := some ((c.endYields j x).saveMid j z), resumeDue := true } z := by
  have hphase : x.phase ≠ .stopping := by simp [Chip.savable_bound hsavable]
  have hstill : (z.phase != .bound) = false := by simp [hbound]
  simp only [unbind, hjob, if_neg hphase, hfinished, hsavable, if_true, hafter, hstill, Bool.false_eq_true, if_false, Chip.unbound]

/-! ## Limits and watchdogs (R45, R309, R375, R376, R489) -/

theorem runLimitExpiry_due {c : Chip} {j : Nat} {x : Job} (hjob : c.job? j = some x) (hphase : x.phase = .bound)
    (hdue : x.runLimit ≤ x.runTicks) : runLimitExpiry j c = c.endJob j stJobLimit := by
  simp only [runLimitExpiry, hjob]
  exact if_pos (by simp [hphase, hdue])

theorem Chip.endJob_bound {c : Chip} {j : Nat} {x : Job} (hjob : c.job? j = some x) (hphase : x.phase = .bound)
    (hledger : x.ledger = .accepted) (hending : x.ending = none) (st : Nat) :
    (c.endJob j st).job? j = some { x with openGens := [], phase := .stopping, ending := some st } := by
  have hopen : (x.ledger != .accepted || x.ending.isSome) = false := by simp [hledger, hending]
  simp only [Chip.endJob, hjob, hopen, hphase, Bool.false_eq_true, if_false]
  rw [Chip.updJob_of_job (c.stopJob_job? j x), Chip.setJob_job?, if_pos rfl]

theorem slotWatchdogExpiry_late {c : Chip} {j : Nat} {x : Job} {w : Late} {ws : List Late} (hjob : c.job? j = some x)
    (hphase : x.phase = .bound) (hlate : c.expiredWaits j x = w :: ws) :
    slotWatchdogExpiry j c = c.raiseNamed j w.p stSlotTimeout (c.bead w.p).run.step (c.lateNamed w) := by
  have hbound : (x.phase != .bound) = false := by simp [hphase]
  simp only [slotWatchdogExpiry, hjob, hbound, Bool.false_eq_true, if_false, hlate]

theorem roundWaitExpiry_late {c : Chip} {p : Nat} {x : Ctx} (hissue : c.canIssue p = some x)
    (hlate : ∃ w ∈ (c.bead p).waits, w.kind = .decide ∧ w.since + watchTicks ≤ c.now ∧ c.available p w.obj = false) :
    roundWaitExpiry p c =
      c.raiseDie x.j (dieFacet (physFacet p)) stRoundIncomplete x.run.step (.decision (ctrlOperand x.i)) := by
  obtain ⟨w, hw, hkind, hsince, hwaits⟩ := hlate
  simp only [roundWaitExpiry, hissue]
  exact if_pos (List.any_eq_true.2 ⟨w, hw, by simp [hkind, hsince, hwaits]⟩)

theorem beadProgressExpiry_late {c : Chip} {p : Nat} {x : Ctx} (hissue : c.canIssue p = some x) (hwaits : (c.bead p).waits = [])
    (havailable : c.available p (iWait x.i) = true) (hfree : x.unitBusy = false)
    (hstood : (c.bead p).stoodSince + progressTicks ≤ c.now) :
    beadProgressExpiry p c = c.beadFault p domBead 0x05 0 (c.bead p).run.pos := by
  simp only [beadProgressExpiry, hissue]
  exact if_pos (by simp [hwaits, havailable, hfree, hstood])

/-! ## Retention (R399 to R401) -/

theorem FacetSt.casketAwake_casketWake (x : FacetSt) {w : Nat} (now : Nat) (h : x.casketWake = some w) :
    (x.casketAwake now).casketWake = if w + 1500 ≤ now then none else some w := by
  rw [FacetSt.casketAwake, h, Option.any_some, wakeTicks]
  by_cases hw : w + 1500 ≤ now
  · simp [hw]
  · simp [hw, h]

@[simp] theorem FacetSt.casketAwake_wakeStamp (x : FacetSt) (now : Nat) : (x.casketAwake now).wakeStamp = x.wakeStamp := by
  unfold FacetSt.casketAwake
  split <;> rfl

@[simp] theorem FacetSt.casketAwake_retention (x : FacetSt) (now : Nat) : (x.casketAwake now).retention = x.retention := by
  unfold FacetSt.casketAwake
  split <;> rfl

theorem idleDelayExpiry_due {c : Chip} {f : Nat} (hpower : c.pkg.power = .running) (hawake : (c.facet f).retention = 0)
    (hdelay : (c.facet f).idleDelay ≠ u32max) (hidle : c.facetIdle f = true)
    (hdue : (c.facet f).idleSince + (c.facet f).idleDelay ≤ c.now) :
    idleDelayExpiry f c = (c.setFacet f { c.facet f with retention := 1 }).casketRetention := by
  unfold idleDelayExpiry
  exact if_pos (by simp [hpower, hawake, hdelay, hidle, hdue])

theorem wakeComplete_still {c : Chip} {f : Nat} (hwake : (c.facet f).wakeStamp = none) :
    wakeComplete f c = c.setFacet f ((c.facet f).casketAwake c.now) := by
  simp only [wakeComplete, FacetSt.casketAwake_wakeStamp, hwake]

/-- A wake that is over changes the Beads of the jobs on the Facet, and the Facet. -/
theorem wakeComplete_due {c : Chip} {f w : Nat} (hwake : (c.facet f).wakeStamp = some w) (hwaking : (c.facet f).retention = 3)
    (hdue : w + 1500 ≤ c.now) : ∃ beads, wakeComplete f c =
      { c with beads := beads }.setFacet f { (c.facet f).casketAwake c.now with retention := 0, wakeStamp := none } := by
  have hover : (decide (((c.facet f).casketAwake c.now).retention = 3) && decide (w + wakeTicks ≤ c.now)) = true := by
    simp [hwaking, wakeTicks, hdue]
  obtain ⟨beads, hbeads⟩ := foldl_keeps (fun a b : Chip => ∃ beads, b = { a with beads := beads }) (fun _ => ⟨_, rfl⟩)
    (fun _ _ _ ⟨_, h1⟩ ⟨_, h2⟩ => ⟨_, h1 ▸ h2⟩)
    (fun (d : Chip) (e : Nat × Job) => if e.2.holds && (groupFacets e.2.size e.2.base).contains f
      then d.updGroup e.2 fun b => { b with stoodSince := d.now } else d)
    (fun d e => by
      split
      · exact d.updGroup_eq e.2 _
      · exact ⟨_, rfl⟩) c.jobs c
  refine ⟨beads, ?_⟩
  simp only [wakeComplete, FacetSt.casketAwake_wakeStamp, hwake, hover, if_true, hbeads]

end Sys2Proof.Machine

namespace Sys2Proof.Claims
open Sys2Proof Sys2Proof.Machine

/-- Settles O17: one equation of UNBIND for each way out of a group. -/
theorem jobsLeaveTheirGroups : Obligations.JobsLeaveTheirGroups := by
  refine ⟨fun s j x hjob hphase hdevice => ?_, fun s j x y hjob hfinished hy => ?_,
    fun s c j x y z hjob hfinished hsavable hc hafter hbound hy => ?_⟩
  · exact exec_onChip rfl rfl (unbind_stopping hjob hphase hdevice)
  · subst hy
    exact exec_onChip rfl rfl (unbind_finished hjob hfinished)
  · subst hc hy
    exact exec_onChip rfl rfl (unbind_savable hjob hfinished hsavable hafter hbound)

theorem limitsAndWatchdogsAct : LimitsAndWatchdogsAct := by
  refine ⟨fun s j x hjob hphase hdue => ⟨?_, fun hledger hending => ?_⟩, fun s j x w ws hjob hphase hlate => ?_,
    fun s p x hbead hissue hlate => ?_, fun s p x hbead hissue hwaits havailable hfree hstood => ?_⟩
  · exact exec_onChip rfl rfl (runLimitExpiry_due hjob hphase hdue)
  · exact ⟨_, Chip.endJob_bound hjob hphase hledger hending stJobLimit, rfl, rfl⟩
  · exact exec_onChip rfl rfl (slotWatchdogExpiry_late hjob hphase hlate)
  · exact exec_onChip rfl hbead (roundWaitExpiry_late hissue hlate)
  · exact exec_onChip rfl hbead (beadProgressExpiry_late hissue hwaits havailable hfree hstood)

theorem retentionComesAndGoes : RetentionComesAndGoes := by
  refine ⟨fun s f hfacet hpower hawake hdelay hidle hdue => ?_, fun s f w hfacet hwake hwaking hdue => ?_,
    fun s f hfacet hwake => ?_, fun x w now h => x.casketAwake_casketWake now h⟩
  · exact exec_onChip rfl hfacet (idleDelayExpiry_due hpower hawake hdelay hidle hdue)
  · obtain ⟨beads, h⟩ := wakeComplete_due hwake hwaking hdue
    exact ⟨_, exec_onChip rfl hfacet h, rfl, rfl⟩
  · exact exec_onChip rfl hfacet (wakeComplete_still hwake)

/-- Settles O19. -/
theorem limitsWatchdogsAndRetentionAct : Obligations.LimitsWatchdogsAndRetentionAct :=
  ⟨limitsAndWatchdogsAct, retentionComesAndGoes⟩

end Sys2Proof.Claims
end

section
/-!
Doorbells, loads, unloads and weight reloads (R67, R433, R473, R477, R490, R499, R679, R685): the meaning of each in the cases in which the
part takes it.
-/
namespace Sys2Proof.Machine
open Sys2Proof Sys2Proof.Claims

/-! ## Doorbells (R473, R490, R499, R685) -/

theorem isPageWrite_u32 {v : Nat} (hv : v < 2 ^ 32) : isPageWrite 4 v = true := by
  simpa [isPageWrite, fits] using hv

/-- A doorbell write of a u32 that the part has the head for. -/
theorem doorbell_wf {head v : Nat} (hhead : isHead head = true) (hv : v < 2 ^ 32) : (isHead head && isPageWrite 4 v) = true := by
  rw [hhead, isPageWrite_u32 hv]
  rfl

section
variable {c : Chip} {production : Bool} {head q : Nat}

theorem submissionDoorbell_taken (v : Nat) (htaken : c.doorbell production head q 4 = true) :
    submissionDoorbell head q 4 v production c = c.updQueue q fun x => { x with tail := v % x.ringEntries } := if_pos htaken

/-- Records that a journal doorbell's head passes: from where the journal's head stands to where it goes (R685). -/
def QueueSt.passes (x : QueueSt) (v : Nat) : Nat := (v % x.journalEntries + x.journalEntries - x.jHead) % x.journalEntries

theorem journalDoorbell_taken (v : Nat) (htaken : c.doorbell production head q 4 = true) :
    journalDoorbell head q 4 v production c =
      if (c.queue q).passes v = 0 then
        (if (c.queue q).jHeld = (c.queue q).journalEntries then c.release q (c.queue q).journalEntries else c)
      else if (c.queue q).jHeld < (c.queue q).passes v then c
      else c.release q ((c.queue q).passes v) := if_pos htaken

theorem Chip.cancelJob_eq (c : Chip) (j : Nat) (x : Job) : c.cancelJob j x =
    if x.phase = .waiting ∨ x.phase = .stopping then c.endJob j stCancelled else c.setJob j { x with cancel := true } := by
  unfold Chip.cancelJob
  cases x.phase <;> simp

theorem cancelDoorbell_taken {v j : Nat} {x : Job} (htaken : c.doorbell production head q 4 = true)
    (hjob : List.find? (fun e : Nat × Job => e.2.queue = q && e.2.seq = v && e.2.ledger = .accepted) c.jobs = some (j, x)) :
    cancelDoorbell head q 4 v production c =
      if x.phase = .waiting ∨ x.phase = .stopping then c.endJob j stCancelled else c.setJob j { x with cancel := true } := by
  rw [cancelDoorbell, if_pos htaken, hjob]
  exact c.cancelJob_eq j x

end

theorem doorbellsComplete : DoorbellsComplete := by
  refine ⟨fun s head q v hhead _ hv htaken => ?_, fun s head q v n hhead _ hv htaken hn => ?_,
    fun s head q v j x hhead _ hv htaken hjob => ?_⟩
  · exact exec_onChip rfl (doorbell_wf hhead hv) (submissionDoorbell_taken v htaken)
  · have hpasses : (s.chip.queue q).passes v = n := hn.symm
    have hrings := journalDoorbell_taken v htaken
    rw [hpasses] at hrings
    refine ⟨fun hpos hheld => ?_, fun hzero hfull => ?_, fun hover => ?_⟩
    · exact exec_onChip rfl (doorbell_wf hhead hv) (by rw [hrings, if_neg (by omega), if_neg (by omega)])
    · exact exec_onChip rfl (doorbell_wf hhead hv) (by rw [hrings, if_pos hzero, if_pos hfull])
    · exact exec_onChip (d := s.chip) rfl (doorbell_wf hhead hv) (by rw [hrings, if_neg (by omega), if_pos hover])
  · exact exec_onChip rfl (doorbell_wf hhead hv) (cancelDoorbell_taken htaken hjob)

/-! ## Settings (R67, R477, R679) -/

section
variable {c : Chip} {q : Nat}

theorem loadSetting_fails (htakes : c.takes q = true) (hop : djOp (c.nextDesc q) = 1) (hfails : c.loadStatus (c.nextDesc q) ≠ stOK) :
    loadSetting q c = c.answer q 4 (c.loadStatus (c.nextDesc q)) (c.nextDesc q) := by
  simp only [loadSetting, htakes, hop, decide_true, Bool.and_self, if_true, if_neg hfails]

/-- The Setting of the next descriptor is in its place. -/
def Chip.withSetting (c : Chip) (h : Nat) (x : SettingSt) : Chip := { c with settings := c.settings.put h x }

theorem loadSetting_loads {ws : List (Nat × Nat)} {d : Chip} (htakes : c.takes q = true) (hop : djOp (c.nextDesc q) = 1)
    (hpasses : c.loadStatus (c.nextDesc q) = stOK) (hbarrier : c.barrierOn = false)
    (hroom : c.placeWeights (djOutAddr (c.nextDesc q)) (weightPlan (c.loadCapsule (c.nextDesc q))) = some (ws, d)) :
    loadSetting q c = (d.withSetting (djSetting (c.nextDesc q))
      { capsule := c.loadCapsule (c.nextDesc q), weightAddr := djOutAddr (c.nextDesc q), weights := ws }).answer q 4 stOK
        (c.nextDesc q) := by
  simp only [loadSetting, htakes, hop, decide_true, Bool.and_self, if_true, hpasses, hbarrier, Bool.false_eq_true, if_false, hroom,
    Chip.withSetting]

theorem unloadSetting_unknown (htakes : c.takes q = true) (hop : djOp (c.nextDesc q) = 2) (hreserved : djReservedOk (c.nextDesc q) = true)
    (hnone : c.settings.find? (djSetting (c.nextDesc q)) = none) (hloading : c.loading (djSetting (c.nextDesc q)) = false) :
    unloadSetting q c = c.answer q 4 stSettingUnknown (c.nextDesc q) := by
  simp only [unloadSetting, htakes, hop, decide_true, Bool.and_self, if_true, hreserved, Bool.not_true, Bool.false_eq_true, if_false,
    hnone, hloading]

theorem unloadSetting_busy {x : SettingSt} (htakes : c.takes q = true) (hop : djOp (c.nextDesc q) = 2)
    (hreserved : djReservedOk (c.nextDesc q) = true) (hfind : c.settings.find? (djSetting (c.nextDesc q)) = some x)
    (hbusy : c.settingBusy (djSetting (c.nextDesc q)) = true) :
    unloadSetting q c = c.answer q 4 stSettingInUse (c.nextDesc q) := by
  simp only [unloadSetting, htakes, hop, decide_true, Bool.and_self, if_true, hreserved, Bool.not_true, Bool.false_eq_true, if_false,
    hfind, hbusy]

/-- The handle of a Setting is free and its marks are gone. -/
def Chip.withoutSetting (c : Chip) (h : Nat) : Chip :=
  { c with settings := c.settings.erase h, mem := { c.mem with weightMarks := c.mem.weightMarks.filter (·.1 != h) } }

theorem unloadSetting_unloads {x : SettingSt} (htakes : c.takes q = true) (hop : djOp (c.nextDesc q) = 2)
    (hreserved : djReservedOk (c.nextDesc q) = true) (hfind : c.settings.find? (djSetting (c.nextDesc q)) = some x)
    (hbusy : c.settingBusy (djSetting (c.nextDesc q)) = false) :
    unloadSetting q c = ((x.weights.foldl (fun c w => c.freeAlloc w.2) c).withoutSetting (djSetting (c.nextDesc q))).answer q 4 stOK
      (c.nextDesc q) := by
  simp only [unloadSetting, htakes, hop, decide_true, Bool.and_self, if_true, hreserved, Bool.not_true, Bool.false_eq_true, if_false,
    hfind, hbusy, Chip.withoutSetting]

end

theorem settingsLoadAndUnload : SettingsLoadAndUnload := by
  refine ⟨fun s q ws c hq htakes hop hpasses hbarrier hroom => ?_, fun s q hq htakes hop hfails => ?_,
    fun s q x hq htakes hop hreserved hfind => ⟨fun hbusy => ?_, fun hbusy => ?_⟩,
    fun s q hq htakes hop hreserved hnone hloading => ?_⟩
  · exact ⟨_, exec_onChip rfl hq (loadSetting_loads htakes hop hpasses hbarrier hroom), (Tbl.find?_put ..).trans (if_pos rfl), rfl⟩
  · exact exec_onChip rfl hq (loadSetting_fails htakes hop hfails)
  · exact exec_onChip rfl hq (unloadSetting_busy htakes hop hreserved hfind hbusy)
  · exact ⟨_, _, exec_onChip rfl hq (unloadSetting_unloads htakes hop hreserved hfind hbusy), rfl, rfl⟩
  · exact exec_onChip rfl hq (unloadSetting_unknown htakes hop hreserved hnone hloading)

/-! ## Weights (R433, R477) -/

theorem weightReload_marked {c : Chip} {h tid : Nat} {x : SettingSt} {w : Nat × Nat × Nat} {a : Alloc}
    (hsetting : c.settings.find? h = some x)
    (hplan : (weightPlan x.capsule).find? (·.1 = tid) = some w) (halloc : (x.weights.lookup tid).bind c.alloc? = some a)
    (hserves : c.serves = true) (hhost : c.hostUp = true) (hmarked : c.mem.weightMarks.contains (h, tid) = true)
    (hbarrier : c.barrierOn = false) : ∃ d : Chip,
    d = c.storeAt (c.allocPlace a 0) 0 (c.hostRead (x.weightAddr + w.2.1) w.2.2) ∧
      weightReload h tid c = { d with mem := { d.mem with weightMarks := d.mem.weightMarks.filter (· != (h, tid)) } } := by
  refine ⟨_, rfl, ?_⟩
  simp only [weightReload, hsetting, hplan, halloc, hserves, hhost, hmarked, hbarrier, Bool.not_false, Bool.and_self, if_true]

theorem weightsReload : WeightsReload := by
  intro s h tid x w a hsetting hplan halloc hserves hhost hmarked hbarrier
  obtain ⟨d, hd, hreload⟩ := weightReload_marked hsetting hplan halloc hserves hhost hmarked hbarrier
  exact ⟨_, d, exec_onChip rfl rfl hreload, hd, rfl⟩

end Sys2Proof.Machine

namespace Sys2Proof.Claims
open Sys2Proof Sys2Proof.Machine

/-- Settles O14. -/
theorem doorbellsAndSettingsComplete : Obligations.DoorbellsAndSettingsComplete :=
  ⟨doorbellsComplete, settingsLoadAndUnload, weightsReload⟩

end Sys2Proof.Claims
end

section
/-!
Binding (R111, R112, R400, R487, R488, R493, R608, R678): what is done for one job tried, and why its pick is the largest size and the
lowest group that are free.
-/
namespace Sys2Proof.Machine
open Sys2Proof Sys2Proof.Claims

/-! ## The order of sizes and groups (R488, Table 2.10) -/

/-- The first hit of a search in a list that is in order: nothing before it in the order is one. -/
theorem findSome?_first {α β : Type} {R : α → α → Prop} (hasymm : ∀ a b, R a b → ¬R b a) {l : List α} (hl : l.Pairwise R)
    {f : α → Option β} {b : β} (hb : l.findSome? f = some b) : ∃ a ∈ l, f a = some b ∧ ∀ x ∈ l, R x a → f x = none := by
  obtain ⟨l₁, a, l₂, rfl, ha, hnone⟩ := List.findSome?_eq_some_iff.1 hb
  refine ⟨a, by simp, ha, fun x hx hxa => ?_⟩
  obtain ⟨-, hrest, -⟩ := List.pairwise_append.1 hl
  rcases List.mem_append.1 hx with h | h
  · exact hnone x h
  · rcases List.mem_cons.1 h with rfl | h
    · exact absurd hxa (hasymm _ _ hxa)
    · exact absurd hxa (hasymm _ _ ((List.pairwise_cons.1 hrest).1 x h))

theorem Chip.sizesOf_descending (c : Chip) (x : Job) : (c.sizesOf x).Pairwise fun a b => b < a :=
  ((List.pairwise_reverse.2 List.pairwise_lt_range).filter _).filter _

theorem range_map_mul_ascending {k : Nat} (hk : 0 < k) (n : Nat) : ((List.range n).map (k * ·)).Pairwise (· < ·) :=
  List.pairwise_map.2 (List.pairwise_lt_range.imp fun h => Nat.mul_lt_mul_of_pos_left h hk)

theorem groupBases_ascending (size : Nat) : (groupBases size).Pairwise (· < ·) := by
  unfold groupBases
  split
  · exact range_map_mul_ascending (by decide) 40
  · exact range_map_mul_ascending (by decide) 20
  · exact range_map_mul_ascending (by decide) 10
  · exact range_map_mul_ascending (by decide) 5
  · exact range_map_mul_ascending (by decide) 4
  · decide
  · decide
  · exact .nil

/-! ## A pick (R111, R112, R488) -/

/-- The place that a size and a group give a job. -/
def Chip.pickAt (c : Chip) (x : Job) (s b : Nat) : Pick := ⟨s, (findVariant (c.capsule x.setting) s x.tuple).getD 0, b⟩

theorem Chip.mem_sizesOf {c : Chip} {x : Job} {s : Nat} (h : s ∈ c.sizesOf x) : c.restoreStatus x s = none :=
  Option.isNone_iff_eq_none.1 (List.mem_filter.1 h).2

/-- A group of a size at which the job fits; none: no group of the size is free. -/
def Chip.groupAt (c : Chip) (j : Nat) (x : Job) (s : Nat) : Option Pick :=
  (groupBases s).findSome? fun b => if c.fits j x (c.pickAt x s b) then some (c.pickAt x s b) else none

theorem Chip.pick_eq (c : Chip) (j : Nat) (x : Job) : c.pick j x = (c.sizesOf x).findSome? (c.groupAt j x) := rfl

theorem Chip.groupAt_none {c : Chip} {j : Nat} {x : Job} {s : Nat} (h : c.groupAt j x s = none) :
    ∀ b ∈ groupBases s, c.fits j x (c.pickAt x s b) = false := by
  intro b hb
  simpa using List.findSome?_eq_none_iff.1 h b hb

theorem Chip.groupAt_some {c : Chip} {j : Nat} {x : Job} {s : Nat} {k : Pick} (h : c.groupAt j x s = some k) :
    k.size = s ∧ k.base ∈ groupBases s ∧ c.fits j x k = true ∧
      ∀ b ∈ groupBases s, b < k.base → c.fits j x (c.pickAt x s b) = false := by
  obtain ⟨b, hb, hk, hbefore⟩ := findSome?_first (fun _ _ => Nat.lt_asymm) (groupBases_ascending s) h
  rw [Option.ite_none_right_eq_some] at hk
  obtain ⟨hfits, hk⟩ := hk
  cases hk
  exact ⟨rfl, hb, hfits, fun b' hb' hlt => by simpa using hbefore b' hb' hlt⟩

theorem Chip.pick_some {c : Chip} {j : Nat} {x : Job} {k : Pick} (h : c.pick j x = some k) :
    k.size ∈ c.sizesOf x ∧ c.restoreStatus x k.size = none ∧ k.base ∈ groupBases k.size ∧ c.fits j x k = true ∧
      ∀ s b, s ∈ c.sizesOf x → b ∈ groupBases s → (k.size < s ∨ (s = k.size ∧ b < k.base)) →
        c.fits j x (c.pickAt x s b) = false := by
  obtain ⟨s, hs, hgroup, hlarger⟩ := findSome?_first (fun _ _ => Nat.lt_asymm) (c.sizesOf_descending x) (c.pick_eq j x ▸ h)
  obtain ⟨rfl, hbase, hfits, hlower⟩ := Chip.groupAt_some hgroup
  refine ⟨hs, Chip.mem_sizesOf hs, hbase, hfits, fun s' b hs' hb hbetter => ?_⟩
  rcases hbetter with hsize | ⟨rfl, hlt⟩
  · exact Chip.groupAt_none (hlarger s' hs' hsize) b hb
  · exact hlower b hb hlt

/-! ## One job tried (R488, R608, R678) -/

theorem Chip.tryBind_stays {c : Chip} {j : Nat} {x : Job} (hjob : c.job? j = some x) (hno : c.bindable x = false ∨ c.pick j x = none) :
    c.tryBind j = c := by
  rw [Chip.tryBind, hjob]
  cases c.freeSlot with
  | none => rfl
  | some slot =>
    rcases hno with h | h
    · simp [h]
    · simp [h]

section
variable {c : Chip} {j slot : Nat} {x : Job} {k : Pick} (hjob : c.job? j = some x) (hslot : c.freeSlot = some slot)
  (hbindable : c.bindable x = true) (hinputs : x.inputsIn = true ∨ c.inputReadable x = true) (hpick : c.pick j x = some k)
include hjob hslot hbindable hinputs hpick

omit hjob hslot hpick in
/-- A job that may be bound and whose inputs are there is tried. -/
theorem Chip.bind_tried : (!c.bindable x || !(x.inputsIn || c.inputReadable x)) = false := by
  rcases hinputs with h | h <;> simp [hbindable, h]

theorem Chip.tryBind_lost (hresume : x.resumeDue = true) (hlost : c.inputsLost x = true) :
    c.tryBind j = c.setJob j (x.close stDataLost) := by
  simp only [Chip.tryBind, hjob, hslot, Chip.bind_tried hbindable hinputs, Bool.false_eq_true, if_false, hpick, hresume, hlost,
    Bool.and_self, if_true]

section
variable {c1 : Chip} {x1 : Job} (hkept : (x.resumeDue && c.inputsLost x) = false) (hplace : c.place j x k = some c1)
  (hjob1 : c1.job? j = some x1)
include hkept hplace hjob1

theorem Chip.tryBind_auth (hauth : c1.decryptInputs j x1 = none) : c.tryBind j = c.setJob j (x.close stInputAuth) := by
  simp only [Chip.tryBind, hjob, hslot, Chip.bind_tried hbindable hinputs, Bool.false_eq_true, if_false, hpick, hkept, hplace, hjob1, hauth]

theorem Chip.tryBind_binds {c2 : Chip} {x2 : Job} (hdecrypt : c1.decryptInputs j x1 = some c2) (hjob2 : c2.job? j = some x2) :
    c.tryBind j = c2.bindAt j x2 k slot := by
  simp only [Chip.tryBind, hjob, hslot, Chip.bind_tried hbindable hinputs, Bool.false_eq_true, if_false, hpick, hkept, hplace, hjob1,
    hdecrypt, hjob2]

end

end

theorem bindJob_serves {c : Chip} (hserves : c.serves = true) (hbarrier : c.barrierOn = false) :
    bindJob c = ((c.jobsBy c.bindable).foldl Chip.tryBind c).choosePreempt.casketRetention := by
  unfold bindJob
  exact if_pos (by simp [hserves, hbarrier])

end Sys2Proof.Machine

namespace Sys2Proof.Claims
open Sys2Proof Sys2Proof.Machine

/-- Settles O16: sizes are searched in descending and the groups of a size in ascending order, so that the first fit is the largest size and
its lowest group. -/
theorem bindingGoesInOrder : Obligations.BindingGoesInOrder := by
  refine ⟨fun s hserves hbarrier => ?_, ?_, ?_, ?_, ?_⟩
  · exact exec_onChip rfl rfl (bindJob_serves hserves hbarrier)
  · intro c c1 j slot x x1 k hjob hslot hbindable hinputs hpick hkept hplace hjob1
    have hkept' : (x.resumeDue && c.inputsLost x) = false := by
      rcases hkept with h | h <;> simp [h]
    exact ⟨Chip.tryBind_auth hjob hslot hbindable hinputs hpick hkept' hplace hjob1,
      fun c2 x2 => Chip.tryBind_binds hjob hslot hbindable hinputs hpick hkept' hplace hjob1⟩
  · intro c j slot x k hjob hslot hbindable hinputs hpick hresume hlost
    exact Chip.tryBind_lost hjob hslot hbindable hinputs hpick hresume hlost
  · exact fun c j x hjob hno => Chip.tryBind_stays hjob hno
  · exact fun c j x k hpick => Chip.pick_some hpick

end Sys2Proof.Claims
end

section
/-!
Pseudo-channels and stacks that are lost, detoured, fenced and returned (R427, R429, R432, R434, R435, R437, R438): what serving or
cancelling a queue leaves, and what each command sets.
-/
namespace Sys2Proof.Machine
open Sys2Proof Sys2Proof.Claims

/-! ## A queue that is served or cancelled (R427, R432) -/

/-- The pseudo-channels of `d` are those of `c`, and its stacks are in the same condition. -/
structure Chip.SameChannels (c d : Chip) : Prop where
  pcs : d.pcs = c.pcs
  st : ∀ n, (d.stack n).st = (c.stack n).st

namespace Chip.SameChannels
variable {c d e : Chip}

theorem of_eq (hpcs : d.pcs = c.pcs) (hstacks : d.stackTab = c.stackTab) : c.SameChannels d :=
  ⟨hpcs, fun n => by rw [Chip.stack, hstacks, Chip.stack]⟩

theorem refl (c : Chip) : c.SameChannels c := of_eq rfl rfl

theorem trans (h1 : c.SameChannels d) (h2 : d.SameChannels e) : c.SameChannels e :=
  ⟨h2.pcs.trans h1.pcs, fun n => (h2.st n).trans (h1.st n)⟩

theorem setStack {n : Nat} {x : StackSt} (hst : x.st = (c.stack n).st) : c.SameChannels (c.setStack n x) where
  pcs := rfl
  st m := by
    rw [Chip.setStack_stack]
    split
    · next hm => rw [hm, hst]
    · rfl

theorem pcSt (h : c.SameChannels d) (i : Nat) : d.pcSt i = c.pcSt i := by rw [Chip.pcSt, h.pcs, Chip.pcSt]

theorem loop (n : Nat) (f : Nat → Chip → Chip) (hf : ∀ (i : Nat) (c : Chip), c.SameChannels (f i c)) (c : Chip) :
    c.SameChannels (iter n f c) := iter_keeps _ refl (fun _ _ _ => trans) n f hf c

theorem foldl {α : Type} (f : Chip → α → Chip) (hf : ∀ (c : Chip) (a : α), c.SameChannels (f c a)) (l : List α) (c : Chip) :
    c.SameChannels (l.foldl f c) := foldl_keeps _ refl (fun _ _ _ => trans) f hf l c

theorem poisonBurst (c : Chip) (b : Nat) : c.SameChannels (c.poisonBurst b) := by
  unfold Chip.poisonBurst
  split
  · exact refl c
  · exact of_eq rfl rfl

theorem cureBurst (c : Chip) (b : Nat) : c.SameChannels (c.cureBurst b) := by
  unfold Chip.cureBurst
  extract_lets d
  have hpoison : c.SameChannels d := of_eq rfl rfl
  split
  · exact hpoison
  · split
    · exact hpoison
    · exact hpoison.trans (setStack rfl)

theorem openDetour (c : Chip) (p : Place) : c.SameChannels (c.openDetour p) := by
  unfold Chip.openDetour
  split
  · exact refl c
  · split
    · exact refl c
    · extract_lets poisoned
      have hpoisoned : c.SameChannels poisoned := loop _ _ (fun _ c => poisonBurst c _) c
      clear_value poisoned
      exact hpoisoned.trans (setStack rfl)

theorem storeByte (c : Chip) (p : Place) (b : Byte) : c.SameChannels (c.storeByte p b) := of_eq rfl rfl

theorem storeRun (c : Chip) (at_ : Nat → Place) (x : Nat) (bs : List Byte) : c.SameChannels (c.storeRun at_ x bs) := by
  unfold Chip.storeRun
  extract_lets n opened stored
  have hopened : c.SameChannels opened := loop _ _ (fun _ c => openDetour c _) c
  have hstored : opened.SameChannels stored := by
    refine foldl _ (fun c e => ?_) _ _
    exact storeByte c _ _
  refine (hopened.trans hstored).trans (loop _ _ (fun i c => ?_) _)
  split
  · exact cureBurst c _
  · exact refl c

theorem partDone (c : Chip) (gone : Bool) (r : MemReq) : c.SameChannels (c.partDone gone r) := by
  unfold Chip.partDone
  split
  · exact refl c
  · split
    · exact refl c
    · extract_lets w rest
      split <;> exact of_eq rfl rfl

/-- The queue is empty, and then what was in it is served. -/
theorem settled (c : Chip) (pc : Nat) : (c.updPc pc fun y => { y with queue := [] }).SameChannels (c.settled pc) ∨
    (c.pcSt pc).queue = [] ∧ c.settled pc = c := by
  unfold Chip.settled
  split
  · next hqueue => exact .inr ⟨hqueue, rfl⟩
  · exact .inl (foldl _ (fun c r => storeRun c _ _ _) _ _)

end Chip.SameChannels

theorem Chip.drainQueue_empty {c : Chip} {pc : Nat} (h : (c.pcSt pc).queue = []) : c.drainQueue pc = c := by
  simp only [Chip.drainQueue, h, Chip.settled, List.foldl_nil]

/-- A queue that has been served is empty; the pseudo-channels are as they were apart from that. -/
theorem Chip.drainQueue_pcSt (c : Chip) (pc i : Nat) :
    (c.drainQueue pc).pcSt i = if i = pc then { c.pcSt pc with queue := [] } else c.pcSt i := by
  have hparts : (c.settled pc).SameChannels (c.drainQueue pc) := .foldl _ (fun c r => .partDone c false r) _ _
  rcases Chip.SameChannels.settled c pc with h | ⟨hqueue, -⟩
  · rw [(h.trans hparts).pcSt, Chip.updPc_eq, Chip.setPc_pcSt]
  · rw [Chip.drainQueue_empty hqueue, ← hqueue]
    split
    · next hi => rw [hi]
    · rfl

theorem Chip.drainQueue_st (c : Chip) (pc n : Nat) : ((c.drainQueue pc).stack n).st = (c.stack n).st := by
  have hparts : (c.settled pc).SameChannels (c.drainQueue pc) := .foldl _ (fun c r => .partDone c false r) _ _
  rcases Chip.SameChannels.settled c pc with h | ⟨hqueue, -⟩
  · exact (h.trans hparts).st n
  · rw [Chip.drainQueue_empty hqueue]

theorem Chip.cancelQueue_pcSt (c : Chip) (pc : Nat) : (c.cancelQueue pc).pcSt pc = { c.pcSt pc with queue := [] } := by
  have hparts : (c.updPc pc fun y => { y with queue := [] }).SameChannels (c.cancelQueue pc) :=
    .foldl _ (fun c r => .partDone c true r) _ _
  rw [hparts.pcSt, Chip.updPc_eq, Chip.setPc_pcSt, if_pos rfl]

/-! ## A pseudo-channel is lost (R429) -/

theorem Chip.trainFrom_detour (c : Chip) (st i n : Nat) : ((c.trainFrom st i).stack n).detour = (c.stack n).detour := by
  unfold Chip.trainFrom
  split
  all_goals
    rw [Chip.updStack_eq, Chip.setStack_stack]
    split
    · next hn => rw [hn]
    · rfl

theorem Chip.trainFrom_mem (c : Chip) (st i : Nat) : (c.trainFrom st i).mem = c.mem ∧ (c.trainFrom st i).tick = c.tick := by
  unfold Chip.trainFrom
  split <;> exact ⟨rfl, rfl⟩

/-- The first loss of a stack makes a barrier due, at the edge of 16 tk after the next four (R432). -/
theorem Chip.losePc_epochDue {c : Chip} {pc : Nat} (hstack : (c.stack (pcStack pc)).st < 2) (hpc : (c.pcSt pc).st < 2)
    (hdetour : (c.stack (pcStack pc)).detour = none) (hfirst : ∀ e ∈ c.mem.epochDue, pcStack e.1 ≠ pcStack pc) (reason : Nat) :
    (c.losePc pc reason).mem.epochDue = c.mem.epochDue ++ [(pc, roundUp (c.now + 4) 16)] := by
  rw [Chip.losePc, if_neg (by omega), if_neg (by omega)]
  extract_lets n die logged lost sliced trained
  have hsliced : sliced.mem = c.mem ∧ sliced.tick = c.tick := by
    simp [sliced, lost, logged]
  have hsliced_detour : (sliced.stack (pcStack pc)).detour = none := by
    have hlost : lost.stack (pcStack pc) = c.stack (pcStack pc) := by simp [Chip.stack, lost, logged]
    simp only [sliced, Chip.updStack_eq, Chip.setStack_stack, if_true, hlost]
    split <;> exact hdetour
  have htrained : trained.mem = c.mem ∧ trained.tick = c.tick ∧ (trained.stack (pcStack pc)).detour = none := by
    simp only [trained]
    split
    · exact ⟨(Chip.trainFrom_mem ..).1.trans hsliced.1, (Chip.trainFrom_mem ..).2.trans hsliced.2,
        (Chip.trainFrom_detour ..).trans hsliced_detour⟩
    · exact ⟨hsliced.1, hsliced.2, hsliced_detour⟩
  clear_value trained
  obtain ⟨hmem, htick, hnone⟩ := htrained
  rw [if_neg (by simpa [hnone, hmem] using hfirst)]
  have hjobs := Chip.fenceJobs_besideJobs (trained.poolsLost.markWeights fun a => trained.poolsLost.allocIn a pc)
    (trained.poolsLost.markWeights fun a => trained.poolsLost.allocIn a pc).hasPlain
    { domain := domPc, cause := 0x0C, die := die, unit := pc, detail := 0 }
  have hdue := (congrArg (fun d : Chip => d.mem.epochDue) hjobs :)
  have hnow := (congrArg Chip.now hjobs :)
  have hdue' : (trained.poolsLost.markWeights fun a => trained.poolsLost.allocIn a pc).mem.epochDue = c.mem.epochDue :=
    (congrArg MemCtl.epochDue hmem :)
  have hnow' : (trained.poolsLost.markWeights fun a => trained.poolsLost.allocIn a pc).now = c.now :=
    congrArg (fun t : TickSt => t.count - t.lag) htick
  exact congr (congrArg _ (hdue.trans hdue')) (congrArg (fun t => [(pc, roundUp (t + 4) 16)]) (hnow.trans hnow'))

theorem exec_pcLoss {s : State} {pc reason : Nat} (hpc : isPc pc = true) (hdue : s.chip.lossDue s.unit pc reason = true) :
    exec (.pcLoss pc reason) s = .next (inState s (s.chip.losePc pc reason)) :=
  exec_onChip rfl hpc (if_pos hdue)

/-! ## The barrier that is due (R430, R432, R434) -/

theorem mapEpochBarrier_due {c : Chip} {pc t : Nat} {rest : List (Nat × Nat)} (hdue : c.mem.epochDue = (pc, t) :: rest) (ht : t ≤ c.now)
    (hslices : ∀ e ∈ c.stackTab, e.2.slice = none) : ∃ d : Chip,
    d = ((c.cancelQueue pc).installDetour pc).updStack (pcStack pc) (fun s => { s with remirrored := false }) ∧
      mapEpochBarrier c = { d with mem := { d.mem with mapEpoch := (d.mem.mapEpoch + 1) % 2 ^ 32, epochDue := rest } } := by
  have hidle : c.stackTab.any (·.2.slice.isSome) = false := by
    simpa using hslices
  refine ⟨_, rfl, ?_⟩
  rw [mapEpochBarrier, hdue]
  simp only
  rw [if_neg (by simp [hidle, Nat.not_lt.2 ht])]

theorem FacetSt.takeSlices_dirty (x : FacetSt) (n : Nat) (r : SliceRole) : ∀ l ∈ (x.takeSlices n r).dirty, l ∈ x.dirty :=
  fun _ hl => (List.mem_filter.1 hl).1

theorem Chip.installDetour_pcSt (c : Chip) (pc : Nat) : (c.installDetour pc).pcSt pc = { c.pcSt pc with st := 3 } :=
  (Chip.setPc_pcSt ..).trans (if_pos rfl)

theorem Chip.installDetour_stack (c : Chip) (pc : Nat) :
    (c.installDetour pc).stack (pcStack pc) = { c.stack (pcStack pc) with detour := some pc, written := [] } :=
  (Chip.setStack_stack ..).trans (if_pos rfl)

theorem Chip.installDetour_dirty (c : Chip) (pc : Nat) :
    ∀ l ∈ ((c.installDetour pc).facet (pcFacet pc)).dirty, l.line / 2 ^ 24 ≠ pc := by
  intro l hl
  rw [Chip.installDetour, Chip.updFacet_eq, Chip.setFacet_facet, if_pos rfl] at hl
  simpa using (List.mem_filter.1 (FacetSt.takeSlices_dirty _ _ _ l hl)).2

/-! ## Re-mirrors and stacks (R435, R437, R438) -/

theorem remirror_stack {c : Chip} {st pc : Nat} (hdetour : (c.stack st).detour = some pc) (hdue : (c.stack st).remirrored = false)
    (hready : c.remirrorReady st = true) : ((remirror st c).stack st).remirrored = true := by
  simp only [remirror, hdetour, hdue, hready, Bool.not_true, Bool.or_self, Bool.false_eq_true, if_false]
  rw [Chip.updStack_eq, Chip.setStack_stack, if_pos rfl]

theorem Chip.faultStack_keeps {c : Chip} {st : Nat} (hstack : (c.stack st).st < 2) (detail : Nat) :
    ((c.faultStack st detail).stack st).slice = none ∧ (c.faultStack st detail).hbm = c.hbm := by
  rw [Chip.faultStack, if_neg (by omega)]
  extract_lets n freed stood
  refine ⟨?_, ?_⟩
  · rw [Chip.log_stack, Chip.setStack_stack, if_pos rfl]
  · rw [Chip.log_hbm, Chip.setStack_hbm]
    simp only [freed]
    split <;> rfl

/-- Pseudo-channel `i` of a stack has been trained: its bad trainings are over. -/
def Chip.trainAnew (st i : Nat) (c : Chip) : Chip := c.updPc (32 * st + i) fun x => { x with badTrains := 0 }

/-- A stack back in service, before what waits for it is served. -/
def Chip.stackServes (c : Chip) (st : Nat) : Chip :=
  ((iter 32 (Chip.trainAnew st) c).setStack st { c.stack st with st := 0, fenceRec := none, baseTemp := (c.stack st).temp }).log
    ((iter 32 (Chip.trainAnew st) c).domainRec 2 (c.stack st).fenceRec domStack (dieFacet (stackFacet st)) st)

theorem stackReturn_due {c : Chip} {st : Nat} (hfenced : (c.stack st).st = 2) (hnow : c.now < (c.stack st).fenceStamp + 31250) :
    stackReturn st c = iter 32 (fun i c => c.drainQueue (32 * st + i)) (c.stackServes st) := by
  have hguard : ((c.stack st).st = 2 && decide (c.now < (c.stack st).fenceStamp + stackTicks)) = true := by
    simp [hfenced, stackTicks, hnow]
  have htrain : (fun i (d : Chip) => d.updPc (32 * st + i) fun x => { x with badTrains := 0 }) = Chip.trainAnew st := rfl
  unfold stackReturn
  rw [if_pos hguard]
  dsimp only
  rw [htrain, Chip.stackServes]

/-- Retraining counts leave the queues and the contents. -/
theorem Chip.trainedAnew_keeps (c : Chip) (st n : Nat) : (iter n (Chip.trainAnew st) c).hbm = c.hbm ∧
    ∀ i, ((iter n (Chip.trainAnew st) c).pcSt i).queue = (c.pcSt i).queue := by
  refine iter_keeps (fun c d : Chip => d.hbm = c.hbm ∧ ∀ i, (d.pcSt i).queue = (c.pcSt i).queue) (fun _ => ⟨rfl, fun _ => rfl⟩)
    (fun _ _ _ h1 h2 => ⟨h2.1.trans h1.1, fun i => (h2.2 i).trans (h1.2 i)⟩) n (Chip.trainAnew st) (fun k c => ⟨rfl, fun i => ?_⟩) c
  rw [Chip.trainAnew, Chip.updPc_eq, Chip.setPc_pcSt]
  split
  · next hi => rw [hi]
  · rfl

theorem Chip.stackServes_keeps (c : Chip) (st : Nat) : ((c.stackServes st).stack st).st = 0 ∧ (c.stackServes st).hbm = c.hbm ∧
    ∀ i, ((c.stackServes st).pcSt i).queue = (c.pcSt i).queue := by
  obtain ⟨hhbm, hqueue⟩ := c.trainedAnew_keeps st 32
  unfold Chip.stackServes
  generalize iter 32 (Chip.trainAnew st) c = d at hhbm hqueue ⊢
  refine ⟨?_, (Chip.log_hbm ..).trans hhbm, fun i => ?_⟩
  · rw [Chip.log_stack, Chip.setStack_stack, if_pos rfl]
  · rw [Chip.pcSt, Chip.log_pcs]
    exact hqueue i

/-- What drains the first `n` pseudo-channels of a stack empties their queues and leaves the condition of every stack. -/
theorem Chip.drainQueues (c : Chip) (st n : Nat) :
    (∀ k, ((iter n (fun i c => c.drainQueue (32 * st + i)) c).stack k).st = (c.stack k).st) ∧
      (∀ i, i < n → ((iter n (fun i c => c.drainQueue (32 * st + i)) c).pcSt (32 * st + i)).queue = []) ∧
      ((∀ i, i < n → (c.pcSt (32 * st + i)).queue = []) → iter n (fun i c => c.drainQueue (32 * st + i)) c = c) := by
  induction n with
  | zero => exact ⟨fun _ => rfl, fun i hi => absurd hi (Nat.not_lt_zero i), fun _ => rfl⟩
  | succ n ih =>
    obtain ⟨hst, hempty, hsame⟩ := ih
    rw [iter_succ]
    refine ⟨fun k => (Chip.drainQueue_st ..).trans (hst k), fun i hi => ?_, fun h => ?_⟩
    · rw [Chip.drainQueue_pcSt]
      split
      · rfl
      · exact hempty i (by omega)
    · rw [hsame fun i hi => h i (by omega)]
      exact Chip.drainQueue_empty (h n (by omega))

theorem stackReturnTimeout_due {c : Chip} {st : Nat} (hfenced : (c.stack st).st = 2) (hnow : (c.stack st).fenceStamp + 31250 ≤ c.now) :
    stackReturnTimeout st c =
      (c.log (c.domainRec 3 (c.stack st).fenceRec domStack (dieFacet (stackFacet st)) st)).stackLost st 0x0D := by
  unfold stackReturnTimeout
  exact if_pos (by simp [hfenced, stackTicks, hnow])

theorem Chip.stackLost_deviceFault (c : Chip) (st cause : Nat) : (c.stackLost st cause).pkg.deviceFault = true := by
  rw [Chip.stackLost, Chip.deviceFault_pkg]
  split
  · next h => exact h
  · rfl

theorem pseudoChannelsAreLost : PseudoChannelsAreLost := by
  refine ⟨fun s pc reason hpc hdue => ⟨exec_pcLoss hpc hdue, fun hstack hrun hdetour hfirst =>
      ⟨(Chip.losePc_pcSt hstack hrun reason).1, Chip.losePc_epochDue hstack hrun hdetour hfirst reason⟩⟩,
    fun s pc t rest hdue ht hslices => ?_, fun s st pc hst hdetour hdue hready => ?_⟩
  · obtain ⟨d, hd, hbarrier⟩ := mapEpochBarrier_due hdue ht hslices
    have hstack : d.stack (pcStack pc) =
        { (s.chip.cancelQueue pc).stack (pcStack pc) with detour := some pc, written := [], remirrored := false } := by
      rw [hd, Chip.updStack_eq, Chip.setStack_stack, if_pos rfl, Chip.installDetour_stack]
    have hpc : d.pcSt pc = { s.chip.pcSt pc with queue := [], st := 3 } := by
      rw [hd]
      exact (Chip.installDetour_pcSt ..).trans (by rw [Chip.cancelQueue_pcSt])
    have hepoch : d.mem.mapEpoch = s.chip.mem.mapEpoch := by
      obtain ⟨_, _, _, _, _, _, _, _, _, _, _, hcancel⟩ := s.chip.cancelQueue_only pc
      rw [hd, hcancel]
      rfl
    refine ⟨_, exec_onChip rfl rfl hbarrier, congrArg StackSt.detour hstack, congrArg StackSt.written hstack,
      congrArg StackSt.remirrored hstack, congrArg PcSt.st hpc, congrArg PcSt.queue hpc, rfl,
      congrArg (fun n => (n + 1) % 2 ^ 32) hepoch, fun l hl => ?_⟩
    refine Chip.installDetour_dirty (s.chip.cancelQueue pc) pc l ?_
    rw [hd] at hl
    exact hl
  · exact ⟨_, exec_onChip rfl hst rfl, remirror_stack hdetour hdue hready⟩

theorem stacksFenceAndReturn : StacksFenceAndReturn := by
  refine ⟨fun s st detail hst hdetail halive hstack => ?_, fun s st hst hfenced hnow => ?_, fun s st hst hfenced hnow => ?_⟩
  · obtain ⟨hfenced, hstamp, -⟩ := Chip.faultStack_first hstack detail
    obtain ⟨hslice, hhbm⟩ := Chip.faultStack_keeps hstack detail
    exact ⟨_, exec_onChip rfl (by simpa [Instr.wf, hst, fits] using hdetail) (if_pos halive), hfenced, hstamp, hslice, hhbm⟩
  · obtain ⟨hst', hempty, hsame⟩ := (s.chip.stackServes st).drainQueues st 32
    obtain ⟨hback, hhbm, hqueue⟩ := s.chip.stackServes_keeps st
    have hreturn := stackReturn_due hfenced hnow
    generalize s.chip.stackServes st = b at hst' hempty hsame hreturn hback hhbm hqueue
    generalize iter 32 (fun i (c : Chip) => c.drainQueue (32 * st + i)) b = d at hst' hempty hsame hreturn
    have hserved (hnone : ∀ i, i < 32 → (s.chip.pcSt (32 * st + i)).queue = []) : d = b :=
      hsame fun i hi => (hqueue _).trans (hnone i hi)
    exact ⟨inState s d, exec_onChip rfl hst hreturn, (hst' st).trans hback, hempty,
      fun hnone => (congrArg Chip.hbm (hserved hnone)).trans hhbm⟩
  · have htimeout := stackReturnTimeout_due hfenced hnow
    have hfault := Chip.stackLost_deviceFault
      (s.chip.log (s.chip.domainRec 3 (s.chip.stack st).fenceRec domStack (dieFacet (stackFacet st)) st)) st 0x0D
    generalize Chip.stackLost _ st 0x0D = d at htimeout hfault ⊢
    exact ⟨inState s d, exec_onChip rfl hst htimeout, hfault, rfl⟩

end Sys2Proof.Machine

namespace Sys2Proof.Claims
open Sys2Proof Sys2Proof.Machine

/-- Settles O28. -/
theorem stackedMemoryIsLostAndReturns : Obligations.StackedMemoryIsLostAndReturns := ⟨pseudoChannelsAreLost, stacksFenceAndReturn⟩

end Sys2Proof.Claims
end

section
/-!
Patrol scrubs of the on-chip memories and one fc of a Locket bank (R38, R39, R361 to R365, R397, R398).
-/
namespace Sys2Proof.Machine
open Sys2Proof Sys2Proof.Claims

/-! ## Patrol scrubs (R397, R398, Table 11.10) -/

section
variable {c : Chip} {m : OnChip}

theorem locketPatrolScrub_clean (c : Chip) (m : OnChip) : locketPatrolScrub m .clean c = c := by
  unfold locketPatrolScrub
  split <;> rfl

theorem locketPatrolScrub_unclocked (h : c.scrubbable m = false) (r : ScrubResult) : locketPatrolScrub m r c = c := by
  unfold locketPatrolScrub
  exact if_pos (by rw [h]; rfl)

theorem locketPatrolScrub_corrected (h : c.scrubbable m = true) : locketPatrolScrub m .corrected c = c.countCorrected m := by
  rw [locketPatrolScrub, h]
  rfl

theorem locketPatrolScrub_uncorrectable (h : c.scrubbable m = true) : locketPatrolScrub m .uncorrectable c = c.scrubFault m := by
  rw [locketPatrolScrub, h]
  rfl

/-- An uncorrectable error is the fault of Table 11.10. -/
theorem Chip.scrubFault_eq (c : Chip) (m : OnChip) : c.scrubFault m = match scrubCause m with
    | some f => c.hwFound f
    | none => c := by
  cases m <;> rfl

end

theorem onChipErrorsAct : OnChipErrorsAct := by
  refine ⟨fun s m hm => ⟨?_, fun hstill r => ?_, fun hclocked => ?_⟩, fun s bank row hbank hrow hclocked => ?_,
    fun s f slice m hf hslice hm hclocked => ?_, fun s p n m hp hwf hm => ?_⟩
  · exact exec_onChip (d := s.chip) rfl hm (locketPatrolScrub_clean _ _)
  · exact exec_onChip (d := s.chip) rfl hm (locketPatrolScrub_unclocked hstill r)
  · exact exec_onChip rfl hm ((locketPatrolScrub_uncorrectable hclocked).trans (s.chip.scrubFault_eq m))
  · exact exec_onChip rfl (by simp [Instr.wf, OnChip.wf, hbank, hrow]) (locketPatrolScrub_corrected hclocked)
  · obtain rfl | rfl := hm
    · exact exec_onChip rfl hf (locketPatrolScrub_corrected hclocked)
    · exact exec_onChip rfl (by simp [Instr.wf, OnChip.wf, hf, hslice]) (locketPatrolScrub_corrected hclocked)
  · have hkept : s.chip.countCorrected m = s.chip := by
      obtain rfl | rfl := hm <;> rfl
    cases hclocked : s.chip.scrubbable m with
    | true => exact exec_onChip (d := s.chip) rfl hwf ((locketPatrolScrub_corrected hclocked).trans hkept)
    | false => exact exec_onChip (d := s.chip) rfl hwf (locketPatrolScrub_unclocked hclocked _)

/-! ## The two ports of a bank (R361 to R364) -/

/-- An access writes Lockets alone, and does not ask for the Beads. -/
theorem Chip.rowWrite_setBead (c : Chip) (q : Nat) (b : BeadSt) (p bank row : Nat) (w : RowWrite) :
    (c.setBead q b).rowWrite p bank row w = (c.rowWrite p bank row w).setBead q b := by
  induction w generalizing c with
  | nil => rfl
  | cons e w ih => exact ih (c.lockWrite p bank (64 * row + e.1) [e.2])

theorem Chip.portAccess_setBead (c : Chip) (q : Nat) (b : BeadSt) (p bank : Nat) (r : LockReq) :
    (c.setBead q b).portAccess p bank r = (c.portAccess p bank r).setBead q b := by
  unfold Chip.portAccess
  split
  · exact c.rowWrite_setBead q b p bank r.row _
  · rfl

/-- Both accesses, port 1's last. -/
def Chip.bothAccess (c : Chip) (p bank : Nat) (r0 r1 : LockReq) : Chip := (c.portAccess p bank r0).portAccess p bank r1

theorem Chip.bothAccess_setBead (c : Chip) (q : Nat) (b : BeadSt) (p bank : Nat) (r0 r1 : LockReq) :
    (c.setBead q b).bothAccess p bank r0 r1 = (c.bothAccess p bank r0 r1).setBead q b := by
  rw [Chip.bothAccess, Chip.portAccess_setBead, Chip.portAccess_setBead, Chip.bothAccess]

/-- Accesses that do not meet, and reads that do, land by themselves. -/
theorem Chip.portPair_apart {c : Chip} {r0 r1 : LockReq} (u : UnitFacts) (p bank : Nat)
    (h : rowsMeet r0 r1 = false ∨ r0.write = none ∧ r1.write = none) : c.portPair u p bank r0 r1 = c.bothAccess p bank r0 r1 := by
  unfold Chip.portPair Chip.bothAccess
  rcases h with h | ⟨h0, h1⟩
  · simp [h]
  · simp [h0, h1]

/-- Both accesses with the busy warning that the main path counts. -/
def Chip.warnedAccess (c : Chip) (u : UnitFacts) (p bank : Nat) (r0 r1 : LockReq) : Chip :=
  if writeFirst u c p bank then c.bothAccess p bank r0 r1 else (c.bothAccess p bank r0 r1).busyWarning p bank

theorem Chip.portPair_readFirst {c : Chip} {r0 r1 : LockReq} (u : UnitFacts) (p bank : Nat) (hmeet : rowsMeet r0 r1 = true)
    (h0 : r0.write = none) (h1 : r1.write.isSome = true) :
    c.portPair u p bank r0 r1 = (c.warnedAccess u p bank r0 r1).replayed p bank 0 r0 := by
  obtain ⟨w1, h1⟩ := Option.isSome_iff_exists.1 h1
  simp only [Chip.portPair, hmeet, h0, h1, Bool.not_true, Bool.false_eq_true, if_false, Chip.warnedAccess, Chip.bothAccess]

theorem Chip.portPair_writeFirst {c : Chip} {r0 r1 : LockReq} (u : UnitFacts) (p bank : Nat) (hmeet : rowsMeet r0 r1 = true)
    (h0 : r0.write.isSome = true) (h1 : r1.write = none) :
    c.portPair u p bank r0 r1 = (c.warnedAccess u p bank r0 r1).replayed p bank 1 r1 := by
  obtain ⟨w0, h0⟩ := Option.isSome_iff_exists.1 h0
  simp only [Chip.portPair, hmeet, h0, h1, Bool.not_true, Bool.false_eq_true, if_false, Chip.warnedAccess, Chip.bothAccess]

theorem Chip.portPair_writes {c : Chip} {r0 r1 : LockReq} (u : UnitFacts) (p bank : Nat) (hmeet : rowsMeet r0 r1 = true)
    (h0 : r0.write.isSome = true) (h1 : r1.write.isSome = true) :
    c.portPair u p bank r0 r1 = (c.bothAccess p bank r0 r1).replayed p bank 1 r1 := by
  obtain ⟨w0, h0⟩ := Option.isSome_iff_exists.1 h0
  obtain ⟨w1, h1⟩ := Option.isSome_iff_exists.1 h1
  simp only [Chip.portPair, hmeet, h0, h1, Bool.not_true, Bool.false_eq_true, if_false, Chip.bothAccess]

theorem Chip.replayed_bead (c : Chip) (p bank port : Nat) (r : LockReq) : (c.replayed p bank port r).bead p =
    { c.bead p with
      replay := (some { bank := bank, row := r.row, port := port, data := c.lockRead p bank (64 * r.row) (64 * r.rows) }) } := by
  rw [Chip.replayed, Chip.updBead_eq, Chip.setBead_bead, if_pos rfl]

theorem Chip.busyWarning_bead (c : Chip) (p bank : Nat) : (c.busyWarning p bank).bead p =
    { c.bead p with busyWarnings := modAt (c.bead p).busyWarnings bank (satAdd u32max · 1) } := by
  rw [Chip.busyWarning, Chip.updBead_eq, Chip.setBead_bead, if_pos rfl]

/-- What becomes of a Bead at which a bank has run both ports: `b` before, `d` the part once both accesses have landed. -/
structure PortsLand (u : UnitFacts) (p bank : Nat) (r0 r1 : LockReq) (c d t : Chip) : Prop where
  locket : t.locket = d.locket
  retry : (t.bead p).retry = (c.bead p).retry
  second : rowsMeet r0 r1 = true → r0.write.isSome = true → (t.bead p).replay = some
    { bank, row := r1.row, port := 1, data := d.lockRead p bank (64 * r1.row) (64 * r1.rows) }
  first : rowsMeet r0 r1 = true → r0.write = none → r1.write.isSome = true → (t.bead p).replay = some
    { bank, row := r0.row, port := 0, data := d.lockRead p bank (64 * r0.row) (64 * r0.rows) }
  warnings : (t.bead p).busyWarnings =
    if rowsMeet r0 r1 = true ∧ r0.write.isSome ≠ r1.write.isSome ∧ writeFirst u c p bank = false
    then modAt (c.bead p).busyWarnings bank (satAdd u32max · 1) else (c.bead p).busyWarnings

section
variable {c : Chip} (u : UnitFacts) (p bank : Nat) (r0 r1 : LockReq)

theorem Chip.rowWrite_bead (c : Chip) (p bank row : Nat) (w : RowWrite) (q : Nat) : (c.rowWrite p bank row w).bead q = c.bead q := by
  induction w generalizing c with
  | nil => rfl
  | cons e w ih => exact ih (c.lockWrite p bank (64 * row + e.1) [e.2])

theorem Chip.portAccess_bead (c : Chip) (p bank : Nat) (r : LockReq) (q : Nat) : (c.portAccess p bank r).bead q = c.bead q := by
  unfold Chip.portAccess
  split
  · exact Chip.rowWrite_bead ..
  · rfl

theorem Chip.bothAccess_bead (c : Chip) (q : Nat) : (c.bothAccess p bank r0 r1).bead q = c.bead q :=
  (Chip.portAccess_bead ..).trans (Chip.portAccess_bead ..)

theorem Chip.warnedAccess_bead (c : Chip) : (c.warnedAccess u p bank r0 r1).bead p =
    { c.bead p with
      busyWarnings := (if writeFirst u c p bank = false
        then modAt (c.bead p).busyWarnings bank (satAdd u32max · 1) else (c.bead p).busyWarnings) } := by
  unfold Chip.warnedAccess
  cases writeFirst u c p bank with
  | true => rw [if_pos rfl, Chip.bothAccess_bead, if_neg (by decide)]
  | false => rw [if_neg (by decide), Chip.busyWarning_bead, Chip.bothAccess_bead, if_pos rfl]

theorem Chip.warnedAccess_locket (c : Chip) : (c.warnedAccess u p bank r0 r1).locket = (c.bothAccess p bank r0 r1).locket := by
  unfold Chip.warnedAccess
  split <;> rfl

theorem Chip.portPair_lands (c : Chip) : PortsLand u p bank r0 r1 c (c.bothAccess p bank r0 r1) (c.portPair u p bank r0 r1) := by
  have hlocket : (c.portPair u p bank r0 r1).locket = (c.bothAccess p bank r0 r1).locket := Chip.portPair_locket ..
  have hread : ∀ off n, (c.warnedAccess u p bank r0 r1).lockRead p bank off n = (c.bothAccess p bank r0 r1).lockRead p bank off n :=
    fun off n => by rw [Chip.lockRead, Chip.warnedAccess_locket, Chip.lockRead]
  cases hmeet : rowsMeet r0 r1 with
  | false =>
    have hb : (c.portPair u p bank r0 r1).bead p = c.bead p := by
      rw [Chip.portPair_apart u p bank (.inl hmeet), Chip.bothAccess_bead]
    exact ⟨hlocket, by rw [hb], by simp [hmeet], by simp [hmeet], by simp [hb, hmeet]⟩
  | true =>
    cases h0 : r0.write with
    | none =>
      cases h1 : r1.write with
      | none =>
        have hb : (c.portPair u p bank r0 r1).bead p = c.bead p := by
          rw [Chip.portPair_apart u p bank (.inr ⟨h0, h1⟩), Chip.bothAccess_bead]
        exact ⟨hlocket, by rw [hb], by simp [h0], by simp [h1], by simp [hb, h0, h1]⟩
      | some w1 =>
        have hb := congrArg (Chip.bead · p) (Chip.portPair_readFirst (c := c) u p bank hmeet h0 (by rw [h1]; rfl))
        rw [Chip.replayed_bead, Chip.warnedAccess_bead, hread] at hb
        exact ⟨hlocket, by rw [hb], by simp [h0], fun _ _ _ => by rw [hb], by simp [hb, hmeet, h0, h1]⟩
    | some w0 =>
      cases h1 : r1.write with
      | none =>
        have hb := congrArg (Chip.bead · p) (Chip.portPair_writeFirst (c := c) u p bank hmeet (by rw [h0]; rfl) h1)
        rw [Chip.replayed_bead, Chip.warnedAccess_bead, hread] at hb
        exact ⟨hlocket, by rw [hb], fun _ _ => by rw [hb], by simp [h0], by simp [hb, hmeet, h0, h1]⟩
      | some w1 =>
        have hb := congrArg (Chip.bead · p) (Chip.portPair_writes (c := c) u p bank hmeet (by rw [h0]; rfl) (by rw [h1]; rfl))
        rw [Chip.replayed_bead, Chip.bothAccess_bead] at hb
        exact ⟨hlocket, by rw [hb], fun _ _ => by rw [hb], by simp [h0], by simp [hb, h0, h1]⟩

end

/-! ## Three requesters (R38, R39) -/

/-- The owner of port 0 of banks 0 to 2 gets it, and the lowest other requester port 1. -/
theorem locketGrant_three {bank a b : Nat} (hbank : bank < 3) (ha : a < 7) (hown : a ≠ bank) (hb : b < a) (hother : b ≠ bank) :
    locketGrant bank [a, bank, b] = (some bank, some b) := by
  have hall : ∀ (k : Fin 3) (x y : Fin 7), x.1 ≠ k.1 → y.1 < x.1 → y.1 ≠ k.1 →
      locketGrant k.1 [x.1, k.1, y.1] = (some k.1, some y.1) := by decide
  exact hall ⟨bank, hbank⟩ ⟨a, ha⟩ ⟨b, by omega⟩ hown hb hother

/-- Of three requesters of a bank, two are carried out, and the one that loses retries. -/
theorem bankCollisionReplay_three {c : Chip} {p bank : Nat} {r r0 r1 : LockReq} (u : UnitFacts) (hbank : bank < 3)
    (hwf : LockReq.wf r = true) (hpower : c.pkg.power = .running) (hawake : (c.facet (physFacet p)).retention = 0)
    (hretry : (c.bead p).retry = []) (hwho : r.who ≠ bank) (howner : r0.who = bank) (hlower : r1.who < r.who) (hother : r1.who ≠ bank) :
    bankCollisionReplay p bank [r, r0, r1] u c =
      (c.setBead p { c.bead p with retry := [(bank, r)] }).portPair u p bank r0 r1 := by
  have hseven : r.who < 7 := by
    simp only [LockReq.wf, Bool.and_eq_true, decide_eq_true_eq] at hwf
    exact hwf.1.1
  subst howner
  have hgrant := locketGrant_three hbank hseven hwho hlower hother
  have hheads : lockHeads [r, r0, r1] = [r, r0, r1] := by
    simp [lockHeads, hwho, hother.symm, (Nat.ne_of_lt hlower).symm]
  simp [bankCollisionReplay, hpower, hawake, hretry, hheads, hgrant, hwho, hother.symm, (Nat.ne_of_lt hlower).symm]

theorem bankRequestsAct : BankRequestsAct := by
  refine ⟨fun s p bank r0 r1 hbead hbank hr0 hr1 hpower hawake hretry hgrant hwho => ?_,
    fun s p bank r hbead hbank hr hwho hpower hawake hretry r0 r1 hr0 hr1 howner hlower hother => ?_⟩
  · have hrun := bankCollisionReplay_pair s.unit hpower hawake hretry hwho hgrant
    have hlands := Chip.portPair_lands s.unit p bank r0 r1 (s.chip.setBead p (s.chip.bead p))
    have hsame : (s.chip.setBead p (s.chip.bead p)).bead p = s.chip.bead p := by rw [Chip.setBead_bead, if_pos rfl]
    have hfirst : writeFirst s.unit (s.chip.setBead p (s.chip.bead p)) p bank = writeFirst s.unit s.chip p bank := by
      rw [writeFirst, hsame, writeFirst]
    obtain ⟨hlocket, hkept, hsecond, hfirstReplay, hwarnings⟩ := hlands
    rw [Chip.bothAccess_setBead] at hlocket hsecond hfirstReplay
    rw [hsame] at hkept hwarnings
    rw [hfirst] at hwarnings
    exact ⟨_, _, exec_onChip rfl (by simp [Instr.wf, hbead, hbank, hr0, hr1]) hrun, rfl, hlocket, hkept, hsecond, hfirstReplay,
      hwarnings⟩
  · have hrun := bankCollisionReplay_three s.unit hbank hr hpower hawake hretry hwho howner hlower hother
    have hlands := Chip.portPair_lands s.unit p bank r0 r1 (s.chip.setBead p { s.chip.bead p with retry := [(bank, r)] })
    obtain ⟨hlocket, hkept, -, -, -⟩ := hlands
    rw [Chip.bothAccess_setBead] at hlocket
    rw [Chip.setBead_bead, if_pos rfl] at hkept
    exact ⟨_, exec_onChip rfl (by simp [Instr.wf, hbead, hr, hr0, hr1]; omega) hrun, hkept, hlocket⟩

end Sys2Proof.Machine
end

section
/-!
Scrubs and soft repairs of stacked memory (R417, R418, R421 to R425): a row or a granule without errors stands, and a correction leaves
every burst as readable as it was.
-/
namespace Sys2Proof.Machine
open Sys2Proof Sys2Proof.Claims

/-! ## Loops that change nothing, or once -/

theorem iter_fixed {α : Type} {n : Nat} {f : Nat → α → α} {a : α} (h : ∀ i, i < n → f i a = a) : iter n f a = a := by
  induction n with
  | zero => rfl
  | succ n ih => rw [iter_succ, ih fun i hi => h i (by omega), h n (by omega)]

/-- A loop of which pass `k` alone changes something. -/
theorem iter_once {α : Type} {n k : Nat} {f : Nat → α → α} {a : α} (hk : k < n) (hbefore : ∀ i, i < k → f i a = a)
    (hafter : ∀ i, k < i → i < n → f i (f k a) = f k a) : iter n f a = f k a := by
  induction n with
  | zero => exact absurd hk (Nat.not_lt_zero k)
  | succ n ih =>
    rw [iter_succ]
    by_cases hn : k = n
    · rw [iter_fixed fun i hi => hbefore i (by omega), hn]
    · rw [ih (by omega) fun i hi hin => hafter i hi (by omega)]
      exact hafter n (by omega) (by omega)

/-! ## Bursts without errors (R417, R419) -/

theorem Chip.readBurst_clean {c : Chip} {p : Place} (h : c.poisonedAt p = false) : c.readBurst p [] = .clean :=
  Chip.readBurst_pins h List.nodup_nil (by simp) (by simp)

theorem Chip.readBurst_onePin {c : Chip} {p : Place} {e : PinError} (h : c.poisonedAt p = false) (he : e.wf = true)
    (hbeats : e.beats ≠ 0) :
    c.readBurst p [e] = .corrected (c.burstBytes p) :=
  Chip.readBurst_pins h (by simp) (by simp [he, hbeats]) (by simp)

theorem cleanRowsStand : CleanRowsStand := by
  intro c pc bank row hclean
  unfold Chip.writeBackRow
  refine iter_fixed fun i hi => ?_
  have hread := Chip.readBurst_clean (hclean i hi)
  have herrs : errorsOf [] i = [] := rfl
  simp [Chip.noteRead, herrs, hread]

/-! ## Repairs (R422, R423, R425) -/

section
variable {c : Chip} {u : UnitFacts} {pc : Nat} {place : BankRow} (errs : List BurstError)

/-- A row that a repair concerns, in its stack. -/
def rowOf (pc : Nat) (place : BankRow) : RowRef := { pc := pc % 32, bank := place.bank, row := place.row }

/-- What the repair of a row leaves of its stack. -/
def StackSt.repaired (x : StackSt) (r : RowRef) : StackSt :=
  { x with needRepair := x.needRepair.filter (· != r),
           repairList := if x.repairList.contains r then x.repairList else x.repairList ++ [r],
           rowErrs := x.rowErrs.filter (·.1 != r),
           sparesUsed := ((r.pc, r.bank), x.used r + 1) :: x.sparesUsed.filter (·.1 != (r.pc, r.bank)) }

theorem softRepair_slice {k : Slice} (hslice : (c.stack (pcStack pc)).slice = some k) : softRepair pc place errs u c =
    if k.pc = pc ∧ k.kind = .repair place.bank place.row ∧ rowOf pc place ∈ (c.stack (pcStack pc)).needRepair ∧
        (c.stack (pcStack pc)).repairable u (rowOf pc place) = true then
      (c.writeBackRow pc place.bank place.row errs).updStack (pcStack pc) (·.repaired (rowOf pc place))
    else c := by
  simp only [softRepair, hslice, Bool.and_eq_true, decide_eq_true_eq, List.contains_iff_mem, and_assoc, rowOf, StackSt.repaired]

theorem softRepair_idle (hslice : (c.stack (pcStack pc)).slice = none) : softRepair pc place errs u c = c := by
  simp only [softRepair, hslice]

end

theorem rowsAreRepaired : RowsAreRepaired := by
  rintro s pc bank row errs r hpc hbank hrow herrs rfl
  have hwf : (Instr.softRepair pc ⟨bank, row⟩ errs).wf = true := by simp [Instr.wf, hpc, hbank, hrow, herrs]
  refine ⟨fun k hslice hkpc hkind hneed hrepairable => ?_, fun hnot => ?_⟩
  · exact exec_onChip rfl hwf ((softRepair_slice errs hslice).trans (if_pos ⟨hkpc, hkind, hneed, hrepairable⟩))
  · refine exec_onChip (d := s.chip) rfl hwf ?_
    cases hslice : (s.chip.stack (pcStack pc)).slice with
    | none => exact softRepair_idle errs hslice
    | some k =>
      refine (softRepair_slice errs hslice).trans (if_neg fun ⟨hkpc, hkind, hneed, hrepairable⟩ => ?_)
      rcases hnot with hother | hno | hno
      · exact (hother k hslice).elim (fun h => h hkpc) fun h => h hkind
      · exact hno hneed
      · exact Bool.false_ne_true (hno.symm.trans hrepairable)

/-! ## What a correction leaves (R418) -/

/-- Every burst that could be read in `c` can be read in `d`. -/
def Chip.StaysReadable (c d : Chip) : Prop := ∀ p, c.poisonedAt p = false → d.poisonedAt p = false

theorem Chip.poisonedAt_iff (c : Chip) (p : Place) : c.poisonedAt p = false ↔ c.poison.contains p.burst = false ∧
    (∀ ws, (c.stack (burstStack p.burst)).lost = some ws → ws.contains p.burst = true) ∧ c.detourUnwritten p = false := by
  rw [Chip.poisonedAt, Chip.burstPoisoned, Bool.or_eq_false_iff, Bool.or_eq_false_iff, and_assoc]
  cases (c.stack (burstStack p.burst)).lost <;> simp

/-- What of a stack decides whether its bursts can be read. -/
structure StackSt.SameReads (x y : StackSt) : Prop where
  lost : y.lost = x.lost
  detour : y.detour = x.detour
  written : y.written = x.written

theorem Chip.detourUnwritten_congr {c d : Chip} {p : Place} (hdetour : (d.stack (pcStack p.pc)).detour = (c.stack (pcStack p.pc)).detour)
    (hwritten : (d.stack (pcStack p.pc)).written = (c.stack (pcStack p.pc)).written) : d.detourUnwritten p = c.detourUnwritten p := by
  simp only [Chip.detourUnwritten, Chip.detourSource, hdetour, hwritten]

theorem Chip.StaysReadable.of_sameReads {c d : Chip} (hpoison : d.poison = c.poison) (hstacks : ∀ n, (c.stack n).SameReads (d.stack n)) :
    c.StaysReadable d := by
  intro p hp
  rw [Chip.poisonedAt_iff] at hp ⊢
  rw [hpoison, (hstacks _).lost, Chip.detourUnwritten_congr (hstacks _).detour (hstacks _).written]
  exact hp

theorem StackSt.need_sameReads (x : StackSt) (r : RowRef) : x.SameReads (x.need r) := by
  unfold StackSt.need
  split <;> exact ⟨rfl, rfl, rfl⟩

theorem Chip.setStack_sameReads {c : Chip} {n : Nat} {x : StackSt} (h : (c.stack n).SameReads x) (m : Nat) :
    (c.stack m).SameReads ((c.setStack n x).stack m) := by
  rw [Chip.setStack_stack]
  split
  · next hm => exact hm ▸ h
  · exact ⟨rfl, rfl, rfl⟩

/-- The count of a correction, at its pseudo-channel and its row. -/
theorem Chip.corrected_eq (c : Chip) (pc granule : Nat) : ∃ x : StackSt, (c.stack (pcStack pc)).SameReads x ∧ c.corrected pc granule =
    (c.setPc pc { c.pcSt pc with corrected := satAdd u32max (c.pcSt pc).corrected 1 }).setStack (pcStack pc) x := by
  refine ⟨_, ?_, rfl⟩
  dsimp only
  split
  · obtain ⟨hlost, hdetour, hwritten⟩ := StackSt.need_sameReads
      { c.stack (pcStack pc) with
        rowErrs := ({ pc := pc % 32, bank := granuleBank granule, row := granuleRow granule },
            ((c.stack (pcStack pc)).rowErrs.lookup { pc := pc % 32, bank := granuleBank granule, row := granuleRow granule }).getD 0 + 1) ::
          (c.stack (pcStack pc)).rowErrs.filter (·.1 != { pc := pc % 32, bank := granuleBank granule, row := granuleRow granule }) }
      { pc := pc % 32, bank := granuleBank granule, row := granuleRow granule }
    exact ⟨hlost, hdetour, hwritten⟩
  · exact ⟨rfl, rfl, rfl⟩

theorem Chip.corrected_staysReadable (c : Chip) (pc granule : Nat) : c.StaysReadable (c.corrected pc granule) := by
  obtain ⟨x, hx, h⟩ := c.corrected_eq pc granule
  rw [h]
  exact .of_sameReads rfl fun n => Chip.setStack_sameReads (c := c.setPc pc _) hx n

theorem Chip.corrected_pcSt (c : Chip) (pc granule : Nat) :
    (c.corrected pc granule).pcSt pc = { c.pcSt pc with corrected := satAdd u32max (c.pcSt pc).corrected 1 } := by
  obtain ⟨x, -, h⟩ := c.corrected_eq pc granule
  rw [h]
  exact (Chip.setPc_pcSt ..).trans (if_pos rfl)

/-! ## A burst written whole (R419, R434) -/

theorem Chip.openDetour_written {c : Chip} {p : Place} (h : c.detourUnwritten p = false) : c.openDetour p = c := by
  unfold Chip.detourUnwritten at h
  unfold Chip.openDetour
  split
  · rfl
  · next n hn =>
    rw [hn] at h
    exact if_pos (by simpa using h)

/-- A cured burst can be read, and any other as before. -/
theorem Chip.cureBurst_staysReadable (c : Chip) (b : Nat) : c.StaysReadable (c.cureBurst b) := by
  intro p hp
  obtain ⟨hpoison, hlost, hdetour⟩ := (c.poisonedAt_iff p).1 hp
  have hfilter : (c.poison.filter (· != b)).contains p.burst = false := by
    simp only [List.contains_eq_mem, decide_eq_false_iff_not] at hpoison ⊢
    exact fun h => hpoison (List.mem_filter.1 h).1
  rw [Chip.poisonedAt_iff]
  unfold Chip.cureBurst
  extract_lets d
  split
  · exact ⟨hfilter, hlost, hdetour⟩
  · next ws hws =>
    split
    · exact ⟨hfilter, hlost, hdetour⟩
    · refine ⟨hfilter, fun vs hvs => ?_, ?_⟩
      · rw [Chip.updStack_eq, Chip.setStack_stack] at hvs
        split at hvs
        · next hsame =>
          cases hvs
          have hold := hlost ws (by rw [hsame]; exact hws)
          simp only [List.contains_eq_mem, decide_eq_true_eq] at hold ⊢
          exact List.mem_append_left _ hold
        · exact hlost vs hvs
      · refine (Chip.detourUnwritten_congr (c := c) ?_ ?_).trans hdetour
        all_goals
          rw [Chip.updStack_eq, Chip.setStack_stack]
          split
          · next hsame => rw [hsame]; rfl
          · rfl

theorem Place.burst_start (p : Place) : ({ p with byte := p.byte / 32 * 32 } : Place).burst = p.burst := by
  simp only [Place.burst]
  omega

theorem Chip.putBurst_staysReadable {c : Chip} {p : Place} (h : c.poisonedAt p = false) (bs : List Byte) :
    c.StaysReadable (c.putBurst p bs) := by
  obtain ⟨-, -, hdetour⟩ := (c.poisonedAt_iff p).1 h
  have hopen : c.openDetour { p with byte := p.byte / 32 * 32 } = c := Chip.openDetour_written hdetour
  intro q hq
  unfold Chip.putBurst
  dsimp only
  rw [hopen]
  exact Chip.cureBurst_staysReadable _ _ q hq

theorem Chip.putBurst_pcSt (c : Chip) (p : Place) (bs : List Byte) (i : Nat) : (c.putBurst p bs).pcSt i = c.pcSt i := by
  have hopened : c.SameChannels (c.openDetour { p with byte := p.byte / 32 * 32 }) := .openDetour ..
  unfold Chip.putBurst
  extract_lets at_ d
  have hwritten : d.SameChannels ({ d with hbm := d.hbm.writeN at_.key bs }.cureBurst at_.burst) :=
    .trans (d := { d with hbm := d.hbm.writeN at_.key bs }) (.of_eq rfl rfl) (.cureBurst ..)
  exact (hopened.trans hwritten).pcSt i

/-! ## Scrubs (R421) -/

/-- A read of the scrubbed granule is counted at its pseudo-channel. -/
def Chip.scrubbedOnce (c : Chip) (pc : Nat) : Chip := c.updPc pc fun x => { x with scrubbed := x.scrubbed + 1 }

theorem Chip.scrubbedOnce_poisonedAt (c : Chip) (pc : Nat) (p : Place) : (c.scrubbedOnce pc).poisonedAt p = c.poisonedAt p := rfl

/-- The eight bursts of a granule as a scrub meets them. -/
def Chip.scrubBurst (pc granule : Nat) (errs : List BurstError) (i : Nat) (c : Chip) : Chip :=
  c.meetErrors ⟨pc, granule, 32 * i⟩ (errorsOf errs i) [] .scrub

theorem hbmPatrolScrub_reads {c : Chip} {pc granule : Nat} (errs : List BurstError) (h : c.readsNow pc = true) :
    hbmPatrolScrub pc granule errs c = iter 8 (Chip.scrubBurst pc granule errs) (c.scrubbedOnce pc) := by
  have hguard : ¬(!c.readsNow pc) = true := by simp [h]
  have hburst : (fun i (c : Chip) => c.meetErrors ⟨pc, granule, 32 * i⟩ (errorsOf errs i) [] .scrub) =
      Chip.scrubBurst pc granule errs := rfl
  unfold hbmPatrolScrub
  rw [if_neg hguard, hburst, Chip.scrubbedOnce]

theorem hbmPatrolScrub_waits {c : Chip} {pc granule : Nat} (errs : List BurstError) (h : c.readsNow pc = false) :
    hbmPatrolScrub pc granule errs c = c := by
  unfold hbmPatrolScrub
  exact if_pos (by simp [h])

theorem Chip.scrubBurst_clean {c : Chip} {pc granule i : Nat} {errs : List BurstError}
    (hclean : c.poisonedAt ⟨pc, granule, 32 * i⟩ = false) (hnone : errorsOf errs i = []) : Chip.scrubBurst pc granule errs i c = c := by
  rw [Chip.scrubBurst, hnone]
  exact Chip.meetErrors_clean (Chip.readBurst_clean hclean)

theorem errorsOf_single (e : BurstError) (i : Nat) : errorsOf [e] i = if e.burst = i then [e.error] else [] := by
  by_cases h : e.burst = i <;> simp [errorsOf, h]

/-- The burst with one wrong pin is counted and rewritten. -/
theorem Chip.scrubBurst_onePin {c : Chip} {pc granule : Nat} {e : BurstError}
    (hclean : c.poisonedAt ⟨pc, granule, 32 * e.burst⟩ = false) (he : e.error.wf = true) (hbeats : e.error.beats ≠ 0) :
    ∃ bs, Chip.scrubBurst pc granule [e] e.burst c =
      (c.corrected pc granule).putBurst ⟨pc, granule, 32 * e.burst⟩ bs := by
  refine ⟨c.burstBytes ⟨pc, granule, 32 * e.burst⟩, ?_⟩
  rw [Chip.scrubBurst, errorsOf_single, if_pos rfl]
  exact Chip.meetErrors_corrected (Chip.readBurst_onePin hclean he hbeats)

theorem scrubsCount : ScrubsCount := by
  refine ⟨fun s pc granule errs hpc hgranule herrs => ⟨fun hreads => ?_, fun hwaits => ?_⟩,
    fun s pc granule e hpc hgranule he hbeats hreads hclean => ?_, fun s pc granule hpc hgranule hreads hclean => ?_⟩
  · exact exec_onChip rfl (by simp [Instr.wf, hpc, hgranule, herrs]) (hbmPatrolScrub_reads errs hreads)
  · exact exec_onChip (d := s.chip) rfl (by simp [Instr.wf, hpc, hgranule, herrs]) (hbmPatrolScrub_waits errs hwaits)
  · obtain ⟨hburst, hpin⟩ : e.burst < 8 ∧ e.error.wf = true := by simpa [BurstError.wf] using he
    have hclean' : ∀ i, i < 8 → (s.chip.scrubbedOnce pc).poisonedAt ⟨pc, granule, 32 * i⟩ = false :=
      fun i hi => (s.chip.scrubbedOnce_poisonedAt pc _).trans (hclean i hi)
    obtain ⟨bs, hfixed⟩ := Chip.scrubBurst_onePin (hclean' e.burst hburst) hpin hbeats
    have hreadable : (s.chip.scrubbedOnce pc).StaysReadable (Chip.scrubBurst pc granule [e] e.burst (s.chip.scrubbedOnce pc)) := by
      have hcorrected := (s.chip.scrubbedOnce pc).corrected_staysReadable pc granule
      rw [hfixed]
      exact fun p hp => Chip.putBurst_staysReadable (hcorrected _ (hclean' e.burst hburst)) bs p (hcorrected p hp)
    have honce : hbmPatrolScrub pc granule [e] s.chip = Chip.scrubBurst pc granule [e] e.burst (s.chip.scrubbedOnce pc) := by
      rw [hbmPatrolScrub_reads [e] hreads]
      refine iter_once hburst (fun i hi => ?_) fun i hi hi8 => ?_
      · exact Chip.scrubBurst_clean (hclean' i (by omega)) (by rw [errorsOf_single, if_neg (by omega)])
      · exact Chip.scrubBurst_clean (hreadable _ (hclean' i hi8)) (by rw [errorsOf_single, if_neg (by omega)])
    have hcounts : (Chip.scrubBurst pc granule [e] e.burst (s.chip.scrubbedOnce pc)).pcSt pc = { s.chip.pcSt pc with
        scrubbed := (s.chip.pcSt pc).scrubbed + 1, corrected := satAdd u32max (s.chip.pcSt pc).corrected 1 } := by
      rw [hfixed, Chip.putBurst_pcSt, Chip.corrected_pcSt, Chip.scrubbedOnce, Chip.updPc_eq, Chip.setPc_pcSt, if_pos rfl]
    exact ⟨_, exec_onChip rfl (by simp [Instr.wf, hpc, hgranule, he]) honce, congrArg PcSt.scrubbed hcounts,
      congrArg PcSt.corrected hcounts, (congrArg PcSt.uncorrectable hcounts :)⟩
  · refine exec_onChip rfl (by simp [Instr.wf, hpc, hgranule]) ((hbmPatrolScrub_reads [] hreads).trans ?_)
    exact iter_fixed fun i hi => Chip.scrubBurst_clean ((s.chip.scrubbedOnce_poisonedAt pc _).trans (hclean i hi)) rfl

end Sys2Proof.Machine

namespace Sys2Proof.Claims
open Sys2Proof Sys2Proof.Machine

/-- Settles O26. -/
theorem errorsScrubsAndRepairsAct : Obligations.ErrorsScrubsAndRepairsAct :=
  ⟨onChipErrorsAct, bankRequestsAct, cleanRowsStand, rowsAreRepaired, scrubsCount⟩

end Sys2Proof.Claims
end

section
/-!
Cold, warm, head and Facet resets (R25, R36, R502, R512, R518, R529, R547, R548, R582, R587, R665 to R674, Table 20.5): what the steps of a
reset leave alone, and what each command leaves.
-/
namespace Sys2Proof.Machine
open Sys2Proof Sys2Proof.Claims

/-! ## Tables all of whose entries have a property -/

theorem Tbl.forall_put {α : Type} {t : Tbl α} {k : Nat} {a : α} {P : α → Prop} (ht : ∀ e ∈ t, P e.2) (ha : P a) :
    ∀ e ∈ t.put k a, P e.2 := by
  induction t with
  | nil => exact fun e he => List.mem_singleton.1 he ▸ ha
  | cons x t ih =>
    obtain ⟨hx, hrest⟩ := List.forall_mem_cons.1 ht
    rw [Tbl.put]
    split
    · exact List.forall_mem_cons.2 ⟨ha, ht⟩
    · split
      · exact List.forall_mem_cons.2 ⟨ha, hrest⟩
      · exact List.forall_mem_cons.2 ⟨hx, ih hrest⟩

theorem Tbl.get_of_forall {α : Type} {t : Tbl α} {d : α} {P : α → Prop} (ht : ∀ e ∈ t, P e.2) (hd : P d) (k : Nat) :
    P (t.get d k) := by
  unfold Tbl.get
  induction t with
  | nil => exact hd
  | cons x t ih =>
    obtain ⟨hx, hrest⟩ := List.forall_mem_cons.1 ht
    rw [Tbl.find?]
    split
    · exact hx
    · exact ih hrest

/-! ## Spare Beads and self-test (R523, R524) -/

/-- A row takes its spare: its Facet, the Bead that returns and a record change. -/
theorem Chip.substitute_eq (c : Chip) (f row : Nat) : c.substitute f row = c ∨ ∃ (x : FacetSt) (p : Nat) (r : FaultRec),
    c.substitute f row = ((c.setFacet f x).updBead p fun b => { b with svc := .inService, fenceRec := none }).log r := by
  unfold Chip.substitute
  extract_lets x d at_
  split
  · exact .inl rfl
  · split
    · exact .inr ⟨_, _, _, rfl⟩
    · exact .inl rfl

/-- `d` has the package and the tick of `c`. -/
def Chip.SamePkgTick (c d : Chip) : Prop := d.pkg = c.pkg ∧ d.tick = c.tick

namespace Chip.SamePkgTick

theorem refl (c : Chip) : c.SamePkgTick c := ⟨rfl, rfl⟩

theorem trans {a b c : Chip} (h1 : a.SamePkgTick b) (h2 : b.SamePkgTick c) : a.SamePkgTick c := ⟨h2.1.trans h1.1, h2.2.trans h1.2⟩

theorem loop (n : Nat) (f : Nat → Chip → Chip) (hf : ∀ (i : Nat) (c : Chip), c.SamePkgTick (f i c)) (c : Chip) :
    c.SamePkgTick (iter n f c) :=
  iter_keeps _ refl (fun _ _ _ => trans) n f hf c

theorem substitute (c : Chip) (f row : Nat) : c.SamePkgTick (c.substitute f row) := by
  rcases c.substitute_eq f row with h | ⟨x, p, r, h⟩
  · rw [h]
    exact refl c
  · rw [h]
    exact ⟨Chip.log_pkg .., Chip.log_tick ..⟩

theorem substituteAll (c : Chip) : c.SamePkgTick c.substituteAll := loop 40 _ (fun _ c => substitute c _ _) c

theorem selfTest (c : Chip) (u : UnitFacts) : c.SamePkgTick (c.selfTest u) := by
  unfold Chip.selfTest
  extract_lets columns bad tested
  have hcolumns : c.SamePkgTick columns := loop 5 _ (fun f c => ⟨rfl, rfl⟩) c
  have htested : columns.SamePkgTick tested := by
    refine foldl_keeps _ refl (fun _ _ _ => trans) _ (fun d p => ?_) bad columns
    exact ⟨rfl, rfl⟩
  exact (hcolumns.trans htested).trans (substituteAll tested)

end Chip.SamePkgTick

/-! ## Cold reset and power (R25, R502, R529, R582, R665, R670, R674) -/

theorem coldReset_runs {s : State} (hstopped : s.chip.pkg.power ≠ .stopped) (htrip : s.chip.pkg.tripLatch = false) : coldReset s =
    { s with chip := (s.chip.cold .inReset).seeLife s.otp, sec := SecSt.fresh, inbox := [],
             otp := { s.otp with tamperCount := min 32 (s.otp.tamperCount + s.tampersHeld) } } := by
  unfold coldReset
  exact if_neg (by simp [hstopped, htrip])

theorem coldReset_tripped {s : State} (h : s.chip.pkg.power = .stopped ∨ s.chip.pkg.tripLatch = true) : coldReset s = s := by
  unfold coldReset
  exact if_pos (by simpa using h)

/-- The part that a released package tests: its straps are sampled, and its primary is the strapped one. -/
def Chip.strapped (c : Chip) (straps : Straps) : Chip :=
  { c with pkg := { c.pkg with power := .rom, straps := straps }, tick := { c.tick with primary := straps.head },
           heads := c.heads.map (HeadSt.released c.now) }

/-- The release of a package in reset: a nonce, and the tested part. -/
theorem pkgResetDeassert_inReset {s : State} (straps : Straps) (h : s.chip.pkg.power = .inReset) : ∃ x : SecSt,
    pkgResetDeassert straps s = { s with sec := x, chip := ((s.chip.spend 32).strapped straps).selfTest s.unit } := by
  refine ⟨{ s.sec with nonce := freeBytesAt s.chip.freeCtr 32 }, ?_⟩
  unfold pkgResetDeassert
  rw [if_neg (by simp [h])]
  rfl

theorem coldResetsComplete : ColdResetsComplete := by
  refine ⟨fun s hstopped htrip => ?_, fun s hstopped => ?_, fun s straps hstraps hreset => ?_, fun s => ?_⟩
  · exact ⟨_, congrArg Host.Outcome.next (coldReset_runs hstopped htrip), rfl, rfl, rfl, rfl, rfl, rfl, rfl, rfl, rfl, rfl, rfl, rfl,
      rfl, rfl, rfl⟩
  · exact congrArg Host.Outcome.next (coldReset_tripped hstopped)
  · obtain ⟨x, hdeassert⟩ := pkgResetDeassert_inReset straps hreset
    obtain ⟨hpkg, htick⟩ := Chip.SamePkgTick.selfTest ((s.chip.spend 32).strapped straps) s.unit
    have hexec : exec (.pkgResetDeassert straps) s = .next (pkgResetDeassert straps s) := if_pos hstraps
    generalize Chip.selfTest _ s.unit = d at hdeassert hpkg htick
    refine ⟨_, hexec.trans (congrArg Host.Outcome.next hdeassert), ?_, ?_, ?_, ?_, rfl⟩
    · exact congrArg PkgSt.power hpkg
    · exact congrArg PkgSt.straps hpkg
    · exact congrArg TickSt.primary htick
    · exact (congrArg TickSt.count htick :)
  · exact ⟨powerDown s, rfl, rfl, rfl, rfl, rfl, rfl, rfl, rfl⟩

/-! ## What a warm reset has cleared stays cleared (R518, R587, Table 20.5) -/

/-- Counts of a pseudo-channel and of a Bead that start anew. -/
def PcSt.Anew (x : PcSt) : Prop := x.corrected = 0 ∧ x.uncorrectable = 0
def BeadSt.Anew (b : BeadSt) : Prop := b.fences = 0 ∧ b.locketCorrected = 0 ∧ b.replay = none

/-- What a warm reset clears, the faults that have been found among it. -/
structure Chip.Cleared (c : Chip) : Prop where
  locket : c.locket = []
  tables : c.tables = []
  scratch : c.scratch = []
  raised : c.raised = []
  pcs : ∀ e ∈ c.pcs, e.2.Anew
  beads : ∀ e ∈ c.beads, e.2.Anew

theorem Chip.log_raised (c : Chip) (r : FaultRec) : (c.log r).raised = c.raised := by
  obtain ⟨_, h⟩ := c.log_eq r
  rw [h]

namespace Chip.Cleared
variable {c d : Chip}

/-- The Bead and pseudo-channel that no table lists are anew as well. -/
theorem bead (h : c.Cleared) (p : Nat) : (c.bead p).Anew := Tbl.get_of_forall h.beads ⟨rfl, rfl, rfl⟩ p
theorem pcSt (h : c.Cleared) (i : Nat) : (c.pcSt i).Anew := Tbl.get_of_forall h.pcs ⟨rfl, rfl⟩ i

/-- A change elsewhere keeps what is cleared. -/
theorem of_eq (h : c.Cleared) (hlocket : d.locket = c.locket) (htables : d.tables = c.tables) (hscratch : d.scratch = c.scratch)
    (hraised : d.raised = c.raised) (hpcs : d.pcs = c.pcs) (hbeads : d.beads = c.beads) : d.Cleared :=
  ⟨hlocket.trans h.locket, htables.trans h.tables, hscratch.trans h.scratch, hraised.trans h.raised, hpcs ▸ h.pcs, hbeads ▸ h.beads⟩

theorem log (h : c.Cleared) (r : FaultRec) : (c.log r).Cleared :=
  h.of_eq (Chip.log_locket ..) (Chip.log_tables ..) (Chip.log_scratch ..) (Chip.log_raised ..) (Chip.log_pcs ..) (Chip.log_beads ..)

theorem setBead (h : c.Cleared) {b : BeadSt} (hb : b.Anew) (p : Nat) : (c.setBead p b).Cleared :=
  ⟨h.locket, h.tables, h.scratch, h.raised, h.pcs, Tbl.forall_put h.beads hb⟩

theorem setPc (h : c.Cleared) {x : PcSt} (hx : x.Anew) (i : Nat) : (c.setPc i x).Cleared :=
  ⟨h.locket, h.tables, h.scratch, h.raised, Tbl.forall_put h.pcs hx, h.beads⟩

theorem setStack (h : c.Cleared) (n : Nat) (x : StackSt) : (c.setStack n x).Cleared := h.of_eq rfl rfl rfl rfl rfl rfl

theorem setFacet (h : c.Cleared) (f : Nat) (x : FacetSt) : (c.setFacet f x).Cleared := h.of_eq rfl rfl rfl rfl rfl rfl

theorem iter {f : Nat → Chip → Chip} (hf : ∀ i c, Chip.Cleared c → (f i c).Cleared) (n : Nat) (h : c.Cleared) :
    (iter n f c).Cleared :=
  iter_keeps (fun a b : Chip => a.Cleared → b.Cleared) (fun _ => id) (fun _ _ _ h1 h2 => h2 ∘ h1) n f hf c h

theorem substitute (h : c.Cleared) (f row : Nat) : (c.substitute f row).Cleared := by
  rcases c.substitute_eq f row with heq | ⟨x, p, r, heq⟩
  · rw [heq]
    exact h
  · rw [heq]
    refine log ?_ r
    refine setBead (h.setFacet f x) ?_ p
    exact (h.setFacet f x).bead p

theorem substituteAll (h : c.Cleared) : c.substituteAll.Cleared := by
  unfold Chip.substituteAll
  exact h.iter (fun i c hc => Chip.Cleared.substitute hc _ _) 40

theorem drainQueue (h : c.Cleared) (pc : Nat) : (c.drainQueue pc).Cleared := by
  have hmemory := c.drainQueue_only pc
  have hparts : (c.settled pc).SameChannels (c.drainQueue pc) := .foldl _ (fun c r => .partDone c false r) _ _
  have hpcs : ∀ e ∈ (c.drainQueue pc).pcs, e.2.Anew := by
    rcases Chip.SameChannels.settled c pc with hserved | ⟨hqueue, -⟩
    · have hqueue : (c.updPc pc fun y => { y with queue := [] }).Cleared := by
        refine setPc h ?_ pc
        exact h.pcSt pc
      rw [(hserved.trans hparts).pcs]
      exact hqueue.pcs
    · rw [Chip.drainQueue_empty hqueue]
      exact h.pcs
  obtain ⟨_, _, _, _, _, _, _, _, _, _, _, heq⟩ := hmemory
  rw [heq] at hpcs ⊢
  exact ⟨h.locket, h.tables, h.scratch, h.raised, hpcs, h.beads⟩

theorem stopSlice (h : c.Cleared) (st : Nat) : (c.stopSlice st).Cleared := by
  unfold Chip.stopSlice
  split
  · exact h
  · next k _ =>
    refine setStack (setPc h ?_ k.pc) _ _
    exact h.pcSt k.pc

theorem stackBack (h : c.Cleared) (st : Nat) : (c.stackBack st).Cleared := by
  unfold Chip.stackBack
  extract_lets stopped x trained repaired
  have htrained : trained.Cleared := by
    simp only [trained]
    split
    · exact h.stopSlice st
    · exact ((h.stopSlice st).setStack _ _).log _
  have hrepaired : repaired.Cleared := htrained.setStack _ _
  exact foldl_keeps (fun a b : Chip => a.Cleared → b.Cleared) (fun _ => id) (fun _ _ _ h1 h2 => h2 ∘ h1) _
    (fun c e hc => Chip.Cleared.drainQueue hc e.1) _ repaired hrepaired

end Chip.Cleared

/-! ## Clasps that return (R518, R546, Table 15.2) -/

/-- The ports of a Clasp that returns are down again, with a record each. -/
def Chip.portBack (n : Nat) (k : Option Nat) (i : Nat) (c : Chip) : Chip :=
  if (c.port (6 * n + i)).st = 6 && (c.port (6 * n + i)).fenceRec = k then
    (c.updPort (6 * n + i) fun y => { y with st := 0, fenceRec := none }).log (faultRec 2 domPort 0x10 (dieClasp n) (6 * n + i))
  else c

/-- What the return of a Clasp leaves alone beside the Clasps: what a warm reset clears. -/
theorem Chip.portBack_clasps (n : Nat) (k : Option Nat) (i : Nat) (c : Chip) : (Chip.portBack n k i c).clasps = c.clasps := by
  unfold Chip.portBack
  split
  · exact Chip.log_clasps ..
  · rfl

theorem Chip.Cleared.portBack {c : Chip} (h : c.Cleared) (n : Nat) (k : Option Nat) (i : Nat) : (Chip.portBack n k i c).Cleared := by
  unfold Chip.portBack
  split
  · exact (h.of_eq (d := c.updPort (6 * n + i) _) rfl rfl rfl rfl rfl rfl).log _
  · exact h

/-- A Clasp back in service, before its ports are. -/
def Chip.claspServes (c : Chip) (n : Nat) : Chip :=
  ((c.log (c.domainRec 2 (c.clasp n).fenceRec domClasp (dieClasp n) 0)).updClasp n fun _ => ClaspSt.fresh).updHead n fun h =>
    { h with link := if h.link = 3 then 0 else h.link }

/-- A Clasp out of service that passes its self-test. -/
theorem Chip.claspBack_returns {c : Chip} {u : UnitFacts} {n : Nat} (hout : (c.clasp n).svc ≠ .inService)
    (hgood : u.badClasps.contains n = false) :
    ∃ (d : Chip) (qs : Tbl QueueSt), d = iter 6 (Chip.portBack n (c.clasp n).fenceRec) (c.claspServes n) ∧
      c.claspBack u n = { d with queues := qs } := by
  refine ⟨_, (iter 6 (Chip.portBack n (c.clasp n).fenceRec) (c.claspServes n)).queues.map fun e =>
    (e.1, if e.2.head = n then { e.2 with active := n } else e.2), rfl, ?_⟩
  unfold Chip.claspBack
  simp only [if_neg hout, hgood, Bool.false_eq_true, if_false]
  rfl

theorem Chip.Cleared.claspServes {c : Chip} (h : c.Cleared) (n : Nat) : (c.claspServes n).Cleared :=
  (h.log _).of_eq rfl rfl rfl rfl rfl rfl

theorem Chip.Cleared.claspBack {c : Chip} (h : c.Cleared) (u : UnitFacts) (n : Nat) : (c.claspBack u n).Cleared := by
  by_cases hin : (c.clasp n).svc = .inService
  · unfold Chip.claspBack
    simp only [if_pos hin]
    exact h.of_eq rfl rfl rfl rfl rfl rfl
  · cases hgood : u.badClasps.contains n with
    | true =>
      unfold Chip.claspBack
      simp only [if_neg hin, hgood, if_true]
      exact h
    | false =>
      obtain ⟨d, qs, hd, hback⟩ := Chip.claspBack_returns hin hgood
      have hports : d.Cleared := hd ▸ (h.claspServes n).iter (fun i c hc => hc.portBack n _ i) 6
      rw [hback]
      exact hports.of_eq rfl rfl rfl rfl rfl rfl

theorem Chip.claspBack_svc {c : Chip} (u : UnitFacts) {n : Nat} (hn : n < c.clasps.length) (hout : (c.clasp n).svc ≠ .inService) :
    ((c.claspBack u n).clasp n).svc = if u.badClasps.contains n then (c.clasp n).svc else .inService := by
  cases hgood : u.badClasps.contains n with
  | true =>
    unfold Chip.claspBack
    simp only [if_neg hout, hgood, if_true]
  | false =>
    obtain ⟨d, qs, hd, hback⟩ := Chip.claspBack_returns hout hgood
    have hports : d.clasps = (c.claspServes n).clasps := by
      rw [hd]
      exact iter_keeps (fun a b : Chip => b.clasps = a.clasps) (fun _ => rfl) (fun _ _ _ h1 h2 => h2.trans h1) 6 _
        (fun i c => Chip.portBack_clasps n _ i c) _
    have hserves : (c.claspServes n).clasp n = ClaspSt.fresh :=
      Chip.clasp_updClasp (c := c.log _) (by rwa [Chip.log_clasps]) _
    rw [hback, if_neg (by decide)]
    exact (congrArg (fun l : List ClaspSt => (l.getD n ClaspSt.fresh).svc) hports).trans (congrArg ClaspSt.svc hserves)

/-! ## Warm resets (R518, R547, R548, R587) -/

/-- The part as a warm reset clears it, before spares, stacks and Clasps return. -/
def Chip.warmCleared (c : Chip) : Chip :=
  { c with locket := [], tables := [], scratch := [], beads := c.beads.mapVals BeadSt.warm, facets := c.facets.mapVals FacetSt.warm,
           pcs := c.pcs.mapVals PcSt.warm, pairs := c.pairs.mapVals PairSt.warm, heads := c.heads.map HeadSt.warm,
           ports := c.ports.mapVals PortSt.warm, telem := c.telem.warm, raised := [] }

theorem Chip.warmCleared_cleared (c : Chip) : c.warmCleared.Cleared :=
  ⟨rfl, rfl, rfl, rfl, Tbl.forall_mapVals fun _ => ⟨rfl, rfl⟩, Tbl.forall_mapVals fun _ => ⟨rfl, rfl, rfl⟩⟩

theorem Chip.warmBody_cleared (c : Chip) (u : UnitFacts) : (c.warmBody u).Cleared := by
  unfold Chip.warmBody
  extract_lets js halted left written cleared spared stacked returned
  have hcleared : cleared.Cleared := written.warmCleared_cleared
  have hspared : spared.Cleared := hcleared.substituteAll
  have hstacked : stacked.Cleared := hspared.iter (fun st c hc => hc.stackBack st) 20
  have hreturned : returned.Cleared := hstacked.iter (fun n c hc => hc.claspBack u n) 2
  clear_value returned
  exact hreturned.of_eq rfl rfl rfl rfl rfl rfl

theorem barWarmReset_asked {c : Chip} {h : Nat} {production : Bool} (hup : c.headUp h = true) (hopen : c.ioClosed production h = false)
    (hpower : c.pkg.power = .running) : barWarmReset h 4 1 production c = { c with pkg := { c.pkg with warmAsked := true } } := by
  simp [barWarmReset, hup, hopen, hpower]

theorem warmReset_asked {s : State} (hasked : s.chip.pkg.warmAsked = true) (hpower : s.chip.pkg.power = .running) :
    warmReset s = (inState s ((s.chip.announce 2).warmBody s.unit)).warmLoad := by
  unfold warmReset
  rw [if_pos (by simp [hasked, hpower])]
  rfl

theorem warmResetsComplete : WarmResetsComplete := by
  refine ⟨fun s h hhead hup hopen hpower => ?_, fun s hasked hpower => ?_, fun c u => ?_, fun c u => ?_,
    fun c u n _ hn hout => Chip.claspBack_svc u hn hout⟩
  · have hwf : (Instr.warmResetRequest (.bar h 4 1)).wf = true := doorbell_wf hhead (by decide)
    have hexec : exec (.warmResetRequest (.bar h 4 1)) s = .next (inState s (barWarmReset h 4 1 s.otp.production s.chip)) := if_pos hwf
    rw [hexec, barWarmReset_asked hup hopen hpower]
  · exact congrArg Host.Outcome.next (warmReset_asked hasked hpower)
  · obtain ⟨hlocket, htables, hscratch, hraised, -, -⟩ := c.warmBody_cleared u
    exact ⟨hlocket, htables, hscratch, hraised⟩
  · obtain ⟨-, -, -, -, hpcs, hbeads⟩ := c.warmBody_cleared u
    exact ⟨hpcs, hbeads⟩

/-! ## Head and Facet resets (R36, R512, R666, R667) -/

theorem Chip.updHead_head {c : Chip} {h : Nat} (hh : h < c.heads.length) (g : HeadSt → HeadSt) :
    (c.updHead h g).head h = g (c.head h) := by
  simp [Chip.head, Chip.updHead, modAt, List.getD_eq_getElem?_getD, hh]

/-- A link that has left L0: the heads and the jobs. -/
theorem Chip.linkDown_heads (c : Chip) (h st : Nat) :
    (c.linkDown h st).heads = modAt c.heads h (fun x => { x with link := st, width := 0, rate := 0, ide := 0, cache := [] }) ∧
      (c.linkDown h st).jobs = c.jobs := by
  unfold Chip.linkDown
  extract_lets down
  obtain ⟨_, _, _, _, _, _, _, _, _, _, _, hreleased⟩ := ({ down with held := down.held.filter (·.2 != h) } : Chip).releaseBi_only
  rw [hreleased]
  exact ⟨rfl, rfl⟩

/-- The head once its PERST_N has been asserted and released. -/
theorem headReset_head {c : Chip} {h : Nat} (hh : h < c.heads.length) (halive : c.alive = true) (hclasp : (c.clasp h).svc = .inService) :
    (headReset h c).head h =
        { c.head h with link := 0, width := 0, rate := 0, ide := 0, cache := [], perstUp := c.now } ∧ (headReset h c).jobs = c.jobs := by
  unfold headReset
  extract_lets pkg low down
  have hdown : down = low.linkDown h 0 := if_pos hclasp
  have halive' : ¬(!c.alive) = true := by simp [halive]
  obtain ⟨hheads, hjobs⟩ := low.linkDown_heads h 0
  rw [if_neg halive', hdown]
  obtain ⟨sent, hsent⟩ := c.noteHeads_eq ((low.linkDown h 0).updHead h (HeadSt.released c.now))
  rw [hsent]
  have hlow : (low.updHead h fun x => { x with link := 0, width := 0, rate := 0, ide := 0, cache := [] }).head h =
      { c.head h with link := 0, width := 0, rate := 0, ide := 0, cache := [] } := Chip.updHead_head (c := low) hh _
  have hhead : (low.linkDown h 0).head h = { c.head h with link := 0, width := 0, rate := 0, ide := 0, cache := [] } := by
    rw [Chip.head, hheads]
    exact hlow
  have hlength : h < (low.linkDown h 0).heads.length := by
    rw [hheads]
    simpa [modAt] using hh
  refine ⟨(Chip.updHead_head hlength (HeadSt.released c.now)).trans ?_, hjobs⟩
  rw [hhead, HeadSt.released]

/-- A halted job takes the part beside the jobs nowhere. -/
theorem Chip.haltJob_besideJobs (c : Chip) (j : Nat) : (c.haltJob j).besideJobs = c.besideJobs := by
  unfold Chip.haltJob
  split
  · rfl
  · split
    · rfl
    · extract_lets e ended
      rw [foldl_besideJobs (fun c r => c.ringTell_besideJobs j r)]
      exact (Chip.updJob_besideJobs ..).trans (Chip.stopJob_besideJobs ..)

/-- The part once the jobs that a Facet's reset takes have halted and its lines are gone. -/
def Chip.facetHalted (c : Chip) (f : Nat) : Chip :=
  (c.jobsWith fun j y => y.phase = .bound && c.onFacet f j y).foldl Chip.haltJob ((c.poolLinesLost (c.facet f)).dropLines f)

theorem Chip.facetHalted_facet (c : Chip) (f : Nat) : (c.facetHalted f).facet f = { c.facet f with dirty := [] } := by
  rw [Chip.facetHalted, Chip.facet_of_besideJobs (foldl_besideJobs (fun c j => c.haltJob_besideJobs j) _ _), Chip.dropLines_facet]
  simp [Chip.facet, Chip.poolLinesLost]

theorem facetReset_resets {c : Chip} {f : Nat} (hpower : c.pkg.power = .running) (hsvc : (c.facet f).svc = .inService)
    (hin : (c.facet f).inReset = false) : ∃ (d : Chip) (beads : Tbl BeadSt), d = c.facetHalted f ∧
      facetReset f c = ({ d with beads := beads, locket := d.locket.clear (lockKey (120 * f) 0 0) (lockKey (120 * f + 120) 0 0),
                                 tables := d.tables.clear (tableKey (120 * f) 0 0) (tableKey (120 * f + 120) 0 0) }).updFacet f
        fun y => { y with inReset := true } := by
  refine ⟨_, (c.facetHalted f).beads.map fun e => (e.1, if physFacet e.1 = f then
    { e.2 with tabSel := BeadSt.fresh.tabSel, shadowFull := BeadSt.fresh.shadowFull, replay := none, retry := [] } else e.2), rfl, ?_⟩
  unfold facetReset
  exact if_neg (by simp [hpower, hsvc, hin])

theorem headAndFacetResetsComplete : HeadAndFacetResetsComplete := by
  refine ⟨fun s h hhead hh halive hclasp => ?_, fun s f hf hpower hsvc hin => ?_⟩
  · obtain ⟨hreset, hjobs⟩ := headReset_head hh halive hclasp
    exact ⟨_, exec_onChip rfl hhead rfl, congrArg HeadSt.link hreset, congrArg HeadSt.ide hreset, congrArg HeadSt.perstUp hreset,
      congrArg HeadSt.cache hreset, hjobs⟩
  · obtain ⟨d, beads, hd, hreset⟩ := facetReset_resets hpower hsvc hin
    have hfacet := s.chip.facetHalted_facet f
    rw [← hd] at hfacet
    have hafter : (facetReset f s.chip).facet f = { d.facet f with inReset := true } := by
      rw [hreset, Chip.updFacet_eq, Chip.setFacet_facet, if_pos rfl]
      rfl
    rw [hfacet] at hafter
    refine ⟨_, exec_onChip rfl hf rfl, congrArg FacetSt.inReset hafter, congrArg FacetSt.dirty hafter, fun a hlo hhi => ?_,
      fun a hlo hhi => ?_⟩
    · refine (congrArg (fun c : Chip => c.locket.read a) hreset).trans ?_
      exact (Mem.read_clear _ _ _ _).trans (if_pos ⟨hlo, hhi⟩)
    · refine (congrArg (fun c : Chip => c.tables.read a) hreset).trans ?_
      exact (Mem.read_clear _ _ _ _).trans (if_pos ⟨hlo, hhi⟩)

end Sys2Proof.Machine

namespace Sys2Proof.Claims
open Sys2Proof Sys2Proof.Machine

/-- Settles O30. -/
theorem resetsComplete : Obligations.ResetsComplete := ⟨coldResetsComplete, warmResetsComplete, headAndFacetResetsComplete⟩

end Sys2Proof.Claims
end
